-- ==== Sys2Proof/Word.lean ====
section
/-! DEFINITION. The words of the machine: a scalar register (64 bits), a vector register (1,024 bits), a mask
register (128 bits), a byte; and the plain sparse table every numbered collection of the state is kept in. -/
namespace Sys2Proof

/-- A scalar register, a branch-target register or a control register (R52, R57). -/
abbrev Word := BitVec 64
/-- A vector register (R52, R147): byte 0 is bits [7:0]. -/
abbrev VReg := BitVec 1024
/-- A mask register, one bit per byte of a vector register (R52). -/
abbrev KReg := BitVec 128
/-- One byte. -/
abbrev Byte := BitVec 8
/-- An FA80 accumulator element (R82). -/
abbrev Fa80 := BitVec 80
/-- A table from numbers to values, as a list of pairs; a number that is not listed holds the reader's default. -/
abbrev Tab (α : Type) := List (Nat × α)

end Sys2Proof
end

