-- ==== Sys2Proof/Config.lean ====
section
/-! DEFINITION. What the spec leaves open and the model leaves free: opaque constants, each applied to the counter of
free values that State holds (or to the operands the open value depends on). Nothing in Lean can evaluate them. -/
namespace Sys2Proof.Config

/-- A 64-bit value the architecture does not define. -/
opaque freeWord : Nat → BitVec 64
/-- A 1,024-bit value the architecture does not define. -/
opaque freeVec : Nat → BitVec 1024
/-- A byte the architecture does not define. -/
opaque freeByte : Nat → BitVec 8
/-- A choice the spec leaves to the part (a replaced TLB entry, the value an undefined read returns). -/
opaque freePick : Nat → Nat
/-- Core cycles an issue takes beyond its stated cost: hazards, misses, contention (R118, R237). -/
opaque freeStall : Nat → Nat
/-- Nanoseconds that pass between two steps; the clock of a cluster is not fixed (R17). -/
opaque freeTime : Nat → Nat
/-- The device's own identity (R396, R418). -/
opaque devid : BitVec 64
/-- The version of the boot ROM (R418). -/
opaque romVersion : BitVec 64
/-- The digest of a firmware image, by its version and byte (R418). -/
opaque imageDigest : Nat → Nat → BitVec 8
/-- The certificate chain after the identity, and its digest, by byte (R418). -/
opaque chainRest : Nat → BitVec 8
opaque chainDigest : Nat → BitVec 8
/-- Whether the payload of a request or response that arrives over a Wenkel port is for another route, and for which (R400): the
spec does not lay the payload out. -/
opaque flitRoute : List Nat → Option Nat
/-- The compressor's stream for a block of 4,096 bytes (R243 fixes that it is deterministic, not what it is). -/
opaque compressor : List (BitVec 8) → List (BitVec 8)

end Sys2Proof.Config
end

