-- ==== Sys2Proof/Machine/Tab.lean ====
section
/-! DEFINITION. Tables by number and the memory as a list of cells: the two containers every piece of sparse state is
kept in. A table keeps one entry per number in rising order; the memory lists an address only where its byte is not
zero, in rising order. -/
namespace Sys2Proof

/-- The value at number `n`, if listed. -/
def Tab.get? {α : Type} : Tab α → Nat → Option α
  | [], _ => none
  | (m, y) :: t, n => if m = n then some y else Tab.get? t n

/-- The value at number `n`, or the default. -/
def Tab.getD {α : Type} (t : Tab α) (n : Nat) (d : α) : α :=
  match Tab.get? t n with
  | some x => x
  | none => d

/-- Put `x` at number `n`. -/
def Tab.set {α : Type} : Tab α → Nat → α → Tab α
  | [], n, x => [(n, x)]
  | (m, y) :: t, n, x =>
    if n < m then (n, x) :: (m, y) :: t
    else if n = m then (n, x) :: t
    else (m, y) :: Tab.set t n x

/-- Remove number `n`. -/
def Tab.erase {α : Type} (t : Tab α) (n : Nat) : Tab α := t.filter fun e => e.1 != n

/-- Is number `n` listed? -/
def Tab.has {α : Type} (t : Tab α) (n : Nat) : Bool := (Tab.get? t n).isSome

/-- The listed numbers. -/
def Tab.keys {α : Type} (t : Tab α) : List Nat := t.map (·.1)

/-- The listed values. -/
def Tab.vals {α : Type} (t : Tab α) : List α := t.map (·.2)

/-- Apply `f` to the value at number `n`, if listed. -/
def Tab.modify {α : Type} (t : Tab α) (n : Nat) (f : α → α) : Tab α :=
  t.map fun e => if e.1 = n then (e.1, f e.2) else e

/-- A memory of bytes in canonical form (see `Memory.wf`); an address that is not listed reads as zero. -/
abbrev Memory := List (Nat × BitVec 8)

/-- The one definition of what an unlisted address reads as (DESIGN CHOICE, notes/assumptions/2.md). -/
def Memory.unlisted : Byte := 0

/-- Read one byte. -/
def Memory.read : Memory → Nat → Byte
  | [], _ => Memory.unlisted
  | (m, y) :: t, n => if n < m then Memory.unlisted else if n = m then y else Memory.read t n

/-- Write one byte; the canonical form is kept: writing what an unlisted address reads as removes the entry. -/
def Memory.write : Memory → Nat → Byte → Memory
  | [], n, x => if x = Memory.unlisted then [] else [(n, x)]
  | (m, y) :: t, n, x =>
    if n < m then (if x = Memory.unlisted then (m, y) :: t else (n, x) :: (m, y) :: t)
    else if n = m then (if x = Memory.unlisted then t else (n, x) :: t)
    else (m, y) :: Memory.write t n x

/-- The canonical form: addresses strictly rising from `lo`, no entry equal to what an unlisted address reads as. -/
def Memory.wfFrom : Nat → Memory → Bool
  | _, [] => true
  | lo, (m, y) :: t => decide (lo ≤ m) && decide (y ≠ Memory.unlisted) && Memory.wfFrom (m + 1) t

/-- The memory is in canonical form. -/
def Memory.wf (m : Memory) : Bool := Memory.wfFrom 0 m

/-- `n` bytes from address `a`. -/
def Memory.bytes (m : Memory) (a : Nat) : Nat → List Byte
  | 0 => []
  | n + 1 => m.read a :: Memory.bytes m (a + 1) n

/-- Write a list of bytes from address `a`. -/
def Memory.putBytes : Memory → Nat → List Byte → Memory
  | m, _, [] => m
  | m, a, x :: t => Memory.putBytes (m.write a x) (a + 1) t

/-- The number a list of bytes stands for, little-endian (R39). -/
def natOfBytes : List Byte → Nat
  | [] => 0
  | x :: t => x.toNat + 256 * natOfBytes t

/-- The `n` low bytes of a number, little-endian (R39). -/
def bytesOfNat : Nat → Nat → List Byte
  | 0, _ => []
  | n + 1, v => BitVec.ofNat 8 v :: bytesOfNat n (v / 256)

end Sys2Proof
end

