-- ==== Sys2Proof/Machine/Codec.lean ====
section
/-! DEFINITION. Compressed blocks (R239-R243): metadata entries, the KZ decoder, the encoder's frame. -/
namespace Sys2Proof.Machine

/-! ## Check sums -/

/-- One byte of a reflected CRC with polynomial `poly`. -/
def crcByte (poly : Nat) : Nat → Nat → Nat
  | 0, c => c
  | n + 1, c => crcByte poly n (if c % 2 = 1 then (c / 2) ^^^ poly else c / 2)
/-- CRC-32C of bytes (R239). -/
def crc32c (bs : List Byte) : Nat :=
  (bs.foldl (fun c b => crcByte 0x82F63B78 8 (c ^^^ b.toNat)) 0xFFFFFFFF) ^^^ 0xFFFFFFFF

/-! ## KZ streams (R240, R241) -/

/-- Code lengths of the 64 symbols. -/
def kzLengths (bits : Nat) : List Nat := (List.range 64).map fun s => bits / 2 ^ (4 * s) % 16

/-- Symbols of a length, in ascending order. -/
def symbolsOf (ls : List Nat) (n : Nat) : List Nat := (List.range 64).filter fun s => ls.getD s 0 = n

/-- The code space that the lengths take, in codes of 15 bits. -/
def codeSpace (ls : List Nat) : Nat := (ls.filter (· ≠ 0)).foldl (fun t l => t + 2 ^ (15 - l)) 0

/-- The symbol whose canonical code stands at bit `pos`, with the position after it; `none` where the bits begin no code,
and `some none` where the stream ends first. `len` is the length tried next. -/
def kzSymbol (ls : List Nat) (bits size : Nat) : Nat → Nat → Nat → Nat → Nat → Option (Option (Nat × Nat))
  | 0, _, _, _, _ => none
  | fuel + 1, len, code, first, pos =>
    if size ≤ pos then some none
    else
      let code := code * 2 + bits / 2 ^ pos % 2
      let syms := symbolsOf ls len
      if code < first + syms.length && first ≤ code then some (some (syms.getD (code - first) 0, pos + 1))
      else if codeSpace ls ≤ code * 2 ^ (15 - len) then none
      else kzSymbol ls bits size fuel (len + 1) code ((first + syms.length) * 2) (pos + 1)

/-- Copy `n` bytes from `d` before the end, one at a time; the output is held last byte first. -/
def kzBack (d : Nat) : Nat → List Byte → List Byte
  | 0, out => out
  | n + 1, out => kzBack d n (out.getD d 0 :: out)

/-- Literal bytes from bit `pos`, put in front of the output. -/
def kzLit (bits : Nat) : Nat → Nat → List Byte → List Byte
  | 0, _, out => out
  | n + 1, pos, out => kzLit bits n (pos + 8) (BitVec.ofNat 8 (bits / 2 ^ pos) :: out)

/-- Tokens until END (R240): the block, or reason and bit offset of the failing token (R241). Of a literal run that is too
long each byte is first read and then output (notes/assumptions/23.md). -/
def kzTokens (ls : List Nat) (bits size : Nat) : Nat → Nat → List Byte → Except (Nat × Nat) (List Byte)
  | 0, pos, _ => .error (4, pos)
  | fuel + 1, pos, out =>
    match kzSymbol ls bits size 15 1 0 0 pos with
    | none => .error (2, pos)
    | some none => .error (5, pos)
    | some (some (s, p)) =>
      if s = 63 then (if out.length = 4096 then .ok out.reverse else .error (4, pos))
      else
        let extra := if s < 16 then 0 else if s < 32 then 4 else 12
        let e := bits / 2 ^ p % 2 ^ extra
        let n := if s < 16 then s + 1 else if s < 32 then (s - 16) * 16 + e + 1 else s - 29
        let q := p + extra + (if s < 16 then 8 * n else 0)
        if s < 16 && 4096 < out.length + n && p + 8 * (4097 - out.length) ≤ size then .error (4, pos)
        else if size < q then .error (5, pos)
        else if 32 ≤ s && out.length < e + 1 then .error (3, pos)
        else if 4096 < out.length + n then .error (4, pos)
        else kzTokens ls bits size fuel q
          (if s < 16 then kzLit bits n p out else if s < 32 then List.replicate n 0 ++ out else kzBack e n out)

/-- Decode a KZ stream. -/
def kzDecode (stream : List Byte) : Except (Nat × Nat) (List Byte) :=
  let bits := natOfBytes stream
  let ls := kzLengths bits
  if ls.all (· = 0) || 2 ^ 15 < codeSpace ls then .error (1, 0)
  else kzTokens ls bits (8 * stream.length) 4097 256 []

/-! ## Blocks with metadata (R239, R243) -/

/-- A metadata entry is in error (R239): `stream` is the LEN × 32 stored bytes. -/
def metaBad (e : Nat) (stream : List Byte) : Bool :=
  let len := e % 256
  let codec := e / 256 % 256
  129 ≤ len || 2 ≤ codec || (codec = 0 && 1 ≤ len && len ≤ 127) ||
    e / 2 ^ 32 % 2 ^ 32 != (if len = 0 then 0 else crc32c stream)

/-- Expand a block from its metadata entry and the bytes after it: the block, or reason and offset; reason 0 is an entry
in error, of which R241 lists no reason. -/
def expandBlock (e : Nat) (bytes : List Byte) : Except (Nat × Nat) (List Byte) :=
  let stream := bytes.take (e % 256 * 32)
  if metaBad e stream then .error (0, 0)
  else if e % 256 = 0 then .ok (List.replicate 4096 0)
  else if e % 256 = 128 then .ok stream
  else kzDecode stream

/-- Pad to whole granules of 32 bytes. -/
def padGranule (l : List Byte) : List Byte := l ++ List.replicate ((32 - l.length % 32) % 32) 0

/-- Compress a block (R243): the compressor's stream is the part's own; one that is too long, or that the part's decoder
would not read back, is stored raw. -/
def compressBlock (bs : List Byte) : List Byte :=
  if bs.all (· = 0) then bytesOfNat 8 0
  else
    let st := padGranule (Config.compressor bs)
    let ok := match kzDecode st with | .ok l => l == bs | .error _ => false
    if st.length / 32 ≤ 127 && ok then
      bytesOfNat 8 (crc32c st * 2 ^ 32 + 256 + st.length / 32) ++ st
    else bytesOfNat 8 (crc32c bs * 2 ^ 32 + 128) ++ bs

end Sys2Proof.Machine
end

