-- ==== Sys2Proof/Syntax.lean ====
section
/-! DEFINITION. The instructions of the DK-7 (opcode map, R117) and the steps of its other agents, one constructor per
row of the opcode table, in the table's order but for reservedOpcode, which stands before the events. Numbers of registers are natural numbers; WellFormed.lean says which
are meant. Fields that an instruction does not use are no argument (R104). -/
namespace Sys2Proof

/-- A scalar, vector or mask source with its last-use mark (R53). -/
structure Src where
  n : Nat
  last : Bool
deriving DecidableEq, Repr

/-- Element types (R115), in the order of their codes 0-14. -/
inductive ETy where
  | f32 | bf16 | f16 | e4m3 | e5m2 | mk8 | e2m1 | i32 | n32 | i16 | n16 | i8 | n8 | i64 | n64
deriving DecidableEq, Repr

/-- Rounding modes (R87), in the order of their codes 0-5. -/
inductive Rnd where
  | rne | rtz | rdn | rup | rna | rsr
deriving DecidableEq, Repr

/-- Conditions (R116), in the order of their codes 0-7. -/
inductive Cond where
  | eq | ne | lt | le | gt | ge | un | ord
deriving DecidableEq, Repr

/-- Scopes (R115). -/
inductive Scope where
  | core | part | pkg | sys
deriving DecidableEq, Repr

/-- Orders (R115). -/
inductive Order where
  | rlx | acq | rel | sc
deriving DecidableEq, Repr

/-- Vote operations of `sync` (R310). -/
inductive VoteOp where
  | or | and | sum | pop
deriving DecidableEq, Repr

/-- Operations of `amo` (R205). -/
inductive AmoOp where
  | swap | add | and | or | xor | min | max | minu | maxu | fadd
deriving DecidableEq, Repr

/-- Operations of `kop` (R160). -/
inductive KOp where
  | and | or | xor | andn | orn | not
deriving DecidableEq, Repr

/-- Operations of `kmov` (R160). -/
inductive KMov where
  | copy | lo | hi | getlo | gethi | set | clr
deriving DecidableEq, Repr

/-- Block kinds of `vdq` (R170). -/
inductive DqKind where
  | sb4 | sb8 | mx4
deriving DecidableEq, Repr

/-- Matrix operand formats (R173), in the order of their codes 0-9. -/
inductive MFmt where
  | bf16 | e4m3 | e5m2 | mk8 | i8 | e2m1 | i4 | mx4 | sb4 | sb8
deriving DecidableEq, Repr

/-- `mxstat` operations (R196). -/
inductive MxStat where
  | rd | clr | cnt
deriving DecidableEq, Repr

/-- `rgst` operations (R214). -/
inductive RgOp where
  | desc | prod | rsv | cons | addr
deriving DecidableEq, Repr

/-- Directions of `hseek` (R383). -/
inductive SeekDir where
  | shortest | fwd | bwd
deriving DecidableEq, Repr

/-- Type slot, mask and zeroing of a vector instruction without a rounding slot (R109, R149). -/
structure MQ where
  ty : ETy
  k : Nat
  zero : Bool
deriving DecidableEq, Repr

/-- Type, rounding, saturation, mask and zeroing slots of a vector instruction (R109). -/
structure VQ where
  ty : ETy
  rnd : Rnd
  sat : Bool
  k : Nat
  zero : Bool
deriving DecidableEq, Repr

/-- Instructions and steps. `d` is the destination (or, where the description says so, a register read in the D field);
`Src` arguments carry last-use marks. -/
inductive Instr where
  -- page 0 (R119, R153, R310, R335)
  | add (d : Nat) (a b : Src)
  | addi (d : Nat) (a : Src) (imm : Int)
  | sub (d : Nat) (a b : Src)
  | and (d : Nat) (a b : Src)
  | or (d : Nat) (a b : Src)
  | xor (d : Nat) (a b : Src)
  | slli (d : Nat) (a : Src) (imm : Nat)
  | srli (d : Nat) (a : Src) (imm : Nat)
  | srai (d : Nat) (a : Src) (imm : Nat)
  | li (d : Nat) (imm : Int)
  | mov (d : Nat) (a : Src)
  | slt (d : Nat) (a b : Src)
  | sltu (d : Nat) (a b : Src)
  | seq (d : Nat) (a b : Src)
  | ld (d : Nat) (a : Src) (imm : Int)
  | st (d a : Src) (imm : Int)
  | pbr (d : Nat) (imm : Int)
  | br (imm : Int)
  | brnz (a : Src) (imm : Int)
  | brz (a : Src) (imm : Int)
  | wait (l s c m h : Nat)
  | mcall (slot p0 p1 p2 p3 : Nat)
  | vld (q : MQ) (d : Nat) (a : Src) (imm : Int)
  | vst (ty : ETy) (k : Nat) (d a : Src) (imm : Int)
  | vmov (q : MQ) (d : Nat) (a : Src)
  | vfma (q : VQ) (d : Nat) (a b : Src) (c : Option Src)
  | vadd (q : VQ) (d : Nat) (a b : Src)
  | vmul (q : VQ) (d : Nat) (a b : Src)
  | sync (op : VoteOp) (d : Nat) (a : Src)
  | halt
  | haltKill
  -- page 1 (R128)
  | mul (d : Nat) (a b : Src)
  | mulh (d : Nat) (a b : Src)
  | mulhu (d : Nat) (a b : Src)
  | div (d : Nat) (a b : Src)
  | divu (d : Nat) (a b : Src)
  | rem (d : Nat) (a b : Src)
  | remu (d : Nat) (a b : Src)
  | sll (d : Nat) (a b : Src)
  | srl (d : Nat) (a b : Src)
  | sra (d : Nat) (a b : Src)
  | fshr (d : Nat) (a b c : Src)
  | clz (d : Nat) (a : Src)
  | ctz (d : Nat) (a : Src)
  | popc (d : Nat) (a : Src)
  | bext (d : Nat) (a : Src) (pos len : Nat)
  | bins (d : Nat) (a : Src) (pos len : Nat)
  | min (d : Nat) (a b : Src)
  | max (d : Nat) (a b : Src)
  | minu (d : Nat) (a b : Src)
  | maxu (d : Nat) (a b : Src)
  | sel (d : Nat) (a b c : Src)
  | sext (w : Nat) (d : Nat) (a : Src)
  | zext (w : Nat) (d : Nat) (a : Src)
  | lea (sh : Nat) (d : Nat) (a b : Src)
  | andi (d : Nat) (a : Src) (imm : Int)
  | ori (d : Nat) (a : Src) (imm : Nat)
  | xori (d : Nat) (a : Src) (imm : Nat)
  -- page 2 (R132, R335, R327, R290, R412, R345)
  | call (imm : Int)
  | callB (d : Nat)
  | ret
  | breq (d : Nat) (a b : Src)
  | brne (d : Nat) (a b : Src)
  | brlt (d : Nat) (a b : Src)
  | brge (d : Nat) (a b : Src)
  | brltu (d : Nat) (a b : Src)
  | brgeu (d : Nat) (a b : Src)
  | pbrr (d : Nat) (a : Src)
  | mfb (d : Nat) (a : Nat)
  | yield
  | trap (code : Nat)
  | tret
  | mfc (d : Nat) (ctl : Nat)
  | mtc (ctl : Nat) (a : Src)
  | rdtime (d : Nat)
  | rdcyc (d : Nat)
  | mcw (slot : Nat) (a : Src)
  | mcinv (slot : Nat)
  | rpwS (d : Nat) (a b : Src)
  | rpwV (d : Nat) (a b : Src)
  | rpwDone (d : Nat) (a : Src)
  | rpwKill (d : Nat) (a : Src)
  | spawn (d : Nat) (a : Src)
  | tsig
  | ebrk (code : Nat)
  | retire (node : Nat)
  | pgateReq (d : Nat) (a : Src)
  | pgateQ (d : Nat) (a : Src)
  | pwake (d : Nat) (a : Src)
  | tmwait (d : Nat) (a : Src)
  -- page 3 (R200)
  | ldx (ty : ETy) (d : Nat) (a : Src) (imm : Int)
  | stx (ty : ETy) (d a : Src) (imm : Int)
  | vldu (q : MQ) (d : Nat) (a : Src) (imm : Int)
  | vstm (ty : ETy) (k : Nat) (d a : Src) (imm : Int)
  | vgath (q : MQ) (d : Nat) (a b : Src)
  | vscat (ty : ETy) (k : Nat) (a b c : Src)
  | amo (op : AmoOp) (w : Bool) (sc : Scope) (d : Nat) (a b : Src)
  | cas (w : Bool) (sc : Scope) (d : Nat) (a b c : Src)
  | aggadd (k : Nat) (zero : Bool) (sc : Scope) (d : Nat) (a b : Src)
  | fence (sc : Scope) (o : Order)
  | ldc (ty : ETy) (d : Nat) (a : Src) (imm : Int)
  | vldc (q : MQ) (d : Nat) (a : Src) (imm : Int)
  | pref (w : Bool) (a : Src) (imm : Int)
  | clinv (a : Src)
  | clwb (a : Src)
  -- page 4 (R154)
  | vsub (q : VQ) (d : Nat) (a b : Src)
  | vand (q : MQ) (d : Nat) (a b : Src)
  | vor (q : MQ) (d : Nat) (a b : Src)
  | vxor (q : MQ) (d : Nat) (a b : Src)
  | vsll (q : MQ) (d : Nat) (a b : Src)
  | vsrl (q : MQ) (d : Nat) (a b : Src)
  | vsra (q : MQ) (d : Nat) (a b : Src)
  | vfsh (q : MQ) (d : Nat) (a b c : Src)
  | vmin (q : MQ) (d : Nat) (a b : Src)
  | vmax (q : MQ) (d : Nat) (a b : Src)
  | vabs (q : VQ) (d : Nat) (a : Src)
  | vneg (q : VQ) (d : Nat) (a : Src)
  | vcmp (c : Cond) (q : MQ) (d : Nat) (a b : Src)
  | vsel (ty : ETy) (k : Nat) (d : Nat) (a b : Src)
  | vbcast (q : MQ) (d : Nat) (a : Src)
  | vext (ty : ETy) (d : Nat) (a b : Src)
  | vins (ty : ETy) (d : Nat) (a b : Src)
  | vperm (q : MQ) (d : Nat) (a b : Src)
  | vrot (q : MQ) (d : Nat) (a b : Src)
  | vgmax (q : MQ) (d : Nat) (a : Src)
  | vgsum (q : VQ) (d : Nat) (a : Src)
  | vscan (q : VQ) (d : Nat) (a : Src)
  | vclz (q : MQ) (d : Nat) (a : Src)
  | vpopc (q : MQ) (d : Nat) (a : Src)
  | kop (op : KOp) (d : Nat) (a b : Src)
  | kmov (op : KMov) (d : Nat) (a : Src)
  | kpop (ty : ETy) (d : Nat) (a : Src)
  | vcompr (q : MQ) (d : Nat) (a : Src)
  | vspread (q : MQ) (d : Nat) (a : Src)
  | viota (q : MQ) (d : Nat)
  -- page 5 (R155)
  | vrcp (q : VQ) (d : Nat) (a : Src)
  | vrsqrt (q : VQ) (d : Nat) (a : Src)
  | vexp2 (q : VQ) (d : Nat) (a : Src)
  | vlog2 (q : VQ) (d : Nat) (a : Src)
  | vtanh (q : VQ) (d : Nat) (a : Src)
  | vcvt (q : VQ) (d : Nat) (a : Src) (sty : ETy)
  | vround (q : VQ) (d : Nat) (a : Src)
  | vclass (q : MQ) (d : Nat) (a : Src)
  | vscale (q : VQ) (d : Nat) (a b : Src)
  | vdot (q : VQ) (d : Nat) (a b : Src)
  | vpack (q : VQ) (d : Nat) (a b : Src)
  | vunpk (q : MQ) (d : Nat) (a : Src) (half : Nat)
  | vqst (sb8 : Bool) (allow : Nat) (d a : Src) (imm : Int)
  | vqenc (sb8 : Bool) (allow : Nat) (d : Nat) (a : Src)
  | vdq (kind : DqKind) (rnd : Rnd) (sat : Bool) (k : Nat) (zero : Bool) (d : Nat) (a : Src)
  | vseed (k : Nat) (zero : Bool) (d : Nat)
  -- page 6 (R184)
  | mxbind (d : Nat) (a b : Src) (c : Option Src)
  | mxunbind (d : Nat)
  | mx (d : Nat) (n : Nat)
  | mxg (d : Nat) (a : Src)
  | mxzero (d : Nat)
  | mxld (d : Nat) (a : Src)
  | mxst (d : Nat) (a : Src)
  | mxdrain (keep : Bool) (d : Nat)
  | drrow (d : Nat)
  | drput (a : Src)
  | drdone (drop : Bool)
  | plane (fmt : MFmt) (d a : Src)
  | unplane (fmt : MFmt) (d a : Src)
  | mxstat (op : MxStat) (d : Nat) (a : Nat)
  -- page 7 (R200)
  | rgdef (q : Nat) (a b : Src)
  | rgrsv (d : Nat) (q : Nat) (b : Src)
  | rgpub (q : Nat) (a b : Src)
  | rgcon (d : Nat) (q : Nat) (b : Src)
  | rgst (op : RgOp) (d : Nat) (q : Nat) (b : Src)
  | cpy (rnd : Rnd) (sat : Bool) (d : Nat) (a b : Src) (c : Option Src)
  | cpys (rnd : Rnd) (sat : Bool) (d : Nat) (a b : Src)
  | cpst (d : Nat) (a b : Src)
  | fpush (f : Nat) (a : Src)
  | fpop (d : Nat) (f : Nat)
  | ffree (avail : Bool) (d : Nat) (f : Nat)
  | xput (d : Nat) (a b : Src)
  | xred (ty : ETy) (d : Nat) (a b : Src)
  | xget (d : Nat) (a b : Src)
  | xfin (ty : ETy) (d : Nat) (a b : Src)
  | msend (a b : Src)
  | mrecv (d : Nat)
  | mpoll (d : Nat)
  -- page 8 (R345, R304, R362)
  | bardef (n : Nat) (a : Src)
  | bar (rel : Bool) (n : Nat) (a : Src)
  | barv (d : Nat) (n : Nat)
  | bararr (rel : Bool) (d : Nat) (n : Nat) (b : Src)
  | barw (d : Nat) (n : Nat) (b : Src)
  | barwT (d : Nat) (n : Nat) (b c : Src)
  | bartx (n : Nat) (a : Src)
  | barst (pend : Bool) (d : Nat) (n : Nat)
  | evwait (e : Nat)
  | evsig (e : Nat)
  | evsigRmt (a b : Src)
  | keyqOwn (d : Nat) (idx : Nat)
  | keyqId (d : Nat) (a : Src)
  | keyrel (idx : Nat)
  | shadow (d : Nat) (a : Src)
  | publishSwap (a : Src)
  | publishDrop (a : Src)
  | snapTake (d : Nat) (a : Src)
  | snapDrop (a : Src)
  | tlbinvPage (a : Src)
  | tlbinvAll
  -- page 9 (R381)
  | hseek (dir : SeekDir) (h : Nat) (a : Src)
  | hrd (d : Nat) (h : Nat)
  | hwr (h : Nat) (a : Src)
  | hrew (h : Nat)
  | hpos (d : Nat) (h : Nat)
  | hstride (h : Nat) (a : Src)
  | htake (h : Nat)
  | hgive (h : Nat)
  | hrealign (h : Nat)
  | hmark (h : Nat)
  | hburst (h : Nat) (q : Nat) (b : Src)
  | hfill (h : Nat) (q : Nat) (b : Src)
  -- a reserved cell of the opcode map (R117); placed before the events, whatever its row in the table
  | reservedOpcode (page half : Nat)
  -- the command processor and the queues (R269-R276)
  | queueEnable (q : Nat)
  | queueDisable (q : Nat)
  | queueResume (q : Nat)
  | queueResumeSkip (q : Nat)
  | tail (q v : Nat)
  | launch (q : Nat)
  | copy (q : Nat)
  | signal (q : Nat)
  | waitCommand (q : Nat)
  | flush (q : Nat)
  | commandComplete (q c : Nat)
  | waitTimeout (q c : Nat)
  | queueDrained (q : Nat)
  | startTick (k : Nat)
  -- partition control (R331-R333); `fn` is 0 for the physical function and n for virtual function n
  | switchOut (fn p : Nat) (nextv : Bool) (next : Nat)
  | ptickReached (p : Nat)
  | switchOutDone (p : Nat)
  | switchIn (fn p : Nat)
  | switchInDone (p : Nat)
  | stop (fn p : Nat)
  | haltTreeStop (p reason dcause core : Nat)
  | partitionResume (fn p : Nat)
  | partitionKill (fn p : Nat)
  | balcmd (fn p v : Nat)
  | balancerPeriod (p : Nat)
  | clusterMapWrite (fn cl v : Nat)
  | trackMapWrite (fn core t v : Nat)
  | reindexDone (core t : Nat)
  | recover (v : Nat)
  | bar0RegisterWrite (fn addr size v : Nat)
  | hostBar2Access (fn addr : Nat) (write : Bool) (bytes : List Nat) (len : Nat)
  -- the dispatcher, keys and contexts (R283-R302, R328-R330, R63, R188, R195, R319)
  | dispatchPick (p : Nat)
  | instanceStart (n : Nat)
  | edgeRelease (i : Nat)
  | spawnEnqueue (k n : Nat)
  | ageplaceExpiry (p : Nat)
  | agekeyExpiry (p : Nat)
  | keyReleaseArrival (n : Nat)
  | contextPreempt (cid : Nat)
  | contextResume (cid core slot : Nat)
  | trackdataLoad (i : Nat)
  | budgetExpiry (cid : Nat)
  | drainRunLimit (core : Nat)
  | deferredTrap (cid : Nat)
  | contextWaitEnd (cid : Nat)
  -- accesses, messages, engines (R324, R225, R356, R68, R425, R228, R182-R194, R419)
  | deadLetterPost (n : Nat)
  | messageDelivery (n : Nat)
  | msgwaitExpiry (cid : Nat)
  | tlbWalkComplete (p vpage : Nat)
  | accessComplete (cid : Nat) (store : Bool)
  | atomicAtHome (cid : Nat)
  | copyLand (core : Nat)
  | firingStart (core cid tile : Nat)
  | gangedFiringStart (core cid tile : Nat)
  | firingComplete (core badRows : Nat)
  | assayRecompute (core badRows : Nat)
  | gangArrival (core : Nat)
  | drainStart (core cid tile : Nat)
  | drainHandlerRun (core : Nat)
  | drainRow (core : Nat)
  | matrixOpComplete (core : Nat)
  | chuteCredit (core : Nat) (up : Bool)
  -- event units, sync controller, tracks (R341-R351, R313-R317, R374-R388)
  | barrierPhaseComplete (cl n : Nat)
  | remoteEventArrival (n : Nat)
  | barrierWaitTimeout (cid : Nat)
  | timedWaitWake (cid : Nat)
  | syncExchangeComplete (i : Nat)
  | powerHoldEnd (i : Nat)
  | columnRelease (i col : Nat)
  | spanReleaseTick (i tick : Nat) (votes : List (Option (VoteOp × Nat)))
  | portTake (cid head : Nat)
  | seekComplete (cid head : Nat)
  | holdLapse (core t : Nat)
  | headStreamWord (core t : Nat)
  | gateRequestArrival (n : Nat)
  | clusterOff (cl : Nat)
  | clusterWakeReady (cl : Nat)
  -- links (R394-R403)
  | linkEnable (fn l : Nat)
  | linkDisable (fn l : Nat)
  | retrain (fn l : Nat)
  | signalSeen (l lanes : Nat)
  | equalisationDone (l lanes : Nat)
  | negotiate (l devid isamaj lanes port fec credits : Nat)
  | timeFlitExchange (l t1 t2 t3 t4 : Nat)
  | lanesLost (l lanes : Nat)
  | linkLost (l code : Nat)
  | flitReceive (l : Nat) (flit : List Nat) (good : Bool)
  | nak (l ackseq : Nat)
  | reduceMessage (l addr : Nat) (value : List Nat)
  | ack (l n : Nat)
  -- bring-up, errors, attestation (R414-R418); `n` numbers a reply's outside data
  | powerOn (fails : List Nat) (fwver : Nat)
  | pcieTrainRetry (ok : Bool) (lanes : Nat)
  | uncorrectableError (storage core cid addr : Nat)
  | getVersion
  | getCapabilities
  | negotiateAlgorithms
  | getDigests
  | getCertificate (slot offset len : Nat)
  | challenge (slot : Nat) (nonce : List Nat)
  | getMeasurements (index : Nat) (nonce : List Nat)
  | spdmUnsupportedRequest (code : Nat)
deriving DecidableEq, Repr

end Sys2Proof
end

