-- ==== Sys2Proof/WellFormed.lean ====
section
/-! DEFINITION. Which instructions have an encoding: register numbers within their files (R107), immediates within the
widths their descriptions accept (R106, R119, R128, R132, R200), types within the classes (R148, R200), slots within
their codes (R115). Steps of the other agents are no encodings: they are well formed as they stand. -/
namespace Sys2Proof

/-- Code of an element type (R115). -/
def ETy.code : ETy → Nat
  | .f32 => 0 | .bf16 => 1 | .f16 => 2 | .e4m3 => 3 | .e5m2 => 4 | .mk8 => 5 | .e2m1 => 6 | .i32 => 7
  | .n32 => 8 | .i16 => 9 | .n16 => 10 | .i8 => 11 | .n8 => 12 | .i64 => 13 | .n64 => 14

/-- Class F of R148: the arithmetic floats. -/
def ETy.isF (t : ETy) : Bool := t.code ≤ 2
/-- Class I of R148: the integers. -/
def ETy.isI (t : ETy) : Bool := 7 ≤ t.code
/-- Class FI of R148. -/
def ETy.isFI (t : ETy) : Bool := t.isF || t.isI
/-- Class W of R148: every type but e2m1. -/
def ETy.isW (t : ETy) : Bool := t.code != 6
/-- Types of `vgath` and `vscat` (R200, R204): codes 0 to 12. -/
def ETy.isG (t : ETy) : Bool := t.code ≤ 12
/-- Narrow types of `vpack` and `vunpk` (R167). -/
def ETy.isNarrow (t : ETy) : Bool := !(t == .f32 || t == .i64 || t == .n64)
/-- Source types of `vdot` (R168). -/
def ETy.isDot (t : ETy) : Bool := !(t == .f32 || t == .i32 || t == .n32 || t == .i64 || t == .n64)

/-- A scalar, vector or head-like source within a file of `n` registers. -/
def Src.lt (s : Src) (n : Nat) : Bool := s.n < n
/-- A signed immediate of at most `4 + 9 n` bits (R106). -/
def immS (n : Nat) (i : Int) : Bool := -(2 ^ (3 + 9 * n) : Int) ≤ i && i < (2 ^ (3 + 9 * n) : Int)
/-- An even signed immediate, of the S-form (R103). -/
def immE (n : Nat) (i : Int) : Bool := immS n i && i % 2 == 0
/-- An unsigned immediate of at most `4 + 9 n` bits. -/
def immU (n : Nat) (i : Nat) : Bool := i < 2 ^ (4 + 9 * n)
/-- A mask register number. -/
def MQ.ok (q : MQ) (c : ETy → Bool) : Bool := q.k < 8 && c q.ty
/-- Slots of a rounding instruction: an integer type takes no rounding mode but `.rne` (R150). -/
def VQ.ok (q : VQ) (c : ETy → Bool) : Bool := q.k < 8 && c q.ty && (!q.ty.isI || q.rnd == .rne)

/-- The last assigned OP of each page of the opcode map (R117); pages 10 to 15 have none. -/
def lastOp : Nat → Nat
  | 0 => 30 | 1 => 27 | 2 => 27 | 3 => 15 | 4 => 30 | 5 => 16 | 6 => 14 | 7 => 18 | 8 => 15 | 9 => 12 | _ => 0
/-- A reserved cell of the opcode map (R117). -/
def reservedCell (page op : Nat) : Bool := op == 0 || lastOp page < op

/-- The check of three scalar operands. -/
def okSss (d : Nat) (a b : Src) : Bool := d < 64 && a.lt 64 && b.lt 64

/-- The fields of an instruction are within their ranges. That its chain keeps the length rule of R110 as well, `Instr.wellFormed`
says beside the encoder. -/
def Instr.wf : Instr → Bool
  | .add d a b | .sub d a b | .and d a b | .or d a b | .xor d a b | .slt d a b | .sltu d a b | .seq d a b
  | .mul d a b | .mulh d a b | .mulhu d a b | .div d a b | .divu d a b | .rem d a b | .remu d a b
  | .sll d a b | .srl d a b | .sra d a b | .min d a b | .max d a b | .minu d a b | .maxu d a b => okSss d a b
  | .addi d a imm | .andi d a imm | .ld d a imm => d < 64 && a.lt 64 && immS 4 imm
  | .slli d a imm | .srli d a imm | .srai d a imm => d < 64 && a.lt 64 && immU 1 imm
  | .li d imm => d < 64 && immS 4 imm
  | .mov d a | .clz d a | .ctz d a | .popc d a => d < 64 && a.lt 64
  | .st d a imm => d.lt 64 && a.lt 64 && immE 4 imm
  | .pbr d imm => d < 4 && immS 4 imm
  | .br imm => immS 4 imm
  | .brnz a imm | .brz a imm => a.lt 64 && immS 4 imm
  | .wait l s c m h => l < 8 && s < 8 && c < 8 && m < 8 && h < 8
  | .mcall slot p0 p1 p2 p3 => slot < 64 && p0 < 64 && p1 < 64 && p2 < 64 && p3 < 64
  | .vld q d a imm => q.ok ETy.isW && d < 64 && a.lt 64 && immS 4 imm
  | .vst ty k d a imm => ty.isW && k < 8 && d.lt 64 && a.lt 64 && immE 4 imm
  | .vmov q d a => q.ok (fun _ => true) && d < 64 && a.lt 64
  | .vfma q d a b c => q.ok ETy.isFI && okSss d a b && (c.all (·.lt 64))
  | .vadd q d a b | .vmul q d a b | .vsub q d a b => q.ok ETy.isFI && okSss d a b
  | .sync _ d a => d < 64 && a.lt 64
  | .halt | .haltKill | .ret | .yield | .tret | .tsig | .tlbinvAll => true
  | .fshr d a b c | .sel d a b c => okSss d a b && c.lt 64
  | .bext d a pos len | .bins d a pos len => d < 64 && a.lt 64 && pos < 64 && 1 ≤ len && len ≤ 64
  | .sext w d a | .zext w d a => (w == 8 || w == 16 || w == 32) && d < 64 && a.lt 64
  | .lea sh d a b => sh < 8 && okSss d a b
  | .ori d a imm | .xori d a imm => d < 64 && a.lt 64 && immU 4 imm
  | .call imm => immS 4 imm
  | .callB d => d < 4
  | .breq d a b | .brne d a b | .brlt d a b | .brge d a b | .brltu d a b | .brgeu d a b =>
    d < 4 && a.lt 64 && b.lt 64
  | .pbrr d a => d < 4 && a.lt 64
  | .mfb d a => d < 64 && a < 4
  | .trap code | .ebrk code => immU 1 code
  | .mfc d ctl => d < 64 && immU 1 ctl
  | .mtc ctl a => immU 1 ctl && a.lt 64
  | .rdtime d | .rdcyc d => d < 64
  | .mcw slot a => slot < 64 && a.lt 64
  | .mcinv slot => slot < 64
  | .rpwS d a b | .rpwV d a b => okSss d a b
  | .rpwDone d a | .rpwKill d a | .spawn d a | .pgateReq d a | .pgateQ d a | .pwake d a | .tmwait d a =>
    d < 64 && a.lt 64
  | .retire node => immU 1 node
  | .ldx ty d a imm | .ldc ty d a imm => ty.isI && d < 64 && a.lt 64 && immS 4 imm
  | .stx ty d a imm => ty.isI && d.lt 64 && a.lt 64 && immE 4 imm
  | .vldu q d a imm | .vldc q d a imm => q.ok ETy.isW && d < 64 && a.lt 64 && immS 4 imm
  | .vstm ty k d a imm => ty.isW && k < 8 && d.lt 64 && a.lt 64 && immE 4 imm
  | .vgath q d a b => q.ok ETy.isG && okSss d a b
  | .vscat ty k a b c => ty.isG && k < 8 && a.lt 64 && b.lt 64 && c.lt 64
  | .amo op w _ d a b => (w || op != .fadd) && okSss d a b
  | .cas _ _ d a b c => okSss d a b && c.lt 64
  | .aggadd k _ _ d a b => k < 8 && okSss d a b
  | .fence _ o => o != .rlx
  | .pref _ a imm => a.lt 64 && immS 4 imm
  | .clinv a | .clwb a => a.lt 64
  | .vand q d a b | .vor q d a b | .vxor q d a b => q.ok (fun _ => true) && okSss d a b
  | .vsll q d a b | .vsrl q d a b | .vsra q d a b => q.ok ETy.isI && okSss d a b
  | .vfsh q d a b c => q.ok ETy.isI && okSss d a b && c.lt 64
  | .vmin q d a b | .vmax q d a b => q.ok ETy.isFI && okSss d a b
  | .vabs q d a | .vneg q d a | .vgsum q d a | .vscan q d a => q.ok ETy.isFI && d < 64 && a.lt 64
  | .vcmp c q d a b => q.ok ETy.isW && (!(c == .un || c == .ord) || !q.ty.isI) && 1 ≤ d && d < 8 && a.lt 64 && b.lt 64
  | .vsel _ k d a b => k < 8 && okSss d a b
  | .vbcast q d a => q.ok ETy.isW && d < 64 && a.lt 64
  | .vext ty d a b | .vins ty d a b => ty.isW && okSss d a b
  | .vperm q d a b | .vrot q d a b => q.ok ETy.isW && okSss d a b
  | .vgmax q d a => q.ok ETy.isFI && d < 64 && a.lt 64
  | .vclz q d a | .vpopc q d a => q.ok ETy.isI && d < 64 && a.lt 64
  | .kop op d a b => 1 ≤ d && d < 8 && a.lt 8 && (if op = .not then b == ⟨0, false⟩ else b.lt 8)
  | .kmov op d a =>
    match op with
    | .copy => 1 ≤ d && d < 8 && a.lt 8
    | .lo | .hi => 1 ≤ d && d < 8 && a.lt 64
    | .getlo | .gethi => d < 64 && a.lt 8
    | .set | .clr => 1 ≤ d && d < 8 && a == ⟨0, false⟩
  | .kpop ty d a => ty.isW && d < 64 && a.lt 8
  | .vcompr q d a | .vspread q d a => q.ok ETy.isW && d < 64 && a.lt 64
  | .viota q d => q.ok ETy.isI && d < 64
  | .vrcp q d a | .vrsqrt q d a | .vexp2 q d a | .vlog2 q d a | .vtanh q d a | .vround q d a =>
    q.ok ETy.isF && d < 64 && a.lt 64
  | .vcvt q d a _ => q.k < 8 && d < 64 && a.lt 64
  | .vclass q d a => q.ok ETy.isF && d < 64 && a.lt 64
  | .vscale q d a b => q.ok ETy.isF && okSss d a b
  | .vdot q d a b => q.ok ETy.isDot && okSss d a b
  | .vpack q d a b => q.ok ETy.isNarrow && okSss d a b
  | .vunpk q d a half => q.ok ETy.isNarrow && d < 64 && a.lt 64 && half < 2
  | .vqst _ allow d a imm => 1 ≤ allow && allow < 16 && d.lt 64 && a.lt 64 && immE 4 imm
  | .vqenc _ allow d a => 1 ≤ allow && allow < 16 && d < 64 && a.lt 64
  | .vdq _ _ _ k _ d a => k < 8 && d < 64 && a.lt 64
  | .vseed k _ d => k < 8 && d < 64
  | .mxbind d a b c => d < 8 && a.lt 64 && b.lt 64 && (c.all (·.lt 64))
  | .mxunbind d | .mxzero d | .mxdrain _ d => d < 8
  | .mx d n => d < 8 && 1 ≤ n && n ≤ 16
  | .mxg d a | .mxld d a | .mxst d a => d < 8 && a.lt 64
  | .drrow d => d < 64
  | .drput a => a.lt 64
  | .drdone _ => true
  | .plane _ d a | .unplane _ d a => d.lt 64 && a.lt 64
  | .mxstat op d a => d < 64 && (if op = .cnt then a == 0 else a < 8)
  | .rgdef q a b | .rgpub q a b => q < 16 && a.lt 64 && b.lt 64
  | .rgrsv d q b | .rgcon d q b => d < 64 && q < 16 && b.lt 64
  | .rgst op d q b => d < 64 && q < 16 && (if op = .addr then b.lt 64 else b == ⟨0, false⟩)
  | .cpy _ _ d a b c => okSss d a b && (c.all (·.lt 64))
  | .cpys _ _ d a b | .cpst d a b | .xput d a b | .xget d a b => okSss d a b
  | .xred ty d a b => ty.code ≤ 6 && okSss d a b
  | .xfin ty d a b => ty.code ≤ 2 && okSss d a b
  | .fpush f a => f < 4 && a.lt 64
  | .fpop d f | .ffree _ d f => d < 64 && f < 4
  | .msend a b | .evsigRmt a b => a.lt 64 && b.lt 64
  | .mrecv d | .mpoll d => d < 64
  | .bardef n a | .bar _ n a | .bartx n a => n < 16 && a.lt 64
  | .barv d n | .barst _ d n => d < 64 && n < 16
  | .bararr _ d n b | .barw d n b => d < 64 && n < 16 && b.lt 64
  | .barwT d n b c => d < 64 && n < 16 && b.lt 64 && c.lt 64
  | .evwait e | .evsig e => e < 32
  | .keyqOwn d idx => d < 64 && idx < 4
  | .keyqId d a | .shadow d a | .snapTake d a => d < 64 && a.lt 64
  | .keyrel idx => idx < 4
  | .publishSwap a | .publishDrop a | .snapDrop a | .tlbinvPage a => a.lt 64
  | .hseek _ h a | .hwr h a | .hstride h a => h < 16 && a.lt 64
  | .hrd d h | .hpos d h => d < 64 && h < 16
  | .hrew h | .htake h | .hgive h | .hrealign h | .hmark h => h < 16
  | .hburst h q b | .hfill h q b => h < 16 && q < 16 && b.lt 64
  | .reservedOpcode page half =>
    half < 63488 && page < 16 && reservedCell page (half / 2048)
  | .queueEnable .. | .queueDisable .. | .queueResume .. | .queueResumeSkip .. | .tail .. | .launch ..
  | .copy .. | .signal .. | .waitCommand .. | .flush .. | .commandComplete .. | .waitTimeout ..
  | .queueDrained .. | .startTick .. | .switchOut .. | .ptickReached .. | .switchOutDone .. | .switchIn ..
  | .switchInDone .. | .stop .. | .haltTreeStop .. | .partitionResume .. | .partitionKill .. | .balcmd ..
  | .balancerPeriod .. | .clusterMapWrite .. | .trackMapWrite .. | .reindexDone .. | .recover .. | .bar0RegisterWrite ..
  | .hostBar2Access .. | .dispatchPick .. | .instanceStart .. | .edgeRelease .. | .spawnEnqueue .. | .ageplaceExpiry ..
  | .agekeyExpiry .. | .keyReleaseArrival .. | .contextPreempt .. | .contextResume .. | .trackdataLoad .. | .budgetExpiry ..
  | .drainRunLimit .. | .deferredTrap .. | .contextWaitEnd .. | .deadLetterPost .. | .messageDelivery .. | .msgwaitExpiry ..
  | .tlbWalkComplete .. | .accessComplete .. | .atomicAtHome .. | .copyLand .. | .firingStart .. | .gangedFiringStart ..
  | .firingComplete .. | .assayRecompute .. | .gangArrival .. | .drainStart .. | .drainHandlerRun .. | .drainRow ..
  | .matrixOpComplete .. | .chuteCredit .. | .barrierPhaseComplete .. | .remoteEventArrival .. | .barrierWaitTimeout .. | .timedWaitWake ..
  | .syncExchangeComplete .. | .powerHoldEnd .. | .columnRelease .. | .spanReleaseTick .. | .portTake .. | .seekComplete ..
  | .holdLapse .. | .headStreamWord .. | .gateRequestArrival .. | .clusterOff .. | .clusterWakeReady .. | .linkEnable ..
  | .linkDisable .. | .retrain .. | .signalSeen .. | .equalisationDone .. | .negotiate .. | .timeFlitExchange ..
  | .lanesLost .. | .linkLost .. | .flitReceive .. | .nak .. | .reduceMessage .. | .ack ..
  | .powerOn .. | .pcieTrainRetry .. | .uncorrectableError .. | .getVersion .. | .getCapabilities .. | .negotiateAlgorithms ..
  | .getDigests .. | .getCertificate .. | .challenge .. | .getMeasurements .. | .spdmUnsupportedRequest .. => true

/-- Whether an instruction is a step of another agent, which no halfwords encode. -/
def Instr.isEvent : Instr → Bool
  | .queueEnable .. | .queueDisable .. | .queueResume .. | .queueResumeSkip .. | .tail .. | .launch ..
  | .copy .. | .signal .. | .waitCommand .. | .flush .. | .commandComplete .. | .waitTimeout ..
  | .queueDrained .. | .startTick .. | .switchOut .. | .ptickReached .. | .switchOutDone .. | .switchIn ..
  | .switchInDone .. | .stop .. | .haltTreeStop .. | .partitionResume .. | .partitionKill .. | .balcmd ..
  | .balancerPeriod .. | .clusterMapWrite .. | .trackMapWrite .. | .reindexDone .. | .recover .. | .bar0RegisterWrite ..
  | .hostBar2Access .. | .dispatchPick .. | .instanceStart .. | .edgeRelease .. | .spawnEnqueue .. | .ageplaceExpiry ..
  | .agekeyExpiry .. | .keyReleaseArrival .. | .contextPreempt .. | .contextResume .. | .trackdataLoad .. | .budgetExpiry ..
  | .drainRunLimit .. | .deferredTrap .. | .contextWaitEnd .. | .deadLetterPost .. | .messageDelivery .. | .msgwaitExpiry ..
  | .tlbWalkComplete .. | .accessComplete .. | .atomicAtHome .. | .copyLand .. | .firingStart .. | .gangedFiringStart ..
  | .firingComplete .. | .assayRecompute .. | .gangArrival .. | .drainStart .. | .drainHandlerRun .. | .drainRow ..
  | .matrixOpComplete .. | .chuteCredit .. | .barrierPhaseComplete .. | .remoteEventArrival .. | .barrierWaitTimeout .. | .timedWaitWake ..
  | .syncExchangeComplete .. | .powerHoldEnd .. | .columnRelease .. | .spanReleaseTick .. | .portTake .. | .seekComplete ..
  | .holdLapse .. | .headStreamWord .. | .gateRequestArrival .. | .clusterOff .. | .clusterWakeReady .. | .linkEnable ..
  | .linkDisable .. | .retrain .. | .signalSeen .. | .equalisationDone .. | .negotiate .. | .timeFlitExchange ..
  | .lanesLost .. | .linkLost .. | .flitReceive .. | .nak .. | .reduceMessage .. | .ack ..
  | .powerOn .. | .pcieTrainRetry .. | .uncorrectableError .. | .getVersion .. | .getCapabilities .. | .negotiateAlgorithms ..
  | .getDigests .. | .getCertificate .. | .challenge .. | .getMeasurements .. | .spdmUnsupportedRequest .. => true
  | _ => false

end Sys2Proof
end

