-- ==== Sys2Proof/Decode.lean ====
section
/-! DEFINITION. The decoder: prefix chains (R105, R110), fields (R103, R106, R107), slots (R108, R109, R115), the opcode
map (R117) with each row's accepted prefixes and unused fields, substitution in microprograms (R143); then the encoder,
which writes the fewest prefixes in the order of R36. Decoding is total: what is no instruction is refused with the trap
the spec names. -/
namespace Sys2Proof

/-- Why a chain is no instruction. -/
inductive DTrap where
  /-- `PREFIX` with `tinfo`.RULE, KIND and POS (R111). -/
  | badPrefix (rule kind pos : Nat)
  /-- `ILLOP` with SUB 1 and `tinfo`.WHY, PAGE, HALF (R114). -/
  | illop (why page half : Nat)
  /-- The list of halfwords ended inside the chain: the fetch has not delivered the base halfword. -/
  | short
deriving DecidableEq, Repr

/-- A mask form of XQ (R109). -/
structure MaskForm where
  k : Nat
  zero : Bool
  nib : Nat
deriving DecidableEq, Repr

/-- A chain that keeps the position-ordered rules of R110, up to and with its base halfword. -/
structure Chain where
  half : Nat
  xp : Option Nat
  xr : Option Nat
  xi : List Nat
  c : Option Src
  m : Option MaskForm
  len : Nat
deriving DecidableEq, Repr

/-- The chain with nothing read. -/
def Chain.empty : Chain := ⟨0, none, none, [], none, none, 0⟩

/-- Whether a halfword is a prefix (R103). -/
def isPrefix (h : Nat) : Bool := h / 2048 % 32 == 31

/-- The rules 2, 3 and 5 of R110 on one prefix after the chain `c`: the broken rule with the lowest code. -/
def Chain.breaks (c : Chain) (kind pay : Nat) : Option Nat :=
  if kind == 0 then none
  else if (kind == 1 && c.xr.isSome) || (kind == 2 && c.xp.isSome) || (kind == 3 && pay < 256 && c.c.isSome)
      || (kind == 3 && 256 ≤ pay && c.m.isSome) then some 2
  else if c.xi != [] then some 3
  else if kind == 3 && pay < 256 && pay % 2 == 1 then some 5
  else none

/-- One prefix added to a chain (R105, R109). -/
def Chain.push (c : Chain) (kind pay : Nat) : Chain :=
  if kind == 0 then { c with xi := c.xi ++ [pay] }
  else if kind == 1 then { c with xr := some pay }
  else if kind == 2 then { c with xp := some pay }
  else if pay < 256 then { c with c := some ⟨pay / 4 % 64, pay / 2 % 2 == 1⟩ }
  else { c with m := some ⟨pay / 32 % 8, pay / 16 % 2 == 1, pay % 16⟩ }

/-- Reads a chain from the halfword where execution enters it (R110). -/
def parseChain (c : Chain) (pos : Nat) : List Nat → Except DTrap Chain
  | [] => .error .short
  | h :: t =>
    if isPrefix h then
      if pos == 4 then .error (.badPrefix 1 (h / 512 % 4) 4)
      else match c.breaks (h / 512 % 4) (h % 512) with
        | some r => .error (.badPrefix r (h / 512 % 4) pos)
        | none => parseChain (c.push (h / 512 % 4) (h % 512)) (pos + 1) t
    else .ok { c with half := h, len := pos + 1 }

/-- The parameters of a microprogram call and the substitution halfword of the record (R141, R143). -/
structure Subst where
  w : Nat
  p0 : Nat
  p1 : Nat
  p2 : Nat
  p3 : Nat
deriving DecidableEq, Repr

/-- No substitution. -/
def Subst.none : Subst := ⟨0, 0, 0, 0, 0⟩
/-- Parameter `i` (R142). -/
def Subst.param (s : Subst) (i : Nat) : Nat :=
  if i == 0 then s.p0 else if i == 1 then s.p1 else if i == 2 then s.p2 else s.p3
/-- The substituted value of the field whose S bit is bit `bit` and whose parameter number stands below it. -/
def Subst.at (s : Subst) (bit : Nat) : Option Nat :=
  if s.w / 2 ^ bit % 2 == 1 then some (s.param (s.w / 2 ^ (bit - 2) % 4)) else .none

/-- Instruction forms (R103). -/
inductive Form where
  | R | I | S
deriving DecidableEq, Repr

/-- What a register field names; `no` is an unused field and `cnt` a count (R107). -/
inductive File where
  | no | s | v | k | b | f | q | h | n | e | a | cnt
deriving DecidableEq, Repr

/-- How many registers a file has (R107). -/
def File.size : File → Nat
  | .s => 64 | .v => 64 | .k => 8 | .a => 8 | .b => 4 | .f => 4 | .q => 16 | .h => 16 | .n => 16 | .e => 32
  | .no => 1 | .cnt => 8
/-- The three pools of R53, whose sources carry last-use marks. -/
def File.isPool : File → Bool
  | .s | .v | .k => true
  | _ => false

/-- What the mask-form nibble carries (R109). -/
inductive Nib where
  | none | zero | rs | so | cond
deriving DecidableEq, Repr

/-- The fields of an instruction after prefixes and substitution. -/
structure Fd where
  d : Src
  a : Src
  b : Src
  c : Option Src
  imm : Nat
  width : Nat
  var : Nat
  nib : Nat
  k : Nat
  zero : Bool
deriving DecidableEq, Repr

/-- One cell of the opcode map with what its description accepts. -/
structure Row where
  form : Form
  d : File := .no
  a : File := .no
  b : File := .no
  xr : Bool := true
  xi : Nat := 0
  /-- third source: 0 none, 1 optional, 2 required -/
  c : Nat := 0
  nib : Nib := .none
  nibDef : Nat := 0
  mask : Bool := false
  zslot : Bool := true
  imm : Bool := false
  varOk : Bool
  /-- the remaining WHY 2 conditions: which field values are reserved -/
  bad2 : Fd → Bool := fun _ => false
  /-- the remaining WHY 3 conditions -/
  bad3 : Fd → Bool := fun _ => false
  build : Fd → Instr

/-- Element type of a code; 15 and above are reserved (R115). -/
def ETy.ofCode : Nat → Option ETy
  | 0 => some .f32 | 1 => some .bf16 | 2 => some .f16 | 3 => some .e4m3 | 4 => some .e5m2 | 5 => some .mk8
  | 6 => some .e2m1 | 7 => some .i32 | 8 => some .n32 | 9 => some .i16 | 10 => some .n16 | 11 => some .i8
  | 12 => some .n8 | 13 => some .i64 | 14 => some .n64 | _ => none
/-- Type of a code that the row's variant check has admitted. -/
def ty! (v : Nat) : ETy := (ETy.ofCode v).getD .f32
/-- Whether a variant is a type code of a class. -/
def tyIn (c : ETy → Bool) (v : Nat) : Bool := (ETy.ofCode v).any c

/-- Rounding code (R87). -/
def Rnd.code : Rnd → Nat
  | .rne => 0 | .rtz => 1 | .rdn => 2 | .rup => 3 | .rna => 4 | .rsr => 5
/-- Rounding mode of a code below 6. -/
def Rnd.ofCode (n : Nat) : Rnd :=
  if n == 0 then .rne else if n == 1 then .rtz else if n == 2 then .rdn else if n == 3 then .rup
  else if n == 4 then .rna else .rsr
/-- Condition code (R116). -/
def Cond.code : Cond → Nat
  | .eq => 0 | .ne => 1 | .lt => 2 | .le => 3 | .gt => 4 | .ge => 5 | .un => 6 | .ord => 7
/-- Condition of a code below 8. -/
def Cond.ofCode (n : Nat) : Cond :=
  if n == 0 then .eq else if n == 1 then .ne else if n == 2 then .lt else if n == 3 then .le
  else if n == 4 then .gt else if n == 5 then .ge else if n == 6 then .un else .ord
/-- Scope code (R115). -/
def Scope.code : Scope → Nat
  | .core => 0 | .part => 1 | .pkg => 2 | .sys => 3
/-- Scope of a code. -/
def Scope.ofCode (n : Nat) : Scope :=
  if n == 0 then .core else if n == 1 then .part else if n == 2 then .pkg else .sys
/-- Order code (R115). -/
def Order.code : Order → Nat
  | .rlx => 0 | .acq => 1 | .rel => 2 | .sc => 3
/-- Order of a code. -/
def Order.ofCode (n : Nat) : Order :=
  if n == 0 then .rlx else if n == 1 then .acq else if n == 2 then .rel else .sc
/-- Vote operation code (R310). -/
def VoteOp.code : VoteOp → Nat
  | .or => 0 | .and => 1 | .sum => 2 | .pop => 3
/-- Vote operation of a code below 4. -/
def VoteOp.ofCode (n : Nat) : VoteOp :=
  if n == 0 then .or else if n == 1 then .and else if n == 2 then .sum else .pop
/-- Operation code of `amo` (R205). -/
def AmoOp.code : AmoOp → Nat
  | .swap => 0 | .add => 1 | .and => 2 | .or => 3 | .xor => 4 | .min => 5 | .max => 6 | .minu => 7 | .maxu => 8
  | .fadd => 9
/-- Operation of `amo` of a code below 10. -/
def AmoOp.ofCode (n : Nat) : AmoOp :=
  if n == 0 then .swap else if n == 1 then .add else if n == 2 then .and else if n == 3 then .or
  else if n == 4 then .xor else if n == 5 then .min else if n == 6 then .max else if n == 7 then .minu
  else if n == 8 then .maxu else .fadd
/-- Variant of `kop` (R160). -/
def KOp.code : KOp → Nat
  | .and => 0 | .or => 1 | .xor => 2 | .andn => 3 | .orn => 4 | .not => 5
/-- `kop` operation of a variant below 6. -/
def KOp.ofCode (n : Nat) : KOp :=
  if n == 0 then .and else if n == 1 then .or else if n == 2 then .xor else if n == 3 then .andn
  else if n == 4 then .orn else .not
/-- Variant of `kmov` (R160). -/
def KMov.code : KMov → Nat
  | .copy => 0 | .lo => 1 | .hi => 2 | .getlo => 3 | .gethi => 4 | .set => 5 | .clr => 6
/-- Format code of the matrix unit (R173). -/
def MFmt.code : MFmt → Nat
  | .bf16 => 0 | .e4m3 => 1 | .e5m2 => 2 | .mk8 => 3 | .i8 => 4 | .e2m1 => 5 | .i4 => 6 | .mx4 => 7 | .sb4 => 8
  | .sb8 => 9
/-- Format of a code below 10. -/
def MFmt.ofCode (n : Nat) : MFmt :=
  if n == 0 then .bf16 else if n == 1 then .e4m3 else if n == 2 then .e5m2 else if n == 3 then .mk8
  else if n == 4 then .i8 else if n == 5 then .e2m1 else if n == 6 then .i4 else if n == 7 then .mx4
  else if n == 8 then .sb4 else .sb8
/-- Variant of `mxstat` (R196). -/
def MxStat.code : MxStat → Nat
  | .rd => 0 | .clr => 1 | .cnt => 2
/-- Variant of `rgst` (R200). -/
def RgOp.code : RgOp → Nat
  | .desc => 0 | .prod => 1 | .rsv => 2 | .cons => 3 | .addr => 4
/-- `rgst` operation of a variant below 4. -/
def RgOp.ofCode (n : Nat) : RgOp :=
  if n == 0 then .desc else if n == 1 then .prod else if n == 2 then .rsv else .cons
/-- Kind of `vdq` (R170). -/
def DqKind.code : DqKind → Nat
  | .sb4 => 0 | .sb8 => 1 | .mx4 => 2
/-- Variant of `hseek` (R381). -/
def SeekDir.code : SeekDir → Nat
  | .shortest => 0 | .fwd => 1 | .bwd => 2

/-- Signed reading of the immediate (R106). -/
def Fd.simm (f : Fd) : Int :=
  if f.imm < 2 ^ (f.width - 1) then (f.imm : Int) else (f.imm : Int) - 2 ^ f.width
/-- Type slot of the fields. -/
def Fd.ty (f : Fd) : ETy := ty! f.var
/-- Type, mask and zeroing slots of the fields. -/
def Fd.mq (f : Fd) : MQ := ⟨ty! f.var, f.k, f.zero⟩
/-- All five vector slots of the fields (R109). -/
def Fd.vq (f : Fd) : VQ := ⟨ty! f.var, Rnd.ofCode (f.nib / 2), f.nib % 2 == 1, f.k, f.zero⟩
/-- The third source, `s0` unmarked where the chain lacks one. -/
def Fd.c0 (f : Fd) : Src := f.c.getD ⟨0, false⟩

/-- An R-form scalar row `sD, sA, sB`. -/
def rowSss (v0 : Bool) (mk : Nat → Src → Src → Instr) : Row :=
  { form := .R, d := .s, a := .s, b := .s, varOk := v0, build := fun f => mk f.d.n f.a f.b }
/-- An R-form scalar row `sD, sA`. -/
def rowSs (v0 : Bool) (mk : Nat → Src → Instr) : Row :=
  { form := .R, d := .s, a := .s, varOk := v0, build := fun f => mk f.d.n f.a }
/-- An I-form scalar row `sD, sA, imm` with a signed immediate. -/
def rowSsi (v0 : Bool) (mk : Nat → Src → Int → Instr) : Row :=
  { form := .I, d := .s, a := .s, xi := 4, imm := true, varOk := v0, build := fun f => mk f.d.n f.a f.simm }
/-- An I-form scalar row with an unsigned immediate of `n` XI prefixes at most. -/
def rowSsu (v0 : Bool) (n : Nat) (mk : Nat → Src → Nat → Instr) : Row :=
  { form := .I, d := .s, a := .s, xi := n, imm := true, varOk := v0, build := fun f => mk f.d.n f.a f.imm }
/-- A row with an unsigned immediate of one XI at most and no register, refusing XR. -/
def rowCode (v0 : Bool) (mk : Nat → Instr) : Row :=
  { form := .I, xr := false, xi := 1, imm := true, varOk := v0, build := fun f => mk f.imm }
/-- A row without operands; `xr` says whether XR is accepted. -/
def rowNone (v0 xr : Bool) (i : Instr) : Row :=
  { form := .R, xr := xr, varOk := v0, build := fun _ => i }
/-- A compare-branch row `sA, sB, bD` (R132). -/
def rowCb (v0 : Bool) (mk : Nat → Src → Src → Instr) : Row :=
  { form := .R, d := .b, a := .s, b := .s, varOk := v0, build := fun f => mk f.d.n f.a f.b }
/-- A vector row `vD, vA, vB` with the RS nibble (R152). -/
def rowV3rs (c : ETy → Bool) (var : Nat) (mk : VQ → Nat → Src → Src → Instr) : Row :=
  { form := .R, d := .v, a := .v, b := .v, nib := .rs, mask := true, varOk := tyIn c var
    bad2 := fun f => f.ty.isI && f.nib / 2 != 0, build := fun f => mk f.vq f.d.n f.a f.b }
/-- A vector row `vD, vA` with the RS nibble. -/
def rowV2rs (c : ETy → Bool) (var : Nat) (mk : VQ → Nat → Src → Instr) : Row :=
  { form := .R, d := .v, a := .v, nib := .rs, mask := true, varOk := tyIn c var
    bad2 := fun f => f.ty.isI && f.nib / 2 != 0, build := fun f => mk f.vq f.d.n f.a }
/-- A vector row `vD, vA, vB` with mask and zeroing only; `b` is the file of B. -/
def rowV3 (fb : File) (c : ETy → Bool) (var : Nat) (mk : MQ → Nat → Src → Src → Instr) : Row :=
  { form := .R, d := .v, a := .v, b := fb, nib := .zero, mask := true, varOk := tyIn c var
    build := fun f => mk f.mq f.d.n f.a f.b }
/-- A vector row `vD, vA` with mask and zeroing only. -/
def rowV2 (c : ETy → Bool) (var : Nat) (mk : MQ → Nat → Src → Instr) : Row :=
  { form := .R, d := .v, a := .v, nib := .zero, mask := true, varOk := tyIn c var
    build := fun f => mk f.mq f.d.n f.a }
/-- A vector load row `vD, [sA+disp]`. -/
def rowVld (var : Nat) (mk : MQ → Nat → Src → Int → Instr) : Row :=
  { form := .I, d := .v, a := .s, xi := 4, imm := true, nib := .zero, mask := true, varOk := tyIn ETy.isW var
    build := fun f => mk f.mq f.d.n f.a f.simm }
/-- A vector store row `vD, [sA+disp]`: no zero slot. -/
def rowVst (var : Nat) (mk : ETy → Nat → Src → Src → Int → Instr) : Row :=
  { form := .S, d := .v, a := .s, xi := 4, imm := true, nib := .zero, mask := true, zslot := false
    varOk := tyIn ETy.isW var, build := fun f => mk f.ty f.k f.d f.a f.simm }
/-- A row whose registers lie in given files, with no immediate and no slot. -/
def rowReg (ok : Bool) (fd fa fb : File) (mk : Fd → Instr) : Row :=
  { form := .R, d := fd, a := fa, b := fb, varOk := ok, build := mk }
/-- A row with scope and order slots (R109); `so` admits the nibble. -/
def rowSo (ok : Bool) (fd fa fb : File) (dflt : Nat) (so : Nat → Bool) (mk : Fd → Instr) : Row :=
  { form := .R, d := fd, a := fa, b := fb, nib := .so, nibDef := dflt, varOk := ok, bad2 := fun f => !so f.nib
    build := mk }

/-- Page 0 (R119, R153, R310, R335). -/
def row0 (op v : Nat) : Option Row :=
  let z := v == 0
  match op with
  | 1 => some (rowSss z .add) | 2 => some (rowSsi z .addi) | 3 => some (rowSss z .sub)
  | 4 => some (rowSss z .and) | 5 => some (rowSss z .or) | 6 => some (rowSss z .xor)
  | 7 => some (rowSsu z 1 .slli) | 8 => some (rowSsu z 1 .srli) | 9 => some (rowSsu z 1 .srai)
  | 10 => some { form := .I, d := .s, xi := 4, imm := true, varOk := z, build := fun f => .li f.d.n f.simm }
  | 11 => some (rowSs z .mov)
  | 12 => some (rowSss z .slt) | 13 => some (rowSss z .sltu) | 14 => some (rowSss z .seq)
  | 15 => some (rowSsi z .ld)
  | 16 => some { form := .S, d := .s, a := .s, xi := 4, imm := true, varOk := z
                 build := fun f => .st f.d f.a f.simm }
  | 17 => some { form := .I, d := .b, xr := false, xi := 4, imm := true, varOk := z
                 build := fun f => .pbr f.d.n f.simm }
  | 18 => some { form := .I, xr := false, xi := 4, imm := true, varOk := z, build := fun f => .br f.simm }
  | 19 => some { form := .I, a := .s, xi := 4, imm := true, varOk := z, build := fun f => .brnz f.a f.simm }
  | 20 => some { form := .I, a := .s, xi := 4, imm := true, varOk := z, build := fun f => .brz f.a f.simm }
  | 21 => some { form := .R, d := .cnt, a := .cnt, b := .cnt, xi := 1, imm := true, varOk := z
                 bad3 := fun f => 64 ≤ f.imm || 8 ≤ f.d.n || 8 ≤ f.a.n || 8 ≤ f.b.n
                 build := fun f => .wait f.d.n f.a.n f.b.n (f.imm % 8) (f.imm / 8 % 8) }
  | 22 => some { form := .I, xr := false, xi := 3, imm := true, varOk := z, bad3 := fun f => 2 ^ 30 ≤ f.imm
                 build := fun f => .mcall (f.imm % 64) (f.imm / 64 % 64) (f.imm / 4096 % 64)
                   (f.imm / 262144 % 64) (f.imm / 16777216 % 64) }
  | 23 => some (rowVld v .vld) | 24 => some (rowVst v .vst)
  | 25 => some (rowV2 (fun _ => true) v .vmov)
  | 26 => some { rowV3rs ETy.isFI v .vadd with c := 1, build := fun f => .vfma f.vq f.d.n f.a f.b f.c }
  | 27 => some (rowV3rs ETy.isFI v .vadd) | 28 => some (rowV3rs ETy.isFI v .vmul)
  | 29 => some (rowSs (v < 4) (.sync (VoteOp.ofCode v)))
  | 30 => some (rowNone (v < 2) false (if v == 0 then .halt else .haltKill))
  | _ => none

/-- Page 1 (R128). -/
def row1 (op v : Nat) : Option Row :=
  let z := v == 0
  match op with
  | 1 => some (rowSss z .mul) | 2 => some (rowSss z .mulh) | 3 => some (rowSss z .mulhu)
  | 4 => some (rowSss z .div) | 5 => some (rowSss z .divu) | 6 => some (rowSss z .rem)
  | 7 => some (rowSss z .remu) | 8 => some (rowSss z .sll) | 9 => some (rowSss z .srl)
  | 10 => some (rowSss z .sra)
  | 11 => some { rowSss z .add with c := 1, build := fun f => .fshr f.d.n f.a f.b f.c0 }
  | 12 => some (rowSs z .clz) | 13 => some (rowSs z .ctz) | 14 => some (rowSs z .popc)
  | 15 => some { rowSsu z 1 .slli with
                 bad2 := fun f => 4096 ≤ f.imm
                 build := fun f => .bext f.d.n f.a (f.imm % 64) (f.imm / 64 % 64 + 1) }
  | 16 => some { rowSsu z 1 .slli with
                 bad2 := fun f => 4096 ≤ f.imm
                 build := fun f => .bins f.d.n f.a (f.imm % 64) (f.imm / 64 % 64 + 1) }
  | 17 => some (rowSss z .min) | 18 => some (rowSss z .max) | 19 => some (rowSss z .minu)
  | 20 => some (rowSss z .maxu)
  | 21 => some { rowSss z .add with c := 1, build := fun f => .sel f.d.n f.a f.b f.c0 }
  | 22 => some (rowSs (v == 11 || v == 9 || v == 7) (.sext (if v == 11 then 8 else if v == 9 then 16 else 32)))
  | 23 => some (rowSs (v == 12 || v == 10 || v == 8) (.zext (if v == 12 then 8 else if v == 10 then 16 else 32)))
  | 24 => some (rowSss (v < 8) (.lea v))
  | 25 => some (rowSsi z .andi) | 26 => some (rowSsu z 4 .ori) | 27 => some (rowSsu z 4 .xori)
  | _ => none

/-- Page 2 (R132, R335, R327, R290, R412, R345). -/
def row2 (op v : Nat) : Option Row :=
  let z := v == 0
  match op with
  | 1 => if v == 1 then
           some { form := .I, d := .b, xr := false, varOk := true, build := fun f => .callB f.d.n }
         else some { form := .I, xr := false, xi := 4, imm := true, varOk := z, build := fun f => .call f.simm }
  | 2 => some (rowNone z false .ret)
  | 3 => some (rowCb z .breq) | 4 => some (rowCb z .brne) | 5 => some (rowCb z .brlt)
  | 6 => some (rowCb z .brge) | 7 => some (rowCb z .brltu) | 8 => some (rowCb z .brgeu)
  | 9 => some (rowReg z .b .s .no (fun f => .pbrr f.d.n f.a))
  | 10 => some (rowReg z .s .b .no (fun f => .mfb f.d.n f.a.n))
  | 11 => some (rowNone z false .yield)
  | 12 => some (rowCode z .trap)
  | 13 => some (rowNone z false .tret)
  | 14 => some { form := .I, d := .s, xi := 1, imm := true, varOk := z, build := fun f => .mfc f.d.n f.imm }
  | 15 => some { form := .I, a := .s, xi := 1, imm := true, varOk := z, build := fun f => .mtc f.imm f.a }
  | 16 => some (rowReg z .s .no .no (fun f => .rdtime f.d.n))
  | 17 => some (rowReg z .s .no .no (fun f => .rdcyc f.d.n))
  | 18 => some { form := .I, a := .s, xi := 1, imm := true, varOk := z, bad2 := fun f => 64 ≤ f.imm
                 build := fun f => .mcw f.imm f.a }
  | 19 => some { rowCode z .mcinv with bad2 := fun f => 64 ≤ f.imm }
  | 20 => some { form := .R, d := .s, a := .s, b := if v == 0 then .s else if v == 1 then .v else .no
                 varOk := v < 4
                 build := fun f => if v == 0 then .rpwS f.d.n f.a f.b else if v == 1 then .rpwV f.d.n f.a f.b
                   else if v == 2 then .rpwDone f.d.n f.a else .rpwKill f.d.n f.a }
  | 21 => some (rowSs z .spawn)
  | 22 => some (rowNone z true .tsig)
  | 23 => some (rowCode z .ebrk)
  | 24 => some (rowCode z .retire)
  | 25 => some (rowSs (v < 2) (if v == 0 then .pgateReq else .pgateQ))
  | 26 => some (rowSs z .pwake)
  | 27 => some (rowSs z .tmwait)
  | _ => none

/-- Page 3 (R200). -/
def row3 (op v : Nat) : Option Row :=
  let z := v == 0
  match op with
  | 1 => some (rowSsi (tyIn ETy.isI v) (.ldx (ty! v)))
  | 2 => some { form := .S, d := .s, a := .s, xi := 4, imm := true, varOk := tyIn ETy.isI v
                build := fun f => .stx f.ty f.d f.a f.simm }
  | 3 => some (rowVld v .vldu) | 4 => some (rowVst v .vstm)
  | 5 => some { form := .R, d := .v, a := .s, b := .v, nib := .zero, mask := true, varOk := tyIn ETy.isG v
                build := fun f => .vgath f.mq f.d.n f.a f.b }
  | 6 => some { form := .R, a := .s, b := .v, c := 2, nib := .zero, mask := true, zslot := false
                varOk := tyIn ETy.isG v, build := fun f => .vscat f.ty f.k f.a f.b f.c0 }
  | 7 => some (rowSo (v % 16 < 9 || v == 25) .s .s .s 11 (fun n => n % 4 == 3)
                 (fun f => .amo (AmoOp.ofCode (v % 16)) (v / 16 == 1) (Scope.ofCode (f.nib / 4)) f.d.n f.a f.b))
  | 8 => some { rowSo (v < 2) .s .s .s 11 (fun n => n % 4 == 3)
                 (fun f => .cas (v == 1) (Scope.ofCode (f.nib / 4)) f.d.n f.a f.b f.c0) with c := 2 }
  | 9 => some { rowSo z .v .s .v 11 (fun n => n % 4 == 3)
                 (fun f => .aggadd f.k f.zero (Scope.ofCode (f.nib / 4)) f.d.n f.a f.b) with mask := true }
  | 10 => some (rowSo z .no .no .no 11 (fun n => n % 4 != 0)
                 (fun f => .fence (Scope.ofCode (f.nib / 4)) (Order.ofCode (f.nib % 4))))
  | 11 => some (rowSsi (tyIn ETy.isI v) (.ldc (ty! v)))
  | 12 => some (rowVld v .vldc)
  | 13 => some { form := .I, a := .s, xi := 4, imm := true, varOk := v < 2
                 build := fun f => .pref (v == 1) f.a f.simm }
  | 14 => some (rowReg z .no .s .no (fun f => .clinv f.a))
  | 15 => some (rowReg z .no .s .no (fun f => .clwb f.a))
  | _ => none

/-- Page 4 (R154). -/
def row4 (op v : Nat) : Option Row :=
  let any : ETy → Bool := fun _ => true
  match op with
  | 1 => some (rowV3rs ETy.isFI v .vsub)
  | 2 => some (rowV3 .v any v .vand) | 3 => some (rowV3 .v any v .vor) | 4 => some (rowV3 .v any v .vxor)
  | 5 => some (rowV3 .v ETy.isI v .vsll) | 6 => some (rowV3 .v ETy.isI v .vsrl) | 7 => some (rowV3 .v ETy.isI v .vsra)
  | 8 => some { rowV3 .v ETy.isI v .vsll with c := 2, build := fun f => .vfsh f.mq f.d.n f.a f.b f.c0 }
  | 9 => some (rowV3 .v ETy.isFI v .vmin) | 10 => some (rowV3 .v ETy.isFI v .vmax)
  | 11 => some (rowV2rs ETy.isFI v .vabs) | 12 => some (rowV2rs ETy.isFI v .vneg)
  | 13 => some { form := .R, d := .k, a := .v, b := .v, nib := .cond, mask := true, varOk := tyIn ETy.isW v
                 bad2 := fun f => 8 ≤ f.nib || (6 ≤ f.nib && f.ty.isI)
                 build := fun f => .vcmp (Cond.ofCode f.nib) f.mq f.d.n f.a f.b }
  | 14 => some { rowV3 .v any v .vand with zslot := false, build := fun f => .vsel f.ty f.k f.d.n f.a f.b }
  | 15 => some { rowV2 ETy.isW v .vbcast with a := .s }
  | 16 => some (rowReg (tyIn ETy.isW v) .s .v .s (fun f => .vext f.ty f.d.n f.a f.b))
  | 17 => some (rowReg (tyIn ETy.isW v) .v .s .s (fun f => .vins f.ty f.d.n f.a f.b))
  | 18 => some (rowV3 .v ETy.isW v .vperm) | 19 => some (rowV3 .s ETy.isW v .vrot)
  | 20 => some (rowV2 ETy.isFI v .vgmax)
  | 21 => some (rowV2rs ETy.isFI v .vgsum) | 22 => some (rowV2rs ETy.isFI v .vscan)
  | 23 => some (rowV2 ETy.isI v .vclz) | 24 => some (rowV2 ETy.isI v .vpopc)
  | 25 => some (rowReg (v < 6) .k .k (if v == 5 then .no else .k) (fun f => .kop (KOp.ofCode v) f.d.n f.a f.b))
  | 26 =>
    match v with
    | 0 => some (rowReg true .k .k .no (fun f => .kmov .copy f.d.n f.a))
    | 1 => some (rowReg true .k .s .no (fun f => .kmov .lo f.d.n f.a))
    | 2 => some (rowReg true .k .s .no (fun f => .kmov .hi f.d.n f.a))
    | 3 => some (rowReg true .s .k .no (fun f => .kmov .getlo f.d.n f.a))
    | 4 => some (rowReg true .s .k .no (fun f => .kmov .gethi f.d.n f.a))
    | 5 => some (rowReg true .k .no .no (fun f => .kmov .set f.d.n ⟨0, false⟩))
    | 6 => some (rowReg true .k .no .no (fun f => .kmov .clr f.d.n ⟨0, false⟩))
    | _ => some (rowReg false .k .k .no (fun f => .kmov .copy f.d.n f.a))
  | 27 => some (rowReg (tyIn ETy.isW v) .s .k .no (fun f => .kpop f.ty f.d.n f.a))
  | 28 => some (rowV2 ETy.isW v .vcompr) | 29 => some (rowV2 ETy.isW v .vspread)
  | 30 => some { rowV2 ETy.isI v .vclz with a := .no, build := fun f => .viota f.mq f.d.n }
  | _ => none

/-- Page 5 (R155). -/
def row5 (op v : Nat) : Option Row :=
  match op with
  | 1 => some (rowV2rs ETy.isF v .vrcp) | 2 => some (rowV2rs ETy.isF v .vrsqrt)
  | 3 => some (rowV2rs ETy.isF v .vexp2) | 4 => some (rowV2rs ETy.isF v .vlog2)
  | 5 => some (rowV2rs ETy.isF v .vtanh)
  | 6 => some { rowV2rs (fun _ => true) v .vrcp with
                form := .I, imm := true, bad2 := fun f => 15 ≤ f.imm
                build := fun f => .vcvt f.vq f.d.n f.a (ty! f.imm) }
  | 7 => some (rowV2rs ETy.isF v .vround)
  | 8 => some (rowV2 ETy.isF v .vclass)
  | 9 => some (rowV3rs ETy.isF v .vscale)
  | 10 => some (rowV3rs ETy.isDot v .vdot)
  | 11 => some (rowV3rs ETy.isNarrow v .vpack)
  | 12 => some { rowV2 ETy.isNarrow v .vclass with
                 form := .I, imm := true, bad2 := fun f => 2 ≤ f.imm
                 build := fun f => .vunpk f.mq f.d.n f.a f.imm }
  | 13 => some { form := .S, d := .v, a := .s, xi := 4, imm := true, varOk := v % 16 != 0
                 build := fun f => .vqst (v / 16 == 1) (v % 16) f.d f.a f.simm }
  | 14 => some (rowReg (v % 16 != 0) .v .v .no (fun f => .vqenc (v / 16 == 1) (v % 16) f.d.n f.a))
  | 15 => some { form := .R, d := .v, a := .v, nib := .rs, mask := true, varOk := v < 3
                 build := fun f => .vdq (if v == 0 then .sb4 else if v == 1 then .sb8 else .mx4)
                   (Rnd.ofCode (f.nib / 2)) (f.nib % 2 == 1) f.k f.zero f.d.n f.a }
  | 16 => some { form := .R, d := .v, nib := .zero, mask := true, varOk := v == 0
                 build := fun f => .vseed f.k f.zero f.d.n }
  | _ => none

/-- Page 6 (R184). -/
def row6 (op v : Nat) : Option Row :=
  let z := v == 0
  match op with
  | 1 => some { rowReg z .a .s .s (fun f => .mxbind f.d.n f.a f.b f.c) with c := 1 }
  | 2 => some (rowReg z .a .no .no (fun f => .mxunbind f.d.n))
  | 3 => some { form := .I, d := .a, imm := true, varOk := z, build := fun f => .mx f.d.n (f.imm + 1) }
  | 4 => some (rowReg z .a .s .no (fun f => .mxg f.d.n f.a))
  | 5 => some (rowReg z .a .no .no (fun f => .mxzero f.d.n))
  | 6 => some (rowReg z .a .s .no (fun f => .mxld f.d.n f.a))
  | 7 => some (rowReg z .a .s .no (fun f => .mxst f.d.n f.a))
  | 8 => some (rowReg (v < 2) .a .no .no (fun f => .mxdrain (v == 1) f.d.n))
  | 9 => some (rowReg z .v .no .no (fun f => .drrow f.d.n))
  | 10 => some (rowReg z .no .v .no (fun f => .drput f.a))
  | 11 => some (rowReg (v < 2) .no .no .no (fun _ => .drdone (v == 1)))
  | 12 => some { form := .S, d := .s, a := .s, varOk := v < 10, build := fun f => .plane (MFmt.ofCode v) f.d f.a }
  | 13 => some { form := .S, d := .s, a := .s, varOk := v < 10, build := fun f => .unplane (MFmt.ofCode v) f.d f.a }
  | 14 => some (rowReg (v < 3) .s (if v == 2 then .no else .a) .no
                (fun f => .mxstat (if v == 0 then .rd else if v == 1 then .clr else .cnt) f.d.n f.a.n))
  | _ => none

/-- Page 7 (R200). -/
def row7 (op v : Nat) : Option Row :=
  let z := v == 0
  match op with
  | 1 => some (rowReg z .q .s .s (fun f => .rgdef f.d.n f.a f.b))
  | 2 => some (rowReg z .s .q .s (fun f => .rgrsv f.d.n f.a.n f.b))
  | 3 => some (rowReg z .q .s .s (fun f => .rgpub f.d.n f.a f.b))
  | 4 => some (rowReg z .s .q .s (fun f => .rgcon f.d.n f.a.n f.b))
  | 5 => some (rowReg (v < 5) .s .q (if v == 4 then .s else .no)
               (fun f => .rgst (if v == 4 then .addr else RgOp.ofCode v) f.d.n f.a.n f.b))
  | 6 => some { rowReg z .s .s .s (fun f => .cpy (Rnd.ofCode (f.nib / 2)) (f.nib % 2 == 1) f.d.n f.a f.b f.c) with
                c := 1, nib := .rs }
  | 7 => some { rowReg z .s .s .s (fun f => .cpys (Rnd.ofCode (f.nib / 2)) (f.nib % 2 == 1) f.d.n f.a f.b) with
                nib := .rs }
  | 8 => some (rowSss z .cpst)
  | 9 => some (rowReg z .f .v .no (fun f => .fpush f.d.n f.a))
  | 10 => some (rowReg z .v .f .no (fun f => .fpop f.d.n f.a.n))
  | 11 => some (rowReg (v < 2) .s .f .no (fun f => .ffree (v == 1) f.d.n f.a.n))
  | 12 => some (rowSss z .xput)
  | 13 => some (rowSss (v ≤ 6) (.xred (ty! v)))
  | 14 => some (rowSss z .xget)
  | 15 => some (rowSss (v ≤ 2) (.xfin (ty! v)))
  | 16 => some (rowReg z .no .s .v (fun f => .msend f.a f.b))
  | 17 => some (rowReg z .v .no .no (fun f => .mrecv f.d.n))
  | 18 => some (rowReg z .s .no .no (fun f => .mpoll f.d.n))
  | _ => none

/-- Barrier scope and order nibble: scope `.part`, order `.rlx` or `.rel` (R345). -/
def soBar (n : Nat) : Bool := n == 4 || n == 6

/-- Page 8 (R345, R304, R362). -/
def row8 (op v : Nat) : Option Row :=
  let z := v == 0
  match op with
  | 1 => some (rowReg z .n .s .no (fun f => .bardef f.d.n f.a))
  | 2 => some (rowSo z .n .s .no 6 soBar (fun f => .bar (f.nib == 6) f.d.n f.a))
  | 3 => some (rowReg z .s .n .no (fun f => .barv f.d.n f.a.n))
  | 4 => some (rowSo z .s .n .s 6 soBar (fun f => .bararr (f.nib == 6) f.d.n f.a.n f.b))
  | 5 => if v == 1 then
           some { rowReg true .s .n .s (fun f => .barwT f.d.n f.a.n f.b f.c0) with c := 2 }
         else some (rowReg z .s .n .s (fun f => .barw f.d.n f.a.n f.b))
  | 6 => some (rowReg z .n .s .no (fun f => .bartx f.d.n f.a))
  | 7 => some (rowReg (v < 2) .s .n .no (fun f => .barst (v == 1) f.d.n f.a.n))
  | 8 => some (rowReg z .e .no .no (fun f => .evwait f.d.n))
  | 9 => if v == 1 then some (rowReg true .no .s .s (fun f => .evsigRmt f.a f.b))
         else some (rowReg z .e .no .no (fun f => .evsig f.d.n))
  | 10 => if v == 1 then
            some { form := .I, d := .s, a := .s, imm := true, varOk := true, bad2 := fun f => f.imm != 0
                   build := fun f => .keyqId f.d.n f.a }
          else some { form := .I, d := .s, imm := true, varOk := z, bad2 := fun f => 4 ≤ f.imm
                      build := fun f => .keyqOwn f.d.n f.imm }
  | 11 => some { form := .I, imm := true, varOk := z, bad2 := fun f => 4 ≤ f.imm, build := fun f => .keyrel f.imm }
  | 12 => some (rowSs z .shadow)
  | 13 => some (rowReg (v < 2) .no .s .no (fun f => if v == 0 then .publishSwap f.a else .publishDrop f.a))
  | 14 => if v == 0 then some (rowSs true .snapTake)
          else some (rowReg (v < 2) .no .s .no (fun f => .snapDrop f.a))
  | 15 => if v == 0 then some (rowReg true .no .s .no (fun f => .tlbinvPage f.a))
          else some (rowNone (v < 2) true .tlbinvAll)
  | _ => none

/-- Page 9 (R381). -/
def row9 (op v : Nat) : Option Row :=
  let z := v == 0
  match op with
  | 1 => some (rowReg (v < 3) .h .s .no
               (fun f => .hseek (if v == 0 then .shortest else if v == 1 then .fwd else .bwd) f.d.n f.a))
  | 2 => some (rowReg z .v .h .no (fun f => .hrd f.d.n f.a.n))
  | 3 => some (rowReg z .h .v .no (fun f => .hwr f.d.n f.a))
  | 4 => some (rowReg z .h .no .no (fun f => .hrew f.d.n))
  | 5 => some (rowReg z .s .h .no (fun f => .hpos f.d.n f.a.n))
  | 6 => some (rowReg z .h .s .no (fun f => .hstride f.d.n f.a))
  | 7 => some (rowReg z .h .no .no (fun f => .htake f.d.n))
  | 8 => some (rowReg z .h .no .no (fun f => .hgive f.d.n))
  | 9 => some (rowReg z .h .no .no (fun f => .hrealign f.d.n))
  | 10 => some (rowReg z .h .no .no (fun f => .hmark f.d.n))
  | 11 => some (rowReg z .h .q .s (fun f => .hburst f.d.n f.a.n f.b))
  | 12 => some (rowReg z .h .q .s (fun f => .hfill f.d.n f.a.n f.b))
  | _ => none

/-- The cell of the opcode map (R117). -/
def rowOf (page op var : Nat) : Option Row :=
  match page with
  | 0 => row0 op var | 1 => row1 op var | 2 => row2 op var | 3 => row3 op var | 4 => row4 op var
  | 5 => row5 op var | 6 => row6 op var | 7 => row7 op var | 8 => row8 op var | 9 => row9 op var
  | _ => none

/-- The concatenated XI payloads above the four immediate bits of the base halfword (R106). -/
def immOf (xi : List Nat) (imm4 : Nat) : Nat := xi.foldl (fun acc p => acc * 512 + p) 0 * 16 + imm4

/-- The fields of a chain whose base has row `r` (R103, R106, R107, R109), with a substitution applied (R143). -/
def fieldsOf (r : Row) (c : Chain) (s : Subst) : Fd :=
  let h := c.half
  let xr := c.xr.getD 0
  let d := (s.at 14).getD (xr / 64 % 8 * 8 + h / 256 % 8)
  let a := (s.at 11).getD (xr / 8 % 8 * 8 + h / 32 % 8)
  let b := (s.at 8).getD (xr % 8 * 8 + h / 4 % 8)
  let m := c.m.getD ⟨0, false, r.nibDef⟩
  let bit1 := h / 2 % 2 == 1
  let bit0 := h % 2 == 1
  let imm4 := match r.form with | .R => 0 | .I => h / 2 % 16 | .S => h / 4 % 8 * 2
  let raw := match r.form with | .R => c.xi.foldl (fun acc p => acc * 512 + p) 0 | _ => immOf c.xi imm4
  let raw := if r.form == .R && c.xi == [] then 63 else raw
  { d := ⟨d, r.form == .S && bit0⟩
    a := ⟨a, match r.form with | .R => bit1 | .I => bit0 | .S => bit1⟩
    b := ⟨b, r.form == .R && bit0⟩
    c := c.c.map (fun x => ⟨(s.at 5).getD x.n, x.last⟩)
    imm := (s.at 2).getD raw
    width := if s.w / 4 % 2 == 1 then 64 else 4 + 9 * c.xi.length
    var := (c.xp.getD 0) % 32
    nib := m.nib, k := m.k, zero := m.zero }

/-- Whether a field is nonzero although its row does not use it, or carries a last-use bit over no pool register (R104). -/
def badField (fl : File) (x : Src) : Bool :=
  match fl with
  | .no => x.n != 0 || x.last
  | _ => !fl.isPool && x.last

/-- The unused-field check of a row (WHY 3; R104, R109). -/
def bad3 (r : Row) (c : Chain) (f : Fd) : Bool :=
  (c.m.isSome && !r.mask && (f.k != 0 || f.zero)) || badField r.d f.d || badField r.a f.a
    || (if r.form == .R then badField r.b f.b else f.b.n / 8 != 0)
    || (r.form != .R && !r.imm && f.imm != 0)
    || (r.d == .cnt && c.xr.isSome) || r.bad3 f

/-- The slot checks of a row (WHY 2; R108, R109, R115, R152). -/
def bad2 (r : Row) (f : Fd) : Bool :=
  !r.varOk || (r.mask && !r.zslot && f.zero)
    || (match r.nib with
        | .zero => f.nib != 0
        | .rs => 12 ≤ f.nib
        | _ => false)
    || r.bad2 f

/-- The register-range check of a row (WHY 4; R107). -/
def bad4 (r : Row) (f : Fd) : Bool :=
  (r.d != .no && r.d.size ≤ f.d.n) || (r.a != .no && r.a.size ≤ f.a.n)
    || (r.form == .R && r.b != .no && r.b.size ≤ f.b.n)

/-- The instruction of a chain, or the first decode trap of R113: rule 4 of R110, then `ILLOP` with the lowest WHY. A
reserved cell decodes to the instruction that takes its trap. -/
def decodeChain (c : Chain) (s : Subst) : Except DTrap Instr :=
  let xp := c.xp.getD 0
  let page := xp / 32 % 16
  let op := c.half / 2048 % 32
  if reservedCell page op then .ok (.reservedOpcode page c.half)
  else match rowOf page op (xp % 32) with
  | none => .ok (.reservedOpcode page c.half)
  | some r =>
    let f := fieldsOf r c s
    if r.xi < c.xi.length || (!r.xr && c.xr.isSome) || (c.c.isSome && r.c == 0) || (c.m.isSome && r.nib == .none) then
      .error (.badPrefix 4 0 4)
    else if bad2 r f then .error (.illop 2 page c.half)
    else if bad3 r c f then .error (.illop 3 page c.half)
    else if bad4 r f then .error (.illop 4 page c.half)
    else if r.d == .k && f.d.n == 0 then .error (.illop 5 page c.half)
    else if r.c == 2 && f.c == none then .error (.illop 6 page c.half)
    else .ok (r.build f)

/-- The instruction that a list of halfwords begins with, and how many halfwords it takes. -/
def decodeAt (hs : List Nat) (s : Subst) : Except DTrap (Instr × Nat) :=
  match parseChain .empty 0 hs with
  | .error e => .error e
  | .ok c =>
    match decodeChain c s with
    | .error e => .error e
    | .ok i => .ok (i, c.len)

/-- The instruction of a whole list of halfwords. -/
def decode (hs : List Nat) : Option Instr :=
  match decodeAt hs .none with
  | .ok (i, n) => if n == hs.length then some i else none
  | .error _ => none

/-- The halfwords of a word of the opcode table. A 32-bit row of the table writes the prefix that is fetched first
into bits [31:16]; a word whose low half is a prefix is read with its low half first. Zeros follow. -/
def tableHalves (nbits w : Nat) : List Nat :=
  if nbits ≤ 16 then [w % 65536, 0, 0, 0, 0]
  else if isPrefix (w % 65536) then
    [w % 65536, w / 65536 % 65536, w / 4294967296 % 65536, 0, 0]
  else if isPrefix (w / 65536 % 65536) && nbits ≤ 32 then [w / 65536 % 65536, w % 65536, 0, 0, 0]
  else [w % 65536, w / 65536 % 65536, 0, 0, 0]

/-- What the decoder reads from an instruction whose bits the opcode table gives as `w`. -/
def decodeTableWord (nbits w : Nat) : Option Instr :=
  match decodeAt (tableHalves nbits w) .none with
  | .ok (i, _) => some i
  | .error _ => none

/-! The encoder. -/

/-- The fields of an encoding, before prefixes are chosen. -/
structure Enc where
  page : Nat := 0
  var : Nat := 0
  op : Nat
  form : Form := .R
  d : Src := ⟨0, false⟩
  a : Src := ⟨0, false⟩
  b : Src := ⟨0, false⟩
  /-- the immediate as an unsigned number of `4 + 9 n` bits -/
  imm : Nat := 0
  n : Nat := 0
  c : Option Src := none
  m : Option MaskForm := none
deriving DecidableEq, Repr

/-- The fewest XI prefixes of a signed immediate (R37). -/
def nxiS (i : Int) : Nat :=
  if immS 0 i then 0 else if immS 1 i then 1 else if immS 2 i then 2 else if immS 3 i then 3 else 4
/-- The fewest XI prefixes of an unsigned immediate (R37). -/
def nxiU (i : Nat) : Nat :=
  if immU 0 i then 0 else if immU 1 i then 1 else if immU 2 i then 2 else if immU 3 i then 3 else 4
/-- The two's complement of a signed immediate in its width. -/
def rawS (i : Int) : Nat := (i % (2 ^ (4 + 9 * nxiS i) : Int)).toNat

/-- The XI payloads of an immediate, the one nearest the start of the chain first (R106). -/
def xiList (n imm : Nat) : List Nat :=
  if n == 0 then [] else if n == 1 then [imm / 16 % 512]
  else if n == 2 then [imm / 8192 % 512, imm / 16 % 512]
  else if n == 3 then [imm / 4194304 % 512, imm / 8192 % 512, imm / 16 % 512]
  else [imm / 2147483648 % 512, imm / 4194304 % 512, imm / 8192 % 512, imm / 16 % 512]

/-- One bit of a Boolean. -/
def bit (b : Bool) : Nat := if b then 1 else 0

/-- The base halfword (R103). -/
def Enc.base (e : Enc) : Nat :=
  let low := match e.form with
    | .R => e.b.n % 8 * 4 + bit e.a.last * 2 + bit e.b.last
    | .I => e.imm % 16 * 2 + bit e.a.last
    | .S => e.imm / 2 % 8 * 4 + bit e.a.last * 2 + bit e.d.last
  e.op * 2048 + e.d.n % 8 * 256 + e.a.n % 8 * 32 + low

/-- The halfwords of an encoding, prefixes in the order XP, XR, XQ third source, XQ mask, XI (R36). -/
def Enc.halves (e : Enc) : List Nat :=
  let xp := e.page * 32 + e.var
  let bh := if e.form == .R then e.b.n / 8 else 0
  let xr := e.d.n / 8 * 64 + e.a.n / 8 * 8 + bh
  (if xp == 0 then [] else [64512 + xp]) ++ (if xr == 0 then [] else [64000 + xr])
    ++ (match e.c with | none => [] | some c => [65024 + c.n * 4 + bit c.last * 2])
    ++ (match e.m with | none => [] | some m => [65280 + m.k * 32 + bit m.zero * 16 + m.nib])
    ++ (xiList e.n e.imm).map (63488 + ·) ++ [e.base]

/-- The mask form, left out where it says only what holds without it (R109). -/
def maskOf (k : Nat) (zero : Bool) (nib dflt : Nat) : Option MaskForm :=
  if k == 0 && !zero && nib == dflt then none else some ⟨k, zero, nib⟩
/-- The RS nibble (R109). -/
def rsNib (r : Rnd) (sat : Bool) : Nat := r.code * 2 + bit sat
/-- A register in the D field. -/
def dst (d : Nat) : Src := ⟨d, false⟩
/-- The third source, left out where it is `s0` unmarked. -/
def c0Of (c : Src) : Option Src := if c == ⟨0, false⟩ then none else some c

/-- R-form with three registers. -/
def encR (page var op : Nat) (d a b : Src) : Enc := { page := page, var := var, op := op, d := d, a := a, b := b }
/-- I-form with a signed immediate. -/
def encI (page var op : Nat) (d a : Src) (i : Int) : Enc :=
  { page := page, var := var, op := op, form := .I, d := d, a := a, imm := rawS i, n := nxiS i }
/-- I-form with an unsigned immediate. -/
def encU (page var op : Nat) (d a : Src) (i : Nat) : Enc :=
  { page := page, var := var, op := op, form := .I, d := d, a := a, imm := i, n := nxiU i }
/-- S-form with a signed immediate. -/
def encS (page var op : Nat) (d a : Src) (i : Int) : Enc :=
  { page := page, var := var, op := op, form := .S, d := d, a := a, imm := rawS i, n := nxiS i }
/-- An R-form with all vector slots. -/
def encV (page op : Nat) (q : VQ) (d : Nat) (a b : Src) : Enc :=
  { page := page, var := q.ty.code, op := op, d := dst d, a := a, b := b
    m := maskOf q.k q.zero (rsNib q.rnd q.sat) 0 }
/-- An R-form with mask and zeroing. -/
def encM (page op : Nat) (q : MQ) (d : Nat) (a b : Src) : Enc :=
  { page := page, var := q.ty.code, op := op, d := dst d, a := a, b := b, m := maskOf q.k q.zero 0 0 }
/-- No register. -/
def noSrc : Src := ⟨0, false⟩

/-- The encoding of an instruction; none for the steps of the other agents. -/
def enc : Instr → Option Enc
  | .add d a b => some (encR 0 0 1 (dst d) a b)
  | .addi d a i => some (encI 0 0 2 (dst d) a i)
  | .sub d a b => some (encR 0 0 3 (dst d) a b)
  | .and d a b => some (encR 0 0 4 (dst d) a b)
  | .or d a b => some (encR 0 0 5 (dst d) a b)
  | .xor d a b => some (encR 0 0 6 (dst d) a b)
  | .slli d a i => some (encU 0 0 7 (dst d) a i)
  | .srli d a i => some (encU 0 0 8 (dst d) a i)
  | .srai d a i => some (encU 0 0 9 (dst d) a i)
  | .li d i => some (encI 0 0 10 (dst d) noSrc i)
  | .mov d a => some (encR 0 0 11 (dst d) a noSrc)
  | .slt d a b => some (encR 0 0 12 (dst d) a b)
  | .sltu d a b => some (encR 0 0 13 (dst d) a b)
  | .seq d a b => some (encR 0 0 14 (dst d) a b)
  | .ld d a i => some (encI 0 0 15 (dst d) a i)
  | .st d a i => some (encS 0 0 16 d a i)
  | .pbr d i => some (encI 0 0 17 (dst d) noSrc i)
  | .br i => some (encI 0 0 18 noSrc noSrc i)
  | .brnz a i => some (encI 0 0 19 noSrc a i)
  | .brz a i => some (encI 0 0 20 noSrc a i)
  | .wait l s c m h =>
    some { op := 21, d := dst l, a := dst s, b := dst c, imm := (m + 8 * h) * 16
           n := if m == 7 && h == 7 then 0 else 1 }
  | .mcall slot p0 p1 p2 p3 =>
    some (encU 0 0 22 noSrc noSrc (slot + 64 * p0 + 4096 * p1 + 262144 * p2 + 16777216 * p3))
  | .vld q d a i => some { encI 0 q.ty.code 23 (dst d) a i with m := maskOf q.k q.zero 0 0 }
  | .vst ty k d a i => some { encS 0 ty.code 24 d a i with m := maskOf k false 0 0 }
  | .vmov q d a => some (encM 0 25 q d a noSrc)
  | .vfma q d a b c => some { encV 0 26 q d a b with c := c }
  | .vadd q d a b => some (encV 0 27 q d a b)
  | .vmul q d a b => some (encV 0 28 q d a b)
  | .sync op d a => some (encR 0 op.code 29 (dst d) a noSrc)
  | .halt => some { op := 30 }
  | .haltKill => some { var := 1, op := 30 }
  | .mul d a b => some (encR 1 0 1 (dst d) a b)
  | .mulh d a b => some (encR 1 0 2 (dst d) a b)
  | .mulhu d a b => some (encR 1 0 3 (dst d) a b)
  | .div d a b => some (encR 1 0 4 (dst d) a b)
  | .divu d a b => some (encR 1 0 5 (dst d) a b)
  | .rem d a b => some (encR 1 0 6 (dst d) a b)
  | .remu d a b => some (encR 1 0 7 (dst d) a b)
  | .sll d a b => some (encR 1 0 8 (dst d) a b)
  | .srl d a b => some (encR 1 0 9 (dst d) a b)
  | .sra d a b => some (encR 1 0 10 (dst d) a b)
  | .fshr d a b c => some { encR 1 0 11 (dst d) a b with c := c0Of c }
  | .clz d a => some (encR 1 0 12 (dst d) a noSrc)
  | .ctz d a => some (encR 1 0 13 (dst d) a noSrc)
  | .popc d a => some (encR 1 0 14 (dst d) a noSrc)
  | .bext d a pos len => some (encU 1 0 15 (dst d) a (pos + 64 * (len - 1)))
  | .bins d a pos len => some (encU 1 0 16 (dst d) a (pos + 64 * (len - 1)))
  | .min d a b => some (encR 1 0 17 (dst d) a b)
  | .max d a b => some (encR 1 0 18 (dst d) a b)
  | .minu d a b => some (encR 1 0 19 (dst d) a b)
  | .maxu d a b => some (encR 1 0 20 (dst d) a b)
  | .sel d a b c => some { encR 1 0 21 (dst d) a b with c := c0Of c }
  | .sext w d a => some (encR 1 (if w == 8 then 11 else if w == 16 then 9 else 7) 22 (dst d) a noSrc)
  | .zext w d a => some (encR 1 (if w == 8 then 12 else if w == 16 then 10 else 8) 23 (dst d) a noSrc)
  | .lea sh d a b => some (encR 1 sh 24 (dst d) a b)
  | .andi d a i => some (encI 1 0 25 (dst d) a i)
  | .ori d a i => some (encU 1 0 26 (dst d) a i)
  | .xori d a i => some (encU 1 0 27 (dst d) a i)
  | .call i => some (encI 2 0 1 noSrc noSrc i)
  | .callB d => some { page := 2, var := 1, op := 1, form := .I, d := dst d }
  | .ret => some { page := 2, op := 2 }
  | .breq d a b => some (encR 2 0 3 (dst d) a b)
  | .brne d a b => some (encR 2 0 4 (dst d) a b)
  | .brlt d a b => some (encR 2 0 5 (dst d) a b)
  | .brge d a b => some (encR 2 0 6 (dst d) a b)
  | .brltu d a b => some (encR 2 0 7 (dst d) a b)
  | .brgeu d a b => some (encR 2 0 8 (dst d) a b)
  | .pbrr d a => some (encR 2 0 9 (dst d) a noSrc)
  | .mfb d a => some (encR 2 0 10 (dst d) (dst a) noSrc)
  | .yield => some { page := 2, op := 11 }
  | .trap code => some (encU 2 0 12 noSrc noSrc code)
  | .tret => some { page := 2, op := 13 }
  | .mfc d ctl => some (encU 2 0 14 (dst d) noSrc ctl)
  | .mtc ctl a => some (encU 2 0 15 noSrc a ctl)
  | .rdtime d => some (encR 2 0 16 (dst d) noSrc noSrc)
  | .rdcyc d => some (encR 2 0 17 (dst d) noSrc noSrc)
  | .mcw slot a => some (encU 2 0 18 noSrc a slot)
  | .mcinv slot => some (encU 2 0 19 noSrc noSrc slot)
  | .rpwS d a b => some (encR 2 0 20 (dst d) a b)
  | .rpwV d a b => some (encR 2 1 20 (dst d) a b)
  | .rpwDone d a => some (encR 2 2 20 (dst d) a noSrc)
  | .rpwKill d a => some (encR 2 3 20 (dst d) a noSrc)
  | .spawn d a => some (encR 2 0 21 (dst d) a noSrc)
  | .tsig => some { page := 2, op := 22 }
  | .ebrk code => some (encU 2 0 23 noSrc noSrc code)
  | .retire node => some (encU 2 0 24 noSrc noSrc node)
  | .pgateReq d a => some (encR 2 0 25 (dst d) a noSrc)
  | .pgateQ d a => some (encR 2 1 25 (dst d) a noSrc)
  | .pwake d a => some (encR 2 0 26 (dst d) a noSrc)
  | .tmwait d a => some (encR 2 0 27 (dst d) a noSrc)
  | .ldx ty d a i => some (encI 3 ty.code 1 (dst d) a i)
  | .stx ty d a i => some (encS 3 ty.code 2 d a i)
  | .vldu q d a i => some { encI 3 q.ty.code 3 (dst d) a i with m := maskOf q.k q.zero 0 0 }
  | .vstm ty k d a i => some { encS 3 ty.code 4 d a i with m := maskOf k false 0 0 }
  | .vgath q d a b => some (encM 3 5 q d a b)
  | .vscat ty k a b c => some { encM 3 6 ⟨ty, k, false⟩ 0 a b with c := some c }
  | .amo op w sc d a b =>
    some { encR 3 (bit w * 16 + op.code) 7 (dst d) a b with m := maskOf 0 false (sc.code * 4 + 3) 11 }
  | .cas w sc d a b c =>
    some { encR 3 (bit w) 8 (dst d) a b with m := maskOf 0 false (sc.code * 4 + 3) 11, c := some c }
  | .aggadd k zero sc d a b =>
    some { encR 3 0 9 (dst d) a b with m := maskOf k zero (sc.code * 4 + 3) 11 }
  | .fence sc o => some { page := 3, op := 10, m := maskOf 0 false (sc.code * 4 + o.code) 11 }
  | .ldc ty d a i => some (encI 3 ty.code 11 (dst d) a i)
  | .vldc q d a i => some { encI 3 q.ty.code 12 (dst d) a i with m := maskOf q.k q.zero 0 0 }
  | .pref w a i => some (encI 3 (bit w) 13 noSrc a i)
  | .clinv a => some (encR 3 0 14 noSrc a noSrc)
  | .clwb a => some (encR 3 0 15 noSrc a noSrc)
  | .vsub q d a b => some (encV 4 1 q d a b)
  | .vand q d a b => some (encM 4 2 q d a b)
  | .vor q d a b => some (encM 4 3 q d a b)
  | .vxor q d a b => some (encM 4 4 q d a b)
  | .vsll q d a b => some (encM 4 5 q d a b)
  | .vsrl q d a b => some (encM 4 6 q d a b)
  | .vsra q d a b => some (encM 4 7 q d a b)
  | .vfsh q d a b c => some { encM 4 8 q d a b with c := some c }
  | .vmin q d a b => some (encM 4 9 q d a b)
  | .vmax q d a b => some (encM 4 10 q d a b)
  | .vabs q d a => some (encV 4 11 q d a noSrc)
  | .vneg q d a => some (encV 4 12 q d a noSrc)
  | .vcmp c q d a b =>
    some { encM 4 13 q d a b with m := maskOf q.k q.zero c.code 0 }
  | .vsel ty k d a b => some (encM 4 14 ⟨ty, k, false⟩ d a b)
  | .vbcast q d a => some (encM 4 15 q d a noSrc)
  | .vext ty d a b => some (encR 4 ty.code 16 (dst d) a b)
  | .vins ty d a b => some (encR 4 ty.code 17 (dst d) a b)
  | .vperm q d a b => some (encM 4 18 q d a b)
  | .vrot q d a b => some (encM 4 19 q d a b)
  | .vgmax q d a => some (encM 4 20 q d a noSrc)
  | .vgsum q d a => some (encV 4 21 q d a noSrc)
  | .vscan q d a => some (encV 4 22 q d a noSrc)
  | .vclz q d a => some (encM 4 23 q d a noSrc)
  | .vpopc q d a => some (encM 4 24 q d a noSrc)
  | .kop op d a b => some (encR 4 op.code 25 (dst d) a b)
  | .kmov op d a => some (encR 4 op.code 26 (dst d) a noSrc)
  | .kpop ty d a => some (encR 4 ty.code 27 (dst d) a noSrc)
  | .vcompr q d a => some (encM 4 28 q d a noSrc)
  | .vspread q d a => some (encM 4 29 q d a noSrc)
  | .viota q d => some (encM 4 30 q d noSrc noSrc)
  | .vrcp q d a => some (encV 5 1 q d a noSrc)
  | .vrsqrt q d a => some (encV 5 2 q d a noSrc)
  | .vexp2 q d a => some (encV 5 3 q d a noSrc)
  | .vlog2 q d a => some (encV 5 4 q d a noSrc)
  | .vtanh q d a => some (encV 5 5 q d a noSrc)
  | .vcvt q d a sty => some { encV 5 6 q d a noSrc with form := .I, imm := sty.code }
  | .vround q d a => some (encV 5 7 q d a noSrc)
  | .vclass q d a => some (encM 5 8 q d a noSrc)
  | .vscale q d a b => some (encV 5 9 q d a b)
  | .vdot q d a b => some (encV 5 10 q d a b)
  | .vpack q d a b => some (encV 5 11 q d a b)
  | .vunpk q d a half => some { encM 5 12 q d a noSrc with form := .I, imm := half }
  | .vqst sb8 allow d a i => some (encS 5 (bit sb8 * 16 + allow) 13 d a i)
  | .vqenc sb8 allow d a => some (encR 5 (bit sb8 * 16 + allow) 14 (dst d) a noSrc)
  | .vdq kind rnd sat k zero d a =>
    some { encR 5 kind.code 15 (dst d) a noSrc with m := maskOf k zero (rsNib rnd sat) 0 }
  | .vseed k zero d => some { encR 5 0 16 (dst d) noSrc noSrc with m := maskOf k zero 0 0 }
  | .mxbind d a b c => some { encR 6 0 1 (dst d) a b with c := c }
  | .mxunbind d => some (encR 6 0 2 (dst d) noSrc noSrc)
  | .mx d n => some { page := 6, op := 3, form := .I, d := dst d, imm := n - 1 }
  | .mxg d a => some (encR 6 0 4 (dst d) a noSrc)
  | .mxzero d => some (encR 6 0 5 (dst d) noSrc noSrc)
  | .mxld d a => some (encR 6 0 6 (dst d) a noSrc)
  | .mxst d a => some (encR 6 0 7 (dst d) a noSrc)
  | .mxdrain keep d => some (encR 6 (bit keep) 8 (dst d) noSrc noSrc)
  | .drrow d => some (encR 6 0 9 (dst d) noSrc noSrc)
  | .drput a => some (encR 6 0 10 noSrc a noSrc)
  | .drdone drop => some (encR 6 (bit drop) 11 noSrc noSrc noSrc)
  | .plane fmt d a => some { page := 6, var := fmt.code, op := 12, form := .S, d := d, a := a }
  | .unplane fmt d a => some { page := 6, var := fmt.code, op := 13, form := .S, d := d, a := a }
  | .mxstat op d a => some (encR 6 op.code 14 (dst d) (dst a) noSrc)
  | .rgdef q a b => some (encR 7 0 1 (dst q) a b)
  | .rgrsv d q b => some (encR 7 0 2 (dst d) (dst q) b)
  | .rgpub q a b => some (encR 7 0 3 (dst q) a b)
  | .rgcon d q b => some (encR 7 0 4 (dst d) (dst q) b)
  | .rgst op d q b => some (encR 7 op.code 5 (dst d) (dst q) b)
  | .cpy rnd sat d a b c =>
    some { encR 7 0 6 (dst d) a b with c := c, m := maskOf 0 false (rsNib rnd sat) 0 }
  | .cpys rnd sat d a b => some { encR 7 0 7 (dst d) a b with m := maskOf 0 false (rsNib rnd sat) 0 }
  | .cpst d a b => some (encR 7 0 8 (dst d) a b)
  | .fpush f a => some (encR 7 0 9 (dst f) a noSrc)
  | .fpop d f => some (encR 7 0 10 (dst d) (dst f) noSrc)
  | .ffree avail d f => some (encR 7 (bit avail) 11 (dst d) (dst f) noSrc)
  | .xput d a b => some (encR 7 0 12 (dst d) a b)
  | .xred ty d a b => some (encR 7 ty.code 13 (dst d) a b)
  | .xget d a b => some (encR 7 0 14 (dst d) a b)
  | .xfin ty d a b => some (encR 7 ty.code 15 (dst d) a b)
  | .msend a b => some (encR 7 0 16 noSrc a b)
  | .mrecv d => some (encR 7 0 17 (dst d) noSrc noSrc)
  | .mpoll d => some (encR 7 0 18 (dst d) noSrc noSrc)
  | .bardef n a => some (encR 8 0 1 (dst n) a noSrc)
  | .bar rel n a => some { encR 8 0 2 (dst n) a noSrc with m := maskOf 0 false (if rel then 6 else 4) 6 }
  | .barv d n => some (encR 8 0 3 (dst d) (dst n) noSrc)
  | .bararr rel d n b => some { encR 8 0 4 (dst d) (dst n) b with m := maskOf 0 false (if rel then 6 else 4) 6 }
  | .barw d n b => some (encR 8 0 5 (dst d) (dst n) b)
  | .barwT d n b c => some { encR 8 1 5 (dst d) (dst n) b with c := some c }
  | .bartx n a => some (encR 8 0 6 (dst n) a noSrc)
  | .barst pend d n => some (encR 8 (bit pend) 7 (dst d) (dst n) noSrc)
  | .evwait e => some (encR 8 0 8 (dst e) noSrc noSrc)
  | .evsig e => some (encR 8 0 9 (dst e) noSrc noSrc)
  | .evsigRmt a b => some (encR 8 1 9 noSrc a b)
  | .keyqOwn d idx => some { page := 8, op := 10, form := .I, d := dst d, imm := idx }
  | .keyqId d a => some { page := 8, var := 1, op := 10, form := .I, d := dst d, a := a }
  | .keyrel idx => some { page := 8, op := 11, form := .I, imm := idx }
  | .shadow d a => some (encR 8 0 12 (dst d) a noSrc)
  | .publishSwap a => some (encR 8 0 13 noSrc a noSrc)
  | .publishDrop a => some (encR 8 1 13 noSrc a noSrc)
  | .snapTake d a => some (encR 8 0 14 (dst d) a noSrc)
  | .snapDrop a => some (encR 8 1 14 noSrc a noSrc)
  | .tlbinvPage a => some (encR 8 0 15 noSrc a noSrc)
  | .tlbinvAll => some (encR 8 1 15 noSrc noSrc noSrc)
  | .hseek dir h a => some (encR 9 dir.code 1 (dst h) a noSrc)
  | .hrd d h => some (encR 9 0 2 (dst d) (dst h) noSrc)
  | .hwr h a => some (encR 9 0 3 (dst h) a noSrc)
  | .hrew h => some (encR 9 0 4 (dst h) noSrc noSrc)
  | .hpos d h => some (encR 9 0 5 (dst d) (dst h) noSrc)
  | .hstride h a => some (encR 9 0 6 (dst h) a noSrc)
  | .htake h => some (encR 9 0 7 (dst h) noSrc noSrc)
  | .hgive h => some (encR 9 0 8 (dst h) noSrc noSrc)
  | .hrealign h => some (encR 9 0 9 (dst h) noSrc noSrc)
  | .hmark h => some (encR 9 0 10 (dst h) noSrc noSrc)
  | .hburst h q b => some (encR 9 0 11 (dst h) (dst q) b)
  | .hfill h q b => some (encR 9 0 12 (dst h) (dst q) b)
  | .reservedOpcode page half =>
    some { page := page, op := half / 2048, d := dst (half / 256 % 8), a := ⟨half / 32 % 8, half / 2 % 2 == 1⟩
           b := ⟨half / 4 % 8, half % 2 == 1⟩ }
  | .queueEnable .. | .queueDisable .. | .queueResume .. | .queueResumeSkip .. | .tail .. | .launch ..
  | .copy .. | .signal .. | .waitCommand .. | .flush .. | .commandComplete .. | .waitTimeout ..
  | .queueDrained .. | .startTick .. | .switchOut .. | .ptickReached .. | .switchOutDone .. | .switchIn ..
  | .switchInDone .. | .stop .. | .haltTreeStop .. | .partitionResume .. | .partitionKill .. | .balcmd ..
  | .balancerPeriod .. | .clusterMapWrite .. | .trackMapWrite .. | .reindexDone .. | .recover .. | .bar0RegisterWrite ..
  | .hostBar2Access .. | .dispatchPick .. | .instanceStart .. | .edgeRelease .. | .spawnEnqueue .. | .ageplaceExpiry ..
  | .agekeyExpiry .. | .keyReleaseArrival .. | .contextPreempt .. | .contextResume .. | .trackdataLoad .. | .budgetExpiry ..
  | .drainRunLimit .. | .deferredTrap .. | .contextWaitEnd .. | .deadLetterPost .. | .messageDelivery .. | .msgwaitExpiry ..
  | .tlbWalkComplete .. | .accessComplete .. | .atomicAtHome .. | .copyLand .. | .firingStart .. | .gangedFiringStart ..
  | .firingComplete .. | .assayRecompute .. | .gangArrival .. | .drainStart .. | .drainHandlerRun .. | .drainRow ..
  | .matrixOpComplete .. | .chuteCredit .. | .barrierPhaseComplete .. | .remoteEventArrival .. | .barrierWaitTimeout .. | .timedWaitWake ..
  | .syncExchangeComplete .. | .powerHoldEnd .. | .columnRelease .. | .spanReleaseTick .. | .portTake .. | .seekComplete ..
  | .holdLapse .. | .headStreamWord .. | .gateRequestArrival .. | .clusterOff .. | .clusterWakeReady .. | .linkEnable ..
  | .linkDisable .. | .retrain .. | .signalSeen .. | .equalisationDone .. | .negotiate .. | .timeFlitExchange ..
  | .lanesLost .. | .linkLost .. | .flitReceive .. | .nak .. | .reduceMessage .. | .ack ..
  | .powerOn .. | .pcieTrainRetry .. | .uncorrectableError .. | .getVersion .. | .getCapabilities .. | .negotiateAlgorithms ..
  | .getDigests .. | .getCertificate .. | .challenge .. | .getMeasurements .. | .spdmUnsupportedRequest .. => none

/-- The halfwords of a well-formed instruction; the empty list for a step of another agent. -/
def encode (i : Instr) : List Nat :=
  match enc i with
  | some e => e.halves
  | none => []

/-- The instruction has an encoding: its fields are within their ranges, and its chain within the four prefixes that R110
allows. -/
def Instr.wellFormed (i : Instr) : Bool := i.wf && decide ((encode i).length ≤ 5)

end Sys2Proof
end

