-- ==== Sys2Proof/Machine/State.lean ====
section
/-! DEFINITION. The state of the part: contexts, cores, clusters, tracks, partitions, the package, memory. Plain data
throughout. INVENTORY.md lists each piece with the rule that names it and its reset value. -/
namespace Sys2Proof.Machine

/-- Why the machine stops with a fault. -/
inductive Fault where
  /-- Raised by `step` while the part is held in reset after a failed bring-up (R416), unless the agenda begins with a
  new power-on. Safe: the part does nothing then. -/
  | partInReset
deriving DecidableEq, Repr

/-- Why the machine refuses. -/
inductive Refusal where
  /-- Raised by an arm of `exec` for an instruction without a meaning. Safe: nothing follows from it. -/
  | notModelled (mnemonic : String)
deriving DecidableEq, Repr

/-! ## Contexts -/

/-- What a context waits for (R319). The waiting instruction is issued again when the wait ends. -/
inductive Wait where
  /-- `wait`, fences, and the waits of other instructions for classes: the greatest counts allowed (7: no limit). -/
  | classes (l s c m h : Nat)
  /-- Room in a class of R68: 0 load, 1 store, 2 copy, 3 matrix, 4 head. -/
  | room (cls : Nat)
  /-- A pending register (R56), or one whose atomic is still on its way: pool 0 scalar, 1 vector. -/
  | reg (pool n : Nat)
  /-- An earlier faulted access of the context (R326). -/
  | faults
  /-- A faulted fetch (R326). -/
  | fetch
  /-- A control-store slot in use (R146). -/
  | slot (n : Nat)
  /-- `sync` (R310-R314). -/
  | group
  /-- Phase `p` of cluster barrier `n` (R347), or a time. -/
  | barrier (n p : Nat) (until_ : Option Nat)
  /-- Room for one more early arrival at barrier `n` (R343). -/
  | early (n : Nat)
  /-- Event line `e` (R349). -/
  | event (e : Nat)
  /-- A message (R227). -/
  | msg
  /-- Room for a message: the core cycle at which `msend` gives up, and `s[a]` (R226). -/
  | msgRoom (until_ : Nat) (rcv : Word)
  /-- A chute: room to push (R220) or an entry to pop. -/
  | chute (push : Bool) (f : Nat)
  /-- A time (R350). -/
  | time (t : Nat)
  /-- The port of a head, or its seek (R374, R383). -/
  | head (h : Nat)
  /-- A binding or tile in use (R179, R186). -/
  | tile (a : Nat)
  /-- The end of a member: classes at 0 and dead-letter entries resolved (R336-R338). -/
  | ending
  /-- A drain row (R189). -/
  | row
  /-- A link that traffic of the instruction waits for, and the class in which the held access counts (R394). -/
  | link (l : Nat) (cls : Option Nat)
  /-- A result of an earlier instruction on its way, or a unit in use (R113, R320): the model leaves latencies open. -/
  | latency
deriving DecidableEq, Repr

/-- Who a context is (R58, R66, R278, R281). -/
structure Ident where
  serial : Nat
  core : Nat
  slot : Nat
  part : Nat
  /-- Task instance, rank in it, group size. -/
  inst : Nat
  rank : Nat
  gsize : Nat
  kseq : Nat
  x : Nat
  y : Nat
  z : Nat
deriving DecidableEq, Repr

/-- The register files of a context (R52-R56). A register is mapped where its table lists it. -/
structure Regs where
  s : Tab Word
  v : Tab VReg
  k : Tab KReg
  /-- Branch targets; b0-b3 read 0 where not listed. -/
  b : Tab Word
  /-- Pending registers with the faulted accesses they wait for (R56). -/
  sPend : Tab (List Nat)
  vPend : Tab (List Nat)
  /-- Registers whose atomic is on its way to its home (R425), with the operation's number. -/
  sFly : Tab Nat
  vFly : Tab Nat
  /-- Pending registers whose entry was killed, with the entry's index (R56). -/
  sPoison : Tab Nat
  vPoison : Tab Nat
  /-- Values the context has held, for undefined reads (R55): the model's own record. -/
  sHeld : List Word
  vHeld : List VReg
  kHeld : List KReg
  /-- Prepared targets: the b registers whose buffer holds their target (R125). -/
  prep : List Nat
deriving DecidableEq, Repr

/-- The control registers with a value of their own (R57). -/
structure Ctl where
  mode : Word
  fflags : Word
  cause : Word
  tpc : Word
  tinfo : Word
  tvec : Word
  budget : Word
  deadline : Word
  brole : Word
  srseed : Word
  hold : Word
deriving DecidableEq, Repr

/-- Outstanding operations by class (R68). -/
structure Counts where
  load : Nat
  store : Nat
  copy : Nat
  matrix : Nat
  head : Nat
deriving DecidableEq, Repr

/-- What the context's node declares (R278), and its register limits (R54, R188). -/
structure Decl where
  sregs : Nat
  vregs : Nat
  kregs : Nat
  /-- Accumulator tiles as a mask. -/
  acc : Nat
  /-- Physical banks, in the order of the context's own address space. -/
  banks : List Nat
  /-- Physical tracks of the logical heads. -/
  tracks : List Nat
deriving DecidableEq, Repr

/-- A position inside a microprogram (R142-R145). -/
structure Micro where
  slot : Nat
  upc : Nat
  p0 : Nat
  p1 : Nat
  p2 : Nat
  p3 : Nat
  /-- First halfword of the `mcall` as entered, and the halfword after it. -/
  call : Word
  ret : Word
deriving DecidableEq, Repr

/-- A head record (R71). -/
structure Head where
  pos : Nat
  stride : Int
  bwd : Bool
  mark : Nat
  err : Nat
  own : Bool
  pend : Nat
  pv : Bool
deriving DecidableEq, Repr

/-- A deferred trap (R195): its cause and `tinfo`. -/
structure Defer where
  code : Nat
  info : Word
  /-- The pc that `tpc` names, where the rule gives one (R327, a killed fetch). -/
  at_ : Option Word
deriving DecidableEq, Repr

/-- A line of the first-level cache (R232): its physical line, the bank that holds it, valid and written words, write
permission, and the words that a host write has left old (R250). -/
structure Line where
  line : Nat
  way : Nat
  valid : BitVec 16
  written : BitVec 16
  perm : Bool
  old : Tab Word
deriving DecidableEq, Repr

/-- A line of the constant cache (R235): its physical line, the bank that holds it, and its bytes. -/
structure ConstLine where
  line : Nat
  way : Nat
  bytes : List Byte
deriving DecidableEq, Repr

/-- The caches in a context's banks, most recently used first (R232, R235). -/
structure Caches where
  data : List Line
  const : List ConstLine
deriving DecidableEq, Repr

/-- An arrival that a `bar` has made: where the instruction stands, the barrier and the phase (R347). -/
structure Arrived where
  sup : Bool
  pc : Word
  upc : Option Nat
  n : Nat
  phase : Nat
deriving DecidableEq, Repr

/-- Where a context stands (R319, R320, R329). -/
structure Stand where
  /-- The slot holds a context. -/
  live : Bool
  /-- Switched out. -/
  out : Bool
  /-- Turns since reset at the last issue: the age of R320. -/
  last : Nat
  /-- `tsig` given (R291). -/
  sig : Bool
  /-- A killed entry awaits delivery (R56): the indices of such entries. -/
  killed : List Nat
  /-- Deferred traps, oldest first. -/
  defer : List Defer
  /-- Messages: the inbox and the receive queue, oldest first (R225). -/
  inbox : List (List Byte)
  queue : List (List Byte)
  /-- Slot of the oldest message of the inbox (R70). -/
  inboxh : Nat
  /-- The wait in which the context left its slot (R70): 0 none, 1 a barrier, 2 an event, 3 a message. -/
  waitk : Nat
  /-- Arrivals already made by a `bar` that an interruption has cut (R347). -/
  arrived : List Arrived
  /-- A `fence` of order `.rel` or `.sc` has been made: a later arrival is a release though it is written `.rlx` (R209). -/
  fenced : Bool
  /-- The member's arrival in the group phase (R312): 0 none, 1 by `sync`, 2 by `yield`, 3 by a `yield` whose phase has
  been released. -/
  inSync : Nat
  /-- The vote that the released phase returns to a `sync` (R311), and how its arrivals disagreed (R312). -/
  vote : Option (Word × Nat)
deriving DecidableEq, Repr

/-- The drain run of a drain slot (R188, R189). -/
structure Drain where
  /-- The context whose binding started the run. -/
  owner : Nat
  tile : Nat
  arg : Word
  row : Nat
  /-- ACCF of the binding. -/
  accf : Nat
  cycles : Nat
  /-- The row a `drput` has given (R189). -/
  put : Option VReg
  /-- The run has ended: by `drdone` (dropped or sent), or by a trap with its cause. -/
  done : Option Bool
  trapped : Option Nat
deriving DecidableEq, Repr

/-- Firings that one `mx` or `mxg` still asks for (R185, R192). -/
structure Req where
  left : Nat
  /-- `mxg`: members and barrier. -/
  gang : Option (Nat × Nat)
  /-- Status bytes of the members so far, by position (R193). -/
  status : Tab Nat
  started : Bool
  /-- The members from the first firing on: positions and contexts. -/
  members : List (Nat × Nat)
deriving DecidableEq, Repr

/-- An `mxg` whose firings have ended, while arrivals at its barrier are owed (R192): the leader, its tile, the barrier,
status bytes by position, and the members that have not arrived. -/
structure Gang where
  cid : Nat
  tile : Nat
  bar : Nat
  status : Tab Nat
  left : List (Nat × Nat)
deriving DecidableEq, Repr

/-- A binding (R178, R179). `st`: 0 IDLE, 1 FIRING, 2 DRAINING, 3 FAULTED. -/
structure Binding where
  word : Word
  handler : Word
  arg : Word
  selmode : Nat
  st : Nat
  reqs : List Req
  /-- Firings completed since the last drain. -/
  since : Nat
  /-- A ganged firing of this binding runs for the leader with this number (R192). -/
  gang : Option Nat
  /-- When the binding became ready to fire: earlier is less (R182). -/
  ready : Option Nat
deriving DecidableEq, Repr

/-- One context. -/
structure Ctx where
  id : Ident
  r : Regs
  c : Ctl
  acc : Tab Fa80
  heads : Tab Head
  pc : Word
  /-- The halfword after the base halfword of the instruction in issue (R118 `next`). -/
  npc : Word
  sup : Bool
  wait : Option Wait
  micro : Option Micro
  /-- The position kept across a trap taken inside a microprogram (R145). -/
  kept : Option Micro
  cnt : Counts
  decl : Decl
  l1 : Caches
  st : Stand
  drain : Option Drain
  /-- Bindings by tile, and the status of each tile (R196): LAST and ROWS. -/
  binds : Tab Binding
  tileLast : Tab Nat
  tileRows : Tab Nat
deriving DecidableEq, Repr

/-- An access as its instruction issued it (R245): the instruction, its context then, and for a store the mask bits of the
bytes or lanes that have landed. -/
structure Late where
  i : Instr
  cx : Ctx
  landed : List Nat
deriving DecidableEq, Repr

/-! ## Cores and clusters -/

/-- A ring (R211-R213). -/
structure Ring where
  defd : Bool
  engine : Nat
  base : Nat
  entryb : Nat
  log2n : Nat
  prod : Nat
  rsv : Nat
  cons : Nat
  /-- Published slots beyond PROD, by counter value. -/
  marks : List Nat
  /-- The defining context and its bank map (R212). -/
  owner : Nat
  banks : List Nat
deriving DecidableEq, Repr

/-- A control-store slot (R140, R141): its records, seven halfwords each, and the kernel that holds it. -/
structure Slot where
  valid : Bool
  recs : List (List Nat)
  holder : Option Nat
  /-- The contexts whose `mcw` or `mcinv` waits for the slot (R146). -/
  waiters : List Nat
deriving DecidableEq, Repr

/-- An operation of the copy engine (R216-R224), with its operands as issued. `kind`: 0 `cpy`, 1 `cpys`, 2 `cpst`,
3 `xput`, 4 `xget`, 5 `xred`, 6 `xfin`. -/
structure CopyOp where
  cid : Nat
  kind : Nat
  dst : Word
  src : Word
  len : Word
  ctrl : Word
  rows : Nat
  rowb : Nat
  sstr : Int
  dstr : Int
  ty : ETy
  rnd : Rnd
  sat : Bool
  pc : Word
  /-- Issued at supervisor level (R359). -/
  sup : Bool
  /-- Destination bytes that have landed early, by offset range (R246). -/
  landed : List (Nat × Nat)
  /-- Shadow windows open when the operation issued (R363), and ranges whose shadow was dropped since (R364). -/
  wins : List Nat
  lost : List (Nat × Nat)
  /-- The state that the generator had when a stochastic conversion began to land (R65, R246). -/
  gen : Option Word
  /-- All bytes are sent: the links whose acknowledgments the operation awaits, its flags, and the number of its bytes (R61,
  R402, R403). -/
  ack : Option (List Nat × Nat × Nat)
deriving DecidableEq, Repr

/-- A chute pair of a compute core (R220): `down` from it, `up` to it; free-slot counters and credits on the way. -/
structure Chute where
  down : List VReg
  up : List VReg
  freeDown : Nat
  freeUp : Nat
  owedDown : Nat
  owedUp : Nat
deriving DecidableEq, Repr

/-- A tile operation or plane conversion in flight (R186, R190). `kind`: 0 `mxzero`, 1 `mxld`, 2 `mxst`, 3 `plane`,
4 `unplane`, 5 `mxdrain.keep`, 6 `mxdrain.zero`. -/
structure MatOp where
  cid : Nat
  kind : Nat
  tile : Nat
  fmt : MFmt
  src : Word
  dst : Word
  selmode : Nat
  /-- The operation counts in its context's matrix class. -/
  counted : Bool
  /-- Source bytes, once the engine has read them, and destination bytes that have landed, by offset range (R246). -/
  read : Option (List Byte)
  landed : List (Nat × Nat)
deriving DecidableEq, Repr

/-- A firing on a core's array (R182, R194): the operands it has latched, and how it stands. -/
structure Firing where
  cid : Nat
  tile : Nat
  a : List Byte
  b : List Byte
  /-- The leader of the gang, where there is one. -/
  leader : Option Nat
  /-- The first verdict was a mismatch: the recomputation runs. -/
  again : Bool
  /-- The ring entries have been read, and are their producers' again. -/
  read : Bool
deriving DecidableEq, Repr

/-- A drain in progress (R187). -/
structure MDrain where
  cid : Nat
  tile : Nat
  keep : Bool
  row : Nat
  /-- The row to leave, converted, once its handler has sent it. -/
  out : Option (List Byte)
  /-- Flags of the rows so far, set when the drain completes (R61). -/
  flags : Nat
deriving DecidableEq, Repr

/-- A head stream (R388). -/
structure Stream where
  cid : Nat
  head : Nat
  fill : Bool
  q : Nat
  left : Nat
  herr : Nat
  /-- The stream holds the port. -/
  running : Bool
deriving DecidableEq, Repr

/-- A track of a core: map entry (R370), port (R373), assignment (R372) and the cells beside its words (R369). -/
structure Track where
  v : Bool
  common : Bool
  suspect : Bool
  ridx : Bool
  hidx : Nat
  part : Nat
  ppos : Nat
  /-- How far the word under the port lies from the one the port believes in. -/
  off : Int
  owner : Option Nat
  holder : Option Nat
  hleft : Nat
  slip : Int
  /-- How far the next realignment of the port goes wrong (R379). -/
  stick : Int
  /-- Core cycle of the last transfer under the hold (R375). -/
  since : Nat
  /-- Requests for the port, oldest first (R374): the context, and the pc of the instruction that asked. -/
  queue : List (Nat × Word)
  /-- The instance and member rank a private track is assigned to. -/
  inst : Option (Nat × Nat)
  /-- Postmarks that differ from their position modulo 16, and uncorrectable words. -/
  marks : Tab Nat
  bad : List Nat
deriving DecidableEq, Repr

/-- A bank that `retire` keeps for a successor (R230, R337). -/
structure Kept where
  bank : Nat
  role : Nat
  part : Nat
  kseq : Nat
  /-- The successor node, and the coordinates it keeps the bank for. -/
  node : Nat
  x : Nat
  y : Nat
  z : Nat
  rank : Nat
deriving DecidableEq, Repr

/-- A core. -/
structure Core where
  /-- `rdcyc` (R137). -/
  cyc : Nat
  /-- Cycles that the last issue still has to be charged. -/
  owed : Nat
  /-- The age of each context slot (R320): State.turn at the last issue of a context that has left it. -/
  ages : Tab Nat
  rings : Tab Ring
  store : Tab Slot
  copies : List CopyOp
  kept : List Kept
  /-- Tracks kept with them. -/
  keptTracks : List Kept
  chute : Chute
  mops : List MatOp
  gangs : List Gang
  firing : Option Firing
  drains : List MDrain
  streams : List Stream
  tracks : Tab Track
  /-- Corrected-assay count (R196). -/
  assay : Word
  /-- Packets sent and received (R333). -/
  sent : Nat
  recv : Nat
deriving DecidableEq, Repr

/-- A page's translation (R353): frame, page size in 64 KiB units (1 or 512), and attributes. -/
structure Pte where
  frame : Nat
  units : Nat
  w : Bool
  x : Bool
  const : Bool
  cmp : Bool
deriving DecidableEq, Repr

/-- A walk in progress (R356): the cluster that asked, partition, page number, and what the walk answers: a translation,
or the cause of its failure. -/
structure Walk where
  cl : Nat
  part : Nat
  vp : Nat
  pte : Option Pte
  cause : Nat
deriving DecidableEq, Repr

/-- An L2 or L1 entry in a die's walk cache (R356): partition, level (1 or 2), the address bits that index it from the
root on, and the entry. -/
structure WalkEntry where
  part : Nat
  level : Nat
  idx : Nat
  entry : Nat
deriving DecidableEq, Repr

/-- A cluster barrier (R340). -/
structure Barrier where
  defd : Bool
  cnt : Nat
  op : Nat
  ph : Nat
  arr : Nat
  acc : Nat
  early : Nat
  eacc : Nat
  pend : Nat
  result : Nat
  grp : Option Nat
  broken : Bool
deriving DecidableEq, Repr

/-- A cluster (R9, R349, R355, R410). -/
structure Cluster where
  lines : BitVec 32
  bars : Tab Barrier
  /-- 0 ON, 1 GATING, 2 OFF, 3 WAKING (R410). -/
  gate : Nat
  disc : Nat
  /-- Translations by partition and first 64 KiB page number: at most 512 (R355). -/
  tlb : List (Nat × Nat × Pte)
deriving DecidableEq, Repr

/-! ## Partitions -/

/-- A window (R361): a shadow or a snapshot. -/
structure Window where
  snap : Bool
  base : Nat
  spare : Nat
  npages : Nat
  /-- Pinned frames of the range and of the spare range, one per 64 KiB, in order. -/
  frames : List Pte
  spares : List Pte
  /-- Bytes of the range, by offset, that an engine wrote into the shadow copy. -/
  marked : List Nat
deriving DecidableEq, Repr

/-- An atomic on its way to its home (R208, R425). `op`: 0-9 `amo` (R205), 10 `cas`, 11 `aggadd`. -/
structure Atom where
  cid : Nat
  op : Nat
  wide : Nat
  ea : Word
  key : Nat
  b : Word
  c : Word
  vb : VReg
  k : KReg
  zero : Bool
  /-- Aggregate adds: the destination's previous bits (R149). -/
  old : VReg
  d : Nat
  /-- Performed at the second-level cache, ordered with the host (R208). -/
  sys : Bool
deriving DecidableEq, Repr

/-- A faulted access (R324-R327), posted or on its way to the ring. -/
structure Bad where
  cid : Nat
  part : Nat
  ctxid : Word
  pc : Word
  addr : Word
  opk : Nat
  cause : Nat
  dkind : Nat
  dreg : Nat
  width : Nat
  lmask : Nat
  data : List Byte
  aux : Nat
  /-- The operation is counted in its class until its entries are posted (R68). -/
  counted : Bool
  /-- The number of the first entry of the access, where it posts several. -/
  access : Option Nat
  /-- The access is an exchange operation (R309). -/
  exch : Bool
  /-- The flags of the bytes that a faulted copy has converted (R61). -/
  flags : Nat
  /-- The held atomic of an atomic's entry (R327). -/
  atom : Option Atom
  /-- The value of the post counter, once posted. -/
  posted : Option Nat
deriving DecidableEq, Repr

/-- A partition's registers of the page block, the control block and the dead-letter ring (R67, R331, R357). -/
structure Part where
  rrbase : Word
  posts : Nat
  resolved : Nat
  /-- STOPPING by a halt-tree stop that is still to be carried out: reason, second cause, core (R322, R333). -/
  stopReq : Option (Nat × Nat × Nat)
  root : Nat
  walks : Nat
  merged : Nat
  psnblk : Nat
  windows : Tab Window
  pstate : Nat
  reason : Nat
  ptick : Nat
  stoprec : Nat
  dlnotify : Nat
  msgwait : Nat
  movbase : Nat
  movslots : Nat
  /-- Messages in the overflow region, oldest first: receiver and message (R225). -/
  moved : List (Nat × List Byte)
  role : Tab Nat
  /-- From the start of a switch-out to the end of the switch-in: DONE of its queues as saved (R276). -/
  swapDone : Option (Tab Nat)
  /-- The partition to switch in after a switch-out (R331). -/
  nextIn : Option Nat
  /-- Was a context of the partition out before the switch or stop? Those stay out at its end. -/
  parked : List Nat
  /-- What a switch-out or stop has saved (R332): cores (tracks apart), clusters, and the bytes of the banks. -/
  savedCores : Tab Core
  savedClusters : Tab Cluster
  savedMem : Memory
  /-- Words of those banks that are uncorrectable (R414). -/
  savedEcc : List Nat
  -- balancer block (R288) and key block (R302)
  tbal : Nat
  ageplace : Nat
  agekey : Nat
  rsvcnt : Nat
  kskip : Nat
  kwtrap : Nat
  /-- The instances that AGEPLACE serves before any later one (R285). -/
  placing : List Nat
  /-- The first instance of the order while it waits for its keys, or for a placement, with the cycles it has waited (R285,
  R301). -/
  keyTimer : Option (Nat × Nat)
  placeTimer : Option (Nat × Nat)
  /-- Cycles since the dispatcher's last pick, at most 4 (R432). -/
  idle : Nat
  -- sync controller block (R315)
  holdmax : Nat
  spann : Nat
  spanrank : Nat
  ptab : Tab Nat
  spannodes : Nat
  tnodes : Nat
  phases : Nat
  heldcyc : Nat
  serial : Nat
deriving DecidableEq, Repr

/-! ## Kernels, instances, keys (R277-R308) -/

/-- A key of a node (R278). -/
structure KeySpec where
  base : Nat
  xstr : Int
  ystr : Int
  shared : Bool
deriving DecidableEq, Repr

/-- A track-data entry (R278): track, position, words, and the global address of the words. -/
structure TrackLoad where
  track : Nat
  pos : Nat
  count : Nat
  addr : Nat
deriving DecidableEq, Repr

/-- A node of a kernel, or a copy that `spawn` made (R278, R290). -/
structure Node where
  entry : Nat
  nx : Nat
  ny : Nat
  nz : Nat
  gang : Nat
  deadline : Nat
  budget : Nat
  sregs : Nat
  vregs : Nat
  acc : Nat
  banku : Nat
  tracks : Nat
  retained : Bool
  place : Nat
  broles : Nat
  loads : List TrackLoad
  keys : List KeySpec
  /-- Predecessors: is the edge SAME, and the node. -/
  preds : List (Bool × Nat)
  param : Nat
  /-- Absolute `T0` of R281. -/
  t0 : Nat
  /-- The declared node it is, or is a copy of. -/
  src : Nat
  /-- A copy: the instance it waits for, if any, and whether it has reached the ready pool. -/
  copy : Bool
  after : Option Nat
  enqueued : Bool
deriving DecidableEq, Repr

/-- A kernel (R293). `st`: 0 CHECKING, 1 WAITSTART, 2 RUNNING, 3 FAULTING, 4 DONE, 5 FAULTED, 6 REJECTED. -/
structure Kernel where
  part : Nat
  queue : Nat
  cmd : Nat
  st : Nat
  reason : Nat
  t0 : Nat
  compl : Nat
  start : Nat
  late : Bool
  spawnfull : Bool
  nnodes : Nat
  nodes : Tab Node
  micro : List (List (List Nat))
  /-- Its `mcall`s: the address of the first halfword of each, and the image it calls (R140). -/
  relocs : List (Nat × Nat)
  spawned : Nat
  retired : Nat
  killed : Nat
  never : Nat
  spann : Nat
  spanrank : Nat
  spannodes : Nat
  tnodes : Nat
deriving DecidableEq, Repr

/-- How a member has arrived in a phase (R311, R312). -/
inductive Arrival where
  | sync (op : VoteOp) (v : Nat)
  | yield
deriving DecidableEq, Repr

/-- A task instance (R280, R283) with its group barrier (R313). `st`: 0 WAITING, 1 READY, 2 QUEUED, 3 RUNNING,
4 COMPLETE, 5 KILLED. `gst`: 0 OPEN, 1 GATHERING, 2 DRAINING, 3 HOLDING, 4 RELEASING. -/
structure Inst where
  kernel : Nat
  node : Nat
  x : Nat
  y : Nat
  z : Nat
  st : Nat
  /-- Complete for its edges (R282), and whether its successors have been released. -/
  edge : Bool
  /-- Ranks that have signalled (R291) or ended, and those that have ended. -/
  signalled : List Nat
  ended : List Nat
  deadline : Word
  /-- Cores reserved or used, by rank; and the contexts of a saved slice, by rank. -/
  cores : List Nat
  cids : List Nat
  /-- A slice of the instance has begun: it is a continuation (R283). -/
  begun : Bool
  /-- Indices of keys held (R300); keys have been acquired. -/
  held : List Nat
  reserved : Bool
  /-- Physical banks and tracks by rank, while reserved or used. -/
  banks : List (List Nat)
  tracks : List (List Nat)
  loaded : Bool
  -- the group barrier
  gst : Nat
  phase : Nat
  arrivals : List (Nat × Arrival)
  /-- Columns released in the phase that is being released. -/
  released : List Nat
  /-- The vote, and the disagreement (R312) of that phase. -/
  result : Word
  mixed : Nat
  /-- HOLDMAX and PTAB as they stood when the phase's release was reached (R315). -/
  holdmax : Nat
  ptab : Tab Nat
deriving DecidableEq, Repr

/-- A slot of a key table (R297): holders and the owner of a reservation, by instance. -/
structure KeySlot where
  shared : List Nat
  excl : Option Nat
  owner : Option Nat
deriving DecidableEq, Repr

/-! ## Packets in flight -/

/-- A message on its way (R225). -/
structure Msg where
  part : Nat
  src : Nat
  srcCore : Nat
  dst : Nat
  ctxid : Word
  pc : Word
  rcv : Word
  bytes : List Byte
deriving DecidableEq, Repr

/-- An event message on its way (R349). -/
structure Event where
  part : Nat
  src : Nat
  srcCore : Nat
  cl : Nat
  barrier : Bool
  num : Nat
  payload : Nat
  ctxid : Word
  pc : Word
  target : Word
deriving DecidableEq, Repr

/-- A gate, query or wake request on its way (R420). `kind`: 0 `pgate.req`, 1 `pgate.q`, 2 a `pwake` whose context waits,
3 such a `pwake` that is answered, 4 a `pwake` whose context goes on. -/
structure GateReq where
  part : Nat
  cid : Nat
  cl : Nat
  kind : Nat
  d : Nat
  /-- `pwake`: the status sampled on arrival. -/
  sampled : Option Word
deriving DecidableEq, Repr

/-! ## Queues and handles (R251, R269-R276) -/

/-- A command that has started and not completed (R271). -/
structure Cmd where
  op : Nat
  intr : Bool
  handles : List (Nat × Nat × Nat)
  /-- COPY, SIGNAL, WAIT: operands; WAIT: the time at which it times out. -/
  sub : Nat
  x : Nat
  y : Nat
  z : Nat
  done : Bool
deriving DecidableEq, Repr

/-- A command queue (R269, R270). `st` is QSTATUS.STATE. -/
structure Queue where
  qbase : Nat
  part : Nat
  vec : Nat
  log2 : Nat
  tail : Nat
  fetch : Nat
  done : Nat
  st : Nat
  errIdx : Nat
  errCode : Nat
  shadow : Option Nat
  /-- Commands fetched and not started, in order: index and bytes (R271). -/
  slots : List (Nat × List Byte)
  /-- Commands started and not yet counted, by index. -/
  cmds : Tab Cmd
  /-- SWITCHED_OUT: an error of R274 has come up; the queue enters ERROR at the switch-in. -/
  swapped : Bool
deriving DecidableEq, Repr

/-- A buffer handle (R251): range, last writer and whether it was a host-side transfer, readers; `host`: the host has
written the range through BAR2 since its last writer. -/
structure Handle where
  base : Nat
  len : Nat
  writer : Option (Nat × Nat × Bool)
  host : Bool
  readers : List (Nat × Nat)
deriving DecidableEq, Repr

/-! ## Links (R392-R404) -/

/-- A reduce message (R402): destination and EX320 value, the links that wait for its acknowledgment. -/
structure Reduce where
  dst : Nat
  value : List Byte
  /-- Own operations (contexts) or links whose messages were absorbed. -/
  froms : List (Option Nat)
deriving DecidableEq, Repr

/-- A link. `st` is LSTATE.STATE. -/
structure Link where
  st : Nat
  failcode : Nat
  lanes : Nat
  peerport : Nat
  latns : Nat
  peerid : Nat
  /-- The lowest identity that the peer, or a device beyond it, has (R401). -/
  beyond : Nat
  /-- The rate of the PCIe link in GT/s (R405). -/
  rate : Nat
  corr : Nat
  uncorr : Nat
  replay : Nat
  /-- Next sequence to send, next expected, last acknowledged by the peer. -/
  txseq : Nat
  rxseq : Nat
  acked : Nat
  naks : Nat
  /-- Sender's credits and credits to return, by virtual lane. -/
  credits : Tab Nat
  owed : Tab Nat
  /-- Flits sent and not acknowledged, oldest first. -/
  sent : List (List Nat)
  /-- Payloads received and passed on: virtual lane and flit. -/
  received : List (List Nat)
  /-- Flits that wait to be sent, oldest first: virtual lane, type and payload (R398, R400). -/
  queue : List (Nat × Nat × List Nat)
  exchanges : Nat
  settled : Nat
  reduces : List Reduce
  /-- Reduce messages sent and not acknowledged. -/
  unacked : List Reduce
deriving DecidableEq, Repr

/-! ## Power, reliability, bring-up, attestation (R408, R415-R418) -/

structure Power where
  pmw : Nat
  plimit : Nat
  gateen : Nat
  bicred : Nat
  zecred : Nat
deriving DecidableEq, Repr

structure Ras where
  bootstage : Nat
  booterr : Nat
  fwver : Nat
  cecnt : Nat
  uecnt : Nat
  assayu : Nat
  /-- The part is held in reset (R416), or in recovery mode (R417). -/
  held : Bool
  recovery : Bool
  /-- Bytes staged in recovery mode. -/
  staged : Memory
deriving DecidableEq, Repr

/-- A response over DOE (R418): the request's code and the response's fields. -/
structure Reply where
  code : Nat
  data : List Nat
deriving DecidableEq, Repr

/-- What moves next, where the agenda says so. -/
inductive Agent where
  /-- The context with this number issues (R320). -/
  | issue (cid : Nat)
  /-- An operand or the unit of a context's next instruction is not there yet (R320). -/
  | notReady (cid : Nat)
  /-- The same, and a store of that instruction does not land yet, or the elements of a vector load are read apart (R245). -/
  | issueLate (cid : Nat)
  /-- The oldest atomics of these contexts reach their homes in the same cycle (R425). -/
  | sameCycle (cids : List Nat)
  /-- The oldest store of a context that has not landed lands; or one piece of it (R244, R245). -/
  | land (cid : Nat)
  | landPiece (cid n : Nat)
  /-- Pieces of a context's vector load are read (R245): a mask. -/
  | reload (cid m : Nat)
  /-- A first-level cache writes a line back, and may drop it (R233); the second-level cache gives up a block (R242). -/
  | evictLine (cid line : Nat) (drop : Bool)
  | evictBlock (blk : Nat)
  /-- The copy engine of a core moves destination bytes before its operation ends (R246). -/
  | beat (core off n : Nat)
  /-- A track slips: the word under the port moves by `n` against the port's belief (R378). -/
  | slip (core t : Nat) (n : Int)
  /-- The next realignment of a track will miss by `n` positions (R379). -/
  | stick (core t : Nat) (n : Int)
  /-- An event of another agent: a row of the opcode table without an encoding. -/
  | event (i : Instr)
  /-- Time passes: nanoseconds. -/
  | pass (ns : Nat)
  /-- The array of a core has read the ring entries of its firing (R182). -/
  | firingRead (core : Nat)
  /-- The matrix engine of a core moves destination bytes before its operation ends (R186, R246). -/
  | mopBeat (core off n : Nat)
  /-- FEC codewords that a link has corrected (R393). -/
  | corrected (l n : Nat)
  /-- Firmware gives a partition that has none its dead-letter ring (R67): `rrbase`. -/
  | ring (part : Nat) (v : Word)
  /-- A link sends a flit that waits, or of its reduce queue (R398, R402). -/
  | send (l : Nat)
  /-- Traffic asks a link for a flit: virtual lane, type and payload (R397). -/
  | flit (l vl ty : Nat) (pay : List Nat)
  /-- A link sends an idle or ack flit, which returns credits (R397, R398). -/
  | idle (l : Nat)
  /-- An exchange write, or read, of another device arrives over a port (R400): physical address and bytes, or their number. -/
  | peerWrite (l addr : Nat) (bytes : List Nat)
  | peerRead (l addr n : Nat)
  /-- A device of a lower identity is reached over a port (R401). -/
  | beyond (l id : Nat)
  /-- The rate, in GT/s, at which the PCIe link trains (R403, R405). -/
  | pcieRate (r : Nat)
  /-- A correctable PCIe error of a function (R405); a soft error that a code has corrected (R414). -/
  | aerCorrectable (fn : Nat)
  | eccCorrected
  /-- The command processor fetches the next slot of a queue ahead of its start (R271). -/
  | fetchSlot (q : Nat)
  /-- The host gives BAR2 of a function its bus address (R405). -/
  | assignBar2 (fn base : Nat)
  /-- A function reads a register of BAR0: offset and width (R269). -/
  | bar0Read (fn addr size : Nat)
  /-- The host's driver hands the loader the relocations of the object at an address (R140). -/
  | relocations (kobj : Nat) (l : List (Nat × Nat))
deriving DecidableEq, Repr

/-- The state of the part. -/
structure State where
  /-- The context in hand, and all others by number. -/
  cx : Ctx
  others : Tab Ctx
  cores : Tab Core
  clusters : Tab Cluster
  parts : Tab Part
  /-- The cluster map (R23) as bytes. -/
  cmap : Tab Nat
  mem : Memory
  /-- Poisoned 4 KiB blocks (R359). -/
  poison : List Nat
  /-- 8-byte words of second-level cache and banks that are uncorrectable (R414), by word number. -/
  ecc : List Nat
  walking : List Walk
  /-- The walk cache of each stack's floor die (R356), most recently used first. -/
  walkCache : Tab (List WalkEntry)
  /-- The model's own field: the translations that walks have found, by partition and first page, of pages not seen unmapped
  since (R355; notes/assumptions/30.md). -/
  forms : List (Nat × Nat × Pte)
  /-- Blocks of compressed pages that the second-level cache holds expanded (R242), by block number: the memory shows
  their plain bytes. Of every other block it shows the bytes as they are stored. -/
  expanded : List Nat
  /-- 8-byte words of DRAM written in a first-level cache and not yet written back (R233), by word number: the value
  the home still holds, which the host sees (R250). -/
  home : Tab Word
  /-- The variant: 0 DK-7, 1 DK-7L, 2 DK-7H (R24). -/
  variant : Nat
  bads : Tab Bad
  nextBad : Nat
  atoms : Tab Atom
  /-- Stores that have issued and have no place in the single order yet, by context, oldest first (R244, R249). -/
  late : Tab (List Late)
  /-- The last vector load of a context, while its elements may be read at different times (R245). -/
  opened : Tab Late
  kernels : Tab Kernel
  nextKernel : Nat
  /-- Relocations of kernel objects, by the object's address (R140): byte offset in the code image, and image. -/
  relocs : Tab (List (Nat × Nat))
  insts : Tab Inst
  nextInst : Nat
  /-- Key tables by floor die and slot (R296), and releases on their way: instance and key-table slot (R306). -/
  keytab : Tab KeySlot
  krels : Tab (Nat × Nat)
  /-- Instances in each cluster's dispatch queue (R287). -/
  cdq : Tab (List Nat)
  msgs : Tab Msg
  events : Tab Event
  gates : Tab GateReq
  nextPkt : Nat
  queues : Tab Queue
  handles : List Handle
  /-- Ranges written through BAR2 that no handle names (R251). -/
  hostWrites : List (Nat × Nat)
  /-- Commands that found no room in the handle table: queue and index (R252). -/
  spilled : List (Nat × Nat)
  /-- Bus addresses that the host has given BAR2 of each function (R405). -/
  bar2 : Tab Nat
  /-- MSI-X messages sent: function and vector; Unsupported Requests recorded by function (R271, R405, R435). -/
  msix : List (Nat × Nat)
  aer : List Nat
  /-- Correctable errors recorded, by function (R405). -/
  aerCor : List Nat
  /-- Answers to host reads. -/
  hostReads : List (Option (List Byte))
  links : Tab Link
  routes : Tab Nat
  /-- WINBASE by function (R405). -/
  winbase : Tab Nat
  power : Power
  ras : Ras
  replies : List Reply
  /-- Address of the instance's end sequence (R51). -/
  endSeq : Word
  /-- Nanoseconds of the time base (R137), and whether a program has read them (R401). -/
  time : Nat
  timeRead : Bool
  /-- The counter of free values, and of turns: the model's own. -/
  free : Nat
  turn : Nat
  agenda : List Agent
deriving DecidableEq, Repr

/-! ## Reset -/

/-- A context as it enters (R51, R52, R57, R65, R71), before its instance gives it an identity and registers; `tvec` is
the firmware's and reads 0 here (DESIGN CHOICE, notes/assumptions/3.md). -/
def Ctx.blank : Ctx :=
  { id := { serial := 0, core := 0x200, slot := 0, part := 0, inst := 0, rank := 0, gsize := 1, kseq := 0, x := 0,
            y := 0, z := 0 }
    r := { s := [], v := [], k := [], b := [], sPend := [], vPend := [], sFly := [], vFly := [], sPoison := [],
           vPoison := [], sHeld := [], vHeld := [], kHeld := [], prep := [] }
    c := { mode := 0, fflags := 0, cause := 0, tpc := 0, tinfo := 0, tvec := 0, budget := 0xFFFFFFFF,
           deadline := 0xFFFFFFFFFFFFFFFF, brole := 0, srseed := 1, hold := 64 }
    acc := []
    heads := []
    pc := 0
    npc := 0
    sup := false
    wait := none
    micro := none
    kept := none
    cnt := { load := 0, store := 0, copy := 0, matrix := 0, head := 0 }
    decl := { sregs := 64, vregs := 64, kregs := 7, acc := 0, banks := [], tracks := [] }
    l1 := { data := [], const := [] }
    st := { live := false, out := false, last := 0, sig := false, killed := [], defer := [], inbox := [], queue := [],
            inboxh := 0, waitk := 0, arrived := [], fenced := false, inSync := 0, vote := none }
    drain := none
    binds := []
    tileLast := []
    tileRows := [] }

/-- The part right after reset: every register at the value the spec gives, or the one INVENTORY.md names with its log
entry; memory lists nothing; no context holds a slot. -/
def State.reset : State :=
  { cx := Ctx.blank
    others := []
    cores := []
    clusters := []
    parts := []
    cmap := []
    mem := []
    poison := []
    ecc := []
    walking := []
    walkCache := []
    forms := []
    expanded := []
    home := []
    variant := 0
    bads := []
    nextBad := 0
    atoms := []
    late := []
    opened := []
    kernels := []
    nextKernel := 1
    relocs := []
    insts := []
    nextInst := 1
    keytab := []
    krels := []
    cdq := []
    msgs := []
    events := []
    gates := []
    nextPkt := 0
    queues := []
    handles := []
    hostWrites := []
    spilled := []
    bar2 := []
    msix := []
    aer := []
    aerCor := []
    hostReads := []
    links := []
    routes := []
    winbase := []
    power := { pmw := 0, plimit := 3000, gateen := 0xFFFF, bicred := 0, zecred := 0 }
    ras := { bootstage := 0, booterr := 0, fwver := 0, cecnt := 0, uecnt := 0, assayu := 0, held := false,
             recovery := false, staged := [] }
    replies := []
    endSeq := 0x1FFFFFFFFFFFFFE
    time := 0
    timeRead := false
    free := 0
    turn := 0
    agenda := [] }

end Sys2Proof.Machine
end

