-- ==== Sys2Proof/Machine/Ops.lean ====
section
/-! DEFINITION. Operations every meaning is written with: the part's geometry, the monad of a meaning, registers with
their last-use frees and limits, flags, the program counter, and the taking of a trap. -/
namespace Sys2Proof.Machine

/-! ## Records at their defaults -/

def Chute.fresh : Chute := { down := [], up := [], freeDown := 16, freeUp := 16, owedDown := 0, owedUp := 0 }
def Core.fresh : Core :=
  { cyc := 0, owed := 0, ages := [], rings := [], store := [], copies := [], kept := [], keptTracks := [], chute := Chute.fresh,
    mops := [], gangs := [], firing := none, drains := [], streams := [], tracks := [], assay := 0, sent := 0, recv := 0 }
def Track.fresh : Track :=
  { v := false, common := false, suspect := false, ridx := false, hidx := 0, part := 0, ppos := 0, off := 0,
    owner := none, holder := none, hleft := 0, slip := 0, stick := 0, since := 0, queue := [], inst := none, marks := [], bad := [] }
def Ring.undef : Ring :=
  { defd := false, engine := 0, base := 0, entryb := 0, log2n := 0, prod := 0, rsv := 0, cons := 0, marks := [],
    owner := 0, banks := [] }
def Slot.empty : Slot := { valid := false, recs := [], holder := none, waiters := [] }
def Cluster.fresh : Cluster := { lines := 0, bars := [], gate := 0, disc := 0, tlb := [] }
def Barrier.undef : Barrier :=
  { defd := false, cnt := 0, op := 0, ph := 0, arr := 0, acc := 0xFFFFFFFF, early := 0, eacc := 0xFFFFFFFF, pend := 0, result := 0,
    grp := none, broken := false }
def Part.fresh : Part :=
  { rrbase := 0, posts := 0, resolved := 0, stopReq := none, root := 0, walks := 0, merged := 0, psnblk := 0,
    windows := [], pstate := 0, reason := 0, ptick := 0, stoprec := 0, dlnotify := 0, msgwait := 2 ^ 20, movbase := 0,
    movslots := 0, moved := [], role := [], swapDone := none, nextIn := none, parked := [], savedCores := [], savedClusters := [], savedMem := [], savedEcc := [], tbal := 4096, ageplace := 65536,
    agekey := 16384, rsvcnt := 0, kskip := 0, kwtrap := 0, placing := [], keyTimer := none, placeTimer := none, idle := 4, holdmax := 0, spann := 1, spanrank := 0,
    ptab := [], spannodes := 0, tnodes := 0, phases := 0, heldcyc := 0, serial := 0 }
def KeySlot.free : KeySlot := { shared := [], excl := none, owner := none }
def Queue.fresh : Queue :=
  { qbase := 0, part := 0, vec := 0, log2 := 4, tail := 0, fetch := 0, done := 0, st := 0, errIdx := 0, errCode := 0,
    shadow := none, slots := [], cmds := [], swapped := false }
def Link.fresh : Link :=
  { st := 0, failcode := 0, lanes := 0, peerport := 0, latns := 0, peerid := 0, beyond := 0, rate := 128, corr := 0, uncorr := 0, replay := 0,
    txseq := 0, rxseq := 0, acked := 0, naks := 0, credits := [], owed := [], sent := [], received := [], queue := [],
    exchanges := 0, settled := 0, reduces := [], unacked := [] }
def Head.fresh : Head :=
  { pos := 0, stride := 1, bwd := false, mark := 0, err := 0, own := false, pend := 0, pv := false }

namespace State

def core (s : State) (n : Nat) : Core := s.cores.getD n Core.fresh
def setCore (s : State) (n : Nat) (c : Core) : State := { s with cores := s.cores.set n c }
def modCore (s : State) (n : Nat) (f : Core → Core) : State := s.setCore n (f (s.core n))
def cluster (s : State) (n : Nat) : Cluster := s.clusters.getD n Cluster.fresh
def modCluster (s : State) (n : Nat) (f : Cluster → Cluster) : State :=
  { s with clusters := s.clusters.set n (f (s.cluster n)) }
def part (s : State) (n : Nat) : Part := s.parts.getD n Part.fresh
def modPart (s : State) (n : Nat) (f : Part → Part) : State := { s with parts := s.parts.set n (f (s.part n)) }

end State

def Core.ring (c : Core) (q : Nat) : Ring := c.rings.getD q Ring.undef
def Core.slot (c : Core) (n : Nat) : Slot := c.store.getD n Slot.empty
def Ctx.head (c : Ctx) (h : Nat) : Head := c.heads.getD h Head.fresh

/-! ## Geometry (R6-R14, R22-R24) -/

def stackPresent (variant st : Nat) : Bool := if variant = 2 then st < 2 else st < 4
def coreStack (c : Nat) : Nat := c / 1024 % 4
def coreRow (c : Nat) : Nat := c / 16 % 32
def coreCol (c : Nat) : Nat := c % 16
/-- A compute core's identifier (DIE 1, R13). -/
def onDeck (c : Nat) : Bool := c / 512 % 2 = 1
/-- Does the identifier name a core of the variant (R14)? -/
def coreExists (variant c : Nat) : Bool :=
  c < 4096 && stackPresent variant (coreStack c) &&
    (if onDeck c then coreRow c < 24 else coreRow c < 12 && coreCol c < 8)
/-- The cluster of a core, numbered as the cluster map numbers it (R23). -/
def clusterOf (c : Nat) : Nat :=
  96 * coreStack c + (if onDeck c then 8 * (coreRow c / 2) + coreCol c / 2 else 8 * coreRow c + coreCol c)
/-- The memory core beneath a cluster (R14). -/
def memoryCore (cl : Nat) : Nat := 1024 * (cl / 96) + 16 * (cl % 96 / 8) + cl % 8
/-- The compute core at position 2 × (row mod 2) + (col mod 2) of a cluster (R12). -/
def computeCore (cl pos : Nat) : Nat :=
  1024 * (cl / 96) + 512 + 16 * (2 * (cl % 96 / 8) + pos / 2) + 2 * (cl % 8) + pos % 2
/-- A compute core's position in its cluster (R12). -/
def corePos (c : Nat) : Nat := 2 * (coreRow c % 2) + coreCol c % 2
/-- The five cores of a cluster. -/
def clusterCores (cl : Nat) : List Nat := [computeCore cl 0, computeCore cl 1, computeCore cl 2, computeCore cl 3, memoryCore cl]
/-- Mesh hops between two clusters of one stack (R237). -/
def hops (c1 c2 : Nat) : Nat :=
  let d (a b : Nat) := (a - b) + (b - a)
  d (c1 % 96 / 8) (c2 % 96 / 8) + d (c1 % 8) (c2 % 8)
/-- The number of clusters. -/
def clusterCount (variant : Nat) : Nat := if variant = 2 then 192 else 384
/-- DRAM bytes (R236). -/
def dramBytes (variant : Nat) : Nat := if variant = 2 then 384 * 10 ^ 9 else 768 * 10 ^ 9

/-- The partition a cluster is assigned to (R23). -/
def State.partOfCluster (s : State) (cl : Nat) : Option Nat :=
  let b := s.cmap.getD cl 0
  if b / 128 % 2 = 1 then some (b % 16) else none

/-- `caps` of a core (R24). -/
def State.caps (s : State) (c : Nat) : Word :=
  let nstacks := if s.variant = 2 then 0x3 else 0xF
  let wports := if s.variant = 1 then 0 else if s.variant = 2 then 0x0F else 0xFF
  let bridges := if s.variant = 2 then 0x3 else 0xF
  let low := if onDeck c then 0xC000 else 0x3000
  BitVec.ofNat 64 (3 * 2 ^ 60 + s.variant * 2 ^ 52 + nstacks * 2 ^ 48 + wports * 2 ^ 40 + bridges * 2 ^ 36 + low)

/-! ## Context numbers -/

/-- The number of a context: partition and serial, unique among live contexts (R58). -/
def Ident.cid (i : Ident) : Nat := i.part * 2 ^ 24 + i.serial % 2 ^ 24
/-- The number a core's drain run goes by. -/
def drainCid (core : Nat) : Nat := 2 ^ 32 + core
def Ctx.cid (c : Ctx) : Nat := if c.id.slot = 4 then drainCid c.id.core else c.id.cid
/-- `ctxid` (R58). -/
def Ctx.ctxid (c : Ctx) : Word :=
  BitVec.ofNat 64 (c.id.serial % 2 ^ 24 * 2 ^ 16 + c.id.core * 16 + c.id.slot)

namespace State

/-- The context with a number, if it is live. -/
def ctx? (s : State) (cid : Nat) : Option Ctx :=
  if s.cx.st.live && s.cx.cid = cid then some s.cx else s.others.get? cid
/-- Replace the context with a number. -/
def setCtx (s : State) (cid : Nat) (c : Ctx) : State :=
  if s.cx.st.live && s.cx.cid = cid then { s with cx := c } else { s with others := s.others.set cid c }
def modCtx (s : State) (cid : Nat) (f : Ctx → Ctx) : State :=
  match s.ctx? cid with
  | some c => s.setCtx cid (f c)
  | none => s
/-- All live contexts. -/
def ctxs (s : State) : List Ctx := (if s.cx.st.live then [s.cx] else []) ++ s.others.vals
/-- Apply a change to every context. -/
def mapCtxs (s : State) (f : Ctx → Ctx) : State :=
  { s with cx := if s.cx.st.live then f s.cx else s.cx, others := s.others.map fun e => (e.1, f e.2) }
/-- Take another context in hand: the one in hand goes to the table. -/
def checkout (s : State) (cid : Nat) : State :=
  if s.cx.st.live && s.cx.cid = cid then s else
  match s.others.get? cid with
  | none => s
  | some c =>
    { s with cx := c,
             others := if s.cx.st.live then (s.others.erase cid).set s.cx.cid s.cx else s.others.erase cid }

end State

/-! ## The monad of a meaning -/

/-- How a meaning ends early. -/
inductive Stop where
  /-- A precise trap: the state is as before the instruction. -/
  | trap (code : Nat) (info : Word)
  /-- A trap whose saved pc is given (R339). -/
  | trapAt (code : Nat) (info at_ : Word)
  /-- A precise trap after which all but the context's own registers stand as given: what a post attempt left (R324). -/
  | trapWrote (code : Nat) (info : Word) (s : State)
  /-- A trap that keeps the changes made so far. -/
  | trapIn (code : Nat) (info : Word) (s : State)
  /-- The instruction waits; it is issued again when the wait ends. -/
  | stall (w : Wait)
  /-- A wait that keeps the changes made so far (an arrival already made). -/
  | stallIn (w : Wait) (s : State)

abbrev M (α : Type) := StateT State (Except Stop) α

def trap {α : Type} (code : Nat) (info : Word) : M α := throw (.trap code info)
def stall {α : Type} (w : Wait) : M α := throw (.stall w)
def trapIn {α : Type} (code : Nat) (info : Word) : M α := fun s => .error (.trapIn code info s)
def stallIn {α : Type} (w : Wait) : M α := fun s => .error (.stallIn w s)
def check (b : Bool) (m : M Unit) : M Unit := if b then m else pure ()

def modCx (f : Ctx → Ctx) : M Unit := modify fun s => { s with cx := f s.cx }
def modRegs (f : Regs → Regs) : M Unit := modCx fun c => { c with r := f c.r }
def modCtl (f : Ctl → Ctl) : M Unit := modCx fun c => { c with c := f c.c }
/-- The next free value's number. -/
def fresh : M Nat := fun s => .ok (s.free, { s with free := s.free + 1 })

/-! ## Trap causes (R323) -/

def cILLOP : Nat := 0x01
def cPREFIX : Nat := 0x02
def cFREEDREG : Nat := 0x03
def cPRIV : Nat := 0x04
def cUNITABSENT : Nat := 0x05
def cBUDGET : Nat := 0x06
def cSWTRAP : Nat := 0x07
def cSHIFTERR : Nat := 0x08
def cHEADLOST : Nat := 0x09
def cSELBAD : Nat := 0x0A
def cASSAY : Nat := 0x0B
def cMXFAULT : Nat := 0x0C
def cKEYWAIT : Nat := 0x0D
def cMSGFULL : Nat := 0x0E
def cRRFULL : Nat := 0x0F
def cBARUF : Nat := 0x10
def cALIGN : Nat := 0x11
def cDCOMP : Nat := 0x12
def cPOISON : Nat := 0x13
def cBREAK : Nat := 0x14
def cRINGOV : Nat := 0x15
def cCHUTE : Nat := 0x16
def cLINKDOWN : Nat := 0x17

/-- `tinfo` of an `ILLOP` with a SUB value and low bits. -/
def subInfo (sub low : Nat) : Word := BitVec.ofNat 64 (sub * 2 ^ 56 + low)
/-- Trap with `ILLOP`. -/
def illop {α : Type} (sub low : Nat) : M α := trap cILLOP (subInfo sub low)

/-! ## Taking a trap and returning from one (R62, R321, R322, R339) -/

/-- `cause` as a trap writes it (R62). -/
def causeWord (code : Nat) (m : Option Micro) : Word :=
  match m with
  | none => BitVec.ofNat 64 code
  | some m => BitVec.ofNat 64 (2 ^ 21 + m.upc % 32 * 2 ^ 16 + m.slot % 64 * 2 ^ 8 + code)

/-- The context after a trap whose saved pc is `at_` (R321). A pc at or above 2^57 is saved with its bits [63:57] (DESIGN
CHOICE, notes/assumptions/17.md). -/
def Ctx.trapped (c : Ctx) (code : Nat) (info at_ : Word) : Ctx :=
  { c with
    c := { c.c with tpc := at_, cause := causeWord code c.micro, tinfo := info }
    sup := true
    pc := c.c.tvec
    kept := c.micro
    micro := none
    wait := none }

/-- A handler's trap in the drain slot (R188): the run is marked ended with the cause; the matrix engine carries out the
rest. A trap at supervisor level stops the partition (R322). Otherwise the context enters its handler. -/
def takeTrapAt (s : State) (code : Nat) (info at_ : Word) : State :=
  match s.cx.drain with
  | some d => { s with cx := { s.cx with drain := some { d with trapped := some code } } }
  | none =>
    if s.cx.sup then
      s.modPart s.cx.id.part fun p => { p with pstate := 4, stopReq := some (3, code, s.cx.id.core) }
    else { s with cx := s.cx.trapped code info at_ }

/-- Take a precise trap: `tpc` names the instruction as entered; `mcall` inside a microprogram (R112, R145). -/
def takeTrap (s : State) (code : Nat) (info : Word) : State := takeTrapAt s code info s.cx.pc

/-- Return from a trap (R339): user level at `tpc`, or inside the microprogram left (R145). -/
def Ctx.returned (c : Ctx) : Ctx :=
  { c with
    sup := false
    pc := c.c.tpc &&& ~~~1#64
    micro := if c.c.cause.getLsbD 21 then
        c.kept.map fun m => { m with upc := c.c.cause.toNat / 2 ^ 16 % 32, slot := c.c.cause.toNat / 2 ^ 8 % 64 }
      else none
    kept := none }

/-- The outcome of a meaning. -/
def run (m : M Unit) (s : State) : Host.Outcome State Fault Refusal :=
  match m s with
  | .ok ((), t) => .next t
  | .error (.trap c i) => .next (takeTrap s c i)
  | .error (.trapAt c i p) => .next (takeTrapAt s c i p)
  | .error (.trapWrote c i t) => .next (takeTrap { t with cx := { s.cx with l1 := t.cx.l1 } } c i)
  | .error (.trapIn c i t) => .next (takeTrap t c i)
  | .error (.stall w) => .next { s with cx := { s.cx with wait := some w } }
  | .error (.stallIn w t) => .next { t with cx := { t.cx with wait := some w } }

/-! ## The program counter -/

/-- The context after its instruction, execution going on at `next` (R112), or at the next operation of its microprogram
(R143). -/
def Ctx.advanced (c : Ctx) (nops : Nat) : Ctx :=
  match c.micro with
  | none => { c with pc := c.npc }
  | some m => if m.upc + 1 < nops then { c with micro := some { m with upc := m.upc + 1 } }
              else { c with micro := none, pc := m.ret }

/-- Operations of the slot a context is inside. -/
def State.nopsOf (s : State) (c : Ctx) : Nat :=
  match c.micro with
  | none => 0
  | some m => (((s.core c.id.core).slot m.slot).recs).length
def State.nops (s : State) : Nat := s.nopsOf s.cx

/-- Go on after the instruction. -/
def advance : M Unit := modify fun s => { s with cx := s.cx.advanced s.nops }

/-- Go to an address (R124): bit 0 is taken as 0. -/
def jump (t : Word) : M Unit := modCx fun c => { c with pc := t &&& ~~~1#64 }

/-! ## Scalar registers (R52-R56) -/

def insertHeld {α : Type} [DecidableEq α] (x : α) (l : List α) : List α := if x ∈ l then l else x :: l

/-- `tinfo` of `FREEDREG` (R55). -/
def freedInfo (pool n : Nat) : Word := BitVec.ofNat 64 (pool * 256 + n)
/-- `tinfo` of the `POISON` of a killed entry (R323). -/
def poisonInfo (idx : Nat) : Word := BitVec.ofNat 64 (2 ^ 60 + idx % 65536)

/-- The trap at a read of a register whose entry was killed: the kill is delivered (R56). -/
def poisonRead {α : Type} (idx : Nat) : M α := do
  modCx fun c => { c with st := { c.st with killed := c.st.killed.erase idx } }
  trapIn cPOISON (poisonInfo idx)

/-- Does `mode.UDREAD` make an undefined read trap (R55)? -/
def Ctl.udread (c : Ctl) : Bool := c.mode.getLsbD 0

/-- An undefined read's value: zero or one the context has held (R55). -/
def undefOf {α : Type} (zero : α) (held : List α) : M α := do
  let n ← fresh
  pure ((zero :: held).getD (Config.freePick n % (held.length + 1)) zero)

/-- Read scalar register `n` (R53, R55, R56). -/
def readSNum (n : Nat) : M Word := do
  let r := (← get).cx.r
  if n = 0 then pure 0
  else match r.sPoison.get? n with
  | some idx => poisonRead idx
  | none =>
    if r.sPend.has n || r.sFly.has n then stall (.reg 0 n)
    else match r.s.get? n with
    | some x => pure x
    | none =>
      if (← get).cx.c.udread then trap cFREEDREG (freedInfo 0 n)
      else undefOf 0 r.sHeld

def readS (a : Src) : M Word := readSNum a.n

/-- Unmap scalar register `n`. -/
def Regs.dropS (r : Regs) (n : Nat) : Regs := { r with s := r.s.erase n }
/-- The last-use free of a scalar source (R53). -/
def freeS (a : Src) : M Unit := check (a.last && a.n != 0) (modRegs fun r => r.dropS a.n)

/-- Put a value into scalar register `n`, mapped afresh: no longer pending (R56). -/
def Regs.putS (r : Regs) (n : Nat) (x : Word) : Regs :=
  { r with s := r.s.set n x, sPend := r.sPend.erase n, sFly := r.sFly.erase n, sPoison := r.sPoison.erase n,
           sHeld := insertHeld x r.sHeld }

/-- Scalar names a context may map (R54, R321). -/
def Ctx.sLimit (c : Ctx) : Nat := c.decl.sregs + (if c.sup then 8 else 0)

/-- Write scalar register `d`: `s0` ignores it (R52); a context at its declared count traps (R54). -/
def writeS (d : Nat) (x : Word) : M Unit := do
  let c := (← get).cx
  if d = 0 then pure ()
  else if !c.r.s.has d && c.sLimit ≤ c.r.s.length then illop 0 1
  else modRegs fun r => r.putS d x

/-! ## Vector and mask registers -/

def readV (a : Src) : M VReg := do
  let r := (← get).cx.r
  match r.vPoison.get? a.n with
  | some idx => poisonRead idx
  | none =>
    if r.vPend.has a.n || r.vFly.has a.n then stall (.reg 1 a.n)
    else match r.v.get? a.n with
    | some x => pure x
    | none =>
      if (← get).cx.c.udread then trap cFREEDREG (freedInfo 1 a.n)
      else undefOf 0 r.vHeld

def freeV (a : Src) : M Unit := check a.last (modRegs fun r => { r with v := r.v.erase a.n })

def Regs.putV (r : Regs) (n : Nat) (x : VReg) : Regs :=
  { r with v := r.v.set n x, vPend := r.vPend.erase n, vFly := r.vFly.erase n, vPoison := r.vPoison.erase n,
           vHeld := insertHeld x r.vHeld }

def writeV (d : Nat) (x : VReg) : M Unit := do
  let c := (← get).cx
  if !c.r.v.has d && c.decl.vregs ≤ c.r.v.length then illop 0 2
  else modRegs fun r => r.putV d x

/-- Read mask register `n`: `k0` is all ones (R52). -/
def readK (n : Nat) : M KReg := do
  let r := (← get).cx.r
  if n = 0 then pure (BitVec.allOnes 128)
  else match r.k.get? n with
  | some x => pure x
  | none =>
    if (← get).cx.c.udread then trap cFREEDREG (freedInfo 2 n)
    else undefOf 0 r.kHeld

def freeK (a : Src) : M Unit := check (a.last && a.n != 0) (modRegs fun r => { r with k := r.k.erase a.n })

def Regs.putK (r : Regs) (n : Nat) (x : KReg) : Regs :=
  { r with k := r.k.set n x, kHeld := insertHeld x r.kHeld }

/-- Write mask register `d` (1-7; the decoder refuses `k0`). -/
def writeK (d : Nat) (x : KReg) : M Unit := do
  let c := (← get).cx
  if d = 0 then pure ()
  else if !c.r.k.has d && c.decl.kregs ≤ c.r.k.length then illop 0 3
  else modRegs fun r => r.putK d x

/-! ## Flags (R60) -/

def fNV : Nat := 1
def fOF : Nat := 2
def fUF : Nat := 4
def fNX : Nat := 8
def fAOVFINF : Nat := 16
def fAOVFSAT : Nat := 32
def fSELBAD : Nat := 64
def fASSAYC : Nat := 128
def fASSAYU : Nat := 256

/-- Set sticky flags of a context. -/
def Ctx.setFlags (c : Ctx) (f : Nat) : Ctx := { c with c := { c.c with fflags := c.c.fflags ||| BitVec.ofNat 64 f } }

/-- Set flags: those of the context, or of the context whose binding started the drain run (R61). -/
def setFlags (f : Nat) : M Unit := modify fun s =>
  match s.cx.drain with
  | none => { s with cx := s.cx.setFlags f }
  | some d => s.modCtx d.owner fun c => c.setFlags f

/-! ## Privilege and units -/

/-- The base halfword of an instruction (R103). -/
def baseHalf (i : Instr) : Nat := (encode i).getLastD 0
/-- `tinfo` of `PRIV` and `UNITABSENT` (R323): page and base halfword. -/
def opInfo (page : Nat) (i : Instr) : Word := BitVec.ofNat 64 (page * 65536 + baseHalf i)
/-- Supervisor level is required. -/
def needSup (page : Nat) (i : Instr) : M Unit := do
  if (← get).cx.sup then pure () else trap cPRIV (opInfo page i)
/-- The plane array or the tracks of a compute core are required (R26). -/
def needDeck (page : Nat) (i : Instr) : M Unit := do
  if onDeck (← get).cx.id.core then pure () else trap cUNITABSENT (opInfo page i)
/-- Refused inside a microprogram (R144). -/
def notInMicro : M Unit := do
  if (← get).cx.micro.isSome then illop 0x03 0 else pure ()
/-- Refused in the drain slot (R188). -/
def notInDrain : M Unit := do
  if (← get).cx.drain.isSome then illop 0x05 0 else pure ()

/-! ## Classes (R68) -/

def Counts.get (c : Counts) : Nat → Nat
  | 0 => c.load
  | 1 => c.store
  | 2 => c.copy
  | 3 => c.matrix
  | _ => c.head
def Counts.add (c : Counts) (cls n : Nat) : Counts :=
  match cls with
  | 0 => { c with load := c.load + n }
  | 1 => { c with store := c.store + n }
  | 2 => { c with copy := c.copy + n }
  | 3 => { c with matrix := c.matrix + n }
  | _ => { c with head := c.head + n }
def Counts.sub (c : Counts) (cls n : Nat) : Counts :=
  match cls with
  | 0 => { c with load := c.load - n }
  | 1 => { c with store := c.store - n }
  | 2 => { c with copy := c.copy - n }
  | 3 => { c with matrix := c.matrix - n }
  | _ => { c with head := c.head - n }
/-- The limit of each class (R68). -/
def classLimit : Nat → Nat
  | 0 => 64
  | 1 => 64
  | 2 => 16
  | 3 => 16
  | _ => 8

/-- The operations of a context that are outstanding: those counted, and an access held at a link, which counts in its class
(R394). -/
def Ctx.outstanding (c : Ctx) : Counts :=
  match c.wait with
  | some (.link _ (some cls)) => c.cnt.add cls 1
  | _ => c.cnt

/-- Wait for room in a class. -/
def needRoom (cls : Nat) : M Unit := do
  if (← get).cx.cnt.get cls < classLimit cls then pure () else stall (.room cls)
/-- Count an operation. -/
def count (cls : Nat) : M Unit := modCx fun c => { c with cnt := c.cnt.add cls 1 }
/-- An operation of a context completes. -/
def State.uncount (s : State) (cid cls : Nat) : State :=
  s.modCtx cid fun c => { c with cnt := c.cnt.sub cls 1 }

/-- The counts satisfy a `wait` (R127): a bound of 7 is no bound. -/
def Counts.within (c : Counts) (l st cp m h : Nat) : Bool :=
  (l = 7 || c.load ≤ l) && (st = 7 || c.store ≤ st) && (cp = 7 || c.copy ≤ cp) && (m = 7 || c.matrix ≤ m) &&
    (h = 7 || c.head ≤ h)
def needClasses (l st cp m h : Nat) : M Unit := do
  if (← get).cx.cnt.within l st cp m h then pure () else stall (.classes l st cp m h)

end Sys2Proof.Machine
end

