-- ==== Sys2Proof/Machine/Access.lean ====
section
/-! DEFINITION. Where an address leads (R229-R231), translation (R353-R356), the first-level cache's written words
(R232-R234), reading and writing bytes, and the posting of faulted accesses (R324-R326). -/
namespace Sys2Proof.Machine

/-! ## Keys of the one memory -/

/-- A byte of a core's bank. -/
def bankKey (core bank off : Nat) : Nat := 2 ^ 56 + core * 2 ^ 19 + bank * 2 ^ 14 + off
/-- A byte of a track word. -/
def trackKey (core t pos j : Nat) : Nat := 2 ^ 57 + ((core * 16 + t) * 4096 + pos) * 128 + j
/-- A byte of host memory at a bus address. -/
def hostKey (a : Nat) : Nat := 2 ^ 65 + a

/-! ## Kinds of access -/

inductive Acc where
  | load | store | atomic | fetch | const | engRead | engWrite
deriving DecidableEq, Repr

def Acc.writes : Acc → Bool
  | .store => true
  | .atomic => true
  | .engWrite => true
  | _ => false

/-! ## Banks (R230, R231) -/

/-- The role of bank `i` of a context (R64): 0 scratchpad, 1 cache, 2 operand buffer, 3 constant. Banks beyond the
declared count read 0. -/
def Ctx.role (c : Ctx) (i : Nat) : Nat := if i < c.decl.banks.length then c.c.brole.toNat / 4 ^ i % 4 else 0

/-- An own-bank address (R231): the key of its byte, or the cause of the fault. -/
def Ctx.ownBank (c : Ctx) (va : Nat) : Except Nat Nat :=
  match c.decl.banks[va / 2 ^ 14]? with
  | some b => if c.role (va / 2 ^ 14) % 2 = 0 then .ok (bankKey c.id.core b (va % 2 ^ 14)) else .error 2
  | none => .error 2

/-- A partition runs (R332): its contexts issue and its units and traffic go on; while a switch is not due yet, too. -/
def State.issues (s : State) (p : Nat) : Bool := (s.part p).pstate = 0 || ((s.part p).pstate = 1 && s.time < (s.part p).ptick)

/-- A partition has its contexts' banks on its cores: it is not switched out, stopped, or still coming in (R332, R333). -/
def State.resident (s : State) (p : Nat) : Bool := (s.part p).pstate ≤ 1 || (s.part p).pstate = 4

/-- Partition and role of a physical bank of a core, where it belongs to a context or is kept for one (R230). -/
def State.bankOwner (s : State) (core b : Nat) : Option (Nat × Nat) :=
  match s.ctxs.find? fun c => c.id.slot != 4 && c.id.core = core && c.decl.banks.contains b && s.resident c.id.part with
  | some c => some (c.id.part, c.role (c.decl.banks.idxOf b))
  | none => ((s.core core).kept.find? fun k => k.bank = b).map fun k => (k.part, k.role)

/-- A remote-window address (R230, R15). Gating covers compute cores only (R410). -/
def State.remote (s : State) (c : Ctx) (va : Nat) : Except Nat Nat :=
  let core := va / 2 ^ 20 % 4096
  let o := va % 2 ^ 20
  if !coreExists s.variant core then .error 3
  else if onDeck core && (s.cluster (clusterOf core)).gate = 2 then .error 4
  else if o < 2 ^ 19 then
    match s.bankOwner core (o / 2 ^ 14) with
    | some (p, r) => if p = c.id.part && r % 2 = 0 then .ok (bankKey core (o / 2 ^ 14) (o % 2 ^ 14)) else .error 2
    | none => .error 2
  else
    match s.ctxs.find? fun m => m.id.slot != 4 && m.id.core = core && m.id.part = c.id.part && m.id.inst = c.id.inst with
    | some m => m.ownBank (o % 2 ^ 19)
    | none => .error 2

/-! ## Translation (R353-R356) -/

def State.entryAt (s : State) (pa : Nat) : Nat := natOfBytes (s.mem.bytes pa 8)

/-- In the metadata area of a stack (R358). -/
def inMetadata (pa : Nat) : Bool := 191624998912 ≤ pa % (192 * 10 ^ 9)
/-- A frame of another device (R400): bit 51 of the physical address. -/
def isFabric (pa : Nat) : Bool := 2 ^ 51 ≤ pa && pa < 2 ^ 52

/-- A table entry as a walker reads it, an ordinary load at the home (R356): its faults are those of a load (R354, R359,
R400, R414). -/
def State.readEntry (s : State) (pa : Nat) : Except Nat Nat :=
  if isFabric pa then .error 2
  else if dramBytes s.variant ≤ pa then .error 3
  else if inMetadata pa then .error 2
  else if s.poison.contains (pa / 4096) || s.ecc.contains (pa / 8) then .error 5
  else .ok (s.entryAt pa)

/-- The fields of a page-table entry. -/
def pteAddr (e : Nat) : Nat := e / 2 ^ 12 % 2 ^ 40 * 2 ^ 12
def pteLeaf (e : Nat) : Bool := e.testBit 54
def pteReserved (e : Nat) : Bool := e / 2 ^ 59 != 0 || e / 2 ^ 52 % 4 != 0 || e / 2 % 2 ^ 11 != 0

/-- One level of a walk (R354): the entry's ADDR, where it is valid, clean and aligned. -/
def State.level (s : State) (table idx align : Nat) (leaf : Nat → Bool) : Except Nat Nat :=
  match s.readEntry (table + 8 * idx) with
  | .error c => .error c
  | .ok e =>
    if !e.testBit 0 then .error 1
    else if pteReserved e || !leaf e || pteAddr e % align != 0 then .error 2
    else .ok e

def pteOf (e units : Nat) : Pte :=
  { frame := pteAddr e, units := units, w := e.testBit 55, x := e.testBit 56, const := e.testBit 57, cmp := e.testBit 58 }

/-- The L2 entry of a walk: read from the root on. -/
def State.walkL2 (s : State) (part va : Nat) : Except Nat Nat := do
  let notLeaf (e : Nat) := !pteLeaf e
  let e3 ← s.level (s.part part).root (va / 2 ^ 51 % 64) (2 ^ 16) notLeaf
  s.level (pteAddr e3) (va / 2 ^ 38 % 8192) (2 ^ 16) notLeaf
/-- The L1 entry of a walk below an L2 entry: a leaf, or the address of an L0 table. -/
def State.walkL1 (s : State) (e2 va : Nat) : Except Nat Nat :=
  let e1 := s.entryAt (pteAddr e2 + 8 * (va / 2 ^ 25 % 8192))
  if e1.testBit 0 && pteLeaf e1 then s.level (pteAddr e2) (va / 2 ^ 25 % 8192) (2 ^ 25) pteLeaf
  else s.level (pteAddr e2) (va / 2 ^ 25 % 8192) (2 ^ 12) (fun e => !pteLeaf e)
/-- The end of a walk below an L1 entry. -/
def State.walkL0 (s : State) (e1 va : Nat) : Except Nat Pte :=
  if pteLeaf e1 then .ok (pteOf e1 512)
  else match s.level (pteAddr e1) (va / 2 ^ 16 % 512) (2 ^ 16) pteLeaf with
    | .ok e0 => .ok (pteOf e0 1)
    | .error e => .error e

/-- The walk of a partition's tables for a global address (R353, R354). -/
def State.walk (s : State) (part va : Nat) : Except Nat Pte := do
  if (s.part part).root = 0 then .error 1
  let e2 ← s.walkL2 part va
  let e1 ← s.walkL1 e2 va
  s.walkL0 e1 va

/-- An entry in a stack's walk cache (R356). -/
def State.cachedEntry (s : State) (stack part level idx : Nat) : Option Nat :=
  ((s.walkCache.getD stack []).find? fun e => e.part = part && e.level = level && e.idx = idx).map (·.entry)

/-- The walk that a stack's walkers make: from the lowest entry that its walk cache holds. It answers the translation and
the L2 and L1 entries used. -/
def State.walkVia (s : State) (stack part va : Nat) : Except Nat (Pte × List WalkEntry) := do
  if (s.part part).root = 0 then .error 1
  match s.cachedEntry stack part 1 (va / 2 ^ 25) with
  | some e1 => do
    let p ← s.walkL0 e1 va
    pure (p, [⟨part, 1, va / 2 ^ 25, e1⟩])
  | none => do
    let e2 ← match s.cachedEntry stack part 2 (va / 2 ^ 38) with
      | some e2 => pure e2
      | none => s.walkL2 part va
    let e1 ← s.walkL1 e2 va
    let p ← s.walkL0 e1 va
    pure (p, [⟨part, 2, va / 2 ^ 38, e2⟩, ⟨part, 1, va / 2 ^ 25, e1⟩])

/-- The walk cache keeps the 256 entries used last (R356). -/
def State.keepEntries (s : State) (stack : Nat) (es : List WalkEntry) : State :=
  let old := (s.walkCache.getD stack []).filter fun o =>
    !es.any fun e => e.part = o.part && e.level = o.level && e.idx = o.idx
  { s with walkCache := s.walkCache.set stack ((es ++ old).take 256) }

/-- A translation a window pins (R360): of a page of its range or of its spare range. -/
def Part.pinned (p : Part) (vp : Nat) : Option Pte :=
  p.windows.vals.findSome? fun w =>
    if w.base / 65536 ≤ vp && vp < w.base / 65536 + w.npages then w.frames[vp - w.base / 65536]?
    else if w.spare / 65536 ≤ vp && vp < w.spare / 65536 + w.npages then w.spares[vp - w.spare / 65536]?
    else none

/-- A translation the cluster's TLBs hold (R355). -/
def Cluster.lookup (cl : Cluster) (part vp : Nat) : Option Pte :=
  (cl.tlb.find? fun e => e.1 = part && e.2.1 ≤ vp && vp < e.2.1 + e.2.2.units).map (·.2.2)

/-- The frame of one 64 KiB unit of a translation. -/
def Pte.unit (p : Pte) (vp : Nat) : Nat := p.frame + vp % p.units * 65536

/-- The frame of a unit lies in DRAM outside the metadata area, or on another device: a walk that finds another frame fails
(R354), and is not cached (R355). -/
def Pte.sound (variant : Nat) (p : Pte) (vp : Nat) : Bool :=
  let pa := p.unit vp
  isFabric pa || (pa < dramBytes variant && !inMetadata pa)

/-- What a walk answers. -/
def Walk.answer (w : Walk) : Except Nat Pte := match w.pte with
  | some p => .ok p
  | none => .error w.cause

/-- The walk of a page in progress in the stack of a cluster (R356). -/
def State.walkOf (s : State) (cl part vp : Nat) : Option Walk :=
  s.walking.find? fun w => w.cl / 96 = cl / 96 && w.part = part && w.vp = vp

/-- A translation that needs no walk: pinned by a window, or cached (R355, R360). -/
def State.heldPte (s : State) (cl part vp : Nat) : Option Pte :=
  match (s.part part).pinned vp with
  | some p => some p
  | none => (s.cluster cl).lookup part vp

/-- The translation of a page for an access from a cluster, as it stands: held, answered by a walk in progress, or walked. -/
def State.translation (s : State) (cl part va : Nat) : Except Nat Pte :=
  if (s.part part).root = 0 then .error 1
  else match s.heldPte cl part (va / 65536) with
    | some p => .ok p
    | none => match s.walkOf cl part (va / 65536) with
      | some w => w.answer
      | none => (s.walkVia (cl / 96) part va).map (·.1)

/-! ## Compressed pages (R238-R243, R358) -/

/-- The metadata entry of a block (R358). -/
def metaKey (blk : Nat) : Nat :=
  blk * 4096 / (192 * 10 ^ 9) * (192 * 10 ^ 9) + 191624998912 + blk * 4096 % (192 * 10 ^ 9) / 4096 * 8

/-- The second-level cache fetches a block of a compressed page (R239, R241, R242): its plain bytes, or the cause of the
fault with the bit offset. -/
def State.fetchBlock (s : State) (blk : Nat) : Except (Nat × Nat) (List Byte) :=
  let e := natOfBytes (s.mem.bytes (metaKey blk) 8)
  if s.ecc.contains (metaKey blk / 8) then .error (5, 0)
  else match expandBlock e (s.mem.bytes (blk * 4096) (Nat.min 4096 (e % 256 * 32))) with
    | .ok bs => .ok bs
    | .error (0, _) => .error (5, 0)
    | .error (_, off) => .error (7, off)

/-- A block that the second-level cache holds expanded leaves it (R242): its stream and its entry are stored, and what
follows the stream in its frame the spec does not define. -/
def State.storeBlock (s : State) (blk : Nat) : State :=
  let c := compressBlock (s.mem.bytes (blk * 4096) 4096)
  let rest := (List.range (4096 - (c.length - 8))).map fun i => Config.freeByte (s.free + i)
  { s with mem := (s.mem.putBytes (blk * 4096) (c.drop 8 ++ rest)).putBytes (metaKey blk) (c.take 8)
           expanded := s.expanded.erase blk
           free := s.free + 4096 }

/-- A block becomes poisoned by an access of a partition (R357, R359). -/
def State.poisonBlock (s : State) (part blk : Nat) : State :=
  if s.poison.contains blk then s
  else { s.modPart part (fun p => { p with psnblk := (p.psnblk + 1) % 2 ^ 64 }) with poison := blk :: s.poison }

/-- The memory shows a block in the form that the page's CMP bit asks for. -/
def State.inForm (s : State) (cmp : Bool) (blk : Nat) : Bool := s.expanded.contains blk == cmp

/-- An access to a block through a page with or without CMP brings it into its form (R238, R242): expanded for an access
to a compressed page, as stored for any other. A metadata error poisons the block. -/
def State.bringIn (s : State) (part : Nat) (cmp : Bool) (blk : Nat) : State :=
  if s.inForm cmp blk || s.poison.contains blk then s
  else if !cmp then s.storeBlock blk
  else match s.fetchBlock blk with
    | .ok bs => { s with mem := s.mem.putBytes (blk * 4096) bs, expanded := blk :: s.expanded }
    | .error (5, _) => s.poisonBlock part blk
    | .error _ => s

/-- The fault of a block that is not in its form; 8, no cause of a fault, where bringing it in will do. -/
def State.formFault (s : State) (cmp : Bool) (blk : Nat) : Option Nat :=
  if s.inForm cmp blk then none
  else if !cmp then some 8
  else match s.fetchBlock blk with
    | .ok _ => some 8
    | .error e => some e.1

/-- The blocks of `n` 4 KiB from a frame on stand in the form of a page with or without CMP, all of them to be written. -/
def State.ownBlocks (s : State) (cmp : Bool) (frame n : Nat) : State :=
  { s with expanded := (List.range n).foldl (fun l i =>
      if cmp then insertHeld (frame / 4096 + i) l else l.erase (frame / 4096 + i)) s.expanded }

/-- What a block holds is not defined any more (R355). -/
def State.tearBlock (s : State) (cmp : Bool) (blk : Nat) : State :=
  let t := s.ownBlocks cmp (blk * 4096) 1
  { t with mem := t.mem.putBytes (blk * 4096) ((List.range 4096).map fun i => Config.freeByte (t.free + i)), free := t.free + 4096 }

/-- A block that cannot be brought into its form stands in it to be written whole: what it held is not defined any more. -/
def State.renewBlock (s : State) (cmp : Bool) (blk : Nat) : State := if s.inForm cmp blk then s else s.tearBlock cmp blk

/-- A write enters a block through a page with or without CMP, which is brought into its form; `whole`: all of it is written
afresh, so a block that is poisoned or cannot be expanded is entered too (R359). -/
def State.enterBlock (s : State) (part : Nat) (cmp whole : Bool) (blk : Nat) : Option Nat × State :=
  let t := s.bringIn part cmp blk
  match (if t.poison.contains blk then some 5 else t.formFault cmp blk) with
  | none => (none, t)
  | some e => if whole then (none, t.renewBlock cmp blk) else (some e, t)

/-- The blocks of `n` 4 KiB from a block on leave the second-level cache, those it holds expanded. -/
def State.storeBlocks (s : State) (blk : Nat) : Nat → State
  | 0 => s
  | n + 1 => State.storeBlocks (if s.expanded.contains blk then s.storeBlock blk else s) (blk + 1) n

def State.tearBlocks (s : State) (cmp : Bool) (blk : Nat) : Nat → State
  | 0 => s
  | n + 1 => State.tearBlocks (s.tearBlock cmp blk) cmp (blk + 1) n

/-! ## What a walk finds (R355) -/

/-- A page is seen mapped: its blocks are undefined where its CMP bit has changed and no `tlbinv` has seen it unmapped; the
blocks of a frame that it names no more stand as stored. -/
def State.seen (s : State) (part vp : Nat) (p : Pte) : State :=
  let first := vp - vp % p.units
  let here (e : Nat × Nat × Pte) : Bool := e.1 = part && e.2.1 = first
  let s1 := { s with forms := (part, first, p) :: s.forms.filter fun e => !here e }
  match s.forms.find? here with
  | none => s1
  | some (_, _, q) =>
    if q.frame = p.frame then (if q.cmp = p.cmp then s1 else s1.tearBlocks p.cmp (p.frame / 4096) (p.units * 16))
    else if q.cmp then s1.storeBlocks (q.frame / 4096) (q.units * 16)
    else s1

/-- A miss: it starts a walk, or is merged with the walk of the same page in progress, which answers it (R356). -/
def State.missed (s : State) (cl part va : Nat) : State :=
  let vp := va / 65536
  match s.walkOf cl part vp with
  | some w =>
    { s.modPart part (fun p => { p with merged := (p.merged + 1) % 2 ^ 64 }) with
      walking := insertHeld { w with cl := cl } s.walking }
  | none =>
    let s1 := s.modPart part fun p => { p with walks := (p.walks + 1) % 2 ^ 64 }
    match s.walkVia (cl / 96) part va with
    | .ok (p, es) =>
      { (if p.sound s.variant vp then (s1.seen part vp p).keepEntries (cl / 96) es else s1) with
        walking := s.walking ++ [⟨cl, part, vp, some p, 0⟩] }
    | .error e => { s1 with walking := s.walking ++ [⟨cl, part, vp, none, e⟩] }

/-- Translate a page for an access from a cluster: held, or by a walk, whose end, TLB_WALK_COMPLETE, caches it. -/
def translate (cl part va : Nat) : M (Except Nat Pte) := do
  let s ← get
  check ((s.part part).root != 0 && (s.heldPte cl part (va / 65536)).isNone) (modify fun s => s.missed cl part va)
  return s.translation cl part va

/-- The page lies in the spare range of an open window: of a shadow, or of a snapshot. -/
def Part.spareOf (p : Part) (vp : Nat) : Option Bool :=
  p.windows.vals.findSome? fun w =>
    if w.spare / 65536 ≤ vp && vp < w.spare / 65536 + w.npages then some w.snap else none

/-- The route-table entry that such an address selects. -/
def State.route (s : State) (pa : Nat) : Nat := s.routes.getD (pa / 2 ^ 44 % 128) 0

/-- The physical byte a translated global address names, poison apart (R354, R360, R400). -/
def State.placeRaw (s : State) (part va : Nat) (k : Acc) (p : Pte) : Except Nat Nat :=
  let pa := p.unit (va / 65536) + va % 65536
  if k.writes && (!p.w || p.const) then .error 2
  else if k = .fetch && !p.x then .error 2
  else if k = .const && !p.const then .error 6
  else if isFabric pa then
    (if k != .engRead && k != .engWrite then .error 2 else if s.route pa < 128 then .error 3 else .ok pa)
  else if dramBytes s.variant ≤ pa then .error 3
  else if inMetadata pa then .error 2
  else match (s.part part).spareOf (va / 65536) with
  | some false => .error 2
  | some true => if k.writes then .error 2 else .ok pa
  | none => .ok pa

/-- The physical byte a translated global address names for an access, or the cause of its fault (R241, R242, R359). -/
def State.place (s : State) (part va : Nat) (k : Acc) (p : Pte) : Except Nat Nat :=
  match s.placeRaw part va k p with
  | .ok pa =>
    if s.poison.contains (pa / 4096) || (k != .store && k != .engWrite && s.ecc.contains (pa / 8)) then .error 5
    else if isFabric pa then .ok pa
    else match s.formFault p.cmp (pa / 4096) with
      | some e => .error e
      | none => .ok pa
  | .error e => .error e

/-- Bring in the block of a translated address. -/
def State.bringAt (s : State) (part va : Nat) (k : Acc) (p : Pte) : State :=
  match s.placeRaw part va k p with
  | .ok pa => if isFabric pa then s else s.bringIn part p.cmp (pa / 4096)
  | .error _ => s

/-! ## Locating bytes -/

def isGlobal (va : Nat) : Bool := 2 ^ 40 ≤ va && va < 2 ^ 57

/-- An uncorrectable word (R414) posts what reads it. -/
def State.clean (s : State) (k : Acc) : Except Nat Nat → Except Nat Nat
  | .ok key => if k != .store && k != .engWrite && s.ecc.contains (key / 8) then .error 5 else .ok key
  | .error e => .error e

/-- The place of a byte outside global memory. -/
def State.placeOutside (s : State) (c : Ctx) (k : Acc) (va : Nat) : Except Nat Nat :=
  s.clean k <|
  if 2 ^ 57 ≤ va then .error 3
  else if k = .const then .error 6
  else if va < 2 ^ 19 then (if k = .fetch then .error 2 else c.ownBank va)
  else if 0x1000000000 ≤ va && va < 0x1100000000 then (if k = .fetch then .error 2 else s.remote c va)
  else .error 3

/-- Is the fault known from the address alone (R324)? In an own bank, a refusal of R231 is; an uncorrectable word is not. -/
def addrOnly (k : Acc) (va cause : Nat) : Bool :=
  2 ^ 57 ≤ va || (va < 2 ^ 19 && cause != 5) || (k = .const && !isGlobal va)

/-- Translations of the distinct pages of a list of addresses, each made once, in order. -/
def translateAll (c : Ctx) : List Nat → List (Nat × Except Nat Pte) → M (List (Nat × Except Nat Pte))
  | [], acc => pure acc
  | va :: t, acc => do
    if !isGlobal va || acc.any fun e => e.1 = va / 65536 then translateAll c t acc
    else do
      let r ← translate (clusterOf c.id.core) c.id.part va
      translateAll c t (acc ++ [(va / 65536, r)])

/-- The blocks of compressed pages among a list of translated addresses are brought in. -/
def State.bringAll (s : State) (c : Ctx) (k : Acc) (ts : List (Nat × Except Nat Pte)) (vas : List Nat) : State :=
  if ts.isEmpty then s
  else vas.foldl (fun s va => match ts.find? fun e => e.1 = va / 65536 with
    | some (_, .ok p) => s.bringAt c.id.part va k p
    | _ => s) s

/-- The page of a byte (R203, R204): the number of its first 64 KiB unit; outside global memory a bank stands for a page. -/
def pageKey (ts : List (Nat × Except Nat Pte)) (va : Nat) : Nat :=
  if isGlobal va then
    match ts.find? fun e => e.1 = va / 65536 with
    | some (_, .ok p) => va / 65536 / p.units * p.units
    | _ => va / 65536
  else 2 ^ 60 + va / 2 ^ 14

/-- The place of a byte, given the translations made. -/
def State.placeWith (s : State) (c : Ctx) (k : Acc) (ts : List (Nat × Except Nat Pte)) (va : Nat) : Except Nat Nat :=
  if isGlobal va then
    match ts.find? fun e => e.1 = va / 65536 with
    | some (_, .ok p) => s.place c.id.part va k p
    | some (_, .error e) => .error e
    | none => .error 1
  else s.placeOutside c k va

/-! Links that traffic between stacks needs (R6, R237, R394, R404). -/

/-- The link takes traffic: it is neither DOWN nor FAILED. -/
def State.carries (s : State) (l : Nat) : Bool := let st := (s.links.getD l Link.fresh).st; st != 0 && st != 7
/-- The link is UP or DEGRADED: traffic crosses it. -/
def State.crosses (s : State) (l : Nat) : Bool := let st := (s.links.getD l Link.fresh).st; st = 5 || st = 6
/-- `n` bridges of the ring from stack `b` on. -/
def bridgesFrom (b n : Nat) : List Nat := (List.range n).map fun i => 8 + (b + i) % 4
/-- The two ways from one stack to another, by their bridges, the shorter one first (R6, R237). Of two ways of two bridges
each, the one of ascending bridge numbers from the first stack counts as the shorter (DESIGN CHOICE,
notes/assumptions/34.md). -/
def bridgeWays (variant a b : Nat) : List (List Nat) :=
  if variant = 2 then [[8], [9]]
  else
    let f := (b + 4 - a) % 4
    if 2 * f ≤ 4 then [bridgesFrom a f, bridgesFrom b (4 - f)] else [bridgesFrom b (4 - f), bridgesFrom a f]
/-- The way traffic takes: the shorter one, unless a bridge of it is DOWN or FAILED (R404). -/
def State.wayTo (s : State) (a b : Nat) : Option (List Nat) := (bridgeWays s.variant a b).find? fun w => w.all s.carries
/-- The link that stands in the way of traffic from one stack to another, where neither way is open. -/
def State.blocked (s : State) (a b : Nat) : Option Nat :=
  if a = b || (s.wayTo a b).isSome then none
  else ((bridgeWays s.variant a b).headD []).find? fun l => !s.carries l
/-- The link in training at which such traffic is held (R394). -/
def State.trainAt (s : State) (a b : Nat) : Option Nat :=
  if a = b then none else (s.wayTo a b).bind fun w => w.find? fun l => !s.crosses l

/-- Traffic from one stack to another goes through. -/
def State.openWay (s : State) (a b : Nat) : Bool := (s.blocked a b).isNone && (s.trainAt a b).isNone

/-- The stack on which a byte lies. -/
def stackOf (key : Nat) : Nat := if 2 ^ 56 ≤ key then coreStack ((key - 2 ^ 56) / 2 ^ 19) else key / (192 * 10 ^ 9)

/-- `tinfo` of `LINKDOWN` (R323): Wenkel ports are kind 0, bridges 1. -/
def linkInfo (l : Nat) : Word := BitVec.ofNat 64 ((if 12 ≤ l then 32 else if 8 ≤ l then 16 else 0) + l)

/-- Traffic of the context in hand finds its way to a stack (R394): it traps where no way is open, and waits while a link on
the way is in training, counted in its class. -/
def needWay (cls : Option Nat) (st : Nat) : M Unit := do
  let s ← get
  let a := coreStack s.cx.id.core
  match s.blocked a st, s.trainAt a st with
  | some l, _ => trap cLINKDOWN (linkInfo l)
  | none, some l => stall (.link l cls)
  | none, none => pure ()

/-- The class in which an access counts (R68). -/
def Acc.cls : Acc → Option Nat
  | .load => some 0
  | .atomic => some 0
  | .const => some 0
  | .store => some 1
  | _ => none

/-- The traffic of an access finds its way (R394). -/
def needPath (cls : Option Nat) : List (Except Nat Nat) → M Unit
  | [] => pure ()
  | .error _ :: t => needPath cls t
  | .ok key :: t => do
    needWay cls (stackOf key)
    needPath cls t

/-- The places of a list of addresses, each with its page. -/
def locateMany (c : Ctx) (k : Acc) (vas : List Nat) : M (List (Nat × Except Nat Nat)) := do
  let ts ← translateAll c vas []
  modify fun s => s.bringAll c k ts vas
  let s ← get
  let r := vas.map (s.placeWith c k ts)
  needPath k.cls r
  pure ((vas.map (pageKey ts)).zip r)

/-- A fault takes with it every byte of the block on its page (R156, R203, R204). -/
def spread (l : List (Nat × Except Nat Nat)) : List (Nat × Except Nat Nat) :=
  l.map fun e => match l.find? (fun x => x.1 = e.1 && x.2.toOption.isNone) with
    | some x => (e.1, x.2)
    | none => e

/-- The place of one address of the context in hand, for an access that counts in a class or in none; an aligned element lies
wholly behind its first byte. -/
def locateIn (cls : Option Nat) (k : Acc) (va : Nat) : M (Except Nat Nat) := do
  let c := (← get).cx
  let ts ← translateAll c [va] []
  modify fun s => s.bringAll c k ts [va]
  let r := (← get).placeWith c k ts va
  needPath cls [r]
  pure r
def locate (k : Acc) (va : Nat) : M (Except Nat Nat) := locateIn k.cls k va

/-! ## The first-level cache (R232-R234) -/

def isDram (key : Nat) : Bool := key < 2 ^ 51

/-- Banks of a context in a role. -/
def Ctx.banksIn (c : Ctx) (r : Nat) : List Nat := (List.range c.decl.banks.length).filter fun i => c.role i = r
/-- Cache-role banks of a context: the ways of its first-level cache. -/
def Ctx.ways (c : Ctx) : Nat := (c.banksIn 1).length

/-- The words of a line a range of bytes touches. -/
def wordMask (pa n : Nat) : BitVec 16 :=
  BitVec.ofNat 16 ((2 ^ ((pa % 128 + n - 1) / 8 + 1) - 1) - (2 ^ (pa % 128 / 8) - 1))

def Line.empty (l : Nat) : Line := { line := l, way := 0, valid := 0, written := 0, perm := false, old := [] }

/-- Words of a line whose bit is set. -/
def lineWords (l : Nat) (m : BitVec 16) : List Nat :=
  ((List.range 16).filter fun i => m.getLsbD i).map fun i => l * 16 + i

/-- Written words reach the home (R233): the home no longer differs there. -/
def State.settle (s : State) (ws : List Nat) : State := { s with home := ws.foldl (fun h w => h.erase w) s.home }

/-- The bank that takes a new line of a set (R232): one whose line of the set is free, else that of the set's line used
longest ago; `held` lists the lines with their banks, most recently used first. -/
def wayFor (banks : List Nat) (set_ : Nat) (held : List (Nat × Nat)) : Nat :=
  let used := (held.filter fun e => e.1 % 128 = set_).map (·.2)
  match banks.find? fun b => !used.contains b with
  | some b => b
  | none => used.getLastD 0

def State.setLines (s : State) (ls : List Line) : State :=
  { s with cx := { s.cx with l1 := { s.cx.l1 with data := ls } } }

/-- Put a line first in the cache of the context in hand; a new line takes the place of the set's line in its bank, which
is written back and dropped. -/
def State.useLine (s : State) (l : Line) : State :=
  let rest := s.cx.l1.data.filter fun m => m.line != l.line
  if rest.length < s.cx.l1.data.length then s.setLines (l :: rest)
  else
    let w := wayFor (s.cx.banksIn 1) (l.line % 128) (rest.map fun m => (m.line, m.way))
    let out (m : Line) : Bool := m.way = w && m.line % 128 = l.line % 128
    (rest.filter out).foldl (fun s e => s.settle (lineWords e.line e.written))
      (s.setLines ({ l with way := w } :: rest.filter fun m => !out m))

def Ctx.lineOf (c : Ctx) (l : Nat) : Line := (c.l1.data.find? fun m => m.line = l).getD (Line.empty l)

/-- After a merging fill every word is valid; words filled now are the memory's (R233). -/
def Line.filled (l : Line) : Line :=
  { l with valid := BitVec.allOnes 16, old := l.old.filter fun e => l.valid.getLsbD (e.1 % 16) }

/-- The byte a first-level line shows: the memory's, but for a word a host write has left old. -/
def State.lineByte (s : State) (l : Line) (pa : Nat) : Byte :=
  match l.old.get? (pa / 8) with
  | some w => BitVec.ofNat 8 (w.toNat / 256 ^ (pa % 8))
  | none => s.mem.read pa

def State.lineBytes (s : State) (l : Line) (pa : Nat) : Nat → List Byte
  | 0 => []
  | n + 1 => s.lineByte l pa :: State.lineBytes s l (pa + 1) n

/-- Read `n` bytes at a place, as an ordinary load of the context in hand (R233, R244). -/
def readPlace (key n : Nat) : M Nat := do
  let s ← get
  if isDram key && s.cx.ways != 0 then
    let l := (s.cx.lineOf (key / 128))
    let m := wordMask key n
    let l := if l.valid &&& m = m then l else l.filled
    set (s.useLine l)
    pure (natOfBytes (s.lineBytes l key n))
  else pure (natOfBytes (s.mem.bytes key n))

/-- Constant-role banks of a context: the ways of its constant cache. -/
def Ctx.constWays (c : Ctx) : Nat := (c.banksIn 3).length

/-- A constant line used: it comes first, and a new one takes the place of the set's line in its bank. -/
def Ctx.useConst (c : Ctx) (l : ConstLine) : List ConstLine :=
  let rest := c.l1.const.filter fun m => m.line != l.line
  if rest.length < c.l1.const.length then l :: rest
  else
    let w := wayFor (c.banksIn 3) (l.line % 128) (rest.map fun m => (m.line, m.way))
    { l with way := w } :: rest.filter fun m => !(m.way = w && m.line % 128 = l.line % 128)

/-- Read `n` bytes at a place through the constant cache (R202, R235): whole lines are filled. -/
def readConst (key n : Nat) : M Nat := do
  let s ← get
  if s.cx.constWays = 0 then pure (natOfBytes (s.mem.bytes key n))
  else
    let l := match s.cx.l1.const.find? fun l => l.line = key / 128 with
      | some l => l
      | none => ⟨key / 128, 0, s.mem.bytes (key / 128 * 128) 128⟩
    modCx fun c => { c with l1 := { c.l1 with const := c.useConst l } }
    pure (natOfBytes ((l.bytes.drop (key % 128)).take n))

/-- Read as the kind of access says. -/
def readAs (k : Acc) (key n : Nat) : M Nat := if k = .const then readConst key n else readPlace key n

/-- A store of words by one context: no other cache still owes them, and none shows them old (R244, R253). -/
def Ctx.lostWords (c : Ctx) (ws : List Nat) : Ctx :=
  { c with l1 := { c.l1 with data := c.l1.data.map fun l =>
      { l with written := (List.range 16).foldl (fun b i => if ws.contains (l.line * 16 + i) then b &&& ~~~(1#16 <<< i) else b) l.written
               old := l.old.filter fun e => !ws.contains e.1 } } }

def State.hasLines (s : State) : Bool := s.ctxs.any fun c => !c.l1.data.isEmpty

/-- Write bytes at a place, at the second-level cache or in a bank: as seen by every agent of the package. -/
def State.putShared (s : State) (key : Nat) (bs : List Byte) : State :=
  let s1 := { s with mem := s.mem.putBytes key bs, ecc := s.ecc.filter fun w => w * 8 < key || key + bs.length < w * 8 + 8 }
  if isDram key && s.hasLines then
    let ws := (List.range ((key % 8 + bs.length + 7) / 8)).map fun i => key / 8 + i
    (s1.mapCtxs (Ctx.lostWords · ws)).settle ws
  else s1

/-- The 8-byte word at word number `w` of the memory. -/
def State.wordAt (s : State) (w : Nat) : Word := BitVec.ofNat 64 (natOfBytes (s.mem.bytes (w * 8) 8))

/-- Bytes put into a word: byte `i` of the list at byte `at_ + i`. -/
def intoWord (x : Word) (at_ : Nat) (bs : List Byte) : List Byte :=
  let old := bytesOfNat 8 x.toNat
  old.take at_ ++ bs ++ old.drop (at_ + bs.length)

/-- The line of a place as an ordinary store of `n` bytes takes it: filled, unless it holds what the store leaves (R233). -/
def Ctx.lineInto (c : Ctx) (key n : Nat) : Line :=
  let l := c.lineOf (key / 128)
  if n = 8 || l.valid &&& wordMask key n = wordMask key n then l else l.filled

/-- The cached value of the word that such a store is made into, where a host write has left it old. -/
def Ctx.oldWord (c : Ctx) (key n : Nat) : Option Word :=
  if isDram key && c.ways != 0 then (c.lineInto key n).old.get? (key / 8) else none

/-- Write at most one word's bytes at a place, as an ordinary store of the context in hand (R233). A word that a host
write has left old in the cache keeps its cached bytes, and goes home whole with the new ones. -/
def State.putStore (s : State) (key : Nat) (bs : List Byte) : State :=
  if isDram key && s.cx.ways != 0 then
    let w := key / 8
    let m := wordMask key bs.length
    let l := s.cx.lineInto key bs.length
    let before := match s.home.get? w with | some x => x | none => s.wordAt w
    let s1 := match s.cx.oldWord key bs.length with
      | some x => s.putShared (w * 8) (intoWord x (key % 8) bs)
      | none => s.putShared key bs
    let l := { l with valid := l.valid ||| m, written := l.written ||| m, perm := true, old := l.old.erase w }
    { s1.useLine l with home := (s1.useLine l).home.set w before }
  else s.putShared key bs

/-- Write back the written words of a line of the context in hand, and keep it or drop it (R210, R234). -/
def State.cleanLine (s : State) (line : Nat) (drop : Bool) : State :=
  match s.cx.l1.data.find? fun m => m.line = line with
  | none => s
  | some l =>
    let s1 := s.settle (lineWords line l.written)
    s1.setLines (if drop then s1.cx.l1.data.filter fun m => m.line != line
      else s1.cx.l1.data.map fun m => if m.line = line then { m with written := 0 } else m)

/-- Write back every written word of the context in hand (R64, R209). -/
def State.cleanAll (s : State) (drop : Bool) : State :=
  let s1 := s.cx.l1.data.foldl (fun s l => s.settle (lineWords l.line l.written)) s
  s1.setLines (if drop then [] else s1.cx.l1.data.map fun m => { m with written := 0 })

/-! ## Event lines, fired by a post (R324, R349) -/

/-- The context waits on a line of a cluster. -/
def Ctx.waitsEvent (c : Ctx) (cl e : Nat) : Bool :=
  c.st.live && !c.st.out && clusterOf c.id.core = cl && c.wait = some (.event e)
/-- The end of an `evwait`: the firing is taken and the context goes on. -/
def Ctx.woken (c : Ctx) (nops : Nat) : Ctx := { c.advanced nops with wait := none }

/-- A firing wakes every waiter of the line, or latches it (R349). -/
def State.fireLine (s : State) (cl e : Nat) : State :=
  if s.ctxs.any fun c => c.waitsEvent cl e then
    s.mapCtxs fun c => if c.waitsEvent cl e then c.woken (s.nopsOf c) else c
  else s.modCluster cl fun u => { u with lines := u.lines ||| (1#32 <<< e) }

/-! ## The dead-letter ring (R67, R324, R325) -/

def ringSize (rrbase : Word) : Nat := rrbase.toNat % 32
def ringBase (rrbase : Word) : Nat := rrbase.toNat / 2 ^ 12 % 2 ^ 45 * 2 ^ 12
def ringValid (rrbase : Word) : Bool := 6 ≤ ringSize rrbase && ringSize rrbase ≤ 16
def Part.entryAddr (p : Part) (i : Nat) : Nat := ringBase p.rrbase + 64 * i
def Part.dataAddr (p : Part) (i : Nat) : Nat := ringBase p.rrbase + 64 * 2 ^ ringSize p.rrbase + 128 * i

/-- An unresolved access posted in slot `i` of a partition's ring. -/
def State.postedAt (s : State) (part i : Nat) : Option (Nat × Bad) :=
  s.bads.find? fun e => e.2.part = part &&
    match e.2.posted with | some n => n % 2 ^ ringSize (s.part part).rrbase = i | none => false

/-- The 64 bytes of an entry (R325). -/
def Bad.entry (b : Bad) (dataAddr seq state : Nat) : List Byte :=
  bytesOfNat 8 b.ctxid.toNat ++ bytesOfNat 8 b.pc.toNat ++ bytesOfNat 8 b.addr.toNat ++
  bytesOfNat 1 b.opk ++ bytesOfNat 1 b.cause ++ bytesOfNat 1 b.dkind ++ bytesOfNat 1 b.dreg ++
  bytesOfNat 1 b.width ++ bytesOfNat 3 0 ++ bytesOfNat 16 b.lmask ++ bytesOfNat 8 dataAddr ++
  bytesOfNat 4 b.aux ++ bytesOfNat 2 seq ++ bytesOfNat 2 state

/-- The translation of a global address for an access of the device on behalf of a partition, which caches nothing. -/
def State.globalPte (s : State) (part va : Nat) : Except Nat Pte :=
  if (s.part part).root = 0 then .error 1
  else match (s.part part).pinned (va / 65536) with
    | some p => .ok p
    | none => s.walk part va

/-- The place of a global address for such an access. -/
def State.globalPlace (s : State) (part va : Nat) (k : Acc) : Except Nat Nat :=
  if isGlobal va then
    match s.globalPte part va with
    | .ok p => s.place part va k p
    | .error e => .error e
  else .error 3

/-- The block of a global address is brought in for such an access. -/
def State.bringGlobal (s : State) (part va : Nat) (k : Acc) : State :=
  if isGlobal va then
    match s.globalPte part va with
    | .ok p => s.bringAt part va k p
    | .error _ => s
  else s

/-- The blocks of `n` bytes from a global address on. -/
def State.bringRange (s : State) (part va n : Nat) (k : Acc) : State :=
  (List.range ((va % 4096 + n + 4095) / 4096)).foldl (fun s i =>
    s.bringGlobal part (if i = 0 then va else (va / 4096 + i) * 4096) k) s

/-- The place of a global address for such an access, its block brought in. -/
def State.reach (s : State) (part va : Nat) (k : Acc) : State × Except Nat Nat :=
  let t := s.bringGlobal part va k
  (t, t.globalPlace part va k)

/-- Bytes at global addresses of a partition as the device reads them, where none of them faults. -/
def State.readGlobal (s : State) (p va : Nat) : Nat → Option (List Byte)
  | 0 => some []
  | n + 1 =>
    let r := s.reach p va .load
    match r.2 with
    | .ok key => (State.readGlobal r.1 p (va + 1) n).map fun t => r.1.mem.read key :: t
    | .error _ => none

/-- Store bytes at global addresses, eight at a time, until one of them faults; whether all of them were stored. -/
def State.storeGlobal (s : State) (part va : Nat) (bs : List Byte) : Nat → State × Bool
  | 0 => (s, true)
  | n + 1 =>
    match bs with
    | [] => (s, true)
    | _ =>
      let r := s.reach part va .store
      match r.2 with
      | .ok key => State.storeGlobal (r.1.putShared key (bs.take 8)) part (va + 8) (bs.drop 8) n
      | .error _ => (r.1, false)

/-- A post that a store of its own has stopped: the data-area bytes written before hold undefined values (R324). -/
def State.postCut (s : State) (part va n : Nat) : State :=
  { (s.storeGlobal part va ((List.range n).map fun i => Config.freeByte (s.free + i)) 16).1 with free := s.free + 128 }

/-- Post one entry (R324): the new state, or whether the ring is absent or unwritable (true) or full (false), with the state
that the attempt leaves. -/
def State.post (s : State) (id : Nat) (b : Bad) : Except (Bool × State) State :=
  let p := s.part b.part
  let i := p.posts % 2 ^ ringSize p.rrbase
  let cut := s.postCut b.part (p.dataAddr i) b.data.length
  if !ringValid p.rrbase then .error (true, s)
  else if (s.postedAt b.part i).isSome then .error (false, s)
  else
    match s.storeGlobal b.part (p.dataAddr i) b.data 16 with
    | (_, false) => .error (true, cut)
    | (s1, true) =>
    match s1.storeGlobal b.part (p.entryAddr i) (b.entry (p.dataAddr i) p.posts 1) 8 with
    | (_, false) => .error (true, cut)
    | (s2, true) =>
      let s3 := { s2.modPart b.part (fun p => { p with posts := p.posts + 1 }) with
                  bads := s2.bads.set id { b with posted := some p.posts }
                  walking := s2.walking.filter fun w => !(w.part = b.part && w.pte.isNone) }
      let n := p.dlnotify
      if n / 2 ^ 31 % 2 = 1 then .ok (s3.fireLine (clusterOf (n % 4096)) (n / 2 ^ 16 % 32)) else .ok s3

/-- `tinfo` of `RRFULL` (R323). -/
def rrInfo (async absent : Bool) (addr : Word) : Word :=
  BitVec.ofNat 64 ((if async then 2 ^ 63 else 0) + (if absent then 2 ^ 62 else 0) + addr.toNat % 2 ^ 57)

/-- Queue a deferred trap for a context (R195). -/
def State.defer (s : State) (cid code : Nat) (info : Word) (at_ : Option Word) : State :=
  s.modCtx cid fun c => { c with st := { c.st with defer := c.st.defer ++ [⟨code, info, at_⟩] } }

/-- The class a faulted access is counted in until it is posted (R68). -/
def Bad.cls (b : Bad) : Option Nat :=
  if !b.counted then none else
  match b.opk with
  | 0 => some 0
  | 1 => some 1
  | 2 => some 0
  | 4 => some 2
  | _ => none

/-- The bit offset that the entry of a decompress fault carries (R241, R325): of the first byte that the entry covers. A
copy's entry gives its landed bytes there instead. -/
def State.streamAt (s : State) (b : Bad) : Nat :=
  let low := (List.range 128).find? fun j => b.lmask.testBit j
  let va := b.addr.toNat + (if b.width = 15 then low.getD 0 else 0)
  match s.globalPte b.part va with
  | .ok p => match s.fetchBlock (p.unit (va / 65536) / 4096 + va % 65536 / 4096) with
    | .error e => e.2
    | .ok _ => 0
  | .error _ => 0

/-- The record of a faulted access with its bit offset, where it has one. -/
def State.withOffset (s : State) (b : Bad) : Bad := if b.cause = 7 && b.opk != 4 then { b with aux := s.streamAt b } else b

/-- Count in a class, if any. -/
def countIn : Option Nat → M Unit
  | some c => count c
  | none => pure ()

/-- Record an entry of a faulted access of the context in hand. One that the address alone decides is posted at issue, and
`RRFULL` is precise; any other is posted by DEAD_LETTER_POST (R324, R326). Answers the entry's number. -/
def record (known : Bool) (b : Bad) : M Nat := do
  let s ← get
  let id := s.nextBad
  let b := s.withOffset b
  let s1 := { s with nextBad := id + 1, bads := s.bads.set id b }
  if known then
    match s1.post id b with
    | .ok s2 => set s2; pure id
    | .error (absent, s2) => throw (.trapWrote cRRFULL (rrInfo false absent b.addr) { s2 with bads := s2.bads.erase id })
  else
    set s1
    pure id

/-- Record a faulted access with its one entry; the access is counted until that is posted. -/
def faulted (known : Bool) (b : Bad) : M Nat := do
  let id ← record known b
  check (!known) (countIn b.cls)
  pure id

/-- The context in hand has no unresolved faulted access (R326). -/
def needResolved : M Unit := do
  let s ← get
  if s.bads.any fun e => e.2.cid = s.cx.cid then stall .faults else pure ()

/-- No atomic of the context is still on its way to its home: what follows it in the single order waits (R244, R425). -/
def needAtomsDone : M Unit := do
  let s ← get
  if s.atoms.any fun e => e.2.cid = s.cx.cid then stall .faults else pure ()

/-- Program order holds for an ordinary access (R244, R326). -/
def needNoFaults : M Unit := do needResolved; needAtomsDone

/-- No load, store, atomic or fetch of the context in hand is unresolved: every ordinary access has its place in the single
order. A copy or a message has none there (R199, R309). -/
def needPlaced : M Unit := do
  let s ← get
  if s.bads.any fun e => e.2.cid = s.cx.cid && e.2.opk ≤ 3 then stall .faults else needAtomsDone

/-- A release (R248): every earlier ordinary access of the context has its place in the single order. Stores have theirs
once the store class is 0, where the instruction waits for that (`stores`). -/
def needReleased (stores : Bool) : M Unit := do
  if stores then needClasses 7 0 7 7 7
  needPlaced

/-- What every record of a faulted access of the context in hand says. -/
def badOf (c : Ctx) (addr : Word) (opk cause dkind dreg width lmask : Nat) (data : List Byte) (aux : Nat) : Bad :=
  { cid := c.cid, part := c.id.part, ctxid := c.ctxid, pc := c.pc, addr := addr, opk := opk, cause := cause,
    dkind := dkind, dreg := dreg, width := width, lmask := lmask, data := data, aux := aux, counted := true, access := none, exch := false, flags := 0,
    atom := none, posted := none }

/-- Record the entries of access `a`; `f` is done with each number. -/
def recordAll (f : Nat → M Unit) (a : Nat) : List (Bool × Bad) → M Unit
  | [] => pure ()
  | (known, b) :: t => do
    let id ← record known { b with access := some a }
    f id
    recordAll f a t

/-- Record a faulted access with its entries; it is counted until all of them are posted (R68). -/
def faultedAll (f : Nat → M Unit) (l : List (Bool × Bad)) : M Unit := do
  recordAll f (← get).nextBad l
  countIn ((l.find? fun e => !e.1).bind fun e => e.2.cls)

/-- The mask of bytes `j` to `j + n - 1`. -/
def byteMask (j n : Nat) : Nat := (2 ^ n - 1) * 2 ^ j

/-! ## Scalar loads and stores (R122, R202) -/

/-- Leave scalar register `d` pending for access `id` (R56). -/
def Regs.pendS (r : Regs) (d id : Nat) : Regs :=
  { r with sPend := r.sPend.set d (r.sPend.getD d [] ++ [id]) }
def Regs.pendV (r : Regs) (d id : Nat) : Regs :=
  { r with vPend := r.vPend.set d (r.vPend.getD d [] ++ [id]) }

/-- Load an aligned element of `n` bytes into `s[d]` through `conv` (R122, R202). `frees` are the operand frees, made
once the address is known to be aligned. -/
def loadS (k : Acc) (d : Nat) (ea : Word) (n width : Nat) (conv : Nat → Word) (frees : M Unit) : M Unit := do
  if ea.toNat % n != 0 then trap cALIGN ea
  needNoFaults
  needRoom 0
  frees
  match ← locate k ea.toNat with
  | .ok key => do
    let v ← readAs k key n
    writeS d (conv v)
    count 0
  | .error cause => do
    writeS d 0
    let c := (← get).cx
    let id ← faulted (addrOnly k ea.toNat cause)
      (badOf c ea 0 cause (if d = 0 then 0 else 1) d width (byteMask 0 n) [] 0)
    check (d != 0) (modRegs fun r => r.pendS d id)
  advance

/-- Store the low `n` bytes of `v` at an aligned address (R122, R202). -/
def storeS (ea : Word) (n width : Nat) (v : Nat) (frees : M Unit) : M Unit := do
  if ea.toNat % n != 0 then trap cALIGN ea
  needNoFaults
  needRoom 1
  frees
  match ← locate .store ea.toNat with
  | .ok key => do
    modify fun s => s.putStore key (bytesOfNat n v)
    count 1
  | .error cause => do
    let c := (← get).cx
    let _ ← faulted (addrOnly .store ea.toNat cause) (badOf c ea 1 cause 0 0 width (byteMask 0 n) (bytesOfNat n v) 0)
  advance

end Sys2Proof.Machine
end

