-- ==== Sys2Proof/Machine/Scalar.lean ====
section
/-! DEFINITION. Page-0 and page-1 scalar arithmetic (R118-R121, R128-R131). -/
namespace Sys2Proof.Machine

/-! ## The arithmetic -/

def bit (b : Bool) : Word := if b then 1 else 0
/-- The low `w` bits of `x`, sign-extended to 64 (R131, R202). -/
def sextW (w : Nat) (x : Word) : Word := (x.truncate w).signExtend 64
/-- The low `w` bits of `x`, zero-extended to 64 (R131, R202). -/
def zextW (w : Nat) (x : Word) : Word := (x.truncate w).zeroExtend 64
/-- A 6-bit shift count (R121, R129). -/
def sh6 (x : Word) : Nat := x.toNat % 64

def mulhS (x y : Word) : Word := BitVec.ofInt 64 ((x.toInt * y.toInt) / 2 ^ 64)
def mulhU (x y : Word) : Word := BitVec.ofNat 64 ((x.toNat * y.toNat) / 2 ^ 64)
def divS (x y : Word) : Word :=
  if y = 0 then BitVec.allOnes 64
  else if x = 0x8000000000000000#64 ∧ y = BitVec.allOnes 64 then x
  else BitVec.ofInt 64 (Int.tdiv x.toInt y.toInt)
def remS (x y : Word) : Word :=
  if y = 0 then x
  else if x = 0x8000000000000000#64 ∧ y = BitVec.allOnes 64 then 0
  else BitVec.ofInt 64 (Int.tmod x.toInt y.toInt)
def divU (x y : Word) : Word := if y = 0 then BitVec.allOnes 64 else BitVec.ofNat 64 (x.toNat / y.toNat)
def remU (x y : Word) : Word := if y = 0 then x else BitVec.ofNat 64 (x.toNat % y.toNat)

/-- Leading zero bits among the low `w` bits of `x`. -/
def clzBits (x : Nat) : Nat → Nat
  | 0 => 0
  | w + 1 => if x.testBit w then 0 else clzBits x w + 1
/-- Trailing zero bits from bit `i`, of `w` bits left. -/
def ctzBits (x i : Nat) : Nat → Nat
  | 0 => 0
  | w + 1 => if x.testBit i then 0 else ctzBits x (i + 1) w + 1
/-- One bits among the low `w` bits of `x`. -/
def popBits (x : Nat) : Nat → Nat
  | 0 => 0
  | w + 1 => popBits x w + (if x.testBit w then 1 else 0)

/-- `bext` (R130): `len` bits from `pos`; bits above 63 read as 0. -/
def bextW (x : Word) (pos len : Nat) : Word := BitVec.ofNat 64 (x.toNat / 2 ^ pos % 2 ^ len)
/-- `bins` (R130): the low `len` bits of `x` at `pos` of `d`; bits past 63 are dropped. -/
def binsW (d x : Word) (pos len : Nat) : Word :=
  let m := BitVec.ofNat 64 ((2 ^ len - 1) * 2 ^ pos)
  (d &&& ~~~m) ||| (BitVec.ofNat 64 (x.toNat % 2 ^ len * 2 ^ pos) &&& m)
/-- `fshr` (R131): the low word of the pair shifted right. -/
def fshrW (a b : Word) (n : Nat) : Word := BitVec.ofNat 64 ((a.toNat * 2 ^ 64 + b.toNat) / 2 ^ n)

/-! ## Shapes -/

/-- One source, one destination. -/
def sOp1 (d : Nat) (a : Src) (f : Word → Word) : M Unit := do
  let x ← readS a
  freeS a
  writeS d (f x)
  advance

/-- Two sources: both are read before either is freed, both freed before the destination is written (R53). -/
def sOp2 (d : Nat) (a b : Src) (f : Word → Word → Word) : M Unit := do
  let x ← readS a
  let y ← readS b
  freeS a
  freeS b
  writeS d (f x y)
  advance

/-- Three sources. -/
def sOp3 (d : Nat) (a b c : Src) (f : Word → Word → Word → Word) : M Unit := do
  let x ← readS a
  let y ← readS b
  let z ← readS c
  freeS a
  freeS b
  freeS c
  writeS d (f x y z)
  advance

/-- An immediate as a word. -/
def immW (i : Int) : Word := BitVec.ofInt 64 i

/-! ## Page 0 (R120, R121) -/

def execAdd (d : Nat) (a b : Src) (s : State) := run (sOp2 d a b (· + ·)) s
def execAddi (d : Nat) (a : Src) (imm : Int) (s : State) := run (sOp1 d a (· + immW imm)) s
def execSub (d : Nat) (a b : Src) (s : State) := run (sOp2 d a b (· - ·)) s
def execAnd (d : Nat) (a b : Src) (s : State) := run (sOp2 d a b (· &&& ·)) s
def execOr (d : Nat) (a b : Src) (s : State) := run (sOp2 d a b (· ||| ·)) s
def execXor (d : Nat) (a b : Src) (s : State) := run (sOp2 d a b (· ^^^ ·)) s
def execSlli (d : Nat) (a : Src) (imm : Nat) (s : State) := run (sOp1 d a (· <<< (imm % 64))) s
def execSrli (d : Nat) (a : Src) (imm : Nat) (s : State) := run (sOp1 d a (· >>> (imm % 64))) s
def execSrai (d : Nat) (a : Src) (imm : Nat) (s : State) := run (sOp1 d a fun x => x.sshiftRight (imm % 64)) s
def execLi (d : Nat) (imm : Int) (s : State) := run (do writeS d (immW imm); advance) s
def execMov (d : Nat) (a : Src) (s : State) := run (sOp1 d a id) s
def execSlt (d : Nat) (a b : Src) (s : State) := run (sOp2 d a b fun x y => bit (x.slt y)) s
def execSltu (d : Nat) (a b : Src) (s : State) := run (sOp2 d a b fun x y => bit (x.ult y)) s
def execSeq (d : Nat) (a b : Src) (s : State) := run (sOp2 d a b fun x y => bit (x == y)) s

/-! ## Page 1 (R129-R131) -/

def execMul (d : Nat) (a b : Src) (s : State) := run (sOp2 d a b (· * ·)) s
def execMulh (d : Nat) (a b : Src) (s : State) := run (sOp2 d a b mulhS) s
def execMulhu (d : Nat) (a b : Src) (s : State) := run (sOp2 d a b mulhU) s
def execDiv (d : Nat) (a b : Src) (s : State) := run (sOp2 d a b divS) s
def execDivu (d : Nat) (a b : Src) (s : State) := run (sOp2 d a b divU) s
def execRem (d : Nat) (a b : Src) (s : State) := run (sOp2 d a b remS) s
def execRemu (d : Nat) (a b : Src) (s : State) := run (sOp2 d a b remU) s
def execSll (d : Nat) (a b : Src) (s : State) := run (sOp2 d a b fun x y => x <<< sh6 y) s
def execSrl (d : Nat) (a b : Src) (s : State) := run (sOp2 d a b fun x y => x >>> sh6 y) s
def execSra (d : Nat) (a b : Src) (s : State) := run (sOp2 d a b fun x y => x.sshiftRight (sh6 y)) s
def execFshr (d : Nat) (a b c : Src) (s : State) := run (sOp3 d a b c fun x y z => fshrW x y (sh6 z)) s
def execClz (d : Nat) (a : Src) (s : State) := run (sOp1 d a fun x => BitVec.ofNat 64 (clzBits x.toNat 64)) s
def execCtz (d : Nat) (a : Src) (s : State) := run (sOp1 d a fun x => BitVec.ofNat 64 (ctzBits x.toNat 0 64)) s
def execPopc (d : Nat) (a : Src) (s : State) := run (sOp1 d a fun x => BitVec.ofNat 64 (popBits x.toNat 64)) s
def execBext (d : Nat) (a : Src) (pos len : Nat) (s : State) := run (sOp1 d a (bextW · pos len)) s
/-- `bins` reads its destination (R130). -/
def execBins (d : Nat) (a : Src) (pos len : Nat) (s : State) :=
  run (sOp2 d a ⟨d, false⟩ fun x old => binsW old x pos len) s
def execMin (d : Nat) (a b : Src) (s : State) := run (sOp2 d a b fun x y => if x.slt y then x else y) s
def execMax (d : Nat) (a b : Src) (s : State) := run (sOp2 d a b fun x y => if y.slt x then x else y) s
def execMinu (d : Nat) (a b : Src) (s : State) := run (sOp2 d a b fun x y => if x.ult y then x else y) s
def execMaxu (d : Nat) (a b : Src) (s : State) := run (sOp2 d a b fun x y => if y.ult x then x else y) s
def execSel (d : Nat) (a b c : Src) (s : State) := run (sOp3 d a b c fun x y z => if z ≠ 0 then x else y) s
def execSext (w d : Nat) (a : Src) (s : State) := run (sOp1 d a (sextW w)) s
def execZext (w d : Nat) (a : Src) (s : State) := run (sOp1 d a (zextW w)) s
def execLea (sh d : Nat) (a b : Src) (s : State) := run (sOp2 d a b fun x y => x + (y <<< sh)) s
def execAndi (d : Nat) (a : Src) (imm : Int) (s : State) := run (sOp1 d a (· &&& immW imm)) s
def execOri (d : Nat) (a : Src) (imm : Nat) (s : State) := run (sOp1 d a (· ||| BitVec.ofNat 64 imm)) s
def execXori (d : Nat) (a : Src) (imm : Nat) (s : State) := run (sOp1 d a (· ^^^ BitVec.ofNat 64 imm)) s

end Sys2Proof.Machine
end

