-- ==== Sys2Proof/Machine/Key.lean ====
section
/-! DEFINITION. Keys (R296-R306): the key table, what an instance holds, the wait rule, `keyq` and `keyrel`, and the
arrival of a release. -/
namespace Sys2Proof.Machine

/-! ## Instances and their nodes -/

def State.nodeOf (s : State) (i : Inst) : Option Node := (s.kernels.get? i.kernel).bind fun k => k.nodes.get? i.node
def State.modInst (s : State) (n : Nat) (f : Inst → Inst) : State := { s with insts := s.insts.modify n f }
def State.modKernel (s : State) (n : Nat) (f : Kernel → Kernel) : State := { s with kernels := s.kernels.modify n f }
/-- The partition of an instance. -/
def State.instPart (s : State) (i : Inst) : Nat := ((s.kernels.get? i.kernel).map (·.part)).getD 0

/-- The partition's service block: its lowest-numbered cluster (R296). -/
def State.serviceCluster (s : State) (p : Nat) : Nat :=
  ((List.range (clusterCount s.variant)).find? fun c => s.partOfCluster c = some p).getD 0

/-! ## Slots (R296-R298) -/

/-- The slot a key maps to (R296). -/
def keySlotOf (k : Nat) : Nat := k * 0x9E3779B1 % 2 ^ 32 / 2 ^ 16
/-- A slot of the table that serves a partition. -/
def State.keyIndex (s : State) (p slot : Nat) : Nat := s.serviceCluster p / 96 * 65536 + slot
def State.keySlot (s : State) (idx : Nat) : KeySlot := s.keytab.getD idx KeySlot.free
def State.modKeySlot (s : State) (idx : Nat) (f : KeySlot → KeySlot) : State :=
  { s with keytab := s.keytab.set idx (f (s.keySlot idx)) }

/-- The key that a node's entry gives an instance (R280). -/
def KeySpec.at (k : KeySpec) (i : Inst) : Nat := ((k.base : Int) + k.xstr * i.x + k.ystr * i.y) % 2 ^ 32 |>.toNat

/-- Add a slot to a set of requests, exclusive if either is (R298). -/
def addSlot (l : List (Nat × Bool)) (slot : Nat) (excl : Bool) : List (Nat × Bool) :=
  if l.any fun e => e.1 = slot then l.map fun e => if e.1 = slot then (e.1, e.2 || excl) else e
  else l ++ [(slot, excl)]

/-- The slots an instance needs, each once with its mode (R298). -/
def State.slotsOf (s : State) (i : Inst) : List (Nat × Bool) :=
  match s.nodeOf i with
  | none => []
  | some n => n.keys.foldl (fun l k => addSlot l (s.keyIndex (s.instPart i) (keySlotOf (k.at i))) (!k.shared)) []

/-- A request is compatible with a slot (R297). -/
def KeySlot.allows (k : KeySlot) (inst : Nat) (excl : Bool) : Bool :=
  (match k.owner with | some o => o = inst | none => true) &&
    (if excl then k.excl.isNone && k.shared.isEmpty else k.excl.isNone && k.shared.length < 255)

/-- All slots of an instance are compatible with it. -/
def State.keysFree (s : State) (n : Nat) (i : Inst) : Bool :=
  (s.slotsOf i).all fun e => (s.keySlot e.1).allows n e.2

/-- Take a slot (R299): a reservation of the instance becomes its holding. -/
def KeySlot.take (k : KeySlot) (inst : Nat) (excl : Bool) : KeySlot :=
  if excl then { k with excl := some inst, owner := none } else { k with shared := k.shared ++ [inst], owner := none }
/-- One instance's holding leaves a slot (R299). -/
def KeySlot.leave (k : KeySlot) (inst : Nat) : KeySlot :=
  { k with shared := k.shared.erase inst, excl := if k.excl = some inst then none else k.excl }
/-- A reservation ends without a holding (R299). -/
def KeySlot.unreserve (k : KeySlot) (inst : Nat) : KeySlot :=
  { k with owner := if k.owner = some inst then none else k.owner }

/-- All slots of an instance are acquired in one step (R300). -/
def State.acquireKeys (s : State) (n : Nat) (i : Inst) : State :=
  let s1 := (s.slotsOf i).foldl (fun s e => s.modKeySlot e.1 fun k => k.take n e.2) s
  s1.modInst n fun i => { i with held := List.range ((s.nodeOf i).map (·.keys.length) |>.getD 0), reserved := false }

/-- The key-table slot of key `idx` of an instance. -/
def State.slotOfKey (s : State) (i : Inst) (idx : Nat) : Option Nat :=
  (s.nodeOf i).bind fun n => n.keys[idx]?.map fun k => s.keyIndex (s.instPart i) (keySlotOf (k.at i))

/-- Key `idx` of an instance is marked released; the last key of its slot sends the release on its way (R298, R304). -/
def State.releaseKey (s : State) (n idx : Nat) : State :=
  match s.insts.get? n with
  | none => s
  | some i =>
    if !i.held.contains idx then s
    else
      let rest := i.held.erase idx
      let s1 := s.modInst n fun i => { i with held := rest }
      match s.slotOfKey i idx with
      | none => s1
      | some sl =>
        if rest.any fun j => s.slotOfKey i j = some sl then s1
        else { s1 with krels := s1.krels.set s1.nextPkt (n, sl), nextPkt := s1.nextPkt + 1 }

/-- An instance's keys are released (R300). -/
def State.releaseKeys (s : State) (n : Nat) : State := [0, 1, 2, 3].foldl (fun s i => s.releaseKey n i) s

/-- An instance that is dropped or killed before it acquired: its reservation ends (R299). -/
def State.unreserve (s : State) (n : Nat) : State :=
  match s.insts.get? n with
  | none => s
  | some i => ((s.slotsOf i).foldl (fun s e => s.modKeySlot e.1 fun k => k.unreserve n) s).modInst n fun i =>
      { i with reserved := false }

/-! ## The wait rule (R303) -/

def State.holdsKeys (s : State) (c : Ctx) : Bool :=
  match s.insts.get? c.id.inst with
  | some i => !i.held.isEmpty
  | none => false

/-- A forbidden wait of a key holder: `KEYWAIT`, counted (R302, R303). -/
def keyWait {α : Type} (page : Nat) (i : Instr) : M α := do
  modify fun s => s.modPart s.cx.id.part fun p => { p with kwtrap := (p.kwtrap + 1) % 2 ^ 64 }
  trapIn cKEYWAIT (opInfo page i)

/-- The instruction may not wait here while a key is held. -/
def needNoKeys (page : Nat) (i : Instr) : M Unit := do
  let s ← get
  if s.holdsKeys s.cx then keyWait page i else pure ()

/-! ## `keyq` and `keyrel` (R304, R305) -/

/-- The slot word (R305). -/
def State.slotWord (s : State) (idx : Nat) (held : Bool) : Word :=
  let k := s.keySlot idx
  let st := if k.owner.isSome then 3 else if k.excl.isSome then 2 else if k.shared.isEmpty then 0 else 1
  BitVec.ofNat 64 (idx % 65536 * 2 ^ 24 + (if held then 2 ^ 16 else 0) + k.shared.length % 256 * 2 ^ 8 +
    (if k.excl.isSome then 8 else 0) + st)

/-- The instance of the context in hand, where it names a key of its node. -/
def needKeyIdx (idx : Nat) : M Inst := do
  let s ← get
  match s.insts.get? s.cx.id.inst with
  | none => illop 0x08 0
  | some i =>
    if idx < ((s.nodeOf i).map (·.keys.length)).getD 0 then pure i else illop 0x08 0

def execKeyqOwn (d idx : Nat) (s : State) := run (do
  notInDrain
  let i ← needKeyIdx idx
  let s ← get
  writeS d (s.slotWord ((s.slotOfKey i idx).getD 0) (i.held.contains idx))
  advance) s

def execKeyqId (d : Nat) (a : Src) (s : State) := run (do
  notInDrain
  let x ← readS a
  let s ← get
  freeS a
  writeS d (s.slotWord (s.keyIndex s.cx.id.part (keySlotOf (x.toNat % 2 ^ 32))) false)
  advance) s

def execKeyrel (idx : Nat) (s : State) := run (do
  notInDrain
  let _ ← needKeyIdx idx
  needReleased true
  modify fun s => s.releaseKey s.cx.id.inst idx
  advance) s

end Sys2Proof.Machine
end

