-- ==== Sys2Proof/Machine/Flit.lean ====
section
/-! DEFINITION. Flits (R397-R399): their fields and check, the credits of the virtual lanes, the replay buffer, and the traffic
that crosses stack bridges. -/
namespace Sys2Proof.Machine

def State.link (s : State) (l : Nat) : Link := s.links.getD l Link.fresh
def State.modLink (s : State) (l : Nat) (f : Link → Link) : State := { s with links := s.links.set l (f (s.link l)) }

/-! ## The fields of a flit (R397) -/

/-- One step of the CRC-64 of ECMA-182. -/
def flitCrcBit (c : BitVec 64) : BitVec 64 := if c.getLsbD 63 then (c <<< 1) ^^^ 0x42F0E1EBA9EA3693#64 else c <<< 1
def flitCrcByte (c : BitVec 64) (b : Nat) : BitVec 64 :=
  [0, 1, 2, 3, 4, 5, 6, 7].foldl (fun c _ => flitCrcBit c) (c ^^^ (BitVec.ofNat 64 (b % 256) <<< 56))
def crc64 (bs : List Nat) : BitVec 64 := bs.foldl flitCrcByte 0

/-- A number of the flit's bytes, little-endian (R39). -/
def flitNat : List Nat → Nat
  | [] => 0
  | b :: t => b % 256 + 256 * flitNat t
def flitField (f : List Nat) (hi lo : Nat) : Nat := flitNat (f.take 8) / 2 ^ lo % 2 ^ (hi + 1 - lo)
def flitCrcOk (f : List Nat) : Bool := f.length = 256 && flitNat (f.drop 248) = (crc64 (f.take 248)).toNat
def flitSeq (f : List Nat) : Nat := flitField f 43 32
def flitType (f : List Nat) : Nat := flitField f 51 48
/-- The payload bytes in use. -/
def flitPay (f : List Nat) : List Nat := (f.drop 8).take (flitField f 15 0)
def natBytes (n v : Nat) : List Nat := (bytesOfNat n v).map (·.toNat)

/-! ## Sending (R398, R399) -/

/-- Receive credits of a virtual lane (R398). -/
def vlCredits : Tab Nat := [(0, 64), (1, 64), (2, 32), (3, 8)]

/-- A link in state UP or DEGRADED, which carries traffic. -/
def Link.up (k : Link) : Bool := k.st = 5 || k.st = 6

/-- The lane whose credits the next flit on lane `vl` returns: its own, or one that is owed some. -/
def Link.owedLane (k : Link) (vl : Nat) : Nat :=
  (([vl, 0, 1, 2, 3] : List Nat).find? fun v => k.owed.getD v 0 != 0).getD vl

/-- The 256 bytes of a flit: virtual lane, type and payload, with the credits it returns (R397). -/
def Link.flit (k : Link) (vl ty : Nat) (pay : List Nat) : List Nat :=
  let cvl := k.owedLane vl
  let h := min 255 (k.owed.getD cvl 0) * 2 ^ 56 + cvl * 2 ^ 54 + vl * 2 ^ 52 + ty * 2 ^ 48 + k.txseq % 4096 * 2 ^ 32 +
    (k.rxseq + 4095) % 4096 * 2 ^ 16 + pay.length
  let body := natBytes 8 h ++ pay ++ List.replicate (240 - pay.length) 0
  body ++ natBytes 8 (crc64 body).toNat

/-- The credits that the next flit on a lane returns are no longer owed. -/
def Link.returned (k : Link) (vl : Nat) : Link :=
  let cvl := k.owedLane vl
  { k with owed := k.owed.set cvl (k.owed.getD cvl 0 - min 255 (k.owed.getD cvl 0)) }

/-- A flit may leave on a lane: there is a credit, and room in the replay buffer of 256 flits. -/
def Link.maySend (k : Link) (vl : Nat) : Bool := k.credits.getD vl 0 != 0 && k.sent.length < 256

/-- A flit leaves: it takes a credit, and stays in the replay buffer until it is acknowledged. -/
def Link.send (k : Link) (vl ty : Nat) (pay : List Nat) : Link :=
  { k.returned vl with sent := k.sent ++ [k.flit vl ty pay], txseq := (k.txseq + 1) % 4096,
                       credits := k.credits.set vl (k.credits.getD vl 0 - 1) }

/-- An ACKSEQ from the peer: flits up to it leave the replay buffer, and naks count anew on an advance. -/
def Link.acks (k : Link) (seq : Nat) : Link :=
  match k.sent.findIdx? fun f => flitSeq f = seq with
  | some i => { k with sent := k.sent.drop (i + 1), acked := seq, naks := 0 }
  | none => k

/-- Credits returned by the peer. -/
def Link.credited (k : Link) (vl n : Nat) : Link := { k with credits := k.credits.set vl (k.credits.getD vl 0 + n) }

/-- The far end of a bridge has passed the oldest flit on: it is acknowledged, and its credit is back. -/
def Link.passedOn (k : Link) : Link :=
  match k.sent with
  | [] => k
  | f :: _ => (k.acks (flitSeq f)).credited (flitField f 53 52) 1

/-- A time flit of each side (R401): the peer's acknowledges all that was sent before it, and returns the credit. -/
def Link.exchanged (k : Link) : Link :=
  let r := k.returned 3
  { r with sent := [], acked := k.txseq, naks := 0, txseq := (k.txseq + 1) % 4096, rxseq := (k.rxseq + 1) % 4096,
           owed := r.owed.set 3 (r.owed.getD 3 0 + 1) }

/-! ## What crosses links -/

/-- A payload that the spec does not lay out: free values, and as many as it may hold (R397). -/
def freePay (free : Nat) : List Nat := (List.range (Config.freePick free % 241)).map fun i => (Config.freeByte (free + 1 + i)).toNat

/-- The bridges that traffic from one stack to another crosses. -/
def State.crossed (s : State) (a b : Nat) : List Nat := if a = b then [] else (s.wayTo a b).getD []

/-- A flit leaves on each of a list of links; none where one of them has no credit or no room for it. -/
def State.flitsOn (s : State) (vl ty : Nat) : List Nat → Option State
  | [] => some s
  | l :: t =>
    if !(s.link l).maySend vl then none
    else State.flitsOn ({ s with free := s.free + 241 }.modLink l fun k => k.send vl ty (freePay s.free)) vl ty t

/-- A request of one stack to another crosses the bridges between them on virtual lane 0 (R398). -/
def State.request (s : State) (a b : Nat) : Option State := s.flitsOn 0 1 (s.crossed a b)

/-- Traffic asks a link for a flit: a request, a response or a time flit on its lane waits there until it may leave; a link
that is DOWN or FAILED takes none. -/
def State.askFlit (s : State) (l vl ty : Nat) (pay : List Nat) : State :=
  if l < 12 && s.carries l && [(0, 1), (1, 2), (3, 5)].contains (vl, ty) && pay.length ≤ 240 then
    s.modLink l fun k => { k with queue := k.queue ++ [(vl, ty, pay)] }
  else s

/-- The oldest waiting flit that may leave does: a lane without a credit waits by itself (R398). -/
def State.sendFlit (s : State) (l : Nat) : State :=
  let k := s.link l
  let may (e : Nat × Nat × List Nat) : Bool := (k.up || (k.st = 4 && e.1 = 3)) && k.maySend e.1
  match k.queue.find? may with
  | none => s
  | some e => s.modLink l fun k => { k.send e.1 e.2.1 e.2.2 with queue := k.queue.erase e }

/-- An idle or ack flit leaves: it takes no credit and no place in sequence, and returns credits. -/
def State.sendIdle (s : State) (l : Nat) : State := if (s.link l).up then s.modLink l fun k => k.returned 0 else s

end Sys2Proof.Machine
end

