-- ==== Sys2Proof/Machine/Barrier.lean ====
section
/-! DEFINITION. The event unit of a cluster (R340-R350): barriers, event lines, timed waits, and the events that reach it
from other clusters. -/
namespace Sys2Proof.Machine

/-! ## Barriers (R340-R344) -/

def State.barrier (s : State) (cl n : Nat) : Barrier := (s.cluster cl).bars.getD n Barrier.undef
def State.modBarrier (s : State) (cl n : Nat) (f : Barrier → Barrier) : State :=
  s.modCluster cl fun u => { u with bars := u.bars.set n (f (u.bars.getD n Barrier.undef)) }
/-- The cluster of the context in hand. -/
def State.myCluster (s : State) : Nat := clusterOf s.cx.id.core

/-- The identity of a reduction (R340): 0 `and`, 1 `or`, 2 `sum`, 3 `pop`. -/
def barIdentity (op : Nat) : Nat := if op = 0 then 0xFFFFFFFF else 0
def barReduce (op acc v : Nat) : Nat :=
  match op with
  | 0 => acc &&& v
  | 1 => acc ||| v
  | 2 => (acc + v) % 2 ^ 64
  | _ => (acc + popBits v 32) % 2 ^ 64

/-- STATE of R348: 0 UNDEF, 1 OPEN, 2 GATHERING, 3 BYTES, 4 BROKEN. -/
def Barrier.state (b : Barrier) : Nat :=
  if !b.defd then 0 else if b.broken then 4 else if b.arr = b.cnt then 3 else if b.arr = 0 then 1 else 2

/-- One completion (R341). -/
def Barrier.complete (b : Barrier) : Barrier :=
  { b with result := b.acc, ph := (b.ph + 1) % 2 ^ 16, arr := b.early, acc := b.eacc, early := 0,
           eacc := barIdentity b.op }
/-- The phase completes where it may. -/
def Barrier.settled (b : Barrier) : Barrier :=
  if b.defd && !b.broken && b.arr = b.cnt && b.pend = 0 then b.complete else b

/-- An arrival that need not wait (R347): the barrier after it, and its phase. -/
def Barrier.arrive (b : Barrier) (v : Nat) : Barrier × Nat :=
  if b.state = 3 then
    ({ b with early := b.early + 1, eacc := barReduce b.op b.eacc v }, (b.ph + 1) % 2 ^ 16)
  else ({ b with arr := (b.arr + 1) % 256, acc := barReduce b.op b.acc v }.settled, b.ph)

/-- An arrival must wait (R343). -/
def Barrier.full (b : Barrier) : Bool := b.state = 3 && b.early = b.cnt

/-- `done` (R347). -/
def Barrier.done (b : Barrier) (p : Nat) : Bool :=
  let d := (b.ph + 2 ^ 16 - p % 2 ^ 16) % 2 ^ 16
  1 ≤ d && d ≤ 32767

/-- `k` engine bytes land (R344): the context that issued the operation takes a deferred `BARUF` on underflow. -/
def State.landBytes (s : State) (cl n k cid : Nat) : State :=
  let b := s.barrier cl n
  if !b.defd then s.defer cid cBARUF (BitVec.ofNat 64 n) none
  else if b.pend < k then
    (s.modBarrier cl n fun b => { b with pend := 0, broken := true }).defer cid cBARUF (BitVec.ofNat 64 n) none
  else s.modBarrier cl n fun b => { b with pend := b.pend - k }.settled

/-- A phase completes (R341): also the next one, where every arrival of it was early. -/
def execBarrierPhaseComplete (cl n : Nat) (s : State) : Host.Outcome State Fault Refusal :=
  .next (s.modBarrier cl n Barrier.settled)

/-! ## Barrier instructions (R346-R348) -/

/-- `ILLOP` of a barrier (R343). -/
def barIllop {α : Type} (n reason : Nat) : M α := illop 0x0C (n % 16 * 16 + reason)

/-- The barrier, which must be defined. -/
def needBarrier (n : Nat) : M Barrier := do
  let s ← get
  let b := s.barrier s.myCluster n
  if b.defd then pure b else barIllop n 1

/-- The context's instance is not the one that defined the barrier, and holds a key (R303). -/
def needOwnBarrier (b : Barrier) (i : Instr) : M Unit := do
  let s ← get
  if s.holdsKeys s.cx && b.grp != some s.cx.id.inst then keyWait 8 i else pure ()

/-- A context waits on the barrier: one whose phase is done or whose time has come, or that there is room for, waits no
more (R319, R347). -/
def State.barWaited (s : State) (cl n : Nat) : Bool :=
  s.ctxs.any fun c => clusterOf c.id.core = cl && !c.st.out &&
    match c.wait with
    | some (.barrier m p t) => m = n && !(s.barrier cl n).done p && !(t.any fun t => t ≤ s.time)
    | some (.early m) => m = n && (s.barrier cl n).full
    | _ => false

def execBardef (n : Nat) (a : Src) (s : State) := run (do
  notInDrain
  let x ← readS a
  if x.toNat / 2 ^ 10 != 0 || x.toNat % 256 = 0 then barIllop n 4
  let s ← get
  let st := (s.barrier s.myCluster n).state
  if st = 2 || st = 3 || s.barWaited s.myCluster n then barIllop n 2
  freeS a
  let op := x.toNat / 256 % 4
  modify fun s => s.modBarrier s.myCluster n fun b =>
    { Barrier.undef with defd := true, cnt := x.toNat % 256, op := op, ph := b.ph, acc := barIdentity op,
                         eacc := barIdentity op, result := 0, grp := some s.cx.id.inst }
  advance) s

/-- Make an arrival and answer its phase; it waits where it must (R343, R347). -/
def arriveAt (n v : Nat) : M Nat := do
  let s ← get
  let b := s.barrier s.myCluster n
  if b.full then stall (.early n)
  let r := b.arrive v
  set (s.modBarrier s.myCluster n fun _ => r.1)
  pure r.2

/-- The record of an arrival that the `bar` in issue has made. -/
def Ctx.madeArrival (c : Ctx) (n : Nat) : Option Arrived :=
  c.st.arrived.find? fun a => a.sup = c.sup && a.pc = c.pc && a.upc = c.micro.map (·.upc) && a.n = n

def dropArrival (c : Ctx) : Ctx := { c with st := { c.st with arrived := c.st.arrived.filter fun a => a.sup != c.sup } }
def addArrival (n p : Nat) (c : Ctx) : Ctx :=
  { c with st := { c.st with arrived := ⟨c.sup, c.pc, c.micro.map (·.upc), n, p⟩ :: c.st.arrived } }

/-- Wait for a phase with the state as it is. -/
def needPhase (n p : Nat) : M Unit := do
  let s ← get
  if (s.barrier s.myCluster n).done p then pure () else stallIn (.barrier n p none)

def execBar (rel : Bool) (n : Nat) (a : Src) (s : State) := run (do
  notInDrain
  match s.cx.madeArrival n with
  | some r => do
    let b ← needBarrier n
    if !b.done r.phase then needOwnBarrier b (.bar rel n a)
    needPhase n r.phase
    modCx dropArrival
    advance
  | none => do
    let b ← needBarrier n
    needOwnBarrier b (.bar rel n a)
    let x ← readS a
    if rel || s.cx.st.fenced then needReleased true
    freeS a
    let p ← arriveAt n (x.toNat % 2 ^ 32)
    modCx (addArrival n p)
    needPhase n p
    modCx dropArrival
    advance) s

def execBarv (d n : Nat) (s : State) := run (do
  notInDrain
  let s ← get
  writeS d (BitVec.ofNat 64 (s.barrier s.myCluster n).result)
  advance) s

def execBararr (rel : Bool) (d n : Nat) (b : Src) (s : State) := run (do
  notInDrain
  let u ← needBarrier n
  if u.full then needOwnBarrier u (.bararr rel d n b)
  let x ← readS b
  if rel || s.cx.st.fenced then needReleased true
  freeS b
  let p ← arriveAt n (x.toNat % 2 ^ 32)
  writeS d (BitVec.ofNat 64 p)
  advance) s

def execBarw (d n : Nat) (b : Src) (s : State) := run (do
  notInDrain
  let u ← needBarrier n
  needOwnBarrier u (.barw d n b)
  let x ← readS b
  if !u.done (x.toNat % 2 ^ 16) then stall (.barrier n (x.toNat % 2 ^ 16) none)
  freeS b
  writeS d 0
  advance) s

def execBarwT (d n : Nat) (b c : Src) (s : State) := run (do
  notInDrain
  let u ← needBarrier n
  needOwnBarrier u (.barwT d n b c)
  let x ← readS b
  let t ← readS c
  let now := (← get).time
  if !u.done (x.toNat % 2 ^ 16) && now < t.toNat then stall (.barrier n (x.toNat % 2 ^ 16) (some t.toNat))
  freeS b
  freeS c
  writeS d (if u.done (x.toNat % 2 ^ 16) then 0 else 1)
  advance) s

def execBartx (n : Nat) (a : Src) (s : State) := run (do
  notInDrain
  let b ← needBarrier n
  let x ← readS a
  if x.toNat / 2 ^ 48 != 0 || 2 ^ 48 ≤ b.pend + x.toNat then barIllop n 3
  freeS a
  modify fun s => s.modBarrier s.myCluster n fun b => { b with pend := b.pend + x.toNat }
  advance) s

/-- The status word (R348). -/
def Barrier.word (b : Barrier) : Word :=
  BitVec.ofNat 64 (b.ph * 2 ^ 48 + b.arr * 2 ^ 40 + b.early * 2 ^ 32 + b.cnt * 2 ^ 24 + b.op * 2 ^ 16 + b.state)

def execBarst (pend : Bool) (d n : Nat) (s : State) := run (do
  notInDrain
  let s ← get
  let b := s.barrier s.myCluster n
  writeS d (if pend then BitVec.ofNat 64 b.pend else b.word)
  advance) s

/-! ## Event lines (R349, R350) -/

def execEvwait (e : Nat) (s : State) := run (do
  notInDrain
  needNoKeys 8 (.evwait e)
  let s ← get
  if (s.cluster s.myCluster).lines.getLsbD e then do
    modify fun s => s.modCluster s.myCluster fun u => { u with lines := u.lines &&& ~~~(1#32 <<< e) }
    advance
  else stall (.event e)) s

def execEvsig (e : Nat) (s : State) := run (do
  notInDrain
  needReleased true
  advance
  modify fun s => s.fireLine s.myCluster e) s

/-- Checks of the target word of `evsig.rmt` (R349). -/
def targetBad (x : Nat) : Bool :=
  let kind := x / 2 ^ 31 % 2
  x / 2 ^ 32 != 0 || x / 2 ^ 21 % 2 ^ 9 != 0 || x / 2 ^ 12 % 16 != 0 || (x / 2 ^ 30 % 2 = 1 && kind = 0) ||
    (kind = 1 && 16 ≤ x / 2 ^ 16 % 32)

def execEvsigRmt (a b : Src) (s : State) := run (do
  notInDrain
  let x ← readS a
  let y ← readS b
  let t := x.toNat
  if targetBad t then barIllop (t / 2 ^ 16) 4
  if !coreExists s.variant (t % 4096) then trap cUNITABSENT (opInfo 8 (.evsigRmt a b))
  if t / 2 ^ 30 % 2 = 0 then needReleased true
  needWay none (coreStack (t % 4096))
  freeS a
  freeS b
  modify fun s =>
    { s.modCore s.cx.id.core (fun c => { c with sent := c.sent + 1 }) with
      events := s.events.set s.nextPkt
        { part := s.cx.id.part, src := s.cx.cid, srcCore := s.cx.id.core, cl := clusterOf (t % 4096),
          barrier := t / 2 ^ 31 % 2 = 1, num := t / 2 ^ 16 % 32, payload := y.toNat % 2 ^ 32, ctxid := s.cx.ctxid,
          pc := s.cx.pc, target := x }
      nextPkt := s.nextPkt + 1 }
  advance) s

/-- The dead-letter record of an event or message that finds no receiver (R225, R343, R349); what the spec does not say
of it is left free. -/
def packetBad (free src part : Nat) (ctxid pc addr : Word) (cause : Nat) (data : List Byte) : Bad :=
  { cid := src, part := part, ctxid := ctxid, pc := pc, addr := addr, opk := 5, cause := cause, dkind := 0, dreg := 0,
    width := Config.freePick free % 16, lmask := Config.freePick (free + 1) % 2 ^ 128, data := data, aux := 0,
    counted := false, access := none, exch := false, flags := 0, atom := none, posted := none }

/-- Record a faulted access that no context in hand is responsible for; DEAD_LETTER_POST posts it. -/
def State.addBad (s : State) (b : Bad) : State :=
  { s with nextBad := s.nextBad + 1, bads := s.bads.set s.nextBad b, free := s.free + 2 }

/-- An `evsig.rmt` reaches the target's event unit (R343, R349): while its barrier is full it waits in the router. -/
def execRemoteEventArrival (n : Nat) (s : State) : Host.Outcome State Fault Refusal :=
  match s.events.get? n with
  | none => .next s
  | some e =>
    if !s.issues e.part || !s.openWay (coreStack e.srcCore) (e.cl / 96) then .next s
    else match s.request (coreStack e.srcCore) (e.cl / 96) with
    | none => .next s
    | some t =>
    let s1 := { t with events := t.events.erase n }
    let s1 := s1.modCore (if s.partOfCluster e.cl = some e.part then computeCore e.cl 0 else e.srcCore) fun c => { c with recv := c.recv + 1 }
    let bad (cause : Nat) := s1.addBad (packetBad s1.free e.src e.part e.ctxid e.pc e.target cause [])
    if s.partOfCluster e.cl != some e.part then .next (bad 2)
    else if (s.cluster e.cl).gate = 2 then .next (bad 4)
    else if !e.barrier then .next (s1.fireLine e.cl e.num)
    else
      let b := s.barrier e.cl e.num
      if !b.defd then .next (bad 2)
      else if b.full then .next s
      else .next (s1.modBarrier e.cl e.num fun _ => (b.arrive e.payload).1)

def execTmwait (d : Nat) (a : Src) (s : State) := run (do
  notInDrain
  let x ← readS a
  let now := (← get).time
  if now < x.toNat then stall (.time x.toNat)
  freeS a
  writeS d (BitVec.ofNat 64 now)
  modify fun s => { s with timeRead := true }
  advance) s

end Sys2Proof.Machine
end

