-- ==== Sys2Proof/Machine/Issue.lean ====
section
/-! DEFINITION. The issue of one instruction (R113, R319, R320, R321): cycles, the traps of the instruction boundary,
fetch with translation, decoding, and the micro-operations of a control-store slot (R143). -/
namespace Sys2Proof.Machine

/-! ## Cycles (R63, R113, R137, R188) -/

/-- `budget` after `n` core cycles at user level (R63); the greatest value is no limit (R278). It is the current value that
says so, also one that a supervisor has written into a running slice (DESIGN CHOICE, notes/assumptions/24.md). -/
def countDown (b : Word) (n : Nat) : Word :=
  if b.toNat = 2 ^ 32 - 1 then b else BitVec.ofNat 64 (b.toNat - n)

/-- A context that holds a slot of the core through `n` cycles. -/
def Ctx.passed (c : Ctx) (core n : Nat) : Ctx :=
  if c.id.core != core || c.st.out then c
  else match c.drain with
    | some d => { c with drain := some { d with cycles := d.cycles + n } }
    | none => if c.sup then c else { c with c := { c.c with budget := countDown c.c.budget n } }

/-- `n` cycles of a core pass. -/
def State.cycles (s : State) (core n : Nat) : State :=
  (s.modCore core fun c => { c with cyc := (c.cyc + n) % 2 ^ 64 }).mapCtxs (Ctx.passed · core n)

/-- The cycles since the last issue of a core: what the last instruction cost, and what the spec leaves open. -/
def State.charged (s : State) (core : Nat) : State :=
  { (s.cycles core ((s.core core).owed + Config.freeStall s.free)).modCore core (fun c => { c with owed := 0 }) with free := s.free + 1 }

/-- The cycles of an issue: one, and one more where the halfwords straddle a 64-byte boundary (R113). -/
def issueCost (pc len : Nat) : Nat := if pc / 64 = (pc + 2 * len - 1) / 64 then 1 else 2

/-- A micro-operation, whose halfwords the control store holds, issues in one (R143). -/
def Ctx.issueCost (c : Ctx) (len : Nat) : Nat := if c.micro.isSome then 1 else Machine.issueCost c.pc.toNat len

/-! ## Room for a message (R225, R226) -/

/-- The context that a receiver word names: its partition's context with that SERIAL. -/
def msgTo (part : Nat) (rcv : Word) : Nat := part * 2 ^ 24 + rcv.toNat / 2 ^ 16 % 2 ^ 24
/-- Messages on their way to a context. -/
def State.msgsTo (s : State) (cid : Nat) : Nat := (s.msgs.filter fun m => m.2.dst = cid).length
/-- Messages of a context in the overflow region. -/
def Part.movedFor (p : Part) (cid : Nat) : List (Nat × List Byte) := p.moved.filter fun m => m.1 = cid
/-- A place can take one more message for a receiver: its queue or the overflow region, or its inbox while it is out. A
message to no live context needs none. -/
def State.roomFor (s : State) (part : Nat) (rcv : Word) : Bool :=
  match s.ctx? (msgTo part rcv) with
  | none => true
  | some c =>
    let n := s.msgsTo (msgTo part rcv)
    if c.st.out then c.st.inbox.length + n < 64
    else c.st.queue.length + n < 16 ||
      ((s.part part).movbase != 0 && (s.part part).moved.length + n < (s.part part).movslots)

/-! ## The instruction boundary -/

/-- A live context that holds its slot, in a partition that issues. -/
def State.running? (s : State) (cid : Nat) : Option Ctx := (s.ctx? cid).filter fun c => !c.st.out && s.issues c.id.part

/-- A context may issue (R319, R320, R332, R333): it holds a slot, its partition issues, and a drain run has not ended; a
waiting `msend` waits until there is room. While a halt-tree stop is on its way only user-level contexts may still issue. -/
def State.mayGo (s : State) (c : Ctx) : Bool :=
  c.st.live && !c.st.out && (s.issues c.id.part || ((s.part c.id.part).pstate = 4 && !c.sup)) &&
    (match c.drain with
    | some d => d.done.isNone && d.trapped.isNone
    | none => true) &&
    match c.wait with
    | some (.msgRoom _ rcv) => s.roomFor c.id.part rcv
    | _ => true
/-- The context in hand may issue. -/
def State.mayIssue (s : State) : Bool := s.mayGo s.cx

/-! ## The order of issue (R320) -/

/-- A wait for room that is there is over. -/
def Wait.over : Wait → Bool
  | .msgRoom _ _ => true
  | _ => false

/-- The contexts of a core whose instruction is ready to issue. -/
def State.readyOn (s : State) (core : Nat) : List Ctx :=
  s.ctxs.filter fun c => c.id.core = core && s.mayGo c && c.wait.all Wait.over

/-- Before another context in the order of R320: the drain slot, then the one whose last issue lies furthest back, then the
lower slot. -/
def Ctx.first (a b : Ctx) : Bool :=
  let key (c : Ctx) := [if c.id.slot = 4 then 0 else 1, c.st.last, c.id.slot]
  decide (key a < key b)

/-- A context of the same core is ready and comes before this one. -/
def State.passedOver (s : State) (c : Ctx) : Bool := (s.readyOn c.id.core).any fun d => d.first c

/-- The context that issues: the first in order of those that are ready. -/
def State.issuer (s : State) (core : Nat) : Option Nat := ((s.readyOn core).find? fun c => !s.passedOver c).map Ctx.cid

/-- An operand or the unit of the next instruction is not there yet; CONTEXT_WAIT_END ends that. -/
def State.notReady (s : State) (cid : Nat) : State :=
  match s.running? cid with
  | some c => if c.wait.isNone then s.modCtx cid fun c => { c with wait := some .latency } else s
  | none => s

/-- What is left of a turn in which the instruction was not ready: the state as before it, a wait, and the age (R320). -/
def ageKept (v : State) (last : Nat) : Host.Outcome State Fault Refusal → Host.Outcome State Fault Refusal
  | .next u =>
    if u.cx.wait.isSome && u = { v with cx := { v.cx with wait := u.cx.wait } } then
      .next { u with cx := { u.cx with st := { u.cx.st with last := last } } }
    else .next u
  | o => o

/-- The trap that the boundary brings, if any: the oldest deferred trap at user level (R195, R321), then `BUDGET` (R63);
in the drain slot the limit of a run (R188). -/
def State.boundary (s : State) : Option State :=
  match s.cx.drain with
  | some d => if 4096 ≤ d.cycles then some (takeTrap s cBUDGET 0) else none
  | none =>
    if s.cx.sup then none
    else match s.cx.st.defer with
      | f :: t =>
        let c := { s.cx with st := { s.cx.st with defer := t } }
        some (takeTrapAt { s with cx := c } f.code f.info (f.at_.getD c.pc))
      | [] => if s.cx.c.budget = 0 then some (takeTrap s cBUDGET 0) else none

/-! ## Fetch and decode -/

/-- What is found at the pc. -/
inductive Ready where
  /-- No instruction issues: the state goes on as given. -/
  | done (s : State)
  /-- An instruction is ready; `len` is its length in halfwords. -/
  | instr (i : Instr) (len : Nat) (s : State)

/-- Cause and `tinfo` of a decode trap (R111, R114). -/
def dtrapCode : DTrap → Nat × Word
  | .badPrefix rule kind pos => (cPREFIX, BitVec.ofNat 64 (rule * 256 + kind * 16 + pos))
  | .illop why page half => (cILLOP, subInfo 1 (why * 2 ^ 20 + page * 2 ^ 16 + half))
  | .short => (cILLOP, subInfo 1 0)

/-- The result of a fetch. -/
inductive Fetched where
  | fault (cause : Nat) (va : Nat)
  | got (r : Except DTrap (Instr × Nat))

/-- Fetch halfwords from `va` on, until they hold a base halfword or break a chain rule; the traffic of the fetch finds its
way (R394). -/
def fetchFrom (c : Ctx) : Nat → Nat → List Nat → List (Nat × Except Nat Pte) → M Fetched
  | 0, _, hs, _ => pure (.got (decodeAt hs .none))
  | n + 1, va, hs, ts => do
    let ts ← translateAll c [va] ts
    modify fun s => s.bringAll c .fetch ts [va]
    let s ← get
    match s.placeWith c .fetch ts va with
    | .error cause => pure (.fault cause va)
    | .ok key =>
      needWay none (stackOf key)
      let hs := hs ++ [natOfBytes (s.mem.bytes key 2)]
      match decodeAt hs .none with
      | .error .short => fetchFrom c n (va + 2) hs ts
      | r => pure (.got r)

/-- The halfwords of the micro-operation that is next, and its substitution (R141, R143). -/
def State.microHalves (s : State) (m : Micro) : List Nat × Subst :=
  let r := (((s.core s.cx.id.core).slot m.slot).recs).getD m.upc []
  (((r.drop 2).take (r.getD 0 0)) ++ [0], ⟨r.getD 1 0, m.p0, m.p1, m.p2, m.p3⟩)

/-- A faulted fetch (R324, R326): the context waits at the target. -/
def fetchFault (cause va : Nat) : M Unit := do
  let c := (← get).cx
  let _ ← faulted (addrOnly .fetch va cause) (badOf c (BitVec.ofNat 64 va) 3 cause 0 0 10 3 [] 0)
  modCx fun c => { c with wait := some .fetch }

/-- The context has a faulted fetch that is not resolved. -/
def State.fetchPending (s : State) : Bool := s.bads.any fun e => e.2.cid = s.cx.cid && e.2.opk = 3

/-- A record of a `bar`'s arrival is kept for that `bar` only (R347): another instruction of its level ends it. -/
def Ctx.keepsArrival (c : Ctx) (a : Arrived) : Bool :=
  a.sup != c.sup || (a.pc = c.pc && a.upc = c.micro.map (·.upc))

/-- The state an operation runs in: the latch of `next`, the age, the cost of the issue, no wait. -/
def State.latched (s : State) (len : Nat) : State :=
  let c := { s.cx with
    npc := s.cx.pc + BitVec.ofNat 64 (2 * len)
    wait := none
    st := { s.cx.st with last := s.turn, arrived := s.cx.st.arrived.filter s.cx.keepsArrival } }
  { s.modCore s.cx.id.core (fun k => { k with owed := s.cx.issueCost len }) with cx := c, turn := s.turn + 1 }

/-- Decode the next micro-operation. -/
def State.readyMicro (s : State) (m : Micro) : Ready :=
  match decodeAt (s.microHalves m).1 (s.microHalves m).2 with
  | .ok (i, len) => .instr i len s
  | .error e => .done (takeTrap s (dtrapCode e).1 (dtrapCode e).2)

/-- Fetch and decode the instruction at the pc. The end sequence (R51) is a `halt`. -/
def State.readyFetch (s : State) : Ready :=
  if s.cx.pc = s.endSeq then .instr .halt 1 s
  else if s.fetchPending then .done { s with cx := { s.cx with wait := some .fetch } }
  else match fetchFrom s.cx 5 s.cx.pc.toNat [] [] s with
    | .ok (.got (.ok (i, len)), t) => .instr i len t
    | .ok (.got (.error e), t) => .done (takeTrap t (dtrapCode e).1 (dtrapCode e).2)
    | .ok (.fault cause va, t) =>
      match run (fetchFault cause va) t with
      | .next u => .done u
      | _ => .done t
    | .error e => match run (throw e) s with
      | .next u => .done u
      | _ => .done s

/-- Context `cid` comes to its next instruction boundary: its instruction, or the state where there is none. -/
def State.ready (s : State) (cid : Nat) : Ready :=
  match s.ctx? cid with
  | none => .done s
  | some c =>
    let before := s.passedOver c
    let s := (s.checkout cid).charged c.id.core
    if before || !s.mayIssue then .done s
    else match s.boundary with
      | some t => .done t
      | none =>
        match s.cx.micro with
        | some m => s.readyMicro m
        | none => s.readyFetch

/-! ## Decoding traps as an instruction -/

/-- A reserved cell of the opcode map: `ILLOP` with WHY 0 for a reserved page, 1 for a reserved OP (R114, R117). -/
def execReservedOpcode (page half : Nat) (s : State) := run (do
  trap cILLOP (subInfo 1 ((if 10 ≤ page then 0 else 2 ^ 20) + page * 2 ^ 16 + half))) s

end Sys2Proof.Machine
end

