-- ==== Sys2Proof/Machine/Control.lean ====
section
/-! DEFINITION. Page-0 loads, stores, branches, `wait` and `mcall`; page-2 calls, branches, control registers, control
store, traps and the return from one (R57-R67, R122-R146, R339). -/
namespace Sys2Proof.Machine

/-! ## Loads and stores of a doubleword (R122) -/

def execLd (d : Nat) (a : Src) (imm : Int) (s : State) := run (do
  let x ← readS a
  loadS .load d (x + immW imm) 8 14 (BitVec.ofNat 64) (freeS a)) s

def execSt (d a : Src) (imm : Int) (s : State) := run (do
  let x ← readS a
  let v ← readS d
  storeS (x + immW imm) 8 14 v.toNat (do freeS a; freeS d)) s

/-! ## Branches (R124-R126, R132-R135) -/

/-- A PC-relative target (R124). -/
def relTarget (pc : Word) (imm : Int) : Word := pc + BitVec.ofInt 64 (2 * imm)

/-- Write a branch-target register and prepare its target (R125). -/
def writeB (d : Nat) (t : Word) : M Unit := modRegs fun r =>
  { r with b := r.b.set d t, prep := if r.prep.contains d then r.prep else d :: r.prep }

def readB (n : Nat) : M Word := do return (← get).cx.r.b.getD n 0

def execPbr (d : Nat) (imm : Int) (s : State) := run (do
  notInMicro
  writeB d (relTarget (← get).cx.pc imm)
  advance) s

def execBr (imm : Int) (s : State) := run (do
  notInMicro
  jump (relTarget (← get).cx.pc imm)) s

/-- Redirect, or go on. -/
def branch (taken : Bool) (t : Word) : M Unit := if taken then jump t else advance

def execBrnz (a : Src) (imm : Int) (s : State) := run (do
  notInMicro
  let x ← readS a
  freeS a
  branch (x != 0) (relTarget (← get).cx.pc imm)) s

def execBrz (a : Src) (imm : Int) (s : State) := run (do
  notInMicro
  let x ← readS a
  freeS a
  branch (x == 0) (relTarget (← get).cx.pc imm)) s

/-- `call` writes the link as any write does (R133). -/
def callTo (t : Word) : M Unit := do
  writeS 63 (← get).cx.npc
  jump t

def execCall (imm : Int) (s : State) := run (do
  notInMicro
  notInDrain
  callTo (relTarget (← get).cx.pc imm)) s

def execCallB (d : Nat) (s : State) := run (do
  notInMicro
  notInDrain
  callTo (← readB d)) s

def execRet (s : State) := run (do
  notInMicro
  notInDrain
  jump (← readSNum 63)) s

/-- A compare-branch through `b[d]` (R134). -/
def cmpBranch (d : Nat) (a b : Src) (f : Word → Word → Bool) : M Unit := do
  notInMicro
  notInDrain
  let x ← readS a
  let y ← readS b
  freeS a
  freeS b
  branch (f x y) (← readB d)

def execBreq (d : Nat) (a b : Src) (s : State) := run (cmpBranch d a b fun x y => x == y) s
def execBrne (d : Nat) (a b : Src) (s : State) := run (cmpBranch d a b fun x y => x != y) s
def execBrlt (d : Nat) (a b : Src) (s : State) := run (cmpBranch d a b fun x y => x.slt y) s
def execBrge (d : Nat) (a b : Src) (s : State) := run (cmpBranch d a b fun x y => !x.slt y) s
def execBrltu (d : Nat) (a b : Src) (s : State) := run (cmpBranch d a b fun x y => x.ult y) s
def execBrgeu (d : Nat) (a b : Src) (s : State) := run (cmpBranch d a b fun x y => !x.ult y) s

def execPbrr (d : Nat) (a : Src) (s : State) := run (do
  notInMicro
  notInDrain
  let x ← readS a
  freeS a
  writeB d (x &&& ~~~1#64)
  advance) s

def execMfb (d a : Nat) (s : State) := run (do
  notInDrain
  writeS d (← readB a)
  advance) s

/-! ## Waiting on the counters (R127) -/

def execWait (l st c m h : Nat) (s : State) := run (do
  notInDrain
  needClasses l st c m h
  advance) s

/-! ## Control registers (R57-R67, R136) -/

/-- `cnt` (R66). -/
def Counts.word (c : Counts) : Word :=
  BitVec.ofNat 64 (c.load % 256 + c.store % 256 * 2 ^ 8 + c.copy % 256 * 2 ^ 16 + c.matrix % 256 * 2 ^ 24 +
    c.head % 256 * 2 ^ 32)

/-- `tilexyz` (R66). -/
def Ident.tilexyz (i : Ident) : Word := BitVec.ofNat 64 (i.x % 65536 + i.y % 65536 * 2 ^ 16 + i.z % 65536 * 2 ^ 32)

/-- The value of a control register. -/
def State.ctlRead (s : State) : Nat → Word
  | 0 => s.cx.ctxid
  | 1 => BitVec.ofNat 64 s.cx.id.core
  | 2 => BitVec.ofNat 64 s.cx.id.part
  | 3 => s.cx.c.mode
  | 4 => s.cx.c.fflags
  | 5 => s.cx.c.cause
  | 6 => s.cx.c.tpc
  | 7 => s.cx.c.tinfo
  | 8 => s.cx.c.tvec
  | 9 => s.cx.c.budget
  | 10 => s.cx.c.deadline
  | 11 => s.cx.c.brole
  | 12 => s.cx.c.srseed
  | 13 => s.cx.cnt.word
  | 14 => s.cx.id.tilexyz
  | 15 => s.caps s.cx.id.core
  | 16 => (s.part s.cx.id.part).rrbase
  | _ => s.cx.c.hold

/-- Registers a user context may not read (R57). -/
def ctlSupRead (i : Nat) : Bool := i = 8 || i = 16
/-- Registers read-only at every level (R57). -/
def ctlReadOnly (i : Nat) : Bool := i ≤ 2 || (13 ≤ i && i ≤ 15)
/-- Registers only a supervisor writes (R57). -/
def ctlSupWrite (i : Nat) : Bool := (5 ≤ i && i ≤ 10) || i = 16
/-- Bits that are not reserved (R57, R59, R60, R62, R67). -/
def ctlBits : Nat → Word
  | 3 => 0xF
  | 4 => 0x1FF
  | 5 => 0x3F3FFF
  | 6 => 0x1FFFFFFFFFFFFFE
  | 8 => 0x1FFFFFFFFFFFFFE
  | 9 => 0xFFFFFFFF
  | 16 => 0x1FFFFFFFFFFF01F
  | 17 => 0x1FFF
  | _ => BitVec.allOnes 64

/-- The `ILLOP` of `mfc` and `mtc` (R57). -/
def ctlIllop {α : Type} (i reason : Nat) : M α := illop 0x10 (reason * 256 + i % 64)

/-- A copy of the context that converts with `.rsr` is on its way: what steps `srseed` waits (R151). -/
def needSeed : M Unit := do
  let s ← get
  if (s.core s.cx.id.core).copies.any fun o => o.cid = s.cx.cid && o.ctrl.getLsbD 34 && o.rnd = .rsr
  then stall (.classes 7 7 0 7 7) else pure ()

def execMfc (d ctl : Nat) (s : State) := run (do
  notInDrain
  if 18 ≤ ctl then ctlIllop ctl 2
  if ctlSupRead ctl then needSup 2 (.mfc d ctl)
  if ctl = 12 then needSeed
  writeS d ((← get).ctlRead ctl)
  advance) s

/-- `brole` with the fields of undeclared banks kept at 0 (R64). -/
def broleMask (banks : Nat) (v : Word) : Word := v &&& BitVec.ofNat 64 (4 ^ banks - 1)

/-- A bank that leaves a cache role for scratchpad or operand buffer holds undefined values (R64). -/
def State.scramble (s : State) (core bank n : Nat) : State :=
  { s with mem := (List.range 16384).foldl (fun m o => m.write (bankKey core bank o) (Config.freeByte (n * 16384 + o))) s.mem }

/-- Does bank `i` leave the cache or constant role for another? -/
def leavesCache (old new : Nat) : Bool := old % 2 = 1 && new % 2 = 0

/-- Change the roles (R64): the lines of a bank that leaves its cache role go home and are dropped, those of the banks that
keep theirs stay; banks entering a cache role start invalid, banks leaving one for plain storage are undefined. -/
def setRoles (v : Word) : M Unit := do
  let c0 := (← get).cx
  modCtl fun c => { c with brole := v }
  modify fun s =>
    let stays (l : Line) : Bool := s.cx.role l.way = 1
    (s.cx.l1.data.filter fun l => !stays l).foldl (fun s l => s.settle (lineWords l.line l.written))
      (s.setLines (s.cx.l1.data.filter stays))
  modCx fun c => { c with l1 := { c.l1 with const := c.l1.const.filter fun l => c.role l.way = 3 } }
  let c1 := (← get).cx
  let n ← fresh
  modify fun s => (List.range c0.decl.banks.length).foldl (fun s i =>
    if leavesCache (c0.role i) (c1.role i) then s.scramble c0.id.core (c0.decl.banks.getD i 0) (n * 32 + i) else s) s

/-- Write a control register whose value passes (R57-R67). -/
def ctlWrite (i : Nat) (v : Word) : M Unit :=
  match i with
  | 3 => modCtl fun c => { c with mode := v }
  | 4 => modCtl fun c => { c with fflags := v }
  | 5 => modCtl fun c => { c with cause := v }
  | 6 => modCtl fun c => { c with tpc := v }
  | 7 => modCtl fun c => { c with tinfo := v }
  | 8 => modCtl fun c => { c with tvec := v }
  | 9 => modCtl fun c => { c with budget := v }
  | 10 => modCtl fun c => { c with deadline := v }
  | 11 => do
    let c := (← get).cx
    let v := broleMask c.decl.banks.length v
    if v = c.c.brole then pure ()
    else do
      needClasses 0 0 0 0 0
      setRoles v
  | 12 => modCtl fun c => { c with srseed := if v = 0 then 1 else v }
  | 16 => modify fun s => s.modPart s.cx.id.part fun p => { p with rrbase := v }
  | _ => modCtl fun c => { c with hold := v }

/-- Firmware writes a valid `rrbase` before a partition's first command (R67). -/
def State.giveRing (s : State) (p : Nat) (v : Word) : State :=
  if (s.part p).rrbase = 0 && v &&& ~~~ctlBits 16 = 0 && ringValid v then s.modPart p fun p => { p with rrbase := v } else s

/-- The value is one the register's description refuses (R57, R59, R67). -/
def ctlRefuses (i : Nat) (v : Word) : Bool :=
  match i with
  | 3 => v.toNat / 4 % 4 = 3
  | 16 => !ringValid v
  | 17 => v = 0 || 4096 < v.toNat
  | _ => false

/-- `mtc` (R57). A value with a reserved bit set that the register's description refuses as well is reason 3 (DESIGN CHOICE,
notes/assumptions/17.md). -/
def execMtc (ctl : Nat) (a : Src) (s : State) := run (do
  notInDrain
  if 18 ≤ ctl then ctlIllop ctl 2
  if ctlReadOnly ctl then ctlIllop ctl 1
  if ctlSupWrite ctl then needSup 2 (.mtc ctl a)
  let v ← readS a
  if v &&& ~~~ctlBits ctl != 0 then ctlIllop ctl 3
  if ctlRefuses ctl v then ctlIllop ctl 4
  let st ← get
  if ctl = 16 && (st.bads.any fun e => e.2.part = st.cx.id.part && e.2.posted.isSome) then ctlIllop ctl 5
  if ctl = 12 then needSeed
  freeS a
  ctlWrite ctl v
  advance) s

/-! ## Counters (R137) -/

def execRdtime (d : Nat) (s : State) := run (do
  notInDrain
  writeS d (BitVec.ofNat 64 (← get).time)
  modify fun s => { s with timeRead := true }
  advance) s

def execRdcyc (d : Nat) (s : State) := run (do
  notInDrain
  let st ← get
  writeS d (BitVec.ofNat 64 (st.core st.cx.id.core).cyc)
  advance) s

/-! ## Microprograms (R140-R146) -/

def execMcall (slot p0 p1 p2 p3 : Nat) (s : State) := run (do
  notInMicro
  notInDrain
  let st ← get
  let sl := (st.core st.cx.id.core).slot slot
  if !sl.waiters.isEmpty then stall (.slot slot)
  if !sl.valid then illop 0x02 slot
  modCx fun c => { c with micro := some ⟨slot, 0, p0, p1, p2, p3, c.pc, c.npc⟩ }
  modify fun s => s.modCore s.cx.id.core fun k => { k with owed := k.owed + 1 }) s

/-- A slot is busy while a context of the core is inside it, running or saved (R146). -/
def State.slotBusy (s : State) (core n : Nat) : Bool :=
  s.ctxs.any fun c => c.id.core = core &&
    ((c.micro.any fun m => m.slot = n) || (c.kept.any fun m => m.slot = n))

def modSlot (n : Nat) (f : Slot → Slot) : M Unit := modify fun s =>
  s.modCore s.cx.id.core fun c => { c with store := c.store.set n (f (c.slot n)) }

/-- Wait until a slot is not busy (R146). -/
def needSlot (n : Nat) : M Unit := do
  let s ← get
  if s.slotBusy s.cx.id.core n then
    modSlot n fun sl => { sl with waiters := insertHeld s.cx.cid sl.waiters }
    stallIn (.slot n)
  else pure ()

/-- One ordinary load of `mcw` (R146): a fault is `POISON`, source 2. -/
def loadImage (va n : Nat) : M Nat := do
  match ← locate .load va with
  | .ok key => readPlace key n
  | .error _ => trap cPOISON (BitVec.ofNat 64 (2 * 2 ^ 60))

def loadHalves (va : Nat) : Nat → M (List Nat)
  | 0 => pure []
  | n + 1 => do
    let h ← loadImage va 2
    let t ← loadHalves (va + 2) n
    pure (h :: t)

def loadRecs (va : Nat) : Nat → M (List (List Nat))
  | 0 => pure []
  | n + 1 => do
    let r ← loadHalves va 7
    let t ← loadRecs (va + 14) n
    pure (r :: t)

/-- A record with a length of 1-5 and no reserved bit set (R141, R146). -/
def recOk (r : List Nat) : Bool := 1 ≤ r.getD 0 0 && r.getD 0 0 ≤ 5 && r.getD 1 0 < 2 ^ 15

def execMcw (slot : Nat) (a : Src) (s : State) := run (do
  notInMicro
  notInDrain
  needSup 2 (.mcw slot a)
  let x ← readS a
  if x.toNat % 8 != 0 then trap cALIGN x
  needNoFaults
  needSlot slot
  let h ← loadImage x.toNat 8
  if h = 0 || 32 < h then illop 0x04 63
  let recs ← loadRecs (x.toNat + 8) h
  match recs.findIdx? fun r => !recOk r with
  | some i => illop 0x04 i
  | none => pure ()
  freeS a
  let me := (← get).cx.cid
  modSlot slot fun sl => { valid := true, recs := recs, holder := none, waiters := sl.waiters.erase me }
  advance) s

def execMcinv (slot : Nat) (s : State) := run (do
  notInMicro
  notInDrain
  needSup 2 (.mcinv slot)
  needSlot slot
  modSlot slot fun sl => { sl with valid := false, recs := [], waiters := sl.waiters.erase s.cx.cid }
  advance) s

/-! ## Traps by instruction, and the return (R138, R339) -/

def execEbrk (code : Nat) (s : State) := run (do
  notInDrain
  trap cBREAK (BitVec.ofNat 64 code)) s

def execTrap (code : Nat) (s : State) := run (do
  notInMicro
  notInDrain
  throw (Stop.trapAt cSWTRAP (BitVec.ofNat 64 code) (← get).cx.npc)) s

def execTret (s : State) := run (do
  notInMicro
  notInDrain
  needSup 2 .tret
  modCx Ctx.returned) s

end Sys2Proof.Machine
end

