-- ==== Sys2Proof/Machine/Flags.lean ====
section
/-! DEFINITION. Number formats and exact arithmetic (R72-R101): values decoded exactly, one rounding core, and the flags
each operation raises. A flag result is a number in the layout of `fflags` (R60). -/
namespace Sys2Proof.Machine

/-! ## Exact values -/

/-- A decoded value: NaN (signalling or quiet), infinity, or ±m × 2^e (m = 0: a zero with its sign). -/
inductive FV where
  | nan (sig : Bool)
  | inf (neg : Bool)
  | fin (neg : Bool) (m : Nat) (e : Int)
deriving DecidableEq, Repr

/-- A binary format: `p` significand bits, the exponent of the last place of a subnormal, the largest finite
`maxN` × 2^`maxQ`. -/
structure Fmt where
  p : Nat
  qmin : Int
  maxN : Nat
  maxQ : Int
deriving DecidableEq, Repr

def fmtF32 : Fmt := ⟨24, -149, 2 ^ 24 - 1, 104⟩
def fmtF16 : Fmt := ⟨11, -24, 2047, 5⟩
def fmtBf16 : Fmt := ⟨8, -133, 255, 120⟩
def fmtE4m3 : Fmt := ⟨4, -9, 14, 5⟩
def fmtE5m2 : Fmt := ⟨3, -16, 7, 13⟩
def fmtE2m1 : Fmt := ⟨2, -1, 3, 1⟩
def fmtFa80 : Fmt := ⟨64, -16445, 2 ^ 64 - 1, 16320⟩
def fmtF64 : Fmt := ⟨53, -1074, 2 ^ 53 - 1, 971⟩

/-- An IEEE-style pattern of `w` bits with `f` fraction bits and exponent bias folded into `qmin` (R74). -/
def decIeee (w f : Nat) (qmin : Int) (x : Nat) : FV :=
  let neg := x.testBit (w - 1)
  let ef := x / 2 ^ f % 2 ^ (w - 1 - f)
  let fr := x % 2 ^ f
  if ef = 2 ^ (w - 1 - f) - 1 then (if fr = 0 then .inf neg else .nan (!fr.testBit (f - 1)))
  else if ef = 0 then .fin neg fr qmin
  else .fin neg (2 ^ f + fr) (qmin + ef - 1)

def decF32 : Nat → FV := decIeee 32 23 (-149)
def decF16 : Nat → FV := decIeee 16 10 (-24)
def decBf16 : Nat → FV := decIeee 16 7 (-133)
def decF64 : Nat → FV := decIeee 64 52 (-1074)
def decE5m2 : Nat → FV := decIeee 8 2 (-16)
/-- E4M3 (R77): no infinity, one NaN pattern per sign, quiet (R75). -/
def decE4m3 (x : Nat) : FV :=
  let neg := x.testBit 7
  let ef := x / 8 % 16
  if x % 128 = 127 then .nan false
  else if ef = 0 then .fin neg (x % 8) (-9)
  else .fin neg (8 + x % 8) (-9 + ef - 1)
/-- E2M1 (R77). -/
def decE2m1 (x : Nat) : FV :=
  let ef := x / 2 % 4
  if ef = 0 then .fin (x.testBit 3) (x % 2) (-1) else .fin (x.testBit 3) (2 + x % 2) (-1 + ef - 1)

/-- Trailing zero bits of a nonzero 7-bit body. -/
def mk8Tz (b : Nat) : Nat :=
  if b.testBit 0 then 0 else if b.testBit 1 then 1 else if b.testBit 2 then 2 else if b.testBit 3 then 3
  else if b.testBit 4 then 4 else if b.testBit 5 then 5 else 6

/-- Exponent-field width, fraction width and base exponent of an MK8 row (R80). -/
def mk8Row : Nat → Nat × Nat × Int
  | 0 => (2, 4, -2)
  | 1 => (2, 3, -6)
  | 2 => (2, 2, 2)
  | 3 => (2, 1, -10)
  | 4 => (2, 0, 6)
  | 5 => (1, 0, -12)
  | _ => (0, 0, -13)

/-- MK8 (R80). -/
def decMk8 (x : Nat) : FV :=
  let b := x % 128
  if b = 0 then (if x.testBit 7 then .nan false else .fin false 0 0)
  else
    let t := mk8Tz b
    let r := mk8Row t
    let h := b / 2 ^ (t + 1)
    let xf := h / 2 ^ r.2.1
    .fin (x.testBit 7) (2 ^ r.2.1 + h % 2 ^ r.2.1) (r.2.2 + (xf : Int) - (r.2.1 : Int))

/-- FA80 (R82, R83): the value, and whether the pattern is canonical. -/
def decFa80 (x : Nat) : FV × Bool :=
  let neg := x.testBit 79
  let ef : Nat := x / 2 ^ 64 % 2 ^ 15
  let sg := x % 2 ^ 64
  if ef = 0x7FFF then
    if sg = 2 ^ 63 then (.inf neg, true)
    else if sg = 0xC000000000000000 && !neg then (.nan false, true)
    else (.nan false, false)
  else if ef = 0 then (if sg < 2 ^ 63 then (.fin neg sg (-16445), true) else (.nan false, false))
  else if sg < 2 ^ 63 then (.nan false, false)
  else (.fin neg sg (-16445 + ef - 1), true)

/-- Canonical NaN of FA80. -/
def fa80Nan : Nat := 0x7FFFC000000000000000

/-! ## Widths, decoding by type -/

/-- Element width in bits (R147). -/
def tyWidth : ETy → Nat
  | .f32 => 32
  | .bf16 => 16
  | .f16 => 16
  | .e4m3 => 8
  | .e5m2 => 8
  | .mk8 => 8
  | .e2m1 => 4
  | .i32 => 32
  | .n32 => 32
  | .i16 => 16
  | .n16 => 16
  | .i8 => 8
  | .n8 => 8
  | .i64 => 64
  | .n64 => 64

def tyFloat : ETy → Bool
  | .f32 => true
  | .bf16 => true
  | .f16 => true
  | .e4m3 => true
  | .e5m2 => true
  | .mk8 => true
  | .e2m1 => true
  | _ => false

def tySigned : ETy → Bool
  | .i32 => true
  | .i16 => true
  | .i8 => true
  | .i64 => true
  | _ => false

/-- The integer a pattern of an integer type stands for (R72). -/
def intOf (ty : ETy) (x : Nat) : Int :=
  if (tySigned ty) && x.testBit ((tyWidth ty) - 1) then (x : Int) - 2 ^ (tyWidth ty) else x

/-- The exact value of an element of any type. -/
def decElem (ty : ETy) (x : Nat) : FV :=
  match ty with
  | .f32 => decF32 x
  | .bf16 => decBf16 x
  | .f16 => decF16 x
  | .e4m3 => decE4m3 x
  | .e5m2 => decE5m2 x
  | .mk8 => decMk8 x
  | .e2m1 => decE2m1 x
  | t => let i := intOf t x; .fin (i < 0) i.natAbs 0

/-- The canonical NaN of a float type (R75), NaR for MK8; E2M1 has none. -/
def nanOf : ETy → Nat
  | .f32 => 0x7FC00000
  | .bf16 => 0x7FC0
  | .f16 => 0x7E00
  | .e4m3 => 0x7F
  | .e5m2 => 0x7E
  | .mk8 => 0x80
  | _ => 0

def fmtOf : ETy → Fmt
  | .bf16 => fmtBf16
  | .f16 => fmtF16
  | .e4m3 => fmtE4m3
  | .e5m2 => fmtE5m2
  | .e2m1 => fmtE2m1
  | _ => fmtF32

/-! ## The rounding core (R87, R88) -/

/-- A magnitude to round: it equals m × 2^e, or with `more` lies strictly between m × 2^e and (m + 1) × 2^e. -/
structure Mag where
  m : Nat
  e : Int
  more : Bool
deriving DecidableEq, Repr

/-- Bits of a number. -/
def bitLen (m : Nat) : Nat := if m = 0 then 0 else Nat.log2 m + 1

/-- m × 2^k for k ≥ 0, floor of m / 2^(-k) otherwise. -/
def shiftNat (m : Nat) (k : Int) : Nat := if 0 ≤ k then m * 2 ^ k.toNat else m / 2 ^ (-k).toNat

/-- Compare a × 2^qa with b × 2^qb: less than. -/
def ltPow (a : Nat) (qa : Int) (b : Nat) (qb : Int) : Bool :=
  if qa ≤ qb then a < b * 2 ^ (qb - qa).toNat else a * 2 ^ (qa - qb).toNat < b

/-- Choose between `lo` and its successor, `num`/`den` of the way with `more` beyond it (R87, R88). `even` says that
`lo` wins a tie to even. -/
def roundsUp (rnd : Rnd) (neg even : Bool) (u num den : Nat) (more : Bool) : Bool :=
  let exact := num = 0 && !more
  match rnd with
  | .rne => den < 2 * num || (2 * num = den && (more || !even))
  | .rtz => false
  | .rdn => neg && !exact
  | .rup => !neg && !exact
  | .rna => den ≤ 2 * num
  | .rsr => 2 ^ 32 ≤ num * 2 ^ 32 / den + u

/-- Round a magnitude to multiples of 2^q: the multiple, and whether it is inexact. -/
def roundAt (rnd : Rnd) (neg : Bool) (u : Nat) (x : Mag) (q : Int) : Nat × Bool :=
  if q ≤ x.e then (x.m * 2 ^ (x.e - q).toNat, x.more)
  else
    let den := 2 ^ (q - x.e).toNat
    let lo := x.m / den
    let num := x.m % den
    (if roundsUp rnd neg (lo % 2 = 0) u num den x.more then lo + 1 else lo, num != 0 || x.more)

/-- A rounded magnitude: n × 2^q, with what R76 asks about it. -/
structure Rounded where
  n : Nat
  q : Int
  inexact : Bool
  ovf : Bool
  tiny : Bool
deriving DecidableEq, Repr

def roundFmt (f : Fmt) (rnd : Rnd) (neg : Bool) (u : Nat) (x : Mag) : Rounded :=
  let q0 := x.e + bitLen x.m - f.p
  let q := if q0 < f.qmin then f.qmin else q0
  let r := roundAt rnd neg u x q
  let r0 := roundAt rnd neg u x q0
  { n := r.1, q := q, inexact := r.2,
    ovf := ltPow f.maxN f.maxQ r.1 q,
    tiny := (x.m != 0 || x.more) && ltPow r0.1 q0 1 (f.qmin + f.p - 1) }

/-- The bits of n × 2^q in a format with an implicit integer bit, without the sign. -/
def packFmt (f : Fmt) (n : Nat) (q : Int) : Nat := (q - f.qmin).toNat * 2 ^ (f.p - 1) + n

/-- Does an overflow deliver the largest finite value (R87)? -/
def overToMax (rnd : Rnd) (neg : Bool) : Bool :=
  match rnd with
  | .rtz => true
  | .rdn => !neg
  | .rup => neg
  | _ => false

/-- Sign bit of a pattern of `w` bits. -/
def signBits (w : Nat) (neg : Bool) : Nat := if neg then 2 ^ (w - 1) else 0

/-- Round a magnitude into an IEEE format, E4M3, E5M2 or E2M1: pattern and flags (R74, R76, R78, R87, R150). -/
def roundIeee (ty : ETy) (rnd : Rnd) (sat neg : Bool) (u : Nat) (x : Mag) : Nat × Nat :=
  let f := fmtOf ty
  let w := (tyWidth ty)
  if x.m = 0 && !x.more then (signBits w neg, 0)
  else
    let r := roundFmt f rnd neg u x
    let maxBits := packFmt f f.maxN f.maxQ
    let infBits := match ty with
      | .e4m3 => 0
      | .e2m1 => 0
      | _ => maxBits + 1
    if r.ovf then
      match ty with
      | .e4m3 => (if sat then signBits w neg + maxBits else 0x7F, fOF + fNX)
      | .e2m1 => (signBits w neg + maxBits, fOF + fNX)
      | _ => (signBits w neg + (if sat || overToMax rnd neg then maxBits else infBits), fOF + fNX)
    else (signBits w neg + packFmt f r.n r.q,
          if r.inexact then (if r.tiny then fUF + fNX else fNX) else 0)

/-! ### MK8 (R81) -/

/-- The MK8 magnitudes in rising order: multiple of 2^-13, code, and whether a tie to even prefers it. -/
def mk8Mag (c : Nat) : Nat :=
  match decMk8 c with
  | .fin _ m e => shiftNat m (e + 13)
  | _ => 0
def mk8Even (c : Nat) : Bool :=
  if c = 0 then true
  else
    let t := mk8Tz c
    let r := mk8Row t
    r.2.1 = 0 || !(c / 2 ^ (t + 1)).testBit 0

/-- Insert a code by magnitude. -/
def insertMk8 (c : Nat) : List Nat → List Nat
  | [] => [c]
  | d :: t => if mk8Mag c ≤ mk8Mag d then c :: d :: t else d :: insertMk8 c t
def mk8Codes : List Nat := (List.range 128).foldr insertMk8 []

/-- The adjacent codes around a magnitude: the greatest level at or below, and the next. -/
def mk8Around (x : Mag) : List Nat → Nat × Option Nat
  | [] => (0, none)
  | [c] => (c, none)
  | c :: d :: t => if ltPow x.m x.e (mk8Mag d) (-13) then (c, some d) else mk8Around x (d :: t)

/-- Round a magnitude into MK8: pattern and flags (R81). -/
def roundMk8 (rnd : Rnd) (neg : Bool) (u : Nat) (x : Mag) : Nat × Nat :=
  let sgn (c : Nat) : Nat := if neg && c != 0 then c + 128 else c
  match mk8Around x mk8Codes with
  | (c, none) =>
    if ltPow (mk8Mag c) (-13) x.m x.e || x.more then (sgn c, fOF + fNX) else (sgn c, 0)
  | (lo, some hi) =>
    -- numerator and denominator of the way from lo to hi, on a common scale
    let k : Int := if x.e < -13 then -13 - x.e else 0
    let xm := shiftNat x.m (x.e + 13 + k)
    let num := xm - mk8Mag lo * 2 ^ k.toNat
    let den := (mk8Mag hi - mk8Mag lo) * 2 ^ k.toNat
    let up := roundsUp rnd neg (mk8Even lo) u num den x.more
    let inexact := num != 0 || x.more
    let small := ltPow x.m x.e 1 (-13)
    (sgn (if up then hi else lo), if inexact then (if small then fUF + fNX else fNX) else 0)

/-! ### Integers (R72, R73) -/

def intMin (ty : ETy) : Int := if (tySigned ty) then -(2 ^ ((tyWidth ty) - 1)) else 0
def intMax (ty : ETy) : Int := if (tySigned ty) then 2 ^ ((tyWidth ty) - 1) - 1 else 2 ^ (tyWidth ty) - 1
def clampInt (ty : ETy) (i : Int) : Int := if i < intMin ty then intMin ty else if intMax ty < i then intMax ty else i
/-- The pattern of an integer, wrapped. -/
def wrapInt (ty : ETy) (i : Int) : Nat := (i % 2 ^ (tyWidth ty)).toNat
/-- The pattern of an integer result, wrapped or clamped (R72). -/
def intResult (ty : ETy) (sat : Bool) (i : Int) : Nat := wrapInt ty (if sat then clampInt ty i else i)

/-- A float value to an integer type (R73). -/
def floatToInt (ty : ETy) (rnd : Rnd) (u : Nat) (v : FV) : Nat × Nat :=
  match v with
  | .nan _ => (0, fNV)
  | .inf neg => (wrapInt ty (if neg then intMin ty else intMax ty), fNV)
  | .fin neg m e =>
    let r := roundAt rnd neg u ⟨m, e, false⟩ 0
    let i : Int := if neg then -(r.1 : Int) else r.1
    if i < intMin ty || intMax ty < i then (wrapInt ty (clampInt ty i), fNV)
    else (wrapInt ty i, if r.2 then fNX else 0)

/-! ## Conversion into any type (R73, R78, R81, R150) -/

/-- Convert a value that is not NaN into a float type. -/
def roundTo (ty : ETy) (rnd : Rnd) (sat neg : Bool) (u : Nat) (x : Mag) : Nat × Nat :=
  match ty with
  | .mk8 => roundMk8 rnd neg u x
  | t => roundIeee t rnd sat neg u x

/-- An infinity converted into a float type (R74, R78, R81). -/
def infTo (ty : ETy) (sat neg : Bool) : Nat × Nat :=
  match ty with
  | .e4m3 => (if sat then signBits 8 neg + 0x7E else 0x7F, fNV)
  | .e2m1 => (signBits 4 neg + 7, fNV)
  | .mk8 => (let c := (mk8Codes.getLastD 0); if neg then c + 128 else c, fNV)
  | t => (signBits (tyWidth t) neg + packFmt (fmtOf t) (fmtOf t).maxN (fmtOf t).maxQ + 1, 0)

/-- A NaN converted into a float type: canonical; NV if it signals, and always into E2M1 (R75, R78, R81). -/
def nanTo (ty : ETy) (sig : Bool) : Nat × Nat :=
  match ty with
  | .e2m1 => (0, fNV)
  | t => (nanOf t, if sig then fNV else 0)

/-- Convert an exact value into a type, rounding once (R166). -/
def convTo (ty : ETy) (rnd : Rnd) (sat : Bool) (u : Nat) (v : FV) : Nat × Nat :=
  if !(tyFloat ty) then floatToInt ty rnd u v
  else match v with
  | .nan sig => nanTo ty sig
  | .inf neg => infTo ty sat neg
  | .fin neg m e => roundTo ty rnd sat neg u ⟨m, e, false⟩

/-- Convert an element between types (R166): between integer types R72, else R73, R78, R81 and the IEEE rules. -/
def convElem (dty sty : ETy) (rnd : Rnd) (sat : Bool) (u x : Nat) : Nat × Nat :=
  if !(tyFloat dty) && !(tyFloat sty) then (intResult dty sat (intOf sty x), 0)
  else convTo dty rnd sat u (decElem sty x)

/-! ## FA80 (R82, R83, R100) -/

/-- Round an exact magnitude to FA80, rne: pattern and whether it overflowed (R98, R100). -/
def roundFa80 (neg : Bool) (x : Mag) : Nat × Bool :=
  let s := if neg then 2 ^ 79 else 0
  if x.m = 0 then (s, false)
  else
    let r := roundFmt fmtFa80 .rne neg 0 x
    if r.ovf then (s + 0x7FFF * 2 ^ 64 + 2 ^ 63, true)
    else
      let n := if r.n = 2 ^ 64 then 2 ^ 63 else r.n
      let q := if r.n = 2 ^ 64 then r.q + 1 else r.q
      let ef := if n < 2 ^ 63 then 0 else (q + 16445).toNat + 1
      (s + ef * 2 ^ 64 + n, false)

def fa80Inf (neg : Bool) : Nat := (if neg then 2 ^ 79 else 0) + 0x7FFF * 2 ^ 64 + 2 ^ 63

/-! ## Exact sums -/

/-- A finite value as an integer multiple of 2^q, for q at or below its exponent. -/
def scaled (neg : Bool) (m : Nat) (e q : Int) : Int :=
  let n : Int := m * 2 ^ (e - q).toNat
  if neg then -n else n

/-- The magnitude of an integer multiple of 2^q. -/
def magOf (i : Int) (q : Int) : Mag := ⟨i.natAbs, q, false⟩

/-- The least exponent among the finite values of a list. -/
def minExp : List FV → Int → Int
  | [], q => q
  | .fin _ m e :: t, q => minExp t (if m != 0 && e < q then e else q)
  | _ :: t, q => minExp t q

/-- The exact sum of the finite values of a list, as a multiple of 2^q. -/
def sumScaled (q : Int) : List FV → Int
  | [] => 0
  | .fin neg m e :: t => (if m = 0 then 0 else scaled neg m e q) + sumScaled q t
  | _ :: t => sumScaled q t

def FV.isNan : FV → Bool
  | .nan _ => true
  | _ => false
def FV.isSig : FV → Bool
  | .nan s => s
  | _ => false
def FV.isInf (neg : Bool) : FV → Bool
  | .inf n => n = neg
  | _ => false
def FV.isNegZero : FV → Bool
  | .fin n m _ => n && m = 0
  | _ => false
def FV.isZero : FV → Bool
  | .fin _ m _ => m = 0
  | _ => false
def FV.neg : FV → FV
  | .nan s => .nan s
  | .inf n => .inf (!n)
  | .fin n m e => .fin (!n) m e

/-- What the sum of a list is (R99): NaN (with NV or not), an infinity, or an exact value; an exact zero is −0 where
`negZero` says so. -/
inductive Sum where
  | nan (nv : Bool)
  | inf (neg : Bool)
  | fin (neg : Bool) (x : Mag)
deriving DecidableEq, Repr

/-- The sum of addends by the special-value rows of R99; signalling addends set NV (R162). `zero` decides the sign of an
exact zero. -/
def sumOf (vs : List FV) (zero : Bool) : Sum :=
  if vs.any FV.isNan then .nan (vs.any FV.isSig)
  else if vs.any (FV.isInf true) && vs.any (FV.isInf false) then .nan true
  else if vs.any (FV.isInf true) then .inf true
  else if vs.any (FV.isInf false) then .inf false
  else
    let q := minExp vs 0
    let i := sumScaled q vs
    .fin (if i = 0 then zero else i < 0) (magOf i q)

/-- The product of two values, exactly; none where it is invalid (∞ × 0). NaN where an operand is. -/
def mulFV : FV → FV → Option FV
  | .nan a, .nan b => some (.nan (a || b))
  | .nan a, _ => some (.nan a)
  | _, .nan b => some (.nan b)
  | .inf a, .inf b => some (.inf (a != b))
  | .inf a, .fin b m _ => if m = 0 then none else some (.inf (a != b))
  | .fin a m _, .inf b => if m = 0 then none else some (.inf (a != b))
  | .fin a m e, .fin b n f => some (.fin (a != b) (m * n) (e + f))

/-- A sum rounded into a float type (R150, R162). -/
def roundSum (ty : ETy) (rnd : Rnd) (sat : Bool) (u : Nat) : Sum → Nat × Nat
  | .nan nv => (nanOf ty, if nv then fNV else 0)
  | .inf neg => (signBits (tyWidth ty) neg + packFmt (fmtOf ty) (fmtOf ty).maxN (fmtOf ty).maxQ + 1, 0)
  | .fin neg x => roundTo ty rnd sat neg u x

/-! ## The four operations on elements (R157) -/

/-- The sign of an exact zero sum of two addends: both −0, or opposite values under `.rdn` (IEEE 754-2019, R74). -/
def zeroSign (rnd : Rnd) (a b : FV) : Bool :=
  if a.isZero && b.isZero then
    (a.isNegZero && b.isNegZero) || ((a.isNegZero || b.isNegZero) && rnd = .rdn)
  else rnd = .rdn

def addFloat (ty : ETy) (rnd : Rnd) (sat : Bool) (u : Nat) (a b : FV) : Nat × Nat :=
  roundSum ty rnd sat u (sumOf [a, b] (zeroSign rnd a b))

def mulFloat (ty : ETy) (rnd : Rnd) (sat : Bool) (u : Nat) (a b : FV) : Nat × Nat :=
  match mulFV a b with
  | none => (nanOf ty, fNV)
  | some (.nan s) => (nanOf ty, if s then fNV else 0)
  | some (.inf neg) => roundSum ty rnd sat u (.inf neg)
  | some (.fin neg m e) => roundTo ty rnd sat neg u ⟨m, e, false⟩

/-- a × b + c, rounded once; an invalid product is NaN with NV whatever c holds (R157). -/
def fmaFloat (ty : ETy) (rnd : Rnd) (sat : Bool) (u : Nat) (a b c : FV) : Nat × Nat :=
  match mulFV a b with
  | none => (nanOf ty, fNV)
  | some p => roundSum ty rnd sat u (sumOf [p, c] (zeroSign rnd p c))

/-- The order of two values that are not NaN, −0 below +0: a < b. -/
def ltFV (a b : FV) : Bool :=
  match a, b with
  | .inf x, .inf y => x && !y
  | .inf x, _ => x
  | _, .inf y => !y
  | .fin x m e, .fin y n f =>
    if m = 0 && n = 0 then x && !y
    else if m = 0 then !y
    else if n = 0 then x
    else if x && !y then true
    else if !x && y then false
    else if x then ltPow n f m e
    else ltPow m e n f
  | _, _ => false

/-- Equal as numbers: −0 equals +0. -/
def eqFV (a b : FV) : Bool :=
  match a, b with
  | .inf x, .inf y => x = y
  | .fin x m e, .fin y n f =>
    if m = 0 || n = 0 then m = 0 && n = 0
    else x = y && !ltPow m e n f && !ltPow n f m e
  | _, _ => false

/-- Less than as numbers: −0 equals +0. -/
def ltNum (a b : FV) : Bool := ltFV a b && !eqFV a b

/-- `vmin` and `vmax` on floats (R157): a NaN gives the canonical NaN. -/
def pickFloat (ty : ETy) (less : Bool) (x y : Nat) : Nat × Nat :=
  let a := decElem ty x
  let b := decElem ty y
  if a.isNan || b.isNan then (nanOf ty, if a.isSig || b.isSig then fNV else 0)
  else (if (if less then ltFV b a else ltFV a b) then y else x, 0)

/-- A condition of R116 on two values, with the unordered ones. -/
def condFV (c : Cond) (a b : FV) : Bool :=
  let un := a.isNan || b.isNan
  match c with
  | .eq => !un && eqFV a b
  | .ne => un || !eqFV a b
  | .lt => !un && ltNum a b
  | .le => !un && (ltNum a b || eqFV a b)
  | .gt => !un && ltNum b a
  | .ge => !un && (ltNum b a || eqFV a b)
  | .un => un
  | .ord => !un

/-! ## The stochastic generator (R88, R89) -/

def genStep (x : Word) : Word :=
  let x := x ^^^ (x <<< 13)
  let x := x ^^^ (x >>> 7)
  x ^^^ (x <<< 17)
/-- U of a state: bits [63:32]. -/
def genU (x : Word) : Nat := x.toNat / 2 ^ 32

/-- The U of each of `n` successive steps, and the last state. -/
def genRun : Nat → Word → List Nat × Word
  | 0, x => ([], x)
  | n + 1, x =>
    let y := genStep x
    let r := genRun n y
    (genU y :: r.1, r.2)

end Sys2Proof.Machine
end

