-- ==== Sys2Proof/Machine/Operands.lean ====
section
/-! DEFINITION. Vector operands: elements, masks, merging and zeroing (R147-R149), the shape of an element-wise
instruction, and the loads and stores of a whole register (R156, R203). -/
namespace Sys2Proof.Machine

/-! ## Elements and masks -/

/-- Elements of a type in a register (R147). -/
def elemCount (w : Nat) : Nat := 1024 / w
/-- Element `i` of width `w`. -/
def elem (w : Nat) (v : VReg) (i : Nat) : Nat := v.toNat / 2 ^ (w * i) % 2 ^ w
/-- The register whose elements are a list, from element 0. -/
def packNat (w : Nat) : List Nat → Nat
  | [] => 0
  | x :: t => x % 2 ^ w + 2 ^ w * packNat w t
def packV (w : Nat) (l : List Nat) : VReg := BitVec.ofNat 1024 (packNat w l)
/-- The bytes of a register, byte 0 first. -/
def vBytes (v : VReg) : List Byte := bytesOfNat 128 v.toNat
def vOfBytes (l : List Byte) : VReg := BitVec.ofNat 1024 (natOfBytes l)

/-- Is element `i` of width `w` active (R147)? -/
def active (w : Nat) (k : KReg) (i : Nat) : Bool := k.getLsbD (w * i / 8)

/-- Previous bits of the destination, read where merging under a mask other than `k0`, or where the instruction reads
them anyway (R149). -/
def readOld (always : Bool) (k : Nat) (zero : Bool) (d : Nat) : M VReg :=
  if always || (k != 0 && !zero) then readV ⟨d, false⟩ else pure 0

/-- Free a list of vector sources. -/
def freeVs : List Src → M Unit
  | [] => pure ()
  | a :: t => do freeV a; freeVs t
def readVs : List Src → M (List VReg)
  | [] => pure []
  | a :: t => do
    let x ← readV a
    let r ← readVs t
    pure (x :: r)

/-- The generator's values for `n` element positions, and its last state (R89); nothing steps without `.rsr`. -/
def seeds (rsr : Bool) (n : Nat) : M (List Nat × Word) := do
  if rsr then needSeed
  let x := (← get).cx.c.srseed
  pure (if rsr then genRun n x else ([], x))

/-- Keep the last state of the generator. -/
def keepSeed (rsr : Bool) (x : Word) : M Unit := check rsr (modCtl fun c => { c with srseed := x })

/-- OR of the flags of a list of results. -/
def orFlags (l : List (Nat × Nat)) : Nat := l.foldl (fun f r => f ||| r.2) 0

/-- Results of `n` elements of width `w`: active ones computed by `f` from the sources' elements, the old element and
the generator's value; inactive ones old or zero (R149). -/
def laneResults (w n : Nat) (mask : KReg) (zero : Bool) (vs : List VReg) (old : VReg) (us : List Nat)
    (f : List Nat → Nat → Nat → Nat × Nat) : List (Nat × Nat) :=
  (List.range n).map fun i =>
    if active w mask i then f (vs.map fun v => elem w v i) (elem w old i) (us.getD i 0)
    else (if zero then 0 else elem w old i, 0)

/-- An element-wise vector instruction (R149, R150). -/
def vMap (w k : Nat) (zero : Bool) (d : Nat) (srcs : List Src) (always rsr : Bool)
    (f : List Nat → Nat → Nat → Nat × Nat) : M Unit := do
  let vs ← readVs srcs
  let mask ← readK k
  let old ← readOld always k zero d
  let us ← seeds rsr (elemCount w)
  let res := laneResults w (elemCount w) mask zero vs old us.1 f
  freeVs srcs
  setFlags (orFlags res)
  keepSeed rsr us.2
  writeV d (packV w (res.map (·.1)))
  advance

/-- A vector instruction whose results depend on whole registers: `f` gives the result of every element. -/
def vWhole (w k : Nat) (zero : Bool) (d : Nat) (srcs : List Src) (rsr : Bool)
    (f : List VReg → KReg → List Nat → List (Nat × Nat)) : M Unit := do
  let vs ← readVs srcs
  let mask ← readK k
  let old ← readOld false k zero d
  let us ← seeds rsr (elemCount w)
  let rs := f vs mask us.1
  let res := (List.range (elemCount w)).map fun i =>
    if active w mask i then rs.getD i (0, 0) else (if zero then 0 else elem w old i, 0)
  freeVs srcs
  setFlags (orFlags res)
  keepSeed rsr us.2
  writeV d (packV w (res.map (·.1)))
  advance

/-! ## Loads of a register's bytes (R156, R203) -/

/-- What faults of a block on one page: the page, the first address, the cause, and a mask of bytes. -/
structure PageFault where
  page : Nat
  va : Nat
  cause : Nat
  mask : Nat
deriving DecidableEq, Repr

/-- Adds a faulting piece to those of its page, in order of the first one. -/
def addFault (pg va cause mask : Nat) (acc : List PageFault) : List PageFault :=
  if acc.any fun e => e.page = pg then acc.map fun e => if e.page = pg then { e with mask := e.mask ||| mask } else e
  else acc ++ [⟨pg, va, cause, mask⟩]

/-- The pages that fault among located bytes, in order of first byte; each byte with its address and its place. -/
def faultPages : List (Nat × Nat × Nat × Except Nat Nat) → List PageFault → List PageFault
  | [], acc => acc
  | (j, va, pg, .error c) :: t, acc => faultPages t (addFault pg va c (2 ^ j) acc)
  | (_, _, _, .ok _) :: t, acc => faultPages t acc

/-- Read located bytes one element at a time where the element is aligned and whole, else by bytes. -/
def readLocated (acc : Acc) (n : Nat) : Nat → List (Nat × Nat × Nat × Except Nat Nat) → M (List (Nat × Nat))
  | 0, _ => pure []
  | _, [] => pure []
  | fuel + 1, (j, _, _, .error _) :: t => do
    let r ← readLocated acc n fuel t
    pure ((j, 0) :: r)
  | fuel + 1, (j, va, _, .ok key) :: t => do
    if va % n = 0 && j % n = 0 && n != 1 then do
      let x ← readAs acc key n
      let r ← readLocated acc n fuel (t.drop (n - 1))
      pure ((List.range n).map (fun i => (j + i, x / 256 ^ i % 256)) ++ r)
    else do
      let x ← readAs acc key 1
      let r ← readLocated acc n fuel t
      pure ((j, x) :: r)

/-- Load 128 bytes at `ea` under an element mask into `v[d]`. -/
def loadV (acc : Acc) (w k : Nat) (zero : Bool) (d : Nat) (ea : Word) (frees : M Unit) : M Unit := do
  let mask ← readK k
  let old ← readOld false k zero d
  let js := (List.range 128).filter fun j => active w mask (j * 8 / w)
  let base : List Byte := if zero || k = 0 then List.replicate 128 0 else vBytes old
  if js.isEmpty then do
    frees
    writeV d (vOfBytes base)
  else do
    needNoFaults
    needRoom 0
    frees
    let vas := js.map fun j => (ea + BitVec.ofNat 64 j).toNat
    let places ← locateMany (← get).cx acc vas
    let located := js.zip (vas.zip (spread places))
    let got ← readLocated acc (w / 8) 128 located
    let res := (List.range 128).map fun j =>
      match got.find? fun g => g.1 = j with
      | some g => BitVec.ofNat 8 g.2
      | none => base.getD j 0
    writeV d (vOfBytes res)
    let bad := faultPages located []
    if bad.isEmpty then count 0
    else
      let c := (← get).cx
      faultedAll (fun id => modRegs fun r => r.pendV d id) (bad.map fun e =>
        (addrOnly acc e.va e.cause, badOf c ea 0 e.cause 2 d 15 e.mask [] 0))
  advance

/-! ## Stores of bytes (R156, R169, R203) -/

/-- Store located bytes, a whole aligned word at a time where every byte of it is there. -/
def storeLocated : Nat → List (Nat × Byte × Except Nat Nat) → State → State
  | 0, _, s => s
  | _, [], s => s
  | fuel + 1, (va, b, .ok key) :: t, s =>
    let run := (va, b, Except.ok key) :: t.take 7
    if va % 8 = 0 && run.length = 8 && (run.zip (List.range 8)).all fun p =>
        match p.1.2.2 with | .ok q => q = key + p.2 && p.1.1 = va + p.2 | .error _ => false
    then storeLocated fuel (t.drop 7) (s.putStore key (run.map (·.2.1)))
    else storeLocated fuel t (s.putStore key [b])
  | fuel + 1, (_, _, .error _) :: t, s => storeLocated fuel t s

/-- Store the bytes `js` of `data` at `ea + j` (R156, R203); each faulting page posts its own entry. -/
def storeBytes (ea : Word) (js : List Nat) (data : List Byte) (frees : M Unit) : M Unit := do
  if js.isEmpty then frees
  else do
    needNoFaults
    needRoom 1
    frees
    let vas := js.map fun j => (ea + BitVec.ofNat 64 j).toNat
    let places ← locateMany (← get).cx .store vas
    let places := spread places
    let bad := faultPages (js.zip (vas.zip places)) []
    if bad.isEmpty then count 1
    else
      let c := (← get).cx
      faultedAll (fun _ => pure ()) (bad.map fun e =>
        (addrOnly .store e.va e.cause, badOf c ea 1 e.cause 0 0 15 e.mask data 0))
    modify (storeLocated 256 (vas.zip ((js.map fun j => data.getD j 0).zip (places.map (·.2)))))
  advance

end Sys2Proof.Machine
end

