-- ==== Sys2Proof/Machine/Blocks.lean ====
section
/-! DEFINITION. Selector blocks and MXFP4 blocks (R79, R91-R97): selectors, element codes, decoding, and the quantising
store. -/
namespace Sys2Proof.Machine

/-! ## Selectors (R91, R94) -/

/-- The selector byte of an encoding under a scale byte. -/
def selectorOf (b enc : Nat) : Nat :=
  enc + (enc ^^^ 3) * 4 + ((b / 16) ^^^ (b % 16) ^^^ 5) * 16
/-- A valid selector (R94). -/
def selectorOk (b sel : Nat) : Bool := sel % 256 = selectorOf (b % 256) (sel % 4)

/-! ## Element codes (R92, R93) -/

/-- NL4 levels in sixteenths. -/
def nl4 : List Nat := [0, 1, 3, 5, 7, 9, 12, 16]

/-- The value of an SB4 code (R92). -/
def decSb4 (enc c : Nat) : FV :=
  let neg := 8 ≤ c
  let k := c % 8
  if enc = 1 then .fin neg (if neg then 16 - c else c) 0
  else if c = 8 then .fin false 0 0
  else if enc = 0 then decE2m1 c
  else if enc = 2 then .fin neg (nl4.getD k 0) (-4)
  else .fin neg (if k = 0 then 0 else 2 ^ k) (-4)

/-- The value of an SB8 code (R93). -/
def decSb8 (enc c : Nat) : FV :=
  if enc = 0 then decMk8 c
  else if enc = 1 then decE4m3 c
  else if enc = 2 then decE5m2 c
  else .fin (128 ≤ c) (if 128 ≤ c then 256 - c else c) 0

def decSb (sb8 : Bool) (enc c : Nat) : FV := if sb8 then decSb8 enc c else decSb4 enc c

/-- Scale a value by 2^k. -/
def FV.scale (v : FV) (k : Int) : FV :=
  match v with
  | .fin n m e => .fin n m (e + k)
  | w => w

/-- Element code `i` of a block's bytes: a nibble or a byte, from byte `h` on. -/
def blockCode (wide : Bool) (h : Nat) (bytes : List Nat) (i : Nat) : Nat :=
  if wide then bytes.getD (h + i) 0
  else let x := bytes.getD (h + i / 2) 0; if i % 2 = 0 then x % 16 else x / 16

/-- How a block decodes (R95): a corrupt selector, a NaN block, or 32 values. -/
inductive Block where
  | corrupt
  | nanBlock
  | vals (vs : List FV)
deriving DecidableEq, Repr

def decBlock (sb8 : Bool) (bytes : List Nat) : Block :=
  let b := bytes.getD 0 0
  let sel := bytes.getD 1 0
  if !selectorOk b sel then .corrupt
  else if b = 255 then .nanBlock
  else .vals ((List.range 32).map fun i => (decSb sb8 (sel % 4) (blockCode sb8 2 bytes i)).scale ((b : Int) - 127))

/-- An MXFP4 block (R79). -/
def decMx4 (bytes : List Nat) : Block :=
  let b := bytes.getD 0 0
  if b = 255 then .nanBlock
  else .vals ((List.range 32).map fun i => (decE2m1 (blockCode false 1 bytes i)).scale ((b : Int) - 127))

/-! ## The quantising store (R96, R97) -/

/-- Exponent of the common scale of an encoding's levels. -/
def lvlExp (sb8 : Bool) (enc : Nat) : Int :=
  if sb8 then (if enc = 0 then -13 else if enc = 1 then -9 else if enc = 2 then -16 else 0)
  else (if enc = 0 then -1 else if enc = 1 then 0 else -4)

/-- Signed integer of a value on a scale 2^q, none for special values. -/
def lvlInt (v : FV) (q : Int) : Option Int :=
  match v with
  | .fin n m e => some (scaled n m e q)
  | _ => none

/-- The levels of an encoding: value on its common scale, code, and whether a tie prefers the code (R96). −0 codes are
left out: the store never writes them. -/
def levels (sb8 : Bool) (enc : Nat) : List (Int × Nat × Bool) :=
  (List.range (if sb8 then 256 else 16)).filterMap fun c =>
    match lvlInt (decSb sb8 enc c) (lvlExp sb8 enc) with
    | some v =>
      if v = 0 && c != 0 then none
      else some (v, c, if sb8 && enc = 0 then mk8Even (c % 128) else c % 2 = 0)
    | none => none

/-- The greatest level magnitude of an encoding on its common scale: *max_e* (R92, R93). -/
def maxLevel (sb8 : Bool) (enc : Nat) : Nat :=
  if sb8 then (if enc = 0 then 512 * 2 ^ 13 else if enc = 1 then 448 * 2 ^ 9 else if enc = 2 then 57344 * 2 ^ 16 else 127)
  else (if enc = 0 then 12 else if enc = 1 then 7 else if enc = 2 then 16 else 128)

/-- The better of two levels for a target `x`, both on one scale: nearer, then the preferred code, then the smaller
magnitude (R96). -/
def betterLevel (x : Int) (a b : Int × Nat × Bool) : Int × Nat × Bool :=
  let da := (x - a.1).natAbs
  let db := (x - b.1).natAbs
  if db < da then b
  else if da < db then a
  else if b.2.2 && !a.2.2 then b
  else if a.2.2 && !b.2.2 then a
  else if b.1.natAbs < a.1.natAbs then b
  else a

/-- The nearest level to `x`, on the scale 2^k above the levels' own. -/
def nearestLevel (ls : List (Int × Nat × Bool)) (k : Nat) (x : Int) : Int × Nat × Bool :=
  let up := ls.map fun l => (l.1 * 2 ^ k, l.2.1, l.2.2)
  match up with
  | [] => (0, 0, true)
  | l :: t => t.foldl (betterLevel x) l

/-- ⌈log₂ (a / b)⌉ for a = m × 2^e and b = n × 2^f, by trying the two candidates. -/
def ceilLog2Ratio (m : Nat) (e : Int) (n : Nat) (f : Int) : Int :=
  let g : Int := (e + bitLen m) - (f + bitLen n) - 1
  -- 2^g × b < a × 2, so the answer is g, g + 1 or g + 2
  if !ltPow n (f + g) m e then g else if !ltPow n (f + g + 1) m e then g + 1 else g + 2

/-- One candidate encoding: its scale, codes, exact error on the scale 2^q squared, and whether it clamped. -/
structure Cand where
  enc : Nat
  s : Int
  codes : List Nat
  err : Nat
  clamped : Bool
deriving Repr

/-- Quantise finite values, all multiples of 2^q, with greatest magnitude `amax` (R96). -/
def quantise (sb8 : Bool) (q : Int) (xs : List Int) (enc : Nat) : Cand :=
  let amax := xs.foldl (fun a x => max a x.natAbs) 0
  let raw : Int := if amax = 0 then -127 else ceilLog2Ratio amax q (maxLevel sb8 enc) (lvlExp sb8 enc)
  let s : Int := if raw < -127 then -127 else if 127 < raw then 127 else raw
  -- levels lie at v × 2^(lvlExp + s); put values and levels on the finer of the two scales, r
  let le := lvlExp sb8 enc + s
  let r := if q < le then q else le
  let ls := levels sb8 enc
  let m := maxLevel sb8 enc
  let cap := ls.filter fun l => l.1.natAbs ≤ m
  let picks := xs.map fun x => nearestLevel cap (le - r).toNat (x * 2 ^ (q - r).toNat)
  let base : Int := if -149 - 127 - 16 < q then -149 - 127 - 16 else q
  let errs := (xs.zip picks).map fun p => ((p.1 * 2 ^ (q - r).toNat - p.2.1).natAbs) ^ 2 * 2 ^ (2 * (r - base).toNat)
  { enc := enc, s := s, codes := picks.map (·.2.1), err := errs.foldl (· + ·) 0, clamped := 127 < raw }

/-- Pack 32 codes behind a header. -/
def packBlock (sb8 : Bool) (b sel : Nat) (codes : List Nat) : List Nat :=
  b :: sel :: (if sb8 then codes
    else (List.range 16).map fun i => codes.getD (2 * i) 0 % 16 + codes.getD (2 * i + 1) 0 % 16 * 16)

/-- The quantising store's block and flags (R96, R97). -/
def quantBlock (sb8 : Bool) (allow : Nat) (vs : List FV) : List Nat × Nat :=
  if vs.any fun v => v.isNan || v.isInf true || v.isInf false then
    (packBlock sb8 255 (selectorOf 255 0) (List.replicate 32 0), fNV)
  else
    let q := minExp vs 0
    let xs := vs.map fun v => match lvlInt v q with | some i => i | none => 0
    let cands := ((List.range 4).filter fun e => allow.testBit e).map (quantise sb8 q xs)
    match cands with
    | [] => ([], 0)
    | c :: t =>
      let w := t.foldl (fun a b => if b.err < a.err then b else a) c
      let b := (w.s + 127).toNat
      let nx := if w.err != 0 then fNX else 0
      let uf := if (xs.zip w.codes).any fun p => p.1 != 0 && p.2 = 0 then fUF else 0
      let of := if w.clamped && ((xs.zip w.codes).any fun p =>
          match lvlInt (decSb sb8 w.enc p.2) (lvlExp sb8 w.enc) with
          | some l => ltPow l.natAbs (lvlExp sb8 w.enc + w.s) p.1.natAbs q && l.natAbs = maxLevel sb8 w.enc
          | none => false) then fOF else 0
      (packBlock sb8 b (selectorOf b w.enc) w.codes, nx + uf + of)

end Sys2Proof.Machine
end

