-- ==== Sys2Proof/Machine/Planes.lean ====
section
/-! DEFINITION. Plane images, B tiles, and what a firing computes (R98-R101, R173-R178, R183, R190, R195). -/
namespace Sys2Proof.Machine

/-! ## Formats (R173, R174, R176) -/

/-- Header bytes, exponent planes and significand planes of an image. -/
def mShape : MFmt → Nat × Nat × Nat
  | .bf16 => (0, 8, 8)
  | .e4m3 => (0, 4, 4)
  | .e5m2 => (0, 5, 3)
  | .mk8 => (0, 5, 5)
  | .i8 => (0, 0, 8)
  | .e2m1 => (0, 2, 2)
  | .i4 => (0, 0, 4)
  | .mx4 => (64, 2, 2)
  | .sb4 => (64, 3, 5)
  | .sb8 => (64, 5, 8)
def imgHdr (f : MFmt) : Nat := (mShape f).1
def imgExp (f : MFmt) : Nat := (mShape f).2.1
def imgSig (f : MFmt) : Nat := (mShape f).2.2
def imageBytes (f : MFmt) : Nat := imgHdr f + 128 * (1 + imgExp f + imgSig f)

/-- A 4-bit format. -/
def fourBit : MFmt → Bool
  | .e2m1 => true
  | .i4 => true
  | .mx4 => true
  | .sb4 => true
  | _ => false
/-- Bytes of a row of 32 elements in row-major form, block header included. -/
def mRowBytes : MFmt → Nat
  | .bf16 => 64
  | .e2m1 => 16
  | .i4 => 16
  | .mx4 => 17
  | .sb4 => 18
  | .sb8 => 34
  | _ => 32
def isSb (f : MFmt) : Bool := f = .sb4 || f = .sb8
/-- Block-header bytes before the codes of a row. -/
def mHeader (f : MFmt) : Nat := if f = .mx4 then 1 else if isSb f then 2 else 0

def mfmtOf : Nat → Option MFmt
  | 0 => some .bf16
  | 1 => some .e4m3
  | 2 => some .e5m2
  | 3 => some .mk8
  | 4 => some .i8
  | 5 => some .e2m1
  | 6 => some .i4
  | 7 => some .mx4
  | 8 => some .sb4
  | 9 => some .sb8
  | _ => none

/-- The code of element `k` of a row-major row. -/
def rowCode (f : MFmt) (row : List Nat) (k : Nat) : Nat :=
  if f = .bf16 then row.getD (2 * k) 0 + 256 * row.getD (2 * k + 1) 0
  else blockCode (!fourBit f) (mHeader f) row k

/-! ## Fields (R174, R175) -/

/-- The element format that a row's codes have: an SB row's follows its encoding. -/
inductive EK where
  | bf16 | e4m3 | e5m2 | mk8 | int (w : Nat) | e2m1 | nl4 | e3m0
deriving DecidableEq, Repr

def ekOf (f : MFmt) (enc : Nat) : EK :=
  match f with
  | .bf16 => .bf16
  | .e4m3 => .e4m3
  | .e5m2 => .e5m2
  | .mk8 => .mk8
  | .i8 => .int 8
  | .e2m1 => .e2m1
  | .i4 => .int 4
  | .mx4 => .e2m1
  | .sb4 => if enc = 0 then .e2m1 else if enc = 1 then .int 4 else if enc = 2 then .nl4 else .e3m0
  | .sb8 => if enc = 0 then .mk8 else if enc = 1 then .e4m3 else if enc = 2 then .e5m2 else .int 8

/-- Significand planes of a row's own elements (R19, R173). -/
def EK.planes : EK → Nat
  | .bf16 => 8
  | .e4m3 => 4
  | .e5m2 => 3
  | .mk8 => 5
  | .int w => w
  | .e2m1 => 2
  | .nl4 => 5
  | .e3m0 => 1

/-- Sign, exponent field and significand of an element of an IEEE-like format. -/
def fieldsIeee (w f c : Nat) : Bool × Nat × Nat :=
  let e := c / 2 ^ f % 2 ^ (w - 1 - f)
  (c.testBit (w - 1), e, (if e = 0 then 0 else 2 ^ f) + c % 2 ^ f)

/-- Sign, *X* and own *M* of a code. -/
def EK.fields (k : EK) (c : Nat) : Bool × Nat × Nat :=
  match k with
  | .bf16 => fieldsIeee 16 7 c
  | .e4m3 => fieldsIeee 8 3 c
  | .e5m2 => fieldsIeee 8 2 c
  | .mk8 =>
    (match decMk8 c with
    | .fin neg m e =>
      if m = 0 then (false, 0, 0)
      else (neg, ((Nat.log2 m : Int) + e + 16).toNat, m * 2 ^ (4 - Nat.log2 m))
    | _ => (true, 31, 0))
  | .int w => let c := c % 2 ^ w; if 2 ^ (w - 1) ≤ c then (true, 0, 2 ^ w - c) else (false, 0, c)
  | .e2m1 => fieldsIeee 4 1 c
  | .nl4 => (c % 16 / 8 = 1, 0, Machine.nl4.getD (c % 8) 0)
  | .e3m0 => (c % 16 / 8 = 1, c % 8, if c % 8 = 0 then 0 else 1)

/-- The value that sign, *X* and own *M* stand for, with `prec` planes read (R101). -/
def EK.value (k : EK) (neg : Bool) (x m prec : Nat) : FV :=
  let cut := if prec = 0 then 0 else k.planes - prec
  let t := m / 2 ^ cut * 2 ^ cut
  let e : Nat := if x = 0 then 1 else x
  match k with
  | .bf16 => if x = 255 then (if m % 128 = 0 then .inf neg else .nan false) else .fin neg t ((e : Int) - 134)
  | .e4m3 => if x = 15 && m % 8 = 7 then .nan false else .fin neg t ((e : Int) - 10)
  | .e5m2 => if x = 31 then (if m % 4 = 0 then .inf neg else .nan false) else .fin neg t ((e : Int) - 17)
  | .mk8 => if x = 31 then .nan false else if x = 0 then .fin neg 0 0 else .fin neg t ((x : Int) - 20)
  | .int _ => .fin neg t 0
  | .e2m1 => .fin neg t ((e : Int) - 2)
  | .nl4 => .fin neg t (-4)
  | .e3m0 => .fin neg t ((x : Int) - 4)

/-- In SB4 the code 1000 of encodings 0, 2 and 3 is zero (R92). -/
def sbFields (f : MFmt) (enc c : Nat) : Bool × Nat × Nat :=
  if f = .sb4 && enc != 1 && c % 16 = 8 then (false, 0, 0) else (ekOf f enc).fields c

/-! ## Images -/

/-- Bit (`i`, `k`) of plane `p`; the image is one number, byte 0 lowest. -/
def planeBit (f : MFmt) (img p i k : Nat) : Bool := img.testBit (8 * (imgHdr f + 128 * p + 4 * i) + k)
/-- The number that `n` planes from `p` on spell at (`i`, `k`), most significant first. -/
def planesAt (f : MFmt) (img p i k : Nat) : Nat → Nat
  | 0 => 0
  | n + 1 => (if planeBit f img p i k then 2 ^ n else 0) + planesAt f img (p + 1) i k n

/-- Scale and selector of a row. -/
def imgScale (img i : Nat) : Nat := img / 2 ^ (16 * i) % 256
def imgSel (img i : Nat) : Nat := img / 2 ^ (16 * i + 8) % 256

/-- Row `i` of an A image: 32 values, a NaN row, or a corrupt selector. -/
def imgRow (f : MFmt) (img i prec : Nat) : Block :=
  let b := imgScale img i
  let hdr := imgHdr f != 0
  if isSb f && !selectorOk b (imgSel img i) then .corrupt
  else if hdr && b = 255 then .nanBlock
  else
    let ek := ekOf f (imgSel img i % 4)
    .vals ((List.range 32).map fun k =>
      let m := planesAt f img (1 + imgExp f) i k (imgSig f) / 2 ^ (imgSig f - ek.planes)
      let v := ek.value (planeBit f img 0 i k) (planesAt f img 1 i k (imgExp f)) m prec
      if hdr then v.scale ((b : Int) - 127) else v)

/-- Row `k` of a B tile: 32 values, a NaN row, or a corrupt selector. -/
def bRow (f : MFmt) (row : List Nat) : Block :=
  match f with
  | .mx4 => decMx4 row
  | .sb4 => decBlock false row
  | .sb8 => decBlock true row
  | _ =>
    .vals ((List.range 32).map fun j =>
      let r := (ekOf f 0).fields (rowCode f row j)
      (ekOf f 0).value r.1 r.2.1 r.2.2 0)

/-- Values of a row under the captured SELMODE: a corrupt block is NaN or zero (R95, R195). -/
def Block.resolve (b : Block) (selmode : Nat) : List FV :=
  match b with
  | .vals vs => vs
  | .nanBlock => List.replicate 32 (.nan false)
  | .corrupt => List.replicate 32 (if selmode = 1 then .nan false else .fin false 0 0)

/-! ## What a firing computes (R98-R100) -/

/-- An FA80 pattern of an exact value: no rounding is needed where it is one. -/
def fa80Of (v : FV) : Nat :=
  match v with
  | .nan _ => fa80Nan
  | .inf neg => fa80Inf neg
  | .fin neg m e => (roundFa80 neg ⟨m, e, false⟩).1

/-- Round a sum into f32, as an FA80 pattern, and the flags; overflow is AOVF_INF (R100). -/
def accF32 (neg : Bool) (x : Mag) : Nat × Nat :=
  let r := roundIeee .f32 .rne false neg 0 x
  (fa80Of (decF32 r.1), if r.2 &&& fOF != 0 then fAOVFINF else 0)

/-- Round a sum to i32 (R98, R100). -/
def accI32 (neg : Bool) (x : Mag) : Nat × Nat :=
  let r := roundAt .rne neg 0 x 0
  let i : Int := if neg then -(r.1 : Int) else r.1
  let c := clampInt .i32 i
  (fa80Of (.fin (c < 0) c.natAbs 0), if c = i then 0 else fAOVFSAT)

/-- One output element: the new pattern and its flags (R99, R100). `accf`: 0 FA80, 1 f32, 2 i32. -/
def fireElem (accf : Nat) (as bs : List FV) (acc : Nat) : Nat × Nat :=
  let a := (decFa80 acc).1
  if as.any FV.isNan || bs.any FV.isNan || a.isNan then
    (if accf = 2 then (fa80Of (.fin false 0 0), fNV) else (fa80Nan, 0))
  else
    let ps := (as.zip bs).map fun p => mulFV p.1 p.2
    if ps.any Option.isNone then
      (if accf = 2 then (fa80Of (.fin false 0 0), fNV) else (fa80Nan, fNV))
    else
      let vs := a :: ps.filterMap id
      let pos := vs.any (FV.isInf false)
      let neg := vs.any (FV.isInf true)
      if pos && neg then (if accf = 2 then (fa80Of (.fin false 0 0), fNV) else (fa80Nan, fNV))
      else if pos || neg then
        (if accf = 2 then
          (let i := if neg then intMin .i32 else intMax .i32; (fa80Of (.fin neg i.natAbs 0), fAOVFSAT))
         else (fa80Inf neg, 0))
      else
        let q := minExp vs 0
        let i := sumScaled q vs
        if i = 0 then (fa80Of (.fin (vs.all FV.isNegZero) 0 0), 0)
        else
          let x := magOf i q
          if accf = 0 then
            (let r := roundFa80 (i < 0) x; (r.1, if r.2 then fAOVFINF else 0))
          else if accf = 1 then accF32 (i < 0) x
          else accI32 (i < 0) x

/-! ## The binding word (R178) -/

def bwAq (w : Nat) : Nat := w % 16
def bwBq (w : Nat) : Nat := w / 2 ^ 4 % 16
def bwDq (w : Nat) : Nat := w / 2 ^ 8 % 16
def bwDron (w : Nat) : Bool := w.testBit 13
def bwA (w : Nat) : MFmt := (mfmtOf (w / 2 ^ 14 % 16)).getD .bf16
def bwB (w : Nat) : MFmt := (mfmtOf (w / 2 ^ 18 % 16)).getD .bf16
def bwAccf (w : Nat) : Nat := w / 2 ^ 22 % 4
def bwDfmt (w : Nat) : Nat := w / 2 ^ 24 % 4
def bwAuto (w : Nat) : Bool := w.testBit 26
def bwPrec (w : Nat) : Nat := w / 2 ^ 27 % 16
def bwDcount (w : Nat) : Nat := w / 2 ^ 31 % 2 ^ 16
def bwM (w : Nat) : Nat := w / 2 ^ 47 % 32 + 1
def bwN (w : Nat) : Nat := w / 2 ^ 52 % 32 + 1
def bwGang (w : Nat) : Bool := w.testBit 57
def bwLead (w : Nat) : Nat := w / 2 ^ 58 % 4
def bwZero (w : Nat) : Bool := w.testBit 60
/-- A binding word that `mxbind` refuses (R181). -/
def bwBad (w : Nat) : Bool :=
  w / 2 ^ 61 != 0 || w.testBit 12 || bwAccf w = 3 || 8 < bwPrec w || (mfmtOf (w / 2 ^ 14 % 16)).isNone ||
    (mfmtOf (w / 2 ^ 18 % 16)).isNone
/-- Packed: both formats are 4-bit (R177). -/
def bwPacked (w : Nat) : Bool := fourBit (bwA w) && fourBit (bwB w)
def bwSteps (w : Nat) : Nat := if bwPacked w then 2 else 1
/-- Entry bytes of the rings (R181). -/
def bwABytes (w : Nat) : Nat := imageBytes (bwA w) * bwSteps w
def bwBBytes (w : Nat) : Nat := mRowBytes (bwB w) * 32 * bwSteps w
def bwDBytes (w : Nat) : Nat := if bwDfmt w = 0 then 320 else if bwDfmt w = 2 then 64 else 128

/-! ## A whole firing -/

/-- The result of a firing: the new rows (row number, patterns, flags), and the rows that a corrupt selector of A or of
B touches. -/
structure FireOut where
  rows : List (Nat × List Nat × Nat)
  corruptA : List Nat
  corruptB : Bool

/-- Split a list of numbers into `n` pieces of `k`. -/
def splitN : Nat → Nat → List Nat → List (List Nat)
  | 0, _, _ => []
  | n + 1, k, l => l.take k :: splitN n k (l.drop k)

/-- Operands of a firing: images of A, and rows of B. -/
def fireA (w : Nat) (a : List Byte) : List Nat :=
  let n := natOfBytes a
  (List.range (bwSteps w)).map fun s => n / 2 ^ (8 * s * imageBytes (bwA w))
def fireB (w : Nat) (b : List Byte) : List Block :=
  (splitN (32 * bwSteps w) (mRowBytes (bwB w)) (b.map (·.toNat))).map (bRow (bwB w))

/-- Compute a firing on a tile, given as patterns by element 32 × i + j (R98, R178, R195). -/
def fireAll (w selmode : Nat) (a b : List Byte) (tile : Nat → Nat) : FireOut :=
  let imgs := fireA w a
  let bb := fireB w b
  let ab (i : Nat) : List Block := imgs.map fun img => imgRow (bwA w) img i (bwPrec w)
  let bv := bb.map fun x => x.resolve selmode
  let badB := bb.any fun x => x = .corrupt
  let rows := List.range (bwM w)
  let badA := rows.filter fun i => (ab i).any fun x => x = .corrupt
  let run := rows.filter fun i => !(selmode = 0 && (badB || badA.contains i))
  { corruptA := badA
    corruptB := badB
    rows := run.map fun i =>
      let as := (ab i).flatMap fun x => x.resolve selmode
      let es := (List.range (bwN w)).map fun j =>
        fireElem (bwAccf w) as (bv.map fun r => r.getD j (.fin false 0 0)) (tile (32 * i + j))
      (i, es.map (·.1), es.foldl (fun f e => f ||| e.2) 0) }

/-! ## Plane conversion (R190) -/

/-- What a row of a tile becomes in an image: header bytes, and the fields of its 32 elements. -/
def planeRow (f : MFmt) (selmode : Nat) (row : List Nat) : (Nat × Nat) × List (Bool × Nat × Nat) × Bool :=
  let b := row.getD 0 0
  let sel := row.getD 1 0
  let none32 := List.replicate 32 (false, 0, 0)
  if isSb f && !selectorOk b sel then
    (if selmode = 0 then ((b, sel), none32, true) else if selmode = 1 then ((0xFF, 0x5C), none32, true)
     else ((0, 0x5C), none32, true))
  else
    let enc := sel % 4
    let sh := imgSig f - (ekOf f enc).planes
    ((b, if isSb f then sel else 0),
      (List.range 32).map fun k => let r := sbFields f enc (rowCode f row k); (r.1, r.2.1, r.2.2 * 2 ^ sh), false)

/-- A 32-bit plane word of a row. -/
def planeWord (fs : List (Bool × Nat × Nat)) (g : Bool × Nat × Nat → Bool) : Nat :=
  (List.range 32).foldl (fun n k => if g (fs.getD k (false, 0, 0)) then n + 2 ^ k else n) 0

/-- The image of a tile, and the rows whose selector was corrupt. -/
def planeImage (f : MFmt) (selmode : Nat) (tile : List Nat) : List Byte × List Nat :=
  let rs := (splitN 32 (mRowBytes f) tile).map (planeRow f selmode)
  let hdr := if imgHdr f = 0 then [] else rs.flatMap fun r => [BitVec.ofNat 8 r.1.1, BitVec.ofNat 8 r.1.2]
  let plane (g : Bool × Nat × Nat → Bool) := rs.flatMap fun r => bytesOfNat 4 (planeWord r.2.1 g)
  let ex := (List.range (imgExp f)).flatMap fun p => plane fun e => e.2.1.testBit (imgExp f - 1 - p)
  let sg := (List.range (imgSig f)).flatMap fun p => plane fun e => e.2.2.testBit (imgSig f - 1 - p)
  (hdr ++ plane (fun e => e.1) ++ ex ++ sg,
    (List.range 32).filter fun i => (rs.getD i ((0, 0), [], false)).2.2)

/-- The code that fields came from, or the canonical NaN code or 0 where no code gives them; the flag says the latter. -/
def codeOf (f : MFmt) (enc : Nat) (r : Bool × Nat × Nat) : Nat × Bool :=
  let ek := ekOf f enc
  let sh := imgSig f - ek.planes
  let own : Bool × Nat × Nat := (r.1, r.2.1, r.2.2 / 2 ^ sh)
  let nan := match ek with | .bf16 => 0x7FC0 | .e4m3 => 0x7F | .e5m2 => 0x7E | .mk8 => 0x80 | _ => 0
  let found :=
    if ek = .bf16 then
      let c := (if r.1 then 2 ^ 15 else 0) + r.2.1 * 128 + r.2.2 % 128
      if EK.fields .bf16 c = own then some c else none
    else (List.range (if fourBit f then 16 else 256)).find? fun c => sbFields f enc c = own
  if r.2.2 % 2 ^ sh != 0 then (nan, true)
  else match found with
    | some c => (c, false)
    | none => (nan, true)

/-- Pack the codes of a row. -/
def packRow (f : MFmt) (hdr : List Nat) (codes : List Nat) : List Byte :=
  let body :=
    if f = .bf16 then codes.flatMap fun c => [c % 256, c / 256]
    else if fourBit f then (List.range 16).map fun i => codes.getD (2 * i) 0 % 16 + codes.getD (2 * i + 1) 0 % 16 * 16
    else codes
  (hdr ++ body).map (BitVec.ofNat 8)

/-- The tile of an image: bytes, rows whose selector was corrupt, and whether some element had no code. -/
def unplaneTile (f : MFmt) (selmode : Nat) (image : List Byte) : List Byte × List Nat × Bool :=
  let img := natOfBytes image
  let row (i : Nat) : List Byte × Bool × Bool :=
    let b := imgScale img i
    let sel := imgSel img i
    if isSb f && !selectorOk b sel then
      let h := if selmode = 0 then [b, sel] else if selmode = 1 then [0xFF, 0x5C] else [0, 0x5C]
      (packRow f h (List.replicate 32 0), true, false)
    else
      let cs := (List.range 32).map fun k =>
        codeOf f (sel % 4) (planeBit f img 0 i k, planesAt f img 1 i k (imgExp f), planesAt f img (1 + imgExp f) i k (imgSig f))
      let h := if mHeader f = 0 then [] else if mHeader f = 1 then [b] else [b, sel]
      (packRow f h (cs.map (·.1)), false, cs.any (·.2))
  let rs := (List.range 32).map row
  (rs.flatMap (·.1), (List.range 32).filter fun i => (rs.getD i ([], false, false)).2.1, rs.any fun r => r.2.2)

end Sys2Proof.Machine
end

