-- ==== Sys2Proof/Machine/Ring.lean ====
section
/-! DEFINITION. Rings (R211-R215). -/
namespace Sys2Proof.Machine

/-! ## Ranges in a context's own banks -/

/-- Every byte of `[va, va + n)` lies in a declared bank whose role is scratchpad or operand buffer. -/
def Ctx.ownRange (c : Ctx) (va n : Nat) : Bool :=
  va + n ≤ 2 ^ 19 && (List.range ((va + n + 2 ^ 14 - 1) / 2 ^ 14)).all fun i =>
    i < va / 2 ^ 14 || (i < c.decl.banks.length && c.role i % 2 = 0)

/-- Bytes of a range that `ownRange` accepts, in the order of their addresses. -/
def State.ownBytes (s : State) (c : Ctx) (va : Nat) : Nat → List Byte
  | 0 => []
  | n + 1 =>
    (match c.ownBank va with | .ok k => s.mem.read k | .error _ => 0) :: State.ownBytes s c (va + 1) n

/-- Write bytes of such a range. -/
def State.putOwn (s : State) (c : Ctx) (va : Nat) : List Byte → State
  | [] => s
  | b :: t => State.putOwn (match c.ownBank va with | .ok k => { s with mem := s.mem.write k b } | .error _ => s) c (va + 1) t

/-! ## Rings -/

def State.ring (s : State) (core q : Nat) : Ring := (s.core core).ring q
def State.modRing (s : State) (core q : Nat) (f : Ring → Ring) : State :=
  s.modCore core fun c => { c with rings := c.rings.set q (f (c.ring q)) }

def Ring.n (r : Ring) : Nat := 2 ^ r.log2n
/-- A difference of counters modulo 2^32. -/
def cdiff (a b : Nat) : Nat := (a + 2 ^ 32 - b % 2 ^ 32) % 2 ^ 32
/-- Address of a slot in the defining context's banks (R211). -/
def Ring.addr (r : Ring) (p : Nat) : Nat := r.base + p % r.n * r.entryb
/-- Key of a byte of a slot, through the bank map that `rgdef` recorded (R212). -/
def Ring.key (r : Ring) (core p off : Nat) : Nat :=
  let va := r.addr p + off
  bankKey core (r.banks.getD (va / 2 ^ 14) 0) (va % 2 ^ 14)
/-- The slot is reserved. -/
def Ring.reserved (r : Ring) (p : Nat) : Bool := cdiff p r.cons < cdiff r.rsv r.cons
/-- The slot has been published. -/
def Ring.published (r : Ring) (p : Nat) : Bool := cdiff p r.cons < cdiff r.prod r.cons || r.marks.contains (p % 2 ^ 32)

/-- PROD passes the marked slots, at most `fuel` of them. -/
def Ring.drainMarks (r : Ring) : Nat → Ring
  | 0 => r
  | fuel + 1 =>
    if r.marks.contains r.prod then
      Ring.drainMarks { r with marks := r.marks.erase r.prod, prod := (r.prod + 1) % 2 ^ 32 } fuel
    else r

/-- Publish `n` slots from `p` on (R213). -/
def Ring.publish (r : Ring) (p n : Nat) : Ring :=
  Ring.drainMarks { r with marks := r.marks ++ (List.range n).map fun i => (p + i) % 2 ^ 32 } r.n

/-- Entry bytes of the slot at counter `p`. -/
def State.slotBytes (s : State) (core : Nat) (r : Ring) (p n : Nat) : List Byte :=
  (List.range n).map fun i => s.mem.read (r.key core p i)
/-- Write bytes into the slot at counter `p`. -/
def State.putSlot (s : State) (core : Nat) (r : Ring) (p : Nat) (bs : List Byte) : State :=
  { s with mem := ((List.range bs.length).zip bs).foldl (fun m e => m.write (r.key core p e.1) e.2) s.mem }

/-- `RINGOV` (R215). -/
def ringInfo (async : Bool) (reason q : Nat) : Word :=
  BitVec.ofNat 64 ((if async then 2 ^ 63 else 0) + reason * 256 + q % 16)
def ringov {α : Type} (reason q : Nat) : M α := trap cRINGOV (ringInfo false reason q)

/-- The ring of this core, which must be defined (R214). -/
def needRing (q : Nat) : M Ring := do
  let s ← get
  let r := s.ring s.cx.id.core q
  if r.defd then pure r else ringov 8 q

def setRing (q : Nat) (r : Ring) : M Unit := modify fun s => s.modRing s.cx.id.core q fun _ => r

/-! ## Ring instructions (R212-R214) -/

/-- A legal definition (R211, R212). -/
def ringDefOk (c : Ctx) (base cfg : Nat) : Bool :=
  let e := cfg / 2 ^ 16 % 2 ^ 16
  let g := cfg / 2 ^ 12 % 16
  cfg / 2 ^ 32 = 0 && cfg % 2 ^ 12 = 0 && e % 8 = 0 && 8 ≤ e && e ≤ 16384 && g ≤ 12 && base % 128 = 0 &&
    base < 2 ^ 19 && c.ownRange base (e * 2 ^ g)

def execRgdef (q : Nat) (a b : Src) (s : State) := run (do
  notInDrain
  let base ← readS a
  let cfg ← readS b
  let s ← get
  if (s.ring s.cx.id.core q).engine != 0 then ringov 5 q
  if !ringDefOk s.cx base.toNat cfg.toNat then ringov 6 q
  freeS a
  freeS b
  setRing q { Ring.undef with defd := true, base := base.toNat, entryb := cfg.toNat / 2 ^ 16 % 2 ^ 16,
                              log2n := cfg.toNat / 2 ^ 12 % 16, owner := s.cx.cid, banks := s.cx.decl.banks }
  advance) s

def execRgrsv (d q : Nat) (b : Src) (s : State) := run (do
  notInDrain
  let r ← needRing q
  let n := (← readS b).toNat
  if n = 0 || r.n < n then ringov 1 q
  freeS b
  if r.n < cdiff r.rsv r.cons + n then writeS d (BitVec.allOnes 64)
  else do
    writeS d (BitVec.ofNat 64 r.rsv)
    setRing q { r with rsv := (r.rsv + n) % 2 ^ 32 }
  advance) s

def execRgpub (q : Nat) (a b : Src) (s : State) := run (do
  notInDrain
  let r ← needRing q
  let p := (← readS a).toNat % 2 ^ 32
  let n := (← readS b).toNat
  if n = 0 || r.n < n || (List.range n).any fun i => !r.reserved (p + i) || r.published (p + i) then ringov 2 q
  needReleased false
  freeS a
  freeS b
  setRing q (r.publish p n)
  advance) s

def execRgcon (d q : Nat) (b : Src) (s : State) := run (do
  notInDrain
  let r ← needRing q
  if r.engine != 0 then ringov 4 q
  let n := (← readS b).toNat
  if n = 0 || r.n < n then ringov 3 q
  freeS b
  if cdiff r.prod r.cons < n then writeS d (BitVec.allOnes 64)
  else do
    writeS d (BitVec.ofNat 64 r.cons)
    setRing q { r with cons := (r.cons + n) % 2 ^ 32 }
  advance) s

/-- The descriptor word (R211). -/
def Ring.desc (r : Ring) : Word :=
  BitVec.ofNat 64 (r.engine * 2 ^ 61 + r.base * 2 ^ 32 + r.entryb * 2 ^ 16 + r.log2n * 2 ^ 12 + 1)

def execRgst (op : RgOp) (d q : Nat) (b : Src) (s : State) := run (do
  notInDrain
  let r ← needRing q
  match op with
  | .desc => writeS d r.desc
  | .prod => writeS d (BitVec.ofNat 64 r.prod)
  | .rsv => writeS d (BitVec.ofNat 64 r.rsv)
  | .cons => writeS d (BitVec.ofNat 64 r.cons)
  | .addr => do
    let x ← readS b
    freeS b
    writeS d (BitVec.ofNat 64 (r.addr x.toNat))
  advance) s

end Sys2Proof.Machine
end

