-- ==== Sys2Proof/Machine/Fn.lean ====
section
/-! DEFINITION. The float functions of R164: each value computed to many more bits than any format holds, then rounded
once. Where the exact value is irrational its bits are cut at a place far below every tie (notes/assumptions/8.md). -/
namespace Sys2Proof.Machine

/-- Integer square root by bits, from bit `k` down. -/
def isqrtFrom (n : Nat) : Nat → Nat → Nat
  | 0, r => r
  | k + 1, r =>
    let t := r + 2 ^ k
    isqrtFrom n k (if t * t ≤ n then t else r)
def isqrt (n : Nat) : Nat := isqrtFrom n (bitLen n / 2 + 1) 0

/-- 1 / (m × 2^e). -/
def rcpMag (m : Nat) (e : Int) : Mag :=
  let k := bitLen m + 96
  ⟨2 ^ k / m, -(k : Int) - e, 2 ^ k % m != 0⟩

/-- 1 / √(m × 2^e). -/
def rsqrtMag (m : Nat) (e : Int) : Mag :=
  let m := if e % 2 = 0 then m else m * 2
  let e := if e % 2 = 0 then e else e - 1
  let k := bitLen m + 96
  let r := isqrt (2 ^ (2 * k) / m)
  ⟨r, -(k : Int) - e / 2, r * r * m != 2 ^ (2 * k)⟩

/-! Fixed point with 700 fraction bits. -/

def fpBits : Nat := 700
def fpOne : Nat := 2 ^ fpBits

/-- Σ over n terms of x^(2k+1)/(2k+1), for x in fixed point: artanh x. -/
def artanhFrom (x2 : Nat) : Nat → Nat → Nat → Nat
  | 0, _, _ => 0
  | n + 1, p, k => p / (2 * k + 1) + artanhFrom x2 n (p * x2 / fpOne) (k + 1)
def artanhFp (x : Nat) : Nat := artanhFrom (x * x / fpOne) 240 x 0

/-- ln 2 = 2 artanh (1/3). -/
def ln2Fp : Nat := 2 * artanhFp (fpOne / 3)

/-- Σ x^n/n!: e^x for 0 ≤ x < 1. -/
def expFrom (x : Nat) : Nat → Nat → Nat → Nat
  | 0, _, _ => 0
  | n + 1, t, k => t + expFrom x n (t * x / fpOne / (k + 1)) (k + 1)
def expFp (x : Nat) : Nat := expFrom x 160 fpOne 0

/-- 2^x for x = ±m × 2^e. -/
def exp2Mag (neg : Bool) (m : Nat) (e : Int) : Mag :=
  if ltPow (2 ^ 15) 0 m e then ⟨1, if neg then -40000 else 40000, false⟩
  else
    -- x = i + f, f in [0, 1), f a multiple of 2^q
    let q : Int := if e < 0 then e else 0
    let s := scaled neg m e q
    let d : Int := 2 ^ (-q).toNat
    let i := s / d
    let f := (s % d).toNat
    if f = 0 then ⟨1, i, false⟩
    else ⟨expFp (shiftNat f (q + fpBits) * ln2Fp / fpOne) / 2 ^ 300, i - (fpBits - 300 : Nat), true⟩

/-- log₂ (m × 2^e): sign and magnitude. -/
def log2Mag (m : Nat) (e : Int) : Bool × Mag :=
  let l := bitLen m
  let ex : Int := e + l - 1
  if m = 2 ^ (l - 1) then (ex < 0, ⟨ex.natAbs, 0, false⟩)
  else
    let x : Nat := shiftNat m (fpBits + 1 - (l : Int))
    let frac : Nat := 2 * artanhFp ((x - fpOne) * fpOne / (x + fpOne)) * fpOne / ln2Fp
    let cut : Nat := frac / 2 ^ 200
    let v : Int := ex * 2 ^ (fpBits - 200) + cut
    if 0 ≤ v then (false, ⟨v.natAbs, -(fpBits - 200 : Nat), true⟩)
    else (true, ⟨v.natAbs - 1, -(fpBits - 200 : Nat), true⟩)

/-- tanh (m × 2^e) for a positive value. -/
def tanhMag (m : Nat) (e : Int) : Mag :=
  if ltPow 72 0 m e then ⟨2 ^ 200 - 1, -200, true⟩
  else if ltPow m e 1 (-64) then ⟨m * 2 ^ 100 - 1, e - 100, true⟩
  else
    let y := shiftNat m (e + 1 + fpBits)
    let k := y / ln2Fp
    let ex := expFp (y % ln2Fp) * 2 ^ k
    ⟨(ex - fpOne) * 2 ^ 300 / (ex + fpOne), -300, true⟩

inductive FnKind where
  | rcp | rsqrt | exp2 | log2 | tanh
deriving DecidableEq, Repr

/-- The value 1.0 of a format, and its infinity. -/
def oneOf (ty : ETy) : Nat := (roundIeee ty .rne false false 0 ⟨1, 0, false⟩).1
def infOf (ty : ETy) (neg : Bool) : Nat := (infTo ty false neg).1

/-- A function of R164 on one element: special cases by the table, every other value rounded once. -/
def fnFloat (k : FnKind) (ty : ETy) (rnd : Rnd) (sat : Bool) (u x : Nat) : Nat × Nat :=
  let sgn (neg : Bool) (b : Nat) : Nat := signBits (tyWidth ty) neg + b
  match decElem ty x with
  | .nan sig => (nanOf ty, if sig then fNV else 0)
  | .inf neg =>
    match k with
    | .rcp => (sgn neg 0, 0)
    | .rsqrt => if neg then (nanOf ty, fNV) else (0, 0)
    | .exp2 => if neg then (0, 0) else (infOf ty false, 0)
    | .log2 => if neg then (nanOf ty, fNV) else (infOf ty false, 0)
    | .tanh => (sgn neg (oneOf ty), 0)
  | .fin neg m e =>
    if m = 0 then
      match k with
      | .rcp => (infOf ty neg, 0)
      | .rsqrt => (infOf ty neg, 0)
      | .exp2 => (oneOf ty, 0)
      | .log2 => (infOf ty true, 0)
      | .tanh => (sgn neg 0, 0)
    else
      match k with
      | .rcp => roundTo ty rnd sat neg u (rcpMag m e)
      | .rsqrt => if neg then (nanOf ty, fNV) else roundTo ty rnd sat false u (rsqrtMag m e)
      | .exp2 => roundTo ty rnd sat false u (exp2Mag neg m e)
      | .log2 =>
        if neg then (nanOf ty, fNV)
        else
          let r := log2Mag m e
          roundTo ty rnd sat r.1 u r.2
      | .tanh => roundTo ty rnd sat neg u (tanhMag m e)

end Sys2Proof.Machine
end

