-- ==== Sys2Proof/Machine/Vector.lean ====
section
/-! DEFINITION. The vector instructions of pages 0 and 4 (R153, R154, R156-R163). -/
namespace Sys2Proof.Machine

/-! ## Loads and stores (R156) -/

/-- Effective address of `vld`, `vst` and `vldc`: the displacement is in units of 64 bytes. -/
def eaV (x : Word) (imm : Int) : Word := x + BitVec.ofInt 64 (64 * imm)

def execVld (q : MQ) (d : Nat) (a : Src) (imm : Int) (s : State) := run (do
  let x ← readS a
  let ea := eaV x imm
  if ea.toNat % 128 != 0 then trap cALIGN ea
  loadV .load (tyWidth q.ty) q.k q.zero d ea (freeS a)) s

def execVst (_ty : ETy) (k : Nat) (d a : Src) (imm : Int) (s : State) := run (do
  let x ← readS a
  let v ← readV d
  let mask ← readK k
  let ea := eaV x imm
  if ea.toNat % 128 != 0 then trap cALIGN ea
  storeBytes ea ((List.range 128).filter fun j => mask.getLsbD j) (vBytes v) (do freeS a; freeV d)) s

/-! ## Arithmetic (R157) -/

/-- Two arguments of an element function. -/
def arg2 (f : Nat → Nat → Nat → Nat × Nat) (l : List Nat) (_ u : Nat) : Nat × Nat := f (l.getD 0 0) (l.getD 1 0) u
def arg1 (f : Nat → Nat → Nat × Nat) (l : List Nat) (_ u : Nat) : Nat × Nat := f (l.getD 0 0) u

/-- Element arithmetic in a type of class FI: exact on integers, rounded once on floats. -/
def arith2 (q : VQ) (fi : Int → Int → Int) (ff : ETy → Rnd → Bool → Nat → FV → FV → Nat × Nat) (x y u : Nat) : Nat × Nat :=
  if tyFloat q.ty then ff q.ty q.rnd q.sat u (decElem q.ty x) (decElem q.ty y)
  else (intResult q.ty q.sat (fi (intOf q.ty x) (intOf q.ty y)), 0)

def isRsr (r : Rnd) : Bool := r = .rsr

def vArith2 (q : VQ) (d : Nat) (a b : Src) (fi : Int → Int → Int)
    (ff : ETy → Rnd → Bool → Nat → FV → FV → Nat × Nat) : M Unit :=
  vMap (tyWidth q.ty) q.k q.zero d [a, b] false (isRsr q.rnd) (arg2 (arith2 q fi ff))

def subFloat (ty : ETy) (rnd : Rnd) (sat : Bool) (u : Nat) (a b : FV) : Nat × Nat := addFloat ty rnd sat u a b.neg

def execVadd (q : VQ) (d : Nat) (a b : Src) (s : State) := run (vArith2 q d a b (· + ·) addFloat) s
def execVsub (q : VQ) (d : Nat) (a b : Src) (s : State) := run (vArith2 q d a b (· - ·) subFloat) s
def execVmul (q : VQ) (d : Nat) (a b : Src) (s : State) := run (vArith2 q d a b (· * ·) mulFloat) s

def fmaElem (q : VQ) (x y z u : Nat) : Nat × Nat :=
  if tyFloat q.ty then fmaFloat q.ty q.rnd q.sat u (decElem q.ty x) (decElem q.ty y) (decElem q.ty z)
  else (intResult q.ty q.sat (intOf q.ty x * intOf q.ty y + intOf q.ty z), 0)

/-- `vfma` (R157): without C the addend is `vD`. -/
def execVfma (q : VQ) (d : Nat) (a b : Src) (c : Option Src) (s : State) := run (
  match c with
  | some c => vMap (tyWidth q.ty) q.k q.zero d [a, b, c] false (isRsr q.rnd)
      fun l _ u => fmaElem q (l.getD 0 0) (l.getD 1 0) (l.getD 2 0) u
  | none => vMap (tyWidth q.ty) q.k q.zero d [a, b] true (isRsr q.rnd)
      fun l old u => fmaElem q (l.getD 0 0) (l.getD 1 0) old u) s

/-- The smaller or the larger of two elements (R157). -/
def pickElem (ty : ETy) (less : Bool) (x y : Nat) : Nat × Nat :=
  if tyFloat ty then pickFloat ty less x y
  else (if (if less then intOf ty y < intOf ty x else intOf ty x < intOf ty y) then y else x, 0)

def execVmin (q : MQ) (d : Nat) (a b : Src) (s : State) :=
  run (vMap (tyWidth q.ty) q.k q.zero d [a, b] false false (arg2 fun x y _ => pickElem q.ty true x y)) s
def execVmax (q : MQ) (d : Nat) (a b : Src) (s : State) :=
  run (vMap (tyWidth q.ty) q.k q.zero d [a, b] false false (arg2 fun x y _ => pickElem q.ty false x y)) s

/-- `vabs` and `vneg` on a float pattern: a NaN is made canonical, the sign bit of any other is set by `f`. -/
def signFloat (ty : ETy) (f : Bool → Bool) (x : Nat) : Nat × Nat :=
  let w := tyWidth ty
  match decElem ty x with
  | .nan sig => (nanOf ty, if sig then fNV else 0)
  | _ => (x % 2 ^ (w - 1) + signBits w (f (x.testBit (w - 1))), 0)

def signElem (q : VQ) (fi : Int → Int) (f : Bool → Bool) (x : Nat) : Nat × Nat :=
  if tyFloat q.ty then signFloat q.ty f x else (intResult q.ty q.sat (fi (intOf q.ty x)), 0)

def vSign (q : VQ) (d : Nat) (a : Src) (fi : Int → Int) (f : Bool → Bool) : M Unit :=
  vMap (tyWidth q.ty) q.k q.zero d [a] false (isRsr q.rnd) (arg1 fun x _ => signElem q fi f x)

def execVabs (q : VQ) (d : Nat) (a : Src) (s : State) := run (vSign q d a (fun i => i.natAbs) fun _ => false) s
def execVneg (q : VQ) (d : Nat) (a : Src) (s : State) := run (vSign q d a (fun i => -i) fun b => !b) s

/-! ## Bitwise, shift and count (R158) -/

def vBits2 (q : MQ) (d : Nat) (a b : Src) (f : Nat → Nat → Nat) : M Unit :=
  vMap (tyWidth q.ty) q.k q.zero d [a, b] false false (arg2 fun x y _ => (f x y, 0))
def vBits1 (q : MQ) (d : Nat) (a : Src) (f : Nat → Nat) : M Unit :=
  vMap (tyWidth q.ty) q.k q.zero d [a] false false (arg1 fun x _ => (f x, 0))

def execVmov (q : MQ) (d : Nat) (a : Src) (s : State) := run (vBits1 q d a id) s
def execVand (q : MQ) (d : Nat) (a b : Src) (s : State) := run (vBits2 q d a b (· &&& ·)) s
def execVor (q : MQ) (d : Nat) (a b : Src) (s : State) := run (vBits2 q d a b (· ||| ·)) s
def execVxor (q : MQ) (d : Nat) (a b : Src) (s : State) := run (vBits2 q d a b (· ^^^ ·)) s

/-- Arithmetic shift right of a pattern of `w` bits. -/
def sraBits (w x n : Nat) : Nat :=
  if x.testBit (w - 1) then (x + 2 ^ w * (2 ^ w - 1)) / 2 ^ n % 2 ^ w else x / 2 ^ n

def execVsll (q : MQ) (d : Nat) (a b : Src) (s : State) :=
  run (vBits2 q d a b fun x y => x * 2 ^ (y % tyWidth q.ty) % 2 ^ tyWidth q.ty) s
def execVsrl (q : MQ) (d : Nat) (a b : Src) (s : State) :=
  run (vBits2 q d a b fun x y => x / 2 ^ (y % tyWidth q.ty)) s
def execVsra (q : MQ) (d : Nat) (a b : Src) (s : State) :=
  run (vBits2 q d a b fun x y => sraBits (tyWidth q.ty) x (y % tyWidth q.ty)) s
def execVfsh (q : MQ) (d : Nat) (a b c : Src) (s : State) :=
  run (vMap (tyWidth q.ty) q.k q.zero d [a, b, c] false false fun l _ _ =>
    ((l.getD 0 0 * 2 ^ tyWidth q.ty + l.getD 1 0) / 2 ^ (l.getD 2 0 % tyWidth q.ty) % 2 ^ tyWidth q.ty, 0)) s
def execVclz (q : MQ) (d : Nat) (a : Src) (s : State) :=
  run (vBits1 q d a fun x => clzBits x (tyWidth q.ty)) s
def execVpopc (q : MQ) (d : Nat) (a : Src) (s : State) :=
  run (vBits1 q d a fun x => popBits x (tyWidth q.ty)) s

/-! ## Compare, select, masks (R159, R160) -/

/-- A condition on two elements: truth and flags (R116, R159). -/
def cmpElem (ty : ETy) (c : Cond) (x y : Nat) : Bool × Nat :=
  let a := decElem ty x
  let b := decElem ty y
  (condFV c a b, if a.isSig || b.isSig then fNV else 0)

/-- A mask whose element `i` of width `w` has all its bits equal to `f i`. -/
def maskOf (w : Nat) (f : Nat → Bool) : KReg :=
  BitVec.ofNat 128 (packNat 1 ((List.range 128).map fun j => if f (8 * j / w) then 1 else 0))

def execVcmp (c : Cond) (q : MQ) (d : Nat) (a b : Src) (s : State) := run (do
  let x ← readV a
  let y ← readV b
  let mask ← readK q.k
  let old ← if q.k != 0 && !q.zero then readK d else pure 0
  let w := tyWidth q.ty
  let rs := (List.range (elemCount w)).map fun i =>
    if active w mask i then cmpElem q.ty c (elem w x i) (elem w y i) else (false, 0)
  freeV a
  freeV b
  setFlags (rs.foldl (fun f r => f ||| r.2) 0)
  let act := maskOf w fun i => active w mask i
  writeK d ((maskOf w fun i => (rs.getD i (false, 0)).1) &&& act ||| (old &&& ~~~act))
  advance) s

def execVsel (ty : ETy) (k d : Nat) (a b : Src) (s : State) := run (do
  let x ← readV a
  let y ← readV b
  let mask ← readK k
  let w := tyWidth ty
  freeV a
  freeV b
  writeV d (packV w ((List.range (elemCount w)).map fun i => if active w mask i then elem w x i else elem w y i))
  advance) s

def kop2 (op : KOp) (x y : KReg) : KReg :=
  match op with
  | .and => x &&& y
  | .or => x ||| y
  | .xor => x ^^^ y
  | .andn => x &&& ~~~y
  | .orn => x ||| ~~~y
  | .not => ~~~x

def execKop (op : KOp) (d : Nat) (a b : Src) (s : State) := run (do
  let x ← readK a.n
  let y ← if op = .not then pure 0 else readK b.n
  freeK a
  freeK b
  writeK d (kop2 op x y)
  advance) s

def execKmov (op : KMov) (d : Nat) (a : Src) (s : State) := run (do
  match op with
  | .copy => do
    let x ← readK a.n
    freeK a
    writeK d x
  | .lo => do
    let x ← readS a
    let k ← readK d
    freeS a
    writeK d (k.extractLsb' 64 64 ++ x)
  | .hi => do
    let x ← readS a
    let k ← readK d
    freeS a
    writeK d (x ++ k.extractLsb' 0 64)
  | .getlo => do
    let x ← readK a.n
    freeK a
    writeS d (x.extractLsb' 0 64)
  | .gethi => do
    let x ← readK a.n
    freeK a
    writeS d (x.extractLsb' 64 64)
  | .set => writeK d (BitVec.allOnes 128)
  | .clr => writeK d 0
  advance) s

def execKpop (ty : ETy) (d : Nat) (a : Src) (s : State) := run (do
  let x ← readK a.n
  freeK a
  let w := tyWidth ty
  writeS d (BitVec.ofNat 64 ((List.range (elemCount w)).filter fun i => active w x i).length)
  advance) s

/-! ## Moves and permutes (R161) -/

def execVbcast (q : MQ) (d : Nat) (a : Src) (s : State) := run (do
  let x ← readS a
  let mask ← readK q.k
  let old ← readOld false q.k q.zero d
  let w := tyWidth q.ty
  freeS a
  writeV d (packV w ((laneResults w (elemCount w) mask q.zero [] old [] fun _ _ _ => (x.toNat % 2 ^ w, 0)).map (·.1)))
  advance) s

def execVext (ty : ETy) (d : Nat) (a b : Src) (s : State) := run (do
  let v ← readV a
  let i ← readS b
  freeV a
  freeS b
  writeS d (BitVec.ofNat 64 (elem (tyWidth ty) v (i.toNat % elemCount (tyWidth ty))))
  advance) s

/-- `vins` reads its destination (R161). -/
def execVins (ty : ETy) (d : Nat) (a b : Src) (s : State) := run (do
  let x ← readS a
  let i ← readS b
  let old ← readV ⟨d, false⟩
  freeS a
  freeS b
  let w := tyWidth ty
  let j := i.toNat % elemCount w
  writeV d (packV w ((List.range (elemCount w)).map fun m => if m = j then x.toNat % 2 ^ w else elem w old m))
  advance) s

def execVperm (q : MQ) (d : Nat) (a b : Src) (s : State) := run (
  let w := tyWidth q.ty
  vWhole w q.k q.zero d [a, b] false fun vs _ _ =>
    (List.range (elemCount w)).map fun i => (elem w (vs.getD 0 0) (elem w (vs.getD 1 0) i % elemCount w), 0)) s

def execVrot (q : MQ) (d : Nat) (a b : Src) (s : State) := run (do
  let v ← readV a
  let r ← readS b
  let mask ← readK q.k
  let old ← readOld false q.k q.zero d
  let w := tyWidth q.ty
  let n := elemCount w
  freeV a
  freeS b
  writeV d (packV w ((List.range n).map fun i =>
    if active w mask i then elem w v ((i + r.toNat) % n) else if q.zero then 0 else elem w old i))
  advance) s

/-! ## Reductions and scans (R162) -/

/-- The active elements of a register, in order. -/
def activeElems (w : Nat) (mask : KReg) (v : VReg) : List Nat :=
  ((List.range (elemCount w)).filter fun i => active w mask i).map fun i => elem w v i

/-- The greatest of a list of elements; a NaN among floats gives the canonical NaN (R162). -/
def greatest (ty : ETy) : List Nat → Nat × Nat
  | [] => (0, 0)
  | x :: t =>
    if tyFloat ty then
      let vs := (x :: t).map (decElem ty)
      if vs.any FV.isNan then (nanOf ty, if vs.any FV.isSig then fNV else 0)
      else (t.foldl (fun m y => if ltFV (decElem ty m) (decElem ty y) then y else m) x, 0)
    else (t.foldl (fun m y => if intOf ty m < intOf ty y then y else m) x, 0)

/-- The exact sum of a list of elements, rounded once (R162). -/
def sumElems (q : VQ) (u : Nat) (xs : List Nat) : Nat × Nat :=
  if tyFloat q.ty then
    let vs := xs.map (decElem q.ty)
    roundSum q.ty q.rnd q.sat u (sumOf vs (vs.all FV.isNegZero))
  else (intResult q.ty q.sat (xs.foldl (fun i x => i + intOf q.ty x) 0), 0)

def execVgmax (q : MQ) (d : Nat) (a : Src) (s : State) := run (
  let w := tyWidth q.ty
  vWhole w q.k q.zero d [a] false fun vs mask _ =>
    List.replicate (elemCount w) (greatest q.ty (activeElems w mask (vs.getD 0 0)))) s

def execVgsum (q : VQ) (d : Nat) (a : Src) (s : State) := run (
  let w := tyWidth q.ty
  vWhole w q.k q.zero d [a] (isRsr q.rnd) fun vs mask us =>
    let xs := activeElems w mask (vs.getD 0 0)
    (List.range (elemCount w)).map fun i => sumElems q (us.getD i 0) xs) s

def execVscan (q : VQ) (d : Nat) (a : Src) (s : State) := run (
  let w := tyWidth q.ty
  vWhole w q.k q.zero d [a] (isRsr q.rnd) fun vs mask us =>
    (List.range (elemCount w)).map fun i =>
      sumElems q (us.getD i 0) (((List.range (i + 1)).filter fun j => active w mask j).map fun j => elem w (vs.getD 0 0) j)) s

/-! ## Compress, spread and iota (R163) -/

def execVcompr (q : MQ) (d : Nat) (a : Src) (s : State) := run (do
  let v ← readV a
  let mask ← readK q.k
  let old ← readOld false q.k q.zero d
  let w := tyWidth q.ty
  let xs := activeElems w mask v
  freeV a
  writeV d (packV w ((List.range (elemCount w)).map fun i =>
    match xs[i]? with
    | some x => x
    | none => if q.zero then 0 else elem w old i))
  advance) s

/-- Active positions below `i`. -/
def rankOf (w : Nat) (mask : KReg) (i : Nat) : Nat := ((List.range i).filter fun j => active w mask j).length

def execVspread (q : MQ) (d : Nat) (a : Src) (s : State) := run (
  let w := tyWidth q.ty
  vWhole w q.k q.zero d [a] false fun vs mask _ =>
    (List.range (elemCount w)).map fun i => (elem w (vs.getD 0 0) (rankOf w mask i), 0)) s

def execViota (q : MQ) (d : Nat) (s : State) := run (
  let w := tyWidth q.ty
  vWhole w q.k q.zero d [] false fun _ mask _ =>
    (List.range (elemCount w)).map fun i => (rankOf w mask i % 2 ^ w, 0)) s

end Sys2Proof.Machine
end

