-- ==== Sys2Proof/Machine/VectorFn.lean ====
section
/-! DEFINITION. The vector instructions of page 5 (R155, R164-R171): functions, conversions, packing, dot product,
selector blocks in registers and memory, the generator. -/
namespace Sys2Proof.Machine

def vFn (k : FnKind) (q : VQ) (d : Nat) (a : Src) : M Unit :=
  vMap (tyWidth q.ty) q.k q.zero d [a] false (isRsr q.rnd) (arg1 fun x u => fnFloat k q.ty q.rnd q.sat u x)

def execVrcp (q : VQ) (d : Nat) (a : Src) (s : State) := run (vFn .rcp q d a) s
def execVrsqrt (q : VQ) (d : Nat) (a : Src) (s : State) := run (vFn .rsqrt q d a) s
def execVexp2 (q : VQ) (d : Nat) (a : Src) (s : State) := run (vFn .exp2 q d a) s
def execVlog2 (q : VQ) (d : Nat) (a : Src) (s : State) := run (vFn .log2 q d a) s
def execVtanh (q : VQ) (d : Nat) (a : Src) (s : State) := run (vFn .tanh q d a) s

/-! ## Conversions (R166, R167) -/

/-- `vcvt` (R166): destination elements past the element count are inactive whatever the mask. -/
def execVcvt (q : VQ) (d : Nat) (a : Src) (sty : ETy) (s : State) := run (do
  let ws := tyWidth sty
  let wd := tyWidth q.ty
  let n := 1024 / max ws wd
  let v ← readV a
  let mask ← readK q.k
  let old ← readOld (wd < ws && !q.zero) q.k q.zero d
  let us ← seeds (isRsr q.rnd) n
  let res := (List.range (elemCount wd)).map fun i =>
    if i < n && active wd mask i then convElem q.ty sty q.rnd q.sat (us.1.getD i 0) (elem ws v i)
    else (if q.zero then 0 else elem wd old i, 0)
  freeV a
  setFlags (orFlags res)
  keepSeed (isRsr q.rnd) us.2
  writeV d (packV wd (res.map (·.1)))
  advance) s

/-- The wide type of a narrow one (R167). -/
def wideOf : ETy → ETy
  | .bf16 => .f32
  | .f16 => .f32
  | .e4m3 => .bf16
  | .e5m2 => .bf16
  | .mk8 => .bf16
  | .e2m1 => .e4m3
  | .i16 => .i32
  | .n16 => .n32
  | .i8 => .i16
  | .n8 => .n16
  | .i32 => .i64
  | .n32 => .n64
  | t => t

def execVpack (q : VQ) (d : Nat) (a b : Src) (s : State) := run (
  let w := tyWidth q.ty
  let wt := wideOf q.ty
  let n := elemCount (tyWidth wt)
  vWhole w q.k q.zero d [a, b] (isRsr q.rnd) fun vs _ us =>
    (List.range (2 * n)).map fun i =>
      let x := if i < n then elem (tyWidth wt) (vs.getD 0 0) i else elem (tyWidth wt) (vs.getD 1 0) (i - n)
      convElem q.ty wt q.rnd q.sat (us.getD i 0) x) s

def execVunpk (q : MQ) (d : Nat) (a : Src) (half : Nat) (s : State) := run (
  let wt := wideOf q.ty
  let n := elemCount (tyWidth wt)
  vWhole (tyWidth wt) q.k q.zero d [a] false fun vs _ _ =>
    (List.range n).map fun i => convElem wt q.ty .rne false 0 (elem (tyWidth q.ty) (vs.getD 0 0) (half * n + i))) s

/-! ## Rounding, classes, scaling (R165) -/

def roundElem (q : VQ) (x u : Nat) : Nat × Nat :=
  match decElem q.ty x with
  | .nan sig => (nanOf q.ty, if sig then fNV else 0)
  | .inf _ => (x, 0)
  | .fin neg m e =>
    if m = 0 then (x, 0)
    else
      let r := roundAt q.rnd neg u ⟨m, e, false⟩ 0
      if r.2 then ((roundIeee q.ty .rne false neg 0 ⟨r.1, 0, false⟩).1, fNX) else (x, 0)

def execVround (q : VQ) (d : Nat) (a : Src) (s : State) :=
  run (vMap (tyWidth q.ty) q.k q.zero d [a] false (isRsr q.rnd) (arg1 fun x u => roundElem q x u)) s

/-- The class bit of an element (R165). -/
def classOf (ty : ETy) (x : Nat) : Nat :=
  match decElem ty x with
  | .nan sig => if sig then 8 else 9
  | .inf neg => if neg then 0 else 7
  | .fin neg m _ =>
    if m = 0 then (if neg then 3 else 4)
    else if m < 2 ^ ((fmtOf ty).p - 1) then (if neg then 2 else 5)
    else if neg then 1 else 6

def execVclass (q : MQ) (d : Nat) (a : Src) (s : State) :=
  run (vMap (tyWidth q.ty) q.k q.zero d [a] false false (arg1 fun x _ => (2 ^ classOf q.ty x, 0))) s

/-- A scale beyond ±4,096 gives what ±4,096 gives: overflow, or less than any last place. -/
def clampScale (i : Int) : Int := if i < -4096 then -4096 else if 4096 < i then 4096 else i

def scaleElem (q : VQ) (x y u : Nat) : Nat × Nat :=
  let w := tyWidth q.ty
  let b : Int := if y.testBit (w - 1) then (y : Int) - 2 ^ w else y
  match decElem q.ty x with
  | .nan sig => (nanOf q.ty, if sig then fNV else 0)
  | .inf _ => (x, 0)
  | .fin neg m e => roundTo q.ty q.rnd q.sat neg u ⟨m, e + clampScale b, false⟩

def execVscale (q : VQ) (d : Nat) (a b : Src) (s : State) :=
  run (vMap (tyWidth q.ty) q.k q.zero d [a, b] false (isRsr q.rnd) (arg2 fun x y u => scaleElem q x y u)) s

/-! ## Dot product (R168) -/

/-- Source elements of lane `l`. -/
def laneElems (ws : Nat) (v : VReg) (l : Nat) : List Nat :=
  (List.range (32 / ws)).map fun j => elem ws v (32 / ws * l + j)

/-- The sum of products and an accumulator, by the rows of R99; signalling NaNs set NV (R75). -/
def dotSum (acc : FV) (as bs : List FV) : Sum :=
  let ps := (as.zip bs).map fun p => mulFV p.1 p.2
  if acc.isNan || as.any FV.isNan || bs.any FV.isNan then .nan (acc.isSig || as.any FV.isSig || bs.any FV.isSig)
  else if ps.any Option.isNone then .nan true
  else
    let vs := acc :: ps.filterMap id
    sumOf vs (vs.all FV.isNegZero)

def dotLane (q : VQ) (as bs : List Nat) (old u : Nat) : Nat × Nat :=
  if tyFloat q.ty then
    roundSum .f32 q.rnd q.sat u (dotSum (decF32 old) (as.map (decElem q.ty)) (bs.map (decElem q.ty)))
  else
    let i := (as.zip bs).foldl (fun i p => i + intOf q.ty p.1 * intOf q.ty p.2) (intOf .i32 old)
    (intResult .i32 q.sat i, 0)

def execVdot (q : VQ) (d : Nat) (a b : Src) (s : State) := run (do
  let x ← readV a
  let y ← readV b
  let mask ← readK q.k
  let old ← readV ⟨d, false⟩
  let us ← seeds (isRsr q.rnd) 32
  let ws := tyWidth q.ty
  let res := (List.range 32).map fun l =>
    if active 32 mask l then dotLane q (laneElems ws x l) (laneElems ws y l) (elem 32 old l) (us.1.getD l 0)
    else (if q.zero then 0 else elem 32 old l, 0)
  freeV a
  freeV b
  setFlags (orFlags res)
  keepSeed (isRsr q.rnd) us.2
  writeV d (packV 32 (res.map (·.1)))
  advance) s

/-! ## Selector blocks (R169, R170) -/

/-- The 32 f32 lanes of a register. -/
def lanesF32 (v : VReg) : List FV := (List.range 32).map fun l => decF32 (elem 32 v l)

def execVqst (sb8 : Bool) (allow : Nat) (d a : Src) (imm : Int) (s : State) := run (do
  let x ← readS a
  let v ← readV d
  let r := quantBlock sb8 allow (lanesF32 v)
  let bytes : List Byte := r.1.map (BitVec.ofNat 8)
  setFlags r.2
  storeBytes (x + immW imm) (List.range bytes.length) (bytes ++ List.replicate (128 - bytes.length) 0)
    (do freeS a; freeV d)) s

def execVqenc (sb8 : Bool) (allow : Nat) (d : Nat) (a : Src) (s : State) := run (do
  let v ← readV a
  let r := quantBlock sb8 allow (lanesF32 v)
  freeV a
  setFlags r.2
  writeV d (packV 8 r.1)
  advance) s

/-- `mode`.SELMODE (R59). -/
def Ctl.selmode (c : Ctl) : Nat := c.mode.toNat / 4 % 4

/-- The block of `vdq`. -/
def dqBlock (kind : DqKind) (bytes : List Nat) : Block :=
  match kind with
  | .sb4 => decBlock false bytes
  | .sb8 => decBlock true bytes
  | .mx4 => decMx4 bytes

/-- Value and flags of each lane of `vdq` (R170): special values set no flag. -/
def dqLane (rnd : Rnd) (sat : Bool) (v : FV) (u : Nat) : Nat × Nat :=
  match v with
  | .nan _ => (0x7FC00000, 0)
  | .inf neg => (signBits 32 neg + 0x7F800000, 0)
  | .fin neg m e => roundTo .f32 rnd sat neg u ⟨m, e, false⟩

def execVdq (kind : DqKind) (rnd : Rnd) (sat : Bool) (k : Nat) (zero : Bool) (d : Nat) (a : Src) (s : State) := run (do
  let v ← readV a
  let mask ← readK k
  let old ← readOld false k zero d
  let us ← seeds (isRsr rnd) 32
  let bytes := (List.range 34).map fun j => elem 8 v j
  let block := dqBlock kind bytes
  let any := (List.range 32).any fun l => active 32 mask l
  let mode := (← get).cx.c.selmode
  if block = .corrupt && any then
    setFlags fSELBAD
    if mode = 0 then trapIn cSELBAD (BitVec.ofNat 64 (bytes.getD 0 0 + bytes.getD 1 0 * 256))
  let lane (l : Nat) : Nat × Nat :=
    match block with
    | .corrupt => (if mode = 1 then 0x7FC00000 else 0, 0)
    | .nanBlock => (0x7FC00000, 0)
    | .vals vs => dqLane rnd sat (vs.getD l (.nan false)) (us.1.getD l 0)
  let res := (List.range 32).map fun l =>
    if active 32 mask l then lane l else (if zero then 0 else elem 32 old l, 0)
  freeV a
  setFlags (orFlags res)
  keepSeed (isRsr rnd) us.2
  writeV d (packV 32 (res.map (·.1)))
  advance) s

/-! ## The generator (R171) -/

def execVseed (k : Nat) (zero : Bool) (d : Nat) (s : State) := run (do
  let mask ← readK k
  let old ← readOld false k zero d
  let us ← seeds true 32
  keepSeed true us.2
  writeV d (packV 32 ((laneResults 32 32 mask zero [] old us.1 fun _ _ u => (u, 0)).map (·.1)))
  advance) s

end Sys2Proof.Machine
end

