-- ==== Sys2Proof/Machine/Matrix.lean ====
section
/-! DEFINITION. The matrix engine (R178-R197, R423): bindings, firings, gangs, drains and their handlers, tile
operations and plane conversion. Tile element (*i*, *j*) of tile *t* is element 1024 *t* + 32 *i* + *j* of a context's
accumulators. -/
namespace Sys2Proof.Machine

/-! ## Tiles -/

def Ctx.tile (c : Ctx) (t e : Nat) : Nat := (c.acc.getD (1024 * t + e) 0).toNat
def Ctx.setTile (c : Ctx) (t e v : Nat) : Ctx := { c with acc := c.acc.set (1024 * t + e) (BitVec.ofNat 80 v) }
/-- Write elements of one row from column 0 on. -/
def Ctx.setRow (c : Ctx) (t i : Nat) (vs : List Nat) : Ctx :=
  ((List.range vs.length).zip vs).foldl (fun c e => c.setTile t (32 * i + e.1) e.2) c
/-- Every element of a tile is +0. -/
def Ctx.zeroTile (c : Ctx) (t : Nat) : Ctx := { c with acc := c.acc.filter fun e => e.1 / 1024 != t }
def Ctx.hasTile (c : Ctx) (t : Nat) : Bool := c.decl.acc.testBit t

/-! ## Bindings -/

def Ctx.modBind (c : Ctx) (t : Nat) (f : Binding → Binding) : Ctx := { c with binds := c.binds.modify t f }
def Binding.w (b : Binding) : Nat := b.word.toNat

/-- Deferred and precise `tinfo` of page 6 (R195). -/
def mxInfo (async : Bool) (reason hcause opnd tile rows : Nat) : Word :=
  BitVec.ofNat 64 ((if async then 2 ^ 63 else 0) + reason * 2 ^ 48 + hcause * 2 ^ 40 + opnd * 2 ^ 38 + tile * 2 ^ 32 + rows)
def mxFault {α : Type} (reason tile : Nat) : M α := trap cMXFAULT (mxInfo false reason 0 0 tile 0)
/-- An encoding that page 6 refuses at run time: `ILLOP`, WHY 2. -/
def mxIllop {α : Type} (i : Instr) : M α := trap cILLOP (subInfo 1 (2 * 2 ^ 20 + (opInfo 6 i).toNat))

/-- What every page-6 instruction checks first (R26, R184, R188). -/
def needMx (i : Instr) : M Unit := do
  needDeck 6 i
  notInDrain
def needTile (t : Nat) : M Unit := do
  if (← get).cx.hasTile t then pure () else mxFault 1 t
def needBound (t : Nat) : M Binding := do
  needTile t
  match (← get).cx.binds.get? t with
  | some b => pure b
  | none => mxFault 2 t

/-- A core holds a ganged binding. -/
def State.gangedOn (s : State) (core : Nat) : Bool :=
  s.ctxs.any fun c => c.id.core = core && c.binds.any fun b => bwGang b.2.w

/-- The role of the bank in which a ring begins. -/
def State.ringRole (s : State) (core : Nat) (r : Ring) : Nat :=
  match s.bankOwner core (r.banks.getD (r.base / 2 ^ 14) 0) with
  | some (_, role) => role
  | none => 0

/-- One ring of `mxbind` (R181). -/
def needMxRing (t q bytes : Nat) (drain : Bool) : M Unit := do
  let s ← get
  let r := s.ring s.cx.id.core q
  if !r.defd || r.engine != 0 then mxFault 3 t
  if r.entryb != bytes then mxFault 4 t
  let role := s.ringRole s.cx.id.core r
  if role = 2 || (drain && role = 0) then pure () else mxFault 5 t

/-- The rings that a binding uses, with their entry sizes; the last component marks the drain ring. -/
def ringsOf (w pos : Nat) : List (Nat × Nat × Bool) :=
  [(bwAq w, bwABytes w, false)] ++
  (if bwGang w && bwLead w != pos then [] else [(bwBq w, bwBBytes w, false)]) ++
  (if bwDron w then [(bwDq w, bwDBytes w, true)] else [])

def needMxRings (t : Nat) : List (Nat × Nat × Bool) → M Unit
  | [] => pure ()
  | (q, n, dr) :: l => do
    needMxRing t q n dr
    needMxRings t l

/-- Set the ENGINE field of a binding's rings. -/
def State.setEngines (s : State) (core e : Nat) (l : List (Nat × Nat × Bool)) : State :=
  l.foldl (fun s r => s.modRing core r.1 fun x => { x with engine := e }) s

/-- An operation of a tile waits to take effect. -/
def State.tileWaits (s : State) (core cid t : Nat) : Bool := (s.core core).mops.any fun m => m.kind != 3 && m.kind != 4 && m.cid = cid && m.tile = t

/-- ZERO of a binding word: the tile is zeroed, behind the operations of the tile that wait (R178, R183). -/
def State.zeroAtBind (s : State) (t : Nat) : State :=
  if s.tileWaits s.cx.id.core s.cx.cid t then
    s.modCore s.cx.id.core fun k => { k with mops := k.mops ++ [⟨s.cx.cid, 0, t, .bf16, 0, 0, 0, false, none, []⟩] }
  else { s with cx := s.cx.zeroTile t }

def execMxbind (d : Nat) (a b : Src) (c : Option Src) (s : State) := run (do
  let i := Instr.mxbind d a b c
  needMx i
  let w ← readS a
  let h ← readS b
  let arg ← match c with | some c => readS c | none => pure 0
  if bwBad w.toNat then mxIllop i
  needTile d
  let s ← get
  if s.cx.binds.has d then mxFault 2 d
  if bwAuto w.toNat && bwGang w.toNat then mxFault 6 d
  if bwGang w.toNat && s.gangedOn s.cx.id.core then mxFault 6 d
  let rs := ringsOf w.toNat (corePos s.cx.id.core)
  needMxRings d rs
  freeS a
  freeS b
  match c with | some c => freeS c | none => pure ()
  modify fun s => s.setEngines s.cx.id.core 1 rs
  check (bwZero w.toNat) (modify fun s => s.zeroAtBind d)
  modCx fun x =>
    let b : Binding :=
      { word := w, handler := h, arg := arg, selmode := x.c.selmode, st := 0, reqs := [], since := 0, gang := none, ready := none }
    { x with binds := x.binds.set d b }
  advance) s

/-- Tile `t` of a context has a `mxdrain` that has not started. -/
def State.drainWaits (s : State) (core cid t : Nat) : Bool :=
  (s.core core).mops.any fun m => m.cid = cid && m.tile = t && 5 ≤ m.kind

/-- The arrivals that a request under way owes once its binding is gone (R192). -/
def Req.owes (r : Req) (cid t : Nat) : Option Gang :=
  match r.gang with
  | some (_, bar) => if r.started then some ⟨cid, t, bar, r.status, r.members⟩ else none
  | none => none

/-- A firing of a context's tile is in flight. -/
def State.inFlight (s : State) (cid t : Nat) : Bool := s.cores.any fun e => e.2.firing.any fun f => f.cid = cid && f.tile = t

/-- The ganged firings of a tile are over for those of its members that have none in flight. -/
def State.ungang (s : State) (t : Nat) (ms : List (Nat × Nat)) : State :=
  ms.foldl (fun s m => if s.inFlight m.2 t then s else s.modCtx m.2 fun c => c.modBind t fun b => { b with gang := none }) s

/-- A binding leaves its rings and its tile; arrivals that it owes stay owed, and its gang's members are free of it. -/
def State.unbind (s : State) (cid t : Nat) : State :=
  match s.ctx? cid with
  | none => s
  | some c =>
    match c.binds.get? t with
    | none => s
    | some b =>
      (((s.setEngines c.id.core 0 (ringsOf b.w (corePos c.id.core))).modCore c.id.core fun k =>
        { k with gangs := k.gangs ++ b.reqs.filterMap fun r => r.owes cid t }).ungang t (b.reqs.flatMap (·.members))).modCtx cid
        fun c => { c with binds := c.binds.erase t }
/-- Every binding of a context leaves (R197). -/
def State.unbindAll (s : State) (cid : Nat) : State := (List.range 8).foldl (fun s t => s.unbind cid t) s

def execMxunbind (d : Nat) (s : State) := run (do
  needMx (.mxunbind d)
  let b ← needBound d
  let s ← get
  if b.st != 3 && (b.st != 0 || !b.reqs.isEmpty || b.gang.isSome || s.drainWaits s.cx.id.core s.cx.cid d) then
    stall (.tile d)
  modify fun s => s.unbind s.cx.cid d
  advance) s

/-! ## Requests (R185, R192) -/

def execMx (d n : Nat) (s : State) := run (do
  needMx (.mx d n)
  let b ← needBound d
  if bwAuto b.w || bwGang b.w then mxFault 6 d
  if b.st = 3 then mxFault 10 d
  needRoom 3
  modCx fun c => c.modBind d fun b => { b with reqs := b.reqs ++ [⟨n, none, [], false, []⟩] }
  count 3
  advance) s

/-- The context on a core whose ganged binding on tile `t` names a leader position. -/
def State.gangMember (s : State) (core t lead : Nat) : Option Ctx :=
  s.ctxs.find? fun c => c.id.core = core && c.id.slot != 4 &&
    match c.binds.get? t with | some b => bwGang b.w && bwLead b.w = lead | none => false

/-- Positions of a mask, ascending. -/
def positions (mask : Nat) : List Nat := (List.range 4).filter fun p => mask.testBit p

/-- The members of a gang, position by position: missing is reason 7, FAULTED reason 10. -/
def needMembers (t cl lead mask : Nat) : List Nat → M Unit
  | [] => pure ()
  | p :: l => do
    let s ← get
    match s.gangMember (computeCore cl p) t lead with
    | none =>
      let missing := (positions mask).filter fun p => (s.gangMember (computeCore cl p) t lead).isNone
      trap cMXFAULT (mxInfo false 7 0 0 t (missing.foldl (fun n p => n + 2 ^ p) 0))
    | some c =>
      if (c.binds.get? t).any fun b => b.st = 3 then mxFault 10 t
      needMembers t cl lead mask l

def execMxg (d : Nat) (a : Src) (s : State) := run (do
  needMx (.mxg d a)
  needTile d
  let x := (← readS a).toNat
  if x / 2 ^ 12 != 0 then mxIllop (.mxg d a)
  let s ← get
  let cl := s.myCluster
  let lead := corePos s.cx.id.core
  if !(s.barrier cl (x / 16 % 16)).defd then mxFault 11 d
  if !(s.cx.binds.get? d).any (fun b => bwGang b.w && bwLead b.w = lead) then mxFault 6 d
  if !(x % 16).testBit lead then trap cMXFAULT (mxInfo false 7 0 0 d (2 ^ lead))
  needMembers d cl lead (x % 16) (positions (x % 16))
  needRoom 3
  freeS a
  modCx fun c => c.modBind d fun b =>
    { b with reqs := b.reqs ++ [⟨x / 2 ^ 8 % 16 + 1, some (x % 16, x / 16 % 16), [], false, []⟩] }
  count 3
  advance) s

/-! ## Firings (R182, R183, R194) -/

/-- A drain of the binding is due or in progress. -/
def Binding.drainDue (b : Binding) : Bool := bwDcount b.w != 0 && bwDcount b.w ≤ b.since

/-- The binding where nothing of it fires: DRAINING where a drain is due, else IDLE (R179). -/
def Binding.rest (b : Binding) : Binding := { b with st := if b.drainDue then 2 else 0 }

/-- A binding may fire, operands and array apart: its context runs, no drain, no operation of the tile that waits, room in
the class (R182, R183). -/
def State.canFire (s : State) (c : Ctx) (t : Nat) (b : Binding) : Bool :=
  !c.st.out && s.issues c.id.part && b.st ≤ 1 && !b.drainDue && c.cnt.matrix < 16 && !s.tileWaits c.id.core c.cid t

/-- The rings whose entry the firing on a core still reads. -/
def State.reading (s : State) (core : Nat) : List Nat :=
  match (s.core core).firing with
  | none => []
  | some f =>
    match f.read, (s.ctx? f.cid).bind fun c => c.binds.get? f.tile with
    | false, some b => bwAq b.w :: (if f.leader.all fun l => l = f.cid then [bwBq b.w] else [])
    | _, _ => []

/-- A ring holds a published entry that no firing reads. -/
def State.hasEntry (s : State) (core q : Nat) : Bool :=
  let r := s.ring core q
  (if (s.reading core).contains q then 1 else 0) < cdiff r.prod r.cons
def State.entry (s : State) (core q : Nat) : List Byte := let r := s.ring core q; s.slotBytes core r r.cons r.entryb
/-- An entry goes back to its producer. -/
def State.consume (s : State) (core q : Nat) : State := s.modRing core q fun r => { r with cons := (r.cons + 1) % 2 ^ 32 }

/-- The array of a core has read the entries of its firing: they go back to their producers (R182). -/
def State.firingRead (s : State) (core : Nat) : State :=
  ((s.reading core).foldl (fun s q => s.consume core q) s).modCore core fun k =>
    { k with firing := k.firing.map fun f => { f with read := true } }

/-- The members that a leader's request names, as contexts. -/
def State.members (s : State) (cl t lead mask : Nat) : List Ctx :=
  (positions mask).filterMap fun p => s.gangMember (computeCore cl p) t lead

/-- The members of a leader's next ganged firing, where all of them may fire and hold an A entry, and the leader a B entry. -/
def State.gangReady (s : State) (c : Ctx) (t : Nat) : Option (List Ctx) :=
  let core := c.id.core
  match c.binds.get? t with
  | none => none
  | some b =>
    match b.reqs with
    | [] => none
    | r :: _ =>
      match r.gang with
      | none => none
      | some (mask, _) =>
        let ms := s.members (clusterOf core) t (corePos core) mask
        if r.left != 0 && s.hasEntry core (bwBq b.w) && ms.length = (positions mask).length && ms.all (fun m =>
            (m.binds.get? t).any fun mb => s.canFire m t mb && s.hasEntry m.id.core (bwAq mb.w)) then some ms else none

/-- A binding has a request and all it needs to fire, but for the array (R182, R192). -/
def State.firingReady (s : State) (c : Ctx) (t : Nat) (b : Binding) : Bool :=
  if bwGang b.w then
    (s.gangMember (computeCore (clusterOf c.id.core) (bwLead b.w)) t (bwLead b.w)).any fun l =>
      (s.gangReady l t).any fun ms => ms.any fun m => m.cid = c.cid
  else
    (bwAuto b.w || (match b.reqs with | r :: _ => r.left != 0 | [] => false)) && s.canFire c t b &&
      s.hasEntry c.id.core (bwAq b.w) && s.hasEntry c.id.core (bwBq b.w)

/-- Bindings that have become ready are noted, with one number for all of one moment; what is no longer ready is not. -/
def State.noteReady (s : State) : State :=
  if s.ctxs.all fun c => c.binds.isEmpty then s
  else
    let n := (s.ctxs.flatMap fun c => c.binds.filterMap fun e => e.2.ready).foldl max 0 + 1
    s.mapCtxs fun c => { c with binds := c.binds.map fun e =>
      (e.1, { e.2 with ready := if s.firingReady c e.1 e.2 then some (e.2.ready.getD n) else none }) }

/-- The array of a context's core is free, and no binding there was ready before this one; of those ready at one moment the
lower slot comes first (R182). -/
def State.firesNext (s : State) (c : Ctx) (b : Binding) : Bool :=
  (s.core c.id.core).firing.isNone && b.ready.any fun r => s.ctxs.all fun d => d.id.core != c.id.core ||
    d.binds.all fun e => e.2.ready.all fun q => r < q || (q = r && c.id.slot ≤ d.id.slot)

/-- A firing starts on a context's array with its operands. -/
def State.fire (s : State) (c : Ctx) (t : Nat) (a b : List Byte) (leader : Option Nat) : State :=
  (s.modCore c.id.core fun k =>
    { k with firing := some { cid := c.cid, tile := t, a := a, b := b, leader := leader, again := false, read := false } }).modCtx c.cid
    fun c => { (c.modBind t fun b => { b with st := 1, ready := none }) with cnt := c.cnt.add 3 1 }

/-- One request less. -/
def Binding.started (b : Binding) : Binding :=
  { b with reqs := match b.reqs with | [] => [] | r :: l => { r with left := r.left - 1, started := true } :: l }

/-- FIRING_START of a binding that is not ganged (R182). -/
def execFiringStart (core cid t : Nat) (s : State) : Host.Outcome State Fault Refusal :=
  match s.ctx? cid with
  | none => .next s
  | some c =>
    match c.binds.get? t with
    | none => .next s
    | some b =>
      if c.id.core != core || bwGang b.w || !s.firingReady c t b || !s.firesNext c b then .next s
      else .next ((s.fire c t (s.entry core (bwAq b.w)) (s.entry core (bwBq b.w)) none).modCtx cid fun c =>
        c.modBind t Binding.started)

/-- Start the firing of every member with the leader's B entry. -/
def State.fireMembers (s : State) (t leader : Nat) (b : List Byte) (first : Bool) : List Ctx → State
  | [] => s
  | m :: l =>
    match m.binds.get? t with
    | none => State.fireMembers s t leader b first l
    | some mb =>
      let s1 := (s.fire m t (s.entry m.id.core (bwAq mb.w)) b (some leader)).modCtx m.cid fun c =>
        { (c.modBind t fun b => { b with gang := some leader }) with cnt := if first then c.cnt.add 3 1 else c.cnt }
      State.fireMembers s1 t leader b first l

/-- The first firing of a request notes its members. -/
def Binding.manned (b : Binding) (ms : List Ctx) : Binding :=
  { b with reqs := match b.reqs with
    | [] => []
    | r :: l => { r with members := if r.started then r.members else ms.map fun m => (corePos m.id.core, m.cid) } :: l }

/-- GANGED_FIRING_START: the leader's request fires every member's array (R192). -/
def execGangedFiringStart (core cid t : Nat) (s : State) : Host.Outcome State Fault Refusal :=
  match s.ctx? cid with
  | none => .next s
  | some c =>
    match c.binds.get? t, s.gangReady c t with
    | some b, some ms =>
      if c.id.core != core || ms.any (fun m => (m.binds.get? t).any fun mb => !s.firesNext m mb) then .next s
      else
        let first := b.reqs.all fun r => !r.started
        .next ((s.fireMembers t cid (s.entry core (bwBq b.w)) first ms).modCtx cid fun c =>
          c.modBind t fun b => (b.manned ms).started)
    | _, _ => .next s

/-- A mask of rows. -/
def rowMask (l : List Nat) : Nat := l.foldl (fun n i => n ||| 2 ^ i) 0

/-- Status byte of R193 of one firing. -/
def statusByte (flags : Nat) (nan selc assayc assayu : Bool) : Nat :=
  1 + (if assayc then 2 else 0) + (if assayu then 4 else 0) + (if selc then 8 else 0) +
    (if flags &&& (fAOVFINF + fAOVFSAT) != 0 then 16 else 0) + (if nan then 32 else 0)

/-- A request whose last firing has completed leaves the head of its binding, and its `mx` is counted down. -/
def Ctx.closeReq (c : Ctx) (t : Nat) : Ctx :=
  match (c.binds.get? t).map (·.reqs) with
  | some (r :: rest) =>
    if r.left = 0 && r.gang.isNone then { (c.modBind t fun b => { b with reqs := rest }) with cnt := c.cnt.sub 3 1 } else c
  | _ => c

/-- The `mxdrain` of a tile that is next in the order of the tile's operations. -/
def State.nextDrain (s : State) (core cid t : Nat) : Option MatOp :=
  match (s.core core).mops.find? fun m => m.kind != 3 && m.kind != 4 && m.cid = cid && m.tile = t with
  | some m => if 5 ≤ m.kind then some m else none
  | none => none

/-- The binding after a firing of it (R179): DRAINING where a drain is due, FIRING where it is ready for another, else
IDLE. -/
def State.goesOn (s : State) (cid t : Nat) : State :=
  match s.ctx? cid with
  | none => s
  | some c =>
    match c.binds.get? t with
    | none => s
    | some b =>
      let st := if b.drainDue || (s.nextDrain c.id.core cid t).isSome then 2
        else if s.firingReady c t { b with st := 0 } then 1 else 0
      s.modCtx cid fun c => c.modBind t fun b => { b with st := st }

/-- The leader of a ganged binding. -/
def State.gangLead (s : State) (c : Ctx) (t : Nat) (b : Binding) : Option Ctx :=
  if bwGang b.w then s.gangMember (computeCore (clusterOf c.id.core) (bwLead b.w)) t (bwLead b.w) else none

/-- A request is an `mxg` under way, which goes on to its arrivals. -/
def Req.underWay (r : Req) : Bool := r.gang.isSome && r.started

/-- Requests of a binding that `names` picks are given up: one not started is dropped and completes for counting; an `mxg` under
way has no firing left. -/
def Ctx.giveUp (c : Ctx) (t : Nat) (names : Req → Bool) : Ctx :=
  match c.binds.get? t with
  | none => c
  | some b =>
    { (c.modBind t fun b =>
        { b with reqs := (b.reqs.filter fun r => !names r || r.underWay).map fun r => if names r then { r with left := 0 } else r }) with
      cnt := c.cnt.sub 3 (b.reqs.filter fun r => names r && !r.underWay).length }

/-- The requests of a gang's leader that name a member go with it (R179, R192); members that stood FIRING for a firing that does
not come stand so no more. -/
def State.giveUpGang (s : State) (l : Ctx) (t pos : Nat) : State :=
  let s1 := s.modCtx l.cid fun c => c.giveUp t fun r => r.gang.any fun g => g.1.testBit pos
  (s1.ctxs.filter fun c => (c.binds.get? t).any fun b => b.st = 1 && bwGang b.w && !s1.inFlight c.cid t).foldl
    (fun s c => s.goesOn c.cid t) s1

/-- The binding enters FAULTED: requests not started are dropped, and an `mx` or `mxg` none of whose firings is left
completes; an `mxg` under way goes on to its arrivals (R179, R192). Queued drains of the tile are dropped with them. -/
def State.faultBinding (s : State) (cid t : Nat) : State :=
  match s.ctx? cid with
  | none => s
  | some c =>
    match c.binds.get? t with
    | none => s
    | some b =>
      let waits := ((s.core c.id.core).mops.filter fun m => m.cid = cid && m.tile = t && 5 ≤ m.kind).length
      let s1 := s.modCore c.id.core fun k => { k with mops := k.mops.filter fun m => !(m.cid = cid && m.tile = t && 5 ≤ m.kind) }
      let s2 := s1.modCtx cid fun c =>
        let d := (c.modBind t fun b => { b with st := 3 }).giveUp t (fun _ => true)
        { d with cnt := d.cnt.sub 3 waits }
      match s.gangLead c t b with
      | none => s2
      | some l => s2.giveUpGang l t (corePos c.id.core)

/-- The status byte of a member's firing joins those of its `mxg`: at the request, or, once the leader's binding is gone, at the
arrivals owed (R193). -/
def State.reports (s : State) (leader t member core stat : Nat) : State :=
  let owed (g : Gang) : Bool := g.cid = leader && g.tile = t && g.left.any fun m => m.2 = member
  let p := corePos core
  let join (t : Tab Nat) : Tab Nat := t.set p (t.getD p 0 ||| stat)
  let put (g : Gang) : Gang := if owed g then { g with status := join g.status } else g
  match s.cores.find? fun e => e.2.gangs.any owed with
  | some (n, _) => s.modCore n fun k => { k with gangs := k.gangs.map put }
  | none => s.modCtx leader fun x => x.modBind t fun b =>
      { b with reqs := match b.reqs with
        | [] => []
        | r :: rest => { r with status := join r.status } :: rest }

/-- The gang of a member's firing is over where its leader's binding is gone (R192). -/
def State.leftBehind (s : State) (leader t : Nat) : Bool :=
  !((s.ctx? leader).any fun c => (c.binds.get? t).any fun b => b.reqs.any Req.underWay)

/-- A firing ends (R98, R179, R193-R195): `badRows` are the rows that the assay could not correct, `corrected` that a
recomputation was used. -/
def State.endFiring (s : State) (core : Nat) (f : Firing) (badRows : Nat) (corrected : Bool) : State :=
  let s0 := (s.firingRead core).modCore core fun k => { k with firing := none, assay := if corrected then k.assay + 1 else k.assay }
  match s0.ctx? f.cid with
  | none => s0
  | some c =>
    match c.binds.get? f.tile with
    | none => s0
    | some b =>
      let t := f.tile
      let o := fireAll b.w b.selmode f.a f.b (c.tile t)
      let good := o.rows.filter fun r => !badRows.testBit r.1
      let flags := good.foldl (fun x r => x ||| r.2.2) 0
      let selc := o.corruptB || !o.corruptA.isEmpty
      let nan := good.any fun r => ((List.range r.2.1.length).zip r.2.1).any fun e =>
        e.2 = fa80Nan && c.tile t (32 * r.1 + e.1) != fa80Nan
      let u := badRows != 0
      let supp := if b.selmode = 0 then (if o.corruptB then List.range (bwM b.w) else o.corruptA) else []
      let stat := statusByte flags nan selc corrected u
      let s1 := s0.modCtx f.cid fun c =>
        let c := good.foldl (fun c r => c.setRow t r.1 r.2.1) c
        let c := c.setFlags (flags ||| (if selc then fSELBAD else 0) ||| (if corrected then fASSAYC else 0) |||
          (if u then fASSAYU else 0))
        let c := { c with tileLast := c.tileLast.set t stat,
                          tileRows := c.tileRows.set t (c.tileRows.getD t 0 ||| badRows ||| rowMask supp),
                          cnt := c.cnt.sub 3 1 }
        (c.modBind t fun b => { b with since := b.since + 1 }).closeReq t
      let s2 := match f.leader with
        | none => s1
        | some l =>
          let u := s1.reports l t f.cid core stat
          if u.leftBehind l t then u.ungang t [(0, f.cid)] else u
      let s3 := if u then s2.defer f.cid cASSAY (mxInfo true 0 0 0 t badRows) none else s2
      let s4 := if b.selmode = 0 && !o.corruptA.isEmpty then
          s3.defer f.cid cSELBAD (mxInfo true 0 0 0 t (rowMask o.corruptA)) none else s3
      let owner := f.leader.getD f.cid
      let s5 := if b.selmode = 0 && o.corruptB && owner = f.cid then
          s4.defer f.cid cSELBAD (mxInfo true 0 0 1 t (2 ^ bwM b.w - 1)) none else s4
      if u || !supp.isEmpty then s5.faultBinding f.cid t else s5.goesOn f.cid t

/-- Rows that a binding computes. -/
def State.firingRows (s : State) (f : Firing) : Nat :=
  ((s.ctx? f.cid).bind fun c => (c.binds.get? f.tile).map fun b => 2 ^ bwM b.w - 1).getD 0

/-- FIRING_COMPLETE: the first verdict of the assay; a mismatch in some row starts the recomputation, by which time both
entries have been read (R194, R423). -/
def execFiringComplete (core badRows : Nat) (s : State) : Host.Outcome State Fault Refusal :=
  match (s.core core).firing with
  | none => .next s
  | some f =>
    if f.again then .next s
    else if badRows &&& s.firingRows f = 0 then .next (s.endFiring core f 0 false)
    else .next ((s.firingRead core).modCore core fun k => { k with firing := k.firing.map fun f => { f with again := true } })

/-- ASSAY_RECOMPUTE: the second verdict (R194, R423). -/
def execAssayRecompute (core badRows : Nat) (s : State) : Host.Outcome State Fault Refusal :=
  match (s.core core).firing with
  | none => .next s
  | some f =>
    if !f.again then .next s
    else
      let bad := badRows &&& s.firingRows f
      if bad = 0 then .next (s.endFiring core f 0 true)
      else .next ({ s with ras := { s.ras with assayu := (s.ras.assayu + 1) % 2 ^ 64 } }.endFiring core f bad false)

/-- The `mxg` of a core whose last firing has ended: its leader, tile and request. -/
def State.gangEnded (s : State) (core : Nat) : Option (Nat × Nat × Req) :=
  s.ctxs.findSome? fun c =>
    if c.id.core != core || c.id.slot = 4 then none
    else c.binds.findSome? fun e => match e.2.reqs with
      | r :: _ => if r.gang.isSome && r.left = 0 && r.started then some (c.cid, e.1, r) else none
      | [] => none

/-- The firings of an `mxg` are over: its arrivals are owed, and its request leaves the binding (R192). -/
def State.owing (s : State) (core : Nat) : State :=
  match s.gangEnded core with
  | none => s
  | some (cid, t, r) =>
    if (s.core (core)).gangs.isEmpty && !(s.cores.any fun e => e.2.firing.any fun f => f.leader = some cid) then
      let s1 := s.modCore core fun k => { k with gangs := (r.owes cid t).toList }
      let s2 := r.members.foldl (fun s m => s.modCtx m.2 fun c => c.modBind t fun b => { b with gang := none }) s1
      s2.modCtx cid fun c => c.modBind t fun b => { b with reqs := b.reqs.drop 1 }
    else s

/-- A deferred trap of a tile's binding awaits its context (R195). -/
def Ctx.trapDue (c : Ctx) (t : Nat) : Bool :=
  c.st.defer.any fun d => (d.code = cSELBAD || d.code = cASSAY || d.code = cMXFAULT) && d.info.toNat / 2 ^ 32 % 8 = t

/-- GANG_ARRIVAL: the firings of every member have ended and their traps have been raised: one arrival for each member, in
turn, each where the barrier has room; then the counts end (R192, R193, R195, R343). -/
def execGangArrival (core : Nat) (s : State) : Host.Outcome State Fault Refusal :=
  let s := s.owing core
  let cl := clusterOf core
  match (s.core core).gangs with
  | [] => .next s
  | g :: rest =>
    let busy := s.cores.any fun e => e.2.firing.any fun f => f.leader = some g.cid && f.tile = g.tile
    let traps := (g.cid :: g.left.map (·.2)).any fun n => (s.ctx? n).any fun c => c.trapDue g.tile
    if busy || traps || (s.barrier cl g.bar).full then .next s
    else
      let put (s : State) (l : List Gang) : State := s.modCore core fun k => { k with gangs := l }
      match g.left with
      | [] => .next ((put s rest).uncount g.cid 3)
      | (p, m) :: l =>
        let s1 := (s.modBarrier cl g.bar fun b => (b.arrive (g.status.getD p 0 * 2 ^ (8 * p))).1).uncount m 3
        .next (if l.isEmpty then (put s1 rest).uncount g.cid 3 else put s1 ({ g with left := l } :: rest))

/-! ## Tile operations and plane conversion (R186, R190) -/

/-- Queue an operation of the matrix engine. -/
def issueMop (kind t : Nat) (fmt : MFmt) (dst src : Word) (frees : M Unit) : M Unit := do
  needRoom 3
  frees
  modify fun s => s.modCore s.cx.id.core fun k =>
    { k with mops := k.mops ++ [{ cid := s.cx.cid, kind := kind, tile := t, fmt := fmt, src := src, dst := dst,
                                  selmode := s.cx.c.selmode, counted := true, read := none, landed := [] }] }
  count 3
  advance

def execMxzero (d : Nat) (s : State) := run (do
  needMx (.mxzero d)
  needTile d
  issueMop 0 d .bf16 0 0 (pure ())) s

/-- The address of a tile in own banks (R186). -/
def needTileRange (t : Nat) (ea : Word) : M Unit := do
  if ea.toNat % 128 != 0 then trap cALIGN ea
  if (← get).cx.ownRange ea.toNat 10240 then pure () else mxFault 8 t

def execMxld (d : Nat) (a : Src) (s : State) := run (do
  needMx (.mxld d a)
  needTile d
  let x ← readS a
  needTileRange d x
  needNoFaults
  issueMop 1 d .bf16 0 x (freeS a)) s

def execMxst (d : Nat) (a : Src) (s : State) := run (do
  needMx (.mxst d a)
  needTile d
  let x ← readS a
  needTileRange d x
  issueMop 2 d .bf16 x 0 (freeS a)) s

def execMxdrain (keep : Bool) (d : Nat) (s : State) := run (do
  needMx (.mxdrain keep d)
  let b ← needBound d
  if b.st = 3 then mxFault 10 d
  issueMop (if keep then 5 else 6) d .bf16 0 0 (pure ())) s

def execPlane (fmt : MFmt) (d a : Src) (s : State) := run (do
  needMx (.plane fmt d a)
  let x ← readS a
  let y ← readS d
  if y.toNat % 128 != 0 then trap cALIGN y
  if fmt = .bf16 && x.toNat % 2 != 0 then trap cALIGN x
  let s ← get
  if !s.cx.ownRange x.toNat (32 * mRowBytes fmt) || !s.cx.ownRange y.toNat (imageBytes fmt) then mxFault 8 0
  needNoFaults
  issueMop 3 0 fmt y x (do freeS a; freeS d)) s

def execUnplane (fmt : MFmt) (d a : Src) (s : State) := run (do
  needMx (.unplane fmt d a)
  let x ← readS a
  let y ← readS d
  if x.toNat % 128 != 0 then trap cALIGN x
  if fmt = .bf16 && y.toNat % 2 != 0 then trap cALIGN y
  let s ← get
  if !s.cx.ownRange y.toNat (32 * mRowBytes fmt) || !s.cx.ownRange x.toNat (imageBytes fmt) then mxFault 8 0
  needNoFaults
  issueMop 4 0 fmt y x (do freeS a; freeS d)) s

/-- The oldest operation that may take effect: no earlier one of its tile waits, no firing or drain of it is on its way. -/
def State.nextMop (s : State) (core : Nat) : List MatOp → List (Nat × Nat) → Option MatOp
  | [], _ => none
  | m :: l, seen =>
    let tile := m.kind != 3 && m.kind != 4
    let held := tile && (seen.contains (m.cid, m.tile) ||
      ((s.core core).firing.any fun f => f.cid = m.cid && f.tile = m.tile) ||
      ((s.core core).drains.any fun x => x.cid = m.cid && x.tile = m.tile))
    if held || 5 ≤ m.kind || s.atoms.any (fun e => e.2.cid = m.cid) then
      State.nextMop s core l (if tile then (m.cid, m.tile) :: seen else seen)
    else some m

/-- Elements of an FA80 tile from its bytes: canonical patterns, and NV where one was not (R83). -/
def fa80Elems : Nat → List Byte → List (Nat × Nat)
  | 0, _ => []
  | n + 1, bs =>
    let x := natOfBytes (bs.take 10)
    (if (decFa80 x).2 then (x, 0) else (fa80Nan, fNV)) :: fa80Elems n (bs.drop 10)

/-- The bytes that an operation which writes memory reads (R190). -/
def State.mopSource (s : State) (c : Ctx) (m : MatOp) : List Byte :=
  m.read.getD (match m.kind with
    | 3 => s.ownBytes c m.src.toNat (32 * mRowBytes m.fmt)
    | 4 => s.ownBytes c m.src.toNat (imageBytes m.fmt)
    | _ => [])

/-- What such an operation writes from them: the bytes, rows with a corrupt selector, and whether an element had no code. -/
def MatOp.result (m : MatOp) (c : Ctx) (src : List Byte) : List Byte × List Nat × Bool :=
  match m.kind with
  | 2 => ((List.range 1024).flatMap fun e => bytesOfNat 10 (c.tile m.tile e), [], false)
  | 3 => let r := planeImage m.fmt m.selmode (src.map (·.toNat)); (r.1, r.2, false)
  | _ => unplaneTile m.fmt m.selmode src

/-- Its bytes, but for those that have landed. -/
def State.putRest (s : State) (c : Ctx) (m : MatOp) (bs : List Byte) : State :=
  if m.landed.isEmpty then s.putOwn c m.dst.toNat bs
  else bs.zipIdx.foldl (fun s e => if m.landed.any fun r => r.1 ≤ e.2 && e.2 < r.1 + r.2 then s
                                   else s.putOwn c (m.dst.toNat + e.2) [e.1]) s

/-- Carry out an operation. -/
def State.doMop (s : State) (c : Ctx) (m : MatOp) : State :=
  match m.kind with
  | 0 => s.modCtx m.cid fun c => c.zeroTile m.tile
  | 1 =>
    let es := fa80Elems 1024 (s.ownBytes c m.src.toNat 10240)
    s.modCtx m.cid fun c =>
      (((List.range 1024).zip es).foldl (fun c e => c.setTile m.tile e.1 e.2.1) c).setFlags (orFlags es)
  | _ =>
    let r := m.result c (s.mopSource c m)
    let s1 := (s.putRest c m r.1).modCtx m.cid fun c =>
      c.setFlags ((if r.2.1.isEmpty then 0 else fSELBAD) ||| (if r.2.2 then fNV else 0))
    if r.2.1.isEmpty || m.selmode != 0 then s1 else s1.defer m.cid cSELBAD (mxInfo true 0 0 0 0 (rowMask r.2.1)) none

/-- MATRIX_OP_COMPLETE: the oldest operation of a core's engine that may takes effect (R183, R186, R190). -/
def execMatrixOpComplete (core : Nat) (s : State) : Host.Outcome State Fault Refusal :=
  match s.nextMop core (s.core core).mops [] with
  | none => .next s
  | some m =>
    let s1 := s.modCore core fun k => { k with mops := k.mops.erase m }
    match s.ctx? m.cid with
    | none => .next s1
    | some c => .next (if m.counted then (s1.doMop c m).uncount m.cid 3 else s1.doMop c m)

/-- A list with the first occurrence of one operation replaced. -/
def putMop (m m' : MatOp) : List MatOp → List MatOp
  | [] => []
  | x :: l => if x = m then m' :: l else x :: putMop m m' l

/-- Destination bytes of the operation that a core's engine carries out next land before it ends (R186, R246). -/
def State.mopBeat (s : State) (core off n : Nat) : State :=
  match s.nextMop core (s.core core).mops [] with
  | none => s
  | some m =>
    match s.ctx? m.cid with
    | none => s
    | some c =>
      if m.kind < 2 || m.landed.any (fun r => r.1 < off + n && off < r.1 + r.2) then s
      else
        let src := s.mopSource c m
        let bs := ((m.result c src).1.drop off).take n
        (s.putOwn c (m.dst.toNat + off) bs).modCore core fun k =>
          { k with mops := putMop m { m with read := some src, landed := (off, n) :: m.landed } k.mops }

/-! ## Drains (R187-R189) -/

/-- DRAIN_START: a drain that is due starts (R187): the automatic one, or the tile's next `mxdrain`. -/
def execDrainStart (core cid t : Nat) (s : State) : Host.Outcome State Fault Refusal :=
  match s.ctx? cid with
  | none => .next s
  | some c =>
    match c.binds.get? t with
    | none => .next s
    | some b =>
      let free := c.id.core = core && !c.st.out && b.st != 3 && s.issues c.id.part && !c.trapDue t &&
        !((s.core core).firing.any fun f => f.cid = cid && f.tile = t) &&
        !((s.core core).drains.any fun x => x.cid = cid && x.tile = t)
      let start (s : State) (keep : Bool) : State :=
        (s.modCore core fun k => { k with drains := k.drains ++ [⟨cid, t, keep, 0, none, 0⟩] }).modCtx cid fun c =>
          c.modBind t fun b => { b with st := 2, since := 0 }
      if !free then .next s
      else if b.drainDue then
        (if c.cnt.matrix < 16 then .next ((start s false).modCtx cid fun c => { c with cnt := c.cnt.add 3 1 }) else .next s)
      else match s.nextDrain core cid t with
        | some m => .next (start (s.modCore core fun k => { k with mops := k.mops.erase m }) (m.kind = 5))
        | none => .next s

/-- A tile value to i32 in a drain (R73, R187): what saturates sets AOVF_SAT beside. -/
def drainI32 (v : FV) : Nat × Nat :=
  let r := floatToInt .i32 .rne 0 v
  (r.1, if r.2 = fNV && !v.isNan then fNV ||| fAOVFSAT else r.2)

/-- A value to a float format in a drain (R75, R76, R187): overflow sets `ovf` beside. -/
def drainTo (ty : ETy) (sat : Bool) (ovf : Nat) (v : FV) : Nat × Nat :=
  let r := convTo ty .rne sat 0 v
  (r.1, if r.2 &&& fOF != 0 then r.2 ||| ovf else r.2)

/-- One element leaves: pattern and flags (R75, R76, R100, R187). `dfmt`: 0 FA80, 1 f32, 2 bf16, 3 i32. -/
def drainElem (dfmt : Nat) (v : FV) : Nat × Nat :=
  match dfmt with
  | 0 => (fa80Of v, match v with | .nan true => fNV | _ => 0)
  | 1 => drainTo .f32 false fAOVFINF v
  | 2 => match v with
    | .inf _ => drainTo .bf16 false 0 v
    | w => drainTo .bf16 true fAOVFSAT w
  | _ => drainI32 v

/-- The bytes of a leaving row, and its flags; columns at or above *N* are zero. -/
def drainRowBytes (w : Nat) (vs : List FV) : List Byte × Nat :=
  let d := bwDfmt w
  let n := if d = 0 then 10 else if d = 2 then 2 else 4
  let es := (List.range 32).map fun j => if j < bwN w then drainElem d (vs.getD j (.fin false 0 0)) else (0, 0)
  (es.flatMap fun e => bytesOfNat n e.1, orFlags es)

/-- Values of a tile's row. -/
def Ctx.rowVals (c : Ctx) (t i : Nat) : List FV := (List.range 32).map fun j => (decFa80 (c.tile t (32 * i + j))).1
/-- Lanes of a `drput` row: i32 under ACCF 2, else f32. -/
def putVals (accf : Nat) (v : VReg) : List FV := (List.range 32).map fun l =>
  decElem (if accf = 2 then .i32 else .f32) (elem 32 v l)

/-- Change one drain of a core. -/
def State.modDrain (s : State) (core : Nat) (d : MDrain) (f : MDrain → MDrain) : State :=
  s.modCore core fun k => { k with drains := k.drains.map fun x => if x.cid = d.cid && x.tile = d.tile then f x else x }
/-- A drain of a core ends: it completes for counting, and its flags are set (R61). -/
def State.endDrain (s : State) (core : Nat) (d : MDrain) (fl : Nat) : State :=
  ((s.modCore core fun k => { k with drains := k.drains.filter fun x => !(x.cid = d.cid && x.tile = d.tile) }).modCtx d.cid
    fun c => c.setFlags (d.flags ||| fl)).uncount d.cid 3

/-- A row of a drain has left or been dropped, with its flags: the next row, or the end. -/
def State.nextRow (s : State) (core : Nat) (d : MDrain) (b : Binding) (fl : Nat) : State :=
  if d.row + 1 < bwM b.w then s.modDrain core d fun x => { x with row := x.row + 1, out := none, flags := x.flags ||| fl }
  else
    (s.endDrain core d fl).modCtx d.cid fun c =>
      (if d.keep then c else c.zeroTile d.tile).modBind d.tile fun b => { b with st := if b.st = 2 then 0 else b.st }

/-- Take the room of the drain ring for a row: written and published, or discarded where no ring is used. `none`: the
ring is full. -/
def State.leaveRow (s : State) (core : Nat) (b : Binding) (bs : List Byte) : Option State :=
  if !bwDron b.w then some s
  else
    let q := bwDq b.w
    let r := s.ring core q
    if r.n ≤ cdiff r.rsv r.cons then none
    else
      let s1 := s.putSlot core r r.rsv bs
      some (s1.modRing core q fun x => ({ x with rsv := (x.rsv + 1) % 2 ^ 32 }).publish r.rsv 1)

/-- The binding that a drain belongs to, with its context. -/
def State.drainOf (s : State) (d : MDrain) : Option (Ctx × Binding) :=
  (s.ctx? d.cid).bind fun c => (c.binds.get? d.tile).map fun b => (c, b)

/-- The state after the row of a drain has left, where one is there and its ring has room: the drain's own row, or the one its
handler has sent. -/
def State.rowLeaves (s : State) (core : Nat) (d : MDrain) : Option State :=
  (s.drainOf d).bind fun e =>
    (if e.2.handler = 0 then some (drainRowBytes e.2.w (e.1.rowVals d.tile d.row)) else d.out.map fun bs => (bs, 0)).bind fun r =>
      (s.leaveRow core e.2 r.1).map fun t => t.nextRow core d e.2 r.2

/-- DRAIN_ROW: a row of one of a core's drains leaves (R187); which of those that can, is left to choice. -/
def execDrainRow (core : Nat) (s : State) : Host.Outcome State Fault Refusal :=
  let s1 := s.modCore core fun k => { k with drains := k.drains.filter fun d => (s.drainOf d).isSome }
  let l := (s1.core core).drains.filterMap fun d => s1.rowLeaves core d
  match l with
  | [] => .next s1
  | [t] => .next t
  | u :: _ => let t := l.getD (Config.freePick s.free % l.length) u
              .next { t with free := t.free + 1 }

/-! ## The drain slot (R188, R189) -/

/-- The context of a handler run: a fresh one at the handler, over the binding context's banks. -/
def drainCtx (s : State) (c : Ctx) (b : Binding) (d : MDrain) : Ctx :=
  { id := { c.id with slot := 4 }
    r := { s := [(1, BitVec.ofNat 64 d.row), (2, BitVec.ofNat 64 d.tile), (3, c.ctxid), (4, b.arg)], v := [], k := [], b := [],
           sPend := [], vPend := [], sFly := [], vFly := [], sPoison := [], vPoison := [], sHeld := [], vHeld := [],
           kHeld := [], prep := [] }
    c := { mode := c.c.mode, fflags := 0, cause := 0, tpc := 0, tinfo := 0, tvec := 0,
           budget := BitVec.ofNat 64 (2 ^ 32 - 1), deadline := c.c.deadline, brole := c.c.brole,
           srseed := Config.freeWord s.free, hold := c.c.hold }
    acc := []
    heads := []
    pc := b.handler &&& ~~~1#64
    npc := 0
    sup := false
    wait := none
    micro := none
    kept := none
    cnt := ⟨0, 0, 0, 0, 0⟩
    decl := { sregs := 16, vregs := 8, kregs := 4, acc := 0, banks := c.decl.banks, tracks := [] }
    l1 := ⟨[], []⟩
    st := { live := true, out := false, last := 0, sig := false, killed := [], defer := [], inbox := [], queue := [],
            inboxh := 0, waitk := 0, arrived := [], fenced := false, inSync := 0, vote := none }
    drain := some { owner := c.cid, tile := d.tile, arg := b.arg, row := d.row, accf := bwAccf b.w, cycles := 0, put := none,
                    done := none, trapped := none }
    binds := []
    tileLast := []
    tileRows := [] }

/-- The drain run of a core goes: its cached written words are written back. -/
def State.dropDrainRun (s : State) (core : Nat) : State :=
  let s1 := (s.checkout (drainCid core)).cleanAll true
  { s1 with cx := { s1.cx with st := { s1.cx.st with live := false } } }

/-- The drain whose rows the drain slot hands to a handler: the first to have started (R188). -/
def State.handled (s : State) (core : Nat) : Option (MDrain × Ctx × Binding) :=
  (s.core core).drains.findSome? fun d => (s.drainOf d).bind fun e => if e.2.handler = 0 then none else some (d, e)

/-- DRAIN_HANDLER_RUN: the drain slot takes up a row (a run begins at the handler), or the end of its run is carried
out: the row leaves, is dropped, or faults the binding (R188, R189). -/
def execDrainHandlerRun (core : Nat) (s : State) : Host.Outcome State Fault Refusal :=
  match s.handled core with
  | none => .next s
  | some (d, c, b) =>
    match s.ctx? (drainCid core) with
    | none =>
      if d.out.isSome || c.st.out then .next s
      else .next { s with others := s.others.set (drainCid core) (drainCtx s c b d), free := s.free + 1 }
    | some x =>
      match x.drain with
      | none => .next s
      | some r =>
        match r.trapped, r.done with
        | some code, _ =>
          let s1 := ((s.dropDrainRun core).endDrain core d 0).faultBinding d.cid d.tile
          .next (s1.defer d.cid cMXFAULT (mxInfo true 9 code 0 d.tile 0) none)
        | none, some true =>
          let o := match r.put with
            | some v => drainRowBytes b.w (putVals r.accf v)
            | none => drainRowBytes b.w (c.rowVals d.tile d.row)
          .next ((s.dropDrainRun core).modDrain core d fun x => { x with out := some o.1, flags := x.flags ||| o.2 })
        | none, some false => .next ((s.dropDrainRun core).nextRow core d b 0)
        | none, none => .next s

/-- DRAIN_RUN_LIMIT: a run that has not ended after 4,096 cycles traps with `BUDGET` (R188). -/
def execDrainRunLimit (core : Nat) (s : State) : Host.Outcome State Fault Refusal :=
  match s.ctx? (drainCid core) with
  | none => .next s
  | some c =>
    match c.drain with
    | some d =>
      if 4096 ≤ d.cycles && d.done.isNone && d.trapped.isNone then .next (takeTrap (s.checkout (drainCid core)) cBUDGET 0)
      else .next s
    | none => .next s

/-- The run of the drain slot; in a context slot these instructions are refused. -/
def needRun (i : Instr) : M Drain := do
  needDeck 6 i
  match (← get).cx.drain with
  | some d => pure d
  | none => illop 0x05 0

def modRun (f : Drain → Drain) : M Unit := modCx fun c => { c with drain := c.drain.map f }

def execDrrow (d : Nat) (s : State) := run (do
  let r ← needRun (.drrow d)
  let s ← get
  match s.ctx? r.owner with
  | none => advance
  | some c => do
    let es := (c.rowVals r.tile r.row).map (drainElem (if r.accf = 2 then 3 else 1))
    writeV d (packV 32 (es.map (·.1)))
    setFlags (orFlags es)
    advance) s

def execDrput (a : Src) (s : State) := run (do
  let _ ← needRun (.drput a)
  let v ← readV a
  freeV a
  modRun fun r => { r with put := some v }
  advance) s

def execDrdone (drop : Bool) (s : State) := run (do
  let _ ← needRun (.drdone drop)
  needClasses 0 0 7 7 7
  modRun fun r => { r with done := some (!drop) }
  advance) s

/-! ## Status (R196) -/

/-- The status word of a tile of a context. -/
def Ctx.tileStatus (c : Ctx) (t : Nat) : Word :=
  let st := match c.binds.get? t with | none => 0 | some b => b.st + 1
  BitVec.ofNat 64 (st * 2 ^ 40 + c.tileLast.getD t 0 * 2 ^ 32 + c.tileRows.getD t 0)

def execMxstat (op : MxStat) (d a : Nat) (s : State) := run (do
  needMx (.mxstat op d a)
  match op with
  | .cnt => do
    let s ← get
    writeS d (s.core s.cx.id.core).assay
    advance
  | _ => do
    needTile a
    let s ← get
    writeS d (s.cx.tileStatus a)
    if op = .clr then
      modCx fun c => { (c.modBind a fun b => if b.st = 3 then b.rest else b) with tileRows := c.tileRows.erase a }
    advance) s

end Sys2Proof.Machine
end

