-- ==== Sys2Proof/Machine/Message.lean ====
section
/-! DEFINITION. Messages (R225-R227). -/
namespace Sys2Proof.Machine

def execMsend (a b : Src) (s : State) := run (do
  notInDrain
  let rcv ← readS a
  let v ← readV b
  let s ← get
  if !coreExists s.variant (rcv.toNat / 16 % 4096) then trap cUNITABSENT (opInfo 7 (.msend a b))
  needReleased true
  needWay none (coreStack (rcv.toNat / 16 % 4096))
  if !s.roomFor s.cx.id.part rcv then
    stall (.msgRoom ((s.core s.cx.id.core).cyc + (s.part s.cx.id.part).msgwait) rcv)
  freeS a
  freeV b
  modify fun s =>
    { s.modCore s.cx.id.core (fun c => { c with sent := c.sent + 1 }) with
      msgs := s.msgs.set s.nextPkt
        { part := s.cx.id.part, src := s.cx.cid, srcCore := s.cx.id.core, dst := msgTo s.cx.id.part rcv,
          ctxid := s.cx.ctxid, pc := s.cx.pc, rcv := rcv,
          bytes := (vBytes v).take 56 ++ bytesOfNat 8 s.cx.ctxid.toNat }
      nextPkt := s.nextPkt + 1 }
  advance) s

/-- MSGWAIT_EXPIRY: a waiting `msend` gives up (R226); `tinfo` holds the receiver word. -/
def execMsgwaitExpiry (cid : Nat) (s : State) : Host.Outcome State Fault Refusal :=
  match s.running? cid with
  | none => .next s
  | some c =>
    match c.wait with
    | some (.msgRoom t rcv) =>
      if (s.core c.id.core).cyc < t || s.roomFor c.id.part rcv then .next s
      else .next (takeTrap (s.checkout cid) cMSGFULL (rcv &&& ~~~7#64))
    | _ => .next s

/-- The stack a message goes to: its receiver's, or the one its receiver word names. -/
def State.msgStack (s : State) (m : Msg) : Nat :=
  coreStack (((s.ctx? m.dst).map fun c => c.id.core).getD (m.rcv.toNat / 16 % 4096))

/-- MESSAGE_DELIVERY: the oldest message between its sender and receiver is placed (R225); without a live receiver it is
posted. A full inbox keeps it in the router, and bridges that carry nothing keep it on its way (R394). -/
def execMessageDelivery (n : Nat) (s : State) : Host.Outcome State Fault Refusal :=
  match s.msgs.get? n with
  | none => .next s
  | some m =>
    if !s.issues m.part || s.msgs.any (fun e => e.1 < n && e.2.src = m.src && e.2.dst = m.dst) ||
        !s.openWay (coreStack m.srcCore) (s.msgStack m) then .next s
    else match s.request (coreStack m.srcCore) (s.msgStack m) with
    | none => .next s
    | some t =>
      let s1 := { t with msgs := t.msgs.erase n }
      match s.ctx? m.dst with
      | none =>
        let s1 := s1.modCore m.srcCore fun k => { k with recv := k.recv + 1 }
        .next ({ s1 with free := s1.free + 1 }.addBad
          (packetBad (s1.free + 1) m.src m.part m.ctxid m.pc m.rcv (Config.freePick s1.free % 8) m.bytes))
      | some c =>
        let p := s.part m.part
        let s1 := s1.modCore c.id.core fun k => { k with recv := k.recv + 1 }
        if c.st.out then
          (if c.st.inbox.length < 64 then
            .next (s1.modCtx m.dst fun c => { c with st := { c.st with inbox := c.st.inbox ++ [m.bytes] } })
           else .next s)
        else if c.st.queue.length < 16 && (p.movedFor m.dst).isEmpty then
          .next (s1.modCtx m.dst fun c => { c with st := { c.st with queue := c.st.queue ++ [m.bytes] } })
        else if p.movbase != 0 && p.moved.length < p.movslots then
          .next (s1.modPart m.part fun p => { p with moved := p.moved ++ [(m.dst, m.bytes)] })
        else .next s

/-- The oldest message of a list for one receiver, and the others. -/
def takeMoved (cid : Nat) : List (Nat × List Byte) → Option (List Byte) × List (Nat × List Byte)
  | [] => (none, [])
  | m :: t => if m.1 = cid then (some m.2, t) else let r := takeMoved cid t; (r.1, m :: r.2)

/-- The queue has room again: the context's oldest message in the overflow region joins it (R225). -/
def State.moveUp (s : State) (cid : Nat) : State :=
  match s.ctx? cid with
  | none => s
  | some c =>
    let r := takeMoved cid (s.part c.id.part).moved
    match r.1 with
    | none => s
    | some m =>
      if 16 ≤ c.st.queue.length then s
      else (s.modPart c.id.part fun p => { p with moved := r.2 }).modCtx cid fun c =>
        { c with st := { c.st with queue := c.st.queue ++ [m] } }

def execMrecv (d : Nat) (s : State) := run (do
  notInDrain
  needNoKeys 7 (.mrecv d)
  let c := (← get).cx
  match c.st.inbox, c.st.queue, takeMoved c.cid (s.part c.id.part).moved with
  | m :: t, _, _ => do
    modCx fun c => { c with st := { c.st with inbox := t, inboxh := (c.st.inboxh + 1) % 64 } }
    writeV d (vOfBytes m)
    advance
  | [], m :: t, _ => do
    modCx fun c => { c with st := { c.st with queue := t } }
    modify fun s => s.moveUp c.cid
    writeV d (vOfBytes m)
    advance
  | [], [], (some m, t) => do
    modify fun s => s.modPart c.id.part fun p => { p with moved := t }
    writeV d (vOfBytes m)
    advance
  | [], [], (none, _) => stall .msg) s

def execMpoll (d : Nat) (s : State) := run (do
  notInDrain
  let s ← get
  let c := s.cx
  writeS d (BitVec.ofNat 64 (c.st.inbox.length + c.st.queue.length + ((s.part c.id.part).movedFor c.cid).length))
  advance) s

/-- A context leaves its slot: the messages that wait for it go to its inbox, oldest first, as far as that has room (R70,
R225). -/
def State.stow (s : State) (cid : Nat) : State :=
  match s.ctx? cid with
  | none => s
  | some c =>
    let u := s.part c.id.part
    let room := 64 - c.st.inbox.length
    let mine := ((u.movedFor cid).take (room - c.st.queue.length)).map (·.2)
    let keep := (u.movedFor cid).drop (room - c.st.queue.length)
    (s.modPart c.id.part fun p => { p with moved := (p.moved.filter fun m => m.1 != cid) ++ keep }).modCtx cid fun c =>
      { c with st := { c.st with inbox := c.st.inbox ++ c.st.queue.take room ++ mine, queue := c.st.queue.drop room } }

end Sys2Proof.Machine
end

