-- ==== Sys2Proof/Machine/Track.lean ====
section
/-! DEFINITION. Tracks and heads (R369-R391): the port, shift errors, the instructions of page 9 and their events. A
track's words lie in the one memory under `trackKey`. -/
namespace Sys2Proof.Machine

/-! ## Tracks -/

def State.track (s : State) (core t : Nat) : Track := (s.core core).tracks.getD t Track.fresh
def State.modTrack (s : State) (core t : Nat) (f : Track → Track) : State :=
  s.modCore core fun c => { c with tracks := c.tracks.set t (f (c.tracks.getD t Track.fresh)) }

/-- Positions on the loop (R369). -/
def posAdd (p : Nat) (d : Int) : Nat := ((p : Int) + d) % 4096 |>.toNat
/-- The position of the word that stands under the port when the port believes in `p`. -/
def Track.under (t : Track) (p : Nat) : Nat := posAdd p t.off
/-- The postmark of the word at a position (R369). -/
def Track.postmark (t : Track) (q : Nat) : Nat := t.marks.getD q (q % 16)
/-- The slip that a transfer expecting `p` measures (R378). -/
def Track.slipAt (t : Track) (p : Nat) : Int :=
  let d := (t.postmark (t.under p) + 16 - p % 16) % 16
  if 8 ≤ d then (d : Int) - 16 else d
/-- Shift so that the measured slip vanishes, where the shift goes right (R378, R379). -/
def Track.shifted (t : Track) (n : Int) : Track := { t with off := (t.off - n + t.stick) % 4096, slip := 0, stick := 0 }

/-- The shortest way from `a` to `b` goes backward (R376). -/
def goesBack (a b : Nat) : Bool := (a + 4096 - b) % 4096 < (b + 4096 - a) % 4096

/-- What the postmark check does (R378, R379): the track, the head's ERR where it changes, and the trap. -/
def Track.checked (t : Track) (p herr : Nat) : Track × Option Nat × Option Nat :=
  let n := t.slipAt p
  if n = 0 then (t, none, none)
  else if herr = 0 then ({ t with slip := n }, some 2, some cSHIFTERR)
  else
    let u : Track := { t.shifted n with ppos := p }
    if u.slipAt p = 0 then (u, some 1, none) else ({ u with suspect := true }, some 3, some cHEADLOST)

/-- No head operation is possible: suspect, or a re-index runs (R372). -/
def Track.lost (t : Track) : Bool := t.suspect || t.ridx

/-! ## Heads -/

/-- `tinfo` of `SHIFTERR`, `HEADLOST` and the `POISON` of a track word (R323, R378-R380). -/
def headInfo (async : Bool) (code h p : Nat) (slip : Int) : Word :=
  BitVec.ofNat 64 ((if async then 2 ^ 63 else 0) + (if code = cPOISON then 4 * 2 ^ 60 else 0) + p * 2 ^ 16 + h * 2 ^ 8 +
    (if code = cSHIFTERR then (slip % 16).toNat else 0))

def headIllop {α : Type} (h reason : Nat) : M α := illop 0x0E (h * 256 + reason)

/-- The record (R71). -/
def Head.word (h : Head) (own : Bool) : Word :=
  BitVec.ofNat 64 ((if h.pv then 2 ^ 52 else 0) + h.pend * 2 ^ 40 + (if own then 2 ^ 39 else 0) + h.err * 2 ^ 37 +
    h.mark * 2 ^ 25 + (if h.bwd then 2 ^ 24 else 0) + (h.stride % 4096).toNat * 2 ^ 12 + h.pos)

/-- A head after a check that measured the slip `n`: ERR 1 and 3 follow a shift, back where the word lay ahead (R71, R378). -/
def Head.seen (x : Head) (e : Nat) (n : Int) : Head := { x with err := e, bwd := if e = 2 then x.bwd else decide (0 < n) }

/-- The common track that head `h` of a partition names on a core (R371). -/
def State.commonTrack (s : State) (core p h : Nat) : Option Nat :=
  ((s.core core).tracks.find? fun t => t.2.v && t.2.common && t.2.part = p && t.2.hidx = h).map (·.1)
/-- The physical track of head `h` among the tracks of a member: the partition's common track of that number where the core
has one, else the one assigned (R371). -/
def State.headTrack (s : State) (core p : Nat) (ts : List Nat) (h : Nat) : Option Nat :=
  ts[h]?.map fun t => (s.commonTrack core p h).getD t
/-- The physical track of a head of a context. -/
def State.trackOf (s : State) (c : Ctx) (h : Nat) : Option Nat := s.headTrack c.id.core c.id.part c.decl.tracks h

def Ctx.modHead (c : Ctx) (h : Nat) (f : Head → Head) : Ctx := { c with heads := c.heads.set h (f (c.head h)) }
def modHead (h : Nat) (f : Head → Head) : M Unit := modCx fun c => c.modHead h f

/-- A head of the context in hand: its track (R371, R382). -/
def needHead (i : Instr) (h : Nat) : M Nat := do
  notInDrain
  needDeck 9 i
  let s ← get
  match s.trackOf s.cx h with
  | some t => pure t
  | none => headIllop h 5

/-- A suspect track or one in re-index loses the head at once (R372, R379). -/
def needTrack (h t : Nat) : M Unit := do
  let s ← get
  if (s.track s.cx.id.core t).lost then
    modHead h fun x => { x with err := 3 }
    trapIn cHEADLOST (headInfo false cHEADLOST h (s.cx.head h).pos 0)

/-- A stream of the context in hand on a head. -/
def State.streamOn (s : State) (core cid h : Nat) : Option Stream :=
  (s.core core).streams.find? fun x => x.cid = cid && x.head = h
/-- A stream that holds the port of a track. -/
def State.streamHolds (s : State) (core t : Nat) : Option Stream :=
  (s.core core).streams.find? fun x => x.running && ((s.ctx? x.cid).bind fun c => s.trackOf c x.head) = some t

/-- Earlier streams on the head have ended. -/
def needNoStream (h : Nat) : M Unit := do
  let s ← get
  if (s.streamOn s.cx.id.core s.cx.cid h).isSome then stall (.head h)

/-! ## Taking the port (R374) -/

/-- A context still asks for the port of a track: its instruction, which waits or comes to issue again, or it has a seek or
a stream that waits. -/
def State.asks (s : State) (core t : Nat) (q : Nat × Word) : Bool :=
  (s.ctx? q.1).any fun c => !c.st.out &&
    (c.pc = q.2 || c.heads.any (fun e => e.2.pv && s.trackOf c e.1 = some t) ||
      (s.core core).streams.any fun x => x.cid = q.1 && !x.running && s.trackOf c x.head = some t)

/-- The requests for a track's port that stand, in order. -/
def State.portQueue (s : State) (core t : Nat) : List (Nat × Word) := (s.track core t).queue.filter (s.asks core t)

/-- A context asks for the port: it keeps the place it has, or comes last. -/
def State.askFor (s : State) (c : Ctx) (t : Nat) : State :=
  let l := s.portQueue c.id.core t
  s.modTrack c.id.core t fun tr =>
    { tr with queue := if l.any fun q => q.1 = c.cid then l.map fun q => if q.1 = c.cid then (c.cid, c.pc) else q
                       else l ++ [(c.cid, c.pc)] }
def State.askPort (s : State) (t : Nat) : State := s.askFor s.cx t

/-- Streams that come back with their context ask for their ports again (R377), lower slots first (R374). -/
def State.askAgain (s : State) (core : Nat) : State :=
  [0, 1, 2, 3].foldl (fun s k => (s.ctxs.filter fun c => c.id.core = core && c.id.slot = k && !c.st.out).foldl (fun s c =>
    ((s.core core).streams.filter fun x => x.cid = c.cid && !x.running).foldl (fun s x =>
      match s.trackOf c x.head with
      | some t => s.askFor c t
      | none => s) s) s) s

/-- The owner's seek is on its way. -/
def State.ownerSeeks (s : State) (t : Nat) (tr : Track) : Bool :=
  match tr.owner with
  | none => false
  | some o => (s.ctx? o).any fun c => c.heads.any fun e => e.2.pv && s.trackOf c e.1 = some t

/-- The port can be taken by a context. -/
def State.portFree (s : State) (core t cid : Nat) : Bool :=
  let tr := s.track core t
  (match tr.holder with | none => true | some o => o = cid) && (s.streamHolds core t).isNone && !s.ownerSeeks t tr &&
    (match s.portQueue core t with | [] => true | q :: _ => q.1 = cid)

/-- A context becomes the owner: the port goes to its head's position, and a pending seek completes. -/
def State.takePort (s : State) (cid h t : Nat) : State :=
  match s.ctx? cid with
  | none => s
  | some c =>
    let x := c.head h
    let goal := if x.pv then x.pend else x.pos
    let s1 := s.modTrack c.id.core t fun tr =>
      { tr with owner := some cid, ppos := goal, queue := tr.queue.filter fun q => q.1 != cid }
    let s2 := s1.modCtx cid fun c => c.modHead h fun x =>
      { x with pos := goal, pend := 0, pv := false, bwd := goesBack (s.track c.id.core t).ppos goal }
    if x.pv then s2.uncount cid 4 else s2

/-- An owner's pending seek completes (R383). -/
def State.endSeek (s : State) (cid h t : Nat) : State :=
  match s.ctx? cid with
  | none => s
  | some c =>
    let x := c.head h
    if !x.pv then s
    else ((s.modTrack c.id.core t fun tr => { tr with ppos := x.pend }).modCtx cid fun c =>
      c.modHead h fun x => { x with pos := x.pend, pend := 0, pv := false }).uncount cid 4

/-- Own the port at the head's position, or wait for it. -/
def needPort (h t : Nat) : M Unit := do
  let s ← get
  let c := s.cx
  let tr := s.track c.id.core t
  if tr.owner = some c.cid then
    if (c.head h).pv then modify fun s => s.endSeek c.cid h t
  else if s.portFree c.id.core t c.cid then modify fun s => s.takePort c.cid h t
  else do
    modify fun s => s.askPort t
    stallIn (.head h)

/-- A stream of a context on a head runs: it holds the port (R375). -/
def State.runStream (s : State) (core cid h : Nat) : State := s.modCore core fun k =>
  { k with streams := k.streams.map fun x => if x.cid = cid && x.head = h then { x with running := true } else x }

/-- SEEK_COMPLETE: a seek of the port's owner completes (R383); a lost track does not shift (R372). -/
def execSeekComplete (cid h : Nat) (s : State) : Host.Outcome State Fault Refusal :=
  match s.ctx? cid with
  | none => .next s
  | some c =>
    match s.trackOf c h with
    | none => .next s
    | some t =>
      if !c.st.out && s.issues c.id.part && (s.track c.id.core t).owner = some cid && !(s.track c.id.core t).lost &&
          (s.streamHolds c.id.core t).isNone then
        .next (s.endSeek cid h t)
      else .next s

/-! ## Holds (R375, R386) -/

/-- A transfer by the holder counts. -/
def Track.counted (t : Track) (cid cyc : Nat) : Track :=
  if t.holder = some cid then
    { t with hleft := t.hleft - 1, since := cyc, holder := if t.hleft ≤ 1 then none else t.holder }
  else t

def execHtake (h : Nat) (s : State) := run (do
  let t ← needHead (.htake h) h
  needNoStream h
  needTrack h t
  needPort h t
  modify fun s =>
    let c := s.cx
    s.modTrack c.id.core t fun tr =>
      { tr with holder := some c.cid, hleft := c.c.hold.toNat % 8192, since := (s.core c.id.core).cyc }
  advance) s

def execHgive (h : Nat) (s : State) := run (do
  let t ← needHead (.hgive h) h
  needNoStream h
  needTrack h t
  if ((← get).cx.head h).pv then stall (.head h)
  modify fun s =>
    let c := s.cx
    s.modTrack c.id.core t fun tr => if tr.holder = some c.cid then { tr with holder := none, hleft := 0 } else tr
  advance) s

/-- HOLD_LAPSE: an idle hold ends after 16 × `hold` cycles (R375). -/
def execHoldLapse (core t : Nat) (s : State) : Host.Outcome State Fault Refusal :=
  let tr := s.track core t
  match tr.holder with
  | none => .next s
  | some o =>
    let limit := 16 * ((s.ctx? o).map fun c => c.c.hold.toNat).getD 0
    if (s.core core).cyc - tr.since < limit then .next s
    else .next (s.modTrack core t fun tr => { tr with holder := none, hleft := 0 })

/-! ## Seeks and records (R383, R385) -/

/-- Start a seek. A forced direction applies where the context owns the port (R376); one that does not asks for it. -/
def startSeek (h t goal : Nat) (dir : SeekDir) : M Unit := do
  if ((← get).cx.head h).pv then stall (.head h)
  needRoom 4
  let s ← get
  let tr := s.track s.cx.id.core t
  let owns := tr.owner = some s.cx.cid
  let back := match dir with
    | .shortest => goesBack tr.ppos goal
    | .fwd => !owns && goesBack tr.ppos goal
    | .bwd => owns || goesBack tr.ppos goal
  modHead h fun x => { x with pv := true, pend := goal, bwd := back }
  check (!owns) (modify fun s => s.askPort t)
  count 4

def execHseek (dir : SeekDir) (h : Nat) (a : Src) (s : State) := run (do
  let t ← needHead (.hseek dir h a) h
  let x ← readS a
  if x.toNat / 4096 != 0 then headIllop h 1
  needNoStream h
  needTrack h t
  startSeek h t x.toNat dir
  freeS a
  advance) s

def execHrew (h : Nat) (s : State) := run (do
  let t ← needHead (.hrew h) h
  needNoStream h
  needTrack h t
  let m := ((← get).cx.head h).mark
  startSeek h t m .shortest
  advance) s

def execHpos (d h : Nat) (s : State) := run (do
  let t ← needHead (.hpos d h) h
  needTrack h t
  let s ← get
  writeS d ((s.cx.head h).word ((s.track s.cx.id.core t).owner = some s.cx.cid))
  advance) s

def execHstride (h : Nat) (a : Src) (s : State) := run (do
  let t ← needHead (.hstride h a) h
  let x ← readS a
  if x.toInt < -2048 || 2047 < x.toInt then headIllop h 2
  needNoStream h
  needTrack h t
  freeS a
  modHead h fun y => { y with stride := x.toInt }
  advance) s

def execHmark (h : Nat) (s : State) := run (do
  let t ← needHead (.hmark h) h
  needNoStream h
  needTrack h t
  if ((← get).cx.head h).pv then stall (.head h)
  modHead h fun x => { x with mark := x.pos }
  advance) s

/-! ## Transfers (R384, R387) -/

/-- The step after a transfer at `p`. -/
def Head.stepped (x : Head) (p : Nat) : Head := { x with pos := posAdd p x.stride, bwd := x.stride < 0 }
def State.stepHead (s : State) (cid h t p : Nat) : State :=
  match s.ctx? cid with
  | none => s
  | some c =>
    let x := (c.head h).stepped p
    (s.modCtx cid fun c => c.modHead h fun _ => x).modTrack c.id.core t fun tr =>
      { (tr.counted cid (s.core c.id.core).cyc) with ppos := x.pos }

/-- The bytes of the word at a position, and writing it. -/
def State.trackWord (s : State) (core t q : Nat) : List Byte := s.mem.bytes (trackKey core t q 0) 128
def State.putTrackWord (s : State) (core t q p : Nat) (bs : List Byte) : State :=
  { s with mem := s.mem.putBytes (trackKey core t q 0) bs }.modTrack core t fun tr =>
    { tr with bad := tr.bad.filter (· != q),
              marks := if p % 16 = q % 16 then tr.marks.erase q else tr.marks.set q (p % 16) }

/-- Own the port and pass the postmark check; answers the expected position and the one under the port. -/
def needWord (h t : Nat) : M (Nat × Nat) := do
  needNoStream h
  needTrack h t
  needNoFaults
  needPort h t
  let s ← get
  let core := s.cx.id.core
  let p := (s.cx.head h).pos
  let r := (s.track core t).checked p (if s.cx.c.mode.getLsbD 1 then 1 else 0)
  modify fun s => s.modTrack core t fun _ => r.1
  match r.2.1 with
  | some e => modHead h fun x => x.seen e ((s.track core t).slipAt p)
  | none => pure ()
  match r.2.2 with
  | some code => trapIn code (headInfo false code h p r.1.slip)
  | none => pure (p, r.1.under p)

def execHrd (d h : Nat) (s : State) := run (do
  let t ← needHead (.hrd d h) h
  let (p, q) ← needWord h t
  let s ← get
  let core := s.cx.id.core
  if (s.track core t).bad.contains q then trapIn cPOISON (headInfo false cPOISON h p 0)
  writeV d (vOfBytes (s.trackWord core t q))
  modify fun s => s.stepHead s.cx.cid h t p
  advance) s

def execHwr (h : Nat) (a : Src) (s : State) := run (do
  let t ← needHead (.hwr h a) h
  let v ← readV a
  let (p, q) ← needWord h t
  freeV a
  modify fun s => (s.putTrackWord s.cx.id.core t q p (vBytes v)).stepHead s.cx.cid h t p
  advance) s

def execHrealign (h : Nat) (s : State) := run (do
  let t ← needHead (.hrealign h) h
  needNoStream h
  needTrack h t
  needPort h t
  let s ← get
  let core := s.cx.id.core
  let p := (s.cx.head h).pos
  let tr := s.track core t
  let made := tr.slip != 0
  let u : Track := if made then { tr.shifted tr.slip with slip := tr.slip, ppos := p } else tr
  if u.slipAt p = 0 then do
    modify fun s => s.modTrack core t fun _ => { u with slip := 0 }
    if made then modHead h fun x => x.seen 1 tr.slip
    advance
  else do
    modify fun s => s.modTrack core t fun _ => { u with suspect := true }
    modHead h fun x => if made then x.seen 3 tr.slip else { x with err := 3 }
    trapIn cHEADLOST (headInfo false cHEADLOST h p 0)) s

/-! ## Streams (R388) -/

/-- Start a stream. The owner's runs at once; one of another context asks for the port (R374). -/
def startStream (fill : Bool) (h q n t : Nat) : M Unit := do
  if n = 0 || 4096 < n then headIllop h 3
  let s ← get
  let core := s.cx.id.core
  let r := s.ring core q
  if !r.defd || r.entryb != 128 || (s.core core).streams.any (fun x => x.q = q) || (fill && r.engine != 0) then
    headIllop h 4
  needNoStream h
  needTrack h t
  needRoom 4
  let owns := (s.track core t).owner = some s.cx.cid
  check (owns && (s.cx.head h).pv) (modify fun s => s.endSeek s.cx.cid h t)
  modify fun s => s.modCore core fun k =>
    { k with streams := k.streams ++ [{ cid := s.cx.cid, head := h, fill := fill, q := q, left := n,
                                        herr := if s.cx.c.mode.getLsbD 1 then 1 else 0, running := owns }] }
  check (!owns) (modify fun s => s.askPort t)
  if fill then modify fun s => s.modRing core q fun r => { r with engine := 2 }
  count 4

def execHburst (h q : Nat) (b : Src) (s : State) := run (do
  let t ← needHead (.hburst h q b) h
  let n ← readS b
  startStream false h q n.toNat t
  freeS b
  advance) s

def execHfill (h q : Nat) (b : Src) (s : State) := run (do
  let t ← needHead (.hfill h q b) h
  let n ← readS b
  startStream true h q n.toNat t
  freeS b
  advance) s

/-- A stream ends: it completes for counting, and an `hfill` leaves its ring. -/
def State.endStream (s : State) (core : Nat) (x : Stream) : State :=
  let s1 := s.modCore core fun k => { k with streams := k.streams.filter fun y => !(y.cid = x.cid && y.head = x.head) }
  (if x.fill then s1.modRing core x.q fun r => { r with engine := 0 } else s1).uncount x.cid 4

/-- A stream stops on an error: the deferred trap, and its end. -/
def State.failStream (s : State) (core : Nat) (x : Stream) (code p : Nat) (slip : Int) : State :=
  (s.endStream core x).defer x.cid code (headInfo true code x.head p slip) none

/-- A word of a stream has moved. -/
def State.streamed (s : State) (core t p : Nat) (x : Stream) : State :=
  let s1 := s.stepHead x.cid x.head t p
  if x.left ≤ 1 then s1.endStream core x
  else s1.modCore core fun k => { k with streams := k.streams.map fun y =>
    if y.cid = x.cid && y.head = x.head then { y with left := y.left - 1 } else y }

/-- HEAD_STREAM_WORD: the stream that holds a track's port moves one word (R388), where its ring has room or an entry. On a
lost track it stops at once (R372). -/
def execHeadStreamWord (core t : Nat) (s : State) : Host.Outcome State Fault Refusal :=
  match s.streamHolds core t with
  | none => .next s
  | some x =>
    match s.ctx? x.cid with
    | none => .next (s.endStream core x)
    | some c =>
      let r := s.ring core x.q
      let gone (s : State) : State :=
        (s.modCtx x.cid fun c => c.modHead x.head fun y => { y with err := 3 }).failStream core x cHEADLOST (c.head x.head).pos 0
      if !s.issues c.id.part then .next s
      else if (s.track core t).lost then .next (gone s)
      else if s.atoms.any (fun e => e.2.cid = x.cid) ||
          (if x.fill then cdiff r.prod r.cons = 0 else r.n ≤ cdiff r.rsv r.cons) then .next s
      else
        let p := (c.head x.head).pos
        let k := (s.track core t).checked p x.herr
        let s1 := if x.fill then s else s.modRing core x.q fun r => { r with rsv := (r.rsv + 1) % 2 ^ 32 }
        let s2 := s1.modTrack core t fun _ => k.1
        let s3 := match k.2.1 with
          | some e => s2.modCtx x.cid fun c => c.modHead x.head fun y => y.seen e ((s.track core t).slipAt p)
          | none => s2
        let q := k.1.under p
        match k.2.2 with
        | some code => .next (s3.failStream core x code p k.1.slip)
        | none =>
          if x.fill then
            let bs := s3.slotBytes core r r.cons 128
            let s4 := (s3.putTrackWord core t q p bs).modRing core x.q fun r => { r with cons := (r.cons + 1) % 2 ^ 32 }
            .next (s4.streamed core t p x)
          else if k.1.bad.contains q then .next (s3.failStream core x cPOISON p 0)
          else
            let s4 := (s3.putSlot core r r.rsv (s3.trackWord core t q)).modRing core x.q fun u => u.publish r.rsv 1
            .next (s4.streamed core t p x)

/-- PORT_TAKE: a context that waits for the port with a pending seek or a stream takes it (R374, R383, R388); a stream whose
track is lost stops at once (R372, R379). -/
def execPortTake (cid h : Nat) (s : State) : Host.Outcome State Fault Refusal :=
  match s.ctx? cid with
  | none => .next s
  | some c =>
    match s.trackOf c h with
    | none => .next s
    | some t =>
      let tr := s.track c.id.core t
      let st := (s.streamOn c.id.core cid h).filter fun x => !x.running
      if c.st.out || !s.issues c.id.part then .next s
      else if tr.lost then
        match st with
        | some x => .next ((s.modCtx cid fun c => c.modHead h fun y => { y with err := 3 }).failStream c.id.core x cHEADLOST (c.head h).pos 0)
        | none => .next s
      else if !((c.head h).pv || st.isSome) then .next s
      else if tr.owner = some cid then .next ((s.endSeek cid h t).runStream c.id.core cid h)
      else if s.portFree c.id.core t cid then .next ((s.takePort cid h t).runStream c.id.core cid h)
      else .next s

/-! ## The end of a context's use of its tracks (R336, R377) -/

/-- Ownership, holds and requests of a context end; its streams stop at a word boundary (R377). -/
def State.leavePorts (s : State) (core cid : Nat) : State :=
  s.modCore core fun k => { k with
    streams := k.streams.map fun x => if x.cid = cid then { x with running := false } else x
    tracks := k.tracks.map fun e =>
    (e.1, { e.2 with owner := if e.2.owner = some cid then none else e.2.owner,
                     holder := if e.2.holder = some cid then none else e.2.holder,
                     hleft := if e.2.holder = some cid then 0 else e.2.hleft,
                     queue := e.2.queue.filter fun q => q.1 != cid }) }

/-! ## The track map and the re-index (R370, R372) -/

/-- The map entry of a track (R370). -/
def Track.entry (t : Track) : Nat :=
  (if t.v then 2 ^ 15 else 0) + (if t.common then 2 ^ 14 else 0) + (if t.suspect then 2 ^ 13 else 0) +
    (if t.ridx then 2 ^ 12 else 0) + t.hidx * 256 + t.part

/-- A context of the track's partition on the core names it, or an instance placed there will (notes/assumptions/29.md). -/
def State.trackNamed (s : State) (core t : Nat) : Bool :=
  let names (p : Nat) (ts : List Nat) : Bool := (List.range ts.length).any fun h => s.headTrack core p ts h = some t
  (s.ctxs.any fun c => c.id.core = core && c.id.slot != 4 && names c.id.part c.decl.tracks) ||
    s.insts.any fun i => i.2.st = 2 && !i.2.begun && (i.2.cores.zip i.2.tracks).any fun e =>
      e.1 = core && names (((s.kernels.get? i.2.kernel).map (·.part)).getD 0) e.2

/-- TRACK_MAP_WRITE: a write of a 16-bit entry by a function (R370). -/
def execTrackMapWrite (fn core t v : Nat) (s : State) : Host.Outcome State Fault Refusal :=
  let tr := s.track core t
  let same := v / 2 ^ 14 % 4 = tr.entry / 2 ^ 14 % 4 && v % 4096 = tr.entry % 4096
  let com := v.testBit 14
  let twin := v.testBit 15 && com && (List.range 16).any fun u =>
    u != t && (s.track core u).v && (s.track core u).common && (s.track core u).part = v % 16 && (s.track core u).hidx = v / 256 % 16
  if fn != 0 || !(onDeck core && coreExists s.variant core) || 16 ≤ t || v / 16 % 16 != 0 || 2 ^ 16 ≤ v then .next s
  else if same then
    .next (s.modTrack core t fun tr => { tr with suspect := tr.suspect || v.testBit 13, ridx := tr.ridx || (tr.suspect && !v.testBit 13) })
  else if tr.inst.isSome || ((com || tr.common) && s.trackNamed core t) || twin then .next s
  else .next (s.modTrack core t fun tr =>
    { tr with v := v.testBit 15, common := com, suspect := tr.suspect || v.testBit 13, hidx := v / 256 % 16, part := v % 16,
              ridx := tr.ridx || (tr.suspect && !v.testBit 13) })

/-- REINDEX_DONE: the index is found; every postmark is rewritten, the port's position is true (R372). -/
def execReindexDone (core t : Nat) (s : State) : Host.Outcome State Fault Refusal :=
  if !(s.track core t).ridx then .next s
  else .next ({ s.modTrack core t (fun tr =>
      { tr with ridx := false, suspect := false, slip := 0, off := 0, marks := [],
                ppos := Config.freePick s.free % 4096 }) with free := s.free + 1 })

/-- A track slips: the word under the port moves by `n` against the port's belief (R378). -/
def State.slipTrack (s : State) (core t : Nat) (n : Int) : State :=
  s.modTrack core t fun tr => { tr with off := (tr.off + n) % 4096 }

/-- The next realignment of a track will miss by `n` positions (R379). -/
def State.stickTrack (s : State) (core t : Nat) (n : Int) : State := s.modTrack core t fun tr => { tr with stick := n }

end Sys2Proof.Machine
end

