-- ==== Sys2Proof/Machine/Group.lean ====
section
/-! DEFINITION. Groups and their phases (R307-R317): `sync`, arrivals, the release of a phase, and the end of a slice by
`yield` as a release carries it out (R338). -/
namespace Sys2Proof.Machine

/-! ## Members and arrivals (R311-R313) -/

/-- The members an instance has on this device: its node's gang size. -/
def State.gangOf (s : State) (i : Inst) : Nat := ((s.nodeOf i).map (·.gang)).getD 1
/-- A member's position on this device. -/
def Inst.localRank (i : Inst) (cid : Nat) : Nat := i.cids.idxOf cid
/-- Every member has arrived in the phase, or has ended. -/
def Inst.allIn (i : Inst) (g : Nat) : Bool :=
  (List.range g).all fun r => i.ended.contains r || i.arrivals.any fun a => a.1 = r
/-- The barrier after an arrival or a member's end: OPEN, GATHERING, or DRAINING at the last one (R313). -/
def Inst.gathered (i : Inst) (g : Nat) : Inst :=
  if 2 ≤ i.gst then i
  else { i with gst := if i.allIn g then 2 else if i.arrivals.isEmpty && i.ended.isEmpty then 0 else 1 }
/-- A member arrives. -/
def State.arriveGroup (s : State) (c : Ctx) (a : Arrival) (how : Nat) : State :=
  (s.modInst c.id.inst fun i =>
    { i with arrivals := i.arrivals ++ [(i.localRank c.cid, a)] }.gathered (s.gangOf i)).modCtx c.cid fun c =>
      { c with st := { c.st with inSync := how } }

/-! ## Votes (R311, R312) -/

def voteIdentity (op : VoteOp) : Nat := match op with | .and => 0xFFFFFFFF | _ => 0
/-- One more vote in a reduction. -/
def voteTake (op : VoteOp) (acc v : Nat) : Nat :=
  match op with
  | .or => acc ||| v
  | .and => acc &&& v
  | .sum => acc + v
  | .pop => acc + popBits v 32
/-- Another device's part of a reduction (R317). -/
def voteJoin (op : VoteOp) (acc v : Nat) : Nat :=
  match op with
  | .or => acc ||| v
  | .and => acc &&& v
  | _ => acc + v
def reduceVotes (op : VoteOp) (vs : List Nat) : Nat := vs.foldl (voteTake op) (voteIdentity op)

def Arrival.vote? : Arrival → Option (VoteOp × Nat)
  | .sync op v => some (op, v)
  | .yield => none

/-- What a phase returns to its `sync`s, and how its arrivals disagreed: 1 a `yield` among them, 2 two operations. Of
another device `others` holds the reduction of its share, or nothing for a share that arrived by `yield` (R317). -/
def Inst.outcome (i : Inst) (others : List (Option (VoteOp × Nat))) : Word × Nat :=
  let mine := i.arrivals.map fun a => a.2.vote?
  match (mine ++ others).filterMap id with
  | [] => (0, 0)
  | (op, _) :: vs =>
    if (mine ++ others).any (·.isNone) then (0, 1)
    else if vs.any fun u => u.1 != op then (0, 2)
    else (BitVec.ofNat 64 (((others.filterMap id).map (·.2)).foldl (voteJoin op)
      (reduceVotes op ((mine.filterMap id).map (·.2)))), 0)

/-! ## `sync` (R310, R311) -/

/-- No exchange operation of the contexts is on its way, and none has an unresolved entry (R309). -/
def State.exchangeDone (s : State) (cids : List Nat) : Bool :=
  (s.cores.all fun e => e.2.copies.all fun o => !(cids.contains o.cid && 3 ≤ o.kind && o.kind ≤ 5)) &&
    s.bads.all fun e => !(cids.contains e.2.cid && e.2.exch)

/-- The trap after a phase whose arrivals disagreed (R312): taken before the member's next instruction. -/
def mixedTrap (reason : Nat) : M Unit :=
  check (reason != 0) (modify fun s => s.defer s.cx.cid cILLOP (subInfo 0x09 reason) none)

def setSync (n : Nat) : M Unit := modCx fun c => { c with st := { c.st with inSync := n } }

/-- How the last released phase of the member's group disagreed. -/
def State.mixedOf (s : State) (c : Ctx) : Nat := ((s.insts.get? c.id.inst).map (·.mixed)).getD 0

def execSync (op : VoteOp) (d : Nat) (a : Src) (s : State) := run (do
  notInMicro
  notInDrain
  let c := s.cx
  if c.id.gsize ≤ 1 then do
    needReleased true
    if !s.exchangeDone [c.cid] then stall .group
    let x ← readS a
    freeS a
    writeS d (BitVec.ofNat 64 (reduceVotes op [x.toNat % 2 ^ 32]))
    advance
  else match c.st.vote with
    | some (v, mixed) => do
      modCx fun c => { c with st := { c.st with vote := none } }
      writeS d v
      advance
      mixedTrap mixed
    | none =>
      if c.st.inSync = 3 then do
        setSync 0
        writeS d 0
        advance
        mixedTrap (s.mixedOf c)
      else if c.st.inSync != 0 then stall .group
      else do
        needReleased true
        let x ← readS a
        freeS a
        modify fun s => s.arriveGroup s.cx (.sync op (x.toNat % 2 ^ 32)) 1
        stallIn .group) s

/-! ## Leaving a slot (R69, R70, R225, R329, R332, R377) -/

/-- The kind of wait that STATE.WAITK names (R70). -/
def Wait.kind : Wait → Nat
  | .barrier _ _ _ | .early _ | .group => 1
  | .event _ => 2
  | .msg | .msgRoom _ _ => 3
  | _ => 0

/-- A context out of its slot: its wait is abandoned, its prepared targets are lost (R125). -/
def Ctx.left (c : Ctx) : Ctx :=
  { c with wait := none, r := { c.r with prep := [] },
           st := { c.st with out := true, waitk := (c.wait.map Wait.kind).getD 0 } }

/-- The slot that a context leaves keeps its age (R320). -/
def State.keepAge (s : State) (c : Ctx) : State := s.modCore c.id.core fun k => { k with ages := k.ages.set c.id.slot c.st.last }

/-- A context leaves its slot and is saved: its ports are given up and its messages go to its inbox. -/
def State.leaveSlot (s : State) (cid : Nat) : State :=
  match s.ctx? cid with
  | none => s
  | some c => (((s.leavePorts c.id.core cid).stow cid).keepAge c).modCtx cid Ctx.left

/-! ## The end of a slice by `yield` (R281, R338) -/

/-- The slice's budget (R278). -/
def State.budgetOf (s : State) (c : Ctx) : Word :=
  BitVec.ofNat 64 ((((s.insts.get? c.id.inst).bind s.nodeOf).map (·.budget)).getD (2 ^ 32 - 1))

/-- A context leaves its slot at the end of a slice: bindings and ports are given up, registers, tiles, heads and
`srseed` are kept, `budget` is that of the next slice. -/
def State.endSlice (s : State) (cid : Nat) : State :=
  match s.ctx? cid with
  | none => s
  | some c =>
    let b := s.budgetOf c
    ((s.unbindAll cid).leaveSlot cid).modCtx cid fun c =>
      { c with c := { c.c with budget := b } }

/-! ## The release of a phase (R309, R313, R316) -/

/-- The group spans devices (R317): the node's bit was set at the LAUNCH. Copies do not span. -/
def State.spans (s : State) (i : Inst) : Bool :=
  match s.kernels.get? i.kernel, s.nodeOf i with
  | some k, some n => 2 ≤ k.spann && k.spannodes.testBit i.node && !n.copy
  | _, _ => false

/-- The power meter at this moment, and the credits counted since (R408, R409): the spec gives no formula for what a package
draws, so the readings are free. -/
def State.metered (s : State) : State :=
  { s with
    power := { s.power with
      pmw := Config.freePick s.free % 2 ^ 32
      bicred := (s.power.bicred + Config.freePick (s.free + 1)) % 2 ^ 64
      zecred := (s.power.zecred + Config.freePick (s.free + 2)) % 2 ^ 64 }
    free := s.free + 3 }

/-- The package draws more than its limit (R316). -/
def State.overPower (s : State) : Bool := s.power.plimit < s.power.pmw

/-- The release begins: PHASES counts it, HELDCYC the cycles it was held. -/
def State.beginRelease (s : State) (n : Nat) (i : Inst) (held : Nat) : State :=
  (s.modInst n fun i => { i with gst := 4, arrivals := [], released := [] }).modPart (s.instPart i) fun p =>
    { p with phases := (p.phases + 1) % 2 ^ 64, heldcyc := (p.heldcyc + held) % 2 ^ 64 }

/-- The exchange of the phase is complete: its outcome is settled, with the parts of other devices, and the release
begins, or is held for power (R313). -/
def State.drained (s : State) (n : Nat) (i : Inst) (others : List (Option (VoteOp × Nat))) : State :=
  let r := i.outcome others
  let p := s.part (s.instPart i)
  let s1 := s.metered.modInst n fun i => { i with result := r.1, mixed := r.2, holdmax := p.holdmax, ptab := p.ptab }
  if p.holdmax != 0 && s1.overPower then s1.modInst n fun i => { i with gst := 3 }
  else s1.beginRelease n i 0

/-- SYNC_EXCHANGE_COMPLETE: the exchange traffic of a draining phase has landed. -/
def execSyncExchangeComplete (n : Nat) (s : State) : Host.Outcome State Fault Refusal :=
  match s.insts.get? n with
  | none => .next s
  | some i =>
    if i.gst = 2 && s.issues (s.instPart i) && s.exchangeDone i.cids && !s.spans i then .next (s.drained n i [])
    else .next s

/-- SPAN_RELEASE_TICK: the devices of a span begin the release at the agreed tick, each with the parts of the others
(R317). -/
def execSpanReleaseTick (n tick : Nat) (votes : List (Option (VoteOp × Nat))) (s : State) : Host.Outcome State Fault Refusal :=
  match s.insts.get? n with
  | none => .next s
  | some i =>
    if i.gst = 2 && s.issues (s.instPart i) && s.exchangeDone i.cids && s.spans i then
      .next ({ s with time := max s.time (tick % 2 ^ 64) }.drained n i votes)
    else .next s

/-- POWER_HOLD_END: power is within the limit after at most HOLDMAX cycles, or the hold has reached HOLDMAX (R316). -/
def execPowerHoldEnd (n : Nat) (s : State) : Host.Outcome State Fault Refusal :=
  match s.insts.get? n with
  | none => .next s
  | some i =>
    if i.gst = 3 && s.issues (s.instPart i) then
      let s := s.metered
      let held := if s.overPower then i.holdmax else Config.freePick s.free % (i.holdmax + 1)
      .next { s.beginRelease n i held with free := s.free + 1 }
    else .next s

/-- The deck column that staggers a core's release (R316). -/
def coreColumn (core : Nat) : Nat := if onDeck core then coreCol core else 2 * coreCol core

/-- Members that have not ended, with their columns. -/
def State.columnsOf (s : State) (i : Inst) : List (Nat × Nat) :=
  i.cids.filterMap fun cid => (s.ctx? cid).map fun c => (cid, coreColumn c.id.core)

/-- One member is released: a `sync` may return the vote; a `yield` ends the slice, or goes on where the phase was mixed. -/
def State.releaseMember (s : State) (i : Inst) (cid : Nat) : State :=
  match s.ctx? cid with
  | none => s
  | some c =>
    let go := fun (c : Ctx) => if c.wait = some .group then { c with wait := none } else c
    if c.st.inSync = 1 then
      s.modCtx cid fun c => go { c with st := { c.st with inSync := 0, vote := some (i.result, i.mixed) } }
    else if c.st.inSync = 2 then
      (if i.mixed = 0 then s.endSlice cid else s).modCtx cid fun c => go { c with st := { c.st with inSync := 3 } }
    else s

end Sys2Proof.Machine
end

