-- ==== Sys2Proof/Machine/Queue.lean ====
section
/-! DEFINITION. Host queues (R269-R276): states, doorbells and errors; host traffic at the home of a line (R250), and the
command processor's reads and writes. -/
namespace Sys2Proof.Machine

/-! ## Functions (R405) -/

/-- The physical function, or the virtual function of the partition. -/
def ownsBlock (fn p : Nat) : Bool := fn = 0 || fn = p + 1

/-- The PCIe attachment takes traffic (R405): it has not FAILED. -/
def State.hostUp (s : State) : Bool := s.crosses 12

/-- An MSI-X message to the function of a partition (R271, R405); a vector beyond its table is not sent. -/
def State.interrupt (s : State) (p vec : Nat) : State :=
  if vec < 256 && s.hostUp then { s with msix := s.msix ++ [(p + 1, vec)] } else s

/-! ## Reads and writes of the command processor -/

/-- The byte at the home of a line: what the host sees (R250). -/
def State.homeByte (s : State) (key : Nat) : Byte :=
  match s.home.get? (key / 8) with
  | some w => if isDram key then BitVec.ofNat 8 (w.toNat / 256 ^ (key % 8)) else s.mem.read key
  | none => s.mem.read key

/-- A context's line keeps the old word where it holds one (R250). -/
def Ctx.keepOld (c : Ctx) (w : Nat) (before : Word) : Ctx :=
  { c with l1 := { c.l1 with data := c.l1.data.map fun l =>
      if l.line = w / 16 && l.valid.getLsbD (w % 16) && !l.old.has w then { l with old := l.old.set w before } else l } }

/-- One byte written at the home of a line by the host (R250): a written first-level word still hides it, and valid
first-level words stay as they were. -/
def State.hostByte (s : State) (key : Nat) (b : Byte) : State :=
  if !isDram key then { s with mem := s.mem.write key b }
  else match s.home.get? (key / 8) with
    | some w =>
      let o := w.toNat / 256 ^ (key % 8) % 256
      { s with home := s.home.set (key / 8) (BitVec.ofNat 64 (w.toNat - o * 256 ^ (key % 8) + b.toNat * 256 ^ (key % 8))) }
    | none =>
      let before := s.wordAt (key / 8)
      { s.mapCtxs (Ctx.keepOld · (key / 8) before) with mem := s.mem.write key b }

/-- A byte of a command's address: global memory, its block brought in, or host memory (R273). -/
def State.cmdPlace (s : State) (p va : Nat) (k : Acc) : State × Except Nat Nat :=
  if isGlobal va then s.reach p va k else (s, .ok (hostKey va))

/-- Write bytes with `.sys` ordering at an address in global or host memory; a byte whose address faults is not
written. -/
def State.putHost (s : State) (p va : Nat) : List Byte → State
  | [] => s
  | b :: t =>
    let r := s.cmdPlace p va .store
    State.putHost (match r.2 with | .ok key => r.1.putShared key [b] | .error _ => r.1) p (va + 1) t

/-! ## Queues -/

def State.queue (s : State) (q : Nat) : Queue := s.queues.getD q Queue.fresh
def State.modQueue (s : State) (q : Nat) (f : Queue → Queue) : State := { s with queues := s.queues.set q (f (s.queue q)) }

/-- States of R270. -/
def qDISABLED : Nat := 0
def qIDLE : Nat := 1
def qACTIVE : Nat := 2
def qSWAPPED : Nat := 3
def qDRAINING : Nat := 4
def qERROR : Nat := 5

/-- The operation number of a started command that has ended in an error; its SUBOP is the ERRCODE from then on. -/
def opFAILED : Nat := 255

/-- An error (R274): the queue stops fetching, and sends its interrupt. A queue that is switched out enters ERROR at the
switch-in; the error of another started command comes up once a queue in ERROR has gone on (R275). -/
def State.queueError (s : State) (q idx code : Nat) : State :=
  let s := s.modQueue q fun u => { u with cmds := u.cmds.modify idx fun c => { c with op := opFAILED, sub := code } }
  let u := s.queue q
  if u.st = qIDLE || u.st = qACTIVE then
    (s.modQueue q fun u => { u with st := qERROR, errIdx := idx, errCode := code }).interrupt u.part u.vec
  else if u.st = qSWAPPED && !u.swapped then
    s.modQueue q fun u => { u with swapped := true, errIdx := idx, errCode := code }
  else s

/-- The bus address of command `c` (R269). -/
def Queue.slot (u : Queue) (c : Nat) : Nat := u.qbase + 128 * (c % 2 ^ u.log2)

/-- The partition a function serves (R405); the physical function's is partition 0 (DESIGN CHOICE, notes/assumptions/14.md). -/
def partOfFn (fn : Nat) : Nat := fn - 1

/-- The function whose BAR2 window holds a bus address, with the offset in the window (R405). -/
def State.windowOf (s : State) (a : Nat) : Option (Nat × Nat) :=
  (s.bar2.find? fun e => e.1 < 17 && e.2 ≤ a && a < e.2 + 2 ^ 36).map fun e => (e.1, a - e.2)

/-- `n` bytes at a bus address: of host memory, or of global memory behind a BAR2 window, where a read of it would not be
refused (R269, R435). -/
def State.busBytes (s : State) (a n : Nat) : Option (List Byte) :=
  match s.windowOf a with
  | some (fn, o) =>
    (List.range n).mapM fun i =>
      let r := s.reach (partOfFn fn) (s.winbase.getD fn (2 ^ 40) + o + i) .load
      match r.2 with
      | .ok key => some (r.1.homeByte key)
      | .error _ => none
  | none => some (s.mem.bytes (hostKey a) n)

/-- The index of the next command to start: the first one fetched, else the next to fetch. -/
def Queue.next (u : Queue) : Nat := (u.slots.head?.map (·.1)).getD u.fetch

/-- Fetch goes on at an index: the commands fetched before it, and not started, stay (R275). -/
def Queue.fetchAt (u : Queue) (err at_ : Nat) : Queue :=
  { u with fetch := at_, slots := u.slots.filter fun e => e.1 != err && (err + 2 ^ 32 - e.1) % 2 ^ 32 < 2 ^ 31 }

/-- The bytes of the next command to start; none where the fetch of its slot faults. -/
def State.nextSlot (s : State) (q : Nat) : Option (List Byte) :=
  let u := s.queue q
  match u.slots with
  | e :: _ => some e.2
  | [] => s.busBytes (u.slot u.fetch) 128

/-- TAIL fails its check (R274). -/
def Queue.tailBad (u : Queue) : Bool := 2 ^ u.log2 < (u.tail + 2 ^ 32 - u.done) % 2 ^ 32 || 2 ^ 31 ≤ (u.tail + 2 ^ 32 - u.fetch) % 2 ^ 32

/-- A running queue is ACTIVE while commands are left. -/
def Queue.running (u : Queue) : Queue := { u with st := if u.tail = u.done then qIDLE else qACTIVE }

/-- A tail write that counts (R275). -/
def State.tailWrite (s : State) (q v : Nat) : State :=
  let u := { s.queue q with tail := v % 2 ^ 32 }
  let s1 := s.modQueue q fun _ => u
  if u.tailBad then s1.queueError q u.fetch 3 else s1.modQueue q Queue.running

/-- TAIL: a doorbell write, by the queue's state (R275, R276). -/
def execTail (q v : Nat) (s : State) : Host.Outcome State Fault Refusal :=
  let u := s.queue q
  if 64 ≤ q then .next s
  else if u.st = qIDLE || u.st = qACTIVE then .next (s.tailWrite q v)
  else if u.st = qSWAPPED then .next (s.modQueue q fun u => { u with shadow := some (v % 2 ^ 32) })
  else if u.st = qERROR then .next (s.modQueue q fun u => { u with tail := v % 2 ^ 32 })
  else .next s

/-- QUEUE_ENABLE (R275, R276). -/
def execQueueEnable (q : Nat) (s : State) : Host.Outcome State Fault Refusal :=
  if q < 64 && (s.queue q).st = qDISABLED then
    .next (s.modQueue q fun u => { u with st := qIDLE, tail := 0, fetch := 0, done := 0, slots := [], cmds := [] })
  else .next s

/-- QUEUE_DISABLE (R275, R276). -/
def execQueueDisable (q : Nat) (s : State) : Host.Outcome State Fault Refusal :=
  let st := (s.queue q).st
  if st = qIDLE || st = qACTIVE || st = qERROR then .next (s.modQueue q fun u => { u with st := qDRAINING }) else .next s

/-- Commands counted complete: DONE passes the contiguous ones (R271); those with INTR are counted in the answer. -/
def Queue.advance : Nat → Queue → Queue × Nat
  | 0, u => (u, 0)
  | n + 1, u =>
    match u.cmds.get? u.done with
    | some c =>
      if c.done then
        let r := Queue.advance n { u with cmds := u.cmds.erase u.done, done := (u.done + 1) % 2 ^ 32 }
        (r.1, r.2 + (if c.intr then 1 else 0))
      else (u, 0)
    | none => (u, 0)

/-- DONE advances where it may; each interrupt is sent. -/
def State.countDone (s : State) (q : Nat) : State :=
  let u := s.queue q
  if u.st = qSWAPPED then s
  else
    let r := u.advance u.cmds.length
    let s1 := s.modQueue q fun _ => if u.st = qIDLE || u.st = qACTIVE then r.1.running else r.1
    (List.range r.2).foldl (fun s _ => s.interrupt u.part u.vec) s1

/-- Commands of a queue that are over are no longer writers or readers of handles (R251): the queue counts from 0 again. Queue
64, which there is not, stands for a writer that is done. -/
def Handle.without (h : Handle) (q : Nat) : Handle :=
  { h with writer := h.writer.map fun w => if w.1 = q then (64, 0, w.2.2) else w, readers := h.readers.filter fun r => r.1 != q }
def State.dropUsers (s : State) (q : Nat) : State :=
  { s with handles := s.handles.map fun h => h.without q, spilled := s.spilled.filter fun e => e.1 != q }

/-- QUEUE_DRAINED: the started commands of a DRAINING queue are done (R275). -/
def execQueueDrained (q : Nat) (s : State) : Host.Outcome State Fault Refusal :=
  let u := s.queue q
  if u.st = qDRAINING && (u.cmds.all fun c => c.2.done || c.2.op = opFAILED) then
    .next (((s.countDone q).modQueue q fun u => { u with st := qDISABLED, slots := [], cmds := [] }).dropUsers q)
  else .next s

/-- The earliest command behind the fetch that has ended in an error of its own, with its code. -/
def Queue.failedBehind (u : Queue) : Option (Nat × Nat) :=
  let back (i : Nat) := (u.next + 2 ^ 32 - i) % 2 ^ 32
  u.cmds.foldl (fun r e =>
    if e.2.op = opFAILED && !e.2.done && 0 < back e.1 && back e.1 < 2 ^ 31 && r.all (fun x => back x.1 < back e.1) then
      some (e.1, e.2.sub) else r) none

/-- The queue goes on from ERROR: DONE counts what is complete, TAIL is checked as the host may have written it since (R275,
R276), and the error of an earlier command that has come up since is raised. -/
def State.goOn (s : State) (q : Nat) : State :=
  let s1 := s.countDone q
  let u := s1.queue q
  if u.tailBad then s1.modQueue q fun u => { u with errIdx := u.fetch, errCode := 3 }
  else
    let s2 := s1.modQueue q Queue.running
    match u.failedBehind with
    | some (idx, code) => s2.queueError q idx code
    | none => s2

/-- QUEUE_RESUME: fetch from ERRIDX; commands that have started since are not started again (R275). -/
def execQueueResume (q : Nat) (s : State) : Host.Outcome State Fault Refusal :=
  if (s.queue q).st = qERROR then
    .next ((s.modQueue q fun u => { u.fetchAt u.errIdx u.errIdx with cmds := u.cmds.erase u.errIdx }).goOn q)
  else .next s

/-- QUEUE_RESUME_SKIP: ERRIDX counts as complete, and fetch continues after it (R275). -/
def execQueueResumeSkip (q : Nat) (s : State) : Host.Outcome State Fault Refusal :=
  let u := s.queue q
  if u.st = qERROR then
    let hdr := natOfBytes (((s.busBytes (u.slot u.errIdx) 8)).getD [])
    let skipped : Cmd := { op := opFAILED, intr := hdr.testBit 15, handles := [], sub := 0, x := 0, y := 0, z := 0, done := true }
    .next ((s.modQueue q fun u =>
      { u.fetchAt u.errIdx ((u.errIdx + 1) % 2 ^ 32) with cmds := u.cmds.set u.errIdx skipped }).goOn q)
  else .next s

/-- The switch-out starts (R275): IDLE and ACTIVE queues of a partition are SWITCHED_OUT, and PROGRESS is kept. -/
def State.swapQueues (s : State) (p : Nat) : State :=
  let t := s.modPart p fun u => { u with swapDone := some ((s.queues.filter fun e => e.2.part = p).map fun e => (e.1, e.2.done)) }
  { t with queues := t.queues.map fun e =>
      (e.1, if e.2.part = p then { e.2 with st := if e.2.st = qIDLE || e.2.st = qACTIVE then qSWAPPED else e.2.st } else e.2) }

/-- One queue comes back at the switch-in (R275, R276): an error that has come up, the doorbell shadow, the completions
not counted. -/
def State.unswap (s : State) (q : Nat) : State :=
  let u := s.queue q
  if u.st != qSWAPPED then s
  else
    let s2 := s.modQueue q fun u => { u.running with shadow := none, swapped := false }
    let s3 := match u.shadow with | some v => s2.tailWrite q v | none => s2
    (if u.swapped && ((s3.queue q).st = qIDLE || (s3.queue q).st = qACTIVE) then
      s3.queueError q u.errIdx u.errCode else s3).countDone q

def State.unswapQueues (s : State) (p : Nat) : State :=
  (s.queues.filter fun e => e.2.part = p).foldl (fun s e => s.unswap e.1) (s.modPart p fun u => { u with swapDone := none })

/-! ## The words of the block (R270) -/

/-- PROGRESS (R276): while the queue's partition is out, DONE as saved, with STALE = 1. -/
def State.progress (s : State) (q : Nat) : Nat :=
  let u := s.queue q
  match (s.part u.part).swapDone with
  | some l => 2 ^ 63 + l.getD q u.done
  | none => u.done
def Queue.status (u : Queue) : Nat :=
  u.errIdx * 2 ^ 32 + u.errCode % 256 * 2 ^ 8 + (if u.shadow.isSome then 2 ^ 7 else 0) + u.st

end Sys2Proof.Machine
end

