-- ==== Sys2Proof/Machine/Kernel.lean ====
section
/-! DEFINITION. Kernels, instances, the dispatcher and the balancer (R277-R295): the object's checks, the states of
instances, placement, the end of an instance, and the completion record. -/
namespace Sys2Proof.Machine

/-! ## Reading the object (R277, R278) -/

def geti (bs : List Byte) (off n : Nat) : Nat := natOfBytes ((bs.drop off).take n)
/-- A signed field of four bytes. -/
def getInt (bs : List Byte) (off : Nat) : Int := (BitVec.ofNat 32 (geti bs off 4)).toInt

/-- Node descriptor `j` as it stands in the object, but for the checks. `base` is the address of the code image. -/
def nodeOfBytes (base param t0 j : Nat) (d : List Byte) (loads : List TrackLoad) : Node :=
  { entry := base + geti d 0 8
    nx := geti d 8 2
    ny := geti d 10 2
    nz := geti d 12 2
    gang := geti d 14 2
    deadline := geti d 16 4
    budget := geti d 20 4
    sregs := geti d 0x18 1
    vregs := geti d 0x19 1
    acc := geti d 0x1A 1
    banku := geti d 0x1B 1
    tracks := geti d 0x1C 1
    retained := geti d 0x1F 1 % 2 = 1
    place := geti d 0x1F 1 / 2 % 4
    broles := geti d 0x20 2
    loads := loads
    keys := (List.range (geti d 0x1E 1)).map fun i =>
      { base := geti d (0x30 + 16 * i) 4, xstr := getInt d (0x34 + 16 * i), ystr := getInt d (0x38 + 16 * i),
        shared := geti d (0x3C + 16 * i) 1 = 1 }
    preds := (List.range (geti d 0x1D 1)).map fun i =>
      (geti d (0x70 + 2 * i) 2 / 2 ^ 15 = 1, geti d (0x70 + 2 * i) 2 % 256)
    param := param
    t0 := t0
    src := j
    copy := false
    after := none
    enqueued := true }

/-- Reserved fields of a descriptor (R278). -/
def nodeReserved (d : List Byte) : Bool :=
  geti d 0x1F 1 / 8 != 0 || geti d 0x28 8 != 0 ||
    ((List.range 4).any fun i => geti d (0x3D + 16 * i) 3 != 0) ||
    ((List.range 8).any fun i => geti d (0x70 + 2 * i) 2 / 256 % 128 != 0)

def within (lo hi n : Nat) : Bool := lo ≤ n && n ≤ hi

/-- A field out of its range (R278); PLACE 3. -/
def nodeRange (d : List Byte) : Bool :=
  geti d 0 8 % 2 != 0 || geti d 8 2 = 0 || geti d 10 2 = 0 || geti d 12 2 = 0 || !within 1 1536 (geti d 14 2) ||
    !within 8 64 (geti d 0x18 1) || 64 < geti d 0x19 1 || 8 < geti d 0x1A 1 || 8 < geti d 0x1B 1 ||
    16 < geti d 0x1C 1 || 8 < geti d 0x1D 1 || 4 < geti d 0x1E 1 || 16 < geti d 0x22 2 || geti d 0x24 4 % 8 != 0 ||
    geti d 0x1F 1 / 2 % 4 = 3 || (List.range 4).any fun i => 1 < geti d (0x3C + 16 * i) 1

/-- A track-data entry: its reserved bytes, and its ranges (R49). -/
def loadReserved (e : List Byte) : Bool := geti e 1 1 != 0 || geti e 6 2 != 0
def loadRange (d e : List Byte) : Bool :=
  geti d 0x1C 1 ≤ geti e 0 1 || 4095 < geti e 2 2 || !within 1 4096 (geti e 4 2)
def loadOfBytes (kobj : Nat) (e : List Byte) : TrackLoad :=
  { track := geti e 0 1, pos := geti e 2 2, count := geti e 4 2, addr := kobj + geti e 8 8 }

/-- The predecessors of node `j` (R279): indices lower, SAME edges between equal extents, RETAINED. -/
def predsBad (ds : List (List Byte)) (j : Nat) (d : List Byte) : Bool :=
  let ps := (List.range (geti d 0x1D 1)).map fun i => geti d (0x70 + 2 * i) 2
  (ps.any fun p => j ≤ p % 256 || (2 ^ 15 ≤ p && geti (ds.getD (p % 256) []) 8 6 != geti d 8 6)) ||
    (geti d 0x1F 1 % 2 = 1 && !(2 ^ 15 ≤ ps.headD 0))

/-- Clusters and cores of a partition. -/
def State.clustersOf (s : State) (p : Nat) : List Nat :=
  (List.range (clusterCount s.variant)).filter fun c => s.partOfCluster c = some p
def State.coresOf (s : State) (p : Nat) : List Nat := (s.clustersOf p).flatMap clusterCores

/-- Cores of the kind PLACE names. -/
def ofPlace (place core : Nat) : Bool := if place = 0 then onDeck core else if place = 1 then !onDeck core else true

/-- Reason 5: too few cores, or tiles or tracks on memory cores. -/
def State.tooMany (s : State) (p : Nat) (d : List Byte) : Bool :=
  let place := geti d 0x1F 1 / 2 % 4
  ((s.coresOf p).filter (ofPlace place)).length < geti d 14 2 ||
    (place = 1 && (geti d 0x1A 1 != 0 || geti d 0x1C 1 != 0))

/-- A microprogram image (R141, R146): its records and length, or malformed; none where it cannot be read. -/
def State.imageAt (s : State) (p va : Nat) : Option (Except Unit (List (List Nat) × Nat)) := do
  let h := natOfBytes (← s.readGlobal p va 8)
  if h = 0 || 32 < h then return .error ()
  let bs ← s.readGlobal p (va + 8) (14 * h)
  let recs := (List.range h).map fun i => (List.range 7).map fun j => geti bs (14 * i + 2 * j) 2
  if recs.any fun r => !recOk r then return .error ()
  return .ok (recs, (8 + 14 * h + 7) / 8 * 8)

def State.imagesAt (s : State) (p : Nat) : Nat → Nat → Option (Except Unit (List (List (List Nat))))
  | 0, _ => some (.ok [])
  | n + 1, va => do
    match ← s.imageAt p va with
    | .error e => return .error e
    | .ok (recs, len) =>
      match ← State.imagesAt s p n (va + len) with
      | .error e => return .error e
      | .ok t => return .ok (recs :: t)

/-- Slot numbers that `mcw` contents keep from every kernel (R140, R279). -/
def State.slotTaken (s : State) (p n : Nat) : Bool :=
  (s.coresOf p).any fun c => let sl := (s.core c).slot n; sl.valid && sl.holder.isNone
/-- A slot number that is free on every core of a partition. -/
def State.slotFree (s : State) (p n : Nat) : Bool :=
  (s.coresOf p).all fun c => let sl := (s.core c).slot n; !sl.valid && sl.holder.isNone

/-- A range of an object lies in global memory and can be read: no part of it runs past the object. -/
def State.rangeThere (s : State) (p va n : Nat) : Bool :=
  n = 0 || (va + n ≤ 2 ^ 57 && (List.range ((va % 4096 + n + 4095) / 4096)).all fun i =>
    (s.reach p (if i = 0 then va else (va / 4096 + i) * 4096) .load).2.toOption.isSome)

/-- The checks of R279 in the order of their reasons, where every part can be read; a part that cannot be read is taken
as one that runs past the object (reason 2). Answers the nodes and images, or the reason. -/
def State.checkObject (s : State) (p kobj param t0 : Nat) : Except Nat (List Node × List (List (List Nat))) :=
  match s.readGlobal p kobj 64 with
  | none => .error 2
  | some h =>
    let nn := geti h 2 2
    let code := geti h 8 8
    if geti h 0 1 != 3 || geti h 1 1 != 0 || geti h 5 3 != 0 || geti h 0x24 8 != 0 || geti h 0x2C 8 != 0 || geti h 0x34 8 != 0 ||
        geti h 0x3C 4 != 0 then .error 1
    else if !within 1 256 nn then .error 2
    else
      match (List.range nn).mapM fun j => s.readGlobal p (kobj + 0x40 + 128 * j) 128 with
      | none => .error 2
      | some ds =>
        if ds.any nodeReserved then .error 1
        else
          match ds.mapM fun d => (List.range (geti d 0x22 2)).mapM fun i => s.readGlobal p (kobj + geti d 0x24 4 + 16 * i) 16 with
          | none => .error 2
          | some es =>
            let pairs := ds.zip es
            if pairs.any fun e => e.2.any loadReserved then .error 1
            else if code % 2 != 0 || !s.rangeThere p (kobj + code) (geti h 0x10 4) || 4096 < geti h 0x14 4 ||
                ds.any (fun d => geti h 0x10 4 ≤ geti d 0 8) ||
                (pairs.any fun e => e.2.any fun x => !s.rangeThere p (kobj + geti x 8 8) (128 * geti x 4 2)) then .error 2
            else if ds.any nodeRange || pairs.any fun e => e.2.any (loadRange e.1) then .error 3
            else if (ds.zipIdx).any fun e => predsBad ds e.2 e.1 then .error 4
            else if ds.any (s.tooMany p) then .error 5
            else match s.imagesAt p (geti h 4 1) (kobj + geti h 0x18 8) with
              | none => .error 2
              | some (.error ()) => .error 6
              | some (.ok images) =>
                if ((List.range 64).filter fun n => !s.slotTaken p n).length < images.length then .error 7
                else .ok ((pairs.zipIdx).map fun e =>
                  nodeOfBytes (kobj + code) param t0 e.2 e.1.1 (e.1.2.map (loadOfBytes kobj)), images)

/-! ## Instances (R280-R283) -/

/-- The coordinates of an extent, x fastest. -/
def coords (nx ny nz : Nat) : List (Nat × Nat × Nat) :=
  (List.range nz).flatMap fun z => (List.range ny).flatMap fun y => (List.range nx).map fun x => (x, y, z)

/-- The absolute deadline (R281). -/
def Node.due (n : Node) : Word := if n.deadline = 2 ^ 32 - 1 then BitVec.allOnes 64 else BitVec.ofNat 64 (n.t0 + n.deadline)

def Node.instAt (n : Node) (k j : Nat) (c : Nat × Nat × Nat) : Inst :=
  { kernel := k, node := j, x := c.1, y := c.2.1, z := c.2.2, st := if n.preds.isEmpty && n.after.isNone then 1 else 0,
    edge := false, signalled := [], ended := [], deadline := n.due, cores := [], cids := [], begun := false, held := [],
    reserved := false, banks := [], tracks := [], loaded := false, gst := 0, phase := 0, arrivals := [], released := [],
    result := 0, mixed := 0, holdmax := 0, ptab := [] }

/-- The instances of a node are made: READY where they wait for nothing (R283). -/
def State.makeInsts (s : State) (k j : Nat) (n : Node) : State :=
  (coords n.nx n.ny n.nz).foldl (fun s c => { s with insts := s.insts.set s.nextInst (n.instAt k j c), nextInst := s.nextInst + 1 }) s

/-- The kernel enters RUNNING (R293). -/
def State.runKernel (s : State) (k : Nat) : State :=
  match s.kernels.get? k with
  | none => s
  | some u => u.nodes.foldl (fun s e => s.makeInsts k e.1 e.2) (s.modKernel k fun u => { u with st := 2 })

/-- Linear coordinate (R65, R280). -/
def State.linear (s : State) (i : Inst) : Nat :=
  match s.nodeOf i with
  | some n => i.x + n.nx * (i.y + n.ny * i.z)
  | none => 0

/-- `T_edge` is timing; the edges an instance waits for are satisfied (R282). -/
def State.edgesDone (s : State) (i : Inst) : Bool :=
  match s.nodeOf i with
  | none => false
  | some n =>
    (n.preds.all fun p => s.insts.all fun e => !(e.2.kernel = i.kernel && e.2.node = p.2 &&
      (!p.1 || (e.2.x = i.x && e.2.y = i.y && e.2.z = i.z))) || e.2.edge) &&
      match n.after with
      | none => true
      | some j => (s.insts.get? j).all (·.edge)

/-- EDGE_RELEASE: a successor becomes READY once its last predecessor has completed (R283, R295). -/
def execEdgeRelease (n : Nat) (s : State) : Host.Outcome State Fault Refusal :=
  match s.insts.get? n with
  | none => .next s
  | some i => .next (if i.st = 0 && s.edgesDone i then s.modInst n fun i => { i with st := 1 } else s)

/-- SPAWN_ENQUEUE: the instances of a copy reach the ready pool (R290). -/
def execSpawnEnqueue (k j : Nat) (s : State) : Host.Outcome State Fault Refusal :=
  match (s.kernels.get? k).bind fun u => u.nodes.get? j with
  | none => .next s
  | some n =>
    if !n.copy || n.enqueued then .next s
    else .next ((s.modKernel k fun u => { u with nodes := u.nodes.modify j fun n => { n with enqueued := true } }).makeInsts k j n)

/-! ## Completion (R293, R294) -/

/-- Bits of a node's instances that completed, by linear coordinate. -/
def State.nodeBits (s : State) (k j : Nat) : Nat :=
  (s.insts.filter fun e => e.2.kernel = k && e.2.node = j && e.2.st = 4).foldl (fun b e => b ||| 2 ^ s.linear e.2) 0

/-- The bitmap of a FAULTED kernel. -/
def State.bitmap (s : State) (k : Nat) (u : Kernel) : List Byte :=
  (List.range u.nnodes).flatMap fun j =>
    match u.nodes.get? j with
    | some n => bytesOfNat (8 * ((n.nx * n.ny * n.nz + 63) / 64)) (s.nodeBits k j)
    | none => []

/-- The 64 bytes of the record. -/
def Kernel.record (u : Kernel) (seq now status bmap : Nat) : List Byte :=
  bytesOfNat 1 status ++ bytesOfNat 1 ((if u.late then 1 else 0) + (if u.spawnfull then 2 else 0)) ++ bytesOfNat 1 u.reason ++
    bytesOfNat 5 0 ++ bytesOfNat 8 seq ++ bytesOfNat 8 u.t0 ++ bytesOfNat 8 now ++ bytesOfNat 4 u.retired ++
    bytesOfNat 4 u.killed ++ bytesOfNat 4 u.never ++ bytesOfNat 4 u.spawned ++ bytesOfNat 4 bmap ++ bytesOfNat 12 0

/-- The record is written, with its bitmap, where COMPL is not 0. -/
def State.writeRecord (s : State) (k : Nat) (u : Kernel) (status : Nat) : State :=
  if u.compl = 0 then s
  else
    let bm := if status = 1 then s.bitmap k u else []
    (s.putHost u.part (u.compl + 64) bm).putHost u.part u.compl (u.record k s.time status bm.length)

/-- The command processor is done with the LAUNCH of a kernel that ends so: complete, or an error of its queue. -/
def State.launchDone (s : State) (u : Kernel) (status : Nat) : State :=
  match status with
  | 0 => s.modQueue u.queue fun q => { q with cmds := q.cmds.modify u.cmd fun c => { c with done := true } }
  | 1 => s.queueError u.queue u.cmd 6
  | _ => s.queueError u.queue u.cmd 7

/-- A kernel is rejected (R279). -/
def State.refuse (s : State) (k reason : Nat) : State :=
  match s.kernels.get? k with
  | none => s
  | some u =>
    let u := { u with st := 6, reason := reason }
    ((s.modKernel k fun _ => u).writeRecord k u 2).launchDone u 2

/-- The loader (R140, R279): a kernel's images go to the lowest slot numbers free on every core of its partition. -/
def State.loadSlots (s : State) (k : Nat) (u : Kernel) (ns : List Nat) : State :=
  (s.coresOf u.part).foldl (fun s c => s.modCore c fun x =>
    { x with store := (u.micro.zip ns).foldl (fun st e =>
        st.set e.2 { valid := true, recs := e.1, holder := some k, waiters := (x.slot e.2).waiters }) x.store }) s

/-- The halfwords of an `mcall` that calls slot `n` (R142), where they have room for its number. -/
def mcallTo (n : Nat) : List Nat → List Nat
  | [] => []
  | [h] => [if n < 16 then h - h / 2 % 16 * 2 + n * 2 else h]
  | [x, h] => [x - x % 4 + n / 16 % 4, h - h / 2 % 16 * 2 + n % 16 * 2]
  | x :: t => x :: mcallTo n t

/-- The halfwords of the instruction at a global address, up to its base halfword. -/
def State.chainAt (s : State) (p va : Nat) : Nat → List Nat
  | 0 => []
  | n + 1 =>
    match s.readGlobal p va 2 with
    | none => []
    | some bs => if isPrefix (natOfBytes bs) then natOfBytes bs :: State.chainAt s p (va + 2) n else [natOfBytes bs]

/-- Bytes that the loader puts at global addresses. -/
def State.putLoader (s : State) (p va : Nat) : List Byte → State
  | [] => s
  | b :: t =>
    let r := s.reach p va .load
    State.putLoader (match r.2 with | .ok key => r.1.putShared key [b] | .error _ => r.1) p (va + 1) t

/-- The relocations are resolved to the slots of a kernel's images (R140). -/
def State.relocate (s : State) (p : Nat) (ns : List Nat) (l : List (Nat × Nat)) : State :=
  l.foldl (fun s e => match ns[e.2]? with
    | some n => s.putLoader p e.1 ((mcallTo n (s.chainAt p e.1 5)).flatMap (bytesOfNat 2))
    | none => s) s

/-- A checked kernel finds its slots and goes on, waits for them, or can never have them (R279, R293). -/
def State.trySlots (s : State) (k : Nat) : State :=
  match s.kernels.get? k with
  | none => s
  | some u =>
    if u.st != 0 then s
    else if ((List.range 64).filter fun n => !s.slotTaken u.part n).length < u.micro.length then s.refuse k 7
    else
      let free := (List.range 64).filter fun n => s.slotFree u.part n
      if free.length < u.micro.length then s
      else
        let s1 := (s.loadSlots k u free).relocate u.part free u.relocs
        if s.time < u.start then s1.modKernel k fun u => { u with st := 1 } else s1.runKernel k

/-- The kernels of a partition that wait for slots look again (R279). -/
def State.lookAgain (s : State) (p : Nat) : State :=
  (s.kernels.filter fun e => e.2.part = p && e.2.st = 0).foldl (fun s e => s.trySlots e.1) s

/-- Banks and tracks kept for successors that never came are free again (R337). -/
def State.dropKept (s : State) (kseq : Nat) : State :=
  { s with cores := s.cores.map fun e =>
      let gone := (e.2.kept.filter fun k => k.kseq = kseq).map (·.bank)
      let lost := (e.2.keptTracks.filter fun k => k.kseq = kseq).map (·.bank)
      (e.1, { e.2 with
        kept := e.2.kept.filter fun k => k.kseq != kseq
        keptTracks := e.2.keptTracks.filter fun k => k.kseq != kseq
        tracks := e.2.tracks.map fun t => (t.1, if lost.contains t.1 then { t.2 with inst := none } else t.2)
        rings := e.2.rings.map fun r =>
          (r.1, if r.2.defd && gone.contains (r.2.banks.getD (r.2.base / 2 ^ 14) 32) then { r.2 with defd := false, engine := 0 } else r.2) }) }

/-- The slots a kernel still holds are free again (R140): their valid bits are cleared, their records stay for a context that is
inside one. -/
def State.freeSlots (s : State) (k : Nat) : State :=
  { s with cores := s.cores.map fun e => (e.1, { e.2 with store := e.2.store.map fun x =>
      (x.1, if x.2.holder = some k then { x.2 with valid := false, holder := none } else x.2) }) }

/-- A kernel ends DONE (0) or FAULTED (1): its record, its slots, and the kernels that wait for slots (R279, R293). -/
def State.finishKernel (s : State) (k : Nat) (u : Kernel) (status : Nat) : State :=
  let s1 := ((s.writeRecord k u status).modKernel k fun u => { u with st := 4 + status }).launchDone u status
  let s2 := (s1.dropKept k).freeSlots k
  let s3 := { s2 with insts := s2.insts.filter fun e => e.2.kernel != k }
  s3.lookAgain u.part

/-- Live copies of a kernel (R290). -/
def State.copiesOf (s : State) (k : Nat) (u : Kernel) : Nat :=
  (u.nodes.filter fun e => e.2.copy && (!e.2.enqueued || s.insts.any fun i => i.2.kernel = k && i.2.node = e.1 && i.2.st < 4)).length

/-- A kernel whose last instance has ended completes (R293). -/
def State.settleKernel (s : State) (k : Nat) : State :=
  match s.kernels.get? k with
  | none => s
  | some u =>
    if u.st = 2 && s.copiesOf k u = 0 && (s.insts.all fun e => e.2.kernel != k || e.2.st = 4) then s.finishKernel k u 0
    else if u.st = 3 && (s.insts.all fun e => e.2.kernel != k || 4 ≤ e.2.st) then s.finishKernel k u 1
    else s

/-! ## The end of a context and of an instance (R299, R336, R372) -/

/-- A context is gone from its core: bindings, cached written words, ports, streams, and what engines still hold. -/
def State.dropCtx (s : State) (cid : Nat) : State :=
  match s.ctx? cid with
  | none => s
  | some c =>
    let core := c.id.core
    let s1 := ((s.unbindAll cid).leavePorts core cid).keepAge c
    let s2 := ((s1.core core).streams.filter fun x => x.cid = cid).foldl (fun s x => s.endStream core x) s1
    let s3 := if (s2.ctx? (drainCid core)).any (fun d => d.drain.any fun r => r.owner = cid) then s2.dropDrainRun core else s2
    let s4 := s3.modCore core fun k =>
      { k with copies := k.copies.filter fun o => o.cid != cid
               mops := k.mops.filter fun o => o.cid != cid
               firing := k.firing.filter fun f => f.cid != cid
               drains := k.drains.filter fun d => d.cid != cid
               rings := k.rings.map fun r => (r.1, if r.2.defd && r.2.owner = cid &&
                   !(k.kept.any fun x => x.bank = r.2.banks.getD (r.2.base / 2 ^ 14) 32) then { r.2 with defd := false, engine := 0 } else r.2)
               store := k.store.map fun x => (x.1, { x.2 with waiters := x.2.waiters.erase cid }) }
    let s5 := (s4.checkout cid).cleanAll true
    { (s5.modPart c.id.part fun p => { p with moved := p.moved.filter fun m => m.1 != cid }) with
      cx := { s5.cx with st := { s5.cx.st with live := false } }
      atoms := s5.atoms.filter fun a => a.2.cid != cid
      late := s5.late.erase cid
      opened := s5.opened.erase cid }

/-- Tracks assigned to an instance are free, but for those kept for a successor. -/
def State.freeTracks (s : State) (n : Nat) : State :=
  { s with cores := s.cores.map fun e => (e.1, { e.2 with tracks := e.2.tracks.map fun t =>
      (t.1, match t.2.inst with
        | some (m, _) => if m = n && !(e.2.keptTracks.any fun k => k.bank = t.1) then { t.2 with inst := none } else t.2
        | none => t.2) }) }

/-- An instance that has not completed goes: its contexts, keys and reservation, and its place in the queues. -/
def State.dropInst (s : State) (n : Nat) (i : Inst) : State :=
  let s1 := i.cids.foldl (fun s cid => s.dropCtx cid) s
  let s2 := ((s1.releaseKeys n).unreserve n).freeTracks n
  { s2.modInst n (fun i => { i with st := 5, gst := 0 }) with cdq := s2.cdq.map fun e => (e.1, e.2.erase n) }

/-- An instance is READY again. In FAULTING it is dropped there (R293). -/
def State.readyAgain (s : State) (n : Nat) (due : Word) : State :=
  match s.insts.get? n with
  | none => s
  | some i =>
    if (s.kernels.get? i.kernel).any fun u => u.st = 3 then
      ((s.dropInst n i).modKernel i.kernel fun u => { u with killed := u.killed + 1 }).settleKernel i.kernel
    else s.modInst n fun i => { i with st := 1, deadline := due }

/-- The deadline of a group's later slices: the one that a member's supervisor has written (R281). -/
def State.newDeadline (s : State) (i : Inst) : Word :=
  ((i.cids.filterMap s.ctx?).map fun c => c.c.deadline).find? (· != i.deadline) |>.getD i.deadline

/-! ## The end of a phase (R309, R312, R316) -/

/-- The last column has been released: the next phase is open; a group whose members all arrived by `yield` is ready as
one continuation (R312). -/
def State.endRelease (s : State) (n : Nat) : State :=
  match s.insts.get? n with
  | none => s
  | some i =>
    let again := i.mixed = 0 && i.cids.any fun cid => (s.ctx? cid).any fun c => c.st.inSync = 3 && c.st.out
    let s1 := s.modInst n fun i => { i with gst := 0, phase := i.phase + 1, released := [] }.gathered (s.gangOf i)
    if again then s1.readyAgain n (s.newDeadline i) else s1

/-- COLUMN_RELEASE: the members of a deck column are released, columns of smaller offset first (R316). -/
def execColumnRelease (n col : Nat) (s : State) : Host.Outcome State Fault Refusal :=
  match s.insts.get? n with
  | none => .next s
  | some i =>
    let cols := s.columnsOf i
    let left := cols.filter fun e => !i.released.contains e.2
    if i.gst = 4 && s.issues (s.instPart i) && left.any (fun e => e.2 = col) &&
        left.all (fun e => i.ptab.getD col 0 ≤ i.ptab.getD e.2 0) then
      let s1 := (left.filter fun e => e.2 = col).foldl (fun s e => s.releaseMember i e.1) s
      let s2 := s1.modInst n fun i => { i with released := col :: i.released }
      .next (if left.all fun e => e.2 = col then s2.endRelease n else s2)
    else .next s

/-- The last member of an instance has ended: keys, banks and tracks are free, and the instance is COMPLETE. -/
def State.finishInst (s : State) (n : Nat) (i : Inst) : State :=
  let s1 := ((s.releaseKeys n).freeTracks n).modInst n fun i => { i with st := 4, edge := true, gst := 0 }
  (s1.modKernel i.kernel fun u => { u with retired := u.retired + 1 }).settleKernel i.kernel

/-- A member has ended while its phase is being released: the release is over if no column is left (R312, R313). -/
def State.afterEnd (s : State) (n : Nat) : State :=
  match s.insts.get? n with
  | none => s
  | some i => if i.gst = 4 && (s.columnsOf i).all (fun e => i.released.contains e.2) then s.endRelease n else s

/-- A member ends (R336): the instance goes on without it, or is complete. -/
def State.endMember (s : State) (cid : Nat) : State :=
  match s.ctx? cid with
  | none => s
  | some c =>
    let n := c.id.inst
    let s1 := s.dropCtx cid
    match s1.insts.get? n with
    | none => s1
    | some i =>
      let g := s1.gangOf i
      let r := i.localRank cid
      let ended := r :: i.ended
      let all := (List.range g).all fun q => ended.contains q
      let s2 := s1.modInst n fun i =>
        { i with ended := ended, arrivals := i.arrivals.filter fun a => a.1 != r,
                 edge := i.edge || (List.range g).all fun q => ended.contains q || i.signalled.contains q }.gathered g
      if all then s2.finishInst n i else s2.afterEnd n

/-- A kernel enters FAULTING (R293): what has not begun is dropped, what has begun and waits is killed, copies that have
not reached the pool are dropped. -/
def State.faultKernel (s : State) (k : Nat) : State :=
  match s.kernels.get? k with
  | none => s
  | some u =>
    if u.st != 2 then s
    else
      let s1 := s.modKernel k fun u => { u with st := 3 }
      let s2 := (s.insts.filter fun e => e.2.kernel = k && e.2.st ≤ 2).foldl (fun s e =>
        (s.dropInst e.1 e.2).modKernel k fun u =>
          if e.2.begun then { u with killed := u.killed + 1 } else { u with never := u.never + 1 }) s1
      let lost := u.nodes.filter fun e => e.2.copy && !e.2.enqueued
      s2.modKernel k fun u =>
        { u with nodes := u.nodes.filter fun e => !(e.2.copy && !e.2.enqueued)
                 never := lost.foldl (fun n e => n + e.2.nx * e.2.ny * e.2.nz) u.never }

/-- An instance is killed (R312): every member at once, counted once, and its kernel enters FAULTING. -/
def State.killInst (s : State) (n : Nat) : State :=
  match s.insts.get? n with
  | none => s
  | some i =>
    if 4 ≤ i.st then s
    else
      let s1 := (s.dropInst n i).modKernel i.kernel fun u =>
        if i.begun || i.st = 3 then { u with killed := u.killed + 1 } else { u with never := u.never + 1 }
      (s1.faultKernel i.kernel).settleKernel i.kernel

/-! ## The ready pool's order (R285) -/

/-- The order of two instances. -/
def State.before (s : State) (a b : Inst) : Bool :=
  let key (i : Inst) := [i.deadline.toNat, i.kernel, s.linear i, i.node]
  decide (key a < key b)

def State.insertInst (s : State) (x : Nat × Inst) : List (Nat × Inst) → List (Nat × Inst)
  | [] => [x]
  | y :: t => if s.before x.2 y.2 then x :: y :: t else y :: State.insertInst s x t

/-- The kernel of an instance is not in FAULTING (R293). -/
def State.goesOnOf (s : State) (i : Inst) : Bool := (s.kernels.get? i.kernel).all fun u => u.st != 3

/-- The instances of a partition in READY, in order. -/
def State.pool (s : State) (p : Nat) : List (Nat × Inst) :=
  (s.insts.filter fun e => e.2.st = 1 && s.instPart e.2 = p && s.goesOnOf e.2).foldr s.insertInst []

/-! ## Room on a core (R284) -/

/-- What instances of the core's partition hold on it: each with the rank it has there. -/
def State.onCore (s : State) (core : Nat) : List (Inst × Nat) :=
  s.insts.vals.flatMap fun i =>
    if (i.st = 2 || i.st = 3 || (i.st = 1 && i.begun)) && s.partOfCluster (clusterOf core) = some (s.instPart i) then
      (i.cores.zipIdx.filter fun e => e.1 = core).map fun e => (i, e.2)
    else []

/-- Sum of a resource over the members that hold or have reserved a slot of the core; `but` is left out. -/
def State.usedOn (s : State) (core : Nat) (but : Option Nat) (f : Node → Nat) : Nat :=
  (s.onCore core).foldl (fun t e =>
    if e.1.st = 1 || e.1.ended.contains e.2 || (but.isSome && e.1.cids[e.2]? = but) then t
    else t + ((s.nodeOf e.1).map f).getD 0) 0

/-- Physical banks that members hold, and those kept. -/
def State.banksOn (s : State) (core : Nat) : List Nat :=
  (((s.onCore core).flatMap fun e => e.1.banks.getD e.2 []) ++ (s.core core).kept.map (·.bank)).eraseDups

/-- Private tracks that can be assigned (R372). -/
def State.freeTracksOn (s : State) (core p : Nat) : List Nat :=
  ((s.core core).tracks.filter fun t => t.2.v && !t.2.common && !t.2.suspect && !t.2.ridx && t.2.part = p &&
    t.2.inst.isNone && !((s.core core).keptTracks.any fun k => k.bank = t.1)).map (·.1)
/-- Heads of a declaration that no common track covers. -/
def State.ownHeads (s : State) (core p tracks : Nat) : Nat :=
  ((List.range tracks).filter fun h => (s.commonTrack core p h).isNone).length

/-- What `retire` keeps on a core for a member of an instance (R337). -/
def Kept.isFor (k : Kept) (i : Inst) (r : Nat) : Bool :=
  k.kseq = i.kernel && k.node = i.node && k.x = i.x && k.y = i.y && k.z = i.z && k.rank = r
def State.keptOn (s : State) (core : Nat) (i : Inst) (r : Nat) : List Kept := (s.core core).kept.filter fun k => k.isFor i r
/-- The core where the predecessor's member retired. -/
def State.keptCore (s : State) (i : Inst) (r : Nat) : Option Nat :=
  (s.cores.find? fun e => (e.2.kept ++ e.2.keptTracks).any fun k => k.isFor i r).map (·.1)
/-- The core where the same-coordinate instance of the first predecessor ran. -/
def State.predCore (s : State) (i : Inst) (r : Nat) : Option Nat :=
  match (s.nodeOf i).bind fun n => n.preds.head? with
  | none => none
  | some p => (s.insts.vals.find? fun e => e.kernel = i.kernel && e.node = p.2 && e.x = i.x && e.y = i.y && e.z = i.z).bind
      fun e => e.cores[r]?

/-- The only core a member may go to, where there is one (R283, R278, R329). -/
def State.fixedCore (s : State) (i : Inst) (n : Node) (r : Nat) : Option Nat :=
  if i.begun then
    ((i.cids[r]?).bind s.ctx?).bind fun c =>
      if !c.decl.tracks.isEmpty || c.micro.isSome || !c.binds.isEmpty then some c.id.core else none
  else if n.retained then (match s.keptCore i r with | some c => some c | none => s.predCore i r)
  else none

/-- Rings that a member's context has defined in its banks. -/
def State.ringsOwned (s : State) (c : Ctx) : List Nat :=
  ((s.core c.id.core).rings.filter fun r => r.2.defd && r.2.owner = c.cid).map (·.1)

/-- A core has room for one member of an instance; `but` is a victim whose slot counts as free (R328). -/
def State.fits (s : State) (i : Inst) (n : Node) (p r : Nat) (but : Option Nat) (core : Nat) : Bool :=
  let own := (i.cids[r]?).bind s.ctx?
  let moved := own.any fun c => c.id.core != core
  let fixed := s.fixedCore i n r
  let u := s.cluster (clusterOf core)
  let transform := (match s.kernels.get? i.kernel with | some k => k.tnodes.testBit n.src | none => false)
  (fixed = some core || fixed.isNone) && (s.blocked (s.serviceCluster p / 96) (coreStack core)).isNone &&
    coreExists s.variant core && s.partOfCluster (clusterOf core) = some p &&
    (!onDeck core || u.gate = 0 || (u.gate = 1 && i.begun && fixed = some core)) && ofPlace n.place core &&
    (s.part p).role.getD core 0 = (if transform then 1 else 0) &&
    s.usedOn core but (fun _ => 1) < 4 && s.usedOn core but (·.sregs) + n.sregs ≤ 192 &&
    s.usedOn core but (·.vregs) + n.vregs ≤ 160 && s.usedOn core but (·.acc) + n.acc ≤ (if onDeck core then 8 else 0) &&
    (if i.begun && !moved || n.retained && !(s.keptOn core i r).isEmpty then true
     else (s.banksOn core).length + 4 * n.banku ≤ 32) &&
    (if i.begun || (n.retained && (s.core core).keptTracks.any fun k => k.isFor i r) then true
     else onDeck core && s.ownHeads core p n.tracks ≤ (s.freeTracksOn core p).length || n.tracks = 0) &&
    (!moved || own.all fun c => (s.ringsOwned c).all fun q => !((s.core core).ring q).defd)

/-! ## Placement (R286) -/

/-- Instances queued and running in a cluster. -/
def State.loadOf (s : State) (cl : Nat) : Nat :=
  (s.insts.vals.filter fun i => (i.st = 2 || i.st = 3) && s.partOfCluster cl = some (s.instPart i) &&
    i.cores.any fun c => clusterOf c = cl).length

/-- The dispatch queue of a cluster: the instances of its partition, in order (R287). -/
def State.queueOf (s : State) (cl : Nat) : List Nat :=
  (s.cdq.getD cl []).filter fun m => (s.insts.get? m).any fun i => s.partOfCluster cl = some (s.instPart i)

/-- The core that comes first: the cluster that holds the fewest, the lower cluster, the lower core. -/
def State.bestCore (s : State) : List Nat → Option Nat
  | [] => none
  | c :: t =>
    match State.bestCore s t with
    | none => some c
    | some d =>
      let key (x : Nat) := [s.loadOf (clusterOf x), clusterOf x, x]
      if key d < key c then some d else some c

/-- `n` members of a list, one after another, in a choice the spec leaves open. -/
def pickSome : Nat → Nat → List Nat → List Nat
  | 0, _, _ => []
  | n + 1, f, l =>
    match l with
    | [] => []
    | _ => let x := l.getD (Config.freePick f % l.length) 0
           x :: pickSome n (f + 1) (l.erase x)

def insertNat (x : Nat) : List Nat → List Nat
  | [] => [x]
  | y :: t => if x ≤ y then x :: y :: t else y :: insertNat x t
/-- In ascending order. -/
def sortNat (l : List Nat) : List Nat := l.foldr insertNat []

/-- The members of an instance that have not ended. -/
def State.ranksOf (s : State) (i : Inst) : List Nat := (List.range (s.gangOf i)).filter fun r => !i.ended.contains r

/-- Members on cores of a rising list, each on the first that takes it: where this fails no rising placement exists. -/
def ascend (ok : Nat → Nat → Bool) : List Nat → List Nat → Option (List Nat)
  | [], _ => some []
  | _, [] => none
  | r :: rs, c :: cs => if ok r c then (ascend ok rs cs).map (c :: ·) else ascend ok (r :: rs) cs

/-- A rising placement left to choice: a core is passed over only where the cores after it still take every member. -/
def ascendFree (ok : Nat → Nat → Bool) (f : Nat) : List Nat → List Nat → Option (List Nat)
  | [], _ => some []
  | _, [] => none
  | r :: rs, c :: cs =>
    if ok r c && (Config.freePick (f + c) % 2 = 0 || (ascend ok (r :: rs) cs).isNone) then (ascendFree ok f rs cs).map (c :: ·)
    else ascendFree ok f (r :: rs) cs

/-- The cores an instance is placed on, by member that has not ended (R284, R286, R307): a solo instance where the order
says; a group with ranks in ascending core identifier, one of up to four on the compute cores of one cluster where one has
room. Which cores or which cluster else is left to choice. -/
def State.placement (s : State) (i : Inst) (p : Nat) (but : Option Nat) (cores : List Nat) : Option (List Nat) :=
  match s.nodeOf i with
  | none => none
  | some n =>
    let groups := s.insts.vals.filter fun e =>
      s.instPart e = p && (e.st = 2 || e.st = 3 || (e.st = 1 && e.begun)) && 1 < s.gangOf e
    let ok (r c : Nat) := s.fits i n p r but c
    let ranks := s.ranksOf i
    if 1 < n.gang && !i.begun && 1024 ≤ groups.length then none
    else if n.gang = 1 then (s.bestCore (cores.filter (ok 0))).map fun c => [c]
    else
      let sorted := sortNat cores
      let deckOf (cl : Nat) := sorted.filter fun c => onDeck c && clusterOf c = cl
      let near := if ranks.length ≤ 4 then
          (sorted.map clusterOf).eraseDups.filter fun cl => (ascend ok ranks (deckOf cl)).isSome
        else []
      match pickSome 1 s.free near with
      | cl :: _ => ascendFree ok (s.free + 1) ranks (deckOf cl)
      | [] => ascendFree ok (s.free + 1) ranks sorted

/-- Room in the dispatch queue of every cluster of a placement (R287). -/
def State.queueRoom (s : State) (cores : List Nat) : Bool :=
  cores.all fun c => (s.queueOf (clusterOf c)).length < 8

/-- Keys do not hold the instance back (R284, R300). -/
def State.keysOk (s : State) (n : Nat) (i : Inst) : Bool := i.begun || s.keysFree n i

/-! ## Reserving (R283, R287, R330) -/

/-- Banks of a context go with it to another core (R330): contents, which of their words are uncorrectable, roles, and the
rings defined in them. -/
def State.moveBanks (s : State) (cid core : Nat) (banks : List Nat) : State :=
  match s.ctx? cid with
  | none => s
  | some c =>
    let old := c.id.core
    let moves := c.decl.banks.zip banks
    let mem := moves.foldl (fun m e => m.putBytes (bankKey core e.2 0) (s.mem.bytes (bankKey old e.1 0) 16384)) s.mem
    let inBank (core b w : Nat) : Bool := bankKey core b 0 ≤ w * 8 && w * 8 < bankKey core b 0 + 16384
    let ecc := moves.foldl (fun l e => (l.filter fun w => !inBank core e.2 w) ++
      (s.ecc.filter (inBank old e.1)).map fun w => bankKey core e.2 0 / 8 + (w - bankKey old e.1 0 / 8)) s.ecc
    let rings : Tab Ring := (s.core old).rings.filter fun r => r.2.defd && r.2.owner = cid
    let s1 := ({ s with mem := mem, ecc := ecc }.modCore core fun k =>
      { k with rings := rings.foldl (fun (t : Tab Ring) (r : Nat × Ring) => t.set r.1 { r.2 with banks := banks }) k.rings }).modCore old fun k =>
      { k with rings := rings.foldl (fun (t : Tab Ring) (r : Nat × Ring) => t.set r.1 Ring.undef) k.rings }
    s1.modCtx cid fun c => { c with id := { c.id with core := core }, decl := { c.decl with banks := banks } }

/-- The tracks of a new member on its core: common ones, and private ones left to choice (R371). -/
def State.headsOn (s : State) (core p : Nat) : List Nat → List Nat → List Nat
  | [], _ => []
  | h :: t, priv =>
    match s.commonTrack core p h with
    | some x => x :: State.headsOn s core p t priv
    | none => priv.headD 0 :: State.headsOn s core p t (priv.drop 1)

/-- Reserve banks and tracks of one member. -/
def State.reserveRank (s : State) (m p : Nat) (n : Node) (r core : Nat) : State :=
  match s.insts.get? m with
  | none => s
  | some i =>
    if i.begun then
      match (i.cids[r]?).bind s.ctx? with
      | none => s
      | some c =>
        if c.id.core = core then s
        else
          let banks := pickSome c.decl.banks.length s.free ((List.range 32).filter fun b => !(s.banksOn core).contains b)
          { (s.moveBanks c.cid core banks) with free := s.free + 32 }.modInst m fun i =>
            { i with cores := i.cores.set r core, banks := i.banks.set r banks }
    else
      let kept := s.keptOn core i r
      let keptTr := (s.core core).keptTracks.filter fun k => k.isFor i r
      let banks := if n.retained && !kept.isEmpty then kept.map (·.bank)
        else pickSome (4 * n.banku) s.free ((List.range 32).filter fun b => !(s.banksOn core).contains b)
      let tracks := if n.retained && !keptTr.isEmpty then keptTr.map (·.bank)
        else s.headsOn core p (List.range n.tracks) (pickSome n.tracks (s.free + 32) (s.freeTracksOn core p))
      let s1 := s.modCore core fun k =>
        { k with tracks := k.tracks.map fun t => (t.1, if tracks.contains t.1 && !t.2.common then { t.2 with inst := some (m, r) } else t.2) }
      { s1 with free := s1.free + 64 }.modInst m fun i =>
        { i with cores := i.cores ++ [core], banks := i.banks ++ [banks], tracks := i.tracks ++ [tracks] }

def insertQueue (s : State) (n : Nat) (i : Inst) : List Nat → List Nat
  | [] => [n]
  | m :: t =>
    match s.insts.get? m with
    | some j => if s.before i j then n :: m :: t else m :: insertQueue s n i t
    | none => m :: insertQueue s n i t

/-- An instance takes its place: resources on its cores, and the dispatch queues of their clusters, in order. -/
def State.enqueue (s : State) (m : Nat) (i : Inst) (p : Nat) (cores : List Nat) : State :=
  match s.nodeOf i with
  | none => s
  | some n =>
    let s0 := if i.begun then s else s.modInst m fun i => { i with cores := [], banks := [], tracks := [] }
    let s1 := ((s.ranksOf i).zip cores).foldl (fun s e => s.reserveRank m p n e.1 e.2) s0
    let cls := (cores.map clusterOf).eraseDups
    { s1.modInst m (fun i => { i with st := 2 }) with
      cdq := cls.foldl (fun q cl => q.set cl (insertQueue s1 m i (q.getD cl []))) s1.cdq }

/-- An instance is picked (R283): keys in one step, then its place. The timer of keys stops where it is the first of the order
(R301). -/
def State.picked (s : State) (m : Nat) (i : Inst) (p : Nat) (cores : List Nat) : State :=
  let s1 := if i.begun then s else s.acquireKeys m i
  let first := ((s.pool p).head?).any fun e => e.1 = m
  (s1.enqueue m i p cores).modPart p fun p =>
    { p with placing := p.placing.erase m, keyTimer := if first then none else p.keyTimer, idle := 0 }

/-- The scan of a pick: the first eligible instance, its cores, and how many were passed over for their keys. -/
def State.scan (s : State) (p : Nat) : List (Nat × Inst) → Nat → Option (Nat × Inst × List Nat × Nat)
  | [], _ => none
  | (m, i) :: t, passed =>
    if !s.keysOk m i then State.scan s p t (passed + 1)
    else match s.placement i p none (s.coresOf p) with
      | some cores => if s.queueRoom cores then some (m, i, cores, passed) else State.scan s p t passed
      | none => State.scan s p t passed

/-- The pool up to the first of some of its instances, or all of it. -/
def upTo (ms : List Nat) (l : List (Nat × Inst)) : List (Nat × Inst) :=
  match l.findIdx? fun e => ms.contains e.1 with
  | some k => l.take (k + 1)
  | none => l

/-- The pool as the dispatcher may serve it: none later than an instance that AGEPLACE serves first (R285). -/
def State.served (s : State) (p : Nat) : List (Nat × Inst) := upTo (s.part p).placing (s.pool p)

/-- A pick: the dispatcher of a partition takes the first eligible instance (R283-R287); one that passed over an instance for
its keys is counted (R302). -/
def State.pick (s : State) (p : Nat) : State :=
  if !s.issues p then s
  else match s.scan p (s.served p) 0 with
    | none => s
    | some (m, i, cores, passed) =>
      (s.picked m i p cores).modPart p fun p => { p with kskip := (p.kskip + min passed 1) % 2 ^ 64 }

/-- DISPATCH_PICK. -/
def execDispatchPick (p : Nat) (s : State) : Host.Outcome State Fault Refusal := .next (s.pick p)

/-- The dispatchers that the key table of a stack serves and that have made no pick in the 3 cycles before (R432). -/
def State.idleAt (s : State) (stack : Nat) : List Nat :=
  (s.parts.filter fun e => 4 ≤ e.2.idle && s.serviceCluster e.1 / 96 = stack).map (·.1)

/-- KEY_RELEASE_ARRIVAL: a released slot lets go of its holder, and idle dispatchers pick in the same cycle (R299, R306,
R432). -/
def execKeyReleaseArrival (n : Nat) (s : State) : Host.Outcome State Fault Refusal :=
  match s.krels.get? n with
  | none => .next s
  | some (m, sl) =>
    let s1 := { s.modKeySlot sl (fun k => k.leave m) with krels := s.krels.erase n }
    .next ((s1.idleAt (sl / 65536)).foldl State.pick s1)

/-- A timer of an instance after `n` more cycles: at 0 where another one has become first. -/
def timed (old : Option (Nat × Nat)) (m n : Nat) : Option (Nat × Nat) :=
  match old with
  | some (k, c) => if k = m then some (m, c + n) else some (m, n)
  | none => some (m, n)

/-- The first instance of the order needs keys that do not let it be picked (R301). -/
def State.waitsKeys (s : State) (p : Nat) : Option Nat :=
  match s.pool p with
  | (m, i) :: _ => if s.keysOk m i then none else some m
  | [] => none
/-- The first instance of the order waits for nothing but a placement (R285). -/
def State.waitsPlace (s : State) (p : Nat) : Option Nat :=
  match s.pool p with
  | (m, i) :: _ => if s.keysOk m i && (s.placement i p none (s.coresOf p)).isNone then some m else none
  | [] => none

/-- The aging timers of a partition, `n` cycles later, which stand still while it is switched or stopped; and the cycles since
its dispatcher's last pick. -/
def State.aged (s : State) (p n : Nat) : State :=
  if !s.issues p then s.modPart p fun u => { u with idle := min 4 (u.idle + n) }
  else s.modPart p fun u =>
    { u with idle := min 4 (u.idle + n)
             keyTimer := (s.waitsKeys p).bind fun m => timed u.keyTimer m n
             placeTimer := (s.waitsPlace p).bind fun m => timed u.placeTimer m n }

/-- A timer of an instance has reached its limit. -/
def timedOut (t : Option (Nat × Nat)) (m limit : Nat) : Bool := t.any fun e => e.1 = m && limit ≤ e.2

/-- AGEPLACE_EXPIRY: the first instance has waited AGEPLACE cycles for a placement; no later one is placed before it (R285). -/
def execAgeplaceExpiry (p : Nat) (s : State) : Host.Outcome State Fault Refusal :=
  match s.pool p with
  | [] => .next s
  | (m, i) :: _ =>
    if s.issues p && s.keysOk m i && (s.placement i p none (s.coresOf p)).isNone &&
        timedOut (s.part p).placeTimer m (s.part p).ageplace then
      .next (s.modPart p fun p => { p with placing := insertHeld m p.placing })
    else .next s

/-- AGEKEY_EXPIRY: the first instance has waited AGEKEY cycles for its keys; its slots are reserved, all or none, and the
timer runs again (R301). -/
def execAgekeyExpiry (p : Nat) (s : State) : Host.Outcome State Fault Refusal :=
  match s.pool p with
  | [] => .next s
  | (m, i) :: _ =>
    let sl := s.slotsOf i
    let s0 := s.modPart p fun u => { u with keyTimer := some (m, 0) }
    if !s.issues p || s.keysOk m i || i.reserved || !timedOut (s.part p).keyTimer m (s.part p).agekey then .next s
    else if sl.any fun e => match (s.keySlot e.1).owner with | some o => o != m | none => false then .next s0
    else
      let s1 := sl.foldl (fun s e => s.modKeySlot e.1 fun k => { k with owner := some m }) s0
      .next ((s1.modInst m fun i => { i with reserved := true }).modPart p fun p => { p with rsvcnt := (p.rsvcnt + 1) % 2 ^ 64 })

/-! ## Starting (R51, R287) -/

/-- Slots of a core that no context holds. -/
def State.slotsFree (s : State) (core : Nat) : List Nat :=
  (List.range 4).filter fun k => !(s.ctxs.any fun c => c.id.core = core && c.id.slot = k && !c.st.out)

/-- Roles of banks at entry: those of their units (R278). -/
def rolesOf (n : Node) : Nat := (List.range (4 * n.banku)).foldl (fun w b => w + n.broles / 4 ^ (b / 4) % 4 * 4 ^ b) 0

/-- The registers at entry (R51). -/
def entryRegs (endSeq : Word) (id : Ident) (param : Nat) : Tab Word :=
  [(1, BitVec.ofNat 64 param), (2, BitVec.ofNat 64 id.x), (3, BitVec.ofNat 64 id.y), (4, BitVec.ofNat 64 id.z),
   (5, BitVec.ofNat 64 id.rank), (6, BitVec.ofNat 64 id.gsize), (7, BitVec.ofNat 64 id.kseq), (63, endSeq)]

/-- A context that begins the first slice of a member (R51, R57, R65); `brole` is `roles`. -/
def State.entered (s : State) (n : Node) (id : Ident) (lin : Nat) (due : Word) (roles : Nat) (banks tracks : List Nat) : Ctx :=
  let seed := BitVec.ofNat 64 (id.kseq * 2 ^ 32) ^^^ BitVec.ofNat 64 lin
  { Ctx.blank with
    id := id
    r := { Ctx.blank.r with s := entryRegs s.endSeq id n.param, sHeld := (entryRegs s.endSeq id n.param).vals }
    c := { Ctx.blank.c with
      tvec := Config.freeWord s.free &&& 0x1FFFFFFFFFFFFFE
      budget := BitVec.ofNat 64 n.budget
      deadline := due
      brole := BitVec.ofNat 64 roles
      srseed := if seed = 0 then 1 else seed }
    pc := BitVec.ofNat 64 n.entry
    decl := { sregs := n.sregs, vregs := n.vregs, kregs := 7, acc := 2 ^ n.acc - 1, banks := banks, tracks := tracks }
    st := { Ctx.blank.st with live := true, last := (s.core id.core).ages.getD id.slot 0 } }

/-- A context is back in its slot (R329): its wait is issued again. -/
def Ctx.back (c : Ctx) : Ctx := { c with wait := none, st := { c.st with out := false, waitk := 0 } }

/-- A saved context takes a slot again, with the slot's age (R320). -/
def State.resume (s : State) (cid slot : Nat) : State :=
  s.modCtx cid fun c => { c.back with
    id := { c.id with slot := slot }
    st := { c.back.st with last := (s.core c.id.core).ages.getD slot 0 } }

/-- The next serial that no live context of the partition has (R58). -/
def State.freeSerial (s : State) (p : Nat) : Nat → Nat → Nat
  | 0, n => n
  | k + 1, n => if (s.ctx? (p * 2 ^ 24 + n % 2 ^ 24)).isSome then State.freeSerial s p k (n + 1) else n

/-- One member starts or continues in a free slot of its core. -/
def State.startRank (s : State) (m : Nat) (i : Inst) (n : Node) (u : Kernel) (r core : Nat) : State :=
  let slot := (pickSome 1 s.free (s.slotsFree core)).headD 0
  let s := { s with free := s.free + 1 }
  if i.begun then
    match i.cids[r]? with
    | some cid => (s.resume cid slot).modCtx cid fun c => { c with c := { c.c with deadline := i.deadline } }
    | none => s
  else
    let p := s.part u.part
    let spans := s.spans i
    let serial := s.freeSerial u.part (s.others.length + 1) p.serial
    let id : Ident :=
      { serial := serial, core := core, slot := slot, part := u.part, inst := m,
        rank := if spans then u.spanrank * n.gang + r else r,
        gsize := if spans then u.spann * n.gang else n.gang, kseq := i.kernel, x := i.x, y := i.y, z := i.z }
    let kept := s.keptOn core i r
    let roles := if n.retained && !kept.isEmpty then (kept.zipIdx).foldl (fun w e => w + e.1.role % 4 * 4 ^ e.2) 0 else rolesOf n
    let s := s.modCore core fun k =>
      { k with kept := k.kept.filter fun x => !x.isFor i r, keptTracks := k.keptTracks.filter fun x => !x.isFor i r }
    let c := s.entered n id (s.linear i) i.deadline roles (i.banks.getD r []) (i.tracks.getD r [])
    let s := s.modCore core fun k => { k with rings := k.rings.map fun q =>
      (q.1, if q.2.defd && c.decl.banks.contains (q.2.banks.getD (q.2.base / 2 ^ 14) 32) then { q.2 with owner := id.cid } else q.2) }
    { (s.modPart u.part fun p => { p with serial := serial + 1 }) with
      others := s.others.set id.cid c, free := s.free + 1 }.modInst m fun i => { i with cids := i.cids ++ [id.cid] }

/-- Every member of a queued instance finds a free slot, and no earlier instance of its queues still waits (R287). -/
def State.canStart (s : State) (m : Nat) (i : Inst) : Bool :=
  let cores := (s.ranksOf i).map fun r => i.cores.getD r 0
  i.st = 2 && (cores.all fun c => !(s.slotsFree c).isEmpty) && cores.all fun c => (s.queueOf (clusterOf c)).head? = some m

/-- INSTANCE_START: a queued instance starts, or goes on with its next slice; track data comes first (R287, R429). -/
def execInstanceStart (m : Nat) (s : State) : Host.Outcome State Fault Refusal :=
  match s.insts.get? m with
  | none => .next s
  | some i =>
    match s.nodeOf i, s.kernels.get? i.kernel with
    | some n, some u =>
      if s.issues u.part && u.st != 3 && s.canStart m i && (i.begun || i.loaded || n.loads.isEmpty) then
        let s1 := (s.ranksOf i).foldl (fun s r => s.startRank m i n u r (i.cores.getD r 0)) s
        .next { s1.modInst m (fun i => { i with st := 3, begun := true }) with cdq := s1.cdq.map fun e => (e.1, e.2.erase m) }
      else .next s
    | _, _ => .next s

/-- The words of one track-data entry, written with their postmarks (R429). -/
def State.loadTrack (s : State) (p core t : Nat) (l : TrackLoad) : State :=
  let s1 := (List.range l.count).foldl (fun s w =>
    match s.readGlobal p (l.addr + 128 * w) 128 with
    | some bs => s.putTrackWord core t ((l.pos + w) % 4096) ((l.pos + w) % 4096) bs
    | none => s) s
  s1.modTrack core t fun tr =>
    { tr with ppos := (l.pos + l.count) % 4096, off := 0, slip := 0, owner := none, holder := none, hleft := 0 }

/-- TRACKDATA_LOAD: a node's tracks are loaded once, before its first slice (R429): those of the instance that comes first. -/
def execTrackdataLoad (m : Nat) (s : State) : Host.Outcome State Fault Refusal :=
  match s.insts.get? m with
  | none => .next s
  | some i =>
    match s.nodeOf i with
    | none => .next s
    | some n =>
      if i.st != 2 || i.begun || i.loaded || !s.issues (s.instPart i) then .next s
      else
        let once := s.insts.any fun e => e.2.kernel = i.kernel && e.2.node = i.node && e.2.loaded
        let s1 := if once then s else (i.cores.zip i.tracks).foldl (fun s e => n.loads.foldl (fun s l =>
          match s.headTrack e.1 (s.instPart i) e.2 l.track with
          | some t => s.loadTrack (s.instPart i) e.1 t l
          | none => s) s) s
        .next (s1.modInst m fun i => { i with loaded := true })

/-! ## The balancer (R288, R289) -/

/-- Held slots and queued instances of a cluster. -/
def State.balLoad (s : State) (cl : Nat) : Nat :=
  (s.ctxs.filter fun c => c.id.slot != 4 && !c.st.out && clusterOf c.id.core = cl).length + (s.queueOf cl).length

/-- The instance may be moved: it has not started, or is a solo context without tracks, microprogram or binding. -/
def State.movable (s : State) (i : Inst) : Bool :=
  i.st = 2 && (!i.begun || (s.gangOf i = 1 && i.cids.all fun cid => (s.ctx? cid).all fun c =>
    c.decl.tracks.isEmpty && c.micro.isNone && c.binds.isEmpty))

/-- An instance gives up its place in the queues; it is READY, keys held. -/
def State.unqueue (s : State) (m : Nat) : State :=
  { (s.freeTracks m).modInst m (fun i => { i with st := 1, loaded := i.loaded && i.begun }) with cdq := s.cdq.map fun e => (e.1, e.2.erase m) }

/-- Move one instance to a cluster, where it finds a place there; its old reservation counts until then. -/
def State.migrate (s : State) (p m dst : Nat) : State :=
  match s.insts.get? m with
  | none => s
  | some i =>
    if !s.movable i || 8 ≤ (s.queueOf dst).length then s
    else match s.placement i p none (clusterCores dst) with
      | none => s
      | some cores => (s.unqueue m).enqueue m { i with st := 1 } p cores

/-- A migration command (R289). -/
def State.migration (s : State) (p count src dst : Nat) : State :=
  let ok (cl : Nat) := s.partOfCluster cl = some p && (s.cluster cl).gate != 1 && (s.cluster cl).gate != 2
  if !ok src || !ok dst || src = dst then s
  else
    let l := ((s.queueOf src).reverse.filter fun m => (s.insts.get? m).any s.movable).take count
    l.foldl (fun s m => s.migrate p m dst) s

/-- The cluster a field of BALCMD names: stack, row, column. -/
def balCluster (f : Nat) : Nat := 96 * (f / 128 % 4) + 8 * (f / 8 % 16) + f % 8
def balCluster? (variant f : Nat) : Option Nat :=
  if f / 8 % 16 < 12 && balCluster f < clusterCount variant then some (balCluster f) else none

/-- BALCMD: a host migration command (R288). -/
def execBalcmd (fn p v : Nat) (s : State) : Host.Outcome State Fault Refusal :=
  let count := v / 2 ^ 18 % 16
  if !ownsBlock fn p || v / 2 ^ 22 != 0 || !within 1 8 count || !s.issues p then .next s
  else match balCluster? s.variant (v % 512), balCluster? s.variant (v / 512 % 512) with
    | some src, some dst => .next (s.migration p count src dst)
    | _, _ => .next s

/-- The clusters of a partition by falling load. -/
def State.byLoad (s : State) (p : Nat) : List Nat :=
  (s.clustersOf p).foldr (fun c l => let h := l.takeWhile fun d => s.balLoad c < s.balLoad d
                                     h ++ c :: l.drop h.length) []

/-- BALANCER_PERIOD: a command for each pair, from the most loaded to the least loaded cluster (R288). -/
def execBalancerPeriod (p : Nat) (s : State) : Host.Outcome State Fault Refusal :=
  if !s.issues p then .next s
  else
    let l := s.byLoad p
    let cmds := ((l.take (l.length / 2)).zip l.reverse).filterMap fun e =>
      let d := s.balLoad e.1 - s.balLoad e.2
      if 2 ≤ d then some (e.1, e.2, min 8 (d / 2)) else none
    .next (cmds.foldl (fun s c => s.migration p c.2.2 c.1 c.2.1) s)

/-! ## LAUNCH (R273, R279, R292) -/

/-- The relocations of an object, by address. -/
def State.relocsOf (s : State) (p kobj : Nat) : List (Nat × Nat) :=
  match s.readGlobal p (kobj + 8) 8 with
  | some bs => (s.relocs.getD kobj []).map fun e => (kobj + natOfBytes bs + e.1, e.2)
  | none => []

/-- A LAUNCH starts: the kernel gets its number and is checked (R279, R285). -/
def State.launch (s : State) (q cmd p kobj param start compl : Nat) : State :=
  let s := s.bringRange p kobj 64 .load
  let k := s.nextKernel
  let late := start != 0 && start ≤ s.time
  let t0 := if start != 0 && !late then start else s.time
  let pt := s.part p
  let u : Kernel :=
    { part := p, queue := q, cmd := cmd, st := 0, reason := 0, t0 := t0, compl := compl, start := if late then 0 else start,
      late := late, spawnfull := false, nnodes := 0, nodes := [], micro := [], relocs := [], spawned := 0, retired := 0, killed := 0,
      never := 0, spann := pt.spann, spanrank := pt.spanrank, spannodes := pt.spannodes, tnodes := pt.tnodes }
  let s1 := { s with nextKernel := k + 1 }
  match s.checkObject p kobj param t0 with
  | .error reason => ({ s1 with kernels := s1.kernels.set k u }.refuse k reason).lookAgain p
  | .ok (nodes, micro) =>
    let u := { u with nnodes := nodes.length, nodes := nodes.zipIdx.map (fun e => (e.2, e.1)), micro := micro,
                       relocs := s.relocsOf p kobj }
    { s1 with kernels := s1.kernels.set k u }.trySlots k

/-- START_TICK: the time base reaches START (R292). -/
def execStartTick (k : Nat) (s : State) : Host.Outcome State Fault Refusal :=
  match s.kernels.get? k with
  | none => .next s
  | some u => .next (if u.st = 1 && u.start ≤ s.time then s.runKernel k else s)

end Sys2Proof.Machine
end

