-- ==== Sys2Proof/Machine/Command.lean ====
section
/-! DEFINITION. The commands of a queue (R271-R274) and the buffer-handle table (R251, R252). -/
namespace Sys2Proof.Machine

/-! ## The handle table (R251, R252) -/

def overlaps (a b : Nat × Nat) : Bool := a.1 < b.1 + b.2 && b.1 < a.1 + a.2

/-- A command of a queue has completed. -/
def State.cmdOver (s : State) (q c : Nat) : Bool :=
  match (s.queue q).cmds.get? c with | some x => x.done || x.op = opFAILED | none => true

/-- What a command must wait for on a handle: its writer, and its readers where the command writes. -/
def State.handleFree (s : State) (h : Handle) (writes : Bool) : Bool :=
  (match h.writer with | some (q, c, _) => s.cmdOver q c | none => true) &&
    (!writes || h.readers.all fun r => s.cmdOver r.1 r.2)

/-- The handles of the table that one entry names. -/
def State.named (s : State) (e : Nat × Nat × Nat) : List Handle := s.handles.filter fun h => overlaps (h.base, h.len) (e.1, e.2.1)

/-- The table has no room for what the command names (R252). -/
def State.tableFull (s : State) (es : List (Nat × Nat × Nat)) : Bool :=
  4096 < s.handles.length + (es.filter fun e => (s.named e).isEmpty).length

/-- The handle rules let the command start; one that found no room in the table counts as naming every handle. -/
def State.handlesFree (s : State) (es : List (Nat × Nat × Nat)) : Bool :=
  (es.isEmpty || s.spilled.all fun e => s.cmdOver e.1 e.2) &&
  if s.tableFull es then s.handles.all fun h => s.handleFree h true
  else es.all fun e => (s.named e).all fun h => s.handleFree h (e.2.2 != 1)

/-- Record a command's use of one handle; the ranges it joins are one handle from now on. -/
def State.useHandle (s : State) (q c : Nat) (hostSide : Bool) (e : Nat × Nat × Nat) : State :=
  let old := s.named e
  let lo := old.foldl (fun m h => min m h.base) e.1
  let hi := old.foldl (fun m h => max m (h.base + h.len)) (e.1 + e.2.1)
  let h : Handle :=
    { base := lo, len := hi - lo,
      writer := if e.2.2 = 1 then old.findSome? (·.writer) else some (q, c, hostSide)
      host := e.2.2 = 1 && (old.any (·.host) || s.hostWrites.any fun w => overlaps w (e.1, e.2.1))
      readers := (if e.2.2 = 1 then old.flatMap (·.readers) else []) ++ (if e.2.2 = 2 then [] else [(q, c)]) }
  { s with handles := (s.handles.filter fun x => !overlaps (x.base, x.len) (e.1, e.2.1)) ++ [h]
           hostWrites := s.hostWrites.filter fun w => !(lo ≤ w.1 && w.1 + w.2 ≤ hi) }

/-- Record a command's use of all that it names; one that finds no room is kept apart (R252). -/
def State.useHandles (s : State) (q c : Nat) (hostSide : Bool) (es : List (Nat × Nat × Nat)) : State :=
  if s.tableFull es then { s with spilled := s.spilled ++ [(q, c)] }
  else es.foldl (fun s e => s.useHandle q c hostSide e) s

/-! ## Maintenance (R251, R252, R273) -/

/-- A physical line lies in a range of a partition's global addresses. -/
def State.lineIn (s : State) (p base len line : Nat) : Bool :=
  (List.range ((base % 65536 + len + 65535) / 65536)).any fun i =>
    match s.walk p ((base / 65536 + i) * 65536) with
    | .ok t =>
      let vp := base / 65536 + i
      t.unit vp = line * 128 / 65536 * 65536 && base < vp * 65536 + line * 128 % 65536 + 128 &&
        vp * 65536 + line * 128 % 65536 < base + len
    | .error _ => false

/-- Write back the written words of the lines that a test names, in every cache, and drop the lines where asked. -/
def State.flushLines (s : State) (drop : Bool) (f : Nat → Bool) : State :=
  let ws := s.ctxs.flatMap fun c => (c.l1.data.filter fun l => f l.line).flatMap fun l => lineWords l.line l.written
  (s.settle ws).mapCtxs fun c =>
    { c with l1 :=
      { data := if drop then c.l1.data.filter fun l => !f l.line
          else c.l1.data.map fun l => if f l.line then { l with written := 0 } else l
        const := if drop then c.l1.const.filter fun l => !f l.line else c.l1.const } }

/-- The maintenance that the table inserts before a command (R251). -/
def State.maintain (s : State) (p : Nat) (toHost : Bool) (es : List (Nat × Nat × Nat)) : State :=
  if s.tableFull es then s.flushLines true fun _ => true
  else es.foldl (fun s e =>
    let s1 := (s.hostWrites.filter fun w => overlaps w (e.1, e.2.1)).foldl (fun s w =>
      s.flushLines true fun l => s.lineIn p w.1 w.2 l) s
    (s1.named e).foldl (fun s h =>
      if h.host then s.flushLines true fun l => s.lineIn p h.base h.len l
      else match h.writer with
      | some (_, _, true) => s.flushLines true fun l => s.lineIn p h.base h.len l
      | some (_, _, false) => if toHost then s.flushLines false fun l => s.lineIn p h.base h.len l else s
      | none => s) s1) s

/-! ## Commands (R272, R273) -/

/-- A command as read from its slot. -/
structure Line128 where
  op : Nat
  sub : Nat
  intr : Bool
  ovl : Bool
  nh : Nat
  body : List Byte
  handles : List (Nat × Nat × Nat)

def lineOfBytes (bs : List Byte) : Line128 :=
  let h := geti bs 0 8
  { op := h % 256, sub := h / 2 ^ 16 % 16, intr := h.testBit 15, ovl := h.testBit 14, nh := h / 2 ^ 8 % 8,
    body := (bs.drop 8).take 56,
    handles := (List.range (h / 2 ^ 8 % 8)).map fun i =>
      (geti bs (0x40 + 16 * i) 8 % 2 ^ 57, geti bs (0x48 + 16 * i) 8, geti bs (0x40 + 16 * i) 8 / 2 ^ 62) }

/-- Bytes of BODY that each opcode uses. -/
def bodyUsed (op : Nat) : Nat := if op = 1 then 32 else if op = 2 || op = 4 then 24 else if op = 3 then 16 else 0
/-- SUBOP values of each opcode. -/
def subops (op : Nat) : Nat := if op = 1 then 1 else if op = 2 then 3 else 2

/-- ERRCODE of a malformed command (R274), where it is one. -/
def Line128.bad (l : Line128) (bs : List Byte) : Option Nat :=
  let f (i : Nat) := geti l.body (8 * i) 8
  let h := geti bs 0 8
  if l.op = 0 || 5 < l.op || subops l.op ≤ l.sub then some 1
  else if h / 2 ^ 20 != 0 || h / 2 ^ 11 % 8 != 0 || 4 < l.nh || geti l.body (bodyUsed l.op) 56 != 0 ||
      (l.handles.any fun e => e.2.2 = 0 || e.2.1 = 0 || 2 ^ 40 < e.2.1) ||
      ((List.range l.nh).any fun i => geti bs (0x40 + 16 * i) 8 / 2 ^ 57 % 32 != 0) ||
      (l.op = 1 && (f 0 % 4096 != 0 || f 1 % 8 != 0 || f 3 % 8 != 0)) ||
      (l.op = 2 && (f 2 = 0 || 2 ^ 40 < f 2)) ||
      ((l.op = 3 || l.op = 4) && f 0 % 8 != 0) then some 2
  else none

/-- Device to device, host to device, device to host: one byte, and whether none of its addresses faults. -/
def State.copyByte (s : State) (p sub src dst : Nat) : State × Bool :=
  if sub = 0 then
    let r := s.reach p src .load
    let w := r.1.reach p dst .store
    match w.1.globalPlace p src .load, w.2 with
    | .ok a, .ok b => (w.1.putShared b [w.1.mem.read a], true)
    | _, _ => (w.1, false)
  else if sub = 1 then
    let w := s.reach p dst .store
    match w.2 with
    | .ok b => (w.1.hostByte b (s.mem.read (hostKey src)), true)
    | .error _ => (w.1, false)
  else
    let r := s.reach p src .load
    match r.2 with
    | .ok a => ({ r.1 with mem := r.1.mem.write (hostKey dst) (r.1.homeByte a) }, true)
    | .error _ => (r.1, false)

/-- COPY: bytes in rising order until one faults; answers whether all were copied. -/
def State.copyRun (s : State) (p sub src dst : Nat) : Nat → State × Bool
  | 0 => (s, true)
  | n + 1 =>
    match s.copyByte p sub src dst with
    | (t, true) => State.copyRun t p sub (src + 1) (dst + 1) n
    | (t, false) => (t, false)

/-- The doubleword at a command's address, as an atomic of `.sys` scope sees it. -/
def State.sem (s : State) (key : Nat) : Nat := natOfBytes (s.mem.bytes key 8)

/-- A poll of a WAIT (R273): its comparison holds, or not; none where its address faults. -/
def State.poll (s : State) (p : Nat) (c : Cmd) : Option Bool :=
  let r := s.cmdPlace p c.x .load
  match r.2 with
  | .ok key => some (if c.sub = 0 then c.y ≤ r.1.sem key else r.1.sem key = c.y)
  | .error _ => none

/-- A WAIT's comparison holds. -/
def State.waitHolds (s : State) (p : Nat) (c : Cmd) : Bool := s.poll p c = some true

/-- The effect of a command at its start; an ERRCODE where it fails. -/
def State.runCommand (s : State) (q idx : Nat) (l : Line128) : State :=
  let p := (s.queue q).part
  let f (i : Nat) := geti l.body (8 * i) 8
  if l.op = 1 then s.launch q idx p (f 0) (f 1) (f 2) (f 3)
  else if l.op = 2 then
    let r := s.copyRun p l.sub (f 0) (f 1) (f 2)
    if r.2 then r.1 else r.1.queueError q idx 4
  else if l.op = 3 then
    let r := s.cmdPlace p (f 0) .store
    match r.2 with
    | .ok key => r.1.putShared key (bytesOfNat 8 (if l.sub = 0 then f 1 else (r.1.sem key + f 1) % 2 ^ 64))
    | .error _ => r.1.queueError q idx 4
  else if l.op = 4 then
    let r := s.cmdPlace p (f 0) .load
    match r.2 with
    | .ok _ => r.1
    | .error _ => r.1.queueError q idx 4
  else if l.nh = 0 then s.flushLines (l.sub = 1) fun _ => true
  else l.handles.foldl (fun s e => s.flushLines (l.sub = 1) fun x => s.lineIn p e.1 e.2.1 x) s

/-- The bridges of the variant carry traffic: kernels may be launched (R395). -/
def State.bridgesUp (s : State) : Bool :=
  (List.range (if s.variant = 2 then 2 else 4)).all fun b =>
    let st := (s.links.getD (8 + b) Link.fresh).st
    st = 5 || st = 6

/-- Constant lines of the contexts of a queue's kernels are invalid at a command boundary (R235). -/
def State.boundaryConst (s : State) (q : Nat) : State :=
  s.mapCtxs fun c =>
    if (s.insts.get? c.id.inst).any (fun i => (s.kernels.get? i.kernel).any fun k => k.queue = q) then
      { c with l1 := { c.l1 with const := [] } }
    else c

/-- Commands of a queue before an index are complete. -/
def Queue.earlierDone (u : Queue) (idx : Nat) : Bool :=
  u.cmds.all fun c => c.2.done || c.1 = idx || 2 ^ 31 ≤ (idx + 2 ^ 32 - c.1) % 2 ^ 32

/-- The command processor fetches a slot ahead of its start (R271); a slot whose fetch faults is left for its start. -/
def State.fetchAhead (s : State) (q : Nat) : State :=
  let u := s.queue q
  if 64 ≤ q || u.st != qACTIVE || u.fetch = u.tail || !s.hostUp || u.cmds.has u.fetch then s
  else match s.busBytes (u.slot u.fetch) 128 with
    | some bs => s.modQueue q fun u => { u with slots := u.slots ++ [(u.fetch, bs)], fetch := (u.fetch + 1) % 2 ^ 32 }
    | none => s

/-- The command processor takes up the next command of an ACTIVE queue, where it has opcode `op` and may start (R271,
R251); a malformed one puts the queue into ERROR, as does one that has started before and failed meanwhile (R275). -/
def State.nextCommand (s : State) (q op : Nat) : State :=
  let u := s.queue q
  let idx := u.next
  if 64 ≤ q || u.st != qACTIVE || idx = u.tail || !s.hostUp then s
  else if u.cmds.has idx then
    match (u.cmds.get? idx).filter fun c => c.op = opFAILED && !c.done with
    | some c => s.queueError q idx c.sub
    | none => s.modQueue q fun u => { u with fetch := (idx + 1) % 2 ^ 32 }
  else match s.nextSlot q with
  | none => s.queueError q idx 4
  | some bs =>
    let l := lineOfBytes bs
    match l.bad bs with
    | some code => s.queueError q idx code
    | none =>
      if l.op != op || (!l.ovl && !u.earlierDone idx) || !s.handlesFree l.handles || (op = 1 && !s.bridgesUp) then s
      else
        let f (i : Nat) := geti l.body (8 * i) 8
        let c : Cmd :=
          { op := op, intr := l.intr, handles := l.handles, sub := l.sub, x := f 0, y := f 1,
            z := if op = 4 && f 2 != 0 then s.time + f 2 else 0, done := false }
        let s1 := s.maintain u.part (op = 2 && l.sub = 2) l.handles
        let s2 := s1.modQueue q fun u =>
          { u with fetch := if u.slots.isEmpty then (idx + 1) % 2 ^ 32 else u.fetch, slots := u.slots.tail, cmds := u.cmds.set idx c }
        let s3 := s2.useHandles q idx (op = 2 && l.sub = 1) l.handles
        (s3.boundaryConst q).runCommand q idx l

def execLaunch (q : Nat) (s : State) : Host.Outcome State Fault Refusal := .next (s.nextCommand q 1)
def execCopy (q : Nat) (s : State) : Host.Outcome State Fault Refusal := .next (s.nextCommand q 2)
def execSignal (q : Nat) (s : State) : Host.Outcome State Fault Refusal := .next (s.nextCommand q 3)
def execWaitCommand (q : Nat) (s : State) : Host.Outcome State Fault Refusal := .next (s.nextCommand q 4)
def execFlush (q : Nat) (s : State) : Host.Outcome State Fault Refusal := .next (s.nextCommand q 5)

/-- COMMAND_COMPLETE: a started command is complete, and DONE advances (R271, R273). A LAUNCH completes with its record, a
WAIT with its comparison; a WAIT whose address faults at a poll is an error (R274). -/
def execCommandComplete (q c : Nat) (s : State) : Host.Outcome State Fault Refusal :=
  let u := s.queue q
  match u.cmds.get? c with
  | none => .next s
  | some x =>
    let ovf := x.done || x.op = 2 || x.op = 3 || x.op = 5 || (x.op = 4 && s.waitHolds u.part x)
    if x.op = 4 && !x.done && (s.poll u.part x).isNone then .next (s.queueError q c 4)
    else if !ovf || !s.hostUp then .next s
    else
      let s1 := s.modQueue q fun u => { u with cmds := u.cmds.modify c fun x => { x with done := true } }
      .next ((s1.countDone q).boundaryConst q)

/-- WAIT_TIMEOUT: the time of a WAIT has come (R273, R274). -/
def execWaitTimeout (q c : Nat) (s : State) : Host.Outcome State Fault Refusal :=
  let u := s.queue q
  match u.cmds.get? c with
  | none => .next s
  | some x =>
    .next (if x.op = 4 && !x.done && x.z != 0 && x.z ≤ s.time && !s.waitHolds u.part x then s.queueError q c 5 else s)

end Sys2Proof.Machine
end

