-- ==== Sys2Proof/Machine/Chute.lean ====
section
/-! DEFINITION. Chutes (R12, R220, R221, R419). -/
namespace Sys2Proof.Machine

/-- The compute core whose chute pair `f`*n* of a core is, and whether the core is the memory core (R12, R220). -/
def chuteCore (core f : Nat) : Nat × Bool :=
  if onDeck core then (core, false) else (computeCore (clusterOf core) f, true)

def State.chute (s : State) (core : Nat) : Chute := (s.core core).chute
def State.modChute (s : State) (core : Nat) (f : Chute → Chute) : State :=
  s.modCore core fun c => { c with chute := f c.chute }

/-- A core has the chutes its `caps` counts (R26). -/
def needChute (f : Nat) (i : Instr) : M Unit := do
  if onDeck (← get).cx.id.core && f != 0 then trap cUNITABSENT (opInfo 7 i)

/-- `CHUTE` (R221). -/
def chuteTrap {α : Type} (reason f : Nat) : M α := trap cCHUTE (BitVec.ofNat 64 (reason * 256 + f % 4))

/-- Free slots of the outbound FIFO. -/
def Chute.free (c : Chute) (up : Bool) : Nat := if up then c.freeUp else c.freeDown
/-- Entries of the inbound FIFO of the side that pushes `up`. -/
def Chute.inbound (c : Chute) (up : Bool) : List VReg := if up then c.down else c.up
def Chute.push (c : Chute) (up : Bool) (v : VReg) : Chute :=
  if up then { c with up := c.up ++ [v], freeUp := c.freeUp - 1 } else { c with down := c.down ++ [v], freeDown := c.freeDown - 1 }
/-- Remove the oldest inbound entry; its slot is owed to the producer until CHUTE_CREDIT. -/
def Chute.pop (c : Chute) (up : Bool) : Chute :=
  if up then { c with down := c.down.drop 1, owedDown := c.owedDown + 1 }
  else { c with up := c.up.drop 1, owedUp := c.owedUp + 1 }

def execFpush (f : Nat) (a : Src) (s : State) := run (do
  notInDrain
  needChute f (.fpush f a)
  let s ← get
  let (core, up) := chuteCore s.cx.id.core f
  if up && ((s.cluster (clusterOf core)).gate = 1 || (s.cluster (clusterOf core)).gate = 2) then chuteTrap 1 f
  let v ← readV a
  if (s.chute core).free up = 0 then
    needNoKeys 7 (.fpush f a)
    stall (.chute true f)
  needReleased false
  freeV a
  modify fun s => s.modChute core fun c => c.push up v
  advance) s

def execFpop (d f : Nat) (s : State) := run (do
  notInDrain
  needChute f (.fpop d f)
  let s ← get
  let (core, up) := chuteCore s.cx.id.core f
  match (s.chute core).inbound up with
  | [] => do
    if up && (s.cluster (clusterOf core)).gate = 2 then chuteTrap 2 f
    needNoKeys 7 (.fpop d f)
    stall (.chute false f)
  | v :: _ => do
    modify fun s => s.modChute core fun c => c.pop up
    writeV d v
    advance) s

def execFfree (avail : Bool) (d f : Nat) (s : State) := run (do
  notInDrain
  needChute f (.ffree avail d f)
  let s ← get
  let (core, up) := chuteCore s.cx.id.core f
  writeS d (BitVec.ofNat 64 (if avail then ((s.chute core).inbound up).length else (s.chute core).free up))
  advance) s

/-- CHUTE_CREDIT: one owed slot of a core's chute returns to its producer; toward a producer in an OFF cluster it is
discarded (R220, R419). `up`: the producer is the memory core. -/
def execChuteCredit (core : Nat) (up : Bool) (s : State) : Host.Outcome State Fault Refusal :=
  let c := s.chute core
  if up then
    (if c.owedUp = 0 then .next s
     else .next (s.modChute core fun c => { c with owedUp := c.owedUp - 1, freeUp := c.freeUp + 1 }))
  else if c.owedDown = 0 then .next s
  else .next (s.modChute core fun c =>
    { c with owedDown := c.owedDown - 1,
             freeDown := if (s.cluster (clusterOf core)).gate = 2 then c.freeDown else c.freeDown + 1 })

end Sys2Proof.Machine
end

