-- ==== Sys2Proof/Machine/Context.lean ====
section
/-! DEFINITION. Contexts (R319, R328-R330, R335-R338), `spawn` and `tsig` (R290, R291): ends of slices and members,
pre-emption, resumption, and the ends of waits. -/
namespace Sys2Proof.Machine

/-! ## Ending (R335-R338) -/

/-- The waits and the trap that `halt`, `retire` and `yield` begin with: classes at 0, dead-letter entries resolved, no
firing or drain of a binding, and a killed entry delivered (R56, R197, R336). -/
def endChecks : M Unit := do
  needClasses 0 0 0 0 0
  let s ← get
  if s.bads.any (fun e => e.2.cid = s.cx.cid) || s.cx.binds.any (fun b => b.2.st = 1 || b.2.st = 2) then stall .ending
  match s.cx.st.killed with
  | [] => pure ()
  | idx :: _ => poisonRead idx

def execHalt (s : State) := run (do
  notInMicro
  notInDrain
  endChecks
  modify fun s => s.endMember s.cx.cid) s

/-- `halt.kill`: the whole instance is killed (R312, R336). -/
def execHaltKill (s : State) := run (do
  notInMicro
  notInDrain
  needSup 0 .haltKill
  modify fun s =>
    match s.insts.get? s.cx.id.inst with
    | some _ => s.killInst s.cx.id.inst
    | none => s.dropCtx s.cx.cid) s

/-- Node `node` may take over from the context's instance (R337). -/
def State.takesOver (s : State) (c : Ctx) (node : Nat) : Bool :=
  match s.insts.get? c.id.inst with
  | none => false
  | some i =>
    match s.kernels.get? i.kernel, s.nodeOf i with
    | some u, some n =>
      (match u.nodes.get? node with
      | some m => node < u.nnodes && m.retained && m.preds.head? = some (true, i.node) && m.gang = n.gang &&
          m.banku = n.banku && m.tracks = n.tracks
      | none => false)
    | _, _ => false

/-- A member's banks and tracks stay on its core for the same-coordinate instance of a node (R337). -/
def State.keepFor (s : State) (c : Ctx) (node : Nat) : State :=
  let k (x role : Nat) : Kept :=
    { bank := x, role := role, part := c.id.part, kseq := c.id.kseq, node := node, x := c.id.x, y := c.id.y, z := c.id.z,
      rank := ((s.insts.get? c.id.inst).map fun i => i.localRank c.cid).getD 0 }
  s.modCore c.id.core fun u =>
    { u with kept := u.kept ++ c.decl.banks.zipIdx.map fun e => k e.1 (c.role e.2)
             keptTracks := u.keptTracks ++ c.decl.tracks.map fun t => k t 0 }

def execRetire (node : Nat) (s : State) := run (do
  notInMicro
  notInDrain
  if !s.takesOver s.cx node then illop 0x0A 0
  endChecks
  modify fun s => (s.keepFor s.cx node).endMember s.cx.cid) s

/-- The continuation begins after the `yield`, or where the handler's trap was taken (R145, R338). -/
def yieldOn : M Unit := do
  if (← get).cx.sup then modCx Ctx.returned else advance

def execYield (s : State) := run (do
  notInMicro
  notInDrain
  let c := s.cx
  if c.id.gsize ≤ 1 then do
    endChecks
    yieldOn
    modify fun s => (s.endSlice s.cx.cid).readyAgain s.cx.id.inst s.cx.c.deadline
  else if c.st.inSync = 3 then do
    setSync 0
    if s.mixedOf c = 0 then yieldOn
    else
      advance
      mixedTrap (s.mixedOf c)
  else if c.st.inSync != 0 then stall .group
  else do
    endChecks
    modify fun s => s.arriveGroup s.cx .yield 2
    stallIn .group) s

/-! ## Device-side launch (R290, R291) -/

/-- The copy that a spawn record asks for; `n` is the node, `serial` numbers it. -/
def Node.copyOf (n : Node) (r : List Byte) (node inst now : Nat) : Node :=
  { n with nx := geti r 8 2, ny := geti r 10 2, nz := geti r 12 2
           deadline := if geti r 0x18 4 = 0 then n.deadline else geti r 0x18 4
           param := if geti r 0x10 8 = 0 then n.param else geti r 0x10 8
           preds := []
           t0 := now
           src := node
           copy := true
           after := if geti r 2 2 % 2 = 1 then some inst else none
           enqueued := false }

/-- A spawn record with a reserved bit, a node or an extent out of range, or a misaligned PARAM. -/
def spawnBad (r : List Byte) (nnodes : Nat) : Bool :=
  geti r 2 2 / 2 != 0 || geti r 4 4 != 0 || geti r 14 2 != 0 || geti r 0x1C 4 != 0 || nnodes ≤ geti r 0 2 ||
    geti r 8 2 = 0 || geti r 10 2 = 0 || geti r 12 2 = 0 || geti r 0x10 8 % 8 != 0

def execSpawn (d : Nat) (a : Src) (s : State) := run (do
  notInDrain
  let x ← readS a
  if x.toNat % 8 != 0 then trap cALIGN x
  let c := s.cx
  if !c.ownRange x.toNat 32 then illop 0x07 4
  needNoFaults
  let r := s.ownBytes c x.toNat 32
  let k := ((s.insts.get? c.id.inst).map (·.kernel)).getD 0
  match s.kernels.get? k with
  | none => illop 0x07 2
  | some u => do
    if spawnBad r u.nnodes then illop 0x07 2
    needReleased true
    freeS a
    if u.st = 3 || 1024 ≤ s.copiesOf k u then do
      writeS d (BitVec.allOnes 64)
      modify fun s => s.modKernel k fun u => { u with spawnfull := true }
    else
      match u.nodes.get? (geti r 0 2) with
      | none => illop 0x07 2
      | some n => do
        writeS d (BitVec.ofNat 64 u.spawned)
        modify fun s => s.modKernel k fun u =>
          { u with nodes := u.nodes.set (u.nnodes + u.spawned) (n.copyOf r (geti r 0 2) c.id.inst s.time)
                   spawned := u.spawned + 1 }
  advance) s

/-- A member has signalled; the instance is complete for its edges once every member has signalled or ended (R291). -/
def State.signal (s : State) (c : Ctx) : State :=
  (s.modInst c.id.inst fun i =>
    let sg := insertHeld (i.localRank c.cid) i.signalled
    { i with signalled := sg
             edge := i.edge || (List.range (s.gangOf i)).all fun q => sg.contains q || i.ended.contains q }).modCtx c.cid
    fun c => { c with st := { c.st with sig := true } }

def execTsig (s : State) := run (do
  notInDrain
  needReleased true
  modify fun s => s.signal s.cx
  advance) s

/-! ## Traps and waits as events (R63, R195, R319, R347, R350) -/

/-- BUDGET_EXPIRY: `budget` has reached zero at an instruction boundary (R63). -/
def execBudgetExpiry (cid : Nat) (s : State) : Host.Outcome State Fault Refusal :=
  match s.running? cid with
  | none => .next s
  | some c =>
    if c.drain.isNone && !c.sup && c.st.defer.isEmpty && c.c.budget = 0 then .next (takeTrap (s.checkout cid) cBUDGET 0)
    else .next s

/-- DEFERRED_TRAP: the oldest deferred trap of a context at user level (R195, R321). -/
def execDeferredTrap (cid : Nat) (s : State) : Host.Outcome State Fault Refusal :=
  match s.running? cid with
  | none => .next s
  | some c =>
    if c.st.defer.isEmpty then .next s
    else match (s.checkout cid).boundary with
      | some t => .next t
      | none => .next s

/-- A context stops waiting: its instruction is issued again. -/
def State.unwait (s : State) (cid : Nat) : State := s.modCtx cid fun c => { c with wait := none }

/-- The wait is over. An `evwait` is ended by the firing itself, a barrier wait by the phase or its time, a waiting `msend`
by room, traffic by the link; of the others the instruction itself looks again. -/
def State.waitOver (s : State) (c : Ctx) : Wait → Bool
  | .event _ => false
  | .msgRoom _ rcv => s.roomFor c.id.part rcv
  | .barrier n p t => (s.barrier (clusterOf c.id.core) n).done p || t.any fun t => t ≤ s.time
  | .early n => !(s.barrier (clusterOf c.id.core) n).full
  | .time t => t ≤ s.time
  | .link l _ => s.crosses l || !s.carries l
  | _ => true

/-- CONTEXT_WAIT_END: the awaited agent has acted, and the instruction is tried again (R319). -/
def execContextWaitEnd (cid : Nat) (s : State) : Host.Outcome State Fault Refusal :=
  match s.running? cid with
  | none => .next s
  | some c =>
    .next (if c.wait.all (s.waitOver c) then s.unwait cid else s)

/-- BARRIER_WAIT_TIMEOUT: the time of a `barw.t` has come (R347). -/
def execBarrierWaitTimeout (cid : Nat) (s : State) : Host.Outcome State Fault Refusal :=
  match s.running? cid with
  | none => .next s
  | some c =>
    match c.wait with
    | some (.barrier _ _ (some t)) => .next (if t ≤ s.time then s.unwait cid else s)
    | _ => .next s

/-- TIMED_WAIT_WAKE: the time of a `tmwait` has come (R350). -/
def execTimedWaitWake (cid : Nat) (s : State) : Host.Outcome State Fault Refusal :=
  match s.running? cid with
  | none => .next s
  | some c =>
    match c.wait with
    | some (.time t) => .next (if t ≤ s.time then s.unwait cid else s)
    | _ => .next s

/-! ## The save area (R69, R70) -/

/-- A word with bits set where a register of a table is listed. -/
def Tab.bits {α : Type} (n : Nat) (t : Tab α) : Nat := (List.range n).foldl (fun w i => if t.has i then w + 2 ^ i else w) 0

/-- The STATE word (R70). -/
def Ctx.stateWord (c : Ctx) : Nat :=
  c.st.inbox.length * 2 ^ 40 + c.st.inboxh * 2 ^ 32 +
    ((c.micro.map fun m => 2 ^ 21 + m.upc % 32 * 2 ^ 16 + m.slot % 64 * 2 ^ 8).getD 0) +
    (if c.st.killed.isEmpty then 0 else 2 ^ 4) + c.st.waitk * 2 ^ 2 + (if c.sup then 2 else 0)

/-- `n` slots of `w` bytes, with free bytes where a slot has no value. -/
def saveSlots (n w free : Nat) (f : Nat → Option Nat) : List Byte :=
  (List.range n).flatMap fun i => match f i with
    | some x => bytesOfNat w x
    | none => (List.range w).map fun j => Config.freeByte (free + w * i + j)

/-- The save area of a context (R69): what the state holds of a switched-out context, in the layout of its 96 KiB. -/
def State.saveArea (s : State) (c : Ctx) : List Byte :=
  let r := c.r
  let word (n : Nat) := bytesOfNat 8 n
  let gap (n : Nat) : List Byte := List.replicate n 0
  saveSlots 64 8 s.free (fun i => if i = 0 then some 0 else (r.s.get? i).map BitVec.toNat) ++
    word (Tab.bits 64 r.s) ++ word (Tab.bits 64 r.v) ++ word (Tab.bits 64 r.sPend) ++ word (Tab.bits 64 r.vPend) ++
    word (Tab.bits 8 r.k) ++ gap 24 ++
    saveSlots 8 16 s.free (fun i => if i = 0 then some (2 ^ 128 - 1) else (r.k.get? i).map BitVec.toNat) ++
    saveSlots 4 8 s.free (fun i => some (r.b.getD i 0).toNat) ++ gap 32 ++
    saveSlots 18 8 s.free (fun i => some ({ s with cx := c }.ctlRead i).toNat) ++ word c.pc.toNat ++ word c.stateWord ++ gap 96 ++
    saveSlots 16 8 s.free (fun i => some ((c.head i).word false).toNat) ++ gap 2944 ++
    saveSlots 64 128 s.free (fun i => (r.v.get? i).map BitVec.toNat) ++
    saveSlots 64 64 s.free (fun i => (c.st.inbox[(i + 64 - c.st.inboxh) % 64]?).map natOfBytes) ++
    (List.range 8).flatMap fun t => saveSlots 1024 10 s.free fun e => if c.hasTile t then some (c.tile t e) else none

/-! ## Pre-emption and resumption (R328, R329) -/

/-- The contexts that may make way for an instance, where the placement then succeeds (R328, R427). -/
def State.victims (s : State) (p : Nat) (i : Inst) : List Ctx :=
  s.ctxs.filter fun c => c.id.part = p && c.id.gsize ≤ 1 && c.id.slot != 4 && !c.sup && !c.st.out &&
    i.deadline.toNat < c.c.deadline.toNat && (s.insts.get? c.id.inst).isSome &&
    (s.placement i p (some c.cid) (s.coresOf p)).isSome

/-- The victim that the dispatcher takes: the latest deadline, then the higher sequence number, core and slot. -/
def latest : List Ctx → Option Ctx
  | [] => none
  | c :: t =>
    match latest t with
    | none => some c
    | some d =>
      let key (x : Ctx) := [x.c.deadline.toNat, x.id.kseq, x.id.core, x.id.slot]
      if key c < key d then some d else some c

/-- A context's engine work that pre-emption waits for (R197, R329). -/
def State.drainedCtx (s : State) (c : Ctx) : Bool :=
  let k := s.core c.id.core
  c.outstanding.load = 0 && c.outstanding.store = 0 && c.cnt.copy = 0 && !(k.streams.any fun x => x.cid = c.cid) &&
    !(k.firing.any fun f => f.cid = c.cid) && !(k.drains.any fun d => d.cid = c.cid) &&
    !(k.mops.any fun m => m.cid = c.cid && m.kind < 5)

/-- CONTEXT_PREEMPT: the victim of the first instance, its work drained, leaves its slot; its instance is READY. -/
def execContextPreempt (cid : Nat) (s : State) : Host.Outcome State Fault Refusal :=
  match s.running? cid with
  | none => .next s
  | some c =>
    match s.pool c.id.part with
    | [] => .next s
    | (m, i) :: _ =>
      if s.issues c.id.part && s.keysOk m i && (s.placement i c.id.part none (s.coresOf c.id.part)).isNone &&
          ((latest (s.victims c.id.part i)).map Ctx.cid) = some cid && s.drainedCtx c then
        .next ((s.leaveSlot cid).readyAgain c.id.inst c.c.deadline)
      else .next s

/-- CONTEXT_RESUME: a pre-empted context whose instance has been placed again takes a slot of its core (R329, R334). -/
def execContextResume (cid core slot : Nat) (s : State) : Host.Outcome State Fault Refusal :=
  match s.ctx? cid with
  | none => .next s
  | some c =>
    match s.insts.get? c.id.inst with
    | none => .next s
    | some i =>
      if c.st.out && i.begun && s.goesOnOf i && s.gangOf i = 1 && c.id.core = core && s.issues c.id.part &&
          s.canStart c.id.inst i && (s.slotsFree core).contains slot then
        let s1 := (s.resume cid slot).modCtx cid fun c => { c with c := { c.c with deadline := i.deadline } }
        .next { s1.modInst c.id.inst (fun i => { i with st := 3 }) with
          cdq := s1.cdq.map fun e => (e.1, e.2.erase c.id.inst) }
      else .next s

end Sys2Proof.Machine
end

