-- ==== Sys2Proof/Machine/Copy.lean ====
section
/-! DEFINITION. The copy engine (R216-R219, R222-R224, R228, R402): what a copy, exchange or `xfin` checks at issue, and
its landing, COPY_LAND. -/
namespace Sys2Proof.Machine

/-! ## EX320 values (R84-R86) -/

/-- Body, tag and count of an EX320 value. -/
structure Ex where
  body : Int
  tag : Nat
  count : Nat
deriving DecidableEq, Repr

def exOfBytes (bs : List Byte) : Ex :=
  let n := natOfBytes bs
  let b := n % 2 ^ 320
  ⟨if 2 ^ 319 ≤ b then Int.ofNat b - 2 ^ 320 else Int.ofNat b, n / 2 ^ 320 % 256, n / 2 ^ 352 % 2 ^ 32⟩
def Ex.bytes (x : Ex) : List Byte :=
  bytesOfNat 40 (x.body % 2 ^ 320).toNat ++ bytesOfNat 1 x.tag ++ bytesOfNat 3 0 ++ bytesOfNat 4 x.count

/-- Add to the body: it wraps, and the tag records the overflow. -/
def Ex.addBody (x : Ex) (d : Int) : Ex :=
  let n := x.body + d
  if n < -(2 ^ 319) || 2 ^ 319 ≤ n then
    ⟨(n + 2 ^ 319) % 2 ^ 320 - 2 ^ 319, x.tag ||| 8, x.count⟩
  else { x with body := n }

/-- Add one addend (R85): the value and the flags. Every finite addend is a multiple of 2^−160. -/
def Ex.add (x : Ex) (v : FV) : Ex × Nat :=
  let x := { x with count := Nat.min (x.count + 1) (2 ^ 32 - 1) }
  match v with
  | .nan sig => ({ x with tag := x.tag ||| 1 }, if sig then fNV else 0)
  | .inf neg => ({ x with tag := x.tag ||| (if neg then 4 else 2) }, 0)
  | .fin neg m e =>
    let x := if neg && m = 0 then x else { x with tag := x.tag ||| 16 }
    (x.addBody (scaled neg m e (-160)), 0)

/-- Combine two values (R85). -/
def Ex.combine (p q : Ex) : Ex :=
  { ({ p with tag := p.tag ||| q.tag }).addBody q.body with count := Nat.min (p.count + q.count) (2 ^ 32 - 1) }

/-- Round to a float type (R86). -/
def Ex.round (ty : ETy) (x : Ex) : Nat × Nat :=
  let inf (neg : Bool) := (infTo ty false neg).1
  if x.tag.testBit 0 then (nanOf ty, 0)
  else if x.tag.testBit 1 && x.tag.testBit 2 then (nanOf ty, fNV)
  else if x.tag.testBit 3 then (nanOf ty, fNV)
  else if x.tag.testBit 1 then (inf false, 0)
  else if x.tag.testBit 2 then (inf true, 0)
  else if x.body = 0 then (signBits (tyWidth ty) (!x.tag.testBit 4 && x.count != 0), 0)
  else roundTo ty .rne false (x.body < 0) 0 ⟨x.body.natAbs, -160, false⟩

/-! ## The control word (R216) -/

def cwDty (c : Nat) : Option ETy := ETy.ofCode (c / 2 ^ 40 % 32)
def cwSty (c : Nat) : Option ETy := ETy.ofCode (c / 2 ^ 35 % 32)
def cwConv (c : Nat) : Bool := c.testBit 34
def cwMode (c : Nat) : Nat := c / 2 ^ 32 % 4
def cwFq (c : Nat) : Nat := c / 2 ^ 28 % 16
def cwFon (c : Nat) : Bool := c.testBit 27
def cwBar (c : Nat) : Nat := c / 2 ^ 23 % 16
def cwBon (c : Nat) : Bool := c.testBit 22

/-- A control word that `cpy` (or `cpys`) refuses. -/
def cwBad (c : Nat) (strided : Bool) : Bool :=
  c / 2 ^ 45 != 0 || c % 2 ^ 22 != 0 || cwMode c = 3 || (cwConv c && cwMode c != 0) ||
    (cwConv c && ((cwDty c).isNone || (cwSty c).isNone)) || (strided && cwMode c != 0)

def cwD (c : Nat) : ETy := (cwDty c).getD .f32
def cwS (c : Nat) : ETy := (cwSty c).getD .f32

/-- Destination bytes that a row of `n` source bytes gives, at most. -/
def cwOut (c n : Nat) : Nat :=
  if cwConv c then (n * 8 / tyWidth (cwS c) * tyWidth (cwD c) + 7) / 8
  else if cwMode c = 1 then 4096
  else if cwMode c = 2 then 4104
  else n
/-- Source bytes read under a control word. -/
def cwIn (c n : Nat) : Nat := if cwMode c = 2 then 4096 else n

/-! ## Addresses of an operation -/

def addr64 (a : Word) (k : Int) : Nat := (a + BitVec.ofInt 64 k).toNat

/-- Source bytes of a row. -/
def CopyOp.inLen (op : CopyOp) : Nat :=
  match op.kind with
  | 2 => 0
  | 5 => (op.len.toNat * tyWidth op.ty + 7) / 8
  | 6 => op.len.toNat * 48
  | _ => cwIn op.ctrl.toNat op.rowb
/-- Destination bytes of a row, at most. -/
def CopyOp.outLen (op : CopyOp) : Nat :=
  match op.kind with
  | 2 => op.rowb
  | 5 => op.len.toNat * 48
  | 6 => op.len.toNat * (tyWidth op.ty / 8)
  | _ => cwOut op.ctrl.toNat op.rowb
def CopyOp.srcRow (op : CopyOp) (r : Nat) : Nat := addr64 op.src (r * op.sstr)
def CopyOp.dstRow (op : CopyOp) (r : Nat) : Nat := addr64 op.dst (r * op.dstr)
def CopyOp.srcRanges (op : CopyOp) : List (Nat × Nat) :=
  if op.kind = 2 then [] else (List.range op.rows).map fun r => (op.srcRow r, op.inLen)
def CopyOp.dstRanges (op : CopyOp) : List (Nat × Nat) :=
  (List.range op.rows).map fun r => (op.dstRow r, op.outLen)

/-- A range cut at 4 KiB boundaries. -/
def pieces : Nat → Nat → Nat → List (Nat × Nat)
  | 0, _, _ => []
  | f + 1, va, n =>
    if n = 0 then []
    else
      let k := Nat.min n (4096 - va % 4096)
      (va, k) :: pieces f (va + k) (n - k)
def piecesOf (va n : Nat) : List (Nat × Nat) := pieces (n / 4096 + 2) va n

/-! ## Checks at issue -/

def copyIllop {α : Type} (operand : Nat) : M α := illop 0x06 operand
def isOwn (va : Nat) : Bool := va < 2 ^ 19

/-- The ranges of R217: own ranges in permitted banks; global memory from a memory core. -/
def needRanges (i : Instr) : List (Nat × Nat) → M Unit
  | [] => pure ()
  | (va, n) :: t => do
    let c := (← get).cx
    if isOwn va && !c.ownRange va n then copyIllop 4
    if onDeck c.id.core && (isGlobal va || isGlobal (va + n - 1)) then trap cUNITABSENT (opInfo 7 i)
    needRanges i t

/-- Ranges that must lie in own banks, or must not (R222, R224). -/
def needOwnness (own : Bool) : List (Nat × Nat) → M Unit
  | [] => pure ()
  | (va, _) :: t => do
    if isOwn va != own then copyIllop 4
    needOwnness own t

/-- The links that the traffic of a global or remote byte depends on: the bridge that stands in its way, the bridges it
crosses, and, for a frame of another device, the Wenkel port of the route, which stands on stack `port / 2` (R7, R400). -/
def State.linksFor (s : State) (c : Ctx) (va : Nat) : List Nat :=
  let a := coreStack c.id.core
  let via (b : Nat) : List Nat := (s.blocked a b).toList ++ s.crossed a b
  if isGlobal va then
    match s.translation (clusterOf c.id.core) c.id.part va with
    | .ok p =>
      let pa := p.unit (va / 65536) + va % 65536
      if isFabric pa then (if s.route pa < 128 then [] else via (s.route pa % 8 / 2) ++ [s.route pa % 8])
      else via (stackOf pa)
    | .error _ => []
  else if 0x1000000000 ≤ va && va < 0x1100000000 then via (coreStack (va / 2 ^ 20 % 4096))
  else []

/-- Is a link present on the variant (R24)? -/
def linkPresent (variant l : Nat) : Bool :=
  if l < 8 then (if variant = 1 then false else if variant = 2 then l < 4 else true)
  else if l < 12 then (if variant = 2 then l < 10 else true)
  else l = 12

/-- The links of the operation's traffic take traffic (R26, R394, R400, R403). -/
def needLinks (i : Instr) : List (Nat × Nat) → M Unit
  | [] => pure ()
  | (va, _) :: t => do
    let s ← get
    let ls := s.linksFor s.cx va
    if ls.any fun l => !linkPresent s.variant l then trap cUNITABSENT (opInfo 7 i)
    match ls.find? fun l => !s.carries l with
    | some l => trap cLINKDOWN (linkInfo l)
    | none => pure ()
    needLinks i t

/-- The published counter value whose slot begins at a byte and may be published. -/
def Ring.slotAt (r : Ring) (core key : Nat) : Option Nat :=
  ((List.range (cdiff r.rsv r.cons)).map (r.cons + ·)).find? fun p => r.key core p 0 = key && !r.published p

/-- A follow-on destination that may be published: the counter value of its slot (R216). -/
def State.followSlot (s : State) (core q key n : Nat) : Option Nat :=
  let r := s.ring core q
  if r.defd && n ≤ r.entryb then r.slotAt core key else none

/-- The checks of a follow-on publish at issue (R216). -/
def needFollow (op : CopyOp) : M Unit := do
  let c := op.ctrl.toNat
  if cwFon c then
    if isGlobal op.dst.toNat then copyIllop 2
    let s ← get
    if isOwn op.dst.toNat then
      match s.cx.ownBank op.dst.toNat with
      | .ok key =>
        if (s.followSlot s.cx.id.core (cwFq c) key (op.rows * op.outLen)).isNone then ringov 7 (cwFq c)
      | .error _ => copyIllop 4

/-- Shadow windows of the partition that are open (R363). -/
def Part.shadows (p : Part) : List Nat := (p.windows.filter fun w => !w.2.snap).map (·.1)

/-- Issue an operation: the engine takes it in order (R218). -/
def issueCopy (i : Instr) (op : CopyOp) (frees : M Unit) : M Unit := do
  needRanges i op.srcRanges
  needRanges i op.dstRanges
  needFollow op
  if op.srcRanges.any fun r => isOwn r.1 then needNoFaults
  let parts := (op.srcRanges ++ op.dstRanges).flatMap fun r => piecesOf r.1 r.2
  needLinks i parts
  needRoom 2
  frees
  modify fun s => s.modCore s.cx.id.core fun k => { k with copies := k.copies ++ [op] }
  count 2
  advance

/-- An operation of the context in hand with everything but its operands at rest. -/
def copyOf (s : State) (kind : Nat) (dst src len : Word) : CopyOp :=
  { cid := s.cx.cid, kind := kind, dst := dst, src := src, len := len, ctrl := 0, rows := 1, rowb := len.toNat, sstr := 0,
    dstr := 0, ty := .f32, rnd := .rne, sat := false, pc := s.cx.pc, sup := s.cx.sup, landed := [],
    wins := (s.part s.cx.id.part).shadows, lost := [], gen := none, ack := none }

/-- A length of 1 to 16 MiB. -/
def needLen (n : Nat) : M Unit := if n = 0 || 2 ^ 24 < n then copyIllop 1 else pure ()
/-- A conversion's rows hold whole source elements, and `.rsr` has a generator state (R65, R216). -/
def needConv (c n : Nat) (rnd : Rnd) : M Unit := do
  if cwConv c then
    if n * 8 % tyWidth (cwS c) != 0 then copyIllop 3
    if rnd = .rsr then needSeed

def freeOpt : Option Src → M Unit
  | some c => freeS c
  | none => pure ()

def execCpy (rnd : Rnd) (sat : Bool) (d : Nat) (a b : Src) (c : Option Src) (s : State) := run (do
  notInDrain
  let dst ← readS ⟨d, false⟩
  let src ← readS a
  let len ← readS b
  let w ← match c with | some c => readS c | none => pure 0
  if cwBad w.toNat false then copyIllop 2
  needLen len.toNat
  needConv w.toNat len.toNat rnd
  let s ← get
  issueCopy (.cpy rnd sat d a b c) { copyOf s 0 dst src len with ctrl := w, rnd := rnd, sat := sat }
    (do freeS a; freeS b; freeOpt c)) s

def execCpys (rnd : Rnd) (sat : Bool) (d : Nat) (a b : Src) (s : State) := run (do
  notInDrain
  let dst ← readS ⟨d, false⟩
  let src ← readS a
  let da := (← readS b).toNat
  let s ← get
  if da % 8 != 0 then copyIllop 3
  if !s.cx.ownRange da 32 then copyIllop 4
  needNoFaults
  let s ← get
  let x := natOfBytes (s.ownBytes s.cx da 32)
  let rows := x % 2 ^ 32
  let rowb := x / 2 ^ 32 % 2 ^ 32
  let w := x / 2 ^ 192
  if cwBad w true then copyIllop 2
  if rows = 0 || 65536 ≤ rows then copyIllop 1
  needLen rowb
  needLen (rows * rowb)
  needConv w rowb rnd
  issueCopy (.cpys rnd sat d a b)
    { copyOf s 1 dst src (BitVec.ofNat 64 rowb) with
      ctrl := BitVec.ofNat 64 w, rnd := rnd, sat := sat, rows := rows,
      sstr := (BitVec.ofNat 64 (x / 2 ^ 64)).toInt, dstr := (BitVec.ofNat 64 (x / 2 ^ 128)).toInt }
    (do freeS a; freeS b)) s

def execCpst (d : Nat) (a b : Src) (s : State) := run (do
  notInDrain
  let dst ← readS ⟨d, false⟩
  let len ← readS a
  let pat ← readS b
  needLen len.toNat
  if dst.toNat % 8 != 0 || len.toNat % 8 != 0 then copyIllop 3
  let s ← get
  issueCopy (.cpst d a b) (copyOf s 2 dst pat len) (do freeS a; freeS b)) s

/-! ## Exchange and `xfin` (R222-R224) -/

def execXput (d : Nat) (a b : Src) (s : State) := run (do
  notInDrain
  let dst ← readS ⟨d, false⟩
  let src ← readS a
  let len ← readS b
  needLen len.toNat
  let s ← get
  let op := copyOf s 3 dst src len
  needOwnness true op.srcRanges
  needOwnness false op.dstRanges
  issueCopy (.xput d a b) op (do freeS a; freeS b)) s

def execXget (d : Nat) (a b : Src) (s : State) := run (do
  notInDrain
  let dst ← readS ⟨d, false⟩
  let src ← readS a
  let len ← readS b
  needLen len.toNat
  let s ← get
  let op := copyOf s 4 dst src len
  needOwnness false op.srcRanges
  needOwnness true op.dstRanges
  issueCopy (.xget d a b) op (do freeS a; freeS b)) s

def needCount (n : Nat) : M Unit := if n = 0 || 2 ^ 20 < n then copyIllop 1 else pure ()

def execXred (ty : ETy) (d : Nat) (a b : Src) (s : State) := run (do
  notInDrain
  let dst ← readS ⟨d, false⟩
  let src ← readS a
  let n ← readS b
  needCount n.toNat
  if dst.toNat % 8 != 0 then copyIllop 3
  let s ← get
  let op := { copyOf s 5 dst src n with ty := ty }
  needOwnness true op.srcRanges
  issueCopy (.xred ty d a b) op (do freeS a; freeS b)) s

def execXfin (ty : ETy) (d : Nat) (a b : Src) (s : State) := run (do
  notInDrain
  let dst ← readS ⟨d, false⟩
  let src ← readS a
  let n ← readS b
  needCount n.toNat
  if src.toNat % 8 != 0 then copyIllop 3
  let s ← get
  issueCopy (.xfin ty d a b) { copyOf s 6 dst src n with ty := ty } (do freeS a; freeS b)) s

/-! ## The engine's reads and writes -/

/-- Where a piece of an engine's range lies, or the cause of its fault. -/
def State.engKey (s : State) (c : Ctx) (k : Acc) (va : Nat) : Except Nat Nat × State :=
  if isGlobal va then
    match translate (clusterOf c.id.core) c.id.part va s with
    | .ok (.ok p, t) =>
      let u := t.bringAt c.id.part va k p
      (u.place c.id.part va k p, u)
    | .ok (.error e, t) => (.error e, t)
    | .error _ => (.error 1, s)
  else (s.placeOutside c k va, s)

/-- Bytes an engine reads at a place; those of another device are not the model's. -/
def State.engBytes (s : State) (key n : Nat) : List Byte × State :=
  if isFabric key then
    ((List.range n).map fun i => Config.freeByte (s.free + i), { s with free := s.free + n })
  else (s.mem.bytes key n, s)

/-- What an engine has gathered: bytes, the keys they came from, the fault that ended it, and whether an own bank gave it
uncorrectable words: an own range never faults (R219). -/
structure Gathered where
  bytes : List Byte
  keys : List (Nat × Nat)
  fault : Option (Nat × Nat)
  spoilt : Bool

/-- Uncorrectable words among `n` bytes of a place. -/
def State.spoilt (s : State) (key n : Nat) : Bool := s.ecc.any fun w => w * 8 < key + n && key < w * 8 + 8

/-- The key of an own-bank byte whatever its word's state. -/
def Ctx.ownKey (c : Ctx) (va : Nat) : Option Nat := if isOwn va then (c.ownBank va).toOption else none

/-- Gather pieces in order until one faults. -/
def State.gather (s : State) (c : Ctx) : List (Nat × Nat) → Gathered × State
  | [] => (⟨[], [], none, false⟩, s)
  | (va, n) :: t =>
    match c.ownKey va, s.engKey c .engRead va with
    | some key, _ =>
      let bad := s.spoilt key n
      let r := if bad then ((List.range n).map fun i => Config.freeByte (s.free + i), { s with free := s.free + n })
        else (s.mem.bytes key n, s)
      let g := State.gather r.2 c t
      (⟨r.1 ++ g.1.bytes, (key, n) :: g.1.keys, g.1.fault, bad || g.1.spoilt⟩, g.2)
    | none, (.error e, s) => (⟨[], [], some (va, e), false⟩, s)
    | none, (.ok key, s) =>
      if s.spoilt key n then (⟨[], [], some (va, 5), false⟩, s) else
      let r := s.engBytes key n
      let g := State.gather r.2 c t
      (⟨r.1 ++ g.1.bytes, (key, n) :: g.1.keys, g.1.fault, g.1.spoilt⟩, g.2)

/-- The window a destination page lies in, where the operation writes its shadow copy: number, offset, frame (R363). -/
def Part.shadowOf (p : Part) (wins : List Nat) (va : Nat) : Option (Nat × Nat × Pte) :=
  p.windows.findSome? fun e =>
    let w := e.2
    if !w.snap && wins.contains e.1 && w.base ≤ va && va < w.base + w.npages * 65536 then
      (w.spares[(va - w.base) / 65536]?).map fun f => (e.1, va - w.base, f)
    else none

/-- Replace by free values the bytes whose place was also read as source (R217: overlap). -/
def freeOverlap (free key : Nat) (keys : List (Nat × Nat)) (bs : List Byte) : List Byte :=
  let near := keys.filter fun e => e.1 < key + bs.length && key < e.1 + e.2
  if near.isEmpty then bs
  else ((List.range bs.length).zip bs).map fun e =>
    if near.any fun k => k.1 ≤ key + e.1 && key + e.1 < k.1 + k.2 then Config.freeByte (free + e.1) else e.2

/-- Write the bytes of a piece whose operation offsets have not landed yet. -/
def State.putUnlanded (s : State) (key off : Nat) (landed : List (Nat × Nat)) (bs : List Byte) : State :=
  if landed.isEmpty then s.putShared key bs
  else ((List.range bs.length).zip bs).foldl (fun s e =>
    if landed.any fun r => r.1 ≤ off + e.1 && off + e.1 < r.1 + r.2 then s else s.putShared (key + e.1) [e.2]) s

/-- Mark offsets of a shadow window as written by an engine. -/
def Window.mark (w : Window) (off n : Nat) : Window :=
  { w with marked := w.marked.filter (fun o => o < off || off + n ≤ o) ++ (List.range n).map (off + ·) }

/-- A copy by a memory core at supervisor level whose destination covers the whole aligned block of an address (R359). -/
def CopyOp.covers (op : CopyOp) (c : Ctx) (va : Nat) : Bool :=
  let b := va / 4096 * 4096
  op.sup && !onDeck c.id.core && (op.kind = 2 || (op.kind ≤ 1 && cwMode op.ctrl.toNat != 2)) &&
    ((op.dstRanges.any fun r => r.1 ≤ b && b + 4096 ≤ r.1 + r.2) ||
      (List.range 4096).all fun i => op.dstRanges.any fun r => r.1 ≤ b + i && b + i < r.1 + r.2)

/-- Where an engine writes a byte: the visible place or the shadow copy, its block entered, or the cause of its fault. -/
def State.engDest (s : State) (c : Ctx) (op : CopyOp) (va : Nat) : Except Nat Nat × State :=
  if isGlobal va then
    match translate (clusterOf c.id.core) c.id.part va s with
    | .ok (.ok p, t) =>
      match t.placeRaw c.id.part va .engWrite p with
      | .error e => (.error e, t)
      | .ok pa =>
        if isFabric pa then (.ok pa, t)
        else
          let at_ := match (t.part c.id.part).shadowOf op.wins va with
            | some (_, _, f) => (f.frame + va % 65536, f.cmp)
            | none => (pa, p.cmp)
          match t.enterBlock c.id.part at_.2 (op.covers c va) (at_.1 / 4096) with
          | (some e, u) => (.error e, u)
          | (none, u) => (.ok at_.1, u)
    | .ok (.error e, t) => (.error e, t)
    | .error _ => (.error 1, s)
  else (s.placeOutside c .engWrite va, s)

/-- Write one piece; `off` is its offset in the operation's destination. -/
def State.engPut (s : State) (c : Ctx) (op : CopyOp) (va off : Nat) (keys : List (Nat × Nat)) (bs : List Byte) :
    Except Nat State × State :=
  if op.lost.any fun r => r.1 ≤ va && va < r.1 + r.2 then (.ok s, s)
  else match s.engDest c op va with
  | (.error e, t) => (.error e, t)
  | (.ok key, t) =>
    if isFabric key then (.ok t, t)
    else
      match (t.part c.id.part).shadowOf op.wins va with
      | some (w, o, _) =>
        let u := t.modPart c.id.part fun p => { p with windows := p.windows.modify w fun x => x.mark o bs.length }
        (.ok (u.putUnlanded key off op.landed bs), t)
      | none =>
        let bs := freeOverlap t.free key keys bs
        (.ok (({ t with free := t.free + bs.length }).putUnlanded key off op.landed bs), t)

/-- Pieces of a list, each with the number of bytes of the list up to its end. -/
def endsOf : List (Nat × Nat) → Nat → List (Nat × Nat)
  | [], _ => []
  | (va, k) :: t, n => (va, n + k) :: endsOf t (n + k)

/-- The blocks that the first `n` bytes of an operation have written whole are poisoned no more (R359); a write lost with its
shadow has written none. -/
def State.clearPoison (s : State) (c : Ctx) (op : CopyOp) (n : Nat) : State :=
  if s.poison.isEmpty then s
  else
    let ps := endsOf (op.dstRanges.flatMap fun r => piecesOf r.1 r.2) 0
    ps.foldl (fun s e =>
      if op.covers c e.1 && (ps.all fun x => x.1 / 4096 != e.1 / 4096 || x.2 ≤ n) &&
          !(op.lost.any fun r => r.1 ≤ e.1 && e.1 < r.1 + r.2) then
        match s.engDest c op e.1 with
        | (.ok key, _) => { s with poison := s.poison.erase (key / 4096) }
        | _ => s
      else s) s

/-- Write bytes piece by piece until one faults: the state, the bytes landed, the fault. -/
def State.engWrite (s : State) (c : Ctx) (op : CopyOp) (off : Nat) (keys : List (Nat × Nat)) :
    List (Nat × Nat) → List Byte → Nat → State × Nat × Option (Nat × Nat)
  | [], _, n => (s, n, none)
  | (va, k) :: t, bs, n =>
    match s.engPut c op va (off + n) keys (bs.take k) with
    | (.error e, s1) => (s1, n, some (va, e))
    | (.ok s1, _) => State.engWrite s1 c op off keys t (bs.drop k) (n + k)

/-! ## What the engine makes of a row -/

/-- What a row becomes: bytes, flags, the generator's state, and a codec error (R216, R241). -/
structure RowOut where
  bytes : List Byte
  flags : Nat
  seed : Word
  bad : Option (Nat × Nat)

/-- Elements of a width in a list of bytes. -/
def elemsOf (w : Nat) (bs : List Byte) : List Nat :=
  let n := natOfBytes bs
  (List.range (bs.length * 8 / w)).map fun i => n / 2 ^ (w * i) % 2 ^ w

/-- Convert one element of the copy path, through f32 (R90). -/
def convCopy (c : Nat) (rnd : Rnd) (sat : Bool) (x u : Nat) : Nat × Nat :=
  let st := cwS c
  let one := if st = .f32 then (x, 0) else convTo .f32 .rne false 0 (decElem st x)
  let two := convTo (cwD c) rnd sat u (decElem .f32 one.1)
  (two.1, one.2 ||| two.2)

/-- Bytes the spec leaves undefined. -/
def freeBytes (free n : Nat) : List Byte := (List.range n).map fun i => Config.freeByte (free + i)

def CopyOp.rowOut (op : CopyOp) (free : Nat) (seed : Word) (bs : List Byte) : RowOut :=
  let c := op.ctrl.toNat
  if op.kind = 2 then
    ⟨(List.replicate (op.rowb / 8) (bytesOfNat 8 op.src.toNat)).flatten, 0, seed, none⟩
  else if cwConv c then
    let xs := elemsOf (tyWidth (cwS c)) bs
    let g := if op.rnd = .rsr then genRun xs.length seed else ([], seed)
    let rs := (xs.zip (List.range xs.length)).map fun e => convCopy c op.rnd op.sat e.1 (g.1.getD e.2 0)
    let w := tyWidth (cwD c)
    ⟨bytesOfNat ((xs.length * w + 7) / 8) (packNat w (rs.map (·.1))), orFlags rs, g.2, none⟩
  else if cwMode c = 1 then
    match expandBlock (natOfBytes (bs.take 8)) (bs.drop 8) with
    | .ok l => ⟨l, 0, seed, none⟩
    | .error e => ⟨freeBytes free 4096, 0, seed, some e⟩
  else if cwMode c = 2 then ⟨compressBlock bs, 0, seed, none⟩
  else ⟨bs, 0, seed, none⟩

/-! ## Landing -/

/-- How far a landing has come. -/
structure Landing where
  s : State
  bytes : Nat
  fault : Option (Nat × Nat)
  flags : Nat
  seed : Word
  bad : Option (Nat × Nat)
  spoilt : Bool

/-- Land a row whose bytes are gathered. A partial row (its source faulted) gives no codec block. -/
def CopyOp.landRow (op : CopyOp) (c : Ctx) (r : Nat) (g : Gathered) (keys : List (Nat × Nat)) (l : Landing) : Landing :=
  let out :=
    if g.fault.isSome && cwMode op.ctrl.toNat != 0 && op.kind ≤ 1 then ⟨[], 0, l.seed, none⟩
    else op.rowOut l.s.free l.seed g.bytes
  let s0 := { l.s with free := l.s.free + 4096 }
  let w := s0.engWrite c op (r * op.outLen) keys (piecesOf (op.dstRow r) out.bytes.length) out.bytes 0
  ⟨w.1, l.bytes + w.2.1, match w.2.2 with | some f => some f | none => g.fault, l.flags ||| out.flags, out.seed,
    match l.bad with | some b => some b | none => out.bad, l.spoilt || g.spoilt⟩

/-- Gather every row until one faults. -/
def State.gatherRows (s : State) (c : Ctx) (op : CopyOp) : List Nat → List (Nat × Gathered) × State
  | [] => ([], s)
  | r :: t =>
    let g := s.gather c (if op.kind = 2 then [] else piecesOf (op.srcRow r) op.inLen)
    if g.1.fault.isSome then ([(r, g.1)], g.2)
    else
      let rest := State.gatherRows g.2 c op t
      ((r, g.1) :: rest.1, rest.2)

def landRows (op : CopyOp) (c : Ctx) (keys : List (Nat × Nat)) : List (Nat × Gathered) → Landing → Landing
  | [], l => l
  | (r, g) :: t, l =>
    let m := op.landRow c r g keys l
    if m.fault.isSome then m else landRows op c keys t m

/-- A reduce message joins a link's queue: two to one destination are combined (R402). -/
def Link.addReduce (l : Link) (m : Reduce) : Link :=
  if l.reduces.any fun x => x.dst = m.dst then
    { l with reduces := l.reduces.map fun x =>
        if x.dst = m.dst then
          { x with value := (Ex.combine (exOfBytes x.value) (exOfBytes m.value)).bytes, froms := x.froms ++ m.froms }
        else x }
  else { l with reduces := l.reduces ++ [m] }

/-- The 48 bytes of an EX320 value as an `xred` of the operation sees them: bytes that an engine has written into an open
shadow of the range from the shadow copy, others from the visible one. -/
def State.exBytes (s : State) (c : Ctx) (op : CopyOp) : List (Nat × Nat) → Except (Nat × Nat) (List Byte) × State
  | [] => (.ok [], s)
  | (va, n) :: t =>
    match s.engKey c .engWrite va with
    | (.error e, s) => (.error (va, e), s)
    | (.ok key, s) =>
      let u := (s.engDest c op va).2
      let bs := match (u.part c.id.part).shadowOf op.wins va with
        | some (w, o, f) => (List.range n).map fun i =>
            if ((u.part c.id.part).windows.get? w).any fun x => x.marked.contains (o + i) then
              u.mem.read (f.frame + va % 65536 + i)
            else u.mem.read (key + i)
        | none => u.mem.bytes key n
      let s := u
      match State.exBytes s c op t with
      | (.ok r, s) => (.ok (bs ++ r), s)
      | (.error e, s) => (.error e, s)

/-- Add addends to the values of an `xred`, one after another (R224, R402). -/
def landReds (op : CopyOp) (c : Ctx) (keys : List (Nat × Nat)) : List Nat → Nat → Landing → Landing
  | [], _, l => l
  | x :: t, i, l =>
    let va := addr64 op.dst (48 * i)
    let ps := piecesOf va 48
    match l.s.engKey c .engWrite va with
    | (.error e, s) => { l with s := s, fault := some (va, e) }
    | (.ok key, s) =>
      if op.landed.contains (48 * i, 48) then
        landReds op c keys t (i + 1)
          { l with bytes := l.bytes + 48, flags := l.flags ||| ((Ex.mk 0 0 0).add (decElem op.ty x)).2 }
      else if isFabric key then
        let r := (Ex.mk 0 0 0).add (decElem op.ty x)
        let s := s.modLink (s.route key % 8) fun k => k.addReduce ⟨key, r.1.bytes, [some op.cid]⟩
        landReds op c keys t (i + 1) { l with s := s, bytes := l.bytes + 48, flags := l.flags ||| r.2 }
      else
        match s.exBytes c op ps with
        | (.error f, s) => { l with s := s, fault := some f }
        | (.ok bs, s) =>
          let r := (exOfBytes bs).add (decElem op.ty x)
          let w := s.engWrite c op (48 * i) keys ps r.1.bytes 0
          let m := { l with s := w.1, bytes := l.bytes + w.2.1, fault := w.2.2, flags := l.flags ||| r.2 }
          if m.fault.isSome then m else landReds op c keys t (i + 1) m

/-- 48-byte values in a list of bytes. -/
def exList : Nat → List Byte → List Ex
  | 0, _ => []
  | n + 1, bs => exOfBytes (bs.take 48) :: exList n (bs.drop 48)

/-- Carry out an operation. -/
def State.landOp (s : State) (c : Ctx) (op : CopyOp) : Landing :=
  let g := s.gatherRows c op (List.range op.rows)
  let keys := g.1.flatMap fun e => e.2.keys
  let l : Landing := ⟨g.2, 0, none, 0, op.gen.getD c.c.srseed, none, g.1.any fun e => e.2.spoilt⟩
  match op.kind, g.1 with
  | 5, (_, x) :: _ =>
    landReds op c keys ((elemsOf (tyWidth op.ty) x.bytes).take op.len.toNat) 0 l
  | 6, (_, x) :: _ =>
    let rs := (exList (x.bytes.length / 48) x.bytes).map (Ex.round op.ty)
    let bs := rs.flatMap fun r => bytesOfNat (tyWidth op.ty / 8) r.1
    let w := g.2.engWrite c op 0 keys (piecesOf op.dst.toNat bs.length) bs 0
    { l with s := w.1, bytes := w.2.1, fault := match w.2.2 with | some f => some f | none => x.fault,
             flags := orFlags rs }
  | _, rows => landRows op c keys rows l

/-- The core that owns a destination, and the key of its first byte; none for a global one. -/
def State.dstHome (s : State) (c : Ctx) (op : CopyOp) : Option (Nat × Nat) :=
  match s.placeOutside c .engWrite op.dst.toNat with
  | .ok key => some ((key - 2 ^ 56) / 2 ^ 19, key)
  | .error _ => none

/-- The follow-on publish (R216). -/
def State.follow (s : State) (c : Ctx) (op : CopyOp) (n : Nat) : State :=
  let w := op.ctrl.toNat
  if op.kind ≤ 1 && cwFon w then
    match s.dstHome c op with
    | none => s.defer op.cid cRINGOV (ringInfo true 7 (cwFq w)) none
    | some (core, key) =>
      match s.followSlot core (cwFq w) key n with
      | some p => s.modRing core (cwFq w) fun r => r.publish p 1
      | none => s.defer op.cid cRINGOV (ringInfo true 7 (cwFq w)) none
  else s

/-- `n` bytes of an operation land against its barrier (R216, R344). -/
def State.landBar (s : State) (c : Ctx) (op : CopyOp) (n : Nat) : State :=
  let w := op.ctrl.toNat
  if op.kind ≤ 1 && cwBon w && n != 0 then
    let cl := match s.dstHome c op with | some (core, _) => clusterOf core | none => clusterOf c.id.core
    s.landBytes cl (cwBar w) n op.cid
  else s

/-- The longest prefix of an operation that has landed early, looked for from `n` on. -/
def CopyOp.prefix (op : CopyOp) (n : Nat) : Nat → Nat
  | 0 => n
  | k + 1 => match op.landed.find? fun r => r.1 ≤ n && n < r.1 + r.2 with
    | some r => CopyOp.prefix op (r.1 + r.2) k
    | none => n

/-- What a faulted copy's entry says (R219, R325); what the spec does not say of it is left free. -/
def copyBad (c : Ctx) (op : CopyOp) (free va cause landed flags : Nat) : Bad :=
  { cid := op.cid, part := c.id.part, ctxid := c.ctxid, pc := op.pc, addr := BitVec.ofNat 64 va, opk := 4, cause := cause,
    dkind := 0, dreg := 0, width := Config.freePick free % 16, lmask := Config.freePick (free + 1) % 2 ^ 128, data := [],
    aux := landed, counted := true, access := none, exch := 3 ≤ op.kind && op.kind ≤ 5, flags := flags, atom := none, posted := none }

/-- `tinfo` of a deferred `DCOMP` (R241). A metadata entry in error has no reason there: a free value. -/
def dcompInfo (free : Nat) (e : Nat × Nat) : Word :=
  BitVec.ofNat 64 (2 ^ 63 + (if e.1 = 0 then Config.freePick free % 16 else e.1) * 2 ^ 32 + e.2 % 2 ^ 32)

/-- The links that an operation's ranges depend on. -/
def State.linksOf (s : State) (c : Ctx) (rs : List (Nat × Nat)) : List Nat :=
  rs.flatMap fun r => (piecesOf r.1 r.2).flatMap fun p => s.linksFor c p.1
/-- `tinfo` of the deferred `POISON` of a copy whose own source holds uncorrectable words (R323). -/
def spoiltInfo : Word := BitVec.ofNat 64 (2 ^ 63 + 3 * 2 ^ 60)

/-- The operation completes (R61, R68). -/
def State.copyDone (s : State) (op : CopyOp) (flags : Nat) : State :=
  (s.modCtx op.cid fun c => c.setFlags flags).uncount op.cid 2

/-- All `n` bytes of an operation have landed: poison, follow-on, barrier and completion. -/
def State.copyEnds (s : State) (c : Ctx) (op : CopyOp) (flags n : Nat) : State :=
  (((s.clearPoison c op n).follow c op n).landBar c op n).copyDone op flags

/-- The operation at the head of a core's engine leaves it. -/
def State.popCopy (s : State) (core : Nat) : State := s.modCore core fun k => { k with copies := k.copies.drop 1 }

/-- The operation draws on its context's generator (R65). -/
def CopyOp.draws (op : CopyOp) : Bool := cwConv op.ctrl.toNat && op.rnd = .rsr

/-- Finish a landing: the fault's entry, or flags, follow-on, barrier and completion. -/
def Landing.finish (l : Landing) (core : Nat) (c : Ctx) (op : CopyOp) (ports : List Nat) : State :=
  let s1 := l.s.popCopy core
  let s2 := s1.modCtx op.cid fun c => if op.draws && op.gen.isNone then { c with c := { c.c with srseed := l.seed } } else c
  let s2 := if l.spoilt then s2.defer op.cid cPOISON spoiltInfo none else s2
  match l.fault with
  | some (va, cause) =>
    let s2 := s2.clearPoison c op l.bytes
    let s3 := s2.addBad (copyBad c op s2.free va cause l.bytes l.flags)
    if op.kind = 0 then s3.landBar c op l.bytes else s3
  | none =>
    let s3 := match l.bad with
      | some e => { s2.defer op.cid cDCOMP (dcompInfo s2.free e) none with free := s2.free + 1 }
      | none => s2
    match ports with
    | [] => s3.copyEnds c op l.flags l.bytes
    | _ => s3.modCore core fun k => { k with copies := { op with ack := some (ports, l.flags, l.bytes) } :: k.copies }

/-- The first address of an operation whose traffic depends on a link. -/
def State.addrOn (s : State) (c : Ctx) (op : CopyOp) (l : Nat) : Nat :=
  match ((op.srcRanges ++ op.dstRanges).flatMap fun r => piecesOf r.1 r.2).find? fun p => (s.linksFor c p.1).contains l with
  | some p => p.1
  | none => op.dst.toNat

/-- The operation at the head of an engine is abandoned: its port has failed before it landed whole (R219, R403). The flags
of what a conversion has landed early are left to choice. -/
def State.abandonOp (s : State) (core : Nat) (c : Ctx) (op : CopyOp) (l : Nat) : State :=
  let n := op.prefix 0 op.landed.length
  let flags := if n != 0 && cwConv op.ctrl.toNat then Config.freePick (s.free + 2) % 64 else 0
  let s1 := ((s.popCopy core).clearPoison c op n).addBad (copyBad c op s.free (s.addrOn c op l) 3 n flags)
  let s2 := { s1 with free := s1.free + 1 }
  if op.kind = 0 then s2.landBar c op n else s2

/-- The engines of a partition run: its contexts issue, or a halt-tree stop has not reached them yet (R332, R333). -/
def State.enginesRun (s : State) (p : Nat) : Bool := s.issues p || (s.part p).pstate = 4

/-- COPY_LAND: the operation at the head of a core's copy engine lands (R218, R228). It waits while an earlier atomic of
its context is on its way (R199), while a link of its traffic is not UP (R394) or has no credit or room for its flits (R398,
R399), and for the acknowledgment of another device. The reduce messages of an `xred` leave with flits of their own. -/
def execCopyLand (core : Nat) (s : State) : Host.Outcome State Fault Refusal :=
  match (s.core core).copies with
  | [] => .next s
  | op :: _ =>
    match s.ctx? op.cid with
    | none => .next (s.popCopy core)
    | some c =>
      let links := (s.linksOf c (op.srcRanges ++ op.dstRanges)).eraseDups
      if op.ack.isSome || !s.enginesRun c.id.part || s.atoms.any (fun e => e.2.cid = op.cid) ||
          links.any (fun l => !s.crosses l && (8 ≤ l || s.carries l))
      then .next s
      else match links.find? fun l => !s.carries l with
        | some l => .next (s.abandonOp core c op l)
        | none =>
          match s.flitsOn 0 1 (links.filter fun l => 8 ≤ l || op.kind != 5) with
          | none => .next s
          | some t => .next ((t.landOp c op).finish core c op (links.filter fun l => l < 8))

/-! ## Bytes that land before the operation ends (R246) -/

/-- The operation moves bytes as they are. -/
def CopyOp.plain (op : CopyOp) : Bool := op.kind ≤ 4 && !cwConv op.ctrl.toNat && cwMode op.ctrl.toNat = 0

/-- Elements that the rows of an operation before row `r` convert, each of which draws once (R65). -/
def CopyOp.drawn (op : CopyOp) (r : Nat) : Nat := r * (op.inLen * 8 / tyWidth (cwS op.ctrl.toNat))

/-- A stochastic conversion begins to land: it draws for all its elements. -/
def State.startDraws (s : State) (core : Nat) (op : CopyOp) : State :=
  match s.ctx? op.cid with
  | none => s
  | some c =>
    let u := s.modCore core fun k => { k with copies := { op with gen := some c.c.srseed } :: k.copies.drop 1 }
    u.modCtx op.cid fun c => { c with c := { c.c with srseed := (genRun (op.drawn op.rows) c.c.srseed).2 } }

/-- `n` bytes of a place lie in the operation's source, whose bytes do not land early. -/
def State.inSource (s : State) (c : Ctx) (op : CopyOp) (key n : Nat) : Bool :=
  (s.gatherRows c op (List.range op.rows)).1.any fun e => e.2.keys.any fun k => k.1 < key + n && key < k.1 + k.2

/-- The place of a destination byte that may land early: a block that cannot be expanded is written whole or not at all. -/
def State.earlyKey (s : State) (c : Ctx) (op : CopyOp) (va n : Nat) : Option Nat :=
  match (s.engKey c .engWrite va).1, (s.engDest c op va).1 with
  | .error 7, _ => none
  | _, .ok key => if s.inSource c op key n then none else some key
  | _, .error _ => none

/-- The bytes that an operation makes of what its row has gathered, where the row is sound. -/
def CopyOp.rowBytes (op : CopyOp) (c : Ctx) (free r : Nat) (g : Gathered) : Option (List Byte) :=
  if g.fault.isSome || g.spoilt then none
  else if op.kind = 6 then
    some ((exList (g.bytes.length / 48) g.bytes).flatMap fun x => bytesOfNat (tyWidth op.ty / 8) (x.round op.ty).1)
  else
    let out := op.rowOut free (genRun (if op.draws then op.drawn r else 0) (op.gen.getD c.c.srseed)).2 g.bytes
    if out.bad.isSome then none else some out.bytes

/-- The destination byte at an offset of an operation, read now; none where it cannot land early. -/
def State.outByte (s : State) (c : Ctx) (op : CopyOp) (off : Nat) : Option Byte × State :=
  let n := op.outLen
  if op.kind = 2 then (some (BitVec.ofNat 8 (op.src.toNat / 256 ^ (off % n % 8))), s)
  else if op.plain then
    let g := s.gather c [(op.srcRow (off / n) + off % n, 1)]
    (if g.1.fault.isSome || g.1.spoilt then none else g.1.bytes.head?, g.2)
  else
    let g := s.gather c (piecesOf (op.srcRow (off / n)) op.inLen)
    ((op.rowBytes c s.free (off / n) g.1).bind fun bs => bs[off % n]?, g.2)

/-- Offsets of the operation at the head of an engine have landed. -/
def State.markLanded (s : State) (core off n : Nat) : State :=
  s.modCore core fun k =>
    { k with copies := match k.copies with
        | [] => []
        | x :: rest => { x with landed := (off, n) :: x.landed } :: rest }

/-- One destination byte of the operation at the head of an engine lands early, where it may; of an `xred`, the addition of
the element with that number. -/
def State.beatByte (s : State) (core : Nat) (c : Ctx) (op : CopyOp) (off : Nat) : State :=
  if op.kind = 5 then
    let g := s.gather c (piecesOf (op.srcRow 0) op.inLen)
    let x := (elemsOf (tyWidth op.ty) g.1.bytes)[off]?
    if g.1.fault.isSome || g.1.spoilt || op.len.toNat ≤ off || op.landed.contains (48 * off, 48) then s
    else
      match x, s.earlyKey c op (addr64 op.dst (48 * off)) 48 with
      | some x, some key =>
        if isFabric key then s
        else
          let m := landReds op c [] [x] off ⟨g.2, 0, none, 0, c.c.srseed, none, false⟩
          if m.fault.isSome then s else m.s.markLanded core (48 * off) 48
      | _, _ => s
  else if op.rows * op.outLen ≤ off || op.landed.any (fun e => e.1 ≤ off && off < e.1 + e.2) then s
  else match s.outByte c op off with
    | (none, _) => s
    | (some b, t) =>
      let va := op.dstRow (off / op.outLen) + off % op.outLen
      if (s.earlyKey c op va 1).isNone then s
      else match t.engPut c op va off [] [b] with
        | (.error _, _) => s
        | (.ok u, _) => u.markLanded core off 1

/-- Some bytes land early: offsets `off` to `off + n - 1`. -/
def State.beat (s : State) (core off : Nat) : Nat → State
  | 0 => s
  | n + 1 =>
    match (s.core core).copies with
    | [] => s
    | op :: _ =>
      match s.ctx? op.cid with
      | none => s
      | some c =>
        if op.ack.isSome || !s.enginesRun c.id.part || s.atoms.any (fun e => e.2.cid = op.cid) ||
            (s.linksOf c (op.srcRanges ++ op.dstRanges)).any fun l => !s.crosses l then s
        else if op.draws && op.gen.isNone then State.beat (s.startDraws core op) core off n
        else State.beat (s.beatByte core c op off) core (off + 1) n

end Sys2Proof.Machine
end

