-- ==== Sys2Proof/Machine/MemInstr.lean ====
section
/-! DEFINITION. The memory instructions of page 3 (R199-R210). -/
namespace Sys2Proof.Machine

/-- The code of an element type (R115). -/
def tyCode : ETy → Nat
  | .f32 => 0
  | .bf16 => 1
  | .f16 => 2
  | .e4m3 => 3
  | .e5m2 => 4
  | .mk8 => 5
  | .e2m1 => 6
  | .i32 => 7
  | .n32 => 8
  | .i16 => 9
  | .n16 => 10
  | .i8 => 11
  | .n8 => 12
  | .i64 => 13
  | .n64 => 14

/-- An element extended to 64 bits by its type (R202). -/
def extendTy (ty : ETy) (v : Nat) : Word := BitVec.ofInt 64 (intOf ty v)

/-! ## Scalar and vector accesses (R202, R203) -/

def execLdx (ty : ETy) (d : Nat) (a : Src) (imm : Int) (s : State) := run (do
  let x ← readS a
  loadS .load d (x + immW imm) (tyWidth ty / 8) (tyCode ty) (extendTy ty) (freeS a)) s

def execStx (ty : ETy) (d a : Src) (imm : Int) (s : State) := run (do
  let x ← readS a
  let v ← readS d
  storeS (x + immW imm) (tyWidth ty / 8) (tyCode ty) (v.toNat % 2 ^ tyWidth ty) (do freeS a; freeS d)) s

def execVldu (q : MQ) (d : Nat) (a : Src) (imm : Int) (s : State) := run (do
  let x ← readS a
  loadV .load (tyWidth q.ty) q.k q.zero d (x + immW imm) (freeS a)) s

def execVstm (_ty : ETy) (k : Nat) (d a : Src) (imm : Int) (s : State) := run (do
  let x ← readS a
  let v ← readV d
  let mask ← readK k
  storeBytes (x + immW imm) ((List.range 128).filter fun j => mask.getLsbD j) (vBytes v) (do freeS a; freeV d)) s

def execLdc (ty : ETy) (d : Nat) (a : Src) (imm : Int) (s : State) := run (do
  let x ← readS a
  loadS .const d (x + immW imm) (tyWidth ty / 8) (tyCode ty) (extendTy ty) (freeS a)) s

def execVldc (q : MQ) (d : Nat) (a : Src) (imm : Int) (s : State) := run (do
  let x ← readS a
  let ea := eaV x imm
  if ea.toNat % 128 != 0 then trap cALIGN ea
  loadV .const (tyWidth q.ty) q.k q.zero d ea (freeS a)) s

/-! ## Gather and scatter (R204) -/

/-- Address and nibble of a lane's element (R204). -/
def laneAddr (w : Nat) (base : Word) (x : Int) : Word × Nat :=
  if w = 4 then (base + BitVec.ofInt 64 (x / 2), (x % 2).toNat) else (base + BitVec.ofInt 64 (x * (w / 8)), 0)

/-- The active lanes with their addresses and nibbles. -/
def lanesOf (ty : ETy) (mask : KReg) (base : Word) (idx : VReg) : List (Nat × Word × Nat) :=
  ((List.range 32).filter fun l => active 32 mask l).map fun l =>
    (l, laneAddr (tyWidth ty) base (intOf .i32 (elem 32 idx l)))

/-- The lowest active lane must not be misaligned (R204). -/
def needLanesAligned (ty : ETy) (lanes : List (Nat × Word × Nat)) : M Unit :=
  match lanes.find? fun l => l.2.1.toNat % (tyWidth ty / 8 + (if tyWidth ty = 4 then 1 else 0)) != 0 with
  | some l => trap cALIGN l.2.1
  | none => pure ()

/-- Read one element of a gather. -/
def gatherOne (ty : ETy) (nib : Nat) (key : Nat) : M Nat := do
  if tyWidth ty = 4 then do
    let b ← readPlace key 1
    pure (if nib = 0 then b % 16 else b / 16)
  else do
    let v ← readPlace key (tyWidth ty / 8)
    pure (BitVec.ofInt 32 (intOf ty v)).toNat

def gatherAll (ty : ETy) : List ((Nat × Word × Nat) × Except Nat Nat) → M (List (Nat × Nat))
  | [] => pure []
  | (l, .ok key) :: t => do
    let v ← gatherOne ty l.2.2 key
    let r ← gatherAll ty t
    pure ((l.1, v) :: r)
  | (_, .error _) :: t => gatherAll ty t

/-- The pages of faulting lanes, each with the destination bytes of its lanes. -/
def faultLanes : List ((Nat × Word × Nat) × Nat × Except Nat Nat) → List PageFault → List PageFault
  | [], acc => acc
  | (l, pg, .error c) :: t, acc => faultLanes t (addFault pg l.2.1.toNat c (byteMask (4 * l.1) 4) acc)
  | (_, _, .ok _) :: t, acc => faultLanes t acc

def execVgath (q : MQ) (d : Nat) (a b : Src) (s : State) := run (do
  let base ← readS a
  let idx ← readV b
  let mask ← readK q.k
  let old ← readOld false q.k q.zero d
  let lanes := lanesOf q.ty mask base idx
  needLanesAligned q.ty lanes
  let frees : M Unit := do freeS a; freeV b
  let fill (got : List (Nat × Nat)) : VReg := packV 32 ((List.range 32).map fun l =>
    match got.find? fun g => g.1 = l with
    | some g => g.2
    | none => if q.zero || q.k = 0 then 0 else elem 32 old l)
  if lanes.isEmpty then do
    frees
    writeV d (fill [])
  else do
    needNoFaults
    needRoom 0
    frees
    let places ← locateMany (← get).cx .load (lanes.map fun l => l.2.1.toNat)
    let places := spread places
    let got ← gatherAll q.ty (lanes.zip (places.map (·.2)))
    writeV d (fill got)
    let bad := faultLanes (lanes.zip places) []
    if bad.isEmpty then count 0
    else
      let c := (← get).cx
      faultedAll (fun id => modRegs fun r => r.pendV d id) (bad.map fun e =>
        (addrOnly .load e.va e.cause, badOf c (BitVec.ofNat 64 e.va) 0 e.cause 2 d (tyCode q.ty) e.mask [] 0))
  advance) s

/-- The nibble `v` at nibble `nib` of a byte. -/
def putNibble (b nib v : Nat) : Nat := if nib = 0 then b / 16 * 16 + v % 16 else b % 16 + v % 16 * 16

/-- A masked nibble write at the second-level cache (R234): the first-level word goes home and is invalidated first. -/
def State.putNibbleAt (s : State) (key nib v : Nat) : State :=
  let s1 := if isDram key && s.cx.ways != 0 then
      s.setLines (s.cx.l1.data.map fun l => if l.line = key / 128 then
        { l with valid := l.valid &&& ~~~(wordMask key 1), written := l.written &&& ~~~(wordMask key 1) } else l)
    else s
  s1.putShared key [BitVec.ofNat 8 (putNibble (s1.mem.read key).toNat nib v)]

/-- The stores of a scatter in ascending lane order (R204). -/
def scatterAll (ty : ETy) (v : VReg) : List ((Nat × Word × Nat) × Except Nat Nat) → State → State
  | [], s => s
  | (l, .ok key) :: t, s =>
    let x := elem 32 v l.1
    scatterAll ty v t (if tyWidth ty = 4 then s.putNibbleAt key l.2.2 x
      else s.putStore key (bytesOfNat (tyWidth ty / 8) x))
  | (_, .error _) :: t, s => scatterAll ty v t s

/-- The store entry of a faulting lane (R204, R325). -/
def scatterBad (ty : ETy) (c : Ctx) (v : VReg) (l : Nat × Word × Nat) (cause : Nat) : Bool × Bad :=
  let x := elem 32 v l.1
  let n := if tyWidth ty = 4 then 1 else tyWidth ty / 8
  let data := if tyWidth ty = 4 then [BitVec.ofNat 8 (putNibble 0 l.2.2 x)] else bytesOfNat n x
  (addrOnly .store l.2.1.toNat cause, badOf c l.2.1 1 cause 0 0 (tyCode ty) (byteMask 0 n) data l.2.2)

def execVscat (ty : ETy) (k : Nat) (a b c : Src) (s : State) := run (do
  let base ← readS a
  let idx ← readV b
  let v ← readV c
  let mask ← readK k
  let lanes := lanesOf ty mask base idx
  needLanesAligned ty lanes
  let frees : M Unit := do freeS a; freeV b; freeV c
  if lanes.isEmpty then frees
  else do
    needNoFaults
    needRoom 1
    frees
    let places ← locateMany (← get).cx .store (lanes.map fun l => l.2.1.toNat)
    let both := lanes.zip (places.map (·.2))
    let cx := (← get).cx
    let bad := both.filterMap fun e =>
      match e.2 with
      | .error cause => some (scatterBad ty cx v e.1 cause)
      | .ok _ => none
    if bad.isEmpty then count 1 else faultedAll (fun _ => pure ()) bad
    modify (scatterAll ty v both)
  advance) s

/-! ## Atomics (R205-R208, R425) -/

/-- The new value of an `amo` (R205), with flags; `w` is the width in bits. -/
def amoNew (op w old b : Nat) : Nat × Nat :=
  let sg (x : Nat) : Int := if x.testBit (w - 1) then (x : Int) - 2 ^ w else x
  match op with
  | 0 => (b, 0)
  | 1 => ((old + b) % 2 ^ w, 0)
  | 2 => (old &&& b, 0)
  | 3 => (old ||| b, 0)
  | 4 => (old ^^^ b, 0)
  | 5 => (if sg b < sg old then b else old, 0)
  | 6 => (if sg old < sg b then b else old, 0)
  | 7 => (if b < old then b else old, 0)
  | 8 => (if old < b then b else old, 0)
  | _ => addFloat .f32 .rne false 0 (decF32 old) (decF32 b)

def amoCode : AmoOp → Nat
  | .swap => 0
  | .add => 1
  | .and => 2
  | .or => 3
  | .xor => 4
  | .min => 5
  | .max => 6
  | .minu => 7
  | .maxu => 8
  | .fadd => 9

/-- The sum of the active lanes below `l` (R207). -/
def aggBelow (a : Atom) (l : Nat) : Nat :=
  ((List.range l).filter fun j => active 32 a.k j).foldl (fun t j => t + elem 32 a.vb j) 0

/-- What an atomic writes to memory, given the old value, with its flags. -/
def Atom.new (a : Atom) (old : Nat) : Nat × Nat :=
  if a.op = 10 then (if old = a.b.toNat % 2 ^ a.wide then a.c.toNat % 2 ^ a.wide else old, 0)
  else if a.op = 11 then ((old + aggBelow a 32) % 2 ^ 32, 0)
  else amoNew a.op a.wide old (a.b.toNat % 2 ^ a.wide)

/-- The vector an aggregate add returns (R207). -/
def Atom.vResult (a : Atom) (old : Nat) : VReg :=
  packV 32 ((List.range 32).map fun l =>
    if active 32 a.k l then (old + aggBelow a l) % 2 ^ 32 else if a.zero then 0 else elem 32 a.old l)

/-- Perform an atomic at the second-level cache or at a bank: the old value, and the new state. -/
def State.doAtom (s : State) (a : Atom) : Nat × State :=
  let n := a.wide / 8
  let old := natOfBytes (s.mem.bytes a.key n)
  let r := a.new old
  (old, (s.putShared a.key (bytesOfNat n r.1)).modCtx a.cid fun c => c.setFlags r.2)

/-- The atomic's result in the register it went to, unless the name has been written since. -/
def Ctx.landAtom (c : Ctx) (id : Nat) (a : Atom) (old : Nat) : Ctx :=
  if a.op = 11 then
    if c.r.vFly.get? a.d = some id then { c with r := c.r.putV a.d (a.vResult old) } else c
  else
    if c.r.sFly.get? a.d = some id then { c with r := c.r.putS a.d (BitVec.ofNat 64 old) } else c

/-- The acquire of `fence.sys` (R209): no word older than a completed host write, and no constant line, stays in the
context's caches. -/
def Ctx.acquiredSys (c : Ctx) : Ctx :=
  { c with l1 := { data := c.l1.data.map fun l => { l with old := [] }, const := [] } }

/-- An atomic reaches the home of its line (R425): it takes its place, and its result reaches the context; one of `.sys`
scope acquires as `fence.sys.sc` does (R208). -/
def State.atomHome (s : State) (id : Nat) (a : Atom) : State :=
  let r := s.doAtom a
  { (r.2.modCtx a.cid fun c => (if a.sys then c.acquiredSys else c).landAtom id a r.1).uncount a.cid 0 with
    atoms := r.2.atoms.erase id }

/-- Write the destination of an atomic at issue. -/
def writeAtom (a : Atom) (old : Nat) : M Unit :=
  if a.op = 11 then writeV a.d (a.vResult old) else writeS a.d (BitVec.ofNat 64 old)

/-- An atomic at issue: in the context's cache with write permission, at the bank that owns the address, or on its way
to the home (R208). -/
def atomic (a : Atom) (frees : M Unit) : M Unit := do
  needResolved
  needRoom 0
  if a.sys then do
    needClasses 0 0 7 7 7
    modify fun s => s.cleanAll false
  frees
  match ← locate .atomic a.ea.toNat with
  | .error cause => do
    writeAtom a 0
    let c := (← get).cx
    let held := if a.op = 11 then vBytes a.vb else bytesOfNat 8 a.b.toNat ++ bytesOfNat 8 a.c.toNat
    let id ← faulted (addrOnly .atomic a.ea.toNat cause)
      { badOf c a.ea 2 cause (if a.op = 11 then 2 else 1) a.d (if a.wide = 32 then 8 else 14)
          (byteMask 0 (a.wide / 8)) held 0 with atom := some a }
    if a.op = 11 then modRegs fun r => r.pendV a.d id
    else check (a.d != 0) (modRegs fun r => r.pendS a.d id)
  | .ok key =>
    let s ← get
    if isDram key && (s.cx.ways = 0 || a.sys) then do
      writeAtom a 0
      count 0
      let id := s.nextBad
      modify fun s => { s with nextBad := id + 1, atoms := s.atoms.set id { a with key := key } }
      if a.op = 11 then modRegs fun r => { r with vFly := r.vFly.set a.d id }
      else check (a.d != 0) (modRegs fun r => { r with sFly := r.sFly.set a.d id })
    else do
      needAtomsDone
      let old ← readPlace key (a.wide / 8)
      let r := a.new old
      modify fun s => s.putStore key (bytesOfNat (a.wide / 8) r.1)
      setFlags r.2
      check a.sys (modCx Ctx.acquiredSys)
      writeAtom a old
      count 0
  advance

/-- An atomic of the context in hand, all other fields unused. -/
def atomOf (c : Ctx) (op wide : Nat) (sc : Scope) (ea b cw : Word) (d : Nat) : Atom :=
  { cid := c.cid, op := op, wide := wide, ea := ea, key := 0, b := b, c := cw, vb := 0, k := 0, zero := false, old := 0,
    d := d, sys := sc = .sys }

def execAmo (op : AmoOp) (w : Bool) (sc : Scope) (d : Nat) (a b : Src) (s : State) := run (do
  notInDrain
  let ea ← readS a
  let x ← readS b
  let wide := if w then 32 else 64
  if ea.toNat % (wide / 8) != 0 then trap cALIGN ea
  atomic (atomOf (← get).cx (amoCode op) wide sc ea x 0 d) (do freeS a; freeS b)) s

def execCas (w : Bool) (sc : Scope) (d : Nat) (a b c : Src) (s : State) := run (do
  notInDrain
  let ea ← readS a
  let x ← readS b
  let y ← readS c
  let wide := if w then 32 else 64
  if ea.toNat % (wide / 8) != 0 then trap cALIGN ea
  atomic (atomOf (← get).cx 10 wide sc ea x y d) (do freeS a; freeS b; freeS c)) s

def execAggadd (k : Nat) (zero : Bool) (sc : Scope) (d : Nat) (a b : Src) (s : State) := run (do
  notInDrain
  let ea ← readS a
  let v ← readV b
  let mask ← readK k
  let old ← readOld false k zero d
  if ea.toNat % 4 != 0 then trap cALIGN ea
  let at_ := { atomOf (← get).cx 11 32 sc ea 0 0 d with vb := v, k := mask, zero := zero, old := old }
  let frees : M Unit := do freeS a; freeV b
  if (List.range 32).any fun l => active 32 mask l then atomic at_ frees
  else do
    frees
    writeV d (at_.vResult 0)
    advance) s

/-! ## Fence and maintenance (R209, R210) -/

def orderRel (o : Order) : Bool := o = .rel || o = .sc
def orderAcq (o : Order) : Bool := o = .acq || o = .sc

def execFence (sc : Scope) (o : Order) (s : State) := run (do
  notInDrain
  needClasses (if orderAcq o then 0 else 7) (if orderRel o then 0 else 7) 7 7 7
  if orderRel o then do
    needReleased false
    modCx fun c => { c with st := { c.st with fenced := true } }
  if sc = .sys && orderRel o then modify fun s => s.cleanAll false
  if sc = .sys && orderAcq o then modCx Ctx.acquiredSys
  advance) s

/-- The line of a global address, where its translation does not fault; while its link is in training it counts in the
instruction's class. -/
def lineAt (cls : Option Nat) (k : Acc) (ea : Word) : M (Option Nat) := do
  if isGlobal ea.toNat then
    match ← locateIn cls k ea.toNat with
    | .ok key => pure (some (key / 128))
    | .error _ => pure none
  else pure none

def execPref (w : Bool) (a : Src) (imm : Int) (s : State) := run (do
  notInDrain
  let x ← readS a
  freeS a
  if (← get).cx.ways != 0 then
    match ← lineAt none (if w then .store else .load) (x + immW imm) with
    | some l => modify fun s =>
        let m := (s.cx.lineOf l).filled
        s.useLine { m with perm := m.perm || w }
    | none => pure ()
  advance) s

/-- `clinv` and `clwb` (R210): counted in the store class while their words are on the way; a line that is not held, and an
address outside global memory, make them do nothing. -/
def clean (a : Src) (drop : Bool) : M Unit := do
  notInDrain
  let x ← readS a
  needRoom 1
  freeS a
  match ← lineAt (some 1) .load x with
  | some l => check ((← get).cx.l1.data.any fun m => m.line = l) do
    modify fun s => s.cleanLine l drop
    count 1
  | none => pure ()
  advance

def execClinv (a : Src) (s : State) := run (clean a true) s
def execClwb (a : Src) (s : State) := run (clean a false) s

end Sys2Proof.Machine
end

