-- ==== Sys2Proof/Machine/Stores.lean ====
section
/-! DEFINITION. Stores as lists of elements (R203, R204, R245): where each lies, and the store restricted to some of them. -/
namespace Sys2Proof.Machine

/-- The scalar register of an address as the context had it. -/
def Ctx.addrOf (c : Ctx) (a : Src) (imm : Int) : Nat := (c.r.s.getD a.n 0 + immW imm).toNat

/-- The mask register of a store as the context had it. -/
def Ctx.maskOf (c : Ctx) (k : Nat) : KReg := if k = 0 then BitVec.allOnes 128 else c.r.k.getD k 0

/-- A vector store as a store under mask `k1`: the instruction, its context, the mask bits of its bytes or lanes in ascending
order, and how many neighbouring bits belong to one element that lands whole: an aligned element, else a byte. A scatter's
elements land in ascending order of their lanes: `true` (R204). -/
def maskedStore (i : Instr) (c : Ctx) : Option (Instr × Ctx × List Nat × Nat × Bool) :=
  let bits (k : Nat) : List Nat := (List.range 128).filter fun j => (c.maskOf k).getLsbD j
  match i with
  | .vst ty k d a imm => some (.vst ty 1 d a imm, c, bits k, tyWidth ty / 8, false)
  | .vstm ty k d a imm =>
    some (.vstm ty 1 d a imm, c, bits k, if c.addrOf a imm % (tyWidth ty / 8) = 0 then tyWidth ty / 8 else 1, false)
  | .vscat ty k a b x =>
    some (.vscat ty 1 a b x, c, ((List.range 32).filter fun l => active 32 (c.maskOf k) l).map (4 * ·), 4, true)
  | .vqst sb8 allow d a imm =>
    let q := (quantBlock sb8 allow (lanesF32 (c.r.v.getD d.n 0))).1
    some (.vstm .n8 1 d a imm, { c with r := { c.r with v := c.r.v.set d.n (vOfBytes (q.map (BitVec.ofNat 8))) } }, List.range q.length, 1, false)
  | _ => none

/-- A context with some bits in its mask `k1`. -/
def Ctx.withMask (c : Ctx) (l : List Nat) : Ctx :=
  { c with r := { c.r with k := c.r.k.set 1 (l.foldl (fun m j => m ||| (1#128 <<< j)) 0) } }

/-- A store that may land later than it issues (R244). -/
def isStore : Instr → Bool
  | .st _ _ _ => true
  | .stx _ _ _ _ => true
  | .vst _ _ _ _ _ => true
  | .vstm _ _ _ _ _ => true
  | .vscat _ _ _ _ _ => true
  | .vqst _ _ _ _ _ => true
  | _ => false

/-- The addresses from which a store writes, each with the most bytes it writes there. -/
def storeRanges (i : Instr) (c : Ctx) : List (Nat × Nat) :=
  match i with
  | .st _ a imm => [(c.addrOf a imm, 8)]
  | .stx _ _ a imm => [(c.addrOf a imm, 8)]
  | .vst _ _ _ a imm => [((eaV (c.r.s.getD a.n 0) imm).toNat, 128)]
  | .vstm _ _ _ a imm => [(c.addrOf a imm, 128)]
  | .vqst _ _ _ a imm => [(c.addrOf a imm, 128)]
  | .vscat ty k a b _ => (lanesOf ty (c.maskOf k) (c.r.s.getD a.n 0) (c.r.v.getD b.n 0)).map fun l => (l.2.1.toNat, 8)
  | _ => []

end Sys2Proof.Machine
end

