-- ==== Sys2Proof/Machine/Gate.lean ====
section
/-! DEFINITION. Cluster gating (R410-R413, R419, R420): `pgate`, `pwake`, the arrival of a request, OFF and the wake. -/
namespace Sys2Proof.Machine

/-- The status word (R412). -/
def Cluster.gateStatus (u : Cluster) : Word := BitVec.ofNat 64 (u.disc % 2 ^ 16 * 2 ^ 16 + u.gate % 4)

/-- The cluster a gate instruction names, checked (R412). -/
def gateTarget (a : Src) (i : Instr) : M Nat := do
  let x ← readS a
  if 4096 ≤ x.toNat then illop 0x0F 2
  let s ← get
  if !coreExists s.variant x.toNat then trap cUNITABSENT (opInfo 2 i)
  if s.partOfCluster (clusterOf x.toNat) != some s.cx.id.part then illop 0x0F 1
  pure (clusterOf x.toNat)

/-- A request leaves for the event unit of a cluster. -/
def State.sendGate (s : State) (cl kind d : Nat) : State :=
  { s with
    gates := s.gates.set s.nextBad { part := s.cx.id.part, cid := s.cx.cid, cl := cl, kind := kind, d := d, sampled := none }
    nextBad := s.nextBad + 1 }

/-- `pgate`: the request leaves, and the result is readable once it has come back (R420). -/
def gateSend (kind d : Nat) (a : Src) (cl : Nat) : M Unit := do
  freeS a
  writeS d 0
  let id := (← get).nextBad
  modify fun s => s.sendGate cl kind d
  check (d != 0) (modRegs fun r => { r with sFly := r.sFly.set d id })
  advance

def execPgateReq (d : Nat) (a : Src) (s : State) := run (do
  notInDrain
  let cl ← gateTarget a (.pgateReq d a)
  let s ← get
  if !s.power.gateen.testBit s.cx.id.part then illop 0x0F 3
  gateSend 0 d a cl) s

def execPgateQ (d : Nat) (a : Src) (s : State) := run (do
  notInDrain
  let cl ← gateTarget a (.pgateQ d a)
  gateSend 1 d a cl) s

/-- The wake request for which a context waits. -/
def State.wakeOf (s : State) (cid cl : Nat) : Option (Nat × GateReq) :=
  s.gates.find? fun g => (g.2.kind = 2 || g.2.kind = 3) && g.2.cid = cid && g.2.cl = cl

/-- `pwake`: the request leaves once. The context goes on, its result on its way, where the cluster is ON or GATING as it
issues; else it waits until the cluster is ON (R412). -/
def execPwake (d : Nat) (a : Src) (s : State) := run (do
  notInDrain
  let cl ← gateTarget a (.pwake d a)
  let s ← get
  match s.wakeOf s.cx.cid cl with
  | none => do
    if (s.cluster cl).gate ≤ 1 then gateSend 4 d a cl
    else do
      modify fun s => s.sendGate cl 2 d
      stallIn (.reg 0 d)
  | some (id, g) => do
    if g.kind = 2 then stall (.reg 0 d)
    modify fun s => { s with gates := s.gates.erase id }
    freeS a
    writeS d (g.sampled.getD 0)
    advance) s

/-! ## Arrival (R420) -/

/-- A queued instance that the gating of a cluster sends back: it has a member on one of the four cores, and is not a
continuation that can go nowhere else (R411). -/
def State.sentBack (s : State) (cl m : Nat) : Bool :=
  match s.insts.get? m with
  | none => false
  | some i =>
    match s.nodeOf i with
    | none => false
    | some n => (i.cores.any fun c => onDeck c && clusterOf c = cl) &&
        !(i.begun && (i.cores.zipIdx.any fun e => s.fixedCore i n e.2 = some e.1))

/-- One instance returns to READY; one that has not begun gives up its keys and its reservation. -/
def State.sendBack (s : State) (m : Nat) : State :=
  let s1 := s.unqueue m
  match s1.insts.get? m with
  | some i => if i.begun then s1 else (s1.releaseKeys m).unreserve m
  | none => s1

/-- ON to GATING. -/
def State.gating (s : State) (cl : Nat) : State :=
  ((s.cdq.getD cl []).filter fun m => s.sentBack cl m).foldl (fun s m => s.sendBack m) (s.modCluster cl fun u => { u with gate := 1 })

/-- The answer of a gate request in its register, unless the name has been written since. -/
def State.answer (s : State) (id : Nat) (g : GateReq) (x : Word) : State :=
  s.modCtx g.cid fun c => if c.r.sFly.get? g.d = some id then { c with r := c.r.putS g.d x } else c

/-- GATE_REQUEST_ARRIVAL: the status is sampled, then the state changes. The requests of a context for one cluster arrive in
program order. -/
def execGateRequestArrival (n : Nat) (s : State) : Host.Outcome State Fault Refusal :=
  match s.gates.get? n with
  | none => .next s
  | some g =>
    let u := s.cluster g.cl
    if g.sampled.isSome || s.gates.any fun e => e.1 < n && e.2.cid = g.cid && e.2.cl = g.cl && e.2.sampled.isNone then .next s
    else if g.kind = 0 then
      let s1 := ({ s with gates := s.gates.erase n }.answer n g u.gateStatus)
      .next (if u.gate = 0 then s1.gating g.cl else s1)
    else if g.kind = 1 then .next ({ s with gates := s.gates.erase n }.answer n g u.gateStatus)
    else
      let on := u.gate = 0 || u.gate = 1
      let s1 := if g.kind = 4 then
          (if on then { s with gates := s.gates.erase n }.answer n g u.gateStatus
           else { s with gates := s.gates.set n { g with sampled := some u.gateStatus } })
        else { s with gates := s.gates.set n { g with sampled := some u.gateStatus, kind := if on then 3 else 2 } }
      .next (if u.gate = 1 then s1.modCluster g.cl fun u => { u with gate := 0 }
        else if u.gate = 2 then s1.modCluster g.cl fun u => { u with gate := 3 } else s1)

/-! ## OFF (R411) -/

/-- The four compute cores of a cluster. -/
def deckCores (cl : Nat) : List Nat := [0, 1, 2, 3].map (computeCore cl)

/-- A range of addresses meets the remote window of one of the cores. -/
def windowMet (cores : List Nat) (r : Nat × Nat) : Bool :=
  cores.any fun c => let w := 0x1000000000 + c * 2 ^ 20
    r.1 < w + 2 ^ 20 && w < r.1 + r.2

/-- Traffic already addressed to a cluster has completed (R411). -/
def State.noTraffic (s : State) (cl : Nat) : Bool :=
  let cores := deckCores cl
  (s.atoms.all fun a => !windowMet cores (a.2.ea.toNat, 8)) &&
    (s.cores.all fun k => k.2.copies.all fun o => (o.srcRanges ++ o.dstRanges).all fun r => !windowMet cores r) &&
    (s.late.all fun l => l.2.all fun e => (storeRanges e.i e.cx).all fun r => !windowMet cores r) &&
    (s.msgs.all fun m => (s.ctx? m.2.dst).all fun c => !cores.contains c.id.core) &&
    s.events.all fun e => e.2.cl != cl

/-- A core as entry to OFF leaves it (R411): its tracks and the counts of R137 and R196 stay. -/
def Core.emptied (k : Core) : Core :=
  { Core.fresh with
    cyc := k.cyc, owed := k.owed, ages := k.ages, assay := k.assay, tracks := k.tracks, sent := k.sent, recv := k.recv
    kept := k.kept, keptTracks := k.keptTracks, chute := k.chute }

/-- What a cluster loses at its entry to OFF: banks, rings, the control store, translations, event lines and barriers of the
cores named. -/
def State.loseCluster (s : State) (cl : Nat) (cores : List Nat) : State :=
  let s1 := cores.foldl (fun s c => s.modCore c Core.emptied)
    { s with mem := s.mem.filter fun e => !onBank cores e.1, ecc := s.ecc.filter fun w => !onBank cores (w * 8) }
  s1.modCluster cl fun u => { u with tlb := [], lines := 0, bars := [] }
where
  /-- The key of a bank byte lies on one of the cores. -/
  onBank (cores : List Nat) (key : Nat) : Bool := 2 ^ 56 ≤ key && key < 2 ^ 57 && cores.contains ((key - 2 ^ 56) / 2 ^ 19)

/-- Written words that no cache holds any more: the memory is what the home holds (R233). -/
def State.loseWords (s : State) (ws : List Nat) : State :=
  ws.foldl (fun (s : State) w =>
    match s.home.get? w with
    | some x => { s with mem := s.mem.putBytes (w * 8) (bytesOfNat 8 x.toNat), home := s.home.erase w }
    | none => s) s

/-- Caches of saved contexts go with the banks that held them. -/
def State.loseCaches (s : State) (cores : List Nat) : State :=
  let gone := s.ctxs.filter fun c => cores.contains c.id.core && c.id.slot != 4
  let s1 := gone.foldl (fun s c => c.l1.data.foldl (fun s l => s.loseWords (lineWords l.line l.written)) s) s
  s1.mapCtxs fun c => if cores.contains c.id.core && c.id.slot != 4 then { c with l1 := { data := [], const := [] } } else c

/-- Entries toward a core of the cluster are discarded; their slots return to the memory core at once (R411). -/
def Chute.discarded (c : Chute) : Chute := { c with up := [], freeUp := 16, owedUp := 0 }

/-- CLUSTER_OFF: a GATING cluster is quiet, no slot of it is taken or reserved (R319), and 64 of its cycles have passed. It waits while its partition switches. -/
def execClusterOff (cl : Nat) (s : State) : Host.Outcome State Fault Refusal :=
  let cores := deckCores cl
  let busy := (s.ctxs.any fun c => cores.contains c.id.core && c.id.slot != 4 && !c.st.out) ||
    s.insts.any fun i => i.2.st = 2 && i.2.cores.any cores.contains
  let switching := (s.partOfCluster cl).any fun p => (s.part p).pstate = 1 || (s.part p).pstate = 3
  if (s.cluster cl).gate != 1 || busy || switching || !s.noTraffic cl then .next s
  else
    let lost := cores.foldl (fun n c => n + (s.chute c).up.length) 0
    let s1 := cores.foldl (fun s c => s.modChute c Chute.discarded) ((s.loseCaches cores).loseCluster cl cores)
    .next (s1.modCluster cl fun u => { u with gate := 2, disc := lost })

/-! ## Waking (R412, R413, R419) -/

/-- The counter of a chute from a core that wakes. -/
def Chute.woken (c : Chute) : Chute := { c with freeDown := 16 - c.down.length, owedDown := 0 }

/-- Every mapped track of a core that wakes is re-indexed (R413). -/
def State.reindexAll (s : State) (core : Nat) : State :=
  let s1 := s.modCore core fun k => { k with tracks := k.tracks.map fun t =>
    (t.1, { t.2 with ridx := false, suspect := false, slip := 0, off := 0, marks := [], owner := none, holder := none,
                     hleft := 0, queue := [], ppos := Config.freePick (s.free + t.1) % 4096 }) }
  { s1 with free := s1.free + 16 }

/-- CLUSTER_WAKE_READY: WAKING to ON; every waiting `pwake` is answered. -/
def execClusterWakeReady (cl : Nat) (s : State) : Host.Outcome State Fault Refusal :=
  if (s.cluster cl).gate != 3 then .next s
  else
    let s1 := (deckCores cl).foldl (fun (s : State) c => (s.modChute c Chute.woken).reindexAll c) (s.modCluster cl fun u => { u with gate := 0 })
    let s2 := { s1 with gates := s1.gates.map fun (g : Nat × GateReq) =>
      (g.1, if g.2.kind = 2 && g.2.cl = cl && g.2.sampled.isSome then { g.2 with kind := 3 } else g.2) }
    .next ((s2.gates.filter fun g => g.2.kind = 4 && g.2.cl = cl && g.2.sampled.isSome).foldl
      (fun (s : State) (g : Nat × GateReq) => { s with gates := s.gates.erase g.1 }.answer g.1 g.2 (g.2.sampled.getD 0)) s2)

end Sys2Proof.Machine
end

