-- ==== Sys2Proof/Machine/Partition.lean ====
section
/-! DEFINITION. Switching and stopping a partition (R331-R333). -/
namespace Sys2Proof.Machine

/-! ## Saving and restoring (R332) -/

/-- A core as a partition leaves it: cycle counter, assay count and tracks stay, all else is as at reset. -/
def Core.left (k : Core) : Core :=
  { Core.fresh with cyc := k.cyc, owed := k.owed, ages := k.ages, assay := k.assay, tracks := k.tracks }
/-- A core with what a partition had saved of it. -/
def Core.restored (k saved : Core) : Core :=
  { saved with cyc := k.cyc, owed := k.owed, ages := k.ages, assay := k.assay, tracks := k.tracks }

/-- The key of a bank byte lies on one of the cores. -/
def bankOf (cores : List Nat) (key : Nat) : Bool := 2 ^ 56 ≤ key && key < 2 ^ 57 && cores.contains ((key - 2 ^ 56) / 2 ^ 19)

/-- Every context that holds a slot leaves it; those already out are noted. -/
def State.stopIssue (s : State) (p : Nat) : State :=
  let out := (s.ctxs.filter fun c => c.id.part = p && c.st.out).map Ctx.cid
  ((s.ctxs.filter fun c => c.id.part = p && c.id.slot != 4 && !c.st.out).foldl (fun s c => s.leaveSlot c.cid) s).modPart p
    fun p => { p with parked := out }

/-- Save what the partition has on its cores and in its clusters. -/
def State.saveCores (s : State) (p : Nat) : State :=
  let cores := s.coresOf p
  let cls := s.clustersOf p
  let s1 := s.modPart p fun u =>
    { u with savedCores := cores.map fun c => (c, { s.core c with tracks := [] })
             savedClusters := cls.map fun c => (c, { s.cluster c with tlb := [] })
             savedMem := s.mem.filter fun e => bankOf cores e.1
             savedEcc := s.ecc.filter fun w => bankOf cores (w * 8) }
  let s2 := { s1 with mem := s.mem.filter fun e => !bankOf cores e.1, ecc := s.ecc.filter fun w => !bankOf cores (w * 8) }
  let s3 := cores.foldl (fun s c => s.modCore c Core.left) s2
  cls.foldl (fun s c => s.modCluster c fun u => { u with lines := 0, bars := [] }) s3

/-- Restore it. -/
def State.restoreCores (s : State) (p : Nat) : State :=
  let u := s.part p
  let s1 := u.savedCores.foldl (fun s e => s.modCore e.1 fun k => k.restored e.2) s
  let s2 := u.savedClusters.foldl (fun s e => s.modCluster e.1 fun k => { k with lines := e.2.lines, bars := e.2.bars }) s1
  let ecc := u.savedEcc ++ s2.ecc.filter fun w => !bankOf (u.savedCores.map (·.1)) (w * 8)
  { s2 with mem := u.savedMem.foldl (fun (m : Memory) (e : Nat × Byte) => m.write e.1 e.2) s2.mem, ecc := ecc }.modPart p fun u =>
    { u with savedCores := [], savedClusters := [], savedMem := [], savedEcc := [] }

/-- Contexts that held a slot hold it again, with the slot's age (R320); a wait is issued again, and a stream asks for its port
again (R377). -/
def State.startIssue (s : State) (p : Nat) : State :=
  let s1 := (s.mapCtxs fun c => if c.id.part = p && !((s.part p).parked.contains c.cid) then
      { c.back with st := { c.back.st with last := (s.core c.id.core).ages.getD c.id.slot 0 } } else c).modPart p fun u =>
        { u with parked := [] }
  (s.coresOf p).foldl State.askAgain s1

/-- Firings and drains of the partition have ended (R197). -/
def State.quiet (s : State) (p : Nat) : Bool :=
  (s.coresOf p).all fun c => let k := s.core c
    !(k.firing.any fun f => (s.ctx? f.cid).any fun x => x.id.part = p) &&
      !(k.drains.any fun d => (s.ctx? d.cid).any fun x => x.id.part = p)

/-! ## Switching (R331, R332). Only the physical function, 0, writes the control block. -/

/-- SWITCH_OUT: the switch is due at PTICK, at least 2 microseconds ahead. -/
def execSwitchOut (fn p : Nat) (nextv : Bool) (next : Nat) (s : State) : Host.Outcome State Fault Refusal :=
  if fn = 0 && p < 16 && (s.part p).pstate = 0 then
    .next (s.modPart p fun u =>
      { u with pstate := 1, ptick := max u.ptick (s.time + 2000) % 2 ^ 64, nextIn := if nextv then some (next % 16) else none,
               stopReq := none })
  else .next s

/-- PTICK_REACHED: every context stops at its instruction boundary, and the partition's queues are switched out. -/
def execPtickReached (p : Nat) (s : State) : Host.Outcome State Fault Refusal :=
  let u := s.part p
  if u.pstate = 1 && u.stopReq.isNone && u.ptick ≤ s.time then
    .next (((s.stopIssue p).swapQueues p).modPart p fun u => { u with stopReq := some (0, 0, 0) })
  else .next s

/-- Clusters pass from one partition to another. -/
def State.handOver (s : State) (p q : Nat) : State :=
  { s with cmap := (s.clustersOf p).foldl (fun m c => Tab.set m c (128 + q)) s.cmap }

/-- SWITCH_OUT_DONE: firings and drains have ended and everything is saved; partition NEXT comes in on the clusters. -/
def execSwitchOutDone (p : Nat) (s : State) : Host.Outcome State Fault Refusal :=
  let u := s.part p
  if u.pstate = 1 && u.stopReq.isSome && s.quiet p then
    let s1 := (s.saveCores p).modPart p fun u => { u with pstate := 2, stopReq := none, nextIn := none }
    match u.nextIn with
    | none => .next s1
    | some q =>
      if q = p then .next (s1.modPart p fun u => { u with pstate := 3 })
      else .next ((s1.handOver p q).modPart q fun u => { u with pstate := if u.pstate = 2 then 3 else u.pstate })
  else .next s

/-- SWITCH_IN. -/
def execSwitchIn (fn p : Nat) (s : State) : Host.Outcome State Fault Refusal :=
  if fn = 0 && (s.part p).pstate = 2 then .next (s.modPart p fun u => { u with pstate := 3 }) else .next s

/-- The clusters that a partition has saved are its own again. -/
def State.homeAgain (s : State) (p : Nat) : Bool :=
  (s.part p).savedClusters.all fun e => s.partOfCluster e.1 = some p

/-- What a partition has saved is given up: its clusters have gone to another (R23). -/
def State.dropSaved (s : State) (p : Nat) : State :=
  s.modPart p fun u => { u with savedCores := [], savedClusters := [], savedMem := [], savedEcc := [] }

/-- SWITCH_IN_DONE: everything is restored before any core issues, and the queues come back (R275). -/
def execSwitchInDone (p : Nat) (s : State) : Host.Outcome State Fault Refusal :=
  if (s.part p).pstate = 3 && s.homeAgain p then
    .next ((((s.restoreCores p).startIssue p).modPart p fun u => { u with pstate := 0, reason := 0 }).unswapQueues p)
  else .next s

/-! ## Stopping (R333) -/

/-- STOP: a halt-tree stop with reason 1. -/
def execStop (fn p : Nat) (s : State) : Host.Outcome State Fault Refusal :=
  if fn = 0 && p < 16 && (s.part p).pstate = 0 then
    .next (s.modPart p fun u => { u with pstate := 4, stopReq := some (1, 0, 0) })
  else .next s

/-- The firing of a core is abandoned: the tile keeps its values, the rows are marked, the request goes on without it
(R197). -/
def State.abandon (s : State) (core : Nat) : State :=
  match (s.core core).firing with
  | none => s
  | some f =>
    let rows := s.firingRows f
    ((s.firingRead core).modCore core fun k => { k with firing := none }).modCtx f.cid fun c =>
      let c := { c with tileRows := c.tileRows.set f.tile (c.tileRows.getD f.tile 0 ||| rows), cnt := c.cnt.sub 3 1 }
      (c.modBind f.tile Binding.rest).closeReq f.tile

/-- A drain run of a core that is stopped ends with it; its row is drained again. -/
def State.stopDrain (s : State) (core : Nat) : State :=
  if (s.ctx? (drainCid core)).isSome then s.dropDrainRun core else s

/-- Packets on their way to the contexts and event units of a core. -/
def State.heldAt (s : State) (p core : Nat) : Nat :=
  (s.msgs.filter fun m => m.2.part = p && (match s.ctx? m.2.dst with
    | some c => c.id.core = core
    | none => m.2.srcCore = core)).length +
  (s.events.filter fun e => e.2.part = p &&
    (if s.partOfCluster e.2.cl = some p then computeCore e.2.cl 0 else e.2.srcCore) = core).length

/-- The stop record of a core. Packets of plain accesses are not counted one by one: a free number, sent and received. -/
def State.stopRecord (s : State) (p core reason dcause : Nat) : List Byte :=
  let k := s.core core
  let x := Config.freePick (s.free + core)
  bytesOfNat 8 k.cyc ++ bytesOfNat 8 s.time ++ bytesOfNat 4 (k.sent + x) ++ bytesOfNat 4 (k.recv + x) ++
    bytesOfNat 4 (s.heldAt p core) ++ bytesOfNat 1 reason ++ bytesOfNat 1 dcause ++ bytesOfNat 2 0

/-- Carry out a halt-tree stop. -/
def State.stopped (s : State) (p reason dcause core : Nat) : State :=
  let cores := s.coresOf p
  let s1 := cores.foldl (fun s c => (s.abandon c).stopDrain c) s
  let s2 := (s1.stopIssue p).swapQueues p
  let rec_ := (s2.part p).stoprec
  let s3 := cores.foldl (fun s c =>
    if isGlobal rec_ then s.putHost p (rec_ + 32 * c) (s2.stopRecord p c reason (if c = core then dcause else 0)) else s) s2
  { s3.saveCores p with free := s3.free + 4096 }.modPart p fun u => { u with pstate := 5, reason := reason, stopReq := none }

/-- HALT_TREE_STOP: every core of the partition stops, for the reason that started it: PCMD STOP (1), an uncorrectable
error that firmware escalates (2), or a double fault (3). -/
def execHaltTreeStop (p reason _dcause _core : Nat) (s : State) : Host.Outcome State Fault Refusal :=
  let u := s.part p
  match u.pstate, u.stopReq with
  | 4, some (r, d, c) => .next (s.stopped p r d (if r = 3 then c else 4096))
  | 0, _ => .next (if reason = 2 && p < 16 then s.stopped p 2 0 4096 else s)
  | _, _ => .next s

/-- PARTITION_RESUME: a stopped partition continues as a switch-in does. -/
def execPartitionResume (fn p : Nat) (s : State) : Host.Outcome State Fault Refusal :=
  if fn = 0 && (s.part p).pstate = 5 then .next (s.modPart p fun u => { u with pstate := 3 }) else .next s

/-- PARTITION_KILL: every instance of a stopped partition is killed, and its kernels enter FAULTING. What was saved of
clusters that are no longer its own goes. -/
def execPartitionKill (fn p : Nat) (s : State) : Host.Outcome State Fault Refusal :=
  if fn = 0 && (s.part p).pstate = 5 then
    let s0 := if s.homeAgain p then s.restoreCores p else s.dropSaved p
    let s1 := (s0.modPart p fun u => { u with pstate := 0, reason := 0, parked := [] }).unswapQueues p
    .next ((s1.insts.filter fun e => s1.instPart e.2 = p && (e.2.st = 3 || e.2.begun)).foldl (fun s e => s.killInst e.1)
      ((s1.kernels.filter fun e => e.2.part = p && e.2.st = 2).foldl (fun s e => (s.faultKernel e.1).settleKernel e.1) s1))
  else .next s

end Sys2Proof.Machine
end

