-- ==== Sys2Proof/Machine/Link.lean ====
section
/-! DEFINITION. Links (R392-R404): states, negotiation, time exchange, flits, reductions, degradation and failure. -/
namespace Sys2Proof.Machine

/-! ## States (R392-R394) -/

def lDOWN : Nat := 0
def lDETECT : Nat := 1
def lTRAIN : Nat := 2
def lNEGOTIATE : Nat := 3
def lTIMESYNC : Nat := 4
def lUP : Nat := 5
def lDEGRADED : Nat := 6
def lFAILED : Nat := 7

/-- A stack bridge. -/
def isBridge (l : Nat) : Bool := 8 ≤ l && l < 12
/-- Lanes or lane groups of a link (R392), and the fewest it runs with (R403, R405). -/
def fullLanes (l : Nat) : Nat := if l < 8 then 4 else 16
def fewestLanes (l : Nat) : Nat := if l < 8 then 2 else if l < 12 then 8 else 4

/-- A link of the part. -/
def State.hasLink (s : State) (l : Nat) : Bool := linkPresent s.variant l

/-! ## Failure (R403, R404) -/

/-- An operation has unacknowledged traffic on a port. -/
def State.opOn (s : State) (l : Nat) (op : CopyOp) : Bool :=
  match op.ack with
  | some (ls, _, _) => ls.contains l || ((s.link l).reduces ++ (s.link l).unacked).any fun r => r.froms.contains (some op.cid)
  | none => false

/-- The operation at the head of an engine, all sent and not acknowledged, is abandoned (R219): an entry of OPK 4 and CAUSE 3.
How many of its bytes are certain to have landed is left to choice. -/
def State.giveUp (s : State) (core : Nat) (c : Ctx) (op : CopyOp) (l flags n : Nat) : State :=
  let k := Config.freePick (s.free + 2) % (n + 1)
  let s1 := (s.popCopy core).addBad (copyBad c op s.free (s.addrOn c op l) 3 k flags)
  let s2 := { s1 with free := s1.free + 1 }
  if op.kind = 0 then s2.landBar c op k else s2

/-- Operations on a failed port are abandoned. -/
def State.abandonOps (s : State) (l : Nat) : State :=
  s.cores.foldl (fun s e =>
    match e.2.copies with
    | [] => s
    | op :: _ =>
      if !s.opOn l op then s
      else match s.ctx? op.cid, op.ack with
        | some c, some (_, flags, n) => s.giveUp e.1 c op l flags n
        | _, _ => s.popCopy e.1) s

/-- The elements of a list that a choice for each of them keeps; those that `may` does not name are kept. -/
def State.keepSome {α : Type} (s : State) (may : α → Bool) (t : Tab α) : Tab α :=
  (t.zipIdx.filter fun e => !(may e.1.2 && Config.freePick (s.free + e.2) % 2 = 0)).map (·.1)

/-- Spanning groups with a member beyond a port are killed, also those whose share or next slice is not running yet; which
those are, the machine does not hold: left to choice. -/
def State.killSpans (s : State) : State :=
  let keep := (s.keepSome (fun i => 1 ≤ i.st && i.st ≤ 3 && s.spans i) s.insts).keys
  (s.insts.keys.filter fun m => !keep.contains m).foldl (fun s m => s.killInst m) { s with free := s.free + s.insts.length }

/-- Bridges crossed from one stack to another by the shorter way (R6, R237). -/
def bridgesOn (variant a b : Nat) : List Nat :=
  if a = b then []
  else if variant = 2 then [0]
  else
    let f := (b + 4 - a) % 4
    if f ≤ 2 then (List.range f).map fun k => (a + k) % 4 else (List.range (4 - f)).map fun k => (b + k) % 4

/-- Stacks that an operation's ranges touch. -/
def State.opStacks (s : State) (c : Ctx) (op : CopyOp) : List Nat :=
  (op.srcRanges ++ op.dstRanges).filterMap fun r =>
    if isGlobal r.1 then
      (match s.walk c.id.part r.1 with
      | .ok p => let pa := p.unit (r.1 / 65536); if isFabric pa then none else some (stackOf pa)
      | .error _ => none)
    else if 0x1000000000 ≤ r.1 && r.1 < 0x1100000000 then some (coreStack (r.1 / 2 ^ 20 % 4096))
    else none

/-- Stacks where an instance has a member, with its banks, or an engine operation. -/
def State.instStacks (s : State) (i : Inst) : List Nat :=
  i.cores.map coreStack ++ i.cids.flatMap fun cid =>
    match s.ctx? cid with
    | none => []
    | some c => ((s.core c.id.core).copies.filter fun o => o.cid = cid).flatMap fun o => s.opStacks c o

/-- A bridge of the DK-7H that traffic does not use while the other carries. -/
def State.idleBridge (s : State) (b : Nat) : Bool := s.variant = 2 && b = 1 && s.carries 8

/-- Instances that the failure of bridge `b` kills (R404). -/
def State.cutBy (s : State) (b : Nat) (i : Inst) : Bool :=
  let home := s.serviceCluster (s.instPart i) / 96
  i.st = 3 && !s.idleBridge b && (s.instStacks i).any fun st =>
    (bridgesOn s.variant home st).contains (if s.variant = 2 then 0 else b)

/-- Packets of a bridge's traffic are lost with its flits (R404): which of those whose way crosses it are on it is left to
choice. An atomic that is lost gives its register nothing. -/
def State.losePackets (s : State) (l : Nat) : State :=
  let across (a b : Nat) : Bool := (s.crossed a b).contains l
  let from_ (cid : Nat) (b : Nat) : Bool := (s.ctx? cid).any fun c => across (coreStack c.id.core) b
  let s1 := { s with msgs := s.keepSome (fun m => across (coreStack m.srcCore) (s.msgStack m)) s.msgs, free := s.free + s.msgs.length }
  let s2 := { s1 with events := s1.keepSome (fun e => across (coreStack e.srcCore) (e.cl / 96)) s1.events, free := s1.free + s1.events.length }
  let s3 := { s2 with atoms := s2.keepSome (fun a => from_ a.cid (stackOf a.key)) s2.atoms, free := s2.free + s2.atoms.length }
  { s3 with gates := s3.keepSome (fun g => g.sampled.isNone && from_ g.cid (g.cl / 96)) s3.gates, free := s3.free + s3.gates.length }

/-- A link enters FAILED; what is in flight on it is lost. -/
def State.failLink (s : State) (l code : Nat) : State :=
  let s1 := (if isBridge l then s.losePackets l else s).modLink l fun k => { k with st := lFAILED, failcode := code }
  let lost (s : State) := s.modLink l fun k => { k with sent := [], queue := [], reduces := [], unacked := [], naks := 0 }
  if l < 8 then lost ((s1.abandonOps l).killSpans)
  else if isBridge l then lost ((s.insts.filter fun e => s.cutBy (l - 8) e.2).foldl (fun s e => s.killInst e.1) s1)
  else lost s1

/-! ## LCTRL (R393, R394) -/

/-- FEC codewords corrected (R393). -/
def State.corrected (s : State) (l n : Nat) : State :=
  if s.hasLink l && (s.link l).st != lDOWN then s.modLink l fun k => { k with corr := (k.corr + n) % 2 ^ 64 } else s

/-- A link enters UP or DEGRADED: what its replay buffer holds is sent again (R394). -/
def Link.enter (k : Link) (st : Nat) : Link := { k with st := st, replay := (k.replay + k.sent.length) % 2 ^ 64 }

/-- LINK_ENABLE: DOWN to DETECT, or TRAIN for a bridge. Only the physical function, 0, writes LCTRL. -/
def execLinkEnable (fn l : Nat) (s : State) : Host.Outcome State Fault Refusal :=
  if fn = 0 && s.hasLink l && (s.link l).st = lDOWN then
    .next (s.modLink l fun k => { k with st := if isBridge l then lTRAIN else lDETECT })
  else .next s

/-- LINK_DISABLE: to DOWN from any state; traffic in flight follows R403. -/
def execLinkDisable (fn l : Nat) (s : State) : Host.Outcome State Fault Refusal :=
  if fn = 0 && s.hasLink l && (s.link l).st != lDOWN then
    .next ((s.failLink l (s.link l).failcode).modLink l fun k => { k with st := lDOWN, lanes := 0 })
  else .next s

/-- RETRAIN: from FAILED to DETECT or TRAIN, from UP to TRAIN with its traffic kept; a DEGRADED link is UP again where every
lane is restored, which is left to choice. -/
def execRetrain (fn l : Nat) (s : State) : Host.Outcome State Fault Refusal :=
  let st := (s.link l).st
  if fn != 0 || !s.hasLink l then .next s
  else if st = lFAILED then .next (s.modLink l fun k => { k with st := if isBridge l then lTRAIN else lDETECT })
  else if st = lUP then .next (s.modLink l fun k => { k with st := lTRAIN })
  else if st = lDEGRADED then
    let s1 := { s with free := s.free + 1 }
    .next (if Config.freePick s.free % 2 = 0 then s1.modLink l fun k => { k with st := lUP, lanes := fullLanes l, rate := 128 } else s1)
  else .next s

/-- The rate at which the PCIe link trains: 128, 64 or 32 GT/s (R405). -/
def State.pcieRate (s : State) (r : Nat) : State :=
  if ((s.link 12).st = lDETECT || (s.link 12).st = lTRAIN) && [128, 64, 32].contains r then s.modLink 12 fun k => { k with rate := r }
  else s

/-- The state in which a bridge or the PCIe link leaves TRAIN with `n` lanes (R394, R403). -/
def Link.trained (k : Link) (l n : Nat) : Nat := if n = fullLanes l && (l != 12 || k.rate = 128) then lUP else lDEGRADED

/-! ## Training and negotiation (R394-R396) -/

/-- SIGNAL_SEEN: a peer on at least two lanes. -/
def execSignalSeen (l lanes : Nat) (s : State) : Host.Outcome State Fault Refusal :=
  if s.hasLink l && !isBridge l && (s.link l).st = lDETECT && 2 ≤ lanes then .next (s.modLink l fun k => { k with st := lTRAIN })
  else .next s

/-- EQUALISATION_DONE: `lanes` meet the margin. -/
def execEqualisationDone (l lanes : Nat) (s : State) : Host.Outcome State Fault Refusal :=
  let n := min lanes (fullLanes l)
  if !s.hasLink l || (s.link l).st != lTRAIN then .next s
  else if n < fewestLanes l then .next (s.failLink l 2)
  else if l < 8 then .next (s.modLink l fun k => { k with lanes := n, st := lNEGOTIATE, exchanges := 0, settled := 0 })
  else .next (s.modLink l fun k =>
    { k with lanes := n, exchanges := 0, settled := 0, credits := if isBridge l then vlCredits else k.credits }.enter
      (k.trained l n))

/-- NEGOTIATE: the peer's record (R396); the link uses the smaller number of lanes. -/
def execNegotiate (l devid isamaj lanes port fec credits : Nat) (s : State) : Host.Outcome State Fault Refusal :=
  if !s.hasLink l || (s.link l).st != lNEGOTIATE then .next s
  else if isamaj != 3 || fec != 1 then .next (s.failLink l 3)
  else
    let n := min lanes (s.link l).lanes
    if n < fewestLanes l then .next (s.failLink l 2)
    else .next (s.modLink l fun k =>
      { k with st := lTIMESYNC, lanes := n, peerid := devid % 2 ^ 64, beyond := devid % 2 ^ 64, peerport := port % 16, exchanges := 0, settled := 0,
               credits := (List.range 4).map fun v => (v, credits / 256 ^ v % 256) })

/-! ## Time synchronisation (R401) -/

/-- The device disciplines its time base over this port: it leads toward the lowest identity that any UP port reaches. -/
def State.follows (s : State) (l : Nat) : Bool :=
  let id := (s.link l).beyond
  id < Config.devid.toNat && s.links.all fun e => 8 ≤ e.1 || !(e.2.up) || id ≤ e.2.beyond

/-- The fabric beyond a port: the lowest identity that the peer, or a device reached through it, has. -/
def State.reachBeyond (s : State) (l id : Nat) : State :=
  if l < 8 && ((s.link l).up || (s.link l).st = lTIMESYNC) then s.modLink l fun k => { k with beyond := min k.peerid id } else s

/-- Eight offsets within 10 ns settle; 64 exchanges without settling fail. -/
def State.settleTime (s : State) (l : Nat) : State :=
  let k := s.link l
  if 8 ≤ k.settled then s.modLink l fun k => k.enter (if k.lanes = 4 then lUP else lDEGRADED)
  else if 64 ≤ k.exchanges then s.failLink l 4
  else s

/-- TIME_FLIT_EXCHANGE: a time flit of each side, the offset and the latency; a step of the time base only in TIMESYNC,
before a kernel has read it. A later slew is a matter of how fast time passes, which the model leaves open. -/
def execTimeFlitExchange (l t1 t2 t3 t4 : Nat) (s : State) : Host.Outcome State Fault Refusal :=
  let st := (s.link l).st
  let off := (((t2 : Int) - t1) - ((t4 : Int) - t3)) / 2
  let lat := ((((t4 : Int) - t1) - ((t3 : Int) - t2)) / 2).toNat
  if !s.hasLink l || 8 ≤ l || !(s.link l).maySend 3 then .next s
  else if st = lTIMESYNC then
    let s1 := s.modLink l fun k =>
      { k.exchanged with latns := lat % 2 ^ 32, exchanges := k.exchanges + 1, settled := if off.natAbs ≤ 10 then k.settled + 1 else 0 }
    let s2 := if s.follows l && !s.timeRead then { s1 with time := ((s.time : Int) - off).toNat % 2 ^ 64 } else s1
    .next (s2.settleTime l)
  else if st = lUP || st = lDEGRADED then .next (s.modLink l fun k => { k.exchanged with latns := lat % 2 ^ 32 })
  else .next s

/-! ## Lanes and links lost (R403) -/

/-- LANES_LOST: `lanes` remain. -/
def execLanesLost (l lanes : Nat) (s : State) : Host.Outcome State Fault Refusal :=
  if !s.hasLink l || !(s.link l).up || (s.link l).lanes ≤ lanes then .next s
  else if lanes < fewestLanes l then .next (s.failLink l 2)
  else .next (s.modLink l fun k => { k with st := lDEGRADED, lanes := lanes })

/-- LINK_LOST. -/
def execLinkLost (l code : Nat) (s : State) : Host.Outcome State Fault Refusal :=
  if s.hasLink l && (s.link l).up then .next (s.failLink l (code % 256)) else .next s

/-! ## Flits (R397-R399) -/

/-- The lane with the most corrected codewords is dropped (R399, R403). -/
def State.dropLane (s : State) (l : Nat) : State :=
  let n := (s.link l).lanes - 1
  if n < fewestLanes l then s.failLink l 5
  else s.modLink l fun k => { k with st := lDEGRADED, lanes := n, naks := 0 }

/-- NAK: every flit after the last good one is sent again; sixteen without an advance drop a lane. -/
def execNak (l ackseq : Nat) (s : State) : Host.Outcome State Fault Refusal :=
  if !s.hasLink l || !(s.link l).up then .next s
  else
    let s1 := s.modLink l fun k =>
      let k := k.acks (ackseq % 4096)
      { k with replay := (k.replay + k.sent.length) % 2 ^ 64, naks := k.naks + 1 }
    .next (if 16 ≤ (s1.link l).naks then s1.dropLane l else s1)

/-- The port by which a request or response that has arrived over a Wenkel port leaves again: its payload is for another route
(R400). -/
def State.forwardPort (s : State) (l ty : Nat) (pay : List Nat) : Option Nat :=
  match Config.flitRoute pay with
  | some r => if l < 8 && (ty = 1 || ty = 2) && 128 ≤ s.routes.getD (r % 128) 0 then some (s.routes.getD (r % 128) 0 % 8) else none
  | none => none

/-- FLIT_RECEIVE: a flit that fails its check is answered with a nak and not passed on; a good one returns credits, takes
its place in sequence and is passed on, one for another route to its port. `good`: every FEC codeword is correctable. -/
def execFlitReceive (l : Nat) (flit : List Nat) (good : Bool) (s : State) : Host.Outcome State Fault Refusal :=
  if !s.hasLink l || 12 ≤ l || !((s.link l).up || ((s.link l).st = lTIMESYNC && flitField flit 53 52 = 3)) then .next s
  else if !good then .next (s.modLink l fun k => { k with uncorr := (k.uncorr + 1) % 2 ^ 64 })
  else if !flitCrcOk flit then .next s
  else
    let s1 := s.modLink l fun k =>
      (k.acks (flitField flit 27 16)).credited (flitField flit 55 54) (flitField flit 63 56)
    let ty := flitType flit
    if ty = 6 then execNak l (flitField flit 27 16) s1
    else if (ty = 1 || ty = 2 || ty = 3 || ty = 5) && flitSeq flit = (s.link l).rxseq then
      let vl := flitField flit 53 52
      let s2 := s1.modLink l fun k => { k with rxseq := (k.rxseq + 1) % 4096, owed := k.owed.set vl (k.owed.getD vl 0 + 1) }
      .next (match s.forwardPort l ty (flitPay flit) with
        | some p => s2.modLink p fun k => { k with queue := k.queue ++ [(vl, ty, flitPay flit)] }
        | none => s2.modLink l fun k => { k with received := k.received ++ [vl :: ty :: flitPay flit] })
    else .next s1

/-! ## Reductions in the fabric (R402) -/

/-- The 56 bytes of a reduce message. -/
def Reduce.bytes (r : Reduce) : List Nat := r.value.map (·.toNat) ++ (bytesOfNat 8 r.dst).map (·.toNat)
/-- A link sends the oldest messages of its reduce queue, where it has a credit and room in its replay buffer. -/
def State.sendReduces (s : State) (l : Nat) : State :=
  let k := s.link l
  let rs := k.reduces.take 4
  if !k.up || rs.isEmpty || !k.maySend 2 then s
  else s.modLink l fun k =>
    { k.send 2 3 (rs.flatMap Reduce.bytes) with reduces := k.reduces.drop 4, unacked := k.unacked ++ rs }

/-- A link sends: a flit that waits, where one may leave, else reduce messages. -/
def State.sendNext (s : State) (l : Nat) : State :=
  let t := s.sendFlit l
  if (t.link l).queue.length < (s.link l).queue.length then t else s.sendReduces l

/-- REDUCE_MESSAGE: a message that arrives over a port is sent on where its route leads off the device, combined with one
that waits for the same destination; else it is added into its destination's value. -/
def execReduceMessage (l addr : Nat) (value : List Nat) (s : State) : Host.Outcome State Fault Refusal :=
  let bs := value.map (BitVec.ofNat 8)
  if !s.hasLink l || 8 ≤ l || !(s.link l).up || bs.length != 48 then .next s
  else if isFabric addr && 128 ≤ s.route addr then
    .next (s.modLink (s.route addr % 8) fun k => k.addReduce ⟨addr, bs, [none]⟩)
  else
    let pa := addr % 2 ^ 40
    if dramBytes s.variant < pa + 48 then .next s
    else
      let sum := (exOfBytes (s.mem.bytes pa 48)).combine (exOfBytes bs)
      .next (s.putShared pa sum.bytes)

/-! ## Requests of other devices (R398, R400) -/

/-- Where `n` bytes lie that another device names by a physical address: on a third device, behind a port; or in DRAM here. -/
def State.peerPlace (s : State) (addr n : Nat) : Option Nat ⊕ Nat :=
  if isFabric addr && 128 ≤ s.route addr then .inl (some (s.route addr % 8))
  else if dramBytes s.variant < addr % 2 ^ 40 + n || inMetadata (addr % 2 ^ 40) ||
      s.poison.contains (addr % 2 ^ 40 / 4096) || 4096 < addr % 4096 + n then .inl none
  else .inr (addr % 2 ^ 40)

/-- An exchange write of another device arrives over a port: it lands, and its acknowledgment waits on virtual lane 1; or it
goes on by the route table. -/
def State.peerWrite (s : State) (l addr : Nat) (bytes : List Nat) : State :=
  if 8 ≤ l || !(s.link l).up || 240 < bytes.length then s
  else
    let t := { s with free := s.free + 241 }
    match s.peerPlace addr bytes.length with
    | .inl (some p) => t.askFlit p 0 1 (freePay s.free)
    | .inl none => s
    | .inr pa => (t.putShared pa (bytes.map (BitVec.ofNat 8))).askFlit l 1 2 (freePay s.free)

/-- An exchange read of another device: the bytes wait on virtual lane 1. -/
def State.peerRead (s : State) (l addr n : Nat) : State :=
  if 8 ≤ l || !(s.link l).up || 240 < n then s
  else match s.peerPlace addr n with
    | .inl (some p) => { s with free := s.free + 241 }.askFlit p 0 1 (freePay s.free)
    | .inl none => s
    | .inr pa => s.askFlit l 1 2 ((s.mem.bytes pa n).map (·.toNat))

/-- No message of a context's `xred` waits for an acknowledgment. -/
def State.allAcked (s : State) (cid : Nat) : Bool :=
  s.links.all fun e => !((e.2.reduces ++ e.2.unacked).any fun r => r.froms.contains (some cid))

/-- The operation at the head of a core's engine, acknowledged over every port, completes. -/
def State.acknowledged (s : State) (core : Nat) : State :=
  match (s.core core).copies with
  | [] => s
  | op :: _ =>
    match s.ctx? op.cid, op.ack with
    | some c, some (_, flags, n) => (s.popCopy core).copyEnds c op flags n
    | none, some (_, flags, _) => (s.popCopy core).copyDone op flags
    | _, none => s

/-- The peer of a port has landed its part of the operation at the head of a core's engine. -/
def State.ackedOver (s : State) (core l : Nat) : State :=
  match (s.core core).copies with
  | [] => s
  | op :: rest =>
    match op.ack with
    | some (ls, flags, n) =>
      if op.kind = 5 || !ls.contains l then s
      else if (ls.erase l).isEmpty then s.acknowledged core
      else s.modCore core fun k => { k with copies := { op with ack := some (ls.erase l, flags, n) } :: rest }
    | none => s

/-- ACK: below 4,096 `n` is the core whose operation the peer has landed; above, `n` less 4,096 reduce messages of the
port, oldest first, are acknowledged, and an `xred` with none left is complete. -/
def execAck (l n : Nat) (s : State) : Host.Outcome State Fault Refusal :=
  if !s.hasLink l || 8 ≤ l || !(s.link l).up then .next s
  else if n < 4096 then .next (s.ackedOver n l)
  else
    let s1 := s.modLink l fun k => { k with unacked := k.unacked.drop (n - 4096) }
    .next (s.cores.foldl (fun s e =>
      match e.2.copies with
      | op :: _ => if op.kind = 5 && op.ack.isSome && s.allAcked op.cid then s.acknowledged e.1 else s
      | [] => s) s1)

end Sys2Proof.Machine
end

