-- ==== Sys2Proof/Machine/Power.lean ====
section
/-! DEFINITION. Bring-up (R414-R417), uncorrectable errors (R414), and attestation (R418). -/
namespace Sys2Proof.Machine

/-! ## Bring-up (R395, R416) -/

/-- A link at a state, with its full lanes. -/
def Link.at (l st : Nat) : Link := { Link.fresh with st := st, lanes := if st = lUP then fullLanes l else 0, credits := if isBridge l then vlCredits else [] }

/-- The part after reset: what is fused stays, and what lies outside the part (the host's memory and what the host has been
sent), and the model's own counters. -/
def State.restart (s : State) : State :=
  { State.reset with
    variant := s.variant, free := s.free, turn := s.turn, agenda := s.agenda
    mem := s.mem.filter fun e => 2 ^ 65 ≤ e.1
    msix := s.msix, aer := s.aer, hostReads := s.hostReads, replies := s.replies }

/-- A failure of stage 7 at port `p` is listed as 16 + `p`, of stage 8 as 32 + `p`. -/
def portCode (fails : List Nat) (p : Nat) : Option Nat :=
  if fails.contains (16 + p) then some 3 else if fails.contains (32 + p) then some 4 else none

/-- The links of a part that has come up; the PCIe link trains again later where stage 6 has failed. -/
def linksUp (variant : Nat) (fails : List Nat) : Tab Link :=
  ((List.range 13).filter (linkPresent variant)).map fun l =>
    (l, if l < 8 then (match portCode fails l with
          | some c => { Link.at l lFAILED with failcode := c }
          | none => Link.at l lDETECT)
        else if l = 12 && fails.contains 6 then Link.at l lTRAIN
        else Link.at l lUP)

/-- POWER_ON: the stages run in order; `fails` lists those that fail, and `fwver` is the version of the image. -/
def execPowerOn (fails : List Nat) (fwver : Nat) (s : State) : Host.Outcome State Fault Refusal :=
  let t := s.restart
  if fails.contains 1 then .next { t with ras := { t.ras with booterr := 1, held := true } }
  else match [2, 3, 4, 5].find? fails.contains with
    | some n =>
      .next { t with ras := { t.ras with bootstage := n - 1, booterr := n, recovery := true }, links := [(12, Link.at 12 lUP)] }
    | none =>
      let late := if fails.any (fun x => 32 ≤ x) then 8 else if fails.any (fun x => 16 ≤ x) then 7 else 0
      .next { t with
        ras := { t.ras with bootstage := 8, booterr := if fails.contains 6 then 6 else late, fwver := fwver % 2 ^ 32 }
        links := linksUp s.variant fails }

/-- PCIE_TRAIN_RETRY: after a failure of stage 6, training is tried again; `lanes` train, at the link's rate. -/
def execPcieTrainRetry (ok : Bool) (lanes : Nat) (s : State) : Host.Outcome State Fault Refusal :=
  if ok && s.ras.booterr = 6 && (s.link 12).st = lTRAIN && fewestLanes 12 ≤ lanes then
    .next (s.modLink 12 fun k => { k with st := k.trained 12 (min lanes 16), lanes := min lanes 16 })
  else .next s

/-- RECOVER: in recovery mode a write of 1 verifies the staged image. The signature is against a key the spec does not
give, so whether it verifies is left open; success resets the part into the image. -/
def execRecover (v : Nat) (s : State) : Host.Outcome State Fault Refusal :=
  if v != 1 || !s.ras.recovery then .next s
  else
    let s1 := { s with free := s.free + 2 }
    if Config.freePick s.free % 2 = 0 then .next { s1 with ras := { s1.ras with booterr := 3 } }
    else execPowerOn [] (Config.freePick (s.free + 1)) s1

/-! ## Uncorrectable errors (R414) -/

/-- The partition of a context. -/
def State.partOf? (s : State) (cid : Nat) : Option Nat := (s.ctx? cid).map fun c => c.id.part

/-- UNCORRECTABLE_ERROR. `storage` 0: DRAM, or the metadata of a block, at physical address `addr`, met by context `cid`:
the block is poisoned. 1: second-level cache or a bank: what reads the word at key `addr` is posted with CAUSE 5. 2: word
`addr` of track `cid` of a core. 3: registers, tiles or the control store of a core: firmware stops its partition. 4: word
`addr` of the save area of context `cid`: its restoration is posted with CAUSE 5 (DESIGN CHOICE, notes/assumptions/36.md). -/
def execUncorrectableError (storage core cid addr : Nat) (s : State) : Host.Outcome State Fault Refusal :=
  let s1 := { s with ras := { s.ras with uecnt := (s.ras.uecnt + 1) % 2 ^ 64 } }
  if storage = 0 then
    if s.poison.contains (addr / 4096) || dramBytes s.variant ≤ addr then .next s1
    else
      let s2 := { s1 with poison := insertHeld (addr / 4096) s.poison }
      .next (match s.partOf? cid with
        | some p => s2.modPart p fun u => { u with psnblk := (u.psnblk + 1) % 2 ^ 64 }
        | none => s2)
  else if storage = 1 then .next { s1 with ecc := insertHeld (addr / 8) s1.ecc }
  else if storage = 2 then
    if onDeck core && cid < 16 && addr < 4096 then .next (s1.modTrack core cid fun t => { t with bad := insertHeld addr t.bad })
    else .next s1
  else if storage = 3 then
    match s.partOfCluster (clusterOf core) with
    | some p => if (s.part p).pstate = 0 then .next (s1.stopped p 2 0 4096) else .next s1
    | none => .next s1
  else if storage = 4 then
    match s.ctx? cid with
    | some c =>
      if c.st.out then .next (s1.addBad { badOf c (BitVec.ofNat 64 (addr / 8 * 8)) 0 5 0 0 14 0xFF [] 0 with counted := false })
      else .next s1
    | none => .next s1
  else .next s

/-! ## Attestation (R418). Codes and layouts of SPDM 1.3 are PRESUMED: notes/assumptions/13.md. -/

/-- The responder answers: the part is not held in reset and its PCIe link carries traffic. -/
def State.answers (s : State) : Bool := !s.ras.held && (s.link 12).up

/-- A response. -/
def State.reply (s : State) (code : Nat) (data : List Nat) : State := { s with replies := s.replies ++ [{ code := code, data := data }] }
/-- A response that ends in `n` bytes the spec does not give, made afresh (a signature). -/
def State.replyFree (s : State) (code : Nat) (data : List Nat) (n : Nat) : State :=
  { s.reply code (data ++ (List.range n).map fun i => (Config.freeByte (s.free + i)).toNat) with free := s.free + n }

/-- `UnsupportedRequest`, with the request's code. -/
def State.unsupported (s : State) (code : Nat) : State := s.reply 0x7F [0x07, code % 256]

def execGetVersion (s : State) : Host.Outcome State Fault Refusal :=
  .next (if s.answers then s.reply 0x04 [0x13] else s)

/-- Certificates, challenges and measurements with signatures; no sessions and no key exchange. -/
def execGetCapabilities (s : State) : Host.Outcome State Fault Refusal :=
  .next (if s.answers then s.reply 0x61 [0x02 + 0x04 + 0x10] else s)

/-- RSASSA-PSS with RSA-4096, and SHA-512. -/
def execNegotiateAlgorithms (s : State) : Host.Outcome State Fault Refusal :=
  .next (if s.answers then s.reply 0x63 [0x40, 0x04] else s)

/-- The SHA-512 digest of the chain in slot 0, a fixed value of the part. -/
def execGetDigests (s : State) : Host.Outcome State Fault Refusal :=
  .next (if s.answers then s.reply 0x01 (0x01 :: (List.range 64).map fun i => (Config.chainDigest i).toNat) else s)

/-- Byte `i` of the chain in slot 0: the identity attested is the DEVID of R396, which stands first here (DESIGN CHOICE,
notes/assumptions/13.md); the others are fixed values of the part. -/
def chainByte (i : Nat) : Nat := if i < 8 then Config.devid.toNat / 256 ^ i % 256 else (Config.chainRest i).toNat

/-- A part of the chain in slot 0, as many bytes as asked for. -/
def execGetCertificate (slot offset len : Nat) (s : State) : Host.Outcome State Fault Refusal :=
  .next (if s.answers then s.reply 0x02 (slot % 256 :: offset % 2 ^ 16 :: (List.range (min len 4096)).map fun i => chainByte (offset % 2 ^ 16 + i)) else s)

/-- The challenge's nonce and an RSA-4096 signature. -/
def execChallenge (slot : Nat) (nonce : List Nat) (s : State) : Host.Outcome State Fault Refusal :=
  .next (if s.answers then s.replyFree 0x03 (slot % 256 :: nonce.take 32) 512 else s)

/-- `caps` with bits [15:0] zero (R24, R25). -/
def State.pkgCaps (s : State) : Nat := (s.caps 0).toNat / 2 ^ 16 * 2 ^ 16

/-- The 32 bytes of the unit map (R25). Figures per package that R2's scaling by stacks could be read to reach (64 queues, 16
partitions) hold for every variant, as PLIMIT's do (DESIGN CHOICE, notes/assumptions/1.md). -/
def State.unitMap (s : State) : List Byte :=
  let nstacks := if s.variant = 2 then 2 else 4
  bytesOfNat 8 s.pkgCaps ++ bytesOfNat 4 (384 * nstacks) ++ bytesOfNat 4 (96 * nstacks) ++ bytesOfNat 8 (dramBytes s.variant) ++
    bytesOfNat 2 64 ++ bytesOfNat 2 16 ++ bytesOfNat 4 0

/-- Measurements 1 to 4: the ROM's version is a fixed value of the part, and the image's digest one of the image. Index 0
asks for their number. -/
def execGetMeasurements (index : Nat) (nonce : List Nat) (s : State) : Host.Outcome State Fault Refusal :=
  let n := nonce.take 32
  .next (if !s.answers then s
    else if index = 0 then s.reply 0x60 (n ++ [4])
    else if index = 1 then s.reply 0x60 (n ++ 1 :: (bytesOfNat 8 Config.romVersion.toNat).map (·.toNat))
    else if index = 2 then s.reply 0x60 (n ++ 2 :: (List.range 64).map fun i => (Config.imageDigest s.ras.fwver i).toNat)
    else if index = 3 then s.reply 0x60 (n ++ 3 :: (bytesOfNat 8 s.pkgCaps).map (·.toNat))
    else if index = 4 then s.reply 0x60 (n ++ 4 :: s.unitMap.map (·.toNat))
    else s.unsupported 0xE0)

/-- Sessions, key exchange and anything else. -/
def execSpdmUnsupportedRequest (code : Nat) (s : State) : Host.Outcome State Fault Refusal :=
  .next (if s.answers then s.unsupported code else s)

end Sys2Proof.Machine
end

