-- ==== Sys2Proof/Machine/Host.lean ====
section
/-! DEFINITION. What the host does through BAR0 and BAR2: register writes and reads (R23, R25, R269, R270, R288, R302, R315,
R318, R331, R357, R370, R393, R400, R405, R408, R415), the cluster map (R23), and the window onto global memory (R435). -/
namespace Sys2Proof.Machine

/-! ## The cluster map (R23) -/

/-- The cluster holds nothing of its old partition. What a switch or stop has saved is not on the cluster. A track kept
for a successor alone does not bar the write: the list of R23 does not name tracks (DESIGN CHOICE,
notes/assumptions/32.md). -/
def State.clusterEmpty (s : State) (cl : Nat) : Bool :=
  let cores := clusterCores cl
  let here (c : Ctx) : Bool := cores.contains c.id.core && s.partOfCluster cl = some c.id.part && s.resident c.id.part &&
    (!c.st.out || !c.decl.banks.isEmpty || !c.binds.isEmpty)
  !s.ctxs.any here && (s.queueOf cl).isEmpty &&
    cores.all fun c => let k := s.core c
      k.kept.isEmpty && k.rings.all fun r => !r.2.defd

/-- Nothing of a partition depends on where its service block is. -/
def State.serviceFree (s : State) (p : Nat) : Bool :=
  (s.kernels.all fun k => k.2.part != p || k.2.st = 0 || 4 ≤ k.2.st) &&
    (s.insts.all fun i => s.instPart i.2 != p || i.2.held.isEmpty) && (s.part p).windows.isEmpty

/-- The lowest-numbered cluster of a partition. -/
def State.lowest (s : State) (p : Nat) : Option Nat := (List.range (clusterCount s.variant)).find? fun c => s.partOfCluster c = some p

/-- The service block of a partition may be where the map now puts it. -/
def State.serviceOk (s t : State) (p : Option Nat) : Bool :=
  match p with
  | none => true
  | some p => s.lowest p = t.lowest p || s.serviceFree p

/-- CLUSTER_MAP_WRITE: a write of one byte by a function. -/
def execClusterMapWrite (fn cl v : Nat) (s : State) : Host.Outcome State Fault Refusal :=
  let old := s.partOfCluster cl
  let t := { s with cmap := s.cmap.set cl v }
  let busy := old.any fun p => (s.part p).pstate = 1 || (s.part p).pstate = 3
  if fn != 0 || clusterCount s.variant ≤ cl || v / 16 % 8 != 0 || 256 ≤ v || busy || !s.clusterEmpty cl ||
      !s.serviceOk t old || !s.serviceOk t (t.partOfCluster cl) then .next s
  else if v = s.cmap.getD cl 0 then .next s
  else
    let t1 := t.loseCluster cl (clusterCores cl)
    .next ((deckCores cl).foldl (fun s c => s.modChute c fun _ => Chute.fresh) t1)

/-! ## Register writes -/

/-- The state an outcome goes on with. -/
def nextOr (s : State) : Host.Outcome State Fault Refusal → State
  | .next t => t
  | _ => s

/-- An access of `n` bytes at `a` touches the register of `rs` bytes at `off`. -/
def touches (a n off rs : Nat) : Bool := a < off + rs && off < a + n
/-- A register's value with the bytes an access writes. -/
def mergeReg (a n v off rs cur : Nat) : Nat :=
  (List.range rs).foldl (fun x i =>
    let b := if a ≤ off + i && off + i < a + n then v / 256 ^ (off + i - a) % 256 else cur / 256 ^ i % 256
    x + b * 256 ^ i) 0

/-- A write access: its offset in a block, size and value. -/
structure Wr where
  a : Nat
  n : Nat
  v : Nat

/-- Give a register its new value, where the access touches it and the value is permitted. -/
def Wr.reg (w : Wr) (off rs cur : Nat) (ok : Nat → Bool) (f : Nat → State → State) (s : State) : State :=
  if touches w.a w.n off rs then
    let x := mergeReg w.a w.n w.v off rs cur
    if ok x then f x s else s
  else s

/-- Any value. -/
def anyVal (_ : Nat) : Bool := true

/-- QCFG (R270). -/
def Queue.config (u : Queue) (fn v : Nat) : Queue :=
  let l := v % 32
  { u with part := if fn = 0 then v / 2 ^ 16 % 16 else u.part, vec := v / 32 % 2048, log2 := if within 4 16 l then l else 4 }

/-- QCTRL (R270). -/
def State.queueControl (s : State) (q op : Nat) : State :=
  match op with
  | 1 => nextOr s (execQueueEnable q s)
  | 2 => nextOr s (execQueueDisable q s)
  | 3 => nextOr s (execQueueResume q s)
  | 4 => nextOr s (execQueueResumeSkip q s)
  | _ => s

/-- The block of queue `q` (R269, R270). -/
def State.writeQueue (s : State) (fn q : Nat) (w : Wr) : State :=
  let u := s.queue q
  let off := u.st = qDISABLED
  if (w.n != 4 && w.n != 8) || (fn != 0 && fn != u.part + 1) then s
  else
    let s1 := w.reg 0x00 8 u.qbase (fun x => off && x % 4096 = 0) (fun x s => s.modQueue q fun u => { u with qbase := x }) s
    let s2 := w.reg 0x08 4 0 (fun _ => off) (fun x s => s.modQueue q fun u => u.config fn x) s1
    let s3 := w.reg 0x10 4 0 anyVal (fun x s => nextOr s (execTail q x s)) s2
    w.reg 0x28 8 0 (fun x => x < 8) (fun x s => s.queueControl q x) s3

/-- The balancer block (R288). -/
def State.writeBalancer (s : State) (fn p : Nat) (w : Wr) : State :=
  if !ownsBlock fn p then s
  else
    let u := s.part p
    let s1 := w.reg 0x00 4 0 anyVal (fun x s => nextOr s (execBalcmd fn p x s)) s
    let s2 := w.reg 0x04 4 u.tbal (within 256 (2 ^ 20)) (fun x s => s.modPart p fun u => { u with tbal := x }) s1
    w.reg 0x08 4 u.ageplace (within 1 (2 ^ 31)) (fun x s => s.modPart p fun u => { u with ageplace := x }) s2

/-- The key block (R302). -/
def State.writeKeys (s : State) (fn p : Nat) (w : Wr) : State :=
  if !ownsBlock fn p then s
  else w.reg 0x00 4 (s.part p).agekey (within 64 (2 ^ 31)) (fun x s => s.modPart p fun u => { u with agekey := x }) s

/-- PTAB as one number, deck column by byte. -/
def Part.ptabNat (u : Part) : Nat := (List.range 16).foldl (fun x i => x + u.ptab.getD i 0 % 256 * 256 ^ i) 0
def ptabOf (x : Nat) : Tab Nat := (List.range 16).map fun i => (i, x / 256 ^ i % 256)

/-- The sync controller block (R315). -/
def State.writeSync (s : State) (fn p : Nat) (w : Wr) : State :=
  if !ownsBlock fn p then s
  else
    let u := s.part p
    let s1 := w.reg 0x00 4 u.holdmax (within 0 65535) (fun x s => s.modPart p fun u => { u with holdmax := x }) s
    let s2 := w.reg 0x04 1 u.spann (within 1 16) (fun x s => s.modPart p fun u => { u with spann := x }) s1
    let s3 := w.reg 0x05 1 u.spanrank (fun x => x < (s2.part p).spann) (fun x s => s.modPart p fun u => { u with spanrank := x }) s2
    let s4 := w.reg 0x10 16 u.ptabNat anyVal (fun x s => s.modPart p fun u => { u with ptab := ptabOf x }) s3
    let s5 := w.reg 0x20 32 u.spannodes anyVal (fun x s => s.modPart p fun u => { u with spannodes := x }) s4
    w.reg 0x40 32 u.tnodes anyVal (fun x s => s.modPart p fun u => { u with tnodes := x }) s5

/-- The bytes of an access, each with its address. -/
def Wr.bytes (w : Wr) : List (Nat × Nat) := (List.range w.n).map fun i => (w.a + i, w.v / 256 ^ i % 256)

/-- One byte of the role table (R318). -/
def State.writeRole (s : State) (fn p core v : Nat) : State :=
  if ownsBlock fn p && v < 3 && coreExists s.variant core && s.partOfCluster (clusterOf core) = some p then
    s.modPart p fun u => { u with role := u.role.set core v }
  else s

/-- The page block (R357): only the physical function writes ROOT. -/
def State.writePage (s : State) (fn p : Nat) (w : Wr) : State :=
  if fn != 0 then s
  else w.reg 0x00 8 (s.part p).root (fun x => x % 4096 = 0) (fun x s => s.modPart p fun u => { u with root := x }) s

/-- PCMD (R331). -/
def State.partCommand (s : State) (fn p v : Nat) : State :=
  match v % 8 with
  | 1 => nextOr s (execSwitchOut fn p (v.testBit 12) (v / 2 ^ 8 % 16) s)
  | 2 => nextOr s (execSwitchIn fn p s)
  | 3 => nextOr s (execStop fn p s)
  | 4 => nextOr s (execPartitionResume fn p s)
  | 5 => nextOr s (execPartitionKill fn p s)
  | _ => s

/-- A 4 KiB-aligned global address; or 0, the value from reset on: none. -/
def placeable (x : Nat) : Bool := x = 0 || (isGlobal x && x % 4096 = 0)

/-- The control block (R331): only the physical function writes it. The overflow region is not moved while it holds
messages. -/
def State.writeControl (s : State) (fn p : Nat) (w : Wr) : State :=
  if fn != 0 then s
  else
    let u := s.part p
    let free := u.moved.isEmpty
    let s1 := w.reg 0x00 4 0 anyVal (fun x s => s.partCommand fn p x) s
    let s2 := w.reg 0x08 8 u.ptick anyVal (fun x s => s.modPart p fun u => { u with ptick := x }) s1
    let s3 := w.reg 0x10 8 u.stoprec placeable (fun x s => s.modPart p fun u => { u with stoprec := x }) s2
    let s4 := w.reg 0x18 4 u.dlnotify anyVal
      (fun x s => s.modPart p fun u => { u with dlnotify := x / 2 ^ 31 * 2 ^ 31 + x / 2 ^ 16 % 32 * 2 ^ 16 + x % 4096 }) s3
    let s5 := w.reg 0x24 4 u.msgwait (within 256 (2 ^ 31)) (fun x s => s.modPart p fun u => { u with msgwait := x }) s4
    let s6 := w.reg 0x28 8 u.movbase (fun x => free && placeable x) (fun x s => s.modPart p fun u => { u with movbase := x }) s5
    w.reg 0x30 4 u.movslots (fun x => free && x ≤ 2 ^ 24) (fun x s => s.modPart p fun u => { u with movslots := x }) s6

/-- Entries of the track map (R370). -/
def State.writeTracks (s : State) (fn : Nat) (w : Wr) : State :=
  ((List.range 5).map fun i => w.a / 2 + i).foldl (fun s e =>
    w.reg (2 * e) 2 ((s.track (e / 16) (e % 16)).entry) anyVal (fun x s => nextOr s (execTrackMapWrite fn (e / 16) (e % 16) x s)) s) s

/-- The power block (R408). -/
def State.writePower (s : State) (fn : Nat) (w : Wr) : State :=
  if fn != 0 then s
  else
    let s1 := w.reg 0x04 4 s.power.plimit (within 500 3000) (fun x s => { s with power := { s.power with plimit := x } }) s
    w.reg 0x08 2 s.power.gateen anyVal (fun x s => { s with power := { s.power with gateen := x } }) s1

/-- LCTRL of a link (R393). -/
def State.linkControl (s : State) (fn l v : Nat) : State :=
  match v with
  | 1 => nextOr s (execLinkEnable fn l s)
  | 2 => nextOr s (execLinkDisable fn l s)
  | 3 => nextOr s (execRetrain fn l s)
  | _ => s

/-- The route table (R400): one byte per route identifier. -/
def State.writeRoute (s : State) (fn r v : Nat) : State :=
  if fn = 0 && r < 128 then { s with routes := s.routes.set r (v / 128 * 128 + v % 8) } else s

/-- A write at an offset of BAR0, outside recovery mode. The power block stands where the track map has the entries of core
0x800, a memory core without tracks. A write of several bytes of the cluster map is one write for each byte, in ascending
order, each accepted on what the earlier ones left (DESIGN CHOICE, notes/assumptions/35.md). -/
def State.writeBar0 (s : State) (fn a n v : Nat) : State :=
  let w (base size : Nat) : Wr := ⟨(a - base) % size, n, v⟩
  let p (base : Nat) := (a - base) / 256
  if within 0x80 0x87 a then
    (w 0x80 8).reg 0 8 (s.winbase.getD fn (2 ^ 40)) anyVal (fun x s => { s with winbase := s.winbase.set fn x }) s
  else if within 0x10000 0x10FFF a then s.writeQueue fn ((a - 0x10000) / 64) (w 0x10000 64)
  else if within 0x20000 0x20FFF a then s.writeBalancer fn (p 0x20000) (w 0x20000 256)
  else if within 0x30000 0x30FFF a then s.writeKeys fn (p 0x30000) (w 0x30000 256)
  else if within 0x40000 0x40FFF a then s.writeSync fn (p 0x40000) (w 0x40000 256)
  else if within 0x50000 0x5FFFF a then
    (w 0x50000 0x10000).bytes.foldl (fun s b => s.writeRole fn (b.1 / 4096) (b.1 % 4096) b.2) s
  else if within 0x60000 0x60FFF a then s.writePage fn (p 0x60000) (w 0x60000 256)
  else if within 0x70000 0x70FFF a then s.writeControl fn (p 0x70000) (w 0x70000 256)
  else if within 0x90000 0x9001F a then s.writePower fn (w 0x90000 256)
  else if within 0x80000 0x9FFFF a then s.writeTracks fn (w 0x80000 0x20000)
  else if within 0xB0000 0xB007F a then (w 0xB0000 128).bytes.foldl (fun s b => s.writeRoute fn b.1 b.2) s
  else if within 0xC0000 0xC0CFF a then
    (w 0xC0000 256).reg 0x08 4 0 anyVal (fun x s => s.linkControl fn ((a - 0xC0000) / 256) x) s
  else if within 0xD0000 0xD017F a then
    (w 0xD0000 512).bytes.foldl (fun s b => nextOr s (execClusterMapWrite fn b.1 b.2 s)) s
  else s

/-- BAR0_REGISTER_WRITE: a write of 1, 2, 4 or 8 aligned bytes by a function; any other is discarded. In recovery mode only
RECOVER takes writes (R415, R417). -/
def execBar0RegisterWrite (fn addr size v : Nat) (s : State) : Host.Outcome State Fault Refusal :=
  if !s.hostUp || !(size = 1 || size = 2 || size = 4 || size = 8) || addr % size != 0 || 17 ≤ fn || 2 ^ (8 * size) ≤ v then .next s
  else if touches addr size 0xA0028 4 then
    (if fn = 0 then execRecover (mergeReg addr size v 0xA0028 4 0) s else .next s)
  else if s.ras.recovery then .next s
  else .next (s.writeBar0 fn addr size v)

/-! ## Register reads -/

/-- The bytes of a queue's block. -/
def Queue.image (u : Queue) (progress : Nat) : List Byte :=
  bytesOfNat 8 u.qbase ++ bytesOfNat 4 (u.part * 2 ^ 16 + u.vec * 32 + u.log2) ++ bytesOfNat 4 0 ++ bytesOfNat 4 u.tail ++
    bytesOfNat 4 u.fetch ++ bytesOfNat 8 progress ++ bytesOfNat 8 u.status ++ bytesOfNat 24 0

/-- Bits of a set of numbers. -/
def bitsOf (l : List Nat) : Nat := l.foldl (fun x i => x ||| 2 ^ i) 0

def Part.balancerImage (u : Part) : List Byte := bytesOfNat 4 0 ++ bytesOfNat 4 u.tbal ++ bytesOfNat 4 u.ageplace
def Part.keyImage (u : Part) : List Byte :=
  bytesOfNat 8 u.agekey ++ bytesOfNat 8 u.rsvcnt ++ bytesOfNat 8 u.kskip ++ bytesOfNat 8 u.kwtrap
def Part.syncImage (u : Part) : List Byte :=
  bytesOfNat 4 u.holdmax ++ bytesOfNat 1 u.spann ++ bytesOfNat 1 u.spanrank ++ bytesOfNat 10 0 ++ bytesOfNat 16 u.ptabNat ++
    bytesOfNat 32 u.spannodes ++ bytesOfNat 32 u.tnodes ++ bytesOfNat 8 u.phases ++ bytesOfNat 8 u.heldcyc
def Part.pageImage (u : Part) : List Byte :=
  bytesOfNat 8 u.root ++ bytesOfNat 2 (bitsOf u.windows.keys) ++ bytesOfNat 2 (bitsOf ((u.windows.filter fun w => w.2.snap).map (·.1))) ++
    bytesOfNat 4 0 ++ bytesOfNat 8 u.walks ++ bytesOfNat 8 u.merged ++ bytesOfNat 8 u.psnblk
def Part.controlImage (u : Part) : List Byte :=
  bytesOfNat 4 0 ++ bytesOfNat 4 (u.reason * 256 + u.pstate) ++ bytesOfNat 8 u.ptick ++ bytesOfNat 8 u.stoprec ++
    bytesOfNat 4 u.dlnotify ++ bytesOfNat 4 u.posts ++ bytesOfNat 4 u.resolved ++ bytesOfNat 4 u.msgwait ++
    bytesOfNat 8 u.movbase ++ bytesOfNat 4 u.movslots ++ bytesOfNat 4 u.moved.length
def Link.image (k : Link) : List Byte :=
  bytesOfNat 8 (k.peerport * 2 ^ 24 + k.lanes * 2 ^ 16 + k.failcode * 2 ^ 8 + k.st) ++ bytesOfNat 4 0 ++ bytesOfNat 4 k.latns ++
    bytesOfNat 8 k.peerid ++ bytesOfNat 8 k.corr ++ bytesOfNat 8 k.uncorr ++ bytesOfNat 8 k.replay

/-- Clusters in OFF (R408). -/
def State.offCount (s : State) : Nat := (s.clusters.filter fun c => c.2.gate = 2).length
def State.powerImage (s : State) : List Byte :=
  bytesOfNat 4 s.power.pmw ++ bytesOfNat 4 s.power.plimit ++ bytesOfNat 2 s.power.gateen ++ bytesOfNat 6 s.offCount ++
    bytesOfNat 8 s.power.bicred ++ bytesOfNat 8 s.power.zecred
def State.rasImage (s : State) : List Byte :=
  bytesOfNat 1 s.ras.bootstage ++ bytesOfNat 3 s.ras.booterr ++ bytesOfNat 4 s.ras.fwver ++ bytesOfNat 8 s.ras.cecnt ++
    bytesOfNat 8 s.ras.uecnt ++ bytesOfNat 8 (s.cores.foldl (fun n c => n + c.2.assay.toNat) 0) ++ bytesOfNat 8 s.ras.assayu

/-- The byte at an offset of BAR0 as a function reads it: reserved bytes, write-only registers and blocks of other
partitions read 0 (R405). -/
def State.bar0Byte (s : State) (fn a : Nat) : Byte :=
  let p (base : Nat) := (a - base) / 256
  let own (base : Nat) (img : Part → List Byte) : Byte :=
    if ownsBlock fn (p base) then (img (s.part (p base))).getD ((a - base) % 256) 0 else 0
  if within 0x40 0x5F a then s.unitMap.getD (a - 0x40) 0
  else if within 0xA0000 0xA002F a then (if fn = 0 then s.rasImage.getD (a - 0xA0000) 0 else 0)
  else if s.ras.recovery then 0
  else if within 0x80 0x87 a then (bytesOfNat 8 (s.winbase.getD fn (2 ^ 40))).getD (a - 0x80) 0
  else if within 0x10000 0x10FFF a then
    let u := s.queue ((a - 0x10000) / 64)
    if ownsBlock fn u.part then (u.image (s.progress ((a - 0x10000) / 64))).getD ((a - 0x10000) % 64) 0 else 0
  else if within 0x20000 0x20FFF a then own 0x20000 Part.balancerImage
  else if within 0x30000 0x30FFF a then own 0x30000 Part.keyImage
  else if within 0x40000 0x40FFF a then own 0x40000 Part.syncImage
  else if within 0x50000 0x5FFFF a then
    let q := (a - 0x50000) / 4096
    let core := (a - 0x50000) % 4096
    if ownsBlock fn q && s.partOfCluster (clusterOf core) = some q then BitVec.ofNat 8 ((s.part q).role.getD core 0) else 0
  else if within 0x60000 0x60FFF a then own 0x60000 Part.pageImage
  else if within 0x70000 0x70FFF a then own 0x70000 Part.controlImage
  else if within 0x90000 0x9001F a then s.powerImage.getD (a - 0x90000) 0
  else if within 0x80000 0x9FFFF a then
    let e := (a - 0x80000) / 2
    (bytesOfNat 2 (s.track (e / 16) (e % 16)).entry).getD (a % 2) 0
  else if within 0xB0000 0xB007F a then (if fn = 0 then BitVec.ofNat 8 (s.routes.getD (a - 0xB0000) 0) else 0)
  else if within 0xC0000 0xC0CFF a then
    let l := (a - 0xC0000) / 256
    if s.hasLink l then (s.link l).image.getD ((a - 0xC0000) % 256) 0 else 0
  else if within 0xD0000 0xD017F a then BitVec.ofNat 8 (s.cmap.getD (a - 0xD0000) 0)
  else 0

/-- A read of BAR0 by a function (R269, R405): 1, 2, 4 or 8 aligned bytes, of a queue's block 4 or 8; any other reads 0. The
power block shows the meter at the time of the read (R408). -/
def State.bar0Read (s : State) (fn addr size : Nat) : State :=
  let ok := (size = 4 || size = 8 || ((size = 1 || size = 2) && !within 0x10000 0x10FFF addr)) && addr % size = 0
  if !s.hostUp || 17 ≤ fn then s
  else
    let s := if within 0x90000 0x9001F addr then s.metered else s
    { s with hostReads := s.hostReads ++ [some ((List.range size).map fun i => if ok then s.bar0Byte fn (addr + i) else 0)] }

/-! ## BAR2 (R417, R435) -/

/-- The places of a host access, or none where a device access would be posted. -/
def State.hostPlaces (s : State) (p va : Nat) (k : Acc) : Nat → Option (List Nat)
  | 0 => some []
  | n + 1 =>
    match s.globalPlace p va k with
    | .ok key => (State.hostPlaces s p (va + 1) k n).map fun t => key :: t
    | .error _ => none

/-- A host write through BAR2 is recorded: at the handles that it meets, and for later ones (R251). -/
def State.hostWrote (s : State) (va n : Nat) : State :=
  { s with handles := s.handles.map fun h => if overlaps (h.base, h.len) (va, n) then { h with host := true } else h
           hostWrites := insertHeld (va, n) s.hostWrites }

/-- Recovery mode: BAR2 holds the staged image (R417). -/
def State.stage (s : State) (a : Nat) : List Byte → State
  | [] => s
  | b :: t => State.stage (if a < 2 ^ 26 then { s with ras := { s.ras with staged := s.ras.staged.write a b } } else s) (a + 1) t

/-- HOST_BAR2_ACCESS: a function reads `len` bytes, or writes some, at an offset of BAR2. A refused write is discarded and
recorded in the function's AER registers; a refused read ends with Unsupported Request status. -/
def execHostBar2Access (fn addr : Nat) (write : Bool) (bytes : List Nat) (len : Nat) (s : State) :
    Host.Outcome State Fault Refusal :=
  let bs := bytes.map (BitVec.ofNat 8)
  let n := if write then bs.length else len
  let va := s.winbase.getD fn (2 ^ 40) + addr
  if !s.hostUp || 17 ≤ fn || 2 ^ 36 < addr + n then .next s
  else if s.ras.recovery then
    .next (if write then s.stage addr bs
      else { s with hostReads := s.hostReads ++ [some ((List.range n).map fun i =>
        if addr + i < 2 ^ 26 then s.ras.staged.read (addr + i) else 0)] })
  else
    let k : Acc := if write then .store else .load
    let s := s.bringRange (partOfFn fn) va n k
    match s.hostPlaces (partOfFn fn) va k n with
    | none =>
      .next (if write then { s with aer := s.aer ++ [fn] } else { s with hostReads := s.hostReads ++ [none] })
    | some keys =>
      .next (if write then ((keys.zip bs).foldl (fun s e => s.hostByte e.1 e.2) s).hostWrote va n
        else { s with hostReads := s.hostReads ++ [some (keys.map s.homeByte)] })

end Sys2Proof.Machine
end

