-- ==== Sys2Proof/Machine/Page.lean ====
section
/-! DEFINITION. Windows and `tlbinv` (R355, R360-R368), and the end of a walk. -/
namespace Sys2Proof.Machine

/-- `ILLOP` of a window instruction (R367). -/
def pageIllop {α : Type} (reason : Nat) : M α := illop 0x0D reason

/-! ## Blocks of a window's frames (R238, R242) -/

/-- Every block of a 64 KiB frame is brought into the form of its page. -/
def State.bringFrame (s : State) (part : Nat) (p : Pte) : State :=
  (List.range 16).foldl (fun s i => s.bringIn part p.cmp (p.frame / 4096 + i)) s
def State.bringFrames (s : State) (part : Nat) (ps : List Pte) : State := ps.foldl (fun s p => s.bringFrame part p) s

def State.ownFrames (s : State) (ps : List Pte) : State := ps.foldl (fun s p => s.ownBlocks p.cmp p.frame 16) s

/-! ## Opening a window (R361, R363, R365) -/

/-- A descriptor. -/
structure WinDesc where
  base : Nat
  spare : Nat
  npages : Nat

/-- Read and check a descriptor (R361, R367 reasons 1 and 2). -/
def readDesc (a : Word) : M WinDesc := do
  let s ← get
  if a.toNat % 8 != 0 || !s.cx.ownRange a.toNat 32 then pageIllop 1
  needNoFaults
  let s ← get
  let x := natOfBytes (s.ownBytes s.cx a.toNat 32)
  let d : WinDesc := ⟨x % 2 ^ 64, x / 2 ^ 64 % 2 ^ 64, x / 2 ^ 128 % 2 ^ 32⟩
  if x / 2 ^ 160 != 0 || d.npages = 0 || 4096 < d.npages || d.base % 65536 != 0 || d.spare % 65536 != 0 then pageIllop 2
  pure d

/-- The translations of a range, one per 64 KiB (reason 3). -/
def rangePtes (base : Nat) : Nat → M (List Pte)
  | 0 => pure []
  | n + 1 => do
    if !isGlobal base then pageIllop 3
    let c := (← get).cx
    match ← translate (clusterOf c.id.core) c.id.part base with
    | .error _ => pageIllop 3
    | .ok p => do
      let t ← rangePtes (base + 65536) n
      pure (p :: t)

/-- A 32 MiB page is covered whole. -/
def wholePages (base n : Nat) (ps : List Pte) : Bool :=
  ((List.range n).zip ps).all fun e =>
    e.2.units = 1 ||
      (let vp := base / 65536 + e.1
       base / 65536 ≤ vp - vp % 512 && vp - vp % 512 + 512 ≤ base / 65536 + n)

def pagesAgree (ps qs : List Pte) : Bool :=
  (ps.zip qs).all fun e => e.1.w && e.2.w && !e.1.const && !e.2.const && e.1.cmp = e.2.cmp && e.1.units = e.2.units

/-- Ranges of pages meet. -/
def meet (a n b m : Nat) : Bool := a < b + m * 65536 && b < a + n * 65536

/-- One translation per 64 KiB frame. -/
def unitPtes (base : Nat) (ps : List Pte) : List Pte :=
  ((List.range ps.length).zip ps).map fun e => { e.2 with frame := e.2.unit (base / 65536 + e.1), units := 1 }

/-- A frame with a poisoned block. -/
def State.poisoned (s : State) (p : Pte) : Bool := s.poison.any fun b => p.frame ≤ b * 4096 && b * 4096 < p.frame + 65536

/-- The window that a descriptor asks for, all checks passed (R367 reasons 3 to 5). -/
def newWindow (snap : Bool) (d : WinDesc) : M Window := do
  let ps ← rangePtes d.base d.npages
  let qs ← rangePtes d.spare d.npages
  if !pagesAgree ps qs || !wholePages d.base d.npages ps || !wholePages d.spare d.npages qs then pageIllop 4
  let s ← get
  let fs := unitPtes d.base ps
  let gs := unitPtes d.spare qs
  let clash := (s.part s.cx.id.part).windows.any fun w =>
    meet d.base d.npages w.2.base w.2.npages || meet d.base d.npages w.2.spare w.2.npages ||
      meet d.spare d.npages w.2.base w.2.npages || meet d.spare d.npages w.2.spare w.2.npages
  if meet d.base d.npages d.spare d.npages || clash || (fs ++ gs).any s.poisoned then pageIllop 5
  pure { snap := snap, base := d.base, spare := d.spare, npages := d.npages, frames := fs, spares := gs, marked := [] }

/-- An uncorrectable word of a range is one of the copy (R414). -/
def State.copyMark (s : State) (src dst : Nat) : State :=
  if s.ecc.contains (src / 8) then { s with ecc := insertHeld (dst / 8) s.ecc } else s

/-- Copy `n` 8-byte words between places. -/
def State.copyWords (s : State) (src dst : Nat) : Nat → State
  | 0 => s
  | n + 1 => State.copyWords ((s.putShared dst (s.mem.bytes src 8)).copyMark src dst) (src + 8) (dst + 8) n

/-- Copy a block between places of pages with or without CMP. One that cannot be expanded (R241) is copied as it is stored,
its metadata entry with it, so that an access to the copy faults as one to the block does. -/
def State.copyBlock (s : State) (cmp : Bool) (src dst : Nat) : State :=
  let t := s.copyWords src dst 512
  if s.inForm cmp (src / 4096) then t
  else { t.copyWords (metaKey (src / 4096)) (metaKey (dst / 4096)) 1 with expanded := t.expanded.erase (dst / 4096) }

/-- Copy `n` blocks. -/
def State.copyBlocks (s : State) (cmp : Bool) (src dst : Nat) : Nat → State
  | 0 => s
  | n + 1 => State.copyBlocks (s.copyBlock cmp src dst) cmp (src + 4096) (dst + 4096) n

/-- Copy frames to frames. -/
def State.copyFrames (s : State) : List (Pte × Pte) → State
  | [] => s
  | (p, q) :: t => State.copyFrames (s.copyBlocks p.cmp p.frame q.frame 16) t

/-- A poisoned block of the range that engines did not write whole is poisoned in the other copy too. -/
def State.mergePoison (s : State) (marked : List Nat) (src dst off : Nat) : Nat → State
  | 0 => s
  | n + 1 =>
    let whole := (List.range 4096).all fun i => marked.contains (off + i)
    let s := if s.poison.contains (src / 4096) && !whole then { s with poison := insertHeld (dst / 4096) s.poison } else s
    State.mergePoison s marked (src + 4096) (dst + 4096) (off + 4096) n

/-- The step of `snap.take` (R365): the spare range takes the range's bytes. -/
def State.takeSnapshot (s : State) (w : Window) : State :=
  let s1 := ((s.bringFrames s.cx.id.part w.frames).ownFrames w.spares).copyFrames (w.frames.zip w.spares)
  (w.frames.zip w.spares).foldl (fun s e => s.mergePoison [] e.1.frame e.2.frame 0 16) s1

/-- The lowest closed window. -/
def Part.freeWindow (p : Part) : Option Nat := (List.range 16).find? fun w => !p.windows.has w

/-- The blocks of frames that hold nothing yet stand in the form of their pages. -/
def State.renewFrames (s : State) (ps : List Pte) : State :=
  ps.foldl (fun s p => (List.range 16).foldl (fun s i => s.renewBlock p.cmp (p.frame / 4096 + i)) s) s

/-- `shadow` and `snap.take`: open a window, or answer all ones where every window is open. -/
def openWindow (snap : Bool) (d : Nat) (a : Src) : M Unit := do
  notInDrain
  let x ← readS a
  let desc ← readDesc x
  let w ← newWindow snap desc
  freeS a
  let s ← get
  match (s.part s.cx.id.part).freeWindow with
  | none => writeS d (BitVec.allOnes 64)
  | some n => do
    modify fun s => s.modPart s.cx.id.part fun p => { p with windows := p.windows.set n w }
    modify fun s => if snap then s.takeSnapshot w else s.renewFrames w.spares
    writeS d (BitVec.ofNat 64 n)
  advance

def execShadow (d : Nat) (a : Src) (s : State) := run (openWindow false d a) s
def execSnapTake (d : Nat) (a : Src) (s : State) := run (openWindow true d a) s

/-! ## Closing a window (R364, R365) -/

/-- Where the leaf entry of a global address stands, and whether it is an L1 leaf (R353). -/
def State.leafAt (s : State) (part va : Nat) : Option (Nat × Bool) :=
  let step (table idx : Nat) : Option Nat :=
    let e := s.entryAt (table + 8 * idx)
    if e.testBit 0 && !pteLeaf e then some (pteAddr e) else none
  let root := (s.part part).root
  if root = 0 then none
  else
    (step root (va / 2 ^ 51 % 64)).bind fun l2 => (step l2 (va / 2 ^ 38 % 8192)).bind fun l1 =>
      let at1 := l1 + 8 * (va / 2 ^ 25 % 8192)
      let e1 := s.entryAt at1
      if e1.testBit 0 && pteLeaf e1 then some (at1, true)
      else (step l1 (va / 2 ^ 25 % 8192)).bind fun l0 =>
        let at0 := l0 + 8 * (va / 2 ^ 16 % 512)
        if (s.entryAt at0).testBit 0 then some (at0, false) else none

/-- Set the ADDR field of the leaf of a global address; one L1 leaf is set once, at its first unit. -/
def State.setLeaf (s : State) (part va frame : Nat) : State :=
  match s.leafAt part va with
  | none => s
  | some (a, big) =>
    if big && va % 2 ^ 25 != 0 then s
    else
      let e := s.entryAt a
      s.putShared a (bytesOfNat 8 (e - pteAddr e + frame))

/-- Exchange the frames of two ranges in the page tables. -/
def State.swapLeaves (s : State) (part base spare : Nat) : List (Pte × Pte) → State
  | [] => s
  | (p, q) :: t =>
    State.swapLeaves ((s.setLeaf part base q.frame).setLeaf part spare p.frame) part (base + 65536) (spare + 65536) t

/-- Merge (R247): bytes of the range that no engine wrote go to the shadow copy; offsets from `off`. -/
def State.mergeBytes (s : State) (marked : List Nat) (src dst off : Nat) : Nat → State
  | 0 => s
  | n + 1 =>
    State.mergeBytes (if marked.contains off then s else (s.putShared dst [s.mem.read src]).copyMark src dst) marked
      (src + 1) (dst + 1) (off + 1) n

/-- Merge `n` blocks: one that no engine wrote into is copied; of one that cannot be expanded no other bytes come. -/
def State.mergeBlocks (s : State) (cmp : Bool) (marked : List Nat) (src dst off : Nat) : Nat → State
  | 0 => s
  | n + 1 =>
    let t :=
      if !(marked.any fun o => off ≤ o && o < off + 4096) then s.copyBlock cmp src dst
      else if s.inForm cmp (src / 4096) then s.mergeBytes marked src dst off 4096
      else s
    State.mergeBlocks t cmp marked (src + 4096) (dst + 4096) (off + 4096) n

def State.mergeFrames (s : State) (marked : List Nat) (off : Nat) : List (Pte × Pte) → State
  | [] => s
  | (p, q) :: t =>
    let s1 := (s.mergePoison marked p.frame q.frame off 16).mergeBlocks p.cmp marked p.frame q.frame off 16
    State.mergeFrames s1 marked (off + 65536) t

/-- Drop cached translations of a partition that a test picks, in every cluster (R355, R366). -/
def State.dropTlb (s : State) (part : Nat) (f : Nat → Pte → Bool) : State :=
  { s with clusters := s.clusters.map fun c =>
      (c.1, { c.2 with tlb := c.2.tlb.filter fun e => !(e.1 = part && f e.2.1 e.2.2) }) }

/-- A translation covers a page of a range. -/
def coversRange (base n vp : Nat) (p : Pte) : Bool := meet (vp * 65536) p.units base n

/-- A walk-cache entry lies on the path of a page of a range. -/
def WalkEntry.onPath (e : WalkEntry) (base n : Nat) : Bool :=
  let size := if e.level = 1 then 2 ^ 25 else 2 ^ 38
  e.idx * size < base + n * 65536 && base < (e.idx + 1) * size

/-- A walk in progress finds, or looks for, the translation of a page of a range. -/
def Walk.covers (w : Walk) (base n : Nat) : Bool :=
  match w.pte with
  | some p => coversRange base n (w.vp - w.vp % p.units) p
  | none => meet (w.vp * 65536) 1 base n

/-- The translations of a range that are cached anywhere go: in the TLBs, in the walk caches, and in the answers of walks
in progress (R364, R366). -/
def State.invalidate (s : State) (part base n : Nat) : State :=
  let t := s.dropTlb part (coversRange base n)
  { t with walkCache := t.walkCache.map fun e => (e.1, e.2.filter fun x => !(x.part = part && x.onPath base n))
           walking := t.walking.filter fun w => !(w.part = part && w.covers base n) }

/-- Close a window: unpin, and invalidate both ranges everywhere. -/
def State.closeWindow (s : State) (part n : Nat) (w : Window) : State :=
  ((s.modPart part fun p => { p with windows := p.windows.erase n }).invalidate part w.base w.npages).invalidate
    part w.spare w.npages

/-- The translations that walks have found of a window's ranges hold no more: `publish.swap` has exchanged their frames. -/
def State.forget (s : State) (part : Nat) (w : Window) : State :=
  { s with forms := s.forms.filter fun e =>
      !(e.1 = part && (coversRange w.base w.npages e.2.1 e.2.2 || coversRange w.spare w.npages e.2.1 e.2.2)) }

/-- Apply a change to every engine operation of a partition's contexts. -/
def State.mapCopies (s : State) (part : Nat) (f : CopyOp → CopyOp) : State :=
  { s with cores := s.cores.map fun k =>
      (k.1, { k.2 with copies := k.2.copies.map fun op => if op.cid / 2 ^ 24 = part then f op else op }) }

/-- Bytes at a place hold undefined values. -/
def State.scrambleAt (s : State) (key : Nat) : Nat → State
  | 0 => s
  | n + 1 => State.scrambleAt ({ s.putShared key [Config.freeByte s.free] with free := s.free + 1 }) (key + 1) n

def State.scrambleFrames (s : State) : List Pte → State
  | [] => s
  | p :: t => State.scrambleFrames (s.scrambleAt p.frame 65536) t

/-- The window that a closing instruction names (R364, R367 reasons 2 and 6). -/
def needWindow (snap : Bool) (x : Word) : M (Nat × Window) := do
  if x.toNat / 16 != 0 then pageIllop 2
  let s ← get
  match (s.part s.cx.id.part).windows.get? x.toNat with
  | some w => if w.snap = snap then pure (x.toNat, w) else pageIllop 6
  | none => pageIllop 6

def execPublishSwap (a : Src) (s : State) := run (do
  notInDrain
  let x ← readS a
  let (n, w) ← needWindow false x
  needClasses 7 7 0 7 7
  freeS a
  modify fun s =>
    let part := s.cx.id.part
    let s1 := ((s.bringFrames part w.frames).bringFrames part w.spares).mergeFrames w.marked 0 (w.frames.zip w.spares)
    let s2 := s1.swapLeaves part w.base w.spare (w.frames.zip w.spares)
    ((s2.mapCopies part fun op => { op with wins := op.wins.erase n }).closeWindow part n w).forget part w
  advance) s

def execPublishDrop (a : Src) (s : State) := run (do
  notInDrain
  let x ← readS a
  let (n, w) ← needWindow false x
  needClasses 7 7 0 7 7
  freeS a
  modify fun s =>
    let part := s.cx.id.part
    let s1 := s.mapCopies part fun op =>
      if op.wins.contains n then
        { op with wins := op.wins.erase n, lost := (w.base, w.npages * 65536) :: op.lost }
      else op
    ((s1.ownFrames w.spares).scrambleFrames w.spares).closeWindow part n w
  advance) s

def execSnapDrop (a : Src) (s : State) := run (do
  notInDrain
  let x ← readS a
  let (n, w) ← needWindow true x
  freeS a
  modify fun s => ((s.ownFrames w.spares).scrambleFrames w.spares).closeWindow s.cx.id.part n w
  advance) s

/-! ## `tlbinv` (R366) -/

/-- The translations of a partition that walks have found and a test picks, by first page, windows' pages apart. -/
def State.foundPages (s : State) (part : Nat) (f : Nat → Pte → Bool) : List (Nat × Pte) :=
  (s.forms.filter fun e => e.1 = part && f e.2.1 e.2.2 && ((s.part part).pinned e.2.1).isNone).map (·.2)

/-- What a page-table change means for the frames of the translations that it ends (R355): the blocks of a page unmapped
since stand in memory as stored; a page mapped still, its CMP bit changed, holds undefined values. -/
def State.recheck (s : State) (part : Nat) : List (Nat × Pte) → State
  | [] => s
  | (vp, p) :: t =>
    State.recheck (match s.walk part (vp * 65536) with
      | .error _ =>
        let u := { s with forms := s.forms.filter fun e => !(e.1 = part && e.2.1 = vp) }
        if p.cmp then u.storeBlocks (p.frame / 4096) (p.units * 16) else u
      | .ok q => s.seen part vp q) part t

def execTlbinvPage (a : Src) (s : State) := run (do
  notInDrain
  needSup 8 (.tlbinvPage a)
  let x ← readS a
  needClasses 7 0 7 7 7
  freeS a
  modify fun s =>
    let base := x.toNat / 65536 * 65536
    (s.recheck s.cx.id.part (s.foundPages s.cx.id.part (coversRange base 1))).invalidate s.cx.id.part base 1
  advance) s

def execTlbinvAll (s : State) := run (do
  notInDrain
  needSup 8 .tlbinvAll
  needClasses 7 0 7 7 7
  modify fun s =>
    let part := s.cx.id.part
    let t := (s.recheck part (s.foundPages part fun _ _ => true)).dropTlb part fun _ _ => true
    { t with walkCache := t.walkCache.map fun e => (e.1, e.2.filter fun x => x.part != part)
             walking := t.walking.filter fun w => w.part != part }
  advance) s

/-! ## TLB_WALK_COMPLETE (R355, R356) -/

/-- A cluster caches a translation; of more than 512 it drops one of its choice. -/
def State.cacheTlb (s : State) (cl part : Nat) (vp : Nat) (p : Pte) : State :=
  let first := vp - vp % p.units
  let u := s.cluster cl
  let l := u.tlb.filter fun e => !(e.1 = part && e.2.1 = first)
  let l := if l.length < 512 then l else l.eraseIdx (Config.freePick s.free % l.length)
  { s.modCluster cl (fun u => { u with tlb := l ++ [(part, first, p)] }) with free := s.free + 1 }

/-- A walk of a page ends: the clusters of its stack that asked cache its translation; a failed walk is never cached. -/
def execTlbWalkComplete (part vp : Nat) (s : State) : Host.Outcome State Fault Refusal :=
  match s.walking.find? fun w => w.part = part && w.vp = vp with
  | none => .next s
  | some w =>
    let same (x : Walk) : Bool := x.cl / 96 = w.cl / 96 && x.part = part && x.vp = vp
    let s1 := { s with walking := s.walking.filter fun x => !same x }
    match w.pte.filter fun p => p.sound s.variant vp with
    | some p => .next ((s.walking.filter same).foldl (fun s x => s.cacheTlb x.cl part vp p) s1)
    | none => .next s1

end Sys2Proof.Machine
end

