-- ==== Sys2Proof/Machine/Retry.lean ====
section
/-! DEFINITION. `rpw` (R56, R326, R327), the posting of faulted accesses found late (R324), and the completion of
accesses and atomics (R68, R425). -/
namespace Sys2Proof.Machine

/-! ## Entries -/

/-- One entry fewer leaves a register pending. -/
def dropPend (t : Tab (List Nat)) (n id : Nat) : Tab (List Nat) :=
  let l := (t.getD n []).erase id
  if l.isEmpty then t.erase n else t.set n l

/-- A record with nothing in it, for an entry that software has made in the ring itself. -/
def Bad.blank (part : Nat) : Bad :=
  { cid := 0, part := part, ctxid := 0, pc := 0, addr := 0, opk := 0, cause := 0, dkind := 0, dreg := 0, width := 0, lmask := 0,
    data := [], aux := 0, counted := false, access := none, exch := false, flags := 0, atom := none, posted := none }

/-- An entry as its 64 bytes and its data area say (R325). -/
def Bad.asRead (b : Bad) (cid : Nat) (bs data : List Byte) : Bad :=
  let w (i : Nat) : Word := BitVec.ofNat 64 (geti data (8 * i) 8)
  { b with
    cid := cid, ctxid := BitVec.ofNat 64 (geti bs 0 8), pc := BitVec.ofNat 64 (geti bs 8 8)
    addr := BitVec.ofNat 64 (geti bs 0x10 8), opk := geti bs 0x18 1, cause := geti bs 0x19 1, dkind := geti bs 0x1A 1
    dreg := geti bs 0x1B 1 % 64, width := geti bs 0x1C 1, lmask := geti bs 0x20 16, aux := geti bs 0x38 4, data := data
    atom := b.atom.map fun a => { a with d := geti bs 0x1B 1 % 64, b := w 0, c := w 1, vb := if a.op = 11 then vOfBytes data else a.vb } }

/-- Entry `i` of a partition's ring, valid and unresolved, as it stands in memory, with the number of its access; where the
ring cannot be read, as the device has posted it. -/
def State.entryNow (s : State) (p i : Nat) : Option (Nat × Bad) :=
  match s.readGlobal p ((s.part p).entryAddr i) 64 with
  | none => s.postedAt p i
  | some bs =>
    if geti bs 0x3E 2 % 4 != 1 then none
    else
      let (id, b) := (s.postedAt p i).getD (s.nextBad, Bad.blank p)
      let cid := ((s.ctxs.find? fun c => c.id.part = p && c.ctxid.toNat = geti bs 0 8).map Ctx.cid).getD b.cid
      some (id, b.asRead cid bs ((s.readGlobal p (geti bs 0x30 8) 128).getD b.data))

/-- Bytes of an entry written by the device. -/
def State.putEntry (s : State) (p va : Nat) (bs : List Byte) : State :=
  let r := s.reach p va .store
  match r.2 with
  | .ok key => r.1.putShared key bs
  | .error _ => r.1

/-- The entry is resolved: its STATE, and DLRES. -/
def State.resolved (s : State) (id : Nat) (b : Bad) (i state : Nat) : State :=
  let s1 := s.putEntry b.part ((s.part b.part).entryAddr i + 0x3E) (bytesOfNat 2 state)
  { s1.modPart b.part (fun p => { p with resolved := p.resolved + 1 }) with bads := s1.bads.erase id }

/-- The entry faults again: its new CAUSE (R327). -/
def State.recause (s : State) (id : Nat) (b : Bad) (i cause : Nat) : State :=
  let s1 := s.putEntry b.part ((s.part b.part).entryAddr i + 0x19) (bytesOfNat 1 cause)
  { s1 with bads := s1.bads.modify id fun x => { x with cause := cause } }

/-! ## What an entry's context receives (R56) -/

/-- A scalar register that the entry left pending takes its value. -/
def Ctx.fillS (c : Ctx) (n id : Nat) (x : Word) : Ctx :=
  if (c.r.sPend.getD n []).contains id then
    { c with r := { c.r with s := c.r.s.set n x, sPend := dropPend c.r.sPend n id, sHeld := insertHeld x c.r.sHeld } }
  else c

/-- The bytes of a vector register that the entry covers. -/
def mergeV (old new : VReg) (mask : Nat) : VReg :=
  vOfBytes ((List.range 128).map fun j => if mask.testBit j then (vBytes new).getD j 0 else (vBytes old).getD j 0)

def Ctx.fillV (c : Ctx) (n id : Nat) (x : VReg) (mask : Nat) : Ctx :=
  if (c.r.vPend.getD n []).contains id then
    let y := mergeV (c.r.v.getD n 0) x mask
    { c with r := { c.r with v := c.r.v.set n y, vPend := dropPend c.r.vPend n id, vHeld := insertHeld y c.r.vHeld } }
  else c

/-- The entry is killed: a register it left pending is poisoned; one overwritten since is owed to the end (R56). -/
def Ctx.poisoned (c : Ctx) (b : Bad) (id idx : Nat) : Ctx :=
  let c := { c with st := { c.st with killed := c.st.killed ++ [idx] } }
  if b.dkind = 1 && (c.r.sPend.getD b.dreg []).contains id then
    { c with r := { c.r with sPend := dropPend c.r.sPend b.dreg id, sPoison := c.r.sPoison.set b.dreg idx } }
  else if b.dkind = 2 && (c.r.vPend.getD b.dreg []).contains id then
    { c with r := { c.r with vPend := dropPend c.r.vPend b.dreg id, vPoison := c.r.vPoison.set b.dreg idx } }
  else c

/-! ## The held access (R327) -/

/-- The place of a byte for an access of a context that may run elsewhere. -/
def State.placeFor (s : State) (c : Ctx) (k : Acc) (va : Nat) : Except Nat Nat :=
  if isGlobal va then s.globalPlace c.id.part va k else s.placeOutside c k va

/-- The block of an address is brought in for an access of a context. -/
def State.bringFor (s : State) (c : Ctx) (k : Acc) (va : Nat) : State := if isGlobal va then s.bringGlobal c.id.part va k else s

/-- The bytes of a held store with their addresses: those under LMASK. -/
def Bad.held (b : Bad) : List (Nat × Byte) :=
  ((List.range 128).filter fun j => b.lmask.testBit j).map fun j => (b.addr.toNat + j, b.data.getD j 0)

/-- Write the held data of a store, or answer the cause of its fault. -/
def State.storeHeld (s : State) (c : Ctx) (b : Bad) : Except (Nat × State) State :=
  let s := b.held.foldl (fun s e => s.bringFor c .store e.1) s
  match (b.held.map fun e => s.placeFor c .store e.1).find? fun r => match r with | .error _ => true | .ok _ => false with
  | some (.error cause) => .error (cause, s)
  | _ => .ok (b.held.foldl (fun s e =>
      match s.placeFor c .store e.1 with
      | .ok key => if b.width = 6 then
          s.putShared key [BitVec.ofNat 8 (putNibble (s.mem.read key).toNat (b.aux % 2) (e.2.toNat / (if b.aux % 2 = 1 then 16 else 1) % 16))]
        else s.putShared key [e.2]
      | .error _ => s) s)

/-- Perform the held atomic, or answer the cause of its fault. -/
def State.atomHeld (s : State) (c : Ctx) (id : Nat) (b : Bad) (a : Atom) : Except (Nat × State) State :=
  let s := s.bringFor c .atomic b.addr.toNat
  match s.placeFor c .atomic b.addr.toNat with
  | .error cause => .error (cause, s)
  | .ok key =>
    let r := s.doAtom { a with key := key }
    .ok (r.2.modCtx b.cid fun c =>
      if b.dkind = 2 then c.fillV b.dreg id (a.vResult r.1) (2 ^ 128 - 1) else c.fillS b.dreg id (BitVec.ofNat 64 r.1))

/-! ## `rpw` -/

/-- The entry that `s[a]` names, unresolved; `ILLOP` otherwise. -/
def needEntry (a : Src) : M (Nat × Nat × Bad) := do
  let x ← readS a
  let s ← get
  let p := s.cx.id.part
  let i := x.toNat % 2 ^ ringSize (s.part p).rrbase
  if !ringValid (s.part p).rrbase then illop 0x0B 0
  match s.entryNow p i with
  | none => illop 0x0B 0
  | some (id, b) => pure (i, id, b)

/-- The checks every form makes first. -/
def rpwChecks (i : Instr) : M Unit := do
  notInDrain
  needSup 2 i

def execRpwS (d : Nat) (a b : Src) (s : State) := run (do
  rpwChecks (.rpwS d a b)
  let (i, id, e) ← needEntry a
  if e.dkind != 1 then illop 0x0B 0
  let x ← readS b
  freeS a
  freeS b
  writeS d 0
  modify fun s => (s.modCtx e.cid fun c => c.fillS e.dreg id x).resolved id e i 3
  advance) s

def execRpwV (d : Nat) (a b : Src) (s : State) := run (do
  rpwChecks (.rpwV d a b)
  let (i, id, e) ← needEntry a
  if e.dkind != 2 then illop 0x0B 0
  let x ← readV b
  freeS a
  freeV b
  writeS d 0
  modify fun s => (s.modCtx e.cid fun c => c.fillV e.dreg id x e.lmask).resolved id e i 3
  advance) s

/-- Resolve with the held access carried out, or leave the entry with its new cause. -/
def carryOut (d i id : Nat) (e : Bad) (r : Except (Nat × State) State) : M Unit := do
  match r with
  | .ok t => do
    set t
    modify fun s => s.resolved id e i 3
  | .error (cause, t) => do
    set t
    writeS d (BitVec.ofNat 64 cause)
    modify fun s => s.recause id e i cause

def execRpwDone (d : Nat) (a : Src) (s : State) := run (do
  rpwChecks (.rpwDone d a)
  let (i, id, e) ← needEntry a
  if e.dkind != 0 && e.opk != 2 then illop 0x0B 0
  freeS a
  writeS d 0
  let s ← get
  let c := (s.ctx? e.cid).getD s.cx
  match e.opk, e.atom with
  | 1, _ => carryOut d i id e (s.storeHeld c e)
  | 2, some x => carryOut d i id e (s.atomHeld c id e x)
  | _, _ => modify fun s => s.resolved id e i 3
  advance) s

/-- `tinfo` of the deferred `POISON` of a killed entry (R323). -/
def killInfo (idx : Nat) : Word := BitVec.ofNat 64 (2 ^ 63 + 2 ^ 60 + idx % 65536)

/-- `rpw.kill`: the register is poisoned; an entry that leaves none pending, also that of an atomic whose destination is
`s0`, gives a deferred trap at once (R56, R327). -/
def execRpwKill (d : Nat) (a : Src) (s : State) := run (do
  rpwChecks (.rpwKill d a)
  let (i, id, e) ← needEntry a
  freeS a
  writeS d 0
  modify fun s =>
    (if e.dkind != 0 && !(e.dkind = 1 && e.dreg = 0) then s.modCtx e.cid fun c => c.poisoned e id i
     else s.defer e.cid cPOISON (killInfo i) (if e.opk = 3 then some e.pc else none)).resolved id e i 7
  advance) s

/-! ## Posting (R324) -/

/-- A register that a lost access left pending holds a value the spec does not give. -/
def Ctx.lostAccess (c : Ctx) (b : Bad) (id free : Nat) : Ctx :=
  if b.dkind = 1 then c.fillS b.dreg id (Config.freeWord free)
  else if b.dkind = 2 then c.fillV b.dreg id (Config.freeVec free) b.lmask
  else c

/-- Another entry of the same access waits to be posted. -/
def State.morePosts (s : State) (n : Nat) (b : Bad) : Bool :=
  b.access.isSome && s.bads.any fun e => e.1 != n && e.2.access = b.access && e.2.posted.isNone

/-- DEAD_LETTER_POST: a faulted access found late is posted, and leaves its class; where the ring takes no entry, its
context is due a deferred `RRFULL`. -/
def execDeadLetterPost (n : Nat) (s : State) : Host.Outcome State Fault Refusal :=
  match s.bads.get? n with
  | none => .next s
  | some b =>
    if b.posted.isSome || !s.issues b.part then .next s
    else
      let s0 := match b.cls with | some c => if s.morePosts n b then s else s.uncount b.cid c | none => s
      match s0.post n b with
      | .ok t => .next (t.modCtx b.cid fun c => c.setFlags b.flags)
      | .error (absent, s2) =>
        let s1 := (s2.modCtx b.cid fun c => (c.lostAccess b n s2.free).setFlags b.flags).defer b.cid cRRFULL (rrInfo true absent b.addr) none
        .next { s1 with bads := s1.bads.erase n, free := s1.free + 1 }

/-! ## Completion (R68, R425) -/

/-- Operations counted in a class that end otherwise: atomics on their way, stores that have not landed, and faulted accesses
not yet posted. -/
def State.otherwise (s : State) (cid cls : Nat) : Nat :=
  (if cls = 0 then (s.atoms.filter fun a => a.2.cid = cid).length else if cls = 1 then (s.late.getD cid []).length else 0) +
    (((s.bads.filter fun b => b.2.cid = cid && b.2.posted.isNone && b.2.cls = some cls).map fun b =>
      b.2.access.getD b.1).eraseDups).length

/-- ACCESS_COMPLETE: one load or store of a context completes. -/
def execAccessComplete (cid : Nat) (store : Bool) (s : State) : Host.Outcome State Fault Refusal :=
  match s.ctx? cid with
  | none => .next s
  | some c =>
    let cls := if store then 1 else 0
    .next (if s.otherwise cid cls < c.cnt.get cls then s.uncount cid cls else s)

/-- ATOMIC_AT_HOME: the oldest atomic of a context reaches the home of its line, its request across the bridges between
(R398). -/
def execAtomicAtHome (cid : Nat) (s : State) : Host.Outcome State Fault Refusal :=
  match s.atoms.find? fun a => a.2.cid = cid with
  | none => .next s
  | some (id, a) =>
    match s.ctx? cid with
    | none => .next s
    | some c =>
      if !s.issues c.id.part || !s.openWay (coreStack c.id.core) (stackOf a.key) then .next s
      else match s.request (coreStack c.id.core) (stackOf a.key) with
        | some t => .next (t.atomHome id a)
        | none => .next s

/-- A context put into a list in ascending order of cores. -/
def Ctx.intoOrder (c : Ctx) : List Ctx → List Ctx
  | [] => [c]
  | d :: t => if c.id.core ≤ d.id.core then c :: d :: t else d :: Ctx.intoOrder c t

/-- The oldest atomics of some contexts reach their homes in one cycle: they are performed in ascending order of their cores
(R207, R425, R426). -/
def State.sameCycle (s : State) (cids : List Nat) : State :=
  let cs := (cids.eraseDups.filterMap s.ctx?).foldr Ctx.intoOrder []
  cs.foldl (fun s c => match execAtomicAtHome c.cid s with
    | .next t => t
    | _ => s) s

end Sys2Proof.Machine
end

