-- ==== Sys2Proof/Machine/Sched.lean ====
section
/-! DEFINITION. What the part may do next of itself: the contexts that issue, and the acts of its other agents. Which of them comes first the spec leaves open; a step without an agenda takes a free choice among them. -/
namespace Sys2Proof.Machine

abbrev Move := State → Host.Outcome State Fault Refusal

/-! ## The acts of each kind of agent -/

def partMoves (p : Nat) : List Move :=
  [execDispatchPick p, execAgeplaceExpiry p, execAgekeyExpiry p, execBalancerPeriod p, execPtickReached p,
   execSwitchOutDone p, execSwitchInDone p, execHaltTreeStop p 0 0 0]

def instMoves (n : Nat) : List Move :=
  [execInstanceStart n, execEdgeRelease n, execTrackdataLoad n, execSyncExchangeComplete n, execPowerHoldEnd n] ++
    (List.range 16).map fun c => execColumnRelease n c

def kernelMoves (k : Nat) (u : Kernel) : List Move := execStartTick k :: u.nodes.map fun e => execSpawnEnqueue k e.1

def ctxMoves (c : Ctx) : List Move :=
  let n := c.cid
  [execContextPreempt n, execContextResume n c.id.core 0, execContextResume n c.id.core 1, execContextResume n c.id.core 2,
   execContextResume n c.id.core 3, execBudgetExpiry n, execDeferredTrap n, execContextWaitEnd n, execBarrierWaitTimeout n,
   fun s => .next (s.notReady n), execTimedWaitWake n, execMsgwaitExpiry n, execAccessComplete n true, execAccessComplete n false, execAtomicAtHome n] ++
    (List.range c.decl.tracks.length).flatMap (fun h => [execPortTake n h, execSeekComplete n h]) ++
    c.binds.flatMap fun b => [execFiringStart c.id.core n b.1, execGangedFiringStart c.id.core n b.1, execDrainStart c.id.core n b.1]

def coreMoves (n : Nat) (k : Core) : List Move :=
  [execCopyLand n, execFiringComplete n 0, execAssayRecompute n 0, execGangArrival n, execDrainHandlerRun n, execDrainRow n,
   execDrainRunLimit n, execMatrixOpComplete n, execChuteCredit n true, execChuteCredit n false,
   fun s => .next (s.firingRead n), fun s => .next ({ s with free := s.free + 1 }.mopBeat n (Config.freePick s.free % 10240) 1),
   fun s => .next ({ s with free := s.free + 1 }.beat n (Config.freePick s.free % 2 ^ 24) 1)] ++
    k.tracks.flatMap fun t => [execHoldLapse n t.1, execHeadStreamWord n t.1, execReindexDone n t.1]

def clusterMoves (n : Nat) (c : Cluster) : List Move :=
  [execClusterOff n, execClusterWakeReady n] ++ c.bars.map fun b => execBarrierPhaseComplete n b.1

def queueMoves (n : Nat) (q : Queue) : List Move :=
  [fun s => .next (s.fetchAhead n), execLaunch n, execCopy n, execSignal n, execWaitCommand n, execFlush n, execQueueDrained n] ++
    q.cmds.flatMap fun c => [execCommandComplete n c.1, execWaitTimeout n c.1]

/-- The cores that hold a context or have left a trace. -/
def State.busyCores (s : State) : List Nat := (s.cores.map (·.1) ++ s.ctxs.map fun c => c.id.core).eraseDups

/-- Time passes: nanoseconds of the time base, and on each core and for each dispatcher's aging timers a number of cycles that
the spec leaves open (R17, R63, R137, R301); a waiting context's `budget` counts them, and the power meter and the credits of
saved energy go on (R408, R409). -/
def State.pass (s : State) (ns : Nat) : State :=
  State.metered <| s.parts.foldl (fun t e => { t.aged e.1 (Config.freeStall t.free) with free := t.free + 1 })
    (s.busyCores.foldl (fun t core => { t.cycles core (Config.freeStall t.free) with free := t.free + 1 })
      { s with time := (s.time + ns) % 2 ^ 64 })

def passMove : Move := fun s => .next ({ s with free := s.free + 1 }.pass (1 + Config.freeTime s.free))

/-- Everything but an issue that the part may do next; an act whose condition does not hold leaves the state as it is. -/
def State.moves (s : State) : List Move :=
  passMove ::
    ((s.parts.flatMap fun e => partMoves e.1) ++ (s.insts.flatMap fun e => instMoves e.1) ++
     (s.kernels.flatMap fun e => kernelMoves e.1 e.2) ++ (s.ctxs.flatMap ctxMoves) ++
     (s.cores.flatMap fun e => coreMoves e.1 e.2) ++ (s.clusters.flatMap fun e => clusterMoves e.1 e.2) ++
     (s.queues.flatMap fun e => queueMoves e.1 e.2) ++ (s.krels.map fun e => execKeyReleaseArrival e.1) ++
     (s.bads.map fun e => execDeadLetterPost e.1) ++ (s.msgs.map fun e => execMessageDelivery e.1) ++
     (s.events.map fun e => execRemoteEventArrival e.1) ++ (s.gates.map fun e => execGateRequestArrival e.1) ++
     (s.walking.map fun w => execTlbWalkComplete w.part w.vp) ++
     [fun t => .next (t.sameCycle (t.atoms.map fun a => a.2.cid))] ++
     (s.links.flatMap fun e => [fun t => .next (t.sendNext e.1), fun t => .next (t.sendIdle e.1),
       fun t => .next (if isBridge e.1 then t.modLink e.1 Link.passedOn else t)]))

/-- The contexts that may issue next, one to a core. -/
def State.issuers (s : State) : List Nat := ((s.ctxs.map fun c => c.id.core).eraseDups).filterMap s.issuer

end Sys2Proof.Machine
end

