-- ==== Sys2Proof/Machine/Dispatch.lean ====
section
/-! DEFINITION. One arm per instruction and event: each calls the meaning of its own. -/
namespace Sys2Proof.Machine

def exec (i : Instr) (s : State) : Host.Outcome State Fault Refusal :=
  match i with
  | .add d a b => Sys2Proof.Machine.execAdd d a b s
  | .addi d a imm => Sys2Proof.Machine.execAddi d a imm s
  | .sub d a b => Sys2Proof.Machine.execSub d a b s
  | .and d a b => Sys2Proof.Machine.execAnd d a b s
  | .or d a b => Sys2Proof.Machine.execOr d a b s
  | .xor d a b => Sys2Proof.Machine.execXor d a b s
  | .slli d a imm => Sys2Proof.Machine.execSlli d a imm s
  | .srli d a imm => Sys2Proof.Machine.execSrli d a imm s
  | .srai d a imm => Sys2Proof.Machine.execSrai d a imm s
  | .li d imm => Sys2Proof.Machine.execLi d imm s
  | .mov d a => Sys2Proof.Machine.execMov d a s
  | .slt d a b => Sys2Proof.Machine.execSlt d a b s
  | .sltu d a b => Sys2Proof.Machine.execSltu d a b s
  | .seq d a b => Sys2Proof.Machine.execSeq d a b s
  | .ld d a imm => Sys2Proof.Machine.execLd d a imm s
  | .st d a imm => Sys2Proof.Machine.execSt d a imm s
  | .pbr d imm => Sys2Proof.Machine.execPbr d imm s
  | .br imm => Sys2Proof.Machine.execBr imm s
  | .brnz a imm => Sys2Proof.Machine.execBrnz a imm s
  | .brz a imm => Sys2Proof.Machine.execBrz a imm s
  | .wait l xs c m h => Sys2Proof.Machine.execWait l xs c m h s
  | .mcall slot p0 p1 p2 p3 => Sys2Proof.Machine.execMcall slot p0 p1 p2 p3 s
  | .vld q d a imm => Sys2Proof.Machine.execVld q d a imm s
  | .vst ty k d a imm => Sys2Proof.Machine.execVst ty k d a imm s
  | .vmov q d a => Sys2Proof.Machine.execVmov q d a s
  | .vfma q d a b c => Sys2Proof.Machine.execVfma q d a b c s
  | .vadd q d a b => Sys2Proof.Machine.execVadd q d a b s
  | .vmul q d a b => Sys2Proof.Machine.execVmul q d a b s
  | .sync op d a => Sys2Proof.Machine.execSync op d a s
  | .halt => Sys2Proof.Machine.execHalt s
  | .haltKill => Sys2Proof.Machine.execHaltKill s
  | .mul d a b => Sys2Proof.Machine.execMul d a b s
  | .mulh d a b => Sys2Proof.Machine.execMulh d a b s
  | .mulhu d a b => Sys2Proof.Machine.execMulhu d a b s
  | .div d a b => Sys2Proof.Machine.execDiv d a b s
  | .divu d a b => Sys2Proof.Machine.execDivu d a b s
  | .rem d a b => Sys2Proof.Machine.execRem d a b s
  | .remu d a b => Sys2Proof.Machine.execRemu d a b s
  | .sll d a b => Sys2Proof.Machine.execSll d a b s
  | .srl d a b => Sys2Proof.Machine.execSrl d a b s
  | .sra d a b => Sys2Proof.Machine.execSra d a b s
  | .fshr d a b c => Sys2Proof.Machine.execFshr d a b c s
  | .clz d a => Sys2Proof.Machine.execClz d a s
  | .ctz d a => Sys2Proof.Machine.execCtz d a s
  | .popc d a => Sys2Proof.Machine.execPopc d a s
  | .bext d a pos len => Sys2Proof.Machine.execBext d a pos len s
  | .bins d a pos len => Sys2Proof.Machine.execBins d a pos len s
  | .min d a b => Sys2Proof.Machine.execMin d a b s
  | .max d a b => Sys2Proof.Machine.execMax d a b s
  | .minu d a b => Sys2Proof.Machine.execMinu d a b s
  | .maxu d a b => Sys2Proof.Machine.execMaxu d a b s
  | .sel d a b c => Sys2Proof.Machine.execSel d a b c s
  | .sext w d a => Sys2Proof.Machine.execSext w d a s
  | .zext w d a => Sys2Proof.Machine.execZext w d a s
  | .lea sh d a b => Sys2Proof.Machine.execLea sh d a b s
  | .andi d a imm => Sys2Proof.Machine.execAndi d a imm s
  | .ori d a imm => Sys2Proof.Machine.execOri d a imm s
  | .xori d a imm => Sys2Proof.Machine.execXori d a imm s
  | .call imm => Sys2Proof.Machine.execCall imm s
  | .callB d => Sys2Proof.Machine.execCallB d s
  | .ret => Sys2Proof.Machine.execRet s
  | .breq d a b => Sys2Proof.Machine.execBreq d a b s
  | .brne d a b => Sys2Proof.Machine.execBrne d a b s
  | .brlt d a b => Sys2Proof.Machine.execBrlt d a b s
  | .brge d a b => Sys2Proof.Machine.execBrge d a b s
  | .brltu d a b => Sys2Proof.Machine.execBrltu d a b s
  | .brgeu d a b => Sys2Proof.Machine.execBrgeu d a b s
  | .pbrr d a => Sys2Proof.Machine.execPbrr d a s
  | .mfb d a => Sys2Proof.Machine.execMfb d a s
  | .yield => Sys2Proof.Machine.execYield s
  | .trap code => Sys2Proof.Machine.execTrap code s
  | .tret => Sys2Proof.Machine.execTret s
  | .mfc d ctl => Sys2Proof.Machine.execMfc d ctl s
  | .mtc ctl a => Sys2Proof.Machine.execMtc ctl a s
  | .rdtime d => Sys2Proof.Machine.execRdtime d s
  | .rdcyc d => Sys2Proof.Machine.execRdcyc d s
  | .mcw slot a => Sys2Proof.Machine.execMcw slot a s
  | .mcinv slot => Sys2Proof.Machine.execMcinv slot s
  | .rpwS d a b => Sys2Proof.Machine.execRpwS d a b s
  | .rpwV d a b => Sys2Proof.Machine.execRpwV d a b s
  | .rpwDone d a => Sys2Proof.Machine.execRpwDone d a s
  | .rpwKill d a => Sys2Proof.Machine.execRpwKill d a s
  | .spawn d a => Sys2Proof.Machine.execSpawn d a s
  | .tsig => Sys2Proof.Machine.execTsig s
  | .ebrk code => Sys2Proof.Machine.execEbrk code s
  | .retire node => Sys2Proof.Machine.execRetire node s
  | .pgateReq d a => Sys2Proof.Machine.execPgateReq d a s
  | .pgateQ d a => Sys2Proof.Machine.execPgateQ d a s
  | .pwake d a => Sys2Proof.Machine.execPwake d a s
  | .tmwait d a => Sys2Proof.Machine.execTmwait d a s
  | .ldx ty d a imm => Sys2Proof.Machine.execLdx ty d a imm s
  | .stx ty d a imm => Sys2Proof.Machine.execStx ty d a imm s
  | .vldu q d a imm => Sys2Proof.Machine.execVldu q d a imm s
  | .vstm ty k d a imm => Sys2Proof.Machine.execVstm ty k d a imm s
  | .vgath q d a b => Sys2Proof.Machine.execVgath q d a b s
  | .vscat ty k a b c => Sys2Proof.Machine.execVscat ty k a b c s
  | .amo op w sc d a b => Sys2Proof.Machine.execAmo op w sc d a b s
  | .cas w sc d a b c => Sys2Proof.Machine.execCas w sc d a b c s
  | .aggadd k zero sc d a b => Sys2Proof.Machine.execAggadd k zero sc d a b s
  | .fence sc o => Sys2Proof.Machine.execFence sc o s
  | .ldc ty d a imm => Sys2Proof.Machine.execLdc ty d a imm s
  | .vldc q d a imm => Sys2Proof.Machine.execVldc q d a imm s
  | .pref w a imm => Sys2Proof.Machine.execPref w a imm s
  | .clinv a => Sys2Proof.Machine.execClinv a s
  | .clwb a => Sys2Proof.Machine.execClwb a s
  | .vsub q d a b => Sys2Proof.Machine.execVsub q d a b s
  | .vand q d a b => Sys2Proof.Machine.execVand q d a b s
  | .vor q d a b => Sys2Proof.Machine.execVor q d a b s
  | .vxor q d a b => Sys2Proof.Machine.execVxor q d a b s
  | .vsll q d a b => Sys2Proof.Machine.execVsll q d a b s
  | .vsrl q d a b => Sys2Proof.Machine.execVsrl q d a b s
  | .vsra q d a b => Sys2Proof.Machine.execVsra q d a b s
  | .vfsh q d a b c => Sys2Proof.Machine.execVfsh q d a b c s
  | .vmin q d a b => Sys2Proof.Machine.execVmin q d a b s
  | .vmax q d a b => Sys2Proof.Machine.execVmax q d a b s
  | .vabs q d a => Sys2Proof.Machine.execVabs q d a s
  | .vneg q d a => Sys2Proof.Machine.execVneg q d a s
  | .vcmp c q d a b => Sys2Proof.Machine.execVcmp c q d a b s
  | .vsel ty k d a b => Sys2Proof.Machine.execVsel ty k d a b s
  | .vbcast q d a => Sys2Proof.Machine.execVbcast q d a s
  | .vext ty d a b => Sys2Proof.Machine.execVext ty d a b s
  | .vins ty d a b => Sys2Proof.Machine.execVins ty d a b s
  | .vperm q d a b => Sys2Proof.Machine.execVperm q d a b s
  | .vrot q d a b => Sys2Proof.Machine.execVrot q d a b s
  | .vgmax q d a => Sys2Proof.Machine.execVgmax q d a s
  | .vgsum q d a => Sys2Proof.Machine.execVgsum q d a s
  | .vscan q d a => Sys2Proof.Machine.execVscan q d a s
  | .vclz q d a => Sys2Proof.Machine.execVclz q d a s
  | .vpopc q d a => Sys2Proof.Machine.execVpopc q d a s
  | .kop op d a b => Sys2Proof.Machine.execKop op d a b s
  | .kmov op d a => Sys2Proof.Machine.execKmov op d a s
  | .kpop ty d a => Sys2Proof.Machine.execKpop ty d a s
  | .vcompr q d a => Sys2Proof.Machine.execVcompr q d a s
  | .vspread q d a => Sys2Proof.Machine.execVspread q d a s
  | .viota q d => Sys2Proof.Machine.execViota q d s
  | .vrcp q d a => Sys2Proof.Machine.execVrcp q d a s
  | .vrsqrt q d a => Sys2Proof.Machine.execVrsqrt q d a s
  | .vexp2 q d a => Sys2Proof.Machine.execVexp2 q d a s
  | .vlog2 q d a => Sys2Proof.Machine.execVlog2 q d a s
  | .vtanh q d a => Sys2Proof.Machine.execVtanh q d a s
  | .vcvt q d a sty => Sys2Proof.Machine.execVcvt q d a sty s
  | .vround q d a => Sys2Proof.Machine.execVround q d a s
  | .vclass q d a => Sys2Proof.Machine.execVclass q d a s
  | .vscale q d a b => Sys2Proof.Machine.execVscale q d a b s
  | .vdot q d a b => Sys2Proof.Machine.execVdot q d a b s
  | .vpack q d a b => Sys2Proof.Machine.execVpack q d a b s
  | .vunpk q d a half => Sys2Proof.Machine.execVunpk q d a half s
  | .vqst sb8 allow d a imm => Sys2Proof.Machine.execVqst sb8 allow d a imm s
  | .vqenc sb8 allow d a => Sys2Proof.Machine.execVqenc sb8 allow d a s
  | .vdq kind rnd sat k zero d a => Sys2Proof.Machine.execVdq kind rnd sat k zero d a s
  | .vseed k zero d => Sys2Proof.Machine.execVseed k zero d s
  | .mxbind d a b c => Sys2Proof.Machine.execMxbind d a b c s
  | .mxunbind d => Sys2Proof.Machine.execMxunbind d s
  | .mx d n => Sys2Proof.Machine.execMx d n s
  | .mxg d a => Sys2Proof.Machine.execMxg d a s
  | .mxzero d => Sys2Proof.Machine.execMxzero d s
  | .mxld d a => Sys2Proof.Machine.execMxld d a s
  | .mxst d a => Sys2Proof.Machine.execMxst d a s
  | .mxdrain keep d => Sys2Proof.Machine.execMxdrain keep d s
  | .drrow d => Sys2Proof.Machine.execDrrow d s
  | .drput a => Sys2Proof.Machine.execDrput a s
  | .drdone drop => Sys2Proof.Machine.execDrdone drop s
  | .plane fmt d a => Sys2Proof.Machine.execPlane fmt d a s
  | .unplane fmt d a => Sys2Proof.Machine.execUnplane fmt d a s
  | .mxstat op d a => Sys2Proof.Machine.execMxstat op d a s
  | .rgdef q a b => Sys2Proof.Machine.execRgdef q a b s
  | .rgrsv d q b => Sys2Proof.Machine.execRgrsv d q b s
  | .rgpub q a b => Sys2Proof.Machine.execRgpub q a b s
  | .rgcon d q b => Sys2Proof.Machine.execRgcon d q b s
  | .rgst op d q b => Sys2Proof.Machine.execRgst op d q b s
  | .cpy rnd sat d a b c => Sys2Proof.Machine.execCpy rnd sat d a b c s
  | .cpys rnd sat d a b => Sys2Proof.Machine.execCpys rnd sat d a b s
  | .cpst d a b => Sys2Proof.Machine.execCpst d a b s
  | .fpush f a => Sys2Proof.Machine.execFpush f a s
  | .fpop d f => Sys2Proof.Machine.execFpop d f s
  | .ffree avail d f => Sys2Proof.Machine.execFfree avail d f s
  | .xput d a b => Sys2Proof.Machine.execXput d a b s
  | .xred ty d a b => Sys2Proof.Machine.execXred ty d a b s
  | .xget d a b => Sys2Proof.Machine.execXget d a b s
  | .xfin ty d a b => Sys2Proof.Machine.execXfin ty d a b s
  | .msend a b => Sys2Proof.Machine.execMsend a b s
  | .mrecv d => Sys2Proof.Machine.execMrecv d s
  | .mpoll d => Sys2Proof.Machine.execMpoll d s
  | .bardef n a => Sys2Proof.Machine.execBardef n a s
  | .bar rel n a => Sys2Proof.Machine.execBar rel n a s
  | .barv d n => Sys2Proof.Machine.execBarv d n s
  | .bararr rel d n b => Sys2Proof.Machine.execBararr rel d n b s
  | .barw d n b => Sys2Proof.Machine.execBarw d n b s
  | .barwT d n b c => Sys2Proof.Machine.execBarwT d n b c s
  | .bartx n a => Sys2Proof.Machine.execBartx n a s
  | .barst pend d n => Sys2Proof.Machine.execBarst pend d n s
  | .evwait e => Sys2Proof.Machine.execEvwait e s
  | .evsig e => Sys2Proof.Machine.execEvsig e s
  | .evsigRmt a b => Sys2Proof.Machine.execEvsigRmt a b s
  | .keyqOwn d idx => Sys2Proof.Machine.execKeyqOwn d idx s
  | .keyqId d a => Sys2Proof.Machine.execKeyqId d a s
  | .keyrel idx => Sys2Proof.Machine.execKeyrel idx s
  | .shadow d a => Sys2Proof.Machine.execShadow d a s
  | .publishSwap a => Sys2Proof.Machine.execPublishSwap a s
  | .publishDrop a => Sys2Proof.Machine.execPublishDrop a s
  | .snapTake d a => Sys2Proof.Machine.execSnapTake d a s
  | .snapDrop a => Sys2Proof.Machine.execSnapDrop a s
  | .tlbinvPage a => Sys2Proof.Machine.execTlbinvPage a s
  | .tlbinvAll => Sys2Proof.Machine.execTlbinvAll s
  | .hseek dir h a => Sys2Proof.Machine.execHseek dir h a s
  | .hrd d h => Sys2Proof.Machine.execHrd d h s
  | .hwr h a => Sys2Proof.Machine.execHwr h a s
  | .hrew h => Sys2Proof.Machine.execHrew h s
  | .hpos d h => Sys2Proof.Machine.execHpos d h s
  | .hstride h a => Sys2Proof.Machine.execHstride h a s
  | .htake h => Sys2Proof.Machine.execHtake h s
  | .hgive h => Sys2Proof.Machine.execHgive h s
  | .hrealign h => Sys2Proof.Machine.execHrealign h s
  | .hmark h => Sys2Proof.Machine.execHmark h s
  | .hburst h q b => Sys2Proof.Machine.execHburst h q b s
  | .hfill h q b => Sys2Proof.Machine.execHfill h q b s
  | .reservedOpcode page half => Sys2Proof.Machine.execReservedOpcode page half s
  | .queueEnable q => Sys2Proof.Machine.execQueueEnable q s
  | .queueDisable q => Sys2Proof.Machine.execQueueDisable q s
  | .queueResume q => Sys2Proof.Machine.execQueueResume q s
  | .queueResumeSkip q => Sys2Proof.Machine.execQueueResumeSkip q s
  | .tail q v => Sys2Proof.Machine.execTail q v s
  | .launch q => Sys2Proof.Machine.execLaunch q s
  | .copy q => Sys2Proof.Machine.execCopy q s
  | .signal q => Sys2Proof.Machine.execSignal q s
  | .waitCommand q => Sys2Proof.Machine.execWaitCommand q s
  | .flush q => Sys2Proof.Machine.execFlush q s
  | .commandComplete q c => Sys2Proof.Machine.execCommandComplete q c s
  | .waitTimeout q c => Sys2Proof.Machine.execWaitTimeout q c s
  | .queueDrained q => Sys2Proof.Machine.execQueueDrained q s
  | .startTick k => Sys2Proof.Machine.execStartTick k s
  | .switchOut fn p nextv next => Sys2Proof.Machine.execSwitchOut fn p nextv next s
  | .ptickReached p => Sys2Proof.Machine.execPtickReached p s
  | .switchOutDone p => Sys2Proof.Machine.execSwitchOutDone p s
  | .switchIn fn p => Sys2Proof.Machine.execSwitchIn fn p s
  | .switchInDone p => Sys2Proof.Machine.execSwitchInDone p s
  | .stop fn p => Sys2Proof.Machine.execStop fn p s
  | .haltTreeStop p reason dcause core => Sys2Proof.Machine.execHaltTreeStop p reason dcause core s
  | .partitionResume fn p => Sys2Proof.Machine.execPartitionResume fn p s
  | .partitionKill fn p => Sys2Proof.Machine.execPartitionKill fn p s
  | .balcmd fn p v => Sys2Proof.Machine.execBalcmd fn p v s
  | .balancerPeriod p => Sys2Proof.Machine.execBalancerPeriod p s
  | .clusterMapWrite fn cl v => Sys2Proof.Machine.execClusterMapWrite fn cl v s
  | .trackMapWrite fn core t v => Sys2Proof.Machine.execTrackMapWrite fn core t v s
  | .reindexDone core t => Sys2Proof.Machine.execReindexDone core t s
  | .recover v => Sys2Proof.Machine.execRecover v s
  | .bar0RegisterWrite fn addr size v => Sys2Proof.Machine.execBar0RegisterWrite fn addr size v s
  | .hostBar2Access fn addr write bytes len => Sys2Proof.Machine.execHostBar2Access fn addr write bytes len s
  | .dispatchPick p => Sys2Proof.Machine.execDispatchPick p s
  | .instanceStart n => Sys2Proof.Machine.execInstanceStart n s
  | .edgeRelease n => Sys2Proof.Machine.execEdgeRelease n s
  | .spawnEnqueue k n => Sys2Proof.Machine.execSpawnEnqueue k n s
  | .ageplaceExpiry p => Sys2Proof.Machine.execAgeplaceExpiry p s
  | .agekeyExpiry p => Sys2Proof.Machine.execAgekeyExpiry p s
  | .keyReleaseArrival n => Sys2Proof.Machine.execKeyReleaseArrival n s
  | .contextPreempt cid => Sys2Proof.Machine.execContextPreempt cid s
  | .contextResume cid core slot => Sys2Proof.Machine.execContextResume cid core slot s
  | .trackdataLoad n => Sys2Proof.Machine.execTrackdataLoad n s
  | .budgetExpiry cid => Sys2Proof.Machine.execBudgetExpiry cid s
  | .drainRunLimit core => Sys2Proof.Machine.execDrainRunLimit core s
  | .deferredTrap cid => Sys2Proof.Machine.execDeferredTrap cid s
  | .contextWaitEnd cid => Sys2Proof.Machine.execContextWaitEnd cid s
  | .deadLetterPost n => Sys2Proof.Machine.execDeadLetterPost n s
  | .messageDelivery n => Sys2Proof.Machine.execMessageDelivery n s
  | .msgwaitExpiry cid => Sys2Proof.Machine.execMsgwaitExpiry cid s
  | .tlbWalkComplete p vpage => Sys2Proof.Machine.execTlbWalkComplete p vpage s
  | .accessComplete cid store => Sys2Proof.Machine.execAccessComplete cid store s
  | .atomicAtHome cid => Sys2Proof.Machine.execAtomicAtHome cid s
  | .copyLand core => Sys2Proof.Machine.execCopyLand core s
  | .firingStart core cid tile => Sys2Proof.Machine.execFiringStart core cid tile s
  | .gangedFiringStart core cid tile => Sys2Proof.Machine.execGangedFiringStart core cid tile s
  | .firingComplete core badRows => Sys2Proof.Machine.execFiringComplete core badRows s
  | .assayRecompute core badRows => Sys2Proof.Machine.execAssayRecompute core badRows s
  | .gangArrival core => Sys2Proof.Machine.execGangArrival core s
  | .drainStart core cid tile => Sys2Proof.Machine.execDrainStart core cid tile s
  | .drainHandlerRun core => Sys2Proof.Machine.execDrainHandlerRun core s
  | .drainRow core => Sys2Proof.Machine.execDrainRow core s
  | .matrixOpComplete core => Sys2Proof.Machine.execMatrixOpComplete core s
  | .chuteCredit core up => Sys2Proof.Machine.execChuteCredit core up s
  | .barrierPhaseComplete cl n => Sys2Proof.Machine.execBarrierPhaseComplete cl n s
  | .remoteEventArrival n => Sys2Proof.Machine.execRemoteEventArrival n s
  | .barrierWaitTimeout cid => Sys2Proof.Machine.execBarrierWaitTimeout cid s
  | .timedWaitWake cid => Sys2Proof.Machine.execTimedWaitWake cid s
  | .syncExchangeComplete n => Sys2Proof.Machine.execSyncExchangeComplete n s
  | .powerHoldEnd n => Sys2Proof.Machine.execPowerHoldEnd n s
  | .columnRelease n col => Sys2Proof.Machine.execColumnRelease n col s
  | .spanReleaseTick n tick votes => Sys2Proof.Machine.execSpanReleaseTick n tick votes s
  | .portTake cid head => Sys2Proof.Machine.execPortTake cid head s
  | .seekComplete cid head => Sys2Proof.Machine.execSeekComplete cid head s
  | .holdLapse core t => Sys2Proof.Machine.execHoldLapse core t s
  | .headStreamWord core t => Sys2Proof.Machine.execHeadStreamWord core t s
  | .gateRequestArrival n => Sys2Proof.Machine.execGateRequestArrival n s
  | .clusterOff cl => Sys2Proof.Machine.execClusterOff cl s
  | .clusterWakeReady cl => Sys2Proof.Machine.execClusterWakeReady cl s
  | .linkEnable fn l => Sys2Proof.Machine.execLinkEnable fn l s
  | .linkDisable fn l => Sys2Proof.Machine.execLinkDisable fn l s
  | .retrain fn l => Sys2Proof.Machine.execRetrain fn l s
  | .signalSeen l lanes => Sys2Proof.Machine.execSignalSeen l lanes s
  | .equalisationDone l lanes => Sys2Proof.Machine.execEqualisationDone l lanes s
  | .negotiate l devid isamaj lanes port fec credits => Sys2Proof.Machine.execNegotiate l devid isamaj lanes port fec credits s
  | .timeFlitExchange l t1 t2 t3 t4 => Sys2Proof.Machine.execTimeFlitExchange l t1 t2 t3 t4 s
  | .lanesLost l lanes => Sys2Proof.Machine.execLanesLost l lanes s
  | .linkLost l code => Sys2Proof.Machine.execLinkLost l code s
  | .flitReceive l flit good => Sys2Proof.Machine.execFlitReceive l flit good s
  | .nak l ackseq => Sys2Proof.Machine.execNak l ackseq s
  | .reduceMessage l addr value => Sys2Proof.Machine.execReduceMessage l addr value s
  | .ack l n => Sys2Proof.Machine.execAck l n s
  | .powerOn fails fwver => Sys2Proof.Machine.execPowerOn fails fwver s
  | .pcieTrainRetry ok lanes => Sys2Proof.Machine.execPcieTrainRetry ok lanes s
  | .uncorrectableError storage core cid addr => Sys2Proof.Machine.execUncorrectableError storage core cid addr s
  | .getVersion => Sys2Proof.Machine.execGetVersion s
  | .getCapabilities => Sys2Proof.Machine.execGetCapabilities s
  | .negotiateAlgorithms => Sys2Proof.Machine.execNegotiateAlgorithms s
  | .getDigests => Sys2Proof.Machine.execGetDigests s
  | .getCertificate slot offset len => Sys2Proof.Machine.execGetCertificate slot offset len s
  | .challenge slot nonce => Sys2Proof.Machine.execChallenge slot nonce s
  | .getMeasurements index nonce => Sys2Proof.Machine.execGetMeasurements index nonce s
  | .spdmUnsupportedRequest code => Sys2Proof.Machine.execSpdmUnsupportedRequest code s

end Sys2Proof.Machine
end

