-- ==== Sys2Proof/Machine/Late.lean ====
section
/-! DEFINITION. Accesses that take their place in the single order after their instruction has issued (R244-R246, R249,
R262, R263, R267): stores that land later, whole or element by element; vector loads whose elements are read at different
times; and what caches do of themselves. An instruction's own meaning takes its accesses at once; the acts of this file are
how else they may fall. -/
namespace Sys2Proof.Machine

/-! ## Stores that land later (R244, R249) -/

/-- An instruction that has no place in the single order, and may be carried out while earlier stores of its context have
none yet: it touches registers only, or it is an arrival or a wait that orders nothing, or it hands an operation to the
copy engine. Every other one finds them landed. -/
def unordered : Instr → Bool
  | .add _ _ _ | .addi _ _ _ | .sub _ _ _ | .and _ _ _ | .or _ _ _ | .xor _ _ _ | .slli _ _ _ | .srli _ _ _ | .srai _ _ _
  | .li _ _ | .mov _ _ | .slt _ _ _ | .sltu _ _ _ | .seq _ _ _ | .pbr _ _ | .br _ | .brnz _ _ | .brz _ _
  | .mul _ _ _ | .mulh _ _ _ | .mulhu _ _ _ | .div _ _ _ | .divu _ _ _ | .rem _ _ _ | .remu _ _ _ | .sll _ _ _ | .srl _ _ _
  | .sra _ _ _ | .fshr _ _ _ _ | .clz _ _ | .ctz _ _ | .popc _ _ | .bext _ _ _ _ | .bins _ _ _ _ | .min _ _ _ | .max _ _ _
  | .minu _ _ _ | .maxu _ _ _ | .sel _ _ _ _ | .sext _ _ _ | .zext _ _ _ | .lea _ _ _ _ | .andi _ _ _ | .ori _ _ _
  | .xori _ _ _ | .call _ | .callB _ | .ret | .breq _ _ _ | .brne _ _ _ | .brlt _ _ _ | .brge _ _ _ | .brltu _ _ _
  | .brgeu _ _ _ | .pbrr _ _ | .mfb _ _ | .rdtime _ | .rdcyc _ | .tmwait _ _ | .bar _ _ _ | .bararr _ _ _ _ | .barv _ _
  | .barw _ _ _ | .barwT _ _ _ _ | .barst _ _ _ | .bartx _ _ | .evsig _ | .evsigRmt _ _ | .wait _ _ _ _ _ | .fence _ _
  | .cpy _ _ _ _ _ _ | .cpst _ _ _ => true
  | _ => false

/-- An instruction has done what it does: it has not trapped, waited or posted. -/
def State.smooth (t v : State) : Bool :=
  t.cx.wait.isNone && t.cx.sup = v.cx.sup && t.parts = v.parts && t.nextBad = v.nextBad

/-- The state after a store whose effects on registers are those of `u`, and which has not landed. -/
def State.deferStore (v u : State) (i : Instr) : State :=
  { v with
    cx := { u.cx with l1 := v.cx.l1 }
    free := u.free
    late := v.late.set v.cx.cid (v.late.getD v.cx.cid [] ++ [⟨i, v.cx, []⟩]) }

/-- The access carried out on the present memory, by the context as it issued it; or whether it is lost, since neither way to
its home is open any more (R404), where it does not wait. -/
def State.relive (w : State) (i : Instr) (c : Ctx) : Except Bool State :=
  match exec i { w with cx := { c with l1 := w.cx.l1 } } with
  | .next u =>
    if u.cx.wait.isSome then .error false
    else if u.cx.sup != c.sup || (u.part c.id.part).pstate != (w.part c.id.part).pstate then .error true
    else .ok u
  | _ => .error false

/-- What is left of a late store: the whole of it, or its elements that have not landed. -/
def State.reliveLeft (w : State) (e : Late) : Except Bool State :=
  match e.landed, maskedStore e.i e.cx with
  | _ :: _, some (i, c, bits, _) => w.relive i (c.withMask (bits.filter fun b => !e.landed.contains b))
  | _, _ => w.relive e.i e.cx

/-- The oldest store of the context in hand that has not landed lands, with what is left of it. Accesses that fault now are
counted in its place; a store that is lost is counted no more. -/
def State.landOldest (w : State) : State :=
  match w.late.getD w.cx.cid [] with
  | [] => w
  | e :: rest =>
    let late := w.late.set w.cx.cid rest
    let counts (n : Nat) : Counts := { w.cx.cnt with store := w.cx.cnt.store - 1 + n }
    match w.reliveLeft e with
    | .error false => w
    | .error true => { w with cx := { w.cx with cnt := counts 0 }, late := late }
    | .ok u => { u with cx := { w.cx with l1 := u.cx.l1, cnt := counts (u.cx.cnt.store - e.cx.cnt.store) }, late := late }

/-- All of them land, in program order, as far as they can. -/
def State.landAll (w : State) : Nat → State
  | 0 => w
  | n + 1 => if (w.late.getD w.cx.cid []).isEmpty then w else State.landAll w.landOldest n
def State.allLanded (w : State) : State := w.landAll (w.late.getD w.cx.cid []).length

/-- One element of the oldest store of the context in hand lands: the one with the byte that `n` picks, or the next lane of a
scatter. The last one, and one that would fault, land with what is left. -/
def State.landPiece (w : State) (n : Nat) : State :=
  match w.late.getD w.cx.cid [] with
  | [] => w
  | e :: rest =>
    match maskedStore e.i e.cx with
    | none => w
    | some (i, c, bits, unit, inOrder) =>
      let left := bits.filter fun b => !e.landed.contains b
      let b := if inOrder then left.headD 0 else left.getD (n % left.length) 0
      let mine := left.filter fun x => x / max unit 1 = b / max unit 1
      if left.length ≤ mine.length then w
      else match w.relive i (c.withMask mine) with
        | .error _ => w
        | .ok u =>
          if u.nextBad != w.nextBad then w
          else { u with cx := { w.cx with l1 := u.cx.l1 }
                        late := w.late.set w.cx.cid ({ e with landed := e.landed ++ mine } :: rest) }

/-- A context with stores that have not landed, where they may: it holds its slot in a partition that runs. -/
def State.mayLand (s : State) (cid : Nat) : Bool := !(s.late.getD cid []).isEmpty && (s.running? cid).isSome

/-- Stores of a context land, where they may. -/
def State.landing (s : State) (cid : Nat) (f : State → State) : State := if s.mayLand cid then f (s.checkout cid) else s

/-- An engine reads its source after every earlier ordinary access of its context (R199): stores that have not landed land
first where the operation at the head of a core's copy engine would read them. -/
def State.sourced (s : State) (core : Nat) : State :=
  match (s.core core).copies with
  | [] => s
  | op :: _ =>
    if !s.mayLand op.cid then s
    else
      let t := (s.checkout op.cid).allLanded
      let reads (s : State) : List (List Byte) := match s.ctx? op.cid with
        | some c => (s.gatherRows c op (List.range op.rows)).1.map fun e => e.2.bytes
        | none => []
      if reads s = reads t then s else t

/-! ## Vector loads element by element (R245) -/

/-- A vector load: its destination, and the size of the pieces that it reads at once. -/
def loadUnit (i : Instr) (c : Ctx) : Option (Nat × Nat) :=
  match i with
  | .vld q d _ _ => some (d, tyWidth q.ty / 8)
  | .vldu q d a imm => some (d, if c.addrOf a imm % (tyWidth q.ty / 8) = 0 then tyWidth q.ty / 8 else 1)
  | .vgath _ d _ _ => some (d, 4)
  | _ => none

/-- Pieces of the vector load that a context has issued last are read again: those that `m` names. Nothing of the context
has come after the load. -/
def State.reload (s : State) (cid m : Nat) : State :=
  match s.opened.get? cid, s.running? cid with
  | some e, some c =>
    let w := s.checkout cid
    match loadUnit e.i e.cx with
    | none => s
    | some (d, unit) =>
      match c.r.v.get? d, w.relive e.i e.cx with
      | some old, .ok u =>
        if c.st.last != e.cx.st.last || c.cnt.load != e.cx.cnt.load + 1 || u.nextBad != w.nextBad then s
        else
          let new := vBytes (u.cx.r.v.getD d 0)
          let x := vOfBytes ((vBytes old).zipIdx.map fun b => if m.testBit (b.2 / max unit 1) then new.getD b.2 0 else b.1)
          { u with cx := { w.cx with l1 := u.cx.l1, r := w.cx.r.putV d x } }
      | _, _ => s
  | _, _ => s

/-! ## Issue -/

/-- The instruction waits with its age (R320) while an earlier store of the context cannot land. -/
def State.heldBack (v : State) (last : Nat) : State :=
  { v with cx := { v.cx with wait := some .latency, st := { v.cx.st with last := last } } }

/-- A context comes to its next instruction boundary: its instruction runs, its earlier stores landed where it has a place in
the order; or the state is as the boundary leaves it. While one of those stores cannot land, since its traffic is held
(R394), the instruction waits. -/
def issueStep (cid : Nat) (s : State) : Host.Outcome State Fault Refusal :=
  match s.ready cid with
  | .done t => .next t
  | .instr i len t =>
    let v := if unordered i then t.latched len else (t.latched len).allLanded
    if !unordered i && !(v.late.getD v.cx.cid []).isEmpty then .next (v.heldBack t.cx.st.last)
    else ageKept v t.cx.st.last (exec i v)

/-- The same, but a store does not land at once, and the elements of a vector load may be read again. -/
def issueLate (cid : Nat) (s : State) : Host.Outcome State Fault Refusal :=
  match s.ready cid with
  | .done t => .next t
  | .instr i len t =>
    let v := t.latched len
    let stores := isStore i
    let v := if unordered i || stores then v else v.allLanded
    if !unordered i && !stores && !(v.late.getD v.cx.cid []).isEmpty then .next (v.heldBack t.cx.st.last)
    else match ageKept v t.cx.st.last (exec i v) with
    | .next u =>
      if stores then .next (if u.smooth v && u.cx.cnt.store = v.cx.cnt.store + 1 then v.deferStore u i else u)
      else if (loadUnit i v.cx).isSome && u.smooth v then .next { u with opened := u.opened.set cid ⟨i, v.cx, []⟩ }
      else .next u
    | o => o

/-! ## What caches do of themselves (R233, R242, R267) -/

/-- A context's first-level cache writes a line back, and keeps it or evicts it. -/
def State.evictLine (s : State) (cid line : Nat) (drop : Bool) : State :=
  match s.ctx? cid with
  | none => s
  | some _ => let t := s.checkout cid; t.cleanLine line drop

/-- The second-level cache gives up a block that it holds expanded, where no cached word, atomic or window needs it. -/
def State.evictBlock (s : State) (blk : Nat) : State :=
  let inside (k : Nat) : Bool := k / 4096 = blk
  if s.expanded.contains blk && !(s.home.any fun e => inside (e.1 * 8)) && !(s.atoms.any fun a => inside a.2.key) &&
      !(s.ctxs.any fun c => c.l1.data.any fun l => inside (l.line * 128)) &&
      !(s.parts.any fun p => p.2.windows.any fun w => (w.2.frames ++ w.2.spares).any fun f =>
          f.frame / 65536 = blk / 16) then s.storeBlock blk
  else s

/-- The acts of this file that the part may do next. -/
def State.lateMoves (s : State) : List Move :=
  (s.late.flatMap fun e => [fun (t : State) => .next (t.landing e.1 State.landOldest),
    fun t => .next ({ t with free := t.free + 1 }.landing e.1 fun u => u.landPiece (Config.freePick t.free))]) ++
  (s.opened.map fun e => fun (t : State) => .next ({ t with free := t.free + 1 }.reload e.1 (Config.freePick t.free))) ++
  (s.ctxs.flatMap fun c => c.l1.data.flatMap fun l => [fun (t : State) => .next (t.evictLine c.cid l.line false),
    fun t => .next (t.evictLine c.cid l.line true)]) ++
  s.expanded.map fun b => fun (t : State) => .next (t.evictBlock b)

end Sys2Proof.Machine
end

