-- ==== Sys2Proof/Machine/Step.lean ====
section
/-! DEFINITION. One step of the part, and the placing of one instruction where the next step fetches it. -/
namespace Sys2Proof.Machine

/-- The row is an event of another agent, not an instruction of a context: the constructors after `reservedOpcode`. -/
def isEvent (i : Instr) : Bool := 216 < i.ctorIdx

/-- What one agent does. -/
def act (a : Agent) (s : State) : Host.Outcome State Fault Refusal :=
  match a with
  | .issue cid => issueStep cid s
  | .notReady cid => .next (s.notReady cid)
  | .issueLate cid => issueLate cid s
  | .sameCycle cids => .next (s.sameCycle cids)
  | .land cid => .next (s.landing cid State.landOldest)
  | .landPiece cid n => .next (s.landing cid fun u => u.landPiece n)
  | .reload cid m => .next (s.reload cid m)
  | .evictLine cid line drop => .next (s.evictLine cid line drop)
  | .evictBlock blk => .next (s.evictBlock blk)
  | .event i =>
    if !isEvent i then .next s
    else match i with
      | .copyLand core => exec i (s.sourced core)
      | _ => exec i s
  | .beat core off n => .next ((s.sourced core).beat core off n)
  | .slip core t n => .next (s.slipTrack core t n)
  | .stick core t n => .next (s.stickTrack core t n)
  | .pass ns => .next (s.pass ns)
  | .firingRead core => .next (s.firingRead core)
  | .mopBeat core off n => .next (s.mopBeat core off n)
  | .corrected l n => .next (s.corrected l n)
  | .ring p v => .next (s.giveRing p v)
  | .send l => .next (s.sendNext l)
  | .flit l vl ty pay => .next (s.askFlit l vl ty pay)
  | .idle l => .next (s.sendIdle l)
  | .peerWrite l addr bytes => .next (s.peerWrite l addr bytes)
  | .peerRead l addr n => .next (s.peerRead l addr n)
  | .beyond l id => .next (s.reachBeyond l id)
  | .pcieRate r => .next (s.pcieRate r)
  | .aerCorrectable fn => .next { s with aerCor := s.aerCor ++ [fn] }
  | .eccCorrected => .next { s with ras := { s.ras with cecnt := (s.ras.cecnt + 1) % 2 ^ 64 } }
  | .fetchSlot q => .next (s.fetchAhead q)
  | .assignBar2 fn base => .next { s with bar2 := s.bar2.set fn base }
  | .bar0Read fn addr size => .next (s.bar0Read fn addr size)
  | .relocations kobj l => .next { s with relocs := s.relocs.set kobj l }

/-- A step that nothing directs: one of the contexts that may issue, or one of the other agents' acts. -/
def freeStep (s : State) : Host.Outcome State Fault Refusal :=
  let t := { s with free := s.free + 1 }
  let cids := s.issuers
  let n := Config.freePick s.free
  let moves := s.moves.map (fun m (u : State) => m (u.cores.foldl (fun s e => s.sourced e.1) u)) ++ s.lateMoves
  if n % 4 = 0 && !cids.isEmpty then issueStep (cids.getD (n / 4 % cids.length) 0) t
  else if n % 4 = 1 && !cids.isEmpty then issueLate (cids.getD (n / 4 % cids.length) 0) t
  else (moves.getD (n / 4 % moves.length) passMove) t

/-- A part held in reset leaves it only by a new power-on (R416). -/
def startsPowerOn : List Agent → Bool
  | .event (.powerOn _ _) :: _ => true
  | _ => false

/-- What every step ends with: the matrix engines see which bindings have become ready (R182). -/
def settled : Host.Outcome State Fault Refusal → Host.Outcome State Fault Refusal
  | .next t => .next t.noteReady
  | o => o

/-- One step: the agenda's first agent moves, or, where it is empty, a free choice. -/
def step (s : State) : Host.Outcome State Fault Refusal :=
  if s.ras.held && !startsPowerOn s.agenda then .fault .partInReset
  else settled (match s.agenda with
    | [] => freeStep s
    | a :: t => act a { s with agenda := t })

/-! ## Placing an instruction -/

/-- The context that runs a placed instruction: slot 0 of core 0x200, partition 0, at the start of global memory. -/
def placedCtx (endSeq : Word) : Ctx :=
  { Ctx.blank with
    r := { Ctx.blank.r with s := entryRegs endSeq Ctx.blank.id 0 }
    pc := 0x10000000000
    npc := 0x10000000000
    st := { Ctx.blank.st with live := true } }

/-- The bytes of halfwords, as they are stored (R102). -/
def halfBytes (hs : List Nat) : List Byte := hs.flatMap (bytesOfNat 2)

/-- Memory with page tables that map the first 32 MiB of global memory to an executable page, and code at its start. -/
def placedMem (m : Memory) (hs : List Nat) : Memory :=
  (((m.putBytes 0x10000 (bytesOfNat 8 (0x20000 + 1))).putBytes 0x20020 (bytesOfNat 8 (0x30000 + 1))).putBytes 0x30000
    (bytesOfNat 8 (2 ^ 56 + 2 ^ 55 + 2 ^ 54 + 0x2000000 + 1))).putBytes 0x2000000 (halfBytes hs)

/-- The state with the instruction of a table word placed where the next step fetches it: a running context of partition 0 on
cluster 0, its page tables, the code, and the agenda that lets it issue. A program comes to run from reset otherwise: by a
cluster map write, queue set-up, LAUNCH, DISPATCH_PICK and INSTANCE_START (notes/assumptions/6.md). -/
def State.withFetchWord (s : State) (nbits w : Nat) : State :=
  { s with
    cx := placedCtx s.endSeq
    others := ((if s.cx.st.live then s.others.set s.cx.cid s.cx else s.others).erase 0).filter fun e => e.2.id.core != 0x200
    parts := s.parts.set 0 { Part.fresh with root := 0x10000 }
    clusters := s.clusters.set 0 Cluster.fresh
    cmap := s.cmap.set 0 0x80
    mem := placedMem s.mem (tableHalves nbits w)
    poison := s.poison.filter fun b => b != 0x2000
    ecc := s.ecc.filter fun b => b / 512 != 0x2000
    bads := s.bads.filter fun b => b.2.cid != 0
    late := s.late.erase 0
    opened := s.opened.erase 0
    walking := s.walking.filter fun w => w.part != 0
    walkCache := s.walkCache.map fun e => (e.1, e.2.filter fun x => x.part != 0)
    forms := s.forms.filter fun e => e.1 != 0
    ras := { s.ras with held := false }
    agenda := [.issue 0] }

end Sys2Proof.Machine
end

