-- ==== Sys2Proof/Safety.lean ====
section
/-! DEFINITION. What counts as a safe run, the invariant of the model, and the vocabulary statements are written in:
what an operand read, a last-use free, a register write and the pc's advance do to the state, said of the state alone. -/
namespace Sys2Proof.Machine

/-- The step goes on. -/
def Safe (s : State) : Prop := ∃ t, step s = .next t

/-! ## Operands (R52-R56) -/

namespace State

/-- Scalar register `n` as an operand: its value and the state after the read, where the read completes. A pending register
or one with a killed entry completes nothing, nor an unmapped one under `mode.UDREAD`; otherwise an unmapped register
reads as zero or a value the context has held (R52, R55, R56). -/
def readsS (s : State) (n : Nat) : Option (Word × State) :=
  if n = 0 then some (0, s)
  else if s.cx.r.sPoison.has n || s.cx.r.sPend.has n || s.cx.r.sFly.has n then none
  else match s.cx.r.s.get? n with
    | some x => some (x, s)
    | none =>
      if s.cx.c.mode.getLsbD 0 then none
      else some ((0 :: s.cx.r.sHeld).getD (Config.freePick s.free % (s.cx.r.sHeld.length + 1)) 0,
        { s with free := s.free + 1 })

/-- Scalar registers in order. -/
def readsSs (s : State) : List Nat → Option (List Word × State)
  | [] => some ([], s)
  | n :: l =>
    match s.readsS n with
    | none => none
    | some (x, t) =>
      match t.readsSs l with
      | none => none
      | some (xs, u) => some (x :: xs, u)

/-- A change to the context in hand, to its registers, to its control registers. -/
def onCx (s : State) (f : Ctx → Ctx) : State := { s with cx := f s.cx }
def onRegs (s : State) (f : Regs → Regs) : State := s.onCx fun c => { c with r := f c.r }
def onCtl (s : State) (f : Ctl → Ctl) : State := s.onCx fun c => { c with c := f c.c }

/-- Last-use frees of scalar sources (R53). -/
def freedS (s : State) : List Src → State
  | [] => s
  | a :: l => (if a.last && a.n != 0 then s.onRegs fun r => { r with s := r.s.erase a.n } else s).freedS l

/-- Scalar sources read in order, then freed where marked (R53). -/
def operands (s : State) (l : List Src) : Option (List Word × State) :=
  match s.readsSs (l.map (·.n)) with
  | none => none
  | some (xs, t) => some (xs, t.freedS l)

/-- A scalar destination has room: `s0`, a mapped register, or a context below its limit (R54). -/
def roomS (s : State) (d : Nat) : Bool :=
  d = 0 || s.cx.r.s.has d || decide (s.cx.r.s.length < s.cx.sLimit)

/-- Scalar register `d` holds `x`; `s0` discards it (R52). -/
def gotS (s : State) (d : Nat) (x : Word) : State := if d = 0 then s else s.onRegs fun r => r.putS d x

/-- Execution goes on after the instruction (R112, R143). -/
def gone (s : State) : State := { s with cx := s.cx.advanced s.nops }

/-- Execution goes on at an address (R124). -/
def wentTo (s : State) (t : Word) : State := s.onCx fun c => { c with pc := t &&& ~~~1#64 }

/-- Branch-target register `d` holds `t`, which is being prepared (R125). -/
def gotB (s : State) (d : Nat) (t : Word) : State := s.onRegs fun r =>
  { r with b := r.b.set d t, prep := if r.prep.contains d then r.prep else d :: r.prep }

/-- The target `2 × imm` bytes from the instruction (R124). -/
def near (s : State) (imm : Int) : Word := s.cx.pc + BitVec.ofInt 64 (2 * imm)

/-- The context waits; its instruction is issued again when the wait ends (R319). -/
def waits (s : State) (w : Wait) : State := s.onCx fun c => { c with wait := some w }

/-! ## Vector and mask registers (R52, R55, R147) -/

/-- Vector register `n` as an operand. -/
def readsV (s : State) (n : Nat) : Option (VReg × State) :=
  if s.cx.r.vPoison.has n || s.cx.r.vPend.has n || s.cx.r.vFly.has n then none
  else match s.cx.r.v.get? n with
    | some x => some (x, s)
    | none =>
      if s.cx.c.mode.getLsbD 0 then none
      else some ((0 :: s.cx.r.vHeld).getD (Config.freePick s.free % (s.cx.r.vHeld.length + 1)) 0,
        { s with free := s.free + 1 })

/-- Vector registers in order. -/
def readsVs (s : State) : List Nat → Option (List VReg × State)
  | [] => some ([], s)
  | n :: l =>
    match s.readsV n with
    | none => none
    | some (x, t) =>
      match t.readsVs l with
      | none => none
      | some (xs, u) => some (x :: xs, u)

/-- Mask register `n` as an operand: `k0` is all ones. -/
def readsK (s : State) (n : Nat) : Option (KReg × State) :=
  if n = 0 then some (BitVec.allOnes 128, s)
  else match s.cx.r.k.get? n with
    | some x => some (x, s)
    | none =>
      if s.cx.c.mode.getLsbD 0 then none
      else some ((0 :: s.cx.r.kHeld).getD (Config.freePick s.free % (s.cx.r.kHeld.length + 1)) 0,
        { s with free := s.free + 1 })

/-- The previous bits of a destination, read only where they merge (R149). -/
def readsOld (s : State) (k : Nat) (zero : Bool) (d : Nat) : Option (VReg × State) :=
  if k != 0 && !zero then s.readsV d else some (0, s)

def freedV (s : State) : List Src → State
  | [] => s
  | a :: l => (if a.last then s.onRegs fun r => { r with v := r.v.erase a.n } else s).freedV l
def freedK (s : State) (a : Src) : State :=
  if a.last && a.n != 0 then s.onRegs fun r => { r with k := r.k.erase a.n } else s

def roomV (s : State) (d : Nat) : Bool := s.cx.r.v.has d || decide (s.cx.r.v.length < s.cx.decl.vregs)
def roomK (s : State) (d : Nat) : Bool := d = 0 || s.cx.r.k.has d || decide (s.cx.r.k.length < s.cx.decl.kregs)
def gotV (s : State) (d : Nat) (x : VReg) : State := s.onRegs fun r => r.putV d x
def gotK (s : State) (d : Nat) (x : KReg) : State := if d = 0 then s else s.onRegs fun r => r.putK d x

/-- The sources of an element-wise instruction: vector sources, mask, merged destination; the sources freed (R53, R149). -/
def operandsV (s : State) (srcs : List Src) (k : Nat) (zero : Bool) (d : Nat) :
    Option ((List VReg × KReg × VReg) × State) :=
  match s.readsVs (srcs.map (·.n)) with
  | none => none
  | some (xs, t) =>
    match t.readsK k with
    | none => none
    | some (m, u) =>
      match u.readsOld k zero d with
      | none => none
      | some (o, w) => some ((xs, m, o), w.freedV srcs)

/-- As `operandsV`, for an instruction that reads its destination whatever the mask (R149). -/
def operandsVD (s : State) (srcs : List Src) (k d : Nat) : Option ((List VReg × KReg × VReg) × State) :=
  match s.readsVs (srcs.map (·.n)) with
  | none => none
  | some (xs, t) =>
    match t.readsK k with
    | none => none
    | some (m, u) =>
      match u.readsV d with
      | none => none
      | some (o, w) => some ((xs, m, o), w.freedV srcs)

/-- Sticky flags are set: the context's own, or in the drain slot those of the context whose binding started the run
(R60, R61). -/
def flagged (s : State) (f : Nat) : State :=
  match s.cx.drain with
  | none => s.onCx fun c => c.setFlags f
  | some d => s.modCtx d.owner fun c => c.setFlags f

/-- A vector instruction ends (R60, R89): its flags are set, the generator has stepped through `n` values where it converts
with `.rsr`, `v[d]` holds the result, and execution goes on. -/
def vectorDone (s : State) (rsr : Bool) (n fl d : Nat) (x : VReg) : State :=
  let t := s.flagged fl
  let t := if rsr then t.onCtl fun c => { c with srseed := (genRun n s.cx.c.srseed).2 } else t
  (t.gotV d x).gone

/-- The generator's value for an element position; nothing steps without `.rsr`. -/
def rnds (s : State) (rsr : Bool) (n i : Nat) : Nat := if rsr then (genRun n s.cx.c.srseed).1.getD i 0 else 0

/-- The elements an instruction computes are given by `f`; the inactive ones keep the old bits, or are zero (R149). -/
def lanes (w : Nat) (m : KReg) (zero : Bool) (old x : VReg) (f : Nat → Nat) : Prop :=
  ∀ i, i < 1024 / w → elem w x i =
    if m.getLsbD (w * i / 8) then f i % 2 ^ w else if zero then 0 else elem w old i

/-! ## Places an instruction may stand -/

/-- Neither inside a microprogram (R144) nor in the drain slot (R188). -/
def plain (s : State) : Bool := s.cx.micro.isNone && s.cx.drain.isNone
/-- Not in the drain slot (R188). -/
def notDrain (s : State) : Bool := s.cx.drain.isNone

end State

namespace State

/-- Program order and room let an ordinary access of a class go (R68, R244, R326): no faulted access of the context is
unresolved, none of its atomics is on its way, and the class is below its limit. -/
def ordered (s : State) : Bool :=
  !(s.bads.any fun e => e.2.cid = s.cx.cid) && !(s.atoms.any fun e => e.2.cid = s.cx.cid)
/-- Each earlier ordinary access of the context has its place in the single order (R248): none of its loads, stores, atomics or
fetches is unresolved. -/
def placed (s : State) : Bool :=
  !(s.bads.any fun e => e.2.cid = s.cx.cid && e.2.opk ≤ 3) && !(s.atoms.any fun e => e.2.cid = s.cx.cid)
/-- The context has made a release fence (R209). -/
def releases (s : State) : State := s.onCx fun c => { c with st := { c.st with fenced := true } }
def room (s : State) (cls : Nat) : Bool := decide (s.cx.cnt.get cls < classLimit cls)
/-- One more operation of a class is on its way (R68). -/
def counted (s : State) (cls : Nat) : State := s.onCx fun c => { c with cnt := c.cnt.add cls 1 }

/-- No copy of the context that converts with `.rsr` is on its way (R151). -/
def seedFree (s : State) : Bool :=
  !((s.core s.cx.id.core).copies.any fun o => o.cid = s.cx.cid && o.ctrl.getLsbD 34 && o.rnd = .rsr)

/-- The contents of the control registers, by index (R57, R58, R66). -/
def control (s : State) : List Word :=
  [BitVec.ofNat 64 (s.cx.id.serial % 2 ^ 24 * 2 ^ 16 + s.cx.id.core * 2 ^ 4 + s.cx.id.slot),
    BitVec.ofNat 64 s.cx.id.core, BitVec.ofNat 64 s.cx.id.part, s.cx.c.mode, s.cx.c.fflags, s.cx.c.cause, s.cx.c.tpc,
    s.cx.c.tinfo, s.cx.c.tvec, s.cx.c.budget, s.cx.c.deadline, s.cx.c.brole, s.cx.c.srseed,
    BitVec.ofNat 64 (s.cx.cnt.load % 256 + s.cx.cnt.store % 256 * 2 ^ 8 + s.cx.cnt.copy % 256 * 2 ^ 16 +
      s.cx.cnt.matrix % 256 * 2 ^ 24 + s.cx.cnt.head % 256 * 2 ^ 32),
    BitVec.ofNat 64 (s.cx.id.x % 65536 + s.cx.id.y % 65536 * 2 ^ 16 + s.cx.id.z % 65536 * 2 ^ 32),
    s.caps s.cx.id.core, (s.part s.cx.id.part).rrbase, s.cx.c.hold]

end State

/-- What a store of `n` bytes at a place writes, by its first byte and its length: those bytes, or, into a word that a host
write has left old in the context's cache, the whole of that word (R233). -/
def State.storeSpan (s : State) (key n : Nat) : Nat × Nat :=
  if (s.cx.oldWord key n).isSome then (key / 8 * 8, max 8 (key % 8 + n)) else (key, n)

/-- A byte lies outside a span. -/
def beyond (p : Nat) (span : Nat × Nat) : Prop := p < span.1 ∨ span.1 + span.2 ≤ p

/-! ## The copy engine (R216-R218) -/

/-- The engine takes an operation of the context in hand: its own ranges lie in plain banks, no global range is asked of a
compute core, a follow-on destination may be published, earlier accesses are in order where an own range is read, the links
of its traffic take traffic, and the copy class has room. -/
def State.engineMay (s : State) (op : CopyOp) : Bool :=
  ((op.srcRanges ++ op.dstRanges).all fun r => (!isOwn r.1 || s.cx.ownRange r.1 r.2) &&
    !(onDeck s.cx.id.core && (isGlobal r.1 || isGlobal (r.1 + r.2 - 1)))) &&
  (!cwFon op.ctrl.toNat || (!isGlobal op.dst.toNat && (!isOwn op.dst.toNat ||
    match s.cx.ownBank op.dst.toNat with
    | .ok key => (s.followSlot s.cx.id.core (cwFq op.ctrl.toNat) key (op.rows * op.outLen)).isSome
    | .error _ => false))) &&
  (!(op.srcRanges.any fun r => isOwn r.1) || s.ordered) &&
  (((op.srcRanges ++ op.dstRanges).flatMap fun r => piecesOf r.1 r.2).all fun p =>
    (s.linksFor s.cx p.1).all fun l => linkPresent s.variant l && s.carries l) &&
  s.room 2

/-- The operation joins its core's engine and counts in the copy class. -/
def State.engineTook (s : State) (op : CopyOp) : State :=
  ((s.modCore s.cx.id.core fun k => { k with copies := k.copies ++ [op] }).counted 2).gone

/-! ## Taking a trap (R62, R321) -/

/-- The context in hand in its handler: the saved pc, the cause with the microprogram's position where there is one, the
information; supervisor level at `tvec`. -/
def State.inHandler (s : State) (code : Nat) (info at_ : Word) : State := s.onCx fun c =>
  { c with
    c := { c.c with
      tpc := at_
      tinfo := info
      cause := match c.micro with
        | none => BitVec.ofNat 64 code
        | some m => BitVec.ofNat 64 (2 ^ 21 + m.upc % 32 * 2 ^ 16 + m.slot % 64 * 2 ^ 8 + code) }
    sup := true
    pc := c.c.tvec
    wait := none
    kept := c.micro
    micro := none }

/-- `tinfo` of `PRIV` and `UNITABSENT`: the page and the base halfword (R323). -/
def opWord (page : Nat) (i : Instr) : Word := BitVec.ofNat 64 (page * 65536 + (encode i).getLastD 0)

/-! ## Shapes of the scalar instructions (R119, R128) -/

/-- Destination and sources of the register-only scalar instructions; `bins` reads its destination too. -/
def scalarShape : Instr → Option (Nat × List Src)
  | .add d a b | .sub d a b | .and d a b | .or d a b | .xor d a b | .slt d a b | .sltu d a b | .seq d a b
  | .mul d a b | .mulh d a b | .mulhu d a b | .div d a b | .divu d a b | .rem d a b | .remu d a b | .sll d a b
  | .srl d a b | .sra d a b | .min d a b | .max d a b | .minu d a b | .maxu d a b | .lea _ d a b => some (d, [a, b])
  | .addi d a _ | .slli d a _ | .srli d a _ | .srai d a _ | .mov d a | .clz d a | .ctz d a | .popc d a
  | .bext d a _ _ | .sext _ d a | .zext _ d a | .andi d a _ | .ori d a _ | .xori d a _ => some (d, [a])
  | .fshr d a b c | .sel d a b c => some (d, [a, b, c])
  | .bins d a _ _ => some (d, [a, ⟨d, false⟩])
  | .li d _ => some (d, [])
  | _ => none

/-! ## The invariant -/

/-- Memory keeps its canonical form. -/
def State.MemWf (s : State) : Prop := s.mem.wf = true

end Sys2Proof.Machine
end

