-- ==== Sys2Proof/Certificates/Slice0/Obligations.lean ====
section
/-! DEFINITION. The statements for the provers, in the spec's order. Where a conclusion is an equation for the next state,
it says what changes and, everything else being copied from the state before, what does not. -/
open Sys2Proof Sys2Proof.Machine

/-! ## Scalar instructions -/

/-- R120, R121: the instructions of page 0 on operands that read, register and immediate forms; the conclusion is the whole next
state. A shift uses bits [5:0] of its immediate. -/
def Obligations.PageZeroResults : Prop :=
  (∀ (s u : State) (d : Nat) (a b : Src) (x y : Word),
     (s.operands [a, b] = some ([x, y], u) → u.roomS d = true →
       exec (.add d a b) s = .next (u.gotS d (x + y)).gone ∧
       exec (.sub d a b) s = .next (u.gotS d (x - y)).gone ∧
       exec (.and d a b) s = .next (u.gotS d (x &&& y)).gone ∧
       exec (.or d a b) s = .next (u.gotS d (x ||| y)).gone ∧
       exec (.xor d a b) s = .next (u.gotS d (x ^^^ y)).gone ∧
       exec (.slt d a b) s = .next (u.gotS d (if x.toInt < y.toInt then 1 else 0)).gone ∧
       exec (.sltu d a b) s = .next (u.gotS d (if x.toNat < y.toNat then 1 else 0)).gone ∧
       exec (.seq d a b) s = .next (u.gotS d (if x = y then 1 else 0)).gone) ∧
     (s.operands [a] = some ([x], u) → u.roomS d = true → exec (.mov d a) s = .next (u.gotS d x).gone)) ∧
  (∀ (s u : State) (d n : Nat) (a : Src) (x : Word) (imm : Int),
     (s.operands [a] = some ([x], u) → u.roomS d = true →
       exec (.addi d a imm) s = .next (u.gotS d (x + BitVec.ofInt 64 imm)).gone ∧
       exec (.slli d a n) s = .next (u.gotS d (x <<< (n % 64))).gone ∧
       exec (.srli d a n) s = .next (u.gotS d (x >>> (n % 64))).gone ∧
       ∃ r : Word, exec (.srai d a n) s = .next (u.gotS d r).gone ∧
         ∀ j, j < 64 → r.getLsbD j = x.getLsbD (min 63 (j + n % 64))) ∧
     (s.roomS d = true → exec (.li d imm) s = .next (s.gotS d (BitVec.ofInt 64 imm)).gone))

/-- R129: multiplication, division and the register shifts, on every pair of operands. -/
def Obligations.MultiplyDivideShiftResults : Prop :=
  ∀ (s u : State) (d : Nat) (a b : Src) (x y : Word),
    s.operands [a, b] = some ([x, y], u) → u.roomS d = true →
      exec (.mul d a b) s = .next (u.gotS d (x * y)).gone ∧
      exec (.mulh d a b) s = .next (u.gotS d ((x.signExtend 128 * y.signExtend 128).extractLsb' 64 64)).gone ∧
      exec (.mulhu d a b) s = .next (u.gotS d ((x.zeroExtend 128 * y.zeroExtend 128).extractLsb' 64 64)).gone ∧
      exec (.div d a b) s = .next (u.gotS d (if y = 0 then BitVec.allOnes 64 else x.sdiv y)).gone ∧
      exec (.rem d a b) s = .next (u.gotS d (if y = 0 then x else x.srem y)).gone ∧
      exec (.divu d a b) s = .next (u.gotS d (if y = 0 then BitVec.allOnes 64 else x / y)).gone ∧
      exec (.remu d a b) s = .next (u.gotS d (if y = 0 then x else x % y)).gone ∧
      exec (.sll d a b) s = .next (u.gotS d (x <<< (y &&& 63#64))).gone ∧
      exec (.srl d a b) s = .next (u.gotS d (x >>> (y &&& 63#64))).gone ∧
      exec (.sra d a b) s = .next (u.gotS d (x.sshiftRight' (y &&& 63#64))).gone

/-- R130: the bit instructions; each result is said bit by bit. `bins` reads and writes its destination. -/
def Obligations.BitInstructionResults : Prop :=
  ∀ (s u : State) (d pos len : Nat) (a : Src) (x o : Word), u.roomS d = true →
    (s.operands [a] = some ([x], u) →
      (∃ r, exec (.clz d a) s = .next (u.gotS d (BitVec.ofNat 64 r)).gone ∧ r ≤ 64 ∧
        (∀ j, j < r → x.getLsbD (63 - j) = false) ∧ (r < 64 → x.getLsbD (63 - r) = true)) ∧
      (∃ r, exec (.ctz d a) s = .next (u.gotS d (BitVec.ofNat 64 r)).gone ∧ r ≤ 64 ∧
        (∀ j, j < r → x.getLsbD j = false) ∧ (r < 64 → x.getLsbD r = true)) ∧
      (exec (.popc d a) s =
        .next (u.gotS d (BitVec.ofNat 64 ((List.range 64).filter fun j => x.getLsbD j).length)).gone) ∧
      (∃ r : Word, exec (.bext d a pos len) s = .next (u.gotS d r).gone ∧
        ∀ j, j < 64 → r.getLsbD j = (decide (j < len) && x.getLsbD (pos + j)))) ∧
    (s.operands [a, ⟨d, false⟩] = some ([x, o], u) →
      ∃ r : Word, exec (.bins d a pos len) s = .next (u.gotS d r).gone ∧
        ∀ j, j < 64 → r.getLsbD j = if pos ≤ j ∧ j < pos + len then x.getLsbD (j - pos) else o.getLsbD j)

/-- R131: the selecting, extending and combining instructions. A source that is missing reads as `s0`, so `sel` and `fshr`
without C return `s[b]`. -/
def Obligations.SelectExtendResults : Prop :=
  ∀ (s u : State) (d w sh n : Nat) (a b c : Src) (x y z : Word) (imm : Int), u.roomS d = true →
    (s.operands [a, b] = some ([x, y], u) →
      exec (.min d a b) s = .next (u.gotS d (if x.toInt < y.toInt then x else y)).gone ∧
      exec (.max d a b) s = .next (u.gotS d (if x.toInt > y.toInt then x else y)).gone ∧
      exec (.minu d a b) s = .next (u.gotS d (if x.toNat < y.toNat then x else y)).gone ∧
      exec (.maxu d a b) s = .next (u.gotS d (if x.toNat > y.toNat then x else y)).gone ∧
      exec (.lea sh d a b) s = .next (u.gotS d (x + y * BitVec.ofNat 64 (2 ^ sh))).gone) ∧
    (s.operands [a, b, c] = some ([x, y, z], u) →
      exec (.sel d a b c) s = .next (u.gotS d (if z = 0 then y else x)).gone ∧
      exec (.fshr d a b c) s = .next (u.gotS d (((x ++ y) >>> (z &&& 63#64)).setWidth 64)).gone ∧
      (c.n = 0 → exec (.sel d a b c) s = .next (u.gotS d y).gone ∧ exec (.fshr d a b c) s = .next (u.gotS d y).gone)) ∧
    (s.operands [a] = some ([x], u) →
      (0 < w → w ≤ 64 →
        exec (.sext w d a) s = .next (u.gotS d ((x <<< (64 - w)).sshiftRight (64 - w))).gone ∧
        exec (.zext w d a) s = .next (u.gotS d ((x <<< (64 - w)) >>> (64 - w))).gone) ∧
      exec (.andi d a imm) s = .next (u.gotS d (x &&& BitVec.ofInt 64 imm)).gone ∧
      exec (.ori d a n) s = .next (u.gotS d (x ||| BitVec.ofNat 64 n)).gone ∧
      exec (.xori d a n) s = .next (u.gotS d (x ^^^ BitVec.ofNat 64 n)).gone)

/-- R53: the frame of every register-only scalar instruction: it changes no vector, mask or branch-target register, no control
register, no memory byte and nothing outside the context, and among the scalar registers only its destination and the sources it
frees. A source marked last-use is unmapped by the read, unless it is the destination too, which then holds the result; `s0` is
never freed and a write to it is discarded. -/
def Obligations.ScalarFrame : Prop :=
  (∀ (s u : State) (i : Instr) (d : Nat) (srcs : List Src) (xs : List Word),
     scalarShape i = some (d, srcs) → s.operands srcs = some (xs, u) → u.roomS d = true →
     ∃ t, exec i s = .next t ∧
       t = { s with cx := t.cx, free := t.free } ∧
       t.cx = { s.cx with r := t.cx.r, pc := t.cx.pc, micro := t.cx.micro } ∧
       t.cx.r.v = s.cx.r.v ∧ t.cx.r.k = s.cx.r.k ∧ t.cx.r.b = s.cx.r.b ∧
       (∀ n, n ≠ d → (∀ a ∈ srcs, a.last = true → a.n ≠ n) → t.cx.r.s.get? n = s.cx.r.s.get? n) ∧
       (∀ a, t.mem.read a = s.mem.read a)) ∧
  (∀ (s u : State) (d : Nat) (a b : Src) (x y : Word),
     s.operands [a, b] = some ([x, y], u) → u.roomS d = true →
     ∃ t, exec (.add d a b) s = .next t ∧
       (∀ c ∈ [a, b], c.last = true → c.n ≠ 0 → c.n ≠ d → t.cx.r.s.get? c.n = none) ∧
       (d ≠ 0 → t.cx.r.s.get? d = some (x + y)) ∧
       (d = 0 → ∀ n, (∀ c ∈ [a, b], c.last = true → c.n ≠ n) → t.cx.r.s.get? n = s.cx.r.s.get? n))

/-- R54, R55, R56: how a scalar operand stops an instruction. At the declared count a new name traps with `ILLOP`; an unmapped
source traps with `FREEDREG` under `mode.UDREAD`; a pending one makes the context wait; one whose entry was killed traps with
`POISON` and the kill is delivered. Said of `mov`, whose one source and destination are any registers. Rests in part on the model's own choices:
notes/assumptions/12.md. -/
def Obligations.ScalarOperandStops : Prop :=
  ∀ (s u : State) (d : Nat) (a : Src) (x : Word),
    (s.operands [a] = some ([x], u) → u.roomS d = false →
      exec (.mov d a) s = .next (takeTrap s cILLOP 1)) ∧
    (a.n ≠ 0 → s.cx.r.sPoison.get? a.n = none → (s.cx.r.sPend.has a.n = true ∨ s.cx.r.sFly.has a.n = true) →
      exec (.mov d a) s = .next (s.waits (.reg 0 a.n))) ∧
    (a.n ≠ 0 → s.cx.r.sPoison.get? a.n = none → s.cx.r.sPend.has a.n = false → s.cx.r.sFly.has a.n = false →
      s.cx.r.s.get? a.n = none → s.cx.c.mode.getLsbD 0 = true →
      exec (.mov d a) s = .next (takeTrap s cFREEDREG (BitVec.ofNat 64 a.n))) ∧
    (∀ idx, a.n ≠ 0 → s.cx.r.sPoison.get? a.n = some idx →
      exec (.mov d a) s = .next (takeTrap (s.onCx fun c => { c with st := { c.st with killed := c.st.killed.erase idx } })
        cPOISON (BitVec.ofNat 64 (2 ^ 60 + idx % 65536))))

/-! ## Control -/

/-- R125, R133, R134, R135: the branches, the calls and the return, outside a microprogram. A PC-relative target is
`pc + 2 × imm`; a register target drops bit 0; the link is `s63`. -/
def Obligations.BranchesAndCalls : Prop :=
  ∀ (s u : State) (d n : Nat) (a b : Src) (x y : Word) (imm : Int),
    (s.cx.micro = none →
      exec (.br imm) s = .next (s.wentTo (s.near imm)) ∧
      exec (.pbr d imm) s = .next (s.gotB d (s.near imm)).gone ∧
      (s.operands [a] = some ([x], u) →
        exec (.brnz a imm) s = .next (if x = 0 then u.gone else u.wentTo (s.near imm)) ∧
        exec (.brz a imm) s = .next (if x = 0 then u.wentTo (s.near imm) else u.gone))) ∧
    (s.plain = true →
      (s.roomS 63 = true →
        exec (.call imm) s = .next ((s.gotS 63 s.cx.npc).wentTo (s.near imm)) ∧
        exec (.callB n) s = .next ((s.gotS 63 s.cx.npc).wentTo (s.cx.r.b.getD n 0))) ∧
      (s.readsS 63 = some (x, u) → exec .ret s = .next (u.wentTo x)) ∧
      (s.operands [a] = some ([x], u) → exec (.pbrr d a) s = .next (u.gotB d (x &&& ~~~1#64)).gone) ∧
      (s.operands [a, b] = some ([x, y], u) →
        let go (c : Bool) := if c then u.wentTo (s.cx.r.b.getD d 0) else u.gone
        exec (.breq d a b) s = .next (go (decide (x = y))) ∧
        exec (.brne d a b) s = .next (go (decide (x ≠ y))) ∧
        exec (.brlt d a b) s = .next (go (decide (x.toInt < y.toInt))) ∧
        exec (.brge d a b) s = .next (go (decide (y.toInt ≤ x.toInt))) ∧
        exec (.brltu d a b) s = .next (go (decide (x.toNat < y.toNat))) ∧
        exec (.brgeu d a b) s = .next (go (decide (y.toNat ≤ x.toNat))))) ∧
    (s.notDrain = true → s.roomS d = true → exec (.mfb d n) s = .next (s.gotS d (s.cx.r.b.getD n 0)).gone)

/-- R57, R58, R59, R60, R62, R64, R65, R66, R67, R137: `mfc` reads every control register by its index, `tvec` and `rrbase` at
supervisor level only; an index of 18 or above is an `ILLOP`; `rdtime` and `rdcyc` read the time base and the core's cycle
counter. `mtc` writes, at a level that may write it, where no reserved bit is set and the register's description takes the
value; `srseed` stores 1 for 0. A change of `brole` waits until no class has an operation outstanding. Rests in part on the model's own choices: notes/assumptions/17.md. -/
def Obligations.ControlRegisters : Prop :=
  (∀ (s : State) (d ctl : Nat), s.notDrain = true →
     (ctl < 18 → (ctl = 8 ∨ ctl = 16 → s.cx.sup = true) → (ctl = 12 → s.seedFree = true) → s.roomS d = true →
       exec (.mfc d ctl) s = .next (s.gotS d (s.control.getD ctl 0)).gone) ∧
     (ctl = 8 ∨ ctl = 16 → s.cx.sup = false → exec (.mfc d ctl) s = .next (takeTrap s cPRIV (opWord 2 (.mfc d ctl)))) ∧
     (18 ≤ ctl → exec (.mfc d ctl) s = .next (takeTrap s cILLOP (BitVec.ofNat 64 (0x10 * 2 ^ 56 + 2 * 256 + ctl % 64)))) ∧
     (s.roomS d = true → exec (.rdtime d) s = .next ({ s.gotS d (BitVec.ofNat 64 s.time) with timeRead := true } : State).gone ∧
       exec (.rdcyc d) s = .next (s.gotS d (BitVec.ofNat 64 (s.core s.cx.id.core).cyc)).gone)) ∧
  (∀ (s u : State) (a : Src) (v : Word), s.notDrain = true → s.operands [a] = some ([v], u) →
     (v < 16 → v.toNat / 4 ≠ 3 → exec (.mtc 3 a) s = .next (u.onCtl fun c => { c with mode := v }).gone) ∧
     (v < 512 → exec (.mtc 4 a) s = .next (u.onCtl fun c => { c with fflags := v }).gone) ∧
     (s.cx.sup = true →
       (v &&& ~~~0x3F3FFF#64 = 0 → exec (.mtc 5 a) s = .next (u.onCtl fun c => { c with cause := v }).gone) ∧
       (v &&& ~~~0x1FFFFFFFFFFFFFE#64 = 0 →
         exec (.mtc 6 a) s = .next (u.onCtl fun c => { c with tpc := v }).gone ∧
         exec (.mtc 8 a) s = .next (u.onCtl fun c => { c with tvec := v }).gone) ∧
       exec (.mtc 7 a) s = .next (u.onCtl fun c => { c with tinfo := v }).gone ∧
       (v.toNat < 2 ^ 32 → exec (.mtc 9 a) s = .next (u.onCtl fun c => { c with budget := v }).gone) ∧
       exec (.mtc 10 a) s = .next (u.onCtl fun c => { c with deadline := v }).gone ∧
       (v &&& ~~~0x1FFFFFFFFFFF01F#64 = 0 → 6 ≤ v.toNat % 32 → v.toNat % 32 ≤ 16 →
         (∀ e ∈ s.bads, e.2.part = s.cx.id.part → e.2.posted = none) →
         exec (.mtc 16 a) s = .next (u.modPart s.cx.id.part fun p => { p with rrbase := v }).gone)) ∧
     (s.seedFree = true →
       exec (.mtc 12 a) s = .next (u.onCtl fun c => { c with srseed := if v = 0 then 1 else v }).gone) ∧
     (0 < v.toNat → v.toNat ≤ 4096 → exec (.mtc 17 a) s = .next (u.onCtl fun c => { c with hold := v }).gone) ∧
     (∀ w, w = v &&& BitVec.ofNat 64 (4 ^ s.cx.decl.banks.length - 1) →
       (w = s.cx.c.brole → exec (.mtc 11 a) s = .next u.gone) ∧
       (w ≠ s.cx.c.brole → s.cx.cnt = ⟨0, 0, 0, 0, 0⟩ →
         ∃ t, exec (.mtc 11 a) s = .next t ∧ t.cx.c = { s.cx.c with brole := w } ∧ t.cx.r = u.cx.r) ∧
       (w ≠ s.cx.c.brole → s.cx.cnt ≠ ⟨0, 0, 0, 0, 0⟩ →
         exec (.mtc 11 a) s = .next (s.waits (.classes 0 0 0 0 0)))))

/-- R57, R58, R60, R62, R63, R67: what `mtc` refuses: an index of 18 or above, a register read-only at every level, one only a supervisor
writes, a reserved bit, a value the register's description refuses. The trap's reason stands in `tinfo` at user level, and no
register is written with the refused value. A reserved bit is reported before a refused value. Rests in part on the model's own
choices: notes/assumptions/17.md. -/
def Obligations.ControlRegisterWriteTraps : Prop :=
  ∀ (s t : State) (a : Src) (v : Word) (ctl : Nat), s.notDrain = true →
    let bad (reason : Nat) : Word := BitVec.ofNat 64 (0x10 * 2 ^ 56 + reason * 256 + ctl % 64)
    let refused (reason : Nat) : Prop := exec (.mtc ctl a) s = .next (takeTrap s cILLOP (bad reason)) ∧
      (s.cx.sup = false → exec (.mtc ctl a) s = .next (s.inHandler 0x01 (bad reason) s.cx.pc))
    (18 ≤ ctl → refused 2) ∧
    (ctl ∈ [0, 1, 2, 13, 14, 15] → refused 1) ∧
    (ctl ∈ [5, 6, 7, 8, 9, 10, 16] → s.cx.sup = false →
      exec (.mtc ctl a) s = .next (s.inHandler 0x04 (opWord 2 (.mtc ctl a)) s.cx.pc)) ∧
    (s.readsS a.n = some (v, t) →
      (ctl = 3 → 16 ≤ v.toNat → refused 3) ∧
      (ctl = 3 → 12 ≤ v.toNat → v.toNat < 16 → refused 4) ∧
      (ctl = 4 → 512 ≤ v.toNat → refused 3) ∧
      (ctl = 17 → 8192 ≤ v.toNat → refused 3) ∧
      (ctl = 17 → v = 0 ∨ 4096 < v.toNat ∧ v.toNat < 8192 → refused 4) ∧
      (s.cx.sup = true →
        (ctl = 5 → v &&& ~~~0x3F3FFF#64 ≠ 0 → refused 3) ∧
        (ctl = 6 ∨ ctl = 8 → v &&& ~~~0x1FFFFFFFFFFFFFE#64 ≠ 0 → refused 3) ∧
        (ctl = 9 → 2 ^ 32 ≤ v.toNat → refused 3) ∧
        (ctl = 16 → v &&& ~~~0x1FFFFFFFFFFF01F#64 ≠ 0 → refused 3) ∧
        (ctl = 16 → v &&& ~~~0x1FFFFFFFFFFF01F#64 = 0 → v.toNat % 32 < 6 ∨ 16 < v.toNat % 32 → refused 4) ∧
        (ctl = 16 → v &&& ~~~0x1FFFFFFFFFFF01F#64 = 0 → 6 ≤ v.toNat % 32 → v.toNat % 32 ≤ 16 →
          (∃ e ∈ s.bads, e.2.part = s.cx.id.part ∧ e.2.posted.isSome = true) → refused 5)))

/-- R140, R143, R144, R146: `mcall` enters a valid slot at its operation 0 with the call's parameters, remembers where to go on, and costs one cycle more;
an invalid slot traps; `mcinv` clears the valid bit of a slot that no context is inside, its kernel's hold kept, and `mcw` fills
it and ends the hold; the context no longer waits for it. Rests in part on the model's own choices:
notes/assumptions/18.md. -/
def Obligations.Microprograms : Prop :=
  ∀ (s u v w : State) (n p0 p1 p2 p3 h : Nat) (a : Src) (x : Word) (recs : List (List Nat)), s.plain = true →
    let sl := (s.core s.cx.id.core).slot n
    let put (t : State) (y : Slot) := t.modCore t.cx.id.core fun c => { c with store := c.store.set n y }
    (sl.waiters = [] → sl.valid = true →
      exec (.mcall n p0 p1 p2 p3) s =
        .next ((s.onCx fun c => { c with micro := some ⟨n, 0, p0, p1, p2, p3, c.pc, c.npc⟩ }).modCore s.cx.id.core
          fun k => { k with owed := k.owed + 1 })) ∧
    (sl.waiters = [] → sl.valid = false →
      exec (.mcall n p0 p1 p2 p3) s = .next (takeTrap s cILLOP (BitVec.ofNat 64 (2 * 2 ^ 56 + n)))) ∧
    (s.cx.sup = true → (∀ c ∈ s.ctxs, c.id.core = s.cx.id.core → ∀ m, c.micro = some m ∨ c.kept = some m → m.slot ≠ n) →
      exec (.mcinv n) s = .next (put s ⟨false, [], sl.holder, sl.waiters.erase s.cx.cid⟩).gone ∧
      (s.readsS a.n = some (x, u) → u.ordered = true → x.toNat % 8 = 0 →
        loadImage x.toNat 8 u = .ok (h, v) → 0 < h → h ≤ 32 → loadRecs (x.toNat + 8) h v = .ok (recs, w) →
        (∀ r ∈ recs, 1 ≤ r.getD 0 0 ∧ r.getD 0 0 ≤ 5 ∧ r.getD 1 0 < 2 ^ 15) →
        exec (.mcw n a) s = .next (put (w.freedS [a]) ⟨true, recs, none, sl.waiters.erase s.cx.cid⟩).gone))

/-- R144: what may not stand inside a microprogram traps with `ILLOP`, SUB 3, and changes nothing else. Rests in part on the model's own choices:
notes/assumptions/17.md. -/
def Obligations.ControlFlowInsideMicroprogram : Prop :=
  ∀ (s : State) (m : Micro) (d n p0 p1 p2 p3 : Nat) (op : VoteOp) (a b : Src) (imm : Int), s.cx.micro = some m →
    ∀ i ∈ [Instr.br imm, .pbr d imm, .brnz a imm, .brz a imm, .call imm, .callB n, .ret, .breq d a b, .brne d a b,
        .brlt d a b, .brge d a b, .brltu d a b, .brgeu d a b, .pbrr d a, .tret, .trap n, .mcall n p0 p1 p2 p3, .mcw n a,
        .mcinv n, .yield, .halt, .haltKill, .retire n, .sync op d a],
      exec i s = .next (takeTrap s cILLOP (BitVec.ofNat 64 (3 * 2 ^ 56)))

/-! ## Traps -/

/-- R62, R138, R321, R322, R339: at user level `ebrk` and `trap` enter the handler, `ebrk` saving its own address and `trap` that of the
next instruction; a reserved cell of the opcode map is an `ILLOP`; nothing else changes. A synchronous trap at supervisor level
enters no handler: it begins the halt-tree stop of the partition with reason 3 and records the second cause, in every way a
meaning traps. -/
def Obligations.TrapEntry : Prop :=
  (∀ (s : State) (code page half : Nat), s.cx.sup = false → s.notDrain = true →
     exec (.ebrk code) s = .next (s.inHandler 0x14 (BitVec.ofNat 64 code) s.cx.pc) ∧
     (s.plain = true → exec (.trap code) s = .next (s.inHandler 0x07 (BitVec.ofNat 64 code) s.cx.npc)) ∧
     exec (.reservedOpcode page half) s = .next (s.inHandler 0x01
       (BitVec.ofNat 64 (2 ^ 56 + (if page < 10 then 2 ^ 20 else 0) + page * 2 ^ 16 + half)) s.cx.pc)) ∧
  (∀ (s : State) (code : Nat) (info at_ : Word), s.cx.sup = true → s.notDrain = true →
     takeTrapAt s code info at_ =
       s.modPart s.cx.id.part (fun p => { p with pstate := 4, stopReq := some (3, code, s.cx.id.core) }) ∧
     ∀ n, exec (.ebrk n) s =
       .next (s.modPart s.cx.id.part fun p => { p with pstate := 4, stopReq := some (3, 0x14, s.cx.id.core) }))

/-- R339: `tret` returns to user level at `tpc`, or inside the microprogram at the operation that `cause` names (R145). -/
def Obligations.TrapReturn : Prop :=
  ∀ (s : State), s.cx.sup = true → s.plain = true →
    ∃ t, exec .tret s = .next t ∧ t = { s with cx := t.cx } ∧ t.cx.sup = false ∧ t.cx.pc = s.cx.c.tpc &&& ~~~1#64 ∧
      t.cx = { s.cx with sup := t.cx.sup, pc := t.cx.pc, micro := t.cx.micro, kept := none } ∧
      (s.cx.c.cause.getLsbD 21 = false → t.cx.micro = none) ∧
      (∀ m, s.cx.c.cause.getLsbD 21 = true → s.cx.kept = some m →
        t.cx.micro = some { m with upc := (s.cx.c.cause >>> 16).toNat % 32, slot := (s.cx.c.cause >>> 8).toNat % 64 })

/-- R26, R57, R61, R132, R327, R335, R366: the privileged instructions at user level trap with `PRIV`, page-6 and page-9
instructions on a memory core with `UNITABSENT`; neither has any effect. Rests in part on the model's own choices: notes/assumptions/15.md,
17.md. -/
def Obligations.PrivilegeAndAbsentUnits : Prop :=
  (∀ (s : State) (d n : Nat) (a b : Src), s.cx.sup = false → s.plain = true →
     ∀ e ∈ [(2, Instr.tret), (2, .mcw n a), (2, .mcinv n), (2, .rpwS d a b), (2, .rpwV d a b), (2, .rpwDone d a),
         (2, .rpwKill d a), (0, .haltKill), (8, .tlbinvPage a), (8, .tlbinvAll)],
       exec e.2 s = .next (takeTrap s cPRIV (opWord e.1 e.2))) ∧
  (∀ (s : State) (d n h q : Nat) (keep drop : Bool) (fmt : MFmt) (mop : MxStat) (dir : SeekDir) (a b : Src) (c : Option Src),
     onDeck s.cx.id.core = false → s.notDrain = true →
     ∀ e ∈ [(6, Instr.mxbind d a b c), (6, .mxunbind d), (6, .mx d n), (6, .mxg d a), (6, .mxzero d), (6, .mxld d a),
         (6, .mxst d a), (6, .mxdrain keep d), (6, .drrow d), (6, .drput a), (6, .drdone drop), (6, .plane fmt b a),
         (6, .unplane fmt b a), (6, .mxstat mop d n), (9, .hseek dir h a), (9, .hrd d h), (9, .hwr h a), (9, .hrew h),
         (9, .hpos d h), (9, .hstride h a), (9, .htake h), (9, .hgive h), (9, .hrealign h), (9, .hmark h),
         (9, .hburst h q b), (9, .hfill h q b)],
       exec e.2 s = .next (takeTrap s cUNITABSENT (opWord e.1 e.2)))

/-! ## Memory -/

/-- R229, R230, R231, R233, R244: where an address of a context leads: to the byte of its declared bank in a scratchpad or
operand buffer role, or to a fault; looking an address up changes no context and, where no block changes its form and none
becomes undefined (R355), no byte of memory; and what a read of a place answers: the bytes of memory, the lowest address in the low
byte, where the context's cache holds no word that a host write left old. Rests in part on the model's own choices: notes/assumptions/7.md,
16.md. -/
def Obligations.AddressesAndReads : Prop :=
  (∀ (s : State) (k : Acc) (va b : Nat), k ≠ .const → k ≠ .fetch → s.cx.id.core < 4096 → b < 32 →
     (va < 2 ^ 19 → s.cx.decl.banks[va / 16384]? = some b →
       (s.cx.c.brole.toNat / 4 ^ (va / 16384) % 2 = 0 → s.ecc = [] →
         locate k va s = .ok (.ok (bankKey s.cx.id.core b (va % 16384)), s)) ∧
       (s.cx.c.brole.toNat / 4 ^ (va / 16384) % 2 = 1 → locate k va s = .ok (.error 2, s))) ∧
     (va < 2 ^ 19 → s.cx.decl.banks.length ≤ va / 16384 → locate k va s = .ok (.error 2, s)) ∧
     (2 ^ 57 ≤ va → locate k va s = .ok (.error 3, s))) ∧
  (∀ (s t : State) (k : Acc) (va : Nat) (r : Except Nat Nat), locate k va s = .ok (r, t) →
     t.cx = s.cx ∧ t.others = s.others ∧ t.bads = s.bads ∧ (t.expanded = s.expanded → t.free = s.free → t.mem = s.mem)) ∧
  (∀ (s t : State) (key n val : Nat), readPlace key n s = .ok (val, t) →
     t.mem = s.mem ∧ t.cx.r = s.cx.r ∧ t.cx.c = s.cx.c ∧
     (s.cx.ways = 0 ∨ isDram key = false ∨ (∀ l ∈ s.cx.l1.data, l.old = []) →
       val = natOfBytes (s.mem.bytes key n)) ∧
     (s.cx.ways = 0 ∨ isDram key = false → t = s))

/-- R122, R202: the scalar loads. An aligned element whose address leads to a place is read there, extended by its type
(signed types by sign, others by zero), written to the destination, and counted in the load class. Rests in part on the model's own choices:
notes/assumptions/7.md. -/
def Obligations.ScalarLoads : Prop :=
  ∀ (s u v w : State) (ty : ETy) (d key val : Nat) (a : Src) (x : Word) (imm : Int),
    s.operands [a] = some ([x], u) → s.ordered = true → s.room 0 = true →
    let ea := x + BitVec.ofInt 64 imm
    let ext : Word := if ty ∈ [ETy.i64, .i32, .i16, .i8] then BitVec.signExtend 64 (BitVec.ofNat (tyWidth ty) val)
      else BitVec.ofNat 64 val
    w.roomS d = true →
    (ea.toNat % 8 = 0 → locate .load ea.toNat u = .ok (.ok key, v) → readPlace key 8 v = .ok (val, w) →
      exec (.ld d a imm) s = .next ((w.gotS d (BitVec.ofNat 64 val)).counted 0).gone) ∧
    (8 ≤ tyWidth ty → ea.toNat % (tyWidth ty / 8) = 0 → val < 2 ^ tyWidth ty →
      (locate .load ea.toNat u = .ok (.ok key, v) → readPlace key (tyWidth ty / 8) v = .ok (val, w) →
        exec (.ldx ty d a imm) s = .next ((w.gotS d ext).counted 0).gone) ∧
      (locate .const ea.toNat u = .ok (.ok key, v) → readConst key (tyWidth ty / 8) v = .ok (val, w) →
        exec (.ldc ty d a imm) s = .next ((w.gotS d ext).counted 0).gone))

/-- R122, R202: the scalar stores, and their frame. The element's bytes stand at the place its address leads to, the lowest
address holding the low byte; every other byte of memory reads as it did once the address was looked up, but that a word which a
host write has left old in the cache goes home whole, with its cached bytes; no register changes but by last-use frees; the
store class counts one. Rests in part on the model's own choices: notes/assumptions/7.md. -/
def Obligations.ScalarStores : Prop :=
  ∀ (s u v : State) (ty : ETy) (key : Nat) (d a : Src) (x y : Word) (imm : Int),
    s.operands [a, d] = some ([x, y], u) → s.ordered = true → s.room 1 = true → v.MemWf →
    ∀ n i, (n = 8 ∧ i = Instr.st d a imm ∨ 8 ≤ tyWidth ty ∧ n = tyWidth ty / 8 ∧ i = .stx ty d a imm) →
      (x + BitVec.ofInt 64 imm).toNat % n = 0 →
      locate .store (x + BitVec.ofInt 64 imm).toNat u = .ok (.ok key, v) →
      ∃ t, exec i s = .next t ∧
        (∀ j, j < n → t.mem.read (key + j) = (y >>> (8 * j)).setWidth 8) ∧
        (∀ p, beyond p (v.storeSpan key n) → t.mem.read p = v.mem.read p) ∧
        (v.expanded = s.expanded → v.free = u.free → ∀ p, beyond p (v.storeSpan key n) → t.mem.read p = s.mem.read p) ∧
        (∀ z, v.cx.oldWord key n = some z → ∀ j, j < 8 → beyond (key / 8 * 8 + j) (key, n) →
          t.mem.read (key / 8 * 8 + j) = (z >>> (8 * j)).setWidth 8) ∧
        t.cx.r = u.cx.r ∧ t.cx.c = s.cx.c ∧ t.cx.cnt = s.cx.cnt.add 1 1

/-- R56, R113, R122, R156, R202, R203, R204, R205, R207, R324, R326: a misaligned access traps with `ALIGN` and its address, a gather or
scatter with that of its lowest active lane, and changes nothing. A load whose place faults does not trap: the fault is recorded,
the destination is left pending on it, the load class counts it, and execution goes on; a store's fault is recorded with its
data, in the store class. A fault that the address alone decides, in a partition without a ring, traps with `RRFULL`
at once. Rests in part on the model's own choices: notes/assumptions/16.md. -/
def Obligations.MisalignedAndFaulted : Prop :=
  (∀ (s t u v w : State) (ty : ETy) (q : MQ) (d k : Nat) (zero : Bool) (a b c : Src) (x y z : Word) (i o : VReg) (m : KReg) (imm : Int)
     (op : AmoOp) (sc : Scope) (wd : Bool),
     (s.operands [a] = some ([x], u) →
       let ea := x + BitVec.ofInt 64 imm
       let va := x + BitVec.ofInt 64 (64 * imm)
       (ea.toNat % 8 ≠ 0 → exec (.ld d a imm) s = .next (takeTrap s cALIGN ea)) ∧
       (ea.toNat % (tyWidth ty / 8) ≠ 0 → exec (.ldx ty d a imm) s = .next (takeTrap s cALIGN ea) ∧
         exec (.ldc ty d a imm) s = .next (takeTrap s cALIGN ea)) ∧
       (va.toNat % 128 ≠ 0 → exec (.vld q d a imm) s = .next (takeTrap s cALIGN va) ∧
         exec (.vldc q d a imm) s = .next (takeTrap s cALIGN va))) ∧
     (s.operands [a, b] = some ([x, y], u) →
       let ea := x + BitVec.ofInt 64 imm
       (ea.toNat % 8 ≠ 0 → exec (.st b a imm) s = .next (takeTrap s cALIGN ea)) ∧
       (ea.toNat % (tyWidth ty / 8) ≠ 0 → exec (.stx ty b a imm) s = .next (takeTrap s cALIGN ea)) ∧
       (s.notDrain = true → x.toNat % (if wd then 4 else 8) ≠ 0 →
         exec (.amo op wd sc d a b) s = .next (takeTrap s cALIGN x))) ∧
     (s.operands [a, b, c] = some ([x, y, z], u) → s.notDrain = true → x.toNat % (if wd then 4 else 8) ≠ 0 →
       exec (.cas wd sc d a b c) s = .next (takeTrap s cALIGN x)) ∧
     (s.readsS a.n = some (x, t) → t.readsV b.n = some (i, u) →
       let va := x + BitVec.ofInt 64 (64 * imm)
       let n := tyWidth ty / 8
       let at_ (l : Nat) : Word := x + BitVec.ofInt 64 ((BitVec.ofNat 32 (elem 32 i l)).toInt * n)
       let lowest (l : Nat) : Prop := l < 32 ∧ m.getLsbD (4 * l) = true ∧ (at_ l).toNat % n ≠ 0 ∧
         ∀ j, j < l → m.getLsbD (4 * j) = true → (at_ j).toNat % n = 0
       (u.readsK k = some (m, v) → va.toNat % 128 ≠ 0 → exec (.vst ty k b a imm) s = .next (takeTrap s cALIGN va)) ∧
       (u.readsK k = some (m, v) → v.readsOld k zero d = some (o, w) →
         (s.notDrain = true → x.toNat % 4 ≠ 0 → exec (.aggadd k zero sc d a b) s = .next (takeTrap s cALIGN x)) ∧
         (8 ≤ tyWidth ty → ∀ l, lowest l → exec (.vgath ⟨ty, k, zero⟩ d a b) s = .next (takeTrap s cALIGN (at_ l)))) ∧
       (8 ≤ tyWidth ty → u.readsV c.n = some (o, v) → v.readsK k = some (m, w) →
         ∀ l, lowest l → exec (.vscat ty k a b c) s = .next (takeTrap s cALIGN (at_ l))))) ∧
  (∀ (s u v : State) (d cause : Nat) (a b : Src) (x y : Word) (imm : Int), s.ordered = true →
     let ea := x + BitVec.ofInt 64 imm
     ea.toNat % 8 = 0 →
     (s.operands [a] = some ([x], u) → s.room 0 = true →
       locate .load ea.toNat u = .ok (.error cause, v) → v.roomS d = true → d ≠ 0 →
       (2 ^ 19 ≤ ea.toNat → ea.toNat < 2 ^ 57 → ∃ t e, exec (.ld d a imm) s = .next t ∧
         t.bads.get? v.nextBad = some e ∧ e.addr = ea ∧ e.cause = cause ∧ e.pc = s.cx.pc ∧ e.opk = 0 ∧ e.dreg = d ∧
         e.posted = none ∧ t.cx.r.sPend.get? d = some [v.nextBad] ∧ t.cx.cnt.load = s.cx.cnt.load + 1 ∧
         t.mem = v.mem ∧ t.cx.c = s.cx.c) ∧
       (2 ^ 57 ≤ ea.toNat → (v.part v.cx.id.part).rrbase = 0 →
         ∃ l, exec (.ld d a imm) s = .next (takeTrap { s with nextBad := s.nextBad + 1, bads := l, free := v.free } cRRFULL
             (BitVec.ofNat 64 (2 ^ 62 + ea.toNat % 2 ^ 57))) ∧
           ∀ id, id ≠ s.nextBad → l.get? id = s.bads.get? id)) ∧
     (s.operands [a, b] = some ([x, y], u) → s.room 1 = true → locate .store ea.toNat u = .ok (.error cause, v) →
       2 ^ 19 ≤ ea.toNat → ea.toNat < 2 ^ 57 → ∃ t e, exec (.st b a imm) s = .next t ∧
         t.bads.get? v.nextBad = some e ∧ e.addr = ea ∧ e.cause = cause ∧ e.pc = s.cx.pc ∧ e.opk = 1 ∧ e.dkind = 0 ∧
         e.data = bytesOfNat 8 y.toNat ∧ e.posted = none ∧ t.cx.cnt = s.cx.cnt.add 1 1 ∧ t.mem = v.mem ∧ t.cx.r = u.cx.r))

/-! ## Vector instructions -/

/-- R149, R150, R157 for the integer types: the exact result wraps modulo 2^w, or is clamped under `.sat`; no flag is set; an
inactive element keeps the destination's bits or is zero. `vfma` without C adds to the destination it reads. -/
def Obligations.VectorIntegerArithmetic : Prop :=
  ∀ (s u : State) (q : VQ) (d : Nat) (a b c : Src) (x y z o : VReg) (m : KReg),
    q.ty ∈ [ETy.i8, .n8, .i16, .n16, .i32, .n32, .i64, .n64] → q.rnd = .rne → u.roomV d = true →
    let w := tyWidth q.ty
    let val (v : VReg) (i : Nat) : Int := if tySigned q.ty then (BitVec.ofNat w (elem w v i)).toInt else elem w v i
    let lo : Int := if tySigned q.ty then -(2 ^ (w - 1)) else 0
    let hi : Int := if tySigned q.ty then 2 ^ (w - 1) - 1 else 2 ^ w - 1
    let out (r : Int) : Nat := ((if q.sat then Max.max lo (Min.min hi r) else r) % 2 ^ w).toNat
    let done (i : Instr) (f : Nat → Nat) : Prop :=
      ∃ r, exec i s = .next (u.vectorDone false (1024 / w) 0 d r) ∧ State.lanes w m q.zero o r f
    (s.operandsV [a, b] q.k q.zero d = some (([x, y], m, o), u) →
      done (.vadd q d a b) (fun i => out (val x i + val y i)) ∧
      done (.vsub q d a b) (fun i => out (val x i - val y i)) ∧
      done (.vmul q d a b) (fun i => out (val x i * val y i)) ∧
      done (.vmin ⟨q.ty, q.k, q.zero⟩ d a b) (fun i => if val y i < val x i then elem w y i else elem w x i) ∧
      done (.vmax ⟨q.ty, q.k, q.zero⟩ d a b) (fun i => if val x i < val y i then elem w y i else elem w x i)) ∧
    (s.operandsV [a, b, c] q.k q.zero d = some (([x, y, z], m, o), u) →
      done (.vfma q d a b (some c)) (fun i => out (val x i * val y i + val z i))) ∧
    (s.operandsVD [a, b] q.k d = some (([x, y], m, o), u) →
      done (.vfma q d a b none) (fun i => out (val x i * val y i + val o i))) ∧
    (s.operandsV [a] q.k q.zero d = some (([x], m, o), u) →
      done (.vabs q d a) (fun i => out |val x i|) ∧ done (.vneg q d a) (fun i => out (-val x i)))

/-- R149, R158, R161: the bitwise, shift and count instructions and `vmov`, on the bits of each active element. -/
def Obligations.VectorBitwise : Prop :=
  ∀ (s u : State) (q : MQ) (d : Nat) (a b c : Src) (x y z o : VReg) (m : KReg), u.roomV d = true →
    let w := tyWidth q.ty
    let done (i : Instr) (f : Nat → Nat) : Prop :=
      ∃ r, exec i s = .next (u.vectorDone false (1024 / w) 0 d r) ∧ State.lanes w m q.zero o r f
    (s.operandsV [a] q.k q.zero d = some (([x], m, o), u) →
      done (.vmov q d a) (elem w x) ∧
      done (.vclz q d a) (fun i => w - bitLen (elem w x i)) ∧
      done (.vpopc q d a) (fun i => ((List.range w).filter fun j => (elem w x i).testBit j).length)) ∧
    (s.operandsV [a, b] q.k q.zero d = some (([x, y], m, o), u) →
      done (.vand q d a b) (fun i => elem w x i &&& elem w y i) ∧
      done (.vor q d a b) (fun i => elem w x i ||| elem w y i) ∧
      done (.vxor q d a b) (fun i => elem w x i ^^^ elem w y i) ∧
      done (.vsll q d a b) (fun i => elem w x i <<< (elem w y i % w)) ∧
      done (.vsrl q d a b) (fun i => elem w x i >>> (elem w y i % w)) ∧
      done (.vsra q d a b) (fun i => ((BitVec.ofNat w (elem w x i)).sshiftRight (elem w y i % w)).toNat)) ∧
    (s.operandsV [a, b, c] q.k q.zero d = some (([x, y, z], m, o), u) →
      done (.vfsh q d a b c) (fun i => (elem w x i <<< w ||| elem w y i) >>> (elem w z i % w)))

/-- R149, R150, R157, R164, R165 for the float types: each active element is the exact result rounded once, each is written
with the generator's value of its position, and the flags of the active elements alone are set. `vmin` and `vmax` choose an
operand, −0 below +0, `vabs` and `vneg` set the sign bit, and a NaN makes the four canonical. Rests in part on the model's own choices:
notes/assumptions/8.md, 20.md. -/
def Obligations.VectorFloatArithmetic : Prop :=
  ∀ (s u : State) (q : VQ) (d : Nat) (a b c : Src) (x y z o : VReg) (m : KReg),
    tyFloat q.ty = true → (q.rnd = .rsr → s.seedFree = true) → u.roomV d = true →
    let w := tyWidth q.ty
    let rsr := decide (q.rnd = .rsr)
    let e (v : VReg) (i : Nat) : FV := decElem q.ty (elem w v i)
    let r (i : Nat) : Nat := s.rnds rsr (1024 / w) i
    let done (j : Instr) (f : Nat → Nat × Nat) : Prop :=
      ∃ v fl, exec j s = .next (u.vectorDone rsr (1024 / w) fl d v) ∧ State.lanes w m q.zero o v (fun i => (f i).1) ∧
        ∀ n, fl.testBit n = true ↔ ∃ i, i < 1024 / w ∧ m.getLsbD (w * i / 8) = true ∧ (f i).2.testBit n = true
    (s.operandsV [a, b] q.k q.zero d = some (([x, y], m, o), u) →
      done (.vadd q d a b) (fun i => addFloat q.ty q.rnd q.sat (r i) (e x i) (e y i)) ∧
      done (.vsub q d a b) (fun i => addFloat q.ty q.rnd q.sat (r i) (e x i) (e y i).neg) ∧
      done (.vmul q d a b) (fun i => mulFloat q.ty q.rnd q.sat (r i) (e x i) (e y i)) ∧
      done (.vscale q d a b) (fun i => scaleElem q (elem w x i) (elem w y i) (r i)) ∧
      (q.rnd = .rne →
        let pick (less : Bool) (i : Nat) : Nat × Nat :=
          if (e x i).isNan || (e y i).isNan then (nanOf q.ty, if (e x i).isSig || (e y i).isSig then fNV else 0)
          else (if less then elem w y i else elem w x i, 0)
        done (.vmin ⟨q.ty, q.k, q.zero⟩ d a b) (fun i => pick (ltFV (e y i) (e x i)) i) ∧
        done (.vmax ⟨q.ty, q.k, q.zero⟩ d a b) (fun i => pick (ltFV (e x i) (e y i)) i) ∧
        ∀ f g : Int, ltFV (.fin true 0 f) (.fin false 0 g) = true ∧ ltFV (.fin false 0 f) (.fin true 0 g) = false)) ∧
    (s.operandsV [a, b, c] q.k q.zero d = some (([x, y, z], m, o), u) →
      done (.vfma q d a b (some c)) (fun i => fmaFloat q.ty q.rnd q.sat (r i) (e x i) (e y i) (e z i))) ∧
    (s.operandsVD [a, b] q.k d = some (([x, y], m, o), u) →
      done (.vfma q d a b none) (fun i => fmaFloat q.ty q.rnd q.sat (r i) (e x i) (e y i) (e o i))) ∧
    (s.operandsV [a] q.k q.zero d = some (([x], m, o), u) →
      let signed (i sign : Nat) : Nat × Nat :=
        if (e x i).isNan then (nanOf q.ty, if (e x i).isSig then fNV else 0) else (elem w x i % 2 ^ (w - 1) + sign * 2 ^ (w - 1), 0)
      done (.vabs q d a) (fun i => signed i 0) ∧
      done (.vneg q d a) (fun i => signed i (if (elem w x i).testBit (w - 1) then 0 else 1)) ∧
      done (.vrcp q d a) (fun i => fnFloat .rcp q.ty q.rnd q.sat (r i) (elem w x i)) ∧
      done (.vrsqrt q d a) (fun i => fnFloat .rsqrt q.ty q.rnd q.sat (r i) (elem w x i)) ∧
      done (.vexp2 q d a) (fun i => fnFloat .exp2 q.ty q.rnd q.sat (r i) (elem w x i)) ∧
      done (.vlog2 q d a) (fun i => fnFloat .log2 q.ty q.rnd q.sat (r i) (elem w x i)) ∧
      done (.vtanh q d a) (fun i => fnFloat .tanh q.ty q.rnd q.sat (r i) (elem w x i)) ∧
      done (.vround q d a) (fun i => roundElem q (elem w x i) (r i)) ∧
      (q.rnd = .rne → done (.vclass ⟨q.ty, q.k, q.zero⟩ d a) (fun i => (2 ^ classOf q.ty (elem w x i), 0))))

/-- R87: rounding to nearest. The chosen multiple of 2^q lies within half of 2^q of the exact magnitude m × 2^e, a tie goes
to the even multiple, and the result is marked inexact exactly where it differs. -/
def Obligations.RoundToNearestEven : Prop :=
  ∀ (m k : Nat) (e q : Int) (neg : Bool) (u : Nat), q = e + k →
    let r := roundAt .rne neg u ⟨m, e, false⟩ q
    (2 * (m : Int) - 2 * (r.1 * 2 ^ k : Int)).natAbs ≤ 2 ^ k ∧
    ((2 * (m : Int) - 2 * (r.1 * 2 ^ k : Int)).natAbs = 2 ^ k → 0 < k → r.1 % 2 = 0) ∧
    (r.2 = true ↔ m ≠ r.1 * 2 ^ k)

/-- R161, R162, R163: permutes, reductions, scans, spread and iota; the flags of a reduction are those of its result. Then what the
sums and the maximum of a list of elements are: of integers the exact sum, wrapped or clamped, and of floats the exact sum
rounded once, a NaN where one is among them or two infinities differ, or the infinity there is. -/
def Obligations.PermutesAndReductions : Prop :=
  (∀ (s u : State) (q : VQ) (d : Nat) (a b : Src) (x y o : VReg) (m : KReg), u.roomV d = true →
     (q.rnd = .rsr → s.seedFree = true) →
     let w := tyWidth q.ty
     let p : MQ := ⟨q.ty, q.k, q.zero⟩
     let n := 1024 / w
     let rsr := decide (q.rnd = .rsr)
     let act (i : Nat) : Bool := m.getLsbD (w * i / 8)
     let upto (i : Nat) : List Nat := ((List.range i).filter act).map (elem w x)
     let done (j : Instr) (f : Nat → Nat) : Prop :=
       ∃ r, exec j s = .next (u.vectorDone false n 0 d r) ∧ State.lanes w m q.zero o r f
     let reduced (j : Instr) (draws : Bool) (f : Nat → Nat × Nat) : Prop :=
       ∃ r fl, exec j s = .next (u.vectorDone draws n fl d r) ∧ State.lanes w m q.zero o r (fun i => (f i).1) ∧
         ∀ b, fl.testBit b = true ↔ ∃ i, i < n ∧ act i = true ∧ (f i).2.testBit b = true
     (s.operandsV [a, b] q.k q.zero d = some (([x, y], m, o), u) →
       done (.vperm p d a b) (fun i => elem w x (elem w y i % n))) ∧
     (s.operandsV [a] q.k q.zero d = some (([x], m, o), u) →
       done (.vspread p d a) (fun i => elem w x ((List.range i).filter act).length) ∧
       reduced (.vgsum q d a) rsr (fun i => sumElems q (s.rnds rsr n i) (upto n)) ∧
       reduced (.vscan q d a) rsr (fun i => sumElems q (s.rnds rsr n i) (upto (i + 1))) ∧
       reduced (.vgmax p d a) false (fun _ => greatest q.ty (upto n))) ∧
     (s.operandsV [] q.k q.zero d = some (([], m, o), u) →
       done (.viota p d) (fun i => ((List.range i).filter act).length))) ∧
  (∀ (q : VQ) (u x : Nat) (xs : List Nat), tyFloat q.ty = false →
     let w := tyWidth q.ty
     let sum := (xs.map (intOf q.ty)).sum
     let lo : Int := if tySigned q.ty then -(2 ^ (w - 1)) else 0
     let hi : Int := if tySigned q.ty then 2 ^ (w - 1) - 1 else 2 ^ w - 1
     sumElems q u xs = (((if q.sat then Max.max lo (Min.min hi sum) else sum) % 2 ^ w).toNat, 0) ∧
     (∃ r, greatest q.ty (x :: xs) = (r, 0) ∧ r ∈ x :: xs ∧ ∀ y ∈ x :: xs, intOf q.ty y ≤ intOf q.ty r)) ∧
  (∀ (q : VQ) (u x : Nat) (xs : List Nat), tyFloat q.ty = true →
     let vs := xs.map (decElem q.ty)
     let val (v : FV) : ℚ := match v with | .fin n m e => (if n then -1 else 1) * (m : ℚ) * (2 : ℚ) ^ e | _ => 0
     (vs.any FV.isNan = true → sumElems q u xs = (nanOf q.ty, if vs.any FV.isSig then fNV else 0)) ∧
     (vs.any FV.isNan = false →
       (∀ n, FV.inf n ∈ vs → FV.inf (!n) ∈ vs → sumElems q u xs = (nanOf q.ty, fNV)) ∧
       (∀ n, FV.inf n ∈ vs → FV.inf (!n) ∉ vs → sumElems q u xs = roundSum q.ty q.rnd q.sat u (.inf n)) ∧
       ((∀ n, FV.inf n ∉ vs) → ∃ (i e : Int) (neg : Bool),
         sumElems q u xs = roundTo q.ty q.rnd q.sat neg u ⟨i.natAbs, e, false⟩ ∧ (i : ℚ) * (2 : ℚ) ^ e = (vs.map val).sum ∧
         (neg = true ↔ i < 0 ∨ i = 0 ∧ vs.all FV.isNegZero = true))) ∧
     ((x :: xs).any (fun y => (decElem q.ty y).isNan) = true →
       greatest q.ty (x :: xs) = (nanOf q.ty, if (x :: xs).any fun y => (decElem q.ty y).isSig then fNV else 0)) ∧
     ((x :: xs).any (fun y => (decElem q.ty y).isNan) = false →
       ∃ r, greatest q.ty (x :: xs) = (r, 0) ∧ r ∈ x :: xs ∧ ∀ y ∈ x :: xs, ltFV (decElem q.ty r) (decElem q.ty y) = false))

/-- R159, R160, R161, R163: the moves between scalar and vector registers, `vrot`, `vsel` and `vcompr`; the mask instructions, on whole mask
registers; `vcmp` writes a condition into every bit of an element. -/
def Obligations.MovesAndMasks : Prop :=
  (∀ (s t u v w' : State) (ty : ETy) (k d : Nat) (zero : Bool) (a b : Src) (x y : VReg) (i j : Word) (o : VReg) (m : KReg),
     let w := tyWidth ty
     let n := 1024 / w
     let q : MQ := ⟨ty, k, zero⟩
     (s.readsS a.n = some (i, t) → t.readsK k = some (m, u) → u.readsOld k zero d = some (o, v) →
       (v.freedS [a]).roomV d = true →
       ∃ r, exec (.vbcast q d a) s = .next ((v.freedS [a]).gotV d r).gone ∧
         State.lanes w m zero o r fun _ => i.toNat) ∧
     (s.readsV a.n = some (x, t) → t.readsS b.n = some (j, u) → ((u.freedV [a]).freedS [b]).roomS d = true →
       exec (.vext ty d a b) s =
         .next (((u.freedV [a]).freedS [b]).gotS d (BitVec.ofNat 64 (elem w x (j.toNat % n)))).gone) ∧
     (s.readsS a.n = some (i, t) → t.readsS b.n = some (j, u) → u.readsV d = some (o, v) →
       (v.freedS [a, b]).roomV d = true →
       ∃ r, exec (.vins ty d a b) s = .next ((v.freedS [a, b]).gotV d r).gone ∧
         ∀ l, l < n → elem w r l = if l = j.toNat % n then i.toNat % 2 ^ w else elem w o l) ∧
     (s.readsV a.n = some (x, t) → t.readsS b.n = some (j, u) → u.readsK k = some (m, v) →
       v.readsOld k zero d = some (o, w') → ((w'.freedV [a]).freedS [b]).roomV d = true →
       ∃ r, exec (.vrot q d a b) s = .next (((w'.freedV [a]).freedS [b]).gotV d r).gone ∧
         State.lanes w m zero o r fun l => elem w x ((l + j.toNat) % n)) ∧
     (s.readsV a.n = some (x, t) → t.readsV b.n = some (y, u) → u.readsK k = some (m, v) →
       (v.freedV [a, b]).roomV d = true →
       ∃ r, exec (.vsel ty k d a b) s = .next ((v.freedV [a, b]).gotV d r).gone ∧
         ∀ l, l < n → elem w r l = if m.getLsbD (w * l / 8) then elem w x l else elem w y l) ∧
     (s.readsV a.n = some (x, t) → t.readsK k = some (m, u) → u.readsOld k zero d = some (o, v) →
       (v.freedV [a]).roomV d = true →
       ∃ r, exec (.vcompr q d a) s = .next ((v.freedV [a]).gotV d r).gone ∧
         ∀ l, l < n → elem w r l =
           (((List.range n).filter fun i => m.getLsbD (w * i / 8)).map (elem w x)).getD l (if zero then 0 else elem w o l))) ∧
  (∀ (s t u v w' : State) (c : Cond) (ty : ETy) (k d : Nat) (zero : Bool) (a b : Src) (p r m o : KReg) (x y : VReg) (i : Word),
     (s.readsK a.n = some (p, t) → t.readsK b.n = some (r, u) → ((u.freedK a).freedK b).roomK d = true →
       let got (z : KReg) := Host.Outcome.next (φ := Fault) (ρ := Refusal) (((u.freedK a).freedK b).gotK d z).gone
       exec (.kop .and d a b) s = got (p &&& r) ∧ exec (.kop .or d a b) s = got (p ||| r) ∧
       exec (.kop .xor d a b) s = got (p ^^^ r) ∧ exec (.kop .andn d a b) s = got (p &&& ~~~r) ∧
       exec (.kop .orn d a b) s = got (p ||| ~~~r)) ∧
     (s.readsK a.n = some (p, t) → (t.freedK a).roomK d = true →
       exec (.kop .not d a ⟨0, false⟩) s = .next ((t.freedK a).gotK d (~~~p)).gone ∧
       exec (.kmov .copy d a) s = .next ((t.freedK a).gotK d p).gone) ∧
     (s.readsK a.n = some (p, t) → (t.freedK a).roomS d = true →
       exec (.kmov .getlo d a) s = .next ((t.freedK a).gotS d (p.setWidth 64)).gone ∧
       exec (.kmov .gethi d a) s = .next ((t.freedK a).gotS d ((p >>> 64).setWidth 64)).gone ∧
       exec (.kpop ty d a) s = .next ((t.freedK a).gotS d (BitVec.ofNat 64
         ((List.range (1024 / tyWidth ty)).filter fun l => p.getLsbD (tyWidth ty * l / 8)).length)).gone) ∧
     (s.readsS a.n = some (i, t) → t.readsK d = some (o, u) → (u.freedS [a]).roomK d = true →
       exec (.kmov .lo d a) s = .next ((u.freedS [a]).gotK d ((o >>> 64 <<< 64) ||| i.setWidth 128)).gone ∧
       exec (.kmov .hi d a) s = .next ((u.freedS [a]).gotK d ((i.setWidth 128 <<< 64) ||| (o &&& 0xFFFFFFFFFFFFFFFF#128))).gone) ∧
     (s.roomK d = true →
       exec (.kmov .set d a) s = .next (s.gotK d (BitVec.allOnes 128)).gone ∧
       exec (.kmov .clr d a) s = .next (s.gotK d 0).gone) ∧
     (s.readsV a.n = some (x, t) → t.readsV b.n = some (y, u) → u.readsK k = some (m, v) →
       (if k ≠ 0 ∧ zero = false then v.readsK d else some (0, v)) = some (o, w') → (w'.freedV [a, b]).roomK d = true →
       8 ≤ tyWidth ty →
       ∃ z fl, exec (.vcmp c ⟨ty, k, zero⟩ d a b) s = .next (((w'.freedV [a, b]).flagged fl).gotK d z).gone ∧
         ∀ j, j < 128 → z.getLsbD j =
           if m.getLsbD (tyWidth ty * (8 * j / tyWidth ty) / 8)
           then condFV c (decElem ty (elem (tyWidth ty) x (8 * j / tyWidth ty))) (decElem ty (elem (tyWidth ty) y (8 * j / tyWidth ty)))
           else o.getLsbD j))

/-- R89, R166, R167, R168, R169, R170, R171: conversions, packing, the dot product, selector blocks and the generator. Every
result element is the one conversion, product sum or decoded level its rule names, and inactive elements follow R149. Rests in part on the model's own choices:
notes/assumptions/20.md. -/
def Obligations.ConversionsAndBlocks : Prop :=
  ∀ (s t u v : State) (q : VQ) (sty : ETy) (kind : DqKind) (sb8 : Bool) (allow half d : Nat) (a b : Src)
    (x y o : VReg) (m : KReg), (q.rnd = .rsr → s.seedFree = true) →
    let rsr := decide (q.rnd = .rsr)
    let w := tyWidth q.ty
    let ww := tyWidth (wideOf q.ty)
    let n := 1024 / ww
    (s.operandsV [a, b] q.k q.zero d = some (([x, y], m, o), u) → u.roomV d = true → ww = 2 * w →
      ∃ r fl, exec (.vpack q d a b) s = .next (u.vectorDone rsr (1024 / w) fl d r) ∧
        State.lanes w m q.zero o r fun i => (convElem q.ty (wideOf q.ty) q.rnd q.sat (s.rnds rsr (1024 / w) i)
          (if i < n then elem ww x i else elem ww y (i - n))).1) ∧
    (s.operandsV [a] q.k q.zero d = some (([x], m, o), u) → u.roomV d = true →
      ∃ r fl, exec (.vunpk ⟨q.ty, q.k, q.zero⟩ d a half) s = .next (u.vectorDone false n fl d r) ∧
        State.lanes ww m q.zero o r fun i => (convElem (wideOf q.ty) q.ty .rne false 0 (elem w x (half * n + i))).1) ∧
    (s.operandsVD [a, b] q.k d = some (([x, y], m, o), u) → u.roomV d = true →
      ∃ r fl, exec (.vdot q d a b) s = .next (u.vectorDone rsr 32 fl d r) ∧
        State.lanes 32 m q.zero o r fun l => (dotLane q (laneElems w x l) (laneElems w y l) (elem 32 o l) (s.rnds rsr 32 l)).1) ∧
    (s.readsV a.n = some (x, t) → t.readsK q.k = some (m, u) →
      (if (w < tyWidth sty ∧ q.zero = false) ∨ (q.k ≠ 0 ∧ q.zero = false) then u.readsV d else some (0, u)) = some (o, v) →
      (v.freedV [a]).roomV d = true →
      let c := 1024 / Max.max (tyWidth sty) w
      ∃ r fl, exec (.vcvt q d a sty) s = .next ((v.freedV [a]).vectorDone rsr c fl d r) ∧
        ∀ i, i < 1024 / w → elem w r i = if i < c ∧ m.getLsbD (w * i / 8) = true
          then (convElem q.ty sty q.rnd q.sat (s.rnds rsr c i) (elem (tyWidth sty) x i)).1 % 2 ^ w
          else if q.zero then 0 else elem w o i) ∧
    (s.readsV a.n = some (x, t) → (t.freedV [a]).roomV d = true →
      ∃ r, exec (.vqenc sb8 allow d a) s =
          .next ((t.freedV [a]).vectorDone false 0 (quantBlock sb8 allow ((List.range 32).map fun l => decF32 (elem 32 x l))).2 d r) ∧
        ∀ j, j < 128 → elem 8 r j =
          (quantBlock sb8 allow ((List.range 32).map fun l => decF32 (elem 32 x l))).1.getD j 0 % 256) ∧
    (s.readsK q.k = some (m, t) → t.readsOld q.k q.zero d = some (o, u) → u.roomV d = true → s.seedFree = true →
      ∃ r, exec (.vseed q.k q.zero d) s =
          .next ((u.onCtl fun c => { c with srseed := (genRun 32 s.cx.c.srseed).2 }).gotV d r).gone ∧
        State.lanes 32 m q.zero o r fun l => (genRun 32 s.cx.c.srseed).1.getD l 0) ∧
    (s.operandsV [a] q.k q.zero d = some (([x], m, o), u) → u.roomV d = true →
      ∀ bl, bl = dqBlock kind ((List.range 34).map (elem 8 x)) → bl ≠ .corrupt →
      ∃ r fl, exec (.vdq kind q.rnd q.sat q.k q.zero d a) s = .next (u.vectorDone rsr 32 fl d r) ∧
        State.lanes 32 m q.zero o r fun l =>
          match bl with
          | .vals vs => (dqLane q.rnd q.sat (vs.getD l (.nan false)) (s.rnds rsr 32 l)).1
          | _ => 0x7FC00000) ∧
    (s.operandsV [a] 0 q.zero d = some (([x], m, o), u) → u.roomV d = true →
      dqBlock kind ((List.range 34).map (elem 8 x)) = .corrupt →
      (s.cx.c.mode.toNat / 4 % 4 = 0 → ∃ f, exec (.vdq kind q.rnd q.sat 0 q.zero d a) s = .next (takeTrap
        ({ s with free := f }.flagged fSELBAD) cSELBAD (BitVec.ofNat 64 (elem 8 x 0 + elem 8 x 1 * 256)))) ∧
      (s.cx.c.mode.toNat / 4 % 4 ≠ 0 → s.notDrain = true →
        ∃ t r, exec (.vdq kind q.rnd q.sat 0 q.zero d a) s = .next t ∧ t.cx.r.v.get? d = some r ∧
          t.cx.c.fflags = s.cx.c.fflags ||| BitVec.ofNat 64 fSELBAD ∧
          ∀ l, l < 32 → elem 32 r l = if s.cx.c.mode.toNat / 4 % 4 = 1 then 0x7FC00000 else 0))

/-! ## Vector memory, atomics, maintenance -/

/-- R149, R156, R203: the vector loads. `f j` is the place that byte `j` of the block leads to, and `st` the state once the
addresses are looked up. Bytes of active elements hold what memory holds there; the others keep the destination's bits, or are
zero. Memory does not change, nor the scalar registers but by the base's last-use free, and the load class counts one. Without an active byte there is no access. Rests in part on the model's own choices:
notes/assumptions/7.md. -/
def Obligations.VectorLoads : Prop :=
  ∀ (s t u v st : State) (q : MQ) (d : Nat) (a : Src) (x : Word) (imm : Int) (m : KReg) (o : VReg) (f : Nat → Nat)
    (places : List (Nat × Except Nat Nat)),
    s.readsS a.n = some (x, t) → t.readsK q.k = some (m, u) → u.readsOld q.k q.zero d = some (o, v) →
    (v.freedS [a]).roomV d = true → s.ordered = true → s.room 0 = true → s.cx.ways = 0 → s.cx.constWays = 0 →
    let w := tyWidth q.ty
    let js := (List.range 128).filter fun j => m.getLsbD (w * (j * 8 / w) / 8)
    ∀ e ∈ [(Acc.load, x + BitVec.ofInt 64 (64 * imm), 128, Instr.vld q d a imm),
        (.const, x + BitVec.ofInt 64 (64 * imm), 128, .vldc q d a imm), (.load, x + BitVec.ofInt 64 imm, 1, .vldu q d a imm)],
      e.2.1.toNat % e.2.2.1 = 0 →
      (∀ j ∈ js, (e.2.1 + BitVec.ofNat 64 j).toNat % (w / 8) ≠ 0 → j - 1 ∈ js → f j = f (j - 1) + 1) →
      (js ≠ [] → locateMany (v.freedS [a]).cx e.1 (js.map fun j => (e.2.1 + BitVec.ofNat 64 j).toNat)
        (v.freedS [a]) = .ok (places, st) ∧ places.map (·.2) = js.map fun j => .ok (f j)) →
      (js = [] → st = v.freedS [a]) →
      ∃ r z, exec e.2.2.2 s = .next z ∧ z.cx.r.v.get? d = some r ∧ z.mem = st.mem ∧
        ((∀ j ∈ js, isGlobal (e.2.1 + BitVec.ofNat 64 j).toNat = false) → z.mem = s.mem) ∧
        z.cx.r.s = (v.freedS [a]).cx.r.s ∧ z.cx.r.k = s.cx.r.k ∧ z.cx.c = s.cx.c ∧
        z.cx.cnt = (if js = [] then s.cx.cnt else s.cx.cnt.add 0 1) ∧
        ∀ j, j < 128 → elem 8 r j = if j ∈ js then (st.mem.read (f j)).toNat else if q.zero ∨ q.k = 0 then 0 else elem 8 o j

/-- R156, R169, R203: the vector stores and their frame. Byte `j` of the data goes to the place `f j` its address leads to,
for the bytes the mask names (`vqst`: the bytes of the block); every other byte of memory reads as it did in `z'`, once the
addresses were looked up, but for the words that a host write has left old in the context's cache. Rests in part on the model's own choices:
notes/assumptions/7.md. -/
def Obligations.VectorStores : Prop :=
  ∀ (s t u v z' : State) (ty : ETy) (sb8 : Bool) (allow k : Nat) (d a : Src) (x : Word) (y : VReg) (m : KReg) (imm : Int)
    (f : Nat → Nat) (places : List (Nat × Except Nat Nat)),
    s.readsS a.n = some (x, t) → t.readsV d.n = some (y, u) → s.ordered = true → s.room 1 = true → z'.MemWf →
    let done (i : Instr) (st : State) (ea : Word) (js : List Nat) (data : Nat → Byte) : Prop :=
      (∀ i ∈ js, ∀ j ∈ js, f i = f j → i = j) →
      (js ≠ [] → locateMany st.cx .store (js.map fun j => (ea + BitVec.ofNat 64 j).toNat) st = .ok (places, z') ∧
        places.map (·.2) = js.map fun j => .ok (f j)) →
      (js = [] → z' = st) →
      ∃ z, exec i s = .next z ∧ (∀ j ∈ js, z.mem.read (f j) = data j) ∧
        (∀ p, (∀ j ∈ js, f j ≠ p) → (∀ l ∈ s.cx.l1.data, l.old.get? (p / 8) = none) →
          z.mem.read p = z'.mem.read p ∧
          ((∀ j ∈ js, isGlobal (ea + BitVec.ofNat 64 j).toNat = false) → z.mem.read p = s.mem.read p)) ∧
        z.cx.r = st.cx.r ∧ z.cx.c = st.cx.c ∧ z.cx.cnt = (if js = [] then s.cx.cnt else s.cx.cnt.add 1 1)
    (u.readsK k = some (m, v) →
      let st := (v.freedS [a]).freedV [d]
      let js := (List.range 128).filter fun j => m.getLsbD j
      ((x + BitVec.ofInt 64 (64 * imm)).toNat % 128 = 0 →
        done (.vst ty k d a imm) st (x + BitVec.ofInt 64 (64 * imm)) js fun j => BitVec.ofNat 8 (elem 8 y j)) ∧
      done (.vstm ty k d a imm) st (x + BitVec.ofInt 64 imm) js fun j => BitVec.ofNat 8 (elem 8 y j)) ∧
    (let block := quantBlock sb8 allow ((List.range 32).map fun l => decF32 (elem 32 y l));
      block.1.length ≤ 128 → s.notDrain = true →
      done (.vqst sb8 allow d a imm) (((u.flagged block.2).freedS [a]).freedV [d]) (x + BitVec.ofInt 64 imm)
        (List.range block.1.length) fun j => BitVec.ofNat 8 (block.1.getD j 0))

/-- R149, R204: gather and scatter. `f l` is the place of lane `l`'s element, for elements of 8 bits or more. A gather extends
each active lane's element to 32 bits; a scatter writes each active lane's element in ascending lane order, so that of two
lanes with one place the higher remains, and leaves every other byte of memory as it was in `p'`, once the addresses were
looked up. Rests in part on the model's own choices:
notes/assumptions/7.md. -/
def Obligations.GatherScatter : Prop :=
  ∀ (s t u v w' p' : State) (ty : ETy) (k d : Nat) (zero : Bool) (a b c : Src) (x : Word) (y z o : VReg) (m : KReg)
    (f : Nat → Nat) (places : List (Nat × Except Nat Nat)), places.map (·.2) = (((List.range 32).filter fun l =>
      m.getLsbD (4 * l)).map fun l => .ok (f l)) →
    ty ∈ [ETy.f32, .i32, .n32, .bf16, .f16, .i16, .n16, .e4m3, .e5m2, .mk8, .i8, .n8] →
    s.readsS a.n = some (x, t) → t.readsV b.n = some (y, u) → s.ordered = true → s.cx.ways = 0 →
    let n := tyWidth ty / 8
    let at_ (l : Nat) : Nat := (x + BitVec.ofInt 64 ((BitVec.ofNat 32 (elem 32 y l)).toInt * n)).toNat
    let ls := (List.range 32).filter fun l => m.getLsbD (4 * l)
    (∀ l ∈ ls, at_ l % n = 0) →
    (u.readsK k = some (m, v) → v.readsOld k zero d = some (o, w') → s.room 0 = true →
      let st := (w'.freedS [a]).freedV [b]
      st.roomV d = true → (ls ≠ [] → locateMany st.cx .load (ls.map at_) st = .ok (places, p')) → (ls = [] → p' = st) →
      ∃ p r, exec (.vgath ⟨ty, k, zero⟩ d a b) s = .next p ∧ p.cx.r.v.get? d = some r ∧ p.mem = p'.mem ∧
        ((∀ l ∈ ls, isGlobal (at_ l) = false) → p.mem = s.mem) ∧
        p.cx.r.s = st.cx.r.s ∧ p.cx.c = s.cx.c ∧
        ∀ l, l < 32 → elem 32 r l =
          if l ∈ ls then
            (if ty ∈ [ETy.i32, .i16, .i8] then
              ((BitVec.ofNat (8 * n) (natOfBytes (p'.mem.bytes (f l) n))).signExtend 32).toNat
            else natOfBytes (p'.mem.bytes (f l) n))
          else if zero ∨ k = 0 then 0 else elem 32 o l) ∧
    (u.readsV c.n = some (z, v) → v.readsK k = some (m, w') → s.room 1 = true → p'.MemWf →
      let st := ((w'.freedS [a]).freedV [b, c])
      (∀ i ∈ ls, ∀ j ∈ ls, f i = f j ∨ f i + n ≤ f j ∨ f j + n ≤ f i) →
      (ls ≠ [] → locateMany st.cx .store (ls.map at_) st = .ok (places, p')) → (ls = [] → p' = st) →
      ∃ p, exec (.vscat ty k a b c) s = .next p ∧ p.cx.r = st.cx.r ∧ p.cx.c = s.cx.c ∧
        (∀ l ∈ ls, (∀ j ∈ ls, l < j → f j ≠ f l) →
          ∀ i, i < n → p.mem.read (f l + i) = BitVec.ofNat 8 (elem 32 z l / 256 ^ i)) ∧
        (∀ q, (∀ l ∈ ls, q < f l ∨ f l + n ≤ q) → p.mem.read q = p'.mem.read q ∧
          ((∀ l ∈ ls, isGlobal (at_ l) = false) → p.mem.read q = s.mem.read q)))

/-- R205, R206, R207, R208, R425: an atomic at its own bank, or in the context's cache, is performed at issue: one read and
one write of the element at its place, the old value zero-extended in the destination, nothing else of memory changed once
the address is looked up (a word that a host write left old in the cache goes home whole).
`aggadd` adds the active lanes to one word in a single step and returns to each active lane the word as the lanes below it
leave it; said for a word in a bank of the core. Rests in part on the model's own choices: notes/assumptions/7.md. -/
def Obligations.AtomicsPerformed : Prop :=
  (∀ (s u v w : State) (op : AmoOp) (wd : Bool) (sc : Scope) (d key old : Nat) (a b c : Src) (ea x y : Word),
     s.notDrain = true → s.ordered = true → s.room 0 = true → w.MemWf → sc ≠ .sys →
     let n := if wd then 4 else 8
     ea.toNat % n = 0 → locate .atomic ea.toNat u = .ok (.ok key, v) → (isDram key = false ∨ v.cx.ways ≠ 0) →
     readPlace key n v = .ok (old, w) → w.roomS d = true → old < 2 ^ (8 * n) →
     let sg (z : Nat) : Int := (BitVec.ofNat (8 * n) z).toInt
     let done (i : Instr) (new : Nat) : Prop :=
       ∃ t, exec i s = .next t ∧ (d ≠ 0 → t.cx.r.s.get? d = some (BitVec.ofNat 64 old)) ∧
         (∀ j, j < n → t.mem.read (key + j) = BitVec.ofNat 8 (new / 256 ^ j)) ∧
         (∀ p, beyond p (w.storeSpan key n) → t.mem.read p = v.mem.read p ∧
           (v.expanded = s.expanded → v.free = u.free → t.mem.read p = s.mem.read p)) ∧
         (∀ r, r ≠ d → t.cx.r.s.get? r = u.cx.r.s.get? r) ∧ t.cx.r.v = s.cx.r.v ∧ t.cx.cnt = s.cx.cnt.add 0 1
     (s.operands [a, b] = some ([ea, x], u) →
       let z := x.toNat % 2 ^ (8 * n)
       (op = .swap → done (.amo op wd sc d a b) z) ∧
       (op = .add → done (.amo op wd sc d a b) ((old + z) % 2 ^ (8 * n))) ∧
       (op = .and → done (.amo op wd sc d a b) (old &&& z)) ∧
       (op = .or → done (.amo op wd sc d a b) (old ||| z)) ∧
       (op = .xor → done (.amo op wd sc d a b) (old ^^^ z)) ∧
       (op = .min → done (.amo op wd sc d a b) (if sg z < sg old then z else old)) ∧
       (op = .max → done (.amo op wd sc d a b) (if sg old < sg z then z else old)) ∧
       (op = .minu → done (.amo op wd sc d a b) (Min.min z old)) ∧
       (op = .maxu → done (.amo op wd sc d a b) (Max.max z old)) ∧
       (op = .fadd → wd = true → done (.amo op wd sc d a b) (addFloat .f32 .rne false 0 (decF32 old) (decF32 z)).1)) ∧
     (s.operands [a, b, c] = some ([ea, x, y], u) →
       done (.cas wd sc d a b c) (if old = x.toNat % 2 ^ (8 * n) then y.toNat % 2 ^ (8 * n) else old))) ∧
  (∀ (s t u v w p q : State) (k d key old : Nat) (zero : Bool) (sc : Scope) (a b : Src) (ea : Word) (y o : VReg) (m : KReg),
     s.notDrain = true → s.ordered = true → s.room 0 = true → q.MemWf → sc ≠ .sys →
     s.readsS a.n = some (ea, t) → t.readsV b.n = some (y, u) → u.readsK k = some (m, v) →
     v.readsOld k zero d = some (o, w) → ea.toNat % 4 = 0 → (∃ l, l < 32 ∧ m.getLsbD (4 * l) = true) →
     locate .atomic ea.toNat ((w.freedS [a]).freedV [b]) = .ok (.ok key, p) → isDram key = false →
     readPlace key 4 p = .ok (old, q) → q.roomV d = true →
     let sum (n : Nat) : Nat := (((List.range n).filter fun l => m.getLsbD (4 * l)).map (elem 32 y)).sum
     ∃ z r, exec (.aggadd k zero sc d a b) s = .next z ∧ z.cx.r.v.get? d = some r ∧
       natOfBytes (z.mem.bytes key 4) = (old + sum 32) % 2 ^ 32 ∧
       (∀ i, i < key ∨ key + 4 ≤ i → z.mem.read i = s.mem.read i) ∧
       State.lanes 32 m zero o r fun l => old + sum l)

/-- R207, R208, R425: an atomic on DRAM, of a context without a cache or of `.sys` scope, is on its way: its register waits for it,
its class counts it and memory does not change until it reaches its home; one of `.sys` scope first waits for the load and
store classes and writes the cache back. At home it takes its place: the word changes, the register receives the old value, or
each active lane of an `aggadd` the word as the lanes below it leave it, and the class counts it no more. Rests in part on the
model's own choices: notes/assumptions/7.md. -/
def Obligations.AtomicsOnTheirWay : Prop :=
  (∀ (s u v : State) (op : AmoOp) (wd : Bool) (sc : Scope) (d key code : Nat) (a b c : Src) (ea x y z : Word) (i : Instr),
    s.notDrain = true → (∀ e ∈ s.bads, e.2.cid ≠ s.cx.cid) → s.room 0 = true → ea.toNat % (if wd then 4 else 8) = 0 →
    (i = .amo op wd sc d a b ∧ code = amoCode op ∧ z = 0 ∧ s.operands [a, b] = some ([ea, x], u) ∨
      i = .cas wd sc d a b c ∧ code = 10 ∧ z = y ∧ s.operands [a, b, c] = some ([ea, x, y], u)) →
    (sc = .sys → s.cx.cnt.load ≠ 0 ∨ s.cx.cnt.store ≠ 0 → exec i s = .next (s.waits (.classes 0 0 7 7 7))) ∧
    ((sc = .sys → s.cx.cnt.load = 0 ∧ s.cx.cnt.store = 0) →
      locate .atomic ea.toNat (if sc = .sys then u.cleanAll false else u) = .ok (.ok key, v) →
      isDram key = true → (v.cx.ways = 0 ∨ sc = .sys) → v.roomS d = true →
      ∃ t e, exec i s = .next t ∧ t.atoms.get? v.nextBad = some e ∧ e.cid = s.cx.cid ∧ e.key = key ∧ e.op = code ∧
        e.wide = (if wd then 32 else 64) ∧ e.b = x ∧ e.c = z ∧ e.d = d ∧ e.sys = decide (sc = .sys) ∧
        (d ≠ 0 → t.cx.r.sFly.get? d = some v.nextBad) ∧ (d = 0 → t.cx.r = u.cx.r) ∧
        t.mem = v.mem ∧ t.cx.cnt = s.cx.cnt.add 0 1)) ∧
  (∀ (s t u v w p : State) (k d key : Nat) (zero : Bool) (sc : Scope) (a b : Src) (ea : Word) (y o : VReg) (m : KReg),
    s.notDrain = true → (∀ e ∈ s.bads, e.2.cid ≠ s.cx.cid) → s.room 0 = true →
    (sc = .sys → s.cx.cnt.load = 0 ∧ s.cx.cnt.store = 0) →
    s.readsS a.n = some (ea, t) → t.readsV b.n = some (y, u) → u.readsK k = some (m, v) →
    v.readsOld k zero d = some (o, w) → ea.toNat % 4 = 0 → (∃ l, l < 32 ∧ m.getLsbD (4 * l) = true) →
    let st := (w.freedS [a]).freedV [b]
    locate .atomic ea.toNat (if sc = .sys then st.cleanAll false else st) = .ok (.ok key, p) →
    isDram key = true → (p.cx.ways = 0 ∨ sc = .sys) → p.roomV d = true →
    ∃ z e, exec (.aggadd k zero sc d a b) s = .next z ∧ z.atoms.get? p.nextBad = some e ∧ e.cid = s.cx.cid ∧ e.key = key ∧
      e.op = 11 ∧ e.wide = 32 ∧ e.vb = y ∧ e.k = m ∧ e.zero = zero ∧ e.old = o ∧ e.d = d ∧ e.sys = decide (sc = .sys) ∧
      z.cx.r.vFly.get? d = some p.nextBad ∧ z.mem = p.mem ∧ z.cx.cnt = s.cx.cnt.add 0 1) ∧
  (∀ (s r : State) (cid n : Nat) (e : Atom) (c : Ctx),
    s.atoms.find? (fun x => x.2.cid = cid) = some (n, e) → s.ctx? cid = some c → (s.part c.id.part).pstate = 0 →
    s.openWay (coreStack c.id.core) (stackOf e.key) = true →
    s.request (coreStack c.id.core) (stackOf e.key) = some r →
    let old := natOfBytes (s.mem.bytes e.key (e.wide / 8))
    let below (l : Nat) : Nat := (((List.range l).filter fun j => e.k.getLsbD (4 * j)).map (elem 32 e.vb)).sum
    ∃ t c', exec (.atomicAtHome cid) s = .next t ∧ t.atoms = s.atoms.erase n ∧
      t.mem = s.mem.putBytes e.key (bytesOfNat (e.wide / 8) (e.new old).1) ∧
      t.ctx? cid = some c' ∧ c'.cnt = c.cnt.sub 0 1 ∧
      (e.op ≠ 11 → c.r.sFly.get? e.d = some n → c'.r.s.get? e.d = some (BitVec.ofNat 64 old) ∧ c'.r.sFly.get? e.d = none) ∧
      (e.op = 11 → c.r.vFly.get? e.d = some n → c'.r.vFly.get? e.d = none ∧
        ∃ x, c'.r.v.get? e.d = some x ∧ State.lanes 32 e.k e.zero e.old x fun l => old + below l) ∧
      (e.sys = true → c'.l1.const = [] ∧ ∀ l ∈ c'.l1.data, l.old = []))

/-- R127, R209, R210: `wait` goes on when every class is at or below the count named for it (7 names none); until then it
waits. `fence` waits for the classes its order names and, for a release, until each earlier ordinary access has its place; it is
noted, so that a later arrival releases; `.sys` releases by writing back the first-level cache and acquires by dropping what a
host write has left old in it. On a global address `pref` brings the line into the context's cache, `clwb` sends its written
words home and keeps it, `clinv` drops it as well; for any other address they do nothing; none of them changes a byte of memory
once the line is found. Rests in part on the model's own choices: notes/assumptions/21.md. -/
def Obligations.WaitsAndFences : Prop :=
  (∀ (s u v : State) (sc : Scope) (ord : Order) (wr : Bool) (a : Src) (x : Word) (imm : Int) (key cause : Nat), s.notDrain = true →
     let acq := ord = .acq ∨ ord = .sc
     let rel := ord = .rel ∨ ord = .sc
     ((acq → s.cx.cnt.load = 0) → (rel → s.cx.cnt.store = 0) →
       (rel → s.placed = false → exec (.fence sc ord) s = .next (s.waits .faults)) ∧
       ((rel → s.placed = true) →
         (sc ≠ .sys → exec (.fence sc ord) s = .next (if rel then s.releases else s).gone) ∧
         (sc = .sys → ∃ t, exec (.fence sc ord) s = .next t ∧ t.mem = s.mem ∧ t.cx.r = s.cx.r ∧ t.cx.c = s.cx.c ∧
           (rel → t.cx.st.fenced = true ∧ ∀ l ∈ t.cx.l1.data, l.written = 0) ∧
           (acq → t.cx.l1.const = [] ∧ ∀ l ∈ t.cx.l1.data, l.old = [])))) ∧
     (acq ∧ s.cx.cnt.load ≠ 0 ∨ rel ∧ s.cx.cnt.store ≠ 0 →
       exec (.fence sc ord) s = .next (s.waits (.classes (if acq then 0 else 7) (if rel then 0 else 7) 7 7 7))) ∧
     (s.operands [a] = some ([x], u) →
       let ea := x + BitVec.ofInt 64 imm
       (s.cx.ways = 0 ∨ isGlobal ea.toNat = false → exec (.pref wr a imm) s = .next u.gone) ∧
       (s.cx.ways ≠ 0 → isGlobal ea.toNat = true →
         (locateIn none (if wr then .store else .load) ea.toNat u = .ok (.error cause, v) →
           exec (.pref wr a imm) s = .next v.gone) ∧
         (locateIn none (if wr then .store else .load) ea.toNat u = .ok (.ok key, v) →
           ∃ t l, exec (.pref wr a imm) s = .next t ∧ t.cx.l1.data.head? = some l ∧ l.line = key / 128 ∧
             l.valid = BitVec.allOnes 16 ∧ (wr = true → l.perm = true) ∧ t.mem = v.mem ∧ t.bads = s.bads ∧
             t.cx.r = u.cx.r ∧ t.cx.c = s.cx.c ∧ t.cx.cnt = s.cx.cnt)) ∧
       (isGlobal x.toNat = false → s.room 1 = true →
         exec (.clinv a) s = .next u.gone ∧ exec (.clwb a) s = .next u.gone) ∧
       (isGlobal x.toNat = true → s.room 1 = true → locateIn (some 1) .load x.toNat u = .ok (.ok key, v) →
         let cnt := if s.cx.l1.data.any (fun l => l.line = key / 128) then s.cx.cnt.add 1 1 else s.cx.cnt
         ∃ t p, exec (.clinv a) s = .next t ∧ exec (.clwb a) s = .next p ∧ t.mem = v.mem ∧ p.mem = v.mem ∧
           t.cx.cnt = cnt ∧ p.cx.cnt = cnt ∧ (∀ l ∈ t.cx.l1.data, l.line ≠ key / 128) ∧
           p.cx.l1.data.map (·.line) = s.cx.l1.data.map (·.line) ∧ (∀ l ∈ p.cx.l1.data, l.line = key / 128 → l.written = 0) ∧
           ∀ l, s.cx.l1.data.find? (fun l => l.line = key / 128) = some l → ∀ i, i < 16 → l.written.getLsbD i = true →
             t.home.get? (key / 128 * 16 + i) = none ∧ p.home.get? (key / 128 * 16 + i) = none))) ∧
  (∀ (s : State) (l st c m h : Nat), s.notDrain = true →
     let within := (l = 7 ∨ s.cx.cnt.load ≤ l) ∧ (st = 7 ∨ s.cx.cnt.store ≤ st) ∧ (c = 7 ∨ s.cx.cnt.copy ≤ c) ∧
       (m = 7 ∨ s.cx.cnt.matrix ≤ m) ∧ (h = 7 ∨ s.cx.cnt.head ≤ h)
     (within → exec (.wait l st c m h) s = .next s.gone) ∧
     (¬ within → exec (.wait l st c m h) s = .next (s.waits (.classes l st c m h))))

/-- R56, R68, R324, R326, R327: `rpw` resolves the entry that `s[a]` names, as the ring holds it: `rpw.s` and `rpw.v` give the
register left pending its value, `rpw.v` under LMASK, `rpw.kill` poisons it or, where the entry leaves none pending, gives a
deferred trap, `rpw.done` carries out a held store or atomic; each writes 0 to its destination, ends the entry and counts it in
DLRES. A held access that faults again leaves the entry with its new cause, which the destination receives. An entry that is not
of the form's kind is an `ILLOP`. A faulted access found late takes the next entry of the ring and, with its last entry, leaves
its class; a load or store that completes leaves its class. Rests in part on the model's own choices:
notes/assumptions/38.md. -/
def Obligations.DeadLetters : Prop :=
  (∀ (s u r v : State) (d id cause : Nat) (a b : Src) (i x : Word) (y : VReg) (e : Bad) (f : Atom),
     s.notDrain = true → s.cx.sup = true → (s.part s.cx.id.part).rrbase.toNat % 32 ∈ List.range' 6 11 →
     s.readsS a.n = some (i, r) → e.part = s.cx.id.part →
     let idx := i.toNat % 2 ^ ((s.part s.cx.id.part).rrbase.toNat % 32)
     r.entryNow s.cx.id.part idx = some (id, e) →
     let ended (t : State) : Prop := t.bads.get? id = none ∧
       (t.part s.cx.id.part).resolved = (s.part s.cx.id.part).resolved + 1 ∧ (d ≠ 0 → t.cx.r.s.get? d = some 0)
     let failed (t : State) : Prop :=
       (t.part s.cx.id.part).resolved = (s.part s.cx.id.part).resolved ∧ (d ≠ 0 → t.cx.r.s.get? d = some (BitVec.ofNat 64 cause))
     let wrong := Host.Outcome.next (φ := Fault) (ρ := Refusal) (takeTrap s cILLOP (subInfo 0x0B 0))
     (s.operands [a, b] = some ([i, x], u) → u.roomS d = true →
       (e.dkind = 1 → ∃ t, exec (.rpwS d a b) s = .next t ∧ ended t ∧
         ∀ c, (u.gotS d 0).ctx? e.cid = some c → (c.r.sPend.getD e.dreg []).contains id = true →
           ∃ c', t.ctx? e.cid = some c' ∧ c'.r.s.get? e.dreg = some x ∧
             ((c.r.sPend.getD e.dreg []).erase id = [] → c'.r.sPend.get? e.dreg = none)) ∧
       (e.dkind ≠ 1 → exec (.rpwS d a b) s = wrong)) ∧
     (∀ t, s.readsS a.n = some (i, t) → t.readsV b.n = some (y, u) → ((u.freedS [a]).freedV [b]).roomS d = true →
       (e.dkind = 2 → ∃ t, exec (.rpwV d a b) s = .next t ∧ ended t ∧
         ∀ c, (((u.freedS [a]).freedV [b]).gotS d 0).ctx? e.cid = some c → (c.r.vPend.getD e.dreg []).contains id = true →
           ∃ c' z, t.ctx? e.cid = some c' ∧ c'.r.v.get? e.dreg = some z ∧
             (∀ j, j < 128 → elem 8 z j = if e.lmask.testBit j then elem 8 y j else elem 8 (c.r.v.getD e.dreg 0) j) ∧
             ((c.r.vPend.getD e.dreg []).erase id = [] → c'.r.vPend.get? e.dreg = none)) ∧
       (e.dkind ≠ 2 → exec (.rpwV d a b) s = wrong)) ∧
     (s.operands [a] = some ([i], u) → u.roomS d = true →
       let w := u.gotS d 0
       (∃ t, exec (.rpwKill d a) s = .next t ∧ ended t ∧ ∀ c, w.ctx? e.cid = some c → ∃ c', t.ctx? e.cid = some c' ∧
         (e.dkind = 1 → e.dreg ≠ 0 → (c.r.sPend.getD e.dreg []).contains id = true → c'.r.sPoison.get? e.dreg = some idx) ∧
         (e.dkind = 2 → (c.r.vPend.getD e.dreg []).contains id = true → c'.r.vPoison.get? e.dreg = some idx) ∧
         (e.dkind = 0 ∨ e.dkind = 1 ∧ e.dreg = 0 →
           c'.st.defer = c.st.defer ++ [⟨cPOISON, killInfo idx, if e.opk = 3 then some e.pc else none⟩])) ∧
       (e.dkind ≠ 0 → e.opk ≠ 2 → exec (.rpwDone d a) s = wrong) ∧
       (e.dkind = 0 → e.opk ≠ 1 → e.opk ≠ 2 → ∃ t, exec (.rpwDone d a) s = .next t ∧ ended t) ∧
       (e.dkind = 0 → e.opk = 1 →
         (w.storeHeld ((w.ctx? e.cid).getD w.cx) e = .ok v → ∃ t, exec (.rpwDone d a) s = .next t ∧ ended t) ∧
         (w.storeHeld ((w.ctx? e.cid).getD w.cx) e = .error (cause, v) → v.roomS d = true →
           ∃ t, exec (.rpwDone d a) s = .next t ∧ failed t)) ∧
       (e.opk = 2 → e.atom = some f →
         (w.atomHeld ((w.ctx? e.cid).getD w.cx) id e f = .ok v → ∃ t, exec (.rpwDone d a) s = .next t ∧ ended t) ∧
         (w.atomHeld ((w.ctx? e.cid).getD w.cx) id e f = .error (cause, v) → v.roomS d = true →
           ∃ t, exec (.rpwDone d a) s = .next t ∧ failed t)))) ∧
  ((∀ (s t : State) (n c : Nat) (b : Bad), s.bads.get? n = some b → b.posted = none → (s.part b.part).pstate = 0 →
     b.cls = some c →
     ((if ∃ e ∈ s.bads, e.1 ≠ n ∧ e.2.access = b.access ∧ b.access ≠ none ∧ e.2.posted = none then s else s.uncount b.cid c).post
       n b = .ok t) →
     exec (.deadLetterPost n) s = .next (t.modCtx b.cid fun c => c.setFlags b.flags) ∧ (t.part b.part).posts = (s.part b.part).posts + 1 ∧
     t.bads.get? n = some { b with posted := some (s.part b.part).posts }) ∧
   (∀ (s : State) (cid : Nat) (c : Ctx), s.ctx? cid = some c → s.cx.cid ≠ cid → s.atoms = [] → s.bads = [] → s.late = [] →
     (0 < c.cnt.load → ∃ t, exec (.accessComplete cid false) s = .next t ∧
       t.ctx? cid = some { c with cnt := { c.cnt with load := c.cnt.load - 1 } }) ∧
     (0 < c.cnt.store → ∃ t, exec (.accessComplete cid true) s = .next t ∧
       t.ctx? cid = some { c with cnt := { c.cnt with store := c.cnt.store - 1 } })))

/-! ## Rings, copies, chutes, messages -/

/-- R211, R212, R213, R214, R215: the ring instructions on a defined ring, and their traps on an undefined one. A reservation beyond the
ring, and a consumption beyond PROD, answer −1 and change nothing. Publishing in order moves PROD past the slots; out of order it
only marks them, and PROD passes the whole run at once when the gap closes. -/
def Obligations.RingInstructions : Prop :=
  (∀ (s u : State) (d q : Nat) (a b : Src) (x y : Word) (r : Ring), s.notDrain = true → s.ring s.cx.id.core q = r →
     let ring (t : State) (r' : Ring) := t.modRing s.cx.id.core q fun _ => r'
     let cd (i j : Nat) : Nat := (i + 2 ^ 32 - j) % 2 ^ 32
     (s.operands [a, b] = some ([x, y], u) → r.engine = 0 →
       let e := y.toNat / 2 ^ 16 % 2 ^ 16
       let g := y.toNat / 2 ^ 12 % 16
       y.toNat < 2 ^ 32 → y.toNat % 4096 = 0 → e % 8 = 0 → 8 ≤ e → e ≤ 16384 → g ≤ 12 → x.toNat % 128 = 0 →
       x.toNat < 2 ^ 19 → s.cx.ownRange x.toNat (e * 2 ^ g) = true →
       exec (.rgdef q a b) s = .next (ring u ⟨true, 0, x.toNat, e, g, 0, 0, 0, [], s.cx.cid, s.cx.decl.banks⟩).gone) ∧
     (r.defd = true → r.cons < 2 ^ 32 →
       (s.operands [b] = some ([y], u) → 0 < y.toNat → y.toNat ≤ 2 ^ r.log2n → u.roomS d = true →
         exec (.rgrsv d q b) s = .next (if 2 ^ r.log2n < cd r.rsv r.cons + y.toNat then (u.gotS d (BitVec.allOnes 64)).gone
           else (ring (u.gotS d (BitVec.ofNat 64 r.rsv)) { r with rsv := (r.rsv + y.toNat) % 2 ^ 32 }).gone) ∧
         (r.engine = 0 → exec (.rgcon d q b) s =
           .next (if cd r.prod r.cons < y.toNat then (u.gotS d (BitVec.allOnes 64)).gone
           else (ring (u.gotS d (BitVec.ofNat 64 r.cons)) { r with cons := (r.cons + y.toNat) % 2 ^ 32 }).gone))) ∧
       (s.operands [a, b] = some ([x, y], u) → 0 < y.toNat → y.toNat ≤ 2 ^ r.log2n → s.ordered = true →
         (∀ i, i < y.toNat → r.reserved (x.toNat % 2 ^ 32 + i) = true ∧ r.published (x.toNat % 2 ^ 32 + i) = false) →
         exec (.rgpub q a b) s = .next (ring u (r.publish (x.toNat % 2 ^ 32) y.toNat)).gone) ∧
       (s.roomS d = true →
         exec (.rgst .prod d q b) s = .next (s.gotS d (BitVec.ofNat 64 r.prod)).gone ∧
         exec (.rgst .rsv d q b) s = .next (s.gotS d (BitVec.ofNat 64 r.rsv)).gone ∧
         exec (.rgst .cons d q b) s = .next (s.gotS d (BitVec.ofNat 64 r.cons)).gone ∧
         exec (.rgst .desc d q b) s = .next (s.gotS d
           (BitVec.ofNat 64 (r.engine * 2 ^ 61 + r.base * 2 ^ 32 + r.entryb * 2 ^ 16 + r.log2n * 2 ^ 12 + 1))).gone) ∧
       (s.operands [b] = some ([y], u) → u.roomS d = true →
         exec (.rgst .addr d q b) s =
           .next (u.gotS d (BitVec.ofNat 64 (r.base + y.toNat % 2 ^ r.log2n * r.entryb))).gone)) ∧
     (r.defd = false → ∀ i ∈ [Instr.rgrsv d q b, .rgpub q a b, .rgcon d q b, .rgst .prod d q b, .rgst .addr d q b],
       exec i s = .next (takeTrap s cRINGOV (BitVec.ofNat 64 (8 * 256 + q % 16))))) ∧
  (∀ (r : Ring) (n m : Nat), r.marks = [] → r.prod < 2 ^ 32 → 0 < n → 0 < m → n + m ≤ 2 ^ r.log2n → r.log2n ≤ 12 →
     r.publish r.prod n = { r with prod := (r.prod + n) % 2 ^ 32 } ∧
     (r.publish (r.prod + n) m).prod = r.prod ∧
     ((r.publish (r.prod + n) m).publish r.prod n) = { r with prod := (r.prod + n + m) % 2 ^ 32 })

/-- R216, R217, R218, R222, R223, R224: where its operands pass the checks, a copy, an exchange or `xfin` joins its core's
engine with its operands as issued, counts in the copy class, and execution goes on without waiting for it. Rests in part on the model's own choices:
notes/assumptions/23.md. -/
def Obligations.EngineOperationsIssue : Prop :=
  ∀ (s u : State) (rnd : Rnd) (sat : Bool) (ty : ETy) (d : Nat) (a b c : Src) (dst x y w : Word), s.notDrain = true →
    let base (kind : Nat) (src len : Word) : CopyOp :=
      { cid := s.cx.cid, kind := kind, dst := dst, src := src, len := len, ctrl := 0, rows := 1, rowb := len.toNat, sstr := 0,
        dstr := 0, ty := .f32, rnd := .rne, sat := false, pc := s.cx.pc, sup := s.cx.sup, landed := [],
        wins := (s.part s.cx.id.part).shadows, lost := [], gen := none, ack := none }
    let sized (n : Nat) : Prop := 0 < n ∧ n ≤ 2 ^ 24
    (s.operands [⟨d, false⟩, a, b, c] = some ([dst, x, y, w], u) → sized y.toNat → cwBad w.toNat false = false →
      (cwConv w.toNat = true → y.toNat * 8 % tyWidth (cwS w.toNat) = 0 ∧ (rnd = .rsr → s.seedFree = true)) →
      let op := { base 0 x y with ctrl := w, rnd := rnd, sat := sat }
      s.engineMay op = true → exec (.cpy rnd sat d a b (some c)) s = .next (u.engineTook op)) ∧
    (s.operands [⟨d, false⟩, a, b] = some ([dst, x, y], u) →
      (sized y.toNat → s.engineMay { base 0 x y with rnd := rnd, sat := sat } = true →
        exec (.cpy rnd sat d a b none) s = .next (u.engineTook { base 0 x y with rnd := rnd, sat := sat })) ∧
      (sized x.toNat → dst.toNat % 8 = 0 → x.toNat % 8 = 0 → s.engineMay (base 2 y x) = true →
        exec (.cpst d a b) s = .next (u.engineTook (base 2 y x))) ∧
      (sized y.toNat → isOwn x.toNat = true → isOwn dst.toNat = false → s.engineMay (base 3 x y) = true →
        exec (.xput d a b) s = .next (u.engineTook (base 3 x y))) ∧
      (sized y.toNat → isOwn x.toNat = false → isOwn dst.toNat = true → s.engineMay (base 4 x y) = true →
        exec (.xget d a b) s = .next (u.engineTook (base 4 x y))) ∧
      (0 < y.toNat → y.toNat ≤ 2 ^ 20 → dst.toNat % 8 = 0 → isOwn x.toNat = true →
        s.engineMay { base 5 x y with ty := ty } = true →
        exec (.xred ty d a b) s = .next (u.engineTook { base 5 x y with ty := ty })) ∧
      (0 < y.toNat → y.toNat ≤ 2 ^ 20 → x.toNat % 8 = 0 → s.engineMay { base 6 x y with ty := ty } = true →
        exec (.xfin ty d a b) s = .next (u.engineTook { base 6 x y with ty := ty })) ∧
      (s.ordered = true → y.toNat % 8 = 0 → s.cx.ownRange y.toNat 32 = true →
        ∀ n, n = natOfBytes (s.ownBytes s.cx y.toNat 32) →
        let rows := n % 2 ^ 32
        let rowb := n / 2 ^ 32 % 2 ^ 32
        let cw := n / 2 ^ 192
        cwBad cw true = false → 0 < rows → rows < 65536 → sized rowb → sized (rows * rowb) →
        (cwConv cw = true → rowb * 8 % tyWidth (cwS cw) = 0 ∧ (rnd = .rsr → s.seedFree = true)) →
        let op := { base 1 x (BitVec.ofNat 64 rowb) with
          ctrl := BitVec.ofNat 64 cw, rnd := rnd, sat := sat, rows := rows,
          sstr := (BitVec.ofNat 64 (n / 2 ^ 64)).toInt, dstr := (BitVec.ofNat 64 (n / 2 ^ 128)).toInt }
        s.engineMay op = true → exec (.cpys rnd sat d a b) s = .next (u.engineTook op)))

/-- R217, R218, R228: a plain copy between banks lands, while its partition runs or a halt-tree stop has not reached its engine: every destination byte holds what the source byte held, no other byte
of memory changes, the engine goes on to its next operation, and the copy class of the context counts one fewer. Rests in part on the model's own choices:
notes/assumptions/23.md. -/
def Obligations.CopyLands : Prop :=
  ∀ (s : State) (core n k1 k2 : Nat) (op : CopyOp) (rest : List CopyOp) (c : Ctx), s.MemWf → s.ecc = [] → s.atoms = [] →
    (s.core core).copies = op :: rest → s.ctx? op.cid = some c → s.cx.cid ≠ op.cid → (s.part c.id.part).windows = [] →
    op.kind = 0 → op.ctrl = 0 → op.rows = 1 → op.rowb = n → op.landed = [] → op.lost = [] → op.ack = none →
    ((s.part c.id.part).pstate = 0 ∨ (s.part c.id.part).pstate = 4) →
    0 < n → n ≤ 4096 - op.src.toNat % 4096 → n ≤ 4096 - op.dst.toNat % 4096 →
    op.src.toNat + n ≤ 2 ^ 19 → op.dst.toNat + n ≤ 2 ^ 19 →
    c.ownBank op.src.toNat = .ok k1 → c.ownBank op.dst.toNat = .ok k2 → 2 ^ 56 ≤ k1 → 2 ^ 56 ≤ k2 →
    (k1 + n ≤ k2 ∨ k2 + n ≤ k1) →
    ∃ t, exec (.copyLand core) s = .next t ∧
      (∀ j, j < n → t.mem.read (k2 + j) = s.mem.read (k1 + j)) ∧
      (∀ p, p < k2 ∨ k2 + n ≤ p → t.mem.read p = s.mem.read p) ∧
      (t.core core).copies = rest ∧ (t.ctx? op.cid).map (fun d => d.cnt.copy) = some (c.cnt.copy - 1)

/-- R220, R221, R419: the chutes. `fpush` appends to the outbound FIFO and takes a free slot, `fpop` takes the oldest inbound
entry and leaves its slot owed, CHUTE_CREDIT returns an owed slot to the producer (in an OFF cluster it is discarded). Rests in part on the model's own choices:
notes/assumptions/33.md. -/
def Obligations.Chutes : Prop :=
  ∀ (s u : State) (f d k : Nat) (a : Src) (v : VReg),
    let deck := onDeck s.cx.id.core
    let core := if deck then s.cx.id.core else computeCore (clusterOf s.cx.id.core) f
    let ch := (s.core core).chute
    let chute (t : State) (c : Chute) := t.modCore core fun k => { k with chute := c }
    (s.notDrain = true → (deck = true → f = 0) →
      (s.readsV a.n = some (v, u) → s.ordered = true → (s.cluster (clusterOf core)).gate = 0 →
        0 < (if deck then ch.freeDown else ch.freeUp) →
        exec (.fpush f a) s = .next (chute (u.freedV [a])
          (if deck then { ch with down := ch.down ++ [v], freeDown := ch.freeDown - 1 }
           else { ch with up := ch.up ++ [v], freeUp := ch.freeUp - 1 })).gone) ∧
      (∀ rest, (if deck then ch.up else ch.down) = v :: rest → s.roomV d = true →
        exec (.fpop d f) s = .next ((chute s
          (if deck then { ch with up := rest, owedUp := ch.owedUp + 1 }
           else { ch with down := rest, owedDown := ch.owedDown + 1 })).gotV d v).gone) ∧
      (s.roomS d = true →
        exec (.ffree false d f) s = .next (s.gotS d (BitVec.ofNat 64 (if deck then ch.freeDown else ch.freeUp))).gone ∧
        exec (.ffree true d f) s = .next (s.gotS d (BitVec.ofNat 64 (if deck then ch.up else ch.down).length)).gone)) ∧
    (let c := (s.core k).chute;
      (0 < c.owedUp → exec (.chuteCredit k true) s = .next (s.modCore k fun x =>
        { x with chute := { c with owedUp := c.owedUp - 1, freeUp := c.freeUp + 1 } })) ∧
      (0 < c.owedDown → exec (.chuteCredit k false) s = .next (s.modCore k fun x =>
        let f := if (s.cluster (clusterOf k)).gate = 2 then c.freeDown else c.freeDown + 1
        { x with chute := { c with owedDown := c.owedDown - 1, freeDown := f } })))

/-- R225, R226, R227: `msend` sends 56 bytes of the register and the sender's `ctxid` to the context of the receiver word, once
its earlier accesses have their places; delivery, a request across the bridges between (`r`), appends the message to the receiver's queue, to the overflow region where the
queue is full or messages lie in that region, or to its inbox while it is out, and without a receiver records it for the
dead-letter ring; `mrecv` takes the oldest, of the inbox, then the queue, then the region, whose next message joins the queue;
`mpoll` counts them; a sender without room waits, and MSGWAIT_EXPIRY traps it with `MSGFULL`. Rests in part on the model's own
choices: notes/assumptions/25.md. -/
def Obligations.Messages : Prop :=
  ∀ (s t u r : State) (d n cid : Nat) (a b : Src) (rcv : Word) (v : VReg) (m : Msg) (c : Ctx) (bs : List Byte)
    (q : List (List Byte)) (e : Nat × List Byte) (es : List (Nat × List Byte)),
    let moved (p k : Nat) : List (Nat × List Byte) := (s.part p).moved.filter fun x => x.1 = k
    let stand (z : State) (f : Stand → Stand) : State := z.onCx fun c => { c with st := f c.st }
    (s.notDrain = true → s.readsS a.n = some (rcv, t) → t.readsV b.n = some (v, u) →
      let core := (rcv >>> 4).toNat % 4096
      coreExists s.variant core = true → s.cx.cnt.store = 0 → s.placed = true →
      s.openWay (coreStack s.cx.id.core) (coreStack core) = true →
      (s.roomFor s.cx.id.part rcv = true → exec (.msend a b) s = .next (State.gone
        { ((u.freedS [a]).freedV [b]).modCore s.cx.id.core (fun k => { k with sent := k.sent + 1 }) with
          msgs := s.msgs.set s.nextPkt
            { part := s.cx.id.part, src := s.cx.cid, srcCore := s.cx.id.core,
              dst := s.cx.id.part * 2 ^ 24 + (rcv >>> 16).toNat % 2 ^ 24, ctxid := s.cx.ctxid, pc := s.cx.pc, rcv := rcv,
              bytes := ((List.range 56).map fun j => BitVec.ofNat 8 (elem 8 v j)) ++ bytesOfNat 8 s.cx.ctxid.toNat }
          nextPkt := s.nextPkt + 1 })) ∧
      (s.roomFor s.cx.id.part rcv = false → exec (.msend a b) s =
        .next (s.waits (.msgRoom ((s.core s.cx.id.core).cyc + (s.part s.cx.id.part).msgwait) rcv)))) ∧
    (s.msgs.get? n = some m → (s.part m.part).pstate = 0 →
      (∀ x ∈ s.msgs, x.1 < n → x.2.src = m.src → x.2.dst ≠ m.dst) →
      s.openWay (coreStack m.srcCore) (s.msgStack m) = true →
      s.request (coreStack m.srcCore) (s.msgStack m) = some r →
      let off : State := { r with msgs := r.msgs.erase n }
      (s.ctx? m.dst = some c →
        let at_ : State := off.modCore c.id.core fun k => { k with recv := k.recv + 1 }
        let got (f : Stand → Stand) : State := at_.modCtx m.dst fun c => { c with st := f c.st }
        (c.st.out = true → c.st.inbox.length < 64 → exec (.messageDelivery n) s =
          .next (got fun x => { x with inbox := x.inbox ++ [m.bytes] })) ∧
        (c.st.out = false → c.st.queue.length < 16 → moved m.part m.dst = [] → exec (.messageDelivery n) s =
          .next (got fun x => { x with queue := x.queue ++ [m.bytes] })) ∧
        (c.st.out = false → 16 ≤ c.st.queue.length ∨ moved m.part m.dst ≠ [] →
          (s.part m.part).movbase ≠ 0 → (s.part m.part).moved.length < (s.part m.part).movslots →
          exec (.messageDelivery n) s =
            .next (at_.modPart m.part fun p => { p with moved := p.moved ++ [(m.dst, m.bytes)] }))) ∧
      (s.ctx? m.dst = none → ∃ z b, exec (.messageDelivery n) s = .next z ∧ z.msgs = s.msgs.erase n ∧
        z.bads.get? s.nextBad = some b ∧ b.opk = 5 ∧ b.cid = m.src ∧ b.addr = m.rcv ∧ b.ctxid = m.ctxid ∧ b.data = m.bytes ∧
        b.posted = none ∧ z.cx = s.cx ∧ z.others = s.others ∧ z.mem = s.mem)) ∧
    (s.notDrain = true → s.holdsKeys s.cx = false → s.roomV d = true →
      let mine := moved s.cx.id.part s.cx.cid
      let rest (z : State) : State := z.modPart s.cx.id.part fun p => { p with moved := p.moved.erase e }
      (s.cx.st.inbox = bs :: q → exec (.mrecv d) s = .next ((stand s fun x =>
        { x with inbox := q, inboxh := (x.inboxh + 1) % 64 }).gotV d (vOfBytes bs)).gone) ∧
      (s.cx.st.inbox = [] → s.cx.st.queue = bs :: q → mine = [] → exec (.mrecv d) s =
        .next ((stand s fun x => { x with queue := q }).gotV d (vOfBytes bs)).gone) ∧
      (s.cx.st.inbox = [] → s.cx.st.queue = bs :: q → mine = e :: es → s.cx.st.live = true → q.length < 16 →
        exec (.mrecv d) s = .next ((rest (stand s fun x => { x with queue := q ++ [e.2] })).gotV d (vOfBytes bs)).gone) ∧
      (s.cx.st.inbox = [] → s.cx.st.queue = [] → mine = e :: es → exec (.mrecv d) s =
        .next ((rest s).gotV d (vOfBytes e.2)).gone) ∧
      (s.cx.st.inbox = [] → s.cx.st.queue = [] → mine = [] → exec (.mrecv d) s = .next (s.waits .msg))) ∧
    (s.notDrain = true → s.roomS d = true → exec (.mpoll d) s = .next (s.gotS d (BitVec.ofNat 64
      (s.cx.st.inbox.length + s.cx.st.queue.length + (moved s.cx.id.part s.cx.cid).length))).gone) ∧
    (∀ k, s.ctx? cid = some c → c.st.out = false → (s.part c.id.part).pstate = 0 → c.drain = none → c.sup = false →
      c.wait = some (.msgRoom k rcv) → k ≤ (s.core c.id.core).cyc → s.roomFor c.id.part rcv = false →
      exec (.msgwaitExpiry cid) s = .next ((s.checkout cid).inHandler 0x0E (rcv &&& ~~~7#64) c.pc))

/-! ## Event units, keys, windows -/

/-- R209, R340, R341, R343, R344, R346, R347, R348: the barriers of a cluster. `bardef` defines one afresh and keeps its phase; an
arrival that releases, as written or since a `fence` of order `.rel` or `.sc`, waits for the store class and until the earlier
accesses have their places; an arrival counts in the phase, in the next one once the phase has all its arrivals, and the last one completes it where no
engine bytes are owed; `bar` also waits for its phase; `barw` and `barw.t` wait for one; `bartx` expects bytes; `barv` and
`barst` read. Rests in part on the model's own choices: notes/assumptions/25.md. -/
def Obligations.Barriers : Prop :=
  ∀ (s u : State) (rel pd : Bool) (d n cl cid tm : Nat) (a b : Src) (x y : Word) (w : Barrier) (c : Ctx),
    let put (t : State) (z : Barrier) : State := t.modBarrier t.myCluster n fun _ => z
    let unit (op : Nat) : Nat := if op = 0 then 0xFFFFFFFF else 0
    let red (op acc v : Nat) : Nat := if op = 0 then acc &&& v else if op = 1 then acc ||| v
      else if op = 2 then (acc + v) % 2 ^ 64 else (acc + ((List.range 32).filter fun j => v.testBit j).length) % 2 ^ 64
    let next (z : Barrier) : Barrier := { z with
      result := z.acc, ph := (z.ph + 1) % 2 ^ 16, arr := z.early, acc := z.eacc, early := 0, eacc := unit z.op }
    let bad (r : Nat) : Word := BitVec.ofNat 64 (0x0C * 2 ^ 56 + (n % 16 * 16 + r))
    let release := rel = true ∨ s.cx.st.fenced = true
    (s.notDrain = true → s.barrier s.myCluster n = w →
      (s.operands [a] = some ([x], u) → x.toNat < 2 ^ 10 → x.toNat % 256 ≠ 0 → w.state ≠ 2 → w.state ≠ 3 →
        s.barWaited s.myCluster n = false →
        exec (.bardef n a) s = .next (put u { Barrier.undef with
          defd := true, cnt := x.toNat % 256, op := x.toNat / 256, ph := w.ph, acc := unit (x.toNat / 256),
          eacc := unit (x.toNat / 256), grp := some s.cx.id.inst }).gone) ∧
      (w.defd = false → exec (.bar rel n a) s = .next (takeTrap s cILLOP (bad 1)) ∧
        exec (.bararr rel d n a) s = .next (takeTrap s cILLOP (bad 1)) ∧
        exec (.bartx n a) s = .next (takeTrap s cILLOP (bad 1))) ∧
      (w.defd = true → s.holdsKeys s.cx = false → s.operands [a] = some ([x], u) → release →
        let held (z : Wait) : Prop := exec (.bararr rel d n a) s = .next (s.waits z) ∧
          (s.cx.madeArrival n = none → exec (.bar rel n a) s = .next (s.waits z))
        (s.cx.cnt.store ≠ 0 → held (.classes 7 0 7 7 7)) ∧ (s.cx.cnt.store = 0 → s.placed = false → held .faults)) ∧
      (∀ r, w.defd = true → s.cx.madeArrival n = some r →
        (w.done r.phase = true → exec (.bar rel n a) s = .next (s.onCx dropArrival).gone) ∧
        (w.done r.phase = false → s.holdsKeys s.cx = false → exec (.bar rel n a) s = .next (s.waits (.barrier n r.phase none)))) ∧
      (w.defd = true → w.broken = false → w.op ≤ 3 → w.cnt < 256 → w.arr ≤ w.cnt → w.ph < 2 ^ 16 →
        s.holdsKeys s.cx = false → s.operands [a] = some ([x], u) → (release → s.cx.cnt.store = 0 ∧ s.placed = true) →
        let v := x.toNat % 2 ^ 32
        let z := { w with arr := w.arr + 1, acc := red w.op w.acc v }
        let last := w.arr + 1 = w.cnt ∧ w.pend = 0
        (w.arr < w.cnt → u.roomS d = true → exec (.bararr rel d n a) s =
          .next ((put u (if last then next z else z)).gotS d (BitVec.ofNat 64 w.ph)).gone) ∧
        (w.arr = w.cnt → w.early < w.cnt → u.roomS d = true → exec (.bararr rel d n a) s =
          .next ((put u { w with early := w.early + 1, eacc := red w.op w.eacc v }).gotS d
            (BitVec.ofNat 64 ((w.ph + 1) % 2 ^ 16))).gone) ∧
        (w.arr = w.cnt → w.early = w.cnt → exec (.bararr rel d n a) s = .next (s.waits (.early n))) ∧
        (s.cx.st.arrived = [] → w.arr < w.cnt →
          (last → exec (.bar rel n a) s = .next (put u (next z)).gone) ∧
          (¬ last → exec (.bar rel n a) s = .next (((put u z).onCx fun c => { c with
            st := { c.st with arrived := [⟨s.cx.sup, s.cx.pc, s.cx.micro.map (·.upc), n, w.ph⟩] } }).waits (.barrier n w.ph none)))) ∧
        let dd := (w.ph + 2 ^ 16 - x.toNat % 2 ^ 16) % 2 ^ 16
        (1 ≤ dd → dd ≤ 32767 → u.roomS d = true → exec (.barw d n a) s = .next (u.gotS d 0).gone) ∧
        (¬ (1 ≤ dd ∧ dd ≤ 32767) → exec (.barw d n a) s = .next (s.waits (.barrier n (x.toNat % 2 ^ 16) none)))) ∧
      (w.defd = true → s.holdsKeys s.cx = false → s.operands [a, b] = some ([x, y], u) →
        let dd := (w.ph + 2 ^ 16 - x.toNat % 2 ^ 16) % 2 ^ 16
        (1 ≤ dd ∧ dd ≤ 32767 ∨ y.toNat ≤ s.time → u.roomS d = true → exec (.barwT d n a b) s =
          .next (u.gotS d (if 1 ≤ dd ∧ dd ≤ 32767 then 0 else 1)).gone) ∧
        (¬ (1 ≤ dd ∧ dd ≤ 32767) → s.time < y.toNat → exec (.barwT d n a b) s =
          .next (s.waits (.barrier n (x.toNat % 2 ^ 16) (some y.toNat))))) ∧
      (w.defd = true → s.operands [a] = some ([x], u) →
        (x.toNat < 2 ^ 48 → w.pend + x.toNat < 2 ^ 48 →
          exec (.bartx n a) s = .next (put u { w with pend := w.pend + x.toNat }).gone) ∧
        (2 ^ 48 ≤ x.toNat ∨ 2 ^ 48 ≤ w.pend + x.toNat → exec (.bartx n a) s = .next (takeTrap s cILLOP (bad 3)))) ∧
      (s.roomS d = true →
        exec (.barv d n) s = .next (s.gotS d (BitVec.ofNat 64 w.result)).gone ∧
        exec (.barst pd d n) s = .next (s.gotS d (BitVec.ofNat 64 (if pd then w.pend else
          w.ph * 2 ^ 48 + w.arr * 2 ^ 40 + w.early * 2 ^ 32 + w.cnt * 2 ^ 24 + w.op * 2 ^ 16 +
            (if w.defd = false then 0 else if w.broken then 4 else if w.arr = w.cnt then 3
              else if w.arr = 0 then 1 else 2)))).gone)) ∧
    (s.barrier cl n = w → w.defd = true → w.broken = false → w.arr = w.cnt → w.pend = 0 →
      exec (.barrierPhaseComplete cl n) s = .next (s.modBarrier cl n fun _ => next w)) ∧
    (s.ctx? cid = some c → c.st.out = false → (s.part c.id.part).pstate = 0 → tm ≤ s.time →
      c.wait = some (.barrier n d (some tm)) →
      exec (.barrierWaitTimeout cid) s = .next (s.modCtx cid fun c => { c with wait := none }))

/-- R319, R349, R350: the event lines of a cluster, events from other clusters, and timed waits. A firing wakes every context
that waits on the line, or is latched; `evwait` takes a latched firing; an event crosses the bridges to its cluster as a
request (`v`), and one that no line or barrier of its partition can
take is recorded for the dead-letter ring. Rests in part on the model's own choices: notes/assumptions/9.md, 25.md. -/
def Obligations.EventLines : Prop :=
  ∀ (s u v : State) (e n d cid tm : Nat) (a b : Src) (x y : Word) (ev : Event) (c : Ctx),
    let wakes (cl k : Nat) (c : Ctx) : Prop :=
      c.st.live = true ∧ c.st.out = false ∧ clusterOf c.id.core = cl ∧ c.wait = some (.event k)
    let latch (t : State) (cl k : Nat) : State := t.modCluster cl fun u => { u with lines := u.lines ||| (1#32 <<< k) }
    (s.notDrain = true →
      (s.holdsKeys s.cx = false →
        ((s.cluster s.myCluster).lines.getLsbD e = true → exec (.evwait e) s =
          .next (s.modCluster s.myCluster fun u => { u with lines := u.lines &&& ~~~(1#32 <<< e) }).gone) ∧
        ((s.cluster s.myCluster).lines.getLsbD e = false → exec (.evwait e) s = .next (s.waits (.event e)))) ∧
      (s.cx.cnt.store = 0 → s.placed = true → s.cx.wait = none →
        ((∀ c ∈ s.others.vals, ¬ wakes s.myCluster e c) →
          exec (.evsig e) s = .next (latch s.gone s.myCluster e)) ∧
        ((∃ c ∈ s.others.vals, wakes s.myCluster e c) → ∃ t, exec (.evsig e) s = .next t ∧ t.clusters = s.clusters ∧
          ∀ k c, s.others.get? k = some c →
            (wakes s.myCluster e c → t.others.get? k = some { c.advanced (s.nopsOf c) with wait := none }) ∧
            (¬ wakes s.myCluster e c → t.others.get? k = some c))) ∧
      (s.operands [a, b] = some ([x, y], u) → x.toNat < 2 ^ 32 → x.toNat / 2 ^ 21 % 2 ^ 9 = 0 → x.toNat / 2 ^ 12 % 16 = 0 →
        (x.toNat / 2 ^ 31 = 1 → x.toNat / 2 ^ 16 % 32 < 16) → (x.toNat / 2 ^ 30 % 2 = 1 → x.toNat / 2 ^ 31 = 1) →
        coreExists s.variant (x.toNat % 4096) = true → (x.toNat / 2 ^ 30 % 2 = 0 → s.cx.cnt.store = 0 ∧ s.placed = true) →
        s.openWay (coreStack s.cx.id.core) (coreStack (x.toNat % 4096)) = true →
        ∃ t, exec (.evsigRmt a b) s = .next t ∧ t.cx = u.gone.cx ∧ t.events.get? s.nextPkt = some
          { part := s.cx.id.part, src := s.cx.cid, srcCore := s.cx.id.core, cl := clusterOf (x.toNat % 4096),
            barrier := decide (x.toNat / 2 ^ 31 = 1), num := x.toNat / 2 ^ 16 % 32, payload := y.toNat % 2 ^ 32,
            ctxid := s.cx.ctxid, pc := s.cx.pc, target := x }) ∧
      (s.operands [a] = some ([x], u) →
        (x.toNat ≤ s.time → u.roomS d = true → exec (.tmwait d a) s =
          .next ({ u.gotS d (BitVec.ofNat 64 s.time) with timeRead := true } : State).gone) ∧
        (s.time < x.toNat → exec (.tmwait d a) s = .next (s.waits (.time x.toNat))))) ∧
    (s.events.get? n = some ev → (s.part ev.part).pstate = 0 → s.openWay (coreStack ev.srcCore) (ev.cl / 96) = true →
      s.request (coreStack ev.srcCore) (ev.cl / 96) = some v →
      let w := s.barrier ev.cl ev.num
      (s.partOfCluster ev.cl = some ev.part → (s.cluster ev.cl).gate ≠ 2 →
        (ev.barrier = false → (∀ c ∈ s.ctxs, ¬ wakes ev.cl ev.num c) → ∃ t, exec (.remoteEventArrival n) s = .next t ∧
          t.events = s.events.erase n ∧ t.clusters = (latch s ev.cl ev.num).clusters) ∧
        (ev.barrier = true → w.defd = true → w.full = true → exec (.remoteEventArrival n) s = .next s) ∧
        (ev.barrier = true → w.defd = true → w.full = false → ∃ t, exec (.remoteEventArrival n) s = .next t ∧
          t.events = s.events.erase n ∧ t.barrier ev.cl ev.num = (w.arrive ev.payload).1)) ∧
      (s.partOfCluster ev.cl ≠ some ev.part ∨ ev.barrier = true ∧ w.defd = false ∨ (s.cluster ev.cl).gate = 2 →
        ∃ t r, exec (.remoteEventArrival n) s = .next t ∧ t.bads.get? s.nextBad = some r ∧ r.opk = 5 ∧
          r.ctxid = ev.ctxid ∧ r.addr = ev.target ∧ r.posted = none ∧
          r.cause = if s.partOfCluster ev.cl = some ev.part ∧ (s.cluster ev.cl).gate = 2 then 4 else 2)) ∧
    (s.ctx? cid = some c → c.st.out = false → (s.part c.id.part).pstate = 0 →
      (∀ w, c.wait = some w → (∀ k, w ≠ .event k) → (∀ k r, w = .msgRoom k r → s.roomFor c.id.part r = true) →
        (∀ k p l, w = .barrier k p l →
          (s.barrier (clusterOf c.id.core) k).done p = true ∨ ∃ m, l = some m ∧ m ≤ s.time) →
        (∀ k, w = .early k → (s.barrier (clusterOf c.id.core) k).full = false) → (∀ m, w = .time m → m ≤ s.time) →
        (∀ l k, w = .link l k → s.crosses l = true ∨ s.carries l = false) →
        exec (.contextWaitEnd cid) s = .next (s.modCtx cid fun c => { c with wait := none })) ∧
      (c.wait = some (.time tm) → tm ≤ s.time →
        exec (.timedWaitWake cid) s = .next (s.modCtx cid fun c => { c with wait := none })) ∧
      (c.wait = some (.time tm) → s.time < tm → exec (.timedWaitWake cid) s = .next s))

/-- R296, R297, R298, R303, R304, R305, R306, R432: keys. A key maps to the slot its hash gives; `keyq` reads a slot; `keyrel` marks
a key released and sends the slot's release once no other key of the instance maps to it; the release takes the instance out
of the slot when it arrives, and the dispatchers of the stack that have picked nothing for 3 cycles pick with it; a key holder
that would wait for another takes `KEYWAIT`. Rests in part on the model's own choices: notes/assumptions/17.md, 26.md. -/
def Obligations.Keys : Prop :=
  ∀ (s u : State) (d idx n e sl : Nat) (a : Src) (x : Word) (i : Inst) (nd : Node) (k : KeySpec),
    let slot (key : Nat) : Nat := s.serviceCluster s.cx.id.part / 96 * 65536 + key * 0x9E3779B1 % 2 ^ 32 / 2 ^ 16
    let key : Nat := ((k.base + k.xstr * i.x + k.ystr * i.y : Int) % 2 ^ 32).toNat
    let word (j : Nat) (held : Bool) : Word :=
      let z := s.keySlot j
      BitVec.ofNat 64 (j % 65536 * 2 ^ 24 + (if held then 2 ^ 16 else 0) + z.shared.length % 256 * 2 ^ 8 +
        (if z.excl.isSome then 8 else 0) +
        (if z.owner.isSome then 3 else if z.excl.isSome then 2 else if z.shared = [] then 0 else 1))
    (s.notDrain = true →
      (s.insts.get? s.cx.id.inst = some i → s.nodeOf i = some nd → nd.keys[idx]? = some k → s.instPart i = s.cx.id.part →
        (s.roomS d = true → exec (.keyqOwn d idx) s = .next (s.gotS d (word (slot key) (decide (idx ∈ i.held)))).gone) ∧
        (s.cx.cnt.store = 0 → s.placed = true → idx ∈ i.held → (∀ j ∈ i.held.erase idx, s.slotOfKey i j ≠ some (slot key)) →
          ∃ t, exec (.keyrel idx) s = .next t ∧ t.krels.get? s.nextPkt = some (s.cx.id.inst, slot key) ∧
            t.insts.get? s.cx.id.inst = some { i with held := i.held.erase idx } ∧ t.keytab = s.keytab ∧ t.cx = s.gone.cx) ∧
        (s.cx.cnt.store = 0 → s.placed = true → idx ∈ i.held → (∃ j ∈ i.held.erase idx, s.slotOfKey i j = some (slot key)) →
          ∃ t, exec (.keyrel idx) s = .next t ∧ t.krels = s.krels ∧
            t.insts.get? s.cx.id.inst = some { i with held := i.held.erase idx }) ∧
        (s.cx.cnt.store = 0 → s.placed = true → idx ∉ i.held → exec (.keyrel idx) s = .next s.gone)) ∧
      (s.operands [a] = some ([x], u) → u.roomS d = true →
        exec (.keyqId d a) s = .next (u.gotS d (word (slot (x.toNat % 2 ^ 32)) false)).gone) ∧
      (s.insts.get? s.cx.id.inst = some i → i.held ≠ [] →
        let counted := s.modPart s.cx.id.part fun p => { p with kwtrap := (p.kwtrap + 1) % 2 ^ 64 }
        exec (.evwait e) s = .next (takeTrap counted cKEYWAIT (opWord 8 (.evwait e))) ∧
        exec (.mrecv d) s = .next (takeTrap counted cKEYWAIT (opWord 7 (.mrecv d))))) ∧
    (∀ m, s.krels.get? n = some (m, sl) →
      let off : State := { s with
        keytab := s.keytab.set sl { s.keySlot sl with
          shared := (s.keySlot sl).shared.erase m
          excl := if (s.keySlot sl).excl = some m then none else (s.keySlot sl).excl }
        krels := s.krels.erase n }
      let idle := (s.parts.filter fun p => 4 ≤ p.2.idle && decide (s.serviceCluster p.1 / 96 = sl / 65536)).map (·.1)
      exec (.keyReleaseArrival n) s = .next (idle.foldl State.pick off) ∧
      (idle = [] → exec (.keyReleaseArrival n) s = .next off))

/-- R247, R354, R355, R361, R363, R364, R365, R366: windows and translations. `shadow` and `snap.take` open the lowest closed window
on the ranges of their descriptor, or answer all ones where all sixteen are open; `publish.swap`, `publish.drop` and
`snap.drop` close a window, and no cluster then holds a translation of its ranges; `tlbinv` drops translations of the
partition, the walk caches' entries on the way to them and the walks that have found, or look for, the page; the end of a walk
caches its translation, where its frame lies in memory. Rests in part on the model's own choices: notes/assumptions/30.md. -/
def Obligations.Windows : Prop :=
  ∀ (s t v : State) (d n vp cl : Nat) (a : Src) (x : Word) (w : Window) (pte : Pte),
    let part := s.cx.id.part
    let covers (e : Nat × Nat × Pte) (page count : Nat) : Prop :=
      e.1 = part ∧ e.2.1 < page + count ∧ page < e.2.1 + e.2.2.units
    let closed (z : State) : Prop := (z.part part).windows.get? n = none ∧
      (∀ m, m ≠ n → (z.part part).windows.get? m = (s.part part).windows.get? m) ∧
      ∀ k e, e ∈ (z.cluster k).tlb → ¬ covers e (w.base / 65536) w.npages ∧ ¬ covers e (w.spare / 65536) w.npages
    (s.notDrain = true → s.readsS a.n = some (x, t) →
      (∀ b, b = natOfBytes (s.ownBytes s.cx x.toNat 32) → x.toNat % 8 = 0 → s.cx.ownRange x.toNat 32 = true →
        s.ordered = true → b < 2 ^ 160 → 0 < b / 2 ^ 128 → b / 2 ^ 128 ≤ 4096 → b % 2 ^ 64 % 65536 = 0 →
        b / 2 ^ 64 % 2 ^ 64 % 65536 = 0 →
        let desc : WinDesc := ⟨b % 2 ^ 64, b / 2 ^ 64 % 2 ^ 64, b / 2 ^ 128⟩
        let opened : State := (v.freedS [a]).modPart part fun p => { p with windows := p.windows.set n w }
        (v.freedS [a]).roomS d = true →
        ((s.part part).freeWindow = some n → newWindow false desc t = .ok (w, v) →
          exec (.shadow d a) s = .next ((opened.renewFrames w.spares).gotS d (BitVec.ofNat 64 n)).gone ∧
          (opened.expanded = [] → (∀ p ∈ w.spares, p.cmp = false) → opened.renewFrames w.spares = opened)) ∧
        ((s.part part).freeWindow = some n → newWindow true desc t = .ok (w, v) →
          exec (.snapTake d a) s = .next ((opened.takeSnapshot w).gotS d (BitVec.ofNat 64 n)).gone ∧
          (opened.expanded = [] → opened.poison = [] → (∀ p ∈ w.frames ++ w.spares, p.cmp = false) →
            opened.takeSnapshot w = opened.copyFrames (w.frames.zip w.spares))) ∧
        ((s.part part).freeWindow = none → newWindow false desc t = .ok (w, v) →
          exec (.shadow d a) s = .next ((v.freedS [a]).gotS d (BitVec.allOnes 64)).gone)) ∧
      (x = BitVec.ofNat 64 n → n < 16 → (s.part part).windows.get? n = some w → w.base % 65536 = 0 → w.spare % 65536 = 0 →
        (w.snap = false → s.cx.cnt.copy = 0 → (∃ z, exec (.publishSwap a) s = .next z ∧ closed z) ∧
          ∃ z, exec (.publishDrop a) s = .next z ∧ closed z) ∧
        (w.snap = true → ∃ z, exec (.snapDrop a) s = .next z ∧ closed z))) ∧
    (s.notDrain = true → s.cx.sup = true → s.cx.cnt.store = 0 →
      (s.operands [a] = some ([x], t) → ∃ z, exec (.tlbinvPage a) s = .next z ∧ z.cx = { t.gone.cx with l1 := z.cx.l1 } ∧
        (∀ k e, e ∈ (z.cluster k).tlb ↔ e ∈ (s.cluster k).tlb ∧ ¬ covers e (x.toNat / 65536) 1) ∧
        (∀ w ∈ z.walking, w.part = part → match w.pte with
          | some p => ¬ covers (part, w.vp - w.vp % p.units, p) (x.toNat / 65536) 1
          | none => w.vp ≠ x.toNat / 65536) ∧
        ∀ k y, y ∈ z.walkCache.getD k [] → y.part = part →
          y.idx ≠ x.toNat / (if y.level = 1 then 2 ^ 25 else 2 ^ 38)) ∧
      ∃ z, exec .tlbinvAll s = .next z ∧ z.cx = { s.gone.cx with l1 := z.cx.l1 } ∧
        (∀ k e, e ∈ (z.cluster k).tlb ↔ e ∈ (s.cluster k).tlb ∧ e.1 ≠ part) ∧ (∀ w ∈ z.walking, w.part ≠ part) ∧
        ∀ k y, y ∈ z.walkCache.getD k [] → y.part ≠ part) ∧
    (s.walking = [⟨cl, n, vp, some pte, 0⟩] →
      (pte.sound s.variant vp = true → (s.cluster cl).tlb.length ≤ 512 →
        ∃ z, exec (.tlbWalkComplete n vp) s = .next z ∧ z.walking = [] ∧ (n, vp - vp % pte.units, pte) ∈ (z.cluster cl).tlb ∧
          (z.cluster cl).tlb.length ≤ 512) ∧
      (pte.sound s.variant vp = false → exec (.tlbWalkComplete n vp) s = .next { s with walking := [] }))

/-! ## Heads -/

/-- R71, R371, R372, R376, R378, R379, R381, R383, R384, R385, R386, R387: the head instructions. `tr` is the physical track
of head `h`, `T` its port, `H` the record. A context that does not own the port asks for it, in order, and waits where it needs
it. That an operand the spec refuses traps with `ILLOP` also where the track is lost is the choice of notes/assumptions/17.md.
Rests in part on the model's own choices: notes/assumptions/17.md, 29.md. -/
def Obligations.HeadInstructions : Prop :=
  ∀ (s t u : State) (d h q tr : Nat) (dir : SeekDir) (a : Src) (x : Word) (v : VReg),
    onDeck s.cx.id.core = true → s.notDrain = true → s.cx.st.live = true → s.trackOf s.cx h = some tr →
    s.streamOn s.cx.id.core s.cx.cid h = none →
    let core := s.cx.id.core
    let T := s.track core tr
    let H := s.cx.head h
    let head (z : State) (f : Head → Head) : State := z.onCx fun c => c.modHead h f
    let bad (r : Nat) : Word := BitVec.ofNat 64 (0x0E * 2 ^ 56 + (h * 256 + r))
    let under := ((H.pos + T.off : Int) % 4096).toNat
    let next := ((H.pos + H.stride : Int) % 4096).toNat
    let owns := decide (T.owner = some s.cx.cid)
    let asked (z : State) : State := if owns then z else z.askPort tr
    let seeks (z : State) (goal : Nat) (dir : SeekDir) : State :=
      let back := decide ((T.ppos + 4096 - goal) % 4096 < (goal + 4096 - T.ppos) % 4096)
      (asked (head z fun y => { y with
        pv := true, pend := goal, bwd := match dir with
          | .fwd => !owns && back
          | .bwd => owns || back
          | .shortest => back })).counted 4
    let moved (z : State) (r : Regs) : Prop := z.cx.r = r ∧ (z.cx.head h).pos = next ∧ (z.track core tr).ppos = next ∧
      z.cx.c = s.cx.c ∧ (T.holder = some s.cx.cid → (z.track core tr).hleft = T.hleft - 1)
    (s.roomS d = true → T.lost = false → exec (.hpos d h) s = .next (s.gotS d (BitVec.ofNat 64
      ((if H.pv then 2 ^ 52 else 0) + H.pend * 2 ^ 40 + (if T.owner = some s.cx.cid then 2 ^ 39 else 0) + H.err * 2 ^ 37 +
        H.mark * 2 ^ 25 + (if H.bwd then 2 ^ 24 else 0) + (H.stride % 4096).toNat * 2 ^ 12 + H.pos))).gone) ∧
    (s.operands [a] = some ([x], u) →
      (-2048 ≤ x.toInt → x.toInt ≤ 2047 → T.lost = false →
        exec (.hstride h a) s = .next (head u fun y => { y with stride := x.toInt }).gone) ∧
      (x.toInt < -2048 ∨ 2047 < x.toInt → exec (.hstride h a) s = .next (takeTrap s cILLOP (bad 2))) ∧
      (4096 ≤ x.toNat → exec (.hseek dir h a) s = .next (takeTrap s cILLOP (bad 1))) ∧
      (x.toNat < 4096 → T.lost = false → H.pv = false → s.room 4 = true →
        exec (.hseek dir h a) s = .next (seeks u x.toNat dir).gone) ∧
      (let r := s.ring core q
        let put (z : State) (fill : Bool) : State := (asked ((if owns && H.pv then z.endSeek s.cx.cid h tr else z).modCore core
          fun k => { k with
            streams := k.streams ++ [⟨s.cx.cid, h, fill, q, x.toNat, if s.cx.c.mode.getLsbD 1 then 1 else 0, owns⟩] })).counted 4
        0 < x.toNat → x.toNat ≤ 4096 → r.defd = true → r.entryb = 128 → (∀ y ∈ (s.core core).streams, y.q ≠ q) →
        T.lost = false → s.room 4 = true →
        exec (.hburst h q a) s = .next (put u false).gone ∧
        (r.engine = 0 → exec (.hfill h q a) s = .next ((put u true).modRing core q fun r => { r with engine := 2 }).gone))) ∧
    (T.lost = false → H.pv = false → exec (.hmark h) s = .next (head s fun y => { y with mark := y.pos }).gone) ∧
    (T.lost = false → H.pv = false → s.room 4 = true → exec (.hrew h) s = .next (seeks s H.mark .shortest).gone) ∧
    (T.owner = some s.cx.cid → T.lost = false → H.pv = false →
      (exec (.htake h) s = .next (s.modTrack core tr fun y => { y with
        holder := some s.cx.cid, hleft := s.cx.c.hold.toNat % 8192, since := (s.core core).cyc }).gone) ∧
      (T.slip = 0 → T.slipAt H.pos = 0 → ∃ z, exec (.hrealign h) s = .next z ∧ z.track core tr = T ∧ z.cx = s.gone.cx) ∧
      (T.slip ≠ 0 → (T.shifted T.slip).slipAt H.pos = 0 → ∃ z, exec (.hrealign h) s = .next z ∧
        z.track core tr = { T with off := (T.off - T.slip + T.stick) % 4096, slip := 0, stick := 0, ppos := H.pos } ∧ (z.cx.head h).err = 1 ∧
        (z.cx.head h).bwd = decide (0 < T.slip)) ∧
      (T.slipAt H.pos = 0 → s.ordered = true →
        (under ∉ T.bad → s.roomV d = true → ∃ z w, exec (.hrd d h) s = .next z ∧ moved z (s.gotV d w).cx.r ∧ z.mem = s.mem ∧
          ∀ j, j < 128 → elem 8 w j = (s.mem.read (trackKey core tr under j)).toNat) ∧
        (s.MemWf → s.readsV a.n = some (v, t) → ∃ z, exec (.hwr h a) s = .next z ∧ moved z (t.freedV [a]).cx.r ∧
          (∀ j, j < 128 → z.mem.read (trackKey core tr under j) = BitVec.ofNat 8 (elem 8 v j)) ∧
          (∀ p, p < trackKey core tr under 0 ∨ trackKey core tr under 128 ≤ p → z.mem.read p = s.mem.read p) ∧
          (z.track core tr).postmark under = H.pos % 16 ∧ under ∉ (z.track core tr).bad)) ∧
      (T.slipAt H.pos ≠ 0 → s.ordered = true → s.cx.c.mode.getLsbD 1 = false → exec (.hrd d h) s = .next (takeTrap
        (head (s.modTrack core tr fun y => { y with slip := T.slipAt H.pos }) fun y => { y with err := 2 })
        cSHIFTERR (BitVec.ofNat 64 (H.pos * 2 ^ 16 + h * 2 ^ 8 + (T.slipAt H.pos % 16).toNat))))) ∧
    (T.owner ≠ some s.cx.cid → T.lost = false → s.portFree core tr s.cx.cid = false →
      exec (.htake h) s = .next ((s.askPort tr).waits (.head h)) ∧ exec (.hrealign h) s = .next ((s.askPort tr).waits (.head h)) ∧
      (s.ordered = true → exec (.hrd d h) s = .next ((s.askPort tr).waits (.head h)))) ∧
    (T.holder = some s.cx.cid → T.lost = false → H.pv = false → ∃ z, exec (.hgive h) s = .next z ∧ z.cx = s.gone.cx ∧
      z.track core tr = { T with holder := none, hleft := 0 }) ∧
    (T.lost = true → ∀ i ∈ [Instr.hrd d h, .htake h, .hrew h, .hrealign h, .hpos d h, .hgive h, .hmark h], exec i s =
      .next (takeTrap (head s fun y => { y with err := 3 }) cHEADLOST (BitVec.ofNat 64 (H.pos * 2 ^ 16 + h * 2 ^ 8))))

/-- R370, R372, R374, R375, R383, R388: what tracks do beside the instructions. A waiting head takes a free port and its seek
completes there; on a lost track no seek completes and a stream stops; an idle hold lapses; a stream moves one word and its
ring's counter; the map and the re-index. Rests in part on the model's own choices:
notes/assumptions/29.md. -/
def Obligations.HeadEvents : Prop :=
  ∀ (s : State) (core tr cid h o v : Nat) (c : Ctx) (x : Stream),
    let T := s.track core tr
    let H := c.head h
    let sought (z : State) : Prop := (z.track core tr).ppos = H.pend ∧ ∃ c', z.ctx? cid = some c' ∧
      (c'.head h).pos = H.pend ∧ (c'.head h).pv = false ∧ c'.cnt.head = c.cnt.head - 1 ∧ c'.r = c.r
    (s.ctx? cid = some c → c.cid = cid → c.id.core = core → s.trackOf c h = some tr → H.pv = true →
      c.st.out = false → (s.part c.id.part).pstate = 0 →
      (T.lost = false → s.streamOn core cid h = none →
        s.portFree core tr cid = true → T.owner ≠ some cid →
        ∃ z, exec (.portTake cid h) s = .next z ∧ sought z ∧ (z.track core tr).owner = some cid) ∧
      (T.lost = false → T.owner = some cid → s.streamHolds core tr = none →
        ∃ z, exec (.seekComplete cid h) s = .next z ∧ sought z) ∧
      (T.lost = true → exec (.seekComplete cid h) s = .next s)) ∧
    (T.lost = true → s.streamHolds core tr = some x → s.ctx? x.cid = some c → c.cid = x.cid → (s.part c.id.part).pstate = 0 →
      ∃ z c', exec (.headStreamWord core tr) s = .next z ∧ z.track core tr = T ∧ z.streamOn core x.cid x.head = none ∧
        z.ctx? x.cid = some c' ∧ (c'.head x.head).err = 3 ∧ c'.cnt.head = c.cnt.head - 1 ∧ z.mem = s.mem ∧
        c'.st.defer = c.st.defer ++ [⟨cHEADLOST, BitVec.ofNat 64 (2 ^ 63 + (c.head x.head).pos * 2 ^ 16 + x.head * 2 ^ 8), none⟩]) ∧
    (T.holder = some o → s.ctx? o = some c → 16 * c.c.hold.toNat ≤ (s.core core).cyc - T.since →
      exec (.holdLapse core tr) s = .next (s.modTrack core tr fun y => { y with holder := none, hleft := 0 })) ∧
    (s.streamHolds core tr = some x → s.ctx? x.cid = some c → c.cid = x.cid → c.id.core = core →
      s.trackOf c x.head = some tr → (s.part c.id.part).pstate = 0 → s.atoms = [] → T.lost = false →
      T.slipAt (c.head x.head).pos = 0 → s.MemWf →
      let r := s.ring core x.q
      let under := (((c.head x.head).pos + T.off : Int) % 4096).toNat
      let went (z : State) : Prop := (z.track core tr).ppos = (((c.head x.head).pos + (c.head x.head).stride : Int) % 4096).toNat ∧
        ∃ c', z.ctx? x.cid = some c' ∧ (c'.head x.head).pos = (z.track core tr).ppos ∧
          c'.cnt.head = if x.left ≤ 1 then c.cnt.head - 1 else c.cnt.head
      (x.fill = false → (r.rsv + 2 ^ 32 - r.cons % 2 ^ 32) % 2 ^ 32 < 2 ^ r.log2n → under ∉ T.bad →
        ∃ z, exec (.headStreamWord core tr) s = .next z ∧ went z ∧
          z.ring core x.q = ({ r with rsv := (r.rsv + 1) % 2 ^ 32 } : Ring).publish r.rsv 1 ∧
          z.mem = (s.putSlot core r r.rsv (s.mem.bytes (trackKey core tr under 0) 128)).mem) ∧
      (x.fill = true → (r.prod + 2 ^ 32 - r.cons % 2 ^ 32) % 2 ^ 32 ≠ 0 →
        ∃ z, exec (.headStreamWord core tr) s = .next z ∧ went z ∧
          (z.ring core x.q).cons = (r.cons + 1) % 2 ^ 32 ∧
          (∀ j, j < 128 → z.mem.read (trackKey core tr under j) = s.mem.read (r.key core r.cons j)) ∧
          ∀ p, p < trackKey core tr under 0 ∨ trackKey core tr under 128 ≤ p → z.mem.read p = s.mem.read p)) ∧
    (exec (.trackMapWrite (o + 1) core tr v) s = .next s) ∧
    (onDeck core = true → coreExists s.variant core = true → tr < 16 → v < 2 ^ 16 → v / 16 % 16 = 0 →
      let same := v / 2 ^ 14 % 4 = T.entry / 2 ^ 14 % 4 ∧ v % 4096 = T.entry % 4096
      (same → T.suspect = true → v.testBit 13 = false →
        exec (.trackMapWrite 0 core tr v) s = .next (s.modTrack core tr fun y => { y with ridx := true })) ∧
      (same → v.testBit 13 = true →
        exec (.trackMapWrite 0 core tr v) s = .next (s.modTrack core tr fun y => { y with suspect := true })) ∧
      (¬ same → T.inst = none → v.testBit 14 = false → T.common = false → exec (.trackMapWrite 0 core tr v) s =
        .next (s.modTrack core tr fun y => { y with
          v := v.testBit 15, common := false, suspect := T.suspect || v.testBit 13, hidx := v / 256 % 16, part := v % 16,
          ridx := T.ridx || (T.suspect && !v.testBit 13) }))) ∧
    (T.ridx = true → ∃ z p, exec (.reindexDone core tr) s = .next z ∧ z.mem = s.mem ∧ p < 4096 ∧ z.track core tr = { T with
      ridx := false, suspect := false, slip := 0, off := 0, marks := [], ppos := p })

/-! ## Matrix engine -/

/-- R178, R179, R181, R184, R185, R186, R188, R189, R190, R191, R192, R196: the instructions of page 6 at issue. A binding
takes its rings for the engine; requests, tile operations, drains and conversions join the context's binding or its core's
queue and count in the matrix class; `mxstat` reads; the instructions of a drain handler read and give its row and end its
run. That an unassigned tile is reported before an unbound one is the choice of notes/assumptions/17.md. Rests in part on the model's own choices: notes/assumptions/17.md, 19.md, 22.md. -/
def Obligations.MatrixInstructions : Prop :=
  ∀ (s t u : State) (d n : Nat) (keep drop : Bool) (fmt : MFmt) (a e : Src) (c : Option Src) (x y w h : Word) (l : List Word)
    (v : VReg) (b : Binding) (run : Drain) (owner : Ctx), onDeck s.cx.id.core = true →
    let core := s.cx.id.core
    let fault (reason : Nat) : Word := BitVec.ofNat 64 (reason * 2 ^ 48 + d * 2 ^ 32)
    let sel := s.cx.c.mode.toNat / 4 % 4
    let queue (z : State) (kind tile : Nat) (fmt : MFmt) (dst src : Word) : State :=
      ((z.modCore core fun k => { k with mops := k.mops ++ [⟨s.cx.cid, kind, tile, fmt, src, dst, sel, true, none, []⟩] }).counted 3).gone
    let rings (w : Nat) := ringsOf w (corePos core)
    let ask (z : State) (r : Req) : State :=
      ((z.onCx fun c => c.modBind d fun b => { b with reqs := b.reqs ++ [r] }).counted 3).gone
    (s.notDrain = true →
      (s.operands ([a, e] ++ c.toList) = some (w :: h :: l, u) → bwBad w.toNat = false → s.cx.hasTile d = true →
        s.cx.binds.get? d = none → (bwGang w.toNat = true → bwAuto w.toNat = false ∧ s.gangedOn core = false) →
        (∀ r ∈ rings w.toNat, let q := s.ring core r.1
          q.defd = true ∧ q.engine = 0 ∧ q.entryb = r.2.1 ∧ (s.ringRole core q = 2 ∨ r.2.2 = true ∧ s.ringRole core q = 0)) →
        ∃ z, exec (.mxbind d a e c) s = .next z ∧ z.cx.r = u.cx.r ∧ z.mem = s.mem ∧
          z.cx.binds.get? d = some ⟨w, h, l.headD 0, sel, 0, [], 0, none, none⟩ ∧
          (∀ r ∈ rings w.toNat, (z.ring core r.1).engine = 1) ∧
          let behind := s.tileWaits core s.cx.cid d
          (∀ j, j < 1024 → z.cx.tile d j = if bwZero w.toNat && !behind then 0 else s.cx.tile d j) ∧
          (z.core core).mops = (s.core core).mops ++
            if bwZero w.toNat && behind then [⟨s.cx.cid, 0, d, .bf16, 0, 0, 0, false, none, []⟩] else []) ∧
      (s.cx.hasTile d = false → ∀ i ∈ [Instr.mxunbind d, .mx d n, .mxzero d, .mxdrain keep d],
        exec i s = .next (takeTrap s cMXFAULT (fault 1))) ∧
      (s.cx.hasTile d = true → s.cx.binds.get? d = none → ∀ i ∈ [Instr.mxunbind d, .mx d n, .mxdrain keep d],
        exec i s = .next (takeTrap s cMXFAULT (fault 2))) ∧
      (s.cx.hasTile d = true → s.cx.binds.get? d = some b →
        (bwAuto b.w = false → bwGang b.w = false → b.st ≠ 3 → s.room 3 = true →
          exec (.mx d n) s = .next (ask s ⟨n, none, [], false, []⟩)) ∧
        (b.st ≠ 3 → s.room 3 = true →
          exec (.mxdrain keep d) s = .next (queue s (if keep then 5 else 6) d .bf16 0 0)) ∧
        (b.st = 3 → ∀ i ∈ [Instr.mxdrain keep d], exec i s = .next (takeTrap s cMXFAULT (fault 10))) ∧
        (s.cx.st.live = true → b.st = 3 ∨ b.st = 0 ∧ b.reqs = [] ∧ b.gang = none ∧ s.drainWaits core s.cx.cid d = false →
          ∃ z, exec (.mxunbind d) s = .next z ∧ z.cx.binds.get? d = none ∧ z.cx.r = s.cx.r ∧
            ∀ r ∈ rings b.w, (z.ring core r.1).engine = 0) ∧
        (b.st = 1 ∨ b.st = 2 → exec (.mxunbind d) s = .next (s.waits (.tile d))) ∧
        (s.operands [a] = some ([x], u) → x.toNat < 2 ^ 12 → s.room 3 = true →
          (s.barrier s.myCluster (x.toNat / 16 % 16)).defd = true → bwGang b.w = true → bwLead b.w = corePos core →
          x.toNat.testBit (corePos core) = true →
          (∀ p ∈ positions (x.toNat % 16), ∃ m k, s.gangMember (computeCore s.myCluster p) d (corePos core) = some m ∧
            m.binds.get? d = some k ∧ k.st ≠ 3) →
          exec (.mxg d a) s =
            .next (ask u ⟨x.toNat / 2 ^ 8 % 16 + 1, some (x.toNat % 16, x.toNat / 16 % 16), [], false, []⟩))) ∧
      (s.cx.hasTile d = true → s.room 3 = true →
        exec (.mxzero d) s = .next (queue s 0 d .bf16 0 0) ∧
        (s.operands [a] = some ([x], u) → x.toNat % 128 = 0 → s.cx.ownRange x.toNat 10240 = true →
          exec (.mxst d a) s = .next (queue u 2 d .bf16 x 0) ∧
          (s.ordered = true → exec (.mxld d a) s = .next (queue u 1 d .bf16 0 x)))) ∧
      (s.operands [a, e] = some ([x, y], u) → s.room 3 = true → s.ordered = true →
        (y.toNat % 128 = 0 → (fmt = .bf16 → x.toNat % 2 = 0) → s.cx.ownRange x.toNat (32 * mRowBytes fmt) = true →
          s.cx.ownRange y.toNat (imageBytes fmt) = true → exec (.plane fmt e a) s = .next (queue u 3 0 fmt y x)) ∧
        (x.toNat % 128 = 0 → (fmt = .bf16 → y.toNat % 2 = 0) → s.cx.ownRange y.toNat (32 * mRowBytes fmt) = true →
          s.cx.ownRange x.toNat (imageBytes fmt) = true → exec (.unplane fmt e a) s = .next (queue u 4 0 fmt y x))) ∧
      (s.roomS d = true →
        exec (.mxstat .cnt d n) s = .next (s.gotS d (s.core core).assay).gone ∧
        (s.cx.hasTile n = true →
          let word := BitVec.ofNat 64 ((match s.cx.binds.get? n with | none => 0 | some b => b.st + 1) * 2 ^ 40 +
            s.cx.tileLast.getD n 0 * 2 ^ 32 + s.cx.tileRows.getD n 0)
          exec (.mxstat .rd d n) s = .next (s.gotS d word).gone ∧
          ∃ z, exec (.mxstat .clr d n) s = .next z ∧ z.cx.r = (s.gotS d word).cx.r ∧ z.cx.tileRows.get? n = none ∧
            ∀ b, s.cx.binds.get? n = some b →
              z.cx.binds.get? n = some { b with st := if b.st = 3 then (if b.drainDue then 2 else 0) else b.st })) ∧
      (∀ i ∈ [Instr.drrow d, .drput a, .drdone drop], exec i s = .next (takeTrap s cILLOP (BitVec.ofNat 64 (5 * 2 ^ 56))))) ∧
    (s.cx.drain = some run →
      (s.readsV a.n = some (v, t) → exec (.drput a) s =
        .next ((t.freedV [a]).onCx fun c => { c with drain := some { run with put := some v } }).gone) ∧
      (s.cx.cnt.load = 0 → s.cx.cnt.store = 0 → exec (.drdone drop) s =
        .next (s.onCx fun c => { c with drain := some { run with done := some (!drop) } }).gone) ∧
      (s.ctx? run.owner = some owner → s.roomV d = true → ∃ z w, exec (.drrow d) s = .next z ∧ z.cx.r = (s.gotV d w).cx.r ∧
        ∀ j, j < 32 → elem 32 w j =
          let val := (decFa80 (owner.tile run.tile (32 * run.row + j))).1
          (if run.accf = 2 then (drainI32 val).1 else (drainElem 1 val).1) % 2 ^ 32))

/-- R98, R179, R182, R186, R187, R188, R189, R190, R192, R193, R194, R195: what the matrix engine does beside the
instructions. A firing of the binding that became ready first starts with its ring entries, which go back to their producers
once they are read; it ends with its rows, status and traps; an `mxg` makes its arrivals one by one; a row of a drain leaves,
its flags set when the drain ends; queued operations take effect in the order of their tile. Rests in part on the model's own
choices: notes/assumptions/19.md, 22.md. -/
def Obligations.MatrixEvents : Prop :=
  ∀ (s : State) (core cid t bad p n : Nat) (c x : Ctx) (b : Binding) (f : Firing) (d : MDrain) (rest : List MDrain)
    (run : Drain) (m : MatOp) (ops : List MatOp) (r : Req) (reqs : List Req) (mask bar : Nat) (g : Gang) (gs : List Gang)
    (left : List (Nat × Nat)),
    let bind (z : State) (n t : Nat) : Option Binding := (z.ctx? n).bind fun c => c.binds.get? t
    let first (c : Ctx) (b : Binding) : Prop := (s.core c.id.core).firing = none ∧ ∃ k, b.ready = some k ∧
      ∀ y ∈ s.ctxs, y.id.core = c.id.core → ∀ e ∈ y.binds, ∀ q, e.2.ready = some q → k < q ∨ q = k ∧ c.id.slot ≤ y.id.slot
    (s.ctx? cid = some c → c.cid = cid → c.id.core = core → c.binds.get? t = some b →
      let entry (k q : Nat) : List Byte := let g := s.ring k q; s.slotBytes k g g.cons g.entryb
      (bwGang b.w = false → (bwAuto b.w = true ∨ b.reqs = r :: reqs ∧ r.left ≠ 0) → s.canFire c t b = true → first c b →
        s.hasEntry core (bwAq b.w) = true → s.hasEntry core (bwBq b.w) = true → bwAq b.w ≠ bwBq b.w →
        ∃ z, exec (.firingStart core cid t) s = .next z ∧
          (z.core core).firing = some ⟨cid, t, entry core (bwAq b.w), entry core (bwBq b.w), none, false, false⟩ ∧
          (∀ q, z.ring core q = s.ring core q) ∧
          (∀ q, q = bwAq b.w ∨ q = bwBq b.w → ((z.firingRead core).ring core q).cons = ((s.ring core q).cons + 1) % 2 ^ 32) ∧
          (bind z cid t).map (·.st) = some 1 ∧ (z.ctx? cid).map (·.cnt.matrix) = some (c.cnt.matrix + 1)) ∧
      (b.reqs = r :: reqs → r.gang = some (mask, bar) → r.left ≠ 0 → s.hasEntry core (bwBq b.w) = true →
        (∀ p ∈ positions mask, ∃ m k, s.gangMember (computeCore (clusterOf core) p) t (corePos core) = some m ∧
          m.binds.get? t = some k ∧ s.canFire m t k = true ∧ s.hasEntry m.id.core (bwAq k.w) = true ∧ first m k) →
        ∃ z, exec (.gangedFiringStart core cid t) s = .next z ∧ ∀ p ∈ positions mask, ∀ m k,
          s.gangMember (computeCore (clusterOf core) p) t (corePos core) = some m → m.binds.get? t = some k →
          (z.core m.id.core).firing =
            some ⟨m.cid, t, entry m.id.core (bwAq k.w), entry core (bwBq b.w), some cid, false, false⟩) ∧
      (c.st.out = false → b.st ≠ 3 → (s.part c.id.part).pstate = 0 → c.trapDue t = false →
        (∀ f, (s.core core).firing = some f → f.cid ≠ cid ∨ f.tile ≠ t) →
        (∀ x ∈ (s.core core).drains, x.cid ≠ cid ∨ x.tile ≠ t) →
        (b.drainDue = true → c.cnt.matrix < 16 → ∃ z, exec (.drainStart core cid t) s = .next z ∧
          (z.core core).drains = (s.core core).drains ++ [⟨cid, t, false, 0, none, 0⟩] ∧
          bind z cid t = some { b with st := 2, since := 0 } ∧
          (z.ctx? cid).map (·.cnt.matrix) = some (c.cnt.matrix + 1)) ∧
        (b.drainDue = false → s.nextDrain core cid t = some m → ∃ z, exec (.drainStart core cid t) s = .next z ∧
          (z.core core).drains = (s.core core).drains ++ [⟨cid, t, decide (m.kind = 5), 0, none, 0⟩] ∧
          (z.core core).mops = (s.core core).mops.erase m ∧ bind z cid t = some { b with st := 2, since := 0 }))) ∧
    ((s.core core).firing = some f → s.ctx? f.cid = some c → c.cid = f.cid → c.binds.get? f.tile = some b →
      let o := fireAll b.w b.selmode f.a f.b (c.tile f.tile)
      let rowsIn (bad : Nat) (z : State) : Prop := ∃ c', z.ctx? f.cid = some c' ∧ c'.r = c.r ∧
        (∀ e ∈ o.rows, bad.testBit e.1 = false → ∀ j, j < bwN b.w →
          c'.tile f.tile (32 * e.1 + j) = e.2.1.getD j 0 % 2 ^ 80) ∧
        (∀ i j, (i < bwM b.w → bad.testBit i = true) → i < 32 → j < 32 →
          c'.tile f.tile (32 * i + j) = c.tile f.tile (32 * i + j))
      (f.again = false → bad &&& (2 ^ bwM b.w - 1) ≠ 0 → exec (.firingComplete core bad) s =
        .next ((s.firingRead core).modCore core fun k => { k with firing := k.firing.map fun f => { f with again := true } })) ∧
      (f.again = false → bad &&& (2 ^ bwM b.w - 1) = 0 → ∃ z, exec (.firingComplete core bad) s = .next z ∧
        (z.core core).firing = none ∧ (z.core core).assay = (s.core core).assay ∧ rowsIn 0 z) ∧
      (f.again = true → bad &&& (2 ^ bwM b.w - 1) = 0 → ∃ z, exec (.assayRecompute core bad) s = .next z ∧
        (z.core core).firing = none ∧ (z.core core).assay = (s.core core).assay + 1 ∧ rowsIn 0 z) ∧
      (f.again = true → bad &&& (2 ^ bwM b.w - 1) ≠ 0 → ∃ z, exec (.assayRecompute core bad) s = .next z ∧
        (z.core core).firing = none ∧ z.ras.assayu = (s.ras.assayu + 1) % 2 ^ 64 ∧
        rowsIn (bad &&& (2 ^ bwM b.w - 1)) z ∧ (bind z f.cid f.tile).map (·.st) = some 3 ∧
        ∃ c', z.ctx? f.cid = some c' ∧ (⟨cASSAY, BitVec.ofNat 64
          (2 ^ 63 + f.tile * 2 ^ 32 + (bad &&& (2 ^ bwM b.w - 1))), none⟩ : Defer) ∈ c'.st.defer)) ∧
    ((s.core core).gangs = g :: gs → g.left = (p, n) :: left → (s.barrier (clusterOf core) g.bar).full = false →
      (∀ e ∈ s.cores, ∀ f, e.2.firing = some f → f.leader ≠ some g.cid ∨ f.tile ≠ g.tile) →
      (∀ k c, k = g.cid ∨ k ∈ g.left.map (·.2) → s.ctx? k = some c → c.trapDue g.tile = false) →
      let z := (s.modBarrier (clusterOf core) g.bar fun w => (w.arrive (g.status.getD p 0 * 2 ^ (8 * p))).1).uncount n 3
      exec (.gangArrival core) s = .next (if left = [] then (z.modCore core fun k => { k with gangs := gs }).uncount g.cid 3
        else z.modCore core fun k => { k with gangs := { g with left := left } :: gs })) ∧
    ((s.core core).gangs = [] → s.gangEnded core = some (cid, t, r) → r.gang = some (mask, bar) → bind s cid t = some b →
      (∀ e ∈ s.cores, ∀ f, e.2.firing = some f → f.leader ≠ some cid) →
      exec (.gangArrival core) s = exec (.gangArrival core) (s.owing core) ∧
      ((s.owing core).core core).gangs = [⟨cid, t, bar, r.status, r.members⟩] ∧
      (bind (s.owing core) cid t).map (·.reqs) = some (b.reqs.drop 1)) ∧
    (d ∈ (s.core core).drains → (∀ y ∈ (s.core core).drains, s.drainOf y ≠ none) → s.drainOf d = some (c, b) →
      (b.handler = 0 ∨ d.out ≠ none) →
      (bwDron b.w = true → let g := s.ring core (bwDq b.w); (g.rsv + 2 ^ 32 - g.cons % 2 ^ 32) % 2 ^ 32 < 2 ^ g.log2n) →
      ∃ z y c b, exec (.drainRow core) s = .next z ∧ y ∈ (s.core core).drains ∧ s.drainOf y = some (c, b) ∧
        (b.handler = 0 ∨ y.out ≠ none) ∧
        let row := if b.handler = 0 then drainRowBytes b.w (c.rowVals y.tile y.row) else (y.out.getD [], 0)
        let g := s.ring core (bwDq b.w)
        let mine (e : MDrain) : Bool := decide (e.cid = y.cid ∧ e.tile = y.tile)
        (bwDron b.w = false → z.mem = s.mem) ∧
        (bwDron b.w = true → (g.rsv + 2 ^ 32 - g.cons % 2 ^ 32) % 2 ^ 32 < 2 ^ g.log2n ∧
          z.mem = (s.putSlot core g g.rsv row.1).mem ∧
          z.ring core (bwDq b.w) = ({ g with rsv := (g.rsv + 1) % 2 ^ 32 } : Ring).publish g.rsv 1) ∧
        (y.row + 1 < bwM b.w → (z.core core).drains = (s.core core).drains.map fun e =>
          if mine e then { e with row := e.row + 1, out := none, flags := e.flags ||| row.2 } else e) ∧
        (bwM b.w ≤ y.row + 1 → (z.core core).drains = (s.core core).drains.filter (fun e => !mine e) ∧
          ∃ c', z.ctx? y.cid = some c' ∧ c'.cnt.matrix = c.cnt.matrix - 1 ∧
            c'.c.fflags = (c.setFlags (y.flags ||| row.2)).c.fflags ∧
            (y.keep = false → ∀ e, e < 1024 → c'.tile y.tile e = 0))) ∧
    ((s.core core).drains = d :: rest → s.ctx? d.cid = some c → c.binds.get? d.tile = some b →
      (b.handler ≠ 0 → s.ctx? (drainCid core) = none → d.out = none → c.st.out = false →
        ∃ z x, exec (.drainHandlerRun core) s = .next z ∧ z.ctx? (drainCid core) = some x ∧ x.pc = b.handler &&& ~~~1#64 ∧
          x.sup = false ∧ x.r.s = [(1, BitVec.ofNat 64 d.row), (2, BitVec.ofNat 64 d.tile), (3, c.ctxid), (4, b.arg)] ∧
          x.decl.banks = c.decl.banks ∧ x.decl.sregs = 16 ∧ x.decl.vregs = 8 ∧ x.decl.kregs = 4) ∧
      (b.handler ≠ 0 → s.ctx? (drainCid core) = some x → x.drain = some run → run.trapped = none → run.done = some true →
        d.cid ≠ drainCid core → s.cx.cid ≠ drainCid core → ∃ z, exec (.drainHandlerRun core) s = .next z ∧
          z.ctx? (drainCid core) = none ∧
          let row := match run.put with
            | some v => drainRowBytes b.w (putVals run.accf v)
            | none => drainRowBytes b.w (c.rowVals d.tile d.row)
          (z.core core).drains = (d :: rest).map fun e => if e.cid = d.cid ∧ e.tile = d.tile then
            { e with out := some row.1, flags := e.flags ||| row.2 } else e)) ∧
    (s.ctx? (drainCid core) = some x → x.drain = some run → 4096 ≤ run.cycles → run.done = none → run.trapped = none →
      ∃ z, exec (.drainRunLimit core) s = .next z ∧ z.cx = { x with drain := some { run with trapped := some cBUDGET } }) ∧
    ((s.core core).mops = m :: ops → (s.core core).firing = none → (s.core core).drains = [] → s.atoms = [] →
      s.ctx? m.cid = some c → c.cid = m.cid →
      let done (z : State) : Prop := (z.core core).mops = ops ∧ ∃ c', z.ctx? m.cid = some c' ∧
        c'.cnt.matrix = (if m.counted then c.cnt.matrix - 1 else c.cnt.matrix) ∧ c'.r = c.r ∧ ∀ u, u ≠ m.tile → ∀ e, e < 1024 → c'.tile u e = c.tile u e
      (m.kind = 0 → ∃ z, exec (.matrixOpComplete core) s = .next z ∧ done z ∧ z.mem = s.mem ∧
        ∀ c', z.ctx? m.cid = some c' → ∀ e, e < 1024 → c'.tile m.tile e = 0) ∧
      (m.kind = 1 → ∃ z, exec (.matrixOpComplete core) s = .next z ∧ done z ∧ z.mem = s.mem ∧
        ∀ c', z.ctx? m.cid = some c' → ∀ e, e < 1024 → c'.tile m.tile e =
          let p := natOfBytes (((s.ownBytes c m.src.toNat 10240).drop (10 * e)).take 10)
          if (decFa80 p).2 then p else fa80Nan) ∧
      (m.kind = 2 → m.landed = [] → ∃ z, exec (.matrixOpComplete core) s = .next z ∧ done z ∧ z.mem =
        (s.putOwn c m.dst.toNat ((List.range 1024).flatMap fun e => bytesOfNat 10 (c.tile m.tile e))).mem) ∧
      (m.kind = 3 → m.landed = [] → ∃ z, exec (.matrixOpComplete core) s = .next z ∧ done z ∧ z.mem = (s.putOwn c m.dst.toNat
        (planeImage m.fmt m.selmode ((m.read.getD (s.ownBytes c m.src.toNat (32 * mRowBytes m.fmt))).map (·.toNat))).1).mem) ∧
      (m.kind = 4 → m.landed = [] → ∃ z, exec (.matrixOpComplete core) s = .next z ∧ done z ∧ z.mem = (s.putOwn c m.dst.toNat
        (unplaneTile m.fmt m.selmode (m.read.getD (s.ownBytes c m.src.toNat (imageBytes m.fmt)))).1).mem))

/-! ## Contexts, groups, dispatch -/

/-- R281, R290, R291, R309, R310, R311, R312, R336, R337, R338: what ends a slice or a member, what a member of a group does,
and `spawn` and `tsig`. A member that ends is gone, its instance is complete with its last one; `yield` makes the instance
ready; a solo `sync` returns its own vote, a group's member arrives and waits for the release. Rests in part on the model's own choices:
notes/assumptions/28.md. -/
def Obligations.ContextEnds : Prop :=
  ∀ (s u : State) (d node : Nat) (a : Src) (x : Word) (op : VoteOp) (i : Inst) (v : Kernel) (n : Node) (w : Word),
    let id := s.cx.id
    let quiet : Prop := s.cx.cnt = ⟨0, 0, 0, 0, 0⟩ ∧ (∀ e ∈ s.bads, e.2.cid ≠ s.cx.cid) ∧
      (∀ b ∈ s.cx.binds, b.2.st = 0 ∨ b.2.st = 3) ∧ s.cx.st.killed = []
    let rank := i.localRank s.cx.cid
    let onlyOther : Prop := v.st = 2 ∧ ∃ e ∈ s.insts, e.1 ≠ id.inst ∧ e.2.kernel = i.kernel ∧ e.2.st < 4
    let gone (t : State) : Prop := t.ctx? s.cx.cid = none ∧
      ((∃ r, r < s.gangOf i ∧ r ≠ rank ∧ r ∉ i.ended) → ∃ j, t.insts.get? id.inst = some j ∧ (i.gst ≠ 4 → j.st = i.st) ∧
        rank ∈ j.ended ∧ t.mem = s.mem) ∧
      ((∀ r, r < s.gangOf i → r = rank ∨ r ∈ i.ended) → onlyOther →
        (∃ j, t.insts.get? id.inst = some j ∧ j.st = 4 ∧ j.edge = true) ∧
        (t.kernels.get? i.kernel).map (·.retired) = some (v.retired + 1))
    let arrived (t : State) (z : Arrival) (how : Nat) (r : Regs) : Prop := t.cx.wait = some .group ∧ t.cx.st.inSync = how ∧
      t.cx.r = r ∧ t.cx.pc = s.cx.pc ∧ (t.insts.get? id.inst).map (·.arrivals) = some (i.arrivals ++ [(rank, z)])
    s.plain = true → s.cx.st.live = true → s.others.get? s.cx.cid = none → s.insts.get? id.inst = some i →
    s.kernels.get? i.kernel = some v → s.nodeOf i = some n →
    (quiet → ∃ t, exec .halt s = .next t ∧ gone t) ∧
    (s.cx.cnt ≠ ⟨0, 0, 0, 0, 0⟩ → exec .halt s = .next (s.waits (.classes 0 0 0 0 0))) ∧
    (quiet → s.takesOver s.cx node = true → ∃ t, exec (.retire node) s = .next t ∧ gone t ∧
      (onlyOther → ∀ b ∈ s.cx.decl.banks, ∃ k ∈ (t.core id.core).kept,
        k.bank = b ∧ k.node = node ∧ k.x = id.x ∧ k.y = id.y ∧ k.z = id.z ∧ k.rank = rank)) ∧
    (s.takesOver s.cx node = false → exec (.retire node) s = .next (takeTrap s cILLOP (BitVec.ofNat 64 (0x0A * 2 ^ 56)))) ∧
    (s.cx.sup = true → i.st < 4 → v.st = 2 → ∃ t z, exec .haltKill s = .next t ∧ (∀ c ∈ i.cids, t.ctx? c = none) ∧
      t.kernels.get? i.kernel = some z ∧ (z.st = 3 ∨ z.st = 5)) ∧
    (quiet → id.gsize ≤ 1 → v.st = 3 → ∃ t z, exec .yield s = .next t ∧ (∀ c ∈ i.cids, t.ctx? c = none) ∧
      t.kernels.get? i.kernel = some z ∧ z.killed = v.killed + 1 ∧ (z.st = 3 ∨ z.st = 5)) ∧
    (quiet → id.gsize ≤ 1 → s.cx.sup = false → v.st ≠ 3 → ∃ t, exec .yield s = .next t ∧ t.cx.st.out = true ∧
      t.cx.pc = s.gone.cx.pc ∧ t.cx.r = { s.cx.r with prep := [] } ∧ t.cx.acc = s.cx.acc ∧ t.cx.heads = s.cx.heads ∧
      t.cx.c = { s.cx.c with budget := BitVec.ofNat 64 n.budget } ∧ t.mem = s.mem ∧
      (t.insts.get? id.inst).map (fun j => (j.st, j.deadline)) = some (1, s.cx.c.deadline)) ∧
    (quiet → 1 < id.gsize → s.cx.st.inSync = 0 → ∃ t, exec .yield s = .next t ∧ arrived t .yield 2 s.cx.r) ∧
    (s.operands [a] = some ([x], u) → s.cx.cnt.store = 0 → s.placed = true →
      (id.gsize ≤ 1 → s.exchangeDone [s.cx.cid] = true → u.roomS d = true → exec (.sync op d a) s = .next (u.gotS d
        (BitVec.ofNat 64 (if op = .pop then ((List.range 32).filter fun j => x.getLsbD j).length else x.toNat % 2 ^ 32))).gone) ∧
      (1 < id.gsize → s.cx.st.inSync = 0 → s.cx.st.vote = none →
        ∃ t, exec (.sync op d a) s = .next t ∧ arrived t (.sync op (x.toNat % 2 ^ 32)) 1 u.cx.r)) ∧
    (1 < id.gsize → s.cx.st.vote = some (w, 0) → s.roomS d = true → exec (.sync op d a) s =
      .next ((s.onCx fun c => { c with st := { c.st with vote := none } }).gotS d w).gone) ∧
    (s.cx.cnt.store = 0 → s.placed = true → ∃ t j, exec .tsig s = .next t ∧ t.cx.st.sig = true ∧ t.cx.pc = s.gone.cx.pc ∧ t.cx.r = s.cx.r ∧
      t.insts.get? id.inst = some j ∧ rank ∈ j.signalled ∧
      ((∀ r, r < s.gangOf i → r = rank ∨ r ∈ i.signalled ∨ r ∈ i.ended) → j.edge = true)) ∧
    (let r := s.ownBytes s.cx x.toNat 32;
      s.operands [a] = some ([x], u) → x.toNat % 8 = 0 → s.cx.ownRange x.toNat 32 = true → s.ordered = true →
      spawnBad r v.nnodes = false → s.cx.cnt.store = 0 → u.roomS d = true →
      (v.st = 3 ∨ 1024 ≤ s.copiesOf i.kernel v → ∃ t, exec (.spawn d a) s = .next t ∧
        t.cx = (u.gotS d (BitVec.allOnes 64)).gone.cx ∧ (t.kernels.get? i.kernel) = some { v with spawnfull := true }) ∧
      (∀ m, v.st ≠ 3 → s.copiesOf i.kernel v < 1024 → v.nodes.get? (geti r 0 2) = some m →
        ∃ t z k, exec (.spawn d a) s = .next t ∧ t.cx = (u.gotS d (BitVec.ofNat 64 v.spawned)).gone.cx ∧ t.insts = s.insts ∧
          t.kernels.get? i.kernel = some z ∧ z.spawned = v.spawned + 1 ∧ z.nodes.get? (v.nnodes + v.spawned) = some k ∧
          k.entry = m.entry ∧ k.nx = geti r 8 2 ∧ k.ny = geti r 10 2 ∧ k.nz = geti r 12 2 ∧ k.preds = [] ∧
          k.after = (if geti r 2 2 % 2 = 1 then some id.inst else none) ∧
          k.param = (if geti r 0x10 8 = 0 then m.param else geti r 0x10 8) ∧ k.copy = true ∧ k.enqueued = false))

/-- R309, R311, R312, R313, R315, R316, R317: a group's phase. Once the exchange traffic has landed its outcome is settled and
the release begins, or is held for power for at most the HOLDMAX that stands then; members are released column by column by
the PTAB that stood then; shares of other devices take part in the outcome. Rests in part on the model's own choices:
notes/assumptions/28.md. -/
def Obligations.GroupRelease : Prop :=
  ∀ (s : State) (n col tick : Nat) (votes : List (Option (VoteOp × Nat))) (i : Inst), s.insts.get? n = some i →
    (s.part (s.instPart i)).pstate = 0 →
    let p := s.part (s.instPart i)
    let settled (t : State) (others : List (Option (VoteOp × Nat))) : Prop := ∃ j, t.insts.get? n = some j ∧
      (j.gst = 3 ∨ j.gst = 4) ∧ j.holdmax = p.holdmax ∧ j.ptab = p.ptab ∧ (p.holdmax = 0 → j.gst = 4) ∧ (j.gst = 4 → j.arrivals = [] ∧ j.released = [] ∧
        (t.part (s.instPart i)).phases = (p.phases + 1) % 2 ^ 64) ∧
      (∀ op vs os, i.arrivals.map (·.2) = vs.map (Arrival.sync op) → vs ≠ [] → others = os.map (fun v => some (op, v)) →
        j.mixed = 0 ∧ j.result = BitVec.ofNat 64
        (match op with
        | .and => (vs ++ os).foldl (· &&& ·) 0xFFFFFFFF
        | .or => (vs ++ os).foldl (· ||| ·) 0
        | .sum => (vs ++ os).sum
        | .pop => (vs.map fun v => ((List.range 32).filter fun b => v.testBit b).length).sum + os.sum)) ∧
      ((∃ a ∈ i.arrivals, a.2 = .yield) ∨ none ∈ others → (∃ a ∈ i.arrivals, a.2 ≠ .yield) → j.mixed = 1) ∧
      (∀ r op v o x, (r, Arrival.sync op v) ∈ i.arrivals → some (o, x) ∈ others → o ≠ op → j.mixed ≠ 0 ∧ j.result = 0)
    (i.gst = 2 → s.exchangeDone i.cids = true → s.spans i = false →
      ∃ t, exec (.syncExchangeComplete n) s = .next t ∧ settled t []) ∧
    (i.gst = 2 → s.exchangeDone i.cids = true → s.spans i = true →
      ∃ t, exec (.spanReleaseTick n tick votes) s = .next t ∧ settled t votes ∧ t.time = max s.time (tick % 2 ^ 64)) ∧
    (i.gst = 2 → s.exchangeDone i.cids = false → exec (.syncExchangeComplete n) s = .next s) ∧
    (i.gst = 3 → ∃ t held, exec (.powerHoldEnd n) s = .next t ∧ held ≤ i.holdmax ∧
      (t.insts.get? n).map (·.gst) = some 4 ∧ (t.part (s.instPart i)).heldcyc = (p.heldcyc + held) % 2 ^ 64) ∧
    (i.gst = 4 → s.goesOnOf i = true → col ∉ i.released → (∃ e ∈ s.columnsOf i, e.2 = col) →
      (∀ e ∈ s.columnsOf i, e.2 ∉ i.released → i.ptab.getD col 0 ≤ i.ptab.getD e.2 0) →
      ∃ t j, exec (.columnRelease n col) s = .next t ∧ t.insts.get? n = some j ∧
        ((∀ e ∈ s.columnsOf i, e.2 ∈ col :: i.released) → j.gst ≠ 4 ∧ j.phase = i.phase + 1) ∧
        ((∃ e ∈ s.columnsOf i, e.2 ∉ col :: i.released) → j.gst = 4 ∧ j.released = col :: i.released) ∧
        ∀ cid ∈ i.cids, ∀ c, s.ctx? cid = some c → c.cid = cid → coreColumn c.id.core = col → c.st.inSync = 1 →
          ∃ c', t.ctx? cid = some c' ∧ c'.st.inSync = 0 ∧ c'.st.vote = some (i.result, i.mixed) ∧ c'.r = c.r ∧
            c'.wait = if c.wait = some .group then none else c.wait)

/-- R51, R57, R63, R65, R195, R282, R283, R285, R287, R290, R300, R301, R328, R329, R429: the dispatcher and the events of
contexts. A picked instance holds its keys and waits in the queues of its clusters; a started one has its contexts at the
entry state; deferred traps and an exhausted budget enter the handler. Rests in part on the model's own choices: notes/assumptions/24.md,
26.md. -/
def Obligations.Dispatch : Prop :=
  ∀ (s : State) (p m j k cid core slot : Nat) (i : Inst) (n : Node) (u : Kernel) (c : Ctx) (rest : List (Nat × Inst)),
    (s.pool p = (m, i) :: rest → (s.part p).pstate = 0 → s.insts.get? m = some i →
      (∀ cores, (s.part p).placing = [] → s.keysOk m i = true → s.placement i p none (s.coresOf p) = some cores →
        s.queueRoom cores = true → i.begun = false → i.ended = [] → ∃ t e, exec (.dispatchPick p) s = .next t ∧
          t.insts.get? m = some e ∧ e.st = 2 ∧ e.cores = cores ∧ (∀ c ∈ cores, m ∈ t.cdq.getD (clusterOf c) []) ∧
          (∀ z ∈ s.slotsOf i, if z.2 then (t.keySlot z.1).excl = some m else m ∈ (t.keySlot z.1).shared) ∧
          (t.part p).kskip = (s.part p).kskip % 2 ^ 64 ∧ (t.part p).keyTimer = none ∧ (t.part p).idle = 0) ∧
      (s.keysOk m i = true → s.placement i p none (s.coresOf p) = none →
        (∃ y, (s.part p).placeTimer = some (m, y) ∧ (s.part p).ageplace ≤ y) →
        exec (.ageplaceExpiry p) s = .next (s.modPart p fun q => { q with placing := insertHeld m q.placing })) ∧
      (s.keysOk m i = false → i.reserved = false → (∃ y, (s.part p).keyTimer = some (m, y) ∧ (s.part p).agekey ≤ y) →
        (∀ z ∈ s.slotsOf i, (s.keySlot z.1).owner = none ∨ (s.keySlot z.1).owner = some m) →
        ∃ t, exec (.agekeyExpiry p) s = .next t ∧ (t.insts.get? m).map (·.reserved) = some true ∧
          (∀ z ∈ s.slotsOf i, t.keySlot z.1 = { s.keySlot z.1 with owner := some m }) ∧
          (t.part p).rsvcnt = ((s.part p).rsvcnt + 1) % 2 ^ 64)) ∧
    (s.insts.get? m = some i → s.nodeOf i = some n → s.kernels.get? i.kernel = some u → (s.part u.part).pstate = 0 →
      (s.canStart m i = true → u.st ≠ 3 → i.begun = false → n.loads = [] → n.retained = false → i.cores = [core] → n.gang = 1 →
        s.spans i = false → i.cids = [] → i.ended = [] →
        s.ctx? (u.part * 2 ^ 24 + (s.part u.part).serial % 2 ^ 24) = none →
        ∃ t c, exec (.instanceStart m) s = .next t ∧
          t.others.get? (u.part * 2 ^ 24 + (s.part u.part).serial % 2 ^ 24) = some c ∧
          c.id.core = core ∧ c.id.slot < 4 ∧ c.id.part = u.part ∧ c.pc = BitVec.ofNat 64 n.entry ∧ c.sup = false ∧
          c.r.s = [(1, BitVec.ofNat 64 n.param), (2, BitVec.ofNat 64 i.x), (3, BitVec.ofNat 64 i.y), (4, BitVec.ofNat 64 i.z),
            (5, 0), (6, 1), (7, BitVec.ofNat 64 i.kernel), (63, s.endSeq)] ∧
          c.r.v = [] ∧ c.r.k = [] ∧ c.c.mode = 0 ∧ c.c.fflags = 0 ∧ c.c.budget = BitVec.ofNat 64 n.budget ∧
          c.c.deadline = i.deadline ∧ c.c.hold = 64 ∧ c.decl.sregs = n.sregs ∧ c.decl.vregs = n.vregs ∧
          c.decl.banks = i.banks.getD 0 [] ∧ c.cnt = ⟨0, 0, 0, 0, 0⟩ ∧
          (t.insts.get? m).map (fun e => (e.st, e.begun)) = some (3, true) ∧ (t.part u.part).serial = (s.part u.part).serial + 1) ∧
      (u.st = 3 → exec (.instanceStart m) s = .next s) ∧
      (i.st = 2 → i.begun = false → i.loaded = false → s.instPart i = u.part →
        let once : Prop := ∃ e ∈ s.insts, e.2.kernel = i.kernel ∧ e.2.node = i.node ∧ e.2.loaded = true
        (once → exec (.trackdataLoad m) s = .next (s.modInst m fun e => { e with loaded := true })) ∧
        ∃ t, exec (.trackdataLoad m) s = .next t ∧ (t.insts.get? m).map (·.loaded) = some true ∧
          ∀ own tr l bs, ¬ once → i.cores = [core] → i.tracks = [[own]] → n.loads = [l] → l.track = 0 → l.count = 1 → l.pos < 4096 →
            tr = (s.commonTrack core u.part 0).getD own → s.readGlobal u.part l.addr 128 = some bs → bs.length = 128 → s.MemWf →
            (t.track core tr).ppos = (l.pos + 1) % 4096 ∧ (t.track core tr).postmark l.pos = l.pos % 16 ∧
            ∀ b, b < 128 → t.mem.read (trackKey core tr l.pos b) = bs.getD b 0) ∧
      (i.st = 0 → s.edgesDone i = true → exec (.edgeRelease m) s = .next (s.modInst m fun e => { e with st := 1 })) ∧
      (i.st = 0 → s.edgesDone i = false → exec (.edgeRelease m) s = .next s)) ∧
    (s.kernels.get? k = some u → u.nodes.get? j = some n → n.copy = true → n.enqueued = false →
      ∃ t, exec (.spawnEnqueue k j) s = .next t ∧ t.nextInst = s.nextInst + n.nx * n.ny * n.nz ∧
        ((t.kernels.get? k).bind fun v => v.nodes.get? j) = some { n with enqueued := true } ∧
        ∀ z, z < n.nx * n.ny * n.nz → ∃ e, t.insts.get? (s.nextInst + z) = some e ∧ e.kernel = k ∧ e.node = j ∧
          e.x = z % n.nx ∧ e.y = z / n.nx % n.ny ∧ e.z = z / n.nx / n.ny ∧
          e.st = if n.preds = [] ∧ n.after = none then 1 else 0) ∧
    (s.ctx? cid = some c → c.cid = cid → (s.part c.id.part).pstate = 0 →
      (c.st.out = false → c.drain = none → c.sup = false →
        (c.st.defer = [] → c.c.budget = 0 →
          exec (.budgetExpiry cid) s = .next ((s.checkout cid).inHandler cBUDGET 0 c.pc)) ∧
        (∀ f l, c.st.defer = f :: l → exec (.deferredTrap cid) s =
          .next (((s.checkout cid).onCx fun c => { c with st := { c.st with defer := l } }).inHandler f.code f.info
            (f.at_.getD c.pc)))) ∧
      (s.insts.get? c.id.inst = some i →
        (∀ q z, c.st.out = false → s.goesOnOf i = true → s.pool c.id.part = (m, q) :: rest → s.keysOk m q = true →
          s.placement q c.id.part none (s.coresOf c.id.part) = none → latest (s.victims c.id.part q) = some z → z.cid = cid →
          s.drainedCtx c = true → ∃ t c', exec (.contextPreempt cid) s = .next t ∧ t.ctx? cid = some c' ∧ c'.st.out = true ∧
            c'.r = { c.r with prep := [] } ∧ c'.pc = c.pc ∧ c'.c = c.c ∧
            (t.insts.get? c.id.inst).map (fun e => (e.st, e.deadline)) = some (1, c.c.deadline)) ∧
        (c.st.out = true → c.id.slot ≠ 4 → i.begun = true → s.goesOnOf i = true → s.gangOf i = 1 → c.id.core = core → s.canStart c.id.inst i = true →
          slot ∈ s.slotsFree core → ∃ t c', exec (.contextResume cid core slot) s = .next t ∧ t.ctx? cid = some c' ∧
            c'.st.out = false ∧ c'.id.slot = slot ∧ c'.wait = none ∧ c'.r = c.r ∧ c'.pc = c.pc ∧
            (t.insts.get? c.id.inst).map (·.st) = some 3)))

/-- R405, R410, R411, R412, R413, R420: the gating of clusters. A request leaves for the cluster and its register waits; at
the cluster the status is sampled before the state changes; OFF empties the compute cores but for their tracks, and a wake
answers the contexts that wait for it. Rests in part on the model's own choices: notes/assumptions/33.md. -/
def Obligations.Gating : Prop :=
  ∀ (s u : State) (d n cl id : Nat) (a : Src) (x : Word) (g : GateReq) (c : Ctx),
    let status (k : Nat) : Word := BitVec.ofNat 64 ((s.cluster k).disc % 2 ^ 16 * 2 ^ 16 + (s.cluster k).gate % 4)
    let bad (r : Nat) : Word := BitVec.ofNat 64 (0x0F * 2 ^ 56 + r)
    let sent (t : State) (kind : Nat) : Prop := t.gates.get? s.nextBad =
      some ⟨s.cx.id.part, s.cx.cid, clusterOf x.toNat, kind, d, none⟩ ∧ t.nextBad = s.nextBad + 1 ∧ t.mem = s.mem
    (s.notDrain = true → s.operands [a] = some ([x], u) →
      (4096 ≤ x.toNat → exec (.pgateReq d a) s = .next (takeTrap s cILLOP (bad 2)) ∧
        exec (.pgateQ d a) s = .next (takeTrap s cILLOP (bad 2)) ∧ exec (.pwake d a) s = .next (takeTrap s cILLOP (bad 2))) ∧
      (x.toNat < 4096 → coreExists s.variant x.toNat = true → s.partOfCluster (clusterOf x.toNat) ≠ some s.cx.id.part →
        exec (.pgateQ d a) s = .next (takeTrap s cILLOP (bad 1)) ∧ exec (.pwake d a) s = .next (takeTrap s cILLOP (bad 1))) ∧
      (x.toNat < 4096 → coreExists s.variant x.toNat = true → s.partOfCluster (clusterOf x.toNat) = some s.cx.id.part →
        (s.power.gateen.testBit s.cx.id.part = false → exec (.pgateReq d a) s = .next (takeTrap s cILLOP (bad 3))) ∧
        (u.roomS d = true → d ≠ 0 →
          (s.power.gateen.testBit s.cx.id.part = true → ∃ t, exec (.pgateReq d a) s = .next t ∧ sent t 0 ∧
            t.cx.r.sFly.get? d = some s.nextBad ∧ t.cx.pc = u.gone.cx.pc) ∧
          ∃ t, exec (.pgateQ d a) s = .next t ∧ sent t 1 ∧ t.cx.r.sFly.get? d = some s.nextBad ∧ t.cx.pc = u.gone.cx.pc) ∧
        (s.wakeOf s.cx.cid (clusterOf x.toNat) = none →
          ((s.cluster (clusterOf x.toNat)).gate ≤ 1 → u.roomS d = true → ∃ t, exec (.pwake d a) s = .next t ∧ sent t 4 ∧
            (d ≠ 0 → t.cx.r.sFly.get? d = some s.nextBad) ∧ t.cx.pc = u.gone.cx.pc) ∧
          (1 < (s.cluster (clusterOf x.toNat)).gate → ∃ t, exec (.pwake d a) s = .next t ∧ sent t 2 ∧
            t.cx.wait = some (.reg 0 d) ∧ t.cx.pc = s.cx.pc)) ∧
        (∀ w, s.wakeOf s.cx.cid (clusterOf x.toNat) = some (id, ⟨s.cx.id.part, s.cx.cid, clusterOf x.toNat, 3, d, some w⟩) →
          u.roomS d = true → exec (.pwake d a) s = .next (State.gotS { u with gates := u.gates.erase id } d w).gone))) ∧
    (s.gates.get? n = some g → g.sampled = none → s.ctx? g.cid = some c → c.cid = g.cid → c.r.sFly.get? g.d = some n →
      let answered (t : State) : Prop := t.gates.get? n = none ∧
        (t.ctx? g.cid).map (fun c => c.r.s.get? g.d) = some (some (status g.cl))
      let earlier : Prop := ∃ e ∈ s.gates, e.1 < n ∧ e.2.cid = g.cid ∧ e.2.cl = g.cl ∧ e.2.sampled = none
      (earlier → exec (.gateRequestArrival n) s = .next s) ∧
      (¬ earlier →
      (g.kind = 1 → ∃ t, exec (.gateRequestArrival n) s = .next t ∧ answered t ∧ t.clusters = s.clusters) ∧
      (g.kind = 0 → ∃ t, exec (.gateRequestArrival n) s = .next t ∧ answered t ∧
        (t.cluster g.cl).gate = if (s.cluster g.cl).gate = 0 then 1 else (s.cluster g.cl).gate) ∧
      (g.kind = 2 → (s.cluster g.cl).gate < 4 → ∃ t, exec (.gateRequestArrival n) s = .next t ∧
        t.gates.get? n = some { g with
          sampled := some (status g.cl), kind := if (s.cluster g.cl).gate < 2 then 3 else 2 } ∧
        (t.cluster g.cl).gate = if (s.cluster g.cl).gate < 2 then 0 else 3) ∧
      (g.kind = 4 → (s.cluster g.cl).gate < 4 → ∃ t, exec (.gateRequestArrival n) s = .next t ∧
        (if (s.cluster g.cl).gate < 2 then answered t else t.gates.get? n = some { g with sampled := some (status g.cl) }) ∧
        (t.cluster g.cl).gate = if (s.cluster g.cl).gate < 2 then 0 else 3))) ∧
    ((s.cluster cl).gate = 1 → cl < 384 → s.noTraffic cl = true →
      (∀ c ∈ s.ctxs, c.id.core ∈ deckCores cl → c.id.slot = 4 ∨ c.st.out = true) →
      (∀ e ∈ s.insts, e.2.st = 2 → ∀ k ∈ e.2.cores, k ∉ deckCores cl) →
      (∀ p, s.partOfCluster cl = some p → (s.part p).pstate ≠ 1 ∧ (s.part p).pstate ≠ 3) →
      ∃ t, exec (.clusterOff cl) s = .next t ∧ (t.cluster cl).gate = 2 ∧ (t.cluster cl).lines = 0 ∧ (t.cluster cl).tlb = [] ∧
        (t.cluster cl).bars = [] ∧ ∀ k ∈ deckCores cl, (t.core k).rings = [] ∧ (t.core k).store = [] ∧
          (t.core k).tracks = (s.core k).tracks ∧ (t.core k).chute.up = [] ∧ (t.core k).chute.down = (s.core k).chute.down ∧
          ∀ p, 2 ^ 56 + k * 2 ^ 19 ≤ p → p < 2 ^ 56 + (k + 1) * 2 ^ 19 → t.mem.read p = 0) ∧
    ((s.cluster cl).gate = 3 → ∃ t, exec (.clusterWakeReady cl) s = .next t ∧ (t.cluster cl).gate = 0 ∧ t.mem = s.mem ∧
      (∀ n g, s.gates.get? n = some g → (∀ e ∈ s.gates, e.1 = n → e.2.kind ≠ 4) → t.gates.get? n = some
        (if g.kind = 2 ∧ g.cl = cl ∧ g.sampled ≠ none then { g with kind := 3 } else g)) ∧
      (∀ n g c w, s.gates.get? n = some g → g.kind = 4 → g.cl = cl → g.sampled = some w → s.ctx? g.cid = some c → c.cid = g.cid →
        c.r.sFly.get? g.d = some n → t.gates.get? n = none ∧ ∃ c', t.ctx? g.cid = some c' ∧ c'.r.s.get? g.d = some w) ∧
      ∀ k ∈ deckCores cl, ∀ tr T, (s.core k).tracks.get? tr = some T → ∃ q, (t.core k).tracks.get? tr = some { T with
        ridx := false, suspect := false, slip := 0, off := 0, marks := [], owner := none, holder := none, hleft := 0,
        queue := [], ppos := q })

/-! ## Queues and commands -/

/-- R269, R270, R271, R274, R275, R276: the states of a queue under the doorbell and QCTRL, the counting of completed commands
and the time-out of a WAIT. An error stops the queue at the command, and sends its interrupt. Rests in part on the model's own choices:
notes/assumptions/31.md. -/
def Obligations.Queues : Prop :=
  ∀ (s : State) (q v c : Nat) (x : Cmd), q < 64 →
    let u := s.queue q
    let runs : Prop := u.st = 1 ∨ u.st = 2
    let bad (w : Queue) : Prop :=
      2 ^ w.log2 < (w.tail + 2 ^ 32 - w.done) % 2 ^ 32 ∨ 2 ^ 31 ≤ (w.tail + 2 ^ 32 - w.fetch) % 2 ^ 32
    let settled (w : Queue) : State := s.modQueue q fun _ => { w with st := if w.tail = w.done then 1 else 2 }
    let kept := u.slots.filter fun e => e.1 != u.errIdx && (u.errIdx + 2 ^ 32 - e.1) % 2 ^ 32 < 2 ^ 31
    let undone (n : Nat) : Prop := ∀ y, u.cmds.get? n = some y → y.done = false
    let errs (t : State) (w : Queue) (idx code : Nat) : Prop :=
      t.queue q = { w with st := 5, errIdx := idx, errCode := code, cmds := (t.queue q).cmds } ∧ t.mem = s.mem ∧
        (u.vec < 256 → s.hostUp = true → t.msix = s.msix ++ [(u.part + 1, u.vec)])
    (u.st = 0 → exec (.queueEnable q) s = .next (s.modQueue q fun w =>
      { w with st := 1, tail := 0, fetch := 0, done := 0, slots := [], cmds := [] })) ∧
    (runs ∨ u.st = 5 → exec (.queueDisable q) s = .next (s.modQueue q fun w => { w with st := 4 })) ∧
    (u.st = 4 → (∀ e ∈ u.cmds, e.2.done = true ∨ e.2.op = 255) → ∃ t, exec (.queueDrained q) s = .next t ∧ t.mem = s.mem ∧
      t.queue q = { u with st := 0, slots := [], cmds := [], done := (t.queue q).done } ∧
      (undone u.done → (t.queue q).done = u.done ∧ t.msix = s.msix) ∧
      (u.cmds.get? u.done = some x → x.done = true → undone ((u.done + 1) % 2 ^ 32) → u.vec < 256 → s.hostUp = true →
        (t.queue q).done = (u.done + 1) % 2 ^ 32 ∧ t.msix = s.msix ++ if x.intr = true then [(u.part + 1, u.vec)] else [])) ∧
    (runs → let w := { u with tail := v % 2 ^ 32 }
      (¬ bad w → exec (.tail q v) s = .next (settled w)) ∧
      (bad w → ∃ t, exec (.tail q v) s = .next t ∧ errs t w u.fetch 3)) ∧
    (u.st = 3 → exec (.tail q v) s = .next (s.modQueue q fun w => { w with shadow := some (v % 2 ^ 32) })) ∧
    (u.st = 5 → exec (.tail q v) s = .next (s.modQueue q fun w => { w with tail := v % 2 ^ 32 })) ∧
    (u.st = 0 ∨ u.st = 4 → exec (.tail q v) s = .next s) ∧
    (u.st = 5 →
      (let w := { u with fetch := u.errIdx, slots := kept, cmds := u.cmds.erase u.errIdx };
        (∀ y, w.cmds.get? u.done = some y → y.done = false) →
        (bad w → exec (.queueResume q) s = .next (s.modQueue q fun _ => { w with errIdx := u.errIdx, errCode := 3 })) ∧
        (¬ bad w → (∀ e ∈ w.cmds, e.2.op ≠ 255 ∨ e.2.done = true) → exec (.queueResume q) s = .next (settled w)) ∧
        (¬ bad w → w.cmds = [(c, x)] → x.op = 255 → x.done = false → c ≠ w.next → (w.next + 2 ^ 32 - c) % 2 ^ 32 < 2 ^ 31 →
          c < 2 ^ 32 → w.next < 2 ^ 32 → ∃ t, exec (.queueResume q) s = .next t ∧ errs t w c x.sub)) ∧
      (u.done = u.errIdx → undone ((u.done + 1) % 2 ^ 32) →
        let w := { u with fetch := (u.errIdx + 1) % 2 ^ 32, done := (u.errIdx + 1) % 2 ^ 32, slots := kept }
        (bad w → ∃ t, exec (.queueResumeSkip q) s = .next t ∧ t.mem = s.mem ∧
          t.queue q = { w with errIdx := w.fetch, errCode := 3, cmds := (t.queue q).cmds }) ∧
        (¬ bad w → (∀ e ∈ u.cmds, e.1 = u.errIdx ∨ e.2.op ≠ 255 ∨ e.2.done = true) →
          ∃ t, exec (.queueResumeSkip q) s = .next t ∧ t.mem = s.mem ∧
            t.queue q = { w with st := if w.tail = w.fetch then 1 else 2, cmds := (t.queue q).cmds } ∧
            (t.queue q).cmds.get? u.done = none))) ∧
    (runs → u.cmds.get? c = some x → s.hostUp = true →
      (c = u.done → undone ((u.done + 1) % 2 ^ 32) →
        x.done = true ∨ x.op ∈ [2, 3, 5] ∨ (x.op = 4 ∧ s.waitHolds u.part x = true) →
        ∃ t, exec (.commandComplete q c) s = .next t ∧ (t.queue q).done = (u.done + 1) % 2 ^ 32 ∧
          (t.queue q).cmds.get? c = none ∧ t.mem = s.mem ∧
          (u.vec < 256 → t.msix = s.msix ++ if x.intr = true then [(u.part + 1, u.vec)] else [])) ∧
      (x.op = 4 → x.done = false → s.poll u.part x = none → ∃ t, exec (.commandComplete q c) s = .next t ∧ errs t u c 4) ∧
      (x.op = 4 → x.done = false → x.z ≠ 0 → s.waitHolds u.part x = false →
        (x.z ≤ s.time → ∃ t, exec (.waitTimeout q c) s = .next t ∧ errs t u c 5) ∧
        (s.time < x.z → exec (.waitTimeout q c) s = .next s)))

/-- R271, R272, R273, R274, R279, R292, R293, R435: the command processor takes up the next command of an ACTIVE queue. A
malformed one, or one whose slot or address faults, stops the queue; LAUNCH numbers, checks and starts a kernel, COPY moves bytes, SIGNAL writes a doubleword, WAIT
is kept with its time-out, FLUSH writes back; and START comes. Rests in part on the model's own choices: notes/assumptions/27.md, 31.md. -/
def Obligations.Commands : Prop :=
  ∀ (s : State) (q code a b k : Nat) (bs : List Byte) (z : Kernel),
    let u := s.queue q
    let l := lineOfBytes bs
    let f (i : Nat) := geti l.body (8 * i) 8
    let idx := (u.slots.head?.map (·.1)).getD u.fetch
    let next := if u.slots = [] then (u.fetch + 1) % 2 ^ 32 else u.fetch
    let took (t : State) : Prop := (t.queue q).fetch = next ∧ (t.queue q).slots = u.slots.tail ∧ (t.queue q).cmds.has idx = true
    let errs (t : State) (at_ code : Nat) : Prop := (t.queue q).st = 5 ∧ (t.queue q).errIdx = idx ∧
      (t.queue q).errCode = code ∧ (t.queue q).fetch = at_
    let object := s.bringRange u.part (f 0) 64 .load
    let source := s.reach u.part (f 0) .load
    let onto (v : State) := v.reach u.part (f 1) .store
    let all : List Instr := [.launch q, .copy q, .signal q, .waitCommand q, .flush q]
    let late : Prop := f 2 ≠ 0 ∧ f 2 ≤ s.time
    let t0 := if s.time < f 2 then f 2 else s.time
    (u.slots = [] → s.windowOf (u.qbase + 128 * (u.fetch % 2 ^ u.log2)) = none →
      s.nextSlot q = some (s.mem.bytes (hostKey (u.qbase + 128 * (u.fetch % 2 ^ u.log2))) 128)) ∧
    (∀ i, u.slots.head? = some (i, bs) → s.nextSlot q = some bs) ∧
    (∀ y, q < 64 → u.st = 2 → idx ≠ u.tail → s.hostUp = true → u.cmds.get? idx = some y →
      (y.op = 255 → y.done = false → ∀ i ∈ all, ∃ t, exec i s = .next t ∧ errs t u.fetch y.sub) ∧
      (y.op ≠ 255 ∨ y.done = true → ∀ i ∈ all, exec i s = .next (s.modQueue q fun w => { w with fetch := (idx + 1) % 2 ^ 32 }))) ∧
    (q < 64 → u.st = 2 → idx ≠ u.tail → s.hostUp = true → u.cmds.has idx = false → s.nextSlot q = none →
      ∀ i ∈ all, ∃ t, exec i s = .next t ∧ errs t u.fetch 4) ∧
    (q < 64 → u.st = 2 → idx ≠ u.tail → s.hostUp = true → u.cmds.has idx = false → s.nextSlot q = some bs →
      (l.bad bs = some code → ∀ i ∈ all, ∃ t, exec i s = .next t ∧ errs t u.fetch code) ∧
      (geti bs 0 8 % 256 = 0 ∨ 5 < geti bs 0 8 % 256 → l.bad bs = some 1) ∧
      (l.bad bs = none → l.ovl = true ∨ (∀ e ∈ u.cmds, e.2.done = true ∨ 2 ^ 31 ≤ (idx + 2 ^ 32 - e.1) % 2 ^ 32) → s.handlesFree l.handles = true →
        (l.op = 1 → s.bridgesUp = true → ∃ t w, exec (.launch q) s = .next t ∧ took t ∧ t.nextKernel = s.nextKernel + 1 ∧
          t.kernels.get? s.nextKernel = some w ∧ w.part = u.part ∧ w.queue = q ∧ w.cmd = idx ∧ w.compl = f 3 ∧ w.t0 = t0 ∧
          (w.late = true ↔ late) ∧ (∀ r, object.checkObject u.part (f 0) (f 1) t0 = .error r → w.st = 6 ∧ w.reason = r ∧ errs t next 7) ∧
          ∀ ns ms, object.checkObject u.part (f 0) (f 1) t0 = .ok (ns, ms) →
            ms.length ≤ ((List.range 64).filter (s.slotFree u.part)).length →
            w.nnodes = ns.length ∧ w.st = if s.time < f 2 then 1 else 2) ∧
        (l.op = 2 → l.nh = 0 → s.handles.length ≤ 4096 →
          (f 2 = 1 →
            (l.sub = 0 → (onto source.1).1.globalPlace u.part (f 0) .load = .ok a → (onto source.1).2 = .ok b →
              ∃ t, exec (.copy q) s = .next t ∧ took t ∧
                t.mem = (onto source.1).1.mem.write b ((onto source.1).1.mem.read a)) ∧
            (l.sub = 1 → s.MemWf → (onto s).2 = .ok b →
              ∃ t, exec (.copy q) s = .next t ∧ took t ∧ t.homeByte b = s.mem.read (hostKey (f 0))) ∧
            (l.sub = 2 → source.2 = .ok a →
              ∃ t, exec (.copy q) s = .next t ∧ took t ∧ t.mem = source.1.mem.write (hostKey (f 1)) (source.1.homeByte a))) ∧
          (l.sub = 0 → (onto source.1).2 = .error code ∨ (onto source.1).1.globalPlace u.part (f 0) .load = .error code →
            ∃ t, exec (.copy q) s = .next t ∧ errs t next 4 ∧ t.mem = (onto source.1).1.mem) ∧
          (l.sub = 1 → (onto s).2 = .error code → ∃ t, exec (.copy q) s = .next t ∧ errs t next 4 ∧ t.mem = (onto s).1.mem) ∧
          (l.sub = 2 → source.2 = .error code → ∃ t, exec (.copy q) s = .next t ∧ errs t next 4 ∧ t.mem = source.1.mem)) ∧
        (l.op = 3 →
          let p := s.cmdPlace u.part (f 0) .store
          (p.2 = .ok a → ∃ t, exec (.signal q) s = .next t ∧ took t ∧
            t.mem = p.1.mem.putBytes a (bytesOfNat 8 (if l.sub = 0 then f 1 else (natOfBytes (p.1.mem.bytes a 8) + f 1) % 2 ^ 64))) ∧
          (p.2 = .error code → ∃ t, exec (.signal q) s = .next t ∧ errs t next 4 ∧ t.mem = p.1.mem)) ∧
        (l.op = 4 → (s.cmdPlace u.part (f 0) .load).2 = .error code →
          ∃ t, exec (.waitCommand q) s = .next t ∧ errs t next 4 ∧ t.mem = (s.cmdPlace u.part (f 0) .load).1.mem) ∧
        (l.op = 4 → (s.cmdPlace u.part (f 0) .load).2 = .ok a → ∃ t c, exec (.waitCommand q) s = .next t ∧ took t ∧
          t.mem = (s.cmdPlace u.part (f 0) .load).1.mem ∧ (t.queue q).cmds.get? idx = some c ∧ c.op = 4 ∧ c.sub = l.sub ∧ c.x = f 0 ∧ c.y = f 1 ∧
          c.z = (if f 2 = 0 then 0 else s.time + f 2) ∧ c.done = false) ∧
        (l.op = 5 → ∃ t, exec (.flush q) s = .next t ∧ took t ∧ t.mem = s.mem ∧ (l.nh = 0 → ∀ c ∈ t.ctxs,
          (∀ x ∈ c.l1.data, x.written = 0) ∧ (l.sub = 1 → c.l1.data = []))))) ∧
    (s.kernels.get? k = some z → z.st = 1 →
      (z.start ≤ s.time → ∃ t, exec (.startTick k) s = .next t ∧ (t.kernels.get? k).map (·.st) = some 2 ∧
        t.nextInst = s.nextInst + (z.nodes.map fun e => e.2.nx * e.2.ny * e.2.nz).sum) ∧
      (s.time < z.start → exec (.startTick k) s = .next s))

/-! ## Partitions -/

/-- R275, R288, R289, R322, R331, R332, R333: switching, stopping and balancing a partition. Only the physical function
commands it; contexts stop at their boundary, banks are saved and cleared and come back; a kill faults the running kernels; a
balancer command moves queued instances. Rests in part on the model's own choices: notes/assumptions/32.md. -/
def Obligations.Partitions : Prop :=
  ∀ (s : State) (fn p next code n d c src dst m : Nat) (nextv : Bool) (k : Core) (i : Inst) (cores : List Nat),
    let u := s.part p
    let out (t : State) : Prop := ∀ cid x, s.ctx? cid = some x → x.cid = cid → x.id.part = p → x.id.slot ≠ 4 →
      ∃ y, t.ctx? cid = some y ∧ y.st.out = true
    let onBank (a : Nat) : Prop := ∃ e ∈ s.coresOf p, 2 ^ 56 + e * 2 ^ 19 ≤ a ∧ a < 2 ^ 56 + (e + 1) * 2 ^ 19
    let home : Prop := ∀ e ∈ u.savedClusters, s.partOfCluster e.1 = some p
    let field (e : Nat) := e / 96 * 128 + e % 96
    let command (count : Nat) := field src + 512 * field dst + count * 2 ^ 18
    (fn ≠ 0 → ∀ j ∈ [Instr.switchOut fn p nextv next, .switchIn fn p, .stop fn p, .partitionResume fn p, .partitionKill fn p],
      exec j s = .next s) ∧
    (u.pstate = 0 → p < 16 →
      exec (.switchOut 0 p nextv next) s = .next (s.modPart p fun w => { w with
        pstate := 1, ptick := max w.ptick (s.time + 2000) % 2 ^ 64, nextIn := if nextv then some (next % 16) else none,
        stopReq := none }) ∧
      exec (.stop 0 p) s = .next (s.modPart p fun w => { w with pstate := 4, stopReq := some (1, 0, 0) })) ∧
    (u.pstate = 2 → exec (.switchIn 0 p) s = .next (s.modPart p fun w => { w with pstate := 3 })) ∧
    (u.pstate = 5 → exec (.partitionResume 0 p) s = .next (s.modPart p fun w => { w with pstate := 3 })) ∧
    (u.pstate = 1 → u.stopReq = none →
      (u.ptick ≤ s.time → ∃ t, exec (.ptickReached p) s = .next t ∧ out t ∧ t.mem = s.mem ∧ (t.part p).pstate = 1 ∧
        (t.part p).stopReq ≠ none ∧ ∀ q, (s.queue q).part = p → (s.queue q).st = 1 ∨ (s.queue q).st = 2 → (t.queue q).st = 3) ∧
      (s.time < u.ptick → exec (.ptickReached p) s = .next s)) ∧
    (u.pstate = 1 → u.stopReq ≠ none → s.quiet p = true → s.MemWf → ∃ t, exec (.switchOutDone p) s = .next t ∧
      (u.nextIn = none → (t.part p).pstate = 2) ∧
      (∀ a, onBank a → t.mem.read a = 0 ∧ (u.nextIn ≠ some p → (t.part p).savedMem.read a = s.mem.read a)) ∧
      (∀ a, ¬ onBank a → t.mem.read a = s.mem.read a) ∧
      (u.nextIn = some n → n ≠ p → n < 16 → (s.part n).pstate = 2 →
        (t.part n).pstate = 3 ∧ ∀ cl ∈ s.clustersOf p, t.partOfCluster cl = some n)) ∧
    (u.pstate = 3 → home → ∃ t, exec (.switchInDone p) s = .next t ∧ (t.part p).pstate = 0 ∧ (t.part p).reason = 0 ∧
      (∀ x ∈ t.ctxs, x.id.part = p → x.cid ∉ u.parked → x.st.out = false ∧ x.wait = none) ∧
      (s.MemWf → u.savedMem.wf = true → ∀ e ∈ u.savedMem, t.mem.read e.1 = e.2) ∧
      (u.savedCores = [(c, k)] → t.core c = { k with
        cyc := (s.core c).cyc, owed := (s.core c).owed, ages := (s.core c).ages, assay := (s.core c).assay,
        tracks := (t.core c).tracks } ∧ ∀ tr, ∃ l, t.track c tr = { s.track c tr with queue := l })) ∧
    (u.pstate = 4 → u.stopReq = some (n, d, c) → ∃ t, exec (.haltTreeStop p code next dst) s = .next t ∧
      (t.part p).pstate = 5 ∧ (t.part p).reason = n ∧ (p < 16 → out t)) ∧
    (u.pstate = 0 → p < 16 → ∃ t, exec (.haltTreeStop p 2 next dst) s = .next t ∧
      (t.part p).pstate = 5 ∧ (t.part p).reason = 2 ∧ out t) ∧
    (u.pstate = 5 → ∃ t, exec (.partitionKill 0 p) s = .next t ∧ (t.part p).pstate = 0 ∧ (t.part p).savedCores = [] ∧
      ∀ j z, s.kernels.get? j = some z → z.part = p → z.st = 2 → ∃ w, t.kernels.get? j = some w ∧ (w.st = 3 ∨ w.st = 5)) ∧
    (u.pstate = 0 → src < clusterCount s.variant → dst < clusterCount s.variant →
      (fn ≠ 0 → fn ≠ p + 1 → exec (.balcmd fn p n) s = .next s) ∧
      (fn = 0 ∨ fn = p + 1 → src ≠ dst → (∀ cl ∈ [src, dst], s.partOfCluster cl = some p ∧ (s.cluster cl).gate = 0) →
        s.cdq.getD src [] = [m] → s.insts.get? m = some i → i.st = 2 → i.begun = false → (s.cdq.getD dst []).length < 8 →
        s.placement i p none (clusterCores dst) = some cores → ∃ t j, exec (.balcmd fn p (command 1)) s = .next t ∧
          t.insts.get? m = some j ∧ j.st = 2 ∧ j.cores = cores ∧ ∀ e ∈ cores, m ∈ t.cdq.getD (clusterOf e) []) ∧
      (s.byLoad p = [src, dst] →
        (s.balLoad dst + 2 ≤ s.balLoad src → exec (.balancerPeriod p) s =
          exec (.balcmd 0 p (command (min 8 ((s.balLoad src - s.balLoad dst) / 2)))) s) ∧
        (s.balLoad src < s.balLoad dst + 2 → exec (.balancerPeriod p) s = .next s)))

/-! ## Links -/

/-- R392, R393, R394, R395, R396, R397, R398, R399, R401, R402, R403, R404: a link from DOWN to UP, the exchange of times,
loss of lanes and failure, the check and the order of flits, and reduce messages. Rests in part on the model's own choices:
notes/assumptions/34.md. -/
def Obligations.Links : Prop :=
  ∀ (s : State) (fn l n m : Nat) (devid lanes port fec credits t1 t2 t3 t4 : Nat) (flit : List Nat) (ops : List CopyOp)
    (op : CopyOp), s.hasLink l = true →
    let k := s.link l
    let up : Prop := k.st = 5 ∨ k.st = 6
    let full := if l < 8 then 4 else 16
    let fewest := if l < 8 then 2 else if l < 12 then 8 else 4
    let start := if 8 ≤ l ∧ l < 12 then 2 else 1
    let failed (e : Instr) (code : Nat) : Prop := ∃ t, exec e s = .next t ∧ (t.link l).st = 7 ∧ (t.link l).failcode = code ∧
      (t.link l).sent = [] ∧ (t.link l).queue = [] ∧ (t.link l).reduces = []
    (fn ≠ 0 → ∀ e ∈ [Instr.linkEnable fn l, .linkDisable fn l, .retrain fn l], exec e s = .next s) ∧
    (k.st = 0 → exec (.linkEnable 0 l) s = .next (s.modLink l fun k => { k with st := start })) ∧
    (k.st ≠ 0 → ∃ t, exec (.linkDisable 0 l) s = .next t ∧ (t.link l).st = 0 ∧ (t.link l).lanes = 0 ∧ (t.link l).sent = [] ∧
      (t.link l).queue = []) ∧
    (k.st = 7 → exec (.retrain 0 l) s = .next (s.modLink l fun k => { k with st := start })) ∧
    (k.st = 5 → exec (.retrain 0 l) s = .next (s.modLink l fun k => { k with st := 2 })) ∧
    (k.st = 6 → ∃ t, exec (.retrain 0 l) s = .next t ∧ (t.link l = k ∨ t.link l = { k with st := 5, lanes := full, rate := 128 })) ∧
    (k.st = 1 → l < 8 ∨ l = 12 →
      (2 ≤ lanes → exec (.signalSeen l lanes) s = .next (s.modLink l fun k => { k with st := 2 })) ∧
      (lanes < 2 → exec (.signalSeen l lanes) s = .next s)) ∧
    (k.st = 2 → let j := min lanes full
      (j < fewest → failed (.equalisationDone l lanes) 2) ∧
      (fewest ≤ j → exec (.equalisationDone l lanes) s = .next (s.modLink l fun k => { k with
        lanes := j, st := if l < 8 then 3 else if j = full ∧ (l = 12 → k.rate = 128) then 5 else 6, exchanges := 0, settled := 0,
        replay := if l < 8 then k.replay else (k.replay + k.sent.length) % 2 ^ 64,
        credits := if 8 ≤ l ∧ l < 12 then [(0, 64), (1, 64), (2, 32), (3, 8)] else k.credits }))) ∧
    (k.st = 3 →
      (n ≠ 3 ∨ fec ≠ 1 → failed (.negotiate l devid n lanes port fec credits) 3) ∧
      (let j := min lanes k.lanes;
        (j < fewest → failed (.negotiate l devid 3 lanes port 1 credits) 2) ∧
        (fewest ≤ j → exec (.negotiate l devid 3 lanes port 1 credits) s = .next (s.modLink l fun k => { k with
          st := 4, lanes := j, peerid := devid % 2 ^ 64, beyond := devid % 2 ^ 64, peerport := port % 16, exchanges := 0, settled := 0,
          credits := [(0, credits % 256), (1, credits / 256 % 256), (2, credits / 256 ^ 2 % 256),
            (3, credits / 256 ^ 3 % 256)] })))) ∧
    (l < 8 →
      let off := (((t2 : Int) - t1) - ((t4 : Int) - t3)) / 2
      let lat := ((((t4 : Int) - t1) - ((t3 : Int) - t2)) / 2).toNat % 2 ^ 32
      let good := if off.natAbs ≤ 10 then k.settled + 1 else 0
      let e := Instr.timeFlitExchange l t1 t2 t3 t4
      let k' := k.exchanged
      (k.maySend 3 = false → exec e s = .next s) ∧
      (k.maySend 3 = true → up → exec e s = .next (s.modLink l fun _ => { k' with latns := lat })) ∧
      (k.maySend 3 = true → k.st = 4 → ∃ t, exec e s = .next t ∧
        (s.follows l = true → s.timeRead = false → t.time = ((s.time : Int) - off).toNat % 2 ^ 64) ∧
        (s.follows l = false ∨ s.timeRead = true → t.time = s.time) ∧
        (8 ≤ good → t.link l = { k' with
          latns := lat, exchanges := k.exchanges + 1, settled := good, st := if k.lanes = 4 then 5 else 6,
          replay := k.replay % 2 ^ 64 }) ∧
        (good < 8 → k.exchanges + 1 < 64 → t.link l = { k' with latns := lat, exchanges := k.exchanges + 1, settled := good }) ∧
        (good < 8 → 64 ≤ k.exchanges + 1 → (t.link l).st = 7 ∧ (t.link l).failcode = 4))) ∧
    (up →
      (lanes < k.lanes → (lanes < fewest → failed (.lanesLost l lanes) 2) ∧
        (fewest ≤ lanes → exec (.lanesLost l lanes) s = .next (s.modLink l fun k => { k with st := 6, lanes := lanes }))) ∧
      failed (.linkLost l n) (n % 256) ∧
      (l < 12 → exec (.flitReceive l flit false) s = .next (s.modLink l fun k => { k with uncorr := (k.uncorr + 1) % 2 ^ 64 }) ∧
        (flitCrcOk flit = false → exec (.flitReceive l flit true) s = .next s) ∧
        (flitCrcOk flit = true → flitType flit = 3 → flitSeq flit = k.rxseq → ∃ t, exec (.flitReceive l flit true) s = .next t ∧
          (t.link l).rxseq = (k.rxseq + 1) % 4096 ∧ (t.link l).st = k.st ∧ t.mem = s.mem ∧ (t.link l).received =
            k.received ++ [flitField flit 53 52 :: 3 :: (flit.drop 8).take (flitField flit 15 0)]) ∧
        (flitCrcOk flit = true → flitSeq flit = k.rxseq → s.forwardPort l (flitType flit) (flitPay flit) = some port →
          ∃ t, exec (.flitReceive l flit true) s = .next t ∧ t.mem = s.mem ∧ (t.link l).received = k.received ∧
            (t.link port).queue = (s.link port).queue ++ [(flitField flit 53 52, flitType flit, flitPay flit)]) ∧
        (flitCrcOk flit = true → flitType flit = 3 → flitSeq flit ≠ k.rxseq →
          ∃ t, exec (.flitReceive l flit true) s = .next t ∧ (t.link l).received = k.received)) ∧
      (let j := k.acks (n % 4096);
        let replay := (k.replay + j.sent.length) % 2 ^ 64
        (j.naks < 15 → exec (.nak l n) s = .next (s.modLink l fun _ => { j with replay := replay, naks := j.naks + 1 })) ∧
        (15 ≤ j.naks → k.lanes - 1 < fewest → failed (.nak l n) 5) ∧
        (15 ≤ j.naks → fewest ≤ k.lanes - 1 → exec (.nak l n) s = .next (s.modLink l fun _ =>
          { j with replay := replay, naks := 0, st := 6, lanes := k.lanes - 1 }))) ∧
      (l < 8 → flit.length = 48 →
        (isFabric n = true → 128 ≤ s.route n → exec (.reduceMessage l n flit) s =
          .next (s.modLink (s.route n % 8) fun k => k.addReduce ⟨n, flit.map (BitVec.ofNat 8), [none]⟩)) ∧
        (isFabric n = false → n < 2 ^ 40 → n + 48 ≤ dramBytes s.variant → ∃ t, exec (.reduceMessage l n flit) s = .next t ∧
          t.mem = s.mem.putBytes n
            ((exOfBytes (s.mem.bytes n 48)).combine (exOfBytes (flit.map (BitVec.ofNat 8)))).bytes)) ∧
      (∀ r x, l < 8 → n < 4096 → (s.core n).copies = op :: ops → op.ack = some (l :: r, m, x) → r ≠ [] → op.kind ≠ 5 →
        exec (.ack l n) s = .next (s.modCore n fun k => { k with copies := { op with ack := some (r, m, x) } :: ops })) ∧
      (∀ x, l < 8 → n < 4096 → (s.core n).copies = op :: ops → op.ack = some ([l], m, x) → op.kind ≠ 5 →
        ∃ t, exec (.ack l n) s = .next t ∧ (t.core n).copies = ops ∧ t.mem = s.mem ∧
          ∀ x, s.ctx? op.cid = some x → x.cid = op.cid → ∃ y, t.ctx? op.cid = some y ∧ y.cnt.copy = x.cnt.copy - 1 ∧
            y.c.fflags = x.c.fflags ||| BitVec.ofNat 64 m))

/-! ## Bring-up, errors, attestation, host -/

/-- R414, R416, R417, R418: bring-up and its failures, recovery, uncorrectable errors, and the answers of the responder (their
codes are PRESUMED: notes/assumptions/13.md). Rests in part on the model's own choices: notes/assumptions/36.md, 37.md. -/
def Obligations.PowerAndAttestation : Prop :=
  ∀ (s : State) (fails : List Nat) (v n core cid addr slot offset len p : Nat) (nonce : List Nat) (c : Ctx),
    let on := exec (.powerOn fails v) s
    let tells (e : Instr) (code : Nat) (data : List Nat) : Prop :=
      exec e s = .next { s with replies := s.replies ++ [⟨code, data⟩] }
    let answers (e : Instr) (code : Nat) (head : List Nat) (k : Nat) : Prop := ∃ t rest, exec e s = .next t ∧
      t.replies = s.replies ++ [⟨code, head ++ rest⟩] ∧ rest.length = k ∧ t.mem = s.mem
    (1 ∈ fails → ∃ t, on = .next t ∧ t.ras.held = true ∧ t.ras.booterr = 1 ∧
      step { t with agenda := [] } = .fault .partInReset) ∧
    (1 ∉ fails → n ∈ [2, 3, 4, 5] → n ∈ fails → (∀ e ∈ fails, n ≤ e) → ∃ t, on = .next t ∧ t.ras.recovery = true ∧
      t.ras.booterr = n ∧ t.ras.bootstage = n - 1) ∧
    (fails = [] → ∃ t, on = .next t ∧ t.ras = { State.reset.ras with bootstage := 8, fwver := v % 2 ^ 32 } ∧ t.ctxs = [] ∧
      t.cores = [] ∧ t.parts = [] ∧ t.cmap = [] ∧
      (∀ l, s.hasLink l = true → (t.link l).st = if l < 8 then 1 else 5) ∧
      (s.MemWf → ∀ a, t.mem.read a = if a < 2 ^ 65 then 0 else s.mem.read a)) ∧
    (s.ras.booterr = 6 → (s.link 12).st = 2 → 4 ≤ len → exec (.pcieTrainRetry true len) s =
      .next (s.modLink 12 fun k => { k with st := if 16 ≤ len ∧ k.rate = 128 then 5 else 6, lanes := min len 16 })) ∧
    (v ≠ 1 ∨ s.ras.recovery = false → exec (.recover v) s = .next s) ∧
    (s.ras.recovery = true → ∃ t, exec (.recover 1) s = .next t ∧
      ((t.ras.booterr = 3 ∧ t.ras.recovery = true) ∨ (t.ras.bootstage = 8 ∧ t.ras.recovery = false))) ∧
    (let up := (s.ras.uecnt + 1) % 2 ^ 64;
      (addr < dramBytes s.variant → addr / 4096 ∉ s.poison → s.ctx? cid = some c →
        ∃ t, exec (.uncorrectableError 0 core cid addr) s = .next t ∧ addr / 4096 ∈ t.poison ∧ t.ras.uecnt = up ∧
          (t.part c.id.part).psnblk = ((s.part c.id.part).psnblk + 1) % 2 ^ 64) ∧
      (∃ t, exec (.uncorrectableError 1 core cid addr) s = .next t ∧ addr / 8 ∈ t.ecc ∧ t.ras.uecnt = up ∧ t.mem = s.mem) ∧
      (onDeck core = true → cid < 16 → addr < 4096 → ∃ t, exec (.uncorrectableError 2 core cid addr) s = .next t ∧
        addr ∈ (t.track core cid).bad ∧ t.ras.uecnt = up) ∧
      (s.partOfCluster (clusterOf core) = some p → (s.part p).pstate = 0 →
        ∃ t, exec (.uncorrectableError 3 core cid addr) s = .next t ∧ (t.part p).pstate = 5 ∧ (t.part p).reason = 2 ∧
          t.ras.uecnt = up) ∧
      (s.ctx? cid = some c → c.cid = cid → c.st.out = true → ∃ t, exec (.uncorrectableError 4 core cid addr) s = .next t ∧
        t.mem = s.mem ∧ t.ras.uecnt = up ∧ ∃ e ∈ t.bads, e.2.cid = cid ∧ e.2.cause = 5)) ∧
    (∀ rest, s.ras.held = false → s.agenda = .eccCorrected :: rest → step s = settled (.next { s with
      agenda := rest, ras := { s.ras with cecnt := (s.ras.cecnt + 1) % 2 ^ 64 } })) ∧
    (s.ras.held = true ∨ ((s.link 12).st ≠ 5 ∧ (s.link 12).st ≠ 6) → ∀ e ∈ [Instr.getVersion, .getCapabilities,
      .negotiateAlgorithms, .getDigests, .getCertificate slot offset len, .challenge slot nonce, .getMeasurements n nonce,
      .spdmUnsupportedRequest n], exec e s = .next s) ∧
    (s.ras.held = false → (s.link 12).st = 5 ∨ (s.link 12).st = 6 →
      tells .getVersion 0x04 [0x13] ∧ tells .getCapabilities 0x61 [0x16] ∧ tells .negotiateAlgorithms 0x63 [0x40, 0x04] ∧
      tells .getDigests 0x01 (0x01 :: (List.range 64).map fun i => (Config.chainDigest i).toNat) ∧
      tells (.getCertificate slot offset len) 0x02
        (slot % 256 :: offset % 2 ^ 16 :: (List.range (min len 4096)).map fun i => chainByte (offset % 2 ^ 16 + i)) ∧
      (∀ i, i < 8 → chainByte i = Config.devid.toNat / 256 ^ i % 256) ∧
      answers (.challenge slot nonce) 0x03 (slot % 256 :: nonce.take 32) 512 ∧
      tells (.getMeasurements 0 nonce) 0x60 (nonce.take 32 ++ [4]) ∧
      tells (.getMeasurements 1 nonce) 0x60 (nonce.take 32 ++ 1 :: (bytesOfNat 8 Config.romVersion.toNat).map (·.toNat)) ∧
      tells (.getMeasurements 2 nonce) 0x60
        (nonce.take 32 ++ 2 :: (List.range 64).map fun i => (Config.imageDigest s.ras.fwver i).toNat) ∧
      tells (.getMeasurements 4 nonce) 0x60 (nonce.take 32 ++ 4 :: s.unitMap.map (·.toNat)) ∧
      (4 < n → tells (.getMeasurements n nonce) 0x7F [0x07, 0xE0]) ∧
      tells (.getMeasurements 3 nonce) 0x60 (nonce.take 32 ++ 3 ::
        (bytesOfNat 8 ((s.caps 0).toNat / 2 ^ 16 * 2 ^ 16)).map (·.toNat)) ∧
      tells (.spdmUnsupportedRequest n) 0x7F [0x07, n % 256])

/-- R23, R269, R270, R331, R393, R405, R408, R415, R417, R435: what the host writes. A register write has its register's
effect, an impermissible value and a write while the PCIe link has failed have none; BAR2 reaches global memory at its home; a
write of the cluster map empties the cluster. That function 0 sees partition 0 is the model's choice. Rests in part on the model's own choices: notes/assumptions/14.md, 35.md. -/
def Obligations.HostAccess : Prop :=
  ∀ (s : State) (fn q p l v a cl b key code : Nat),
    let bar (fn addr size v : Nat) := exec (.bar0RegisterWrite fn addr size v) s
    let va := s.winbase.getD fn (2 ^ 40) + a
    let read := Instr.hostBar2Access fn a false [] 1
    let write := Instr.hostBar2Access fn a true [b] 0
    let from_ := s.reach (fn - 1) va .load
    let onto := s.reach (fn - 1) va .store
    (s.hostUp = false → bar fn a l v = .next s ∧ exec read s = .next s ∧ exec write s = .next s) ∧
    (s.hostUp = true → v < 2 ^ 32 → bar 0 0xA0028 4 v = exec (.recover v) s) ∧
    (s.hostUp = true → s.ras.recovery = false → v < 2 ^ 32 →
      (500 ≤ v → v ≤ 3000 → bar 0 0x90004 4 v = .next { s with power := { s.power with plimit := v } }) ∧
      (v < 500 ∨ 3000 < v → bar 0 0x90004 4 v = .next s) ∧
      (q < 64 → fn < 17 → fn = 0 ∨ fn = (s.queue q).part + 1 →
        bar fn (0x10010 + 64 * q) 4 v = exec (.tail q v) s ∧
        bar fn (0x10028 + 64 * q) 8 1 = exec (.queueEnable q) s ∧ bar fn (0x10028 + 64 * q) 8 2 = exec (.queueDisable q) s ∧
        bar fn (0x10028 + 64 * q) 8 3 = exec (.queueResume q) s ∧
        bar fn (0x10028 + 64 * q) 8 4 = exec (.queueResumeSkip q) s) ∧
      (q < 64 → fn < 17 → fn ≠ 0 → fn ≠ (s.queue q).part + 1 → bar fn (0x10010 + 64 * q) 4 v = .next s) ∧
      (p < 16 → bar 0 (0x70000 + 256 * p) 4 1 = exec (.switchOut 0 p false 0) s ∧
        bar 0 (0x70000 + 256 * p) 4 2 = exec (.switchIn 0 p) s ∧ bar 0 (0x70000 + 256 * p) 4 3 = exec (.stop 0 p) s ∧
        bar 0 (0x70000 + 256 * p) 4 4 = exec (.partitionResume 0 p) s ∧
        bar 0 (0x70000 + 256 * p) 4 5 = exec (.partitionKill 0 p) s) ∧
      (l < 13 → bar 0 (0xC0008 + 256 * l) 4 1 = exec (.linkEnable 0 l) s ∧
        bar 0 (0xC0008 + 256 * l) 4 2 = exec (.linkDisable 0 l) s ∧ bar 0 (0xC0008 + 256 * l) 4 3 = exec (.retrain 0 l) s)) ∧
    (s.hostUp = true → fn < 17 → a < 2 ^ 36 →
      (s.ras.recovery = true → a < 2 ^ 26 → ∃ t, exec write s = .next t ∧
        t.ras.staged = s.ras.staged.write a (BitVec.ofNat 8 b) ∧ t.mem = s.mem) ∧
      (s.ras.recovery = false →
        (from_.2 = .ok key →
          exec read s = .next { from_.1 with hostReads := from_.1.hostReads ++ [some [from_.1.homeByte key]] }) ∧
        (from_.2 = .error code → exec read s = .next { from_.1 with hostReads := from_.1.hostReads ++ [none] }) ∧
        (s.MemWf → onto.2 = .ok key → ∃ t, exec write s = .next t ∧ t.homeByte key = BitVec.ofNat 8 b ∧
          ∀ e, e ≠ key → t.homeByte e = onto.1.homeByte e) ∧
        (onto.2 = .error code → exec write s = .next { onto.1 with aer := onto.1.aer ++ [fn] }))) ∧
    (fn ≠ 0 → exec (.clusterMapWrite fn cl v) s = .next s) ∧
    (cl < clusterCount s.variant → v < 256 → v / 16 % 8 = 0 → v ≠ s.cmap.getD cl 0 → s.cmap.getD cl 0 < 128 →
      s.clusterEmpty cl = true → (∀ q, q < 16 → s.serviceFree q = true) → ∃ t, exec (.clusterMapWrite 0 cl v) s = .next t ∧
        t.cmap.getD cl 0 = v ∧ (t.cluster cl).lines = 0 ∧ (t.cluster cl).bars = [] ∧ (t.cluster cl).tlb = [] ∧
        ∀ k ∈ clusterCores cl, (t.core k).rings = [] ∧ (t.core k).store = [] ∧
          ∀ e, 2 ^ 56 + k * 2 ^ 19 ≤ e → e < 2 ^ 56 + (k + 1) * 2 ^ 19 → t.mem.read e = 0)

/-! ## Decoding, stepping, reset -/

/-- R102, R103, R105, R106, R108, R109, R117: words written out from the encodings decode to their instructions: `add s3, s1, s2`
with its sources' last-use marks, `addi s4, s4, 100` over an XI prefix, and a reserved cell. -/
def Obligations.DecodeSpecWords : Prop :=
  decodeAt [0b0000101100101010] .none = .ok (.add 3 ⟨1, true⟩ ⟨2, false⟩, 1) ∧
  decodeAt [0b1111100000000110, 0b0001010010001000] .none = .ok (.addi 4 ⟨4, false⟩ 100, 2) ∧
  decodeAt [0b1111110000000001, 0b1101110001001110] .none = .ok (.vadd ⟨.bf16, .rne, false, 0, false⟩ 4 ⟨2, true⟩ ⟨3, false⟩, 2) ∧
  (∃ page half, decodeAt [0b0000000000000000] .none = .ok (.reservedOpcode page half, 1))

/-- R36, R103, R105, R106, R107, R108, R109, R110, R115, R117: decoding the halfwords of a well-formed instruction gives it back, with
every operand at every value its encoding admits. -/
def Obligations.DecodeOfEncode : Prop :=
  ∀ i : Instr, i.wellFormed = true → isEvent i = false → decodeAt (encode i) .none = .ok (i, (encode i).length)

/-- Every step keeps the canonical form of the memory: equal memories are equal lists. Rests in part on the model's own choices:
notes/assumptions/2.md. -/
def Obligations.StepKeepsMemory : Prop :=
  ∀ s t : State, s.MemWf → step s = .next t → t.MemWf

/-- R23, R67, R140, R211, R270, R331, R340, R355, R408: the part after reset. No context holds a slot, no cluster is assigned,
queues are DISABLED, rings, barriers and control store are empty, translations and lines are cleared; memory is in its form.
Rests in part on the model's own choices: notes/assumptions/2.md, 3.md. -/
def Obligations.ResetState : Prop :=
  State.reset.MemWf ∧ State.reset.ctxs = [] ∧ (∀ cl, State.reset.partOfCluster cl = none) ∧
  (∀ q, (State.reset.queue q).st = 0) ∧
  (∀ c q n, ((State.reset.core c).ring q).defd = false ∧ ((State.reset.core c).slot n).valid = false) ∧
  (∀ cl n, (State.reset.cluster cl).lines = 0 ∧ (State.reset.cluster cl).tlb = [] ∧
    (State.reset.barrier cl n).defd = false) ∧
  (∀ p, (State.reset.part p).pstate = 0 ∧ (State.reset.part p).rrbase = 0 ∧ (State.reset.part p).tbal = 4096) ∧
  State.reset.power.plimit = 3000 ∧ State.reset.insts = [] ∧ State.reset.kernels = []

/-- R102, R112, R319, R320: a step at which a context issues runs exactly the instruction that the halfwords at its pc decode
to, in the state in which it is latched: the next pc past its halfwords, no wait. Around it the step keeps the age of a context
whose instruction only waits, and notes which bindings are ready to fire. An event of another agent runs as it stands.
Rests in part on the model's own choices: notes/assumptions/4.md, 7.md, 10.md. -/
def Obligations.StepRunsDecoded : Prop :=
  ∀ (s : State) (cid core : Nat) (c : Ctx) (hs : List Nat) (i : Instr) (rest : List Agent), s.ras.held = false →
    let at_ (j : Nat) := c.pc.toNat + 2 * j
    let n := hs.length
    let fromTables : Prop := (∀ e ∈ (s.cluster (clusterOf c.id.core)).tlb, e.1 ≠ c.id.part) ∧
      (∀ w ∈ s.walking, w.part ≠ c.id.part) ∧ ∀ e ∈ s.walkCache, ∀ x ∈ e.2, x.part ≠ c.id.part
    (s.agenda = .issue cid :: rest → s.ctx? cid = some c → c.cid = cid → c.st.live = true → c.st.out = false → c.drain = none →
      c.micro = none → c.wait = none → (s.part c.id.part).pstate = 0 →
      c.sup = true ∨ (c.st.defer = [] ∧ c.c.budget = 0xFFFFFFFF) → c.pc ≠ s.endSeq →
      (∀ e ∈ s.bads, e.2.cid = cid → e.2.opk ≠ 3) → s.passedOver c = false → s.late.getD cid [] = [] ∨ unordered i = true →
      at_ 0 / 65536 = at_ (n - 1) / 65536 ∨ fromTables →
      (∀ j, j < n → isGlobal (at_ j) = true ∧ ∃ p key, s.translation (clusterOf c.id.core) c.id.part (at_ j) = .ok p ∧
        s.place c.id.part (at_ j) .fetch p = .ok key ∧ s.openWay (coreStack c.id.core) (stackOf key) = true ∧
        (∀ e ∈ s.forms, e.1 = c.id.part → e.2.1 = at_ j / 65536 - at_ j / 65536 % p.units → e.2.2 = p) ∧ natOfBytes (s.mem.bytes key 2) = hs.getD j 0) →
      decodeAt hs .none = .ok (i, n) →
      ∃ v : State, v.cx = c ∧ v.mem = s.mem ∧
        (v.latched n).cx.npc = c.pc + BitVec.ofNat 64 (2 * n) ∧ (v.latched n).cx.pc = c.pc ∧ (v.latched n).cx.r = c.r ∧
        (v.latched n).cx.wait = none ∧ (v.latched n).mem = s.mem ∧
        step s = settled (ageKept (v.latched n) c.st.last (exec i (v.latched n))) ∧
        ∀ u, exec i (v.latched n) = .next u → u.cx.wait = none → step s = .next u.noteReady) ∧
    (s.agenda = .event i :: rest → isEvent i = true → (∀ k, i ≠ .copyLand k) →
      step s = settled (exec i { s with agenda := rest })) ∧
    (s.agenda = .event (.copyLand core) :: rest → s.late = [] →
      step s = settled (exec (.copyLand core) { s with agenda := rest }))
end

