-- ==== Sys2Proof/Laws/Monad.lean ====
section
/-! SUPPORT. How the monad of a meaning runs: one lemma per primitive, and the sequencing lemma that every proof about a
meaning chains. -/
namespace Sys2Proof.Machine

variable {α β : Type} {s t : State}

/-- Sequencing: the first part answers, the rest goes on from its state. -/
theorem M.bind_of_ok {m : M α} {f : α → M β} {a : α} (h : m s = .ok (a, t)) : (m >>= f) s = f a t := by
  simp [bind, StateT.bind, h, Except.bind]

/-- Sequencing: the first part ends the instruction. -/
theorem M.bind_of_error {m : M α} {f : α → M β} {e : Stop} (h : m s = .error e) : (m >>= f) s = .error e := by
  simp [bind, StateT.bind, h, Except.bind]

@[simp] theorem M.pure_run (a : α) : (pure a : M α) s = .ok (a, s) := rfl
@[simp] theorem M.get_run : (get : M State) s = .ok (s, s) := rfl
@[simp] theorem M.modify_run (f : State → State) : (modify f : M Unit) s = .ok ((), f s) := rfl
@[simp] theorem M.throw_run (e : Stop) : (throw e : M α) s = .error e := rfl
@[simp] theorem trap_run (c : Nat) (i : Word) : (trap c i : M α) s = .error (.trap c i) := rfl
@[simp] theorem illop_run (u l : Nat) : (illop u l : M α) s = .error (.trap cILLOP (subInfo u l)) := rfl
@[simp] theorem stall_run (w : Wait) : (stall w : M α) s = .error (.stall w) := rfl
@[simp] theorem trapIn_run (c : Nat) (i : Word) : (trapIn c i : M α) s = .error (.trapIn c i s) := rfl
@[simp] theorem stallIn_run (w : Wait) : (stallIn w : M α) s = .error (.stallIn w s) := rfl
@[simp] theorem modCx_run (f : Ctx → Ctx) : modCx f s = .ok ((), s.onCx f) := rfl
@[simp] theorem modRegs_run (f : Regs → Regs) : modRegs f s = .ok ((), s.onRegs f) := rfl
@[simp] theorem modCtl_run (f : Ctl → Ctl) : modCtl f s = .ok ((), s.onCtl f) := rfl
@[simp] theorem fresh_run : fresh s = .ok (s.free, { s with free := s.free + 1 }) := rfl
@[simp] theorem advance_run : advance s = .ok ((), s.gone) := rfl
@[simp] theorem jump_run (a : Word) : jump a s = .ok ((), s.wentTo a) := rfl

@[simp] theorem M.bind_get (f : State → M β) : (get >>= f) s = f s s := rfl
@[simp] theorem M.bind_pure (a : α) (f : α → M β) : (pure a >>= f) s = f a s := rfl
@[simp] theorem M.bind_modify (g : State → State) (f : PUnit → M β) :
    ((modify g : M PUnit) >>= f) s = f ⟨⟩ (g s) := rfl
@[simp] theorem M.bind_modCx (g : Ctx → Ctx) (f : Unit → M β) : (modCx g >>= f) s = f () (s.onCx g) := rfl
@[simp] theorem M.bind_modRegs (g : Regs → Regs) (f : Unit → M β) : (modRegs g >>= f) s = f () (s.onRegs g) := rfl
@[simp] theorem M.bind_modCtl (g : Ctl → Ctl) (f : Unit → M β) : (modCtl g >>= f) s = f () (s.onCtl g) := rfl
@[simp] theorem M.bind_fresh (f : Nat → M β) : (fresh >>= f) s = f s.free { s with free := s.free + 1 } := rfl
@[simp] theorem M.bind_throw (e : Stop) (f : α → M β) : ((throw e : M α) >>= f) s = .error e := rfl
@[simp] theorem M.bind_trap (c : Nat) (i : Word) (f : α → M β) : ((trap c i : M α) >>= f) s = .error (.trap c i) := rfl
@[simp] theorem M.bind_illop (u l : Nat) (f : α → M β) :
    ((illop u l : M α) >>= f) s = .error (.trap cILLOP (subInfo u l)) := rfl
@[simp] theorem M.bind_stall (w : Wait) (f : α → M β) : ((stall w : M α) >>= f) s = .error (.stall w) := rfl
@[simp] theorem M.bind_advance (f : Unit → M β) : (advance >>= f) s = f () s.gone := rfl
@[simp] theorem M.bind_jump (a : Word) (f : Unit → M β) : (jump a >>= f) s = f () (s.wentTo a) := rfl

/-- A meaning that answers. -/
theorem run_of_ok {m : M Unit} (h : m s = .ok ((), t)) : run m s = .next t := by simp [run, h]
/-- A meaning that takes a precise trap. -/
theorem run_of_trap {m : M Unit} {c : Nat} {i : Word} (h : m s = .error (.trap c i)) :
    run m s = .next (takeTrap s c i) := by simp [run, h]
/-- A meaning that waits. -/
theorem run_of_stall {m : M Unit} {w : Wait} (h : m s = .error (.stall w)) :
    run m s = .next { s with cx := { s.cx with wait := some w } } := by simp [run, h]
/-- A meaning never stops the machine. -/
theorem run_next (m : M Unit) (s : State) : ∃ t, run m s = .next t := by
  unfold run; split <;> exact ⟨_, rfl⟩

theorem check_run (b : Bool) (m : M Unit) : check b m s = if b then m s else .ok ((), s) := by
  cases b <;> rfl

end Sys2Proof.Machine
end

