-- ==== Sys2Proof/Laws/Operands.lean ====
section
/-! SUPPORT. One specification per operand operation: what a completed read, a last-use free and a register write do, in
the words of Safety.lean; and the shapes of the scalar and vector meanings over them. -/
namespace Sys2Proof.Machine

variable {s t u : State}

/-! ## Scalar operands -/

theorem undefOf_run {α : Type} (z : α) (l : List α) :
    undefOf z l s = .ok ((z :: l).getD (Config.freePick s.free % (l.length + 1)) z, { s with free := s.free + 1 }) := rfl

theorem readSNum_of_readsS {n : Nat} {x : Word} (h : s.readsS n = some (x, t)) : readSNum n s = .ok (x, t) := by
  unfold State.readsS at h
  unfold readSNum
  simp only [M.bind_get]
  split at h
  · simp_all
  · rename_i hn
    split at h
    · cases h
    · rename_i hp
      simp only [Bool.or_eq_true, not_or, Bool.not_eq_true] at hp
      obtain ⟨⟨h1, h2⟩, h3⟩ := hp
      have h1' : s.cx.r.sPoison.get? n = none := by
        simpa [Tab.has] using h1
      simp only [hn, if_false, h1', h2, h3, Bool.or_false, Bool.false_eq_true]
      split at h
      · rename_i x' hx
        simp_all
      · rename_i hx
        split at h
        · cases h
        · rename_i hu
          have hu' : s.cx.c.udread = false := by simpa [Ctl.udread] using hu
          cases h
          simp [hx, hu', undefOf_run]

theorem readS_of_readsS {a : Src} {x : Word} (h : s.readsS a.n = some (x, t)) : readS a s = .ok (x, t) :=
  readSNum_of_readsS h

theorem freeS_run (a : Src) :
    freeS a s = .ok ((), if a.last && a.n != 0 then s.onRegs fun r => { r with s := r.s.erase a.n } else s) := by
  unfold freeS
  rw [check_run]
  split <;> rfl

theorem writeS_of_roomS {d : Nat} {x : Word} (h : s.roomS d = true) : writeS d x s = .ok ((), s.gotS d x) := by
  unfold writeS State.gotS
  simp only [M.bind_get]
  unfold State.roomS at h
  by_cases hd : d = 0
  · simp [hd]
  · simp only [hd, if_false]
    rw [if_neg]
    · rfl
    · simp [hd] at h ⊢
      intro hh
      rcases h with h | h
      · simp [h] at hh
      · exact h

/-- Without room a write traps and nothing is written (R54). -/
theorem writeS_of_full {d : Nat} {x : Word} (h : s.roomS d = false) :
    writeS d x s = .error (.trap cILLOP (subInfo 0 1)) := by
  unfold writeS
  simp only [M.bind_get]
  unfold State.roomS at h
  simp at h
  obtain ⟨⟨hd, hh⟩, hl⟩ := h
  simp [hd, hh, hl]

theorem operands_one {a : Src} {x : Word} (h : s.operands [a] = some ([x], u)) :
    ∃ t, s.readsS a.n = some (x, t) ∧ u = t.freedS [a] := by
  simp only [State.operands, List.map, State.readsSs] at h
  cases h1 : s.readsS a.n with
  | none => simp [h1] at h
  | some p => obtain ⟨y, t⟩ := p; simp [h1] at h; exact ⟨t, by simp [h.1], h.2.symm⟩

theorem operands_two {a b : Src} {x y : Word} (h : s.operands [a, b] = some ([x, y], u)) :
    ∃ t w, s.readsS a.n = some (x, t) ∧ t.readsS b.n = some (y, w) ∧ u = w.freedS [a, b] := by
  simp only [State.operands, List.map, State.readsSs] at h
  cases h1 : s.readsS a.n with
  | none => simp [h1] at h
  | some p =>
    obtain ⟨x', t⟩ := p
    cases h2 : t.readsS b.n with
    | none => simp [h1, h2] at h
    | some q =>
      obtain ⟨y', w⟩ := q
      simp [h1, h2] at h
      exact ⟨t, w, by simp [h.1.1], by simp [h2, h.1.2], h.2.symm⟩

theorem operands_three {a b c : Src} {x y z : Word} (h : s.operands [a, b, c] = some ([x, y, z], u)) :
    ∃ t w v, s.readsS a.n = some (x, t) ∧ t.readsS b.n = some (y, w) ∧ w.readsS c.n = some (z, v) ∧
      u = v.freedS [a, b, c] := by
  simp only [State.operands, List.map, State.readsSs] at h
  cases h1 : s.readsS a.n with
  | none => simp [h1] at h
  | some p =>
    obtain ⟨x', t⟩ := p
    cases h2 : t.readsS b.n with
    | none => simp [h1, h2] at h
    | some q =>
      obtain ⟨y', w⟩ := q
      cases h3 : w.readsS c.n with
      | none => simp [h1, h2, h3] at h
      | some r =>
        obtain ⟨z', v⟩ := r
        simp [h1, h2, h3] at h
        exact ⟨t, w, v, by simp [h.1.1], by simp [h2, h.1.2.1], by simp [h3, h.1.2.2], h.2.symm⟩

/-! ## The scalar shapes -/

theorem sOp1_run {d : Nat} {a : Src} {f : Word → Word} {x : Word} (h : s.operands [a] = some ([x], u))
    (hd : u.roomS d = true) : run (sOp1 d a f) s = .next (u.gotS d (f x)).gone := by
  obtain ⟨t, h1, rfl⟩ := operands_one h
  apply run_of_ok
  unfold sOp1
  rw [M.bind_of_ok (readS_of_readsS h1), M.bind_of_ok (freeS_run a)]
  exact M.bind_of_ok (f := fun _ => advance) (writeS_of_roomS hd)

theorem sOp2_run {d : Nat} {a b : Src} {f : Word → Word → Word} {x y : Word}
    (h : s.operands [a, b] = some ([x, y], u)) (hd : u.roomS d = true) :
    run (sOp2 d a b f) s = .next (u.gotS d (f x y)).gone := by
  obtain ⟨t, w, h1, h2, rfl⟩ := operands_two h
  apply run_of_ok
  unfold sOp2
  rw [M.bind_of_ok (readS_of_readsS h1), M.bind_of_ok (readS_of_readsS h2), M.bind_of_ok (freeS_run a),
    M.bind_of_ok (freeS_run b)]
  exact M.bind_of_ok (f := fun _ => advance) (writeS_of_roomS hd)

theorem sOp3_run {d : Nat} {a b c : Src} {f : Word → Word → Word → Word} {x y z : Word}
    (h : s.operands [a, b, c] = some ([x, y, z], u)) (hd : u.roomS d = true) :
    run (sOp3 d a b c f) s = .next (u.gotS d (f x y z)).gone := by
  obtain ⟨t, w, v, h1, h2, h3, rfl⟩ := operands_three h
  apply run_of_ok
  unfold sOp3
  rw [M.bind_of_ok (readS_of_readsS h1), M.bind_of_ok (readS_of_readsS h2), M.bind_of_ok (readS_of_readsS h3),
    M.bind_of_ok (freeS_run a), M.bind_of_ok (freeS_run b), M.bind_of_ok (freeS_run c)]
  exact M.bind_of_ok (f := fun _ => advance) (writeS_of_roomS hd)

/-! ## Vector and mask operands -/

theorem readV_of_readsV {a : Src} {x : VReg} (h : s.readsV a.n = some (x, t)) : readV a s = .ok (x, t) := by
  unfold State.readsV at h
  unfold readV
  simp only [M.bind_get]
  split at h
  · cases h
  · rename_i hp
    simp only [Bool.or_eq_true, not_or, Bool.not_eq_true] at hp
    obtain ⟨⟨h1, h2⟩, h3⟩ := hp
    have h1' : s.cx.r.vPoison.get? a.n = none := by simpa [Tab.has] using h1
    simp only [h1', h2, h3, Bool.or_false, Bool.false_eq_true, if_false]
    split at h
    · simp_all
    · rename_i hx
      split at h
      · cases h
      · rename_i hu
        have hu' : s.cx.c.udread = false := by simpa [Ctl.udread] using hu
        cases h
        simp [hx, hu', undefOf_run]

theorem readVs_of_readsVs : ∀ {l : List Src} {s t : State} {xs : List VReg},
    s.readsVs (l.map (·.n)) = some (xs, t) → readVs l s = .ok (xs, t)
  | [], s, t, xs, h => by simp [State.readsVs] at h; simp [readVs, h]
  | a :: l, s, t, xs, h => by
    simp only [List.map, State.readsVs] at h
    cases h1 : s.readsV a.n with
    | none => simp [h1] at h
    | some p =>
      obtain ⟨x, u⟩ := p
      simp only [h1] at h
      cases h2 : u.readsVs (l.map (·.n)) with
      | none => simp [h2] at h
      | some q =>
        obtain ⟨ys, w⟩ := q
        simp only [h2, Option.some.injEq, Prod.mk.injEq] at h
        unfold readVs
        rw [M.bind_of_ok (readV_of_readsV h1), M.bind_of_ok (readVs_of_readsVs h2)]
        simp [h.1, h.2]

theorem readK_of_readsK {n : Nat} {x : KReg} (h : s.readsK n = some (x, t)) : readK n s = .ok (x, t) := by
  unfold State.readsK at h
  unfold readK
  simp only [M.bind_get]
  split at h
  · simp_all
  · rename_i hn
    simp only [hn, if_false]
    split at h
    · simp_all
    · rename_i hx
      split at h
      · cases h
      · rename_i hu
        have hu' : s.cx.c.udread = false := by simpa [Ctl.udread] using hu
        cases h
        simp [hx, hu', undefOf_run]

theorem readOld_of_readsOld {k d : Nat} {zero : Bool} {x : VReg} (h : s.readsOld k zero d = some (x, t)) :
    readOld false k zero d s = .ok (x, t) := by
  unfold State.readsOld at h
  unfold readOld
  by_cases hc : (k != 0 && !zero) = true
  · simp only [hc, if_true] at h
    simp only [hc, Bool.false_or, if_true]
    exact readV_of_readsV h
  · simp only [hc] at h
    simp only [hc, Bool.false_or]
    simp_all

theorem freeV_run (a : Src) :
    freeV a s = .ok ((), if a.last then s.onRegs fun r => { r with v := r.v.erase a.n } else s) := by
  unfold freeV
  rw [check_run]
  split <;> rfl

theorem freeVs_run : ∀ (l : List Src) (s : State), freeVs l s = .ok ((), s.freedV l)
  | [], s => rfl
  | a :: l, s => by
    unfold freeVs
    rw [M.bind_of_ok (freeV_run a), freeVs_run l]
    rfl

theorem freeK_run (a : Src) :
    freeK a s = .ok ((), s.freedK a) := by
  unfold freeK State.freedK
  rw [check_run]
  split <;> rfl

theorem writeV_of_roomV {d : Nat} {x : VReg} (h : s.roomV d = true) : writeV d x s = .ok ((), s.gotV d x) := by
  unfold writeV
  simp only [M.bind_get]
  rw [if_neg]
  · rfl
  · unfold State.roomV at h
    simp at h ⊢
    intro hh
    rcases h with h | h
    · simp [h] at hh
    · exact h

theorem writeK_of_roomK {d : Nat} {x : KReg} (h : s.roomK d = true) : writeK d x s = .ok ((), s.gotK d x) := by
  unfold writeK State.gotK
  simp only [M.bind_get]
  unfold State.roomK at h
  by_cases hd : d = 0
  · simp [hd]
  · simp only [hd, if_false]
    rw [if_neg]
    · rfl
    · simp [hd] at h ⊢
      intro hh
      rcases h with h | h
      · simp [h] at hh
      · exact h

theorem setFlags_run (f : Nat) : setFlags f s = .ok ((), s.flagged f) := by
  unfold setFlags State.flagged
  rw [M.modify_run]
  rfl

/-! ## Guards -/

theorem notInMicro_of_plain (h : s.cx.micro = none) : notInMicro s = .ok ((), s) := by
  unfold notInMicro; simp [h]
theorem notInDrain_of (h : s.cx.drain = none) : notInDrain s = .ok ((), s) := by
  unfold notInDrain; simp [h]
theorem State.plain_iff : s.plain = true ↔ s.cx.micro = none ∧ s.cx.drain = none := by
  simp [State.plain]
theorem State.notDrain_iff : s.notDrain = true ↔ s.cx.drain = none := by simp [State.notDrain]
theorem needSup_of {p : Nat} {i : Instr} (h : s.cx.sup = true) : needSup p i s = .ok ((), s) := by
  unfold needSup; simp [h]
theorem needSup_of_user {p : Nat} {i : Instr} (h : s.cx.sup = false) :
    needSup p i s = .error (.trap cPRIV (opInfo p i)) := by
  unfold needSup; simp [h]
theorem needDeck_of {p : Nat} {i : Instr} (h : onDeck s.cx.id.core = true) : needDeck p i s = .ok ((), s) := by
  unfold needDeck; simp [h]
theorem needRoom_of {c : Nat} (h : s.cx.cnt.get c < classLimit c) : needRoom c s = .ok ((), s) := by
  unfold needRoom; simp [h]
theorem needClasses_of {a b c m h : Nat} (hc : s.cx.cnt.within a b c m h = true) :
    needClasses a b c m h s = .ok ((), s) := by
  unfold needClasses; simp [hc]

end Sys2Proof.Machine
end

