-- ==== Sys2Proof/Laws/Memory.lean ====
section
/-! SUPPORT. The memory as a list of cells: read after write, and that every operation keeps the canonical form; then what
the shared loads and stores do. -/
namespace Sys2Proof

/-! ## The canonical form -/

theorem Memory.wfFrom_mono {m : Memory} {lo hi : Nat} (h : lo ≤ hi) (w : Memory.wfFrom hi m = true) :
    Memory.wfFrom lo m = true := by
  cases m with
  | nil => rfl
  | cons e t =>
    obtain ⟨a, x⟩ := e
    simp only [Memory.wfFrom, Bool.and_eq_true, decide_eq_true_eq] at w ⊢
    exact ⟨⟨by omega, w.1.2⟩, w.2⟩

/-- Addresses below a bound are not listed. -/
theorem Memory.read_below {m : Memory} {lo n : Nat} (h : n < lo) (w : Memory.wfFrom lo m = true) :
    m.read n = Memory.unlisted := by
  cases m with
  | nil => rfl
  | cons e t =>
    obtain ⟨a, x⟩ := e
    simp only [Memory.wfFrom, Bool.and_eq_true, decide_eq_true_eq] at w
    simp only [Memory.read]
    rw [if_pos (by omega)]

theorem Memory.write_wfFrom (m : Memory) : ∀ {lo n : Nat} {x : Byte}, lo ≤ n → Memory.wfFrom lo m = true →
    Memory.wfFrom lo (m.write n x) = true := by
  induction m with
  | nil => intro lo n x h w; simp only [Memory.write]; split <;> simp [Memory.wfFrom, *]
  | cons e t ih =>
    obtain ⟨a, y⟩ := e
    intro lo n x h w
    simp only [Memory.wfFrom, Bool.and_eq_true, decide_eq_true_eq] at w
    simp only [Memory.write]
    split
    · split
      · simp [Memory.wfFrom, w]
      · simp only [Memory.wfFrom, Bool.and_eq_true, decide_eq_true_eq]
        exact ⟨⟨h, ‹_›⟩, ⟨by omega, w.1.2⟩, w.2⟩
    · split
      · split
        · exact Memory.wfFrom_mono (by omega) w.2
        · simp only [Memory.wfFrom, Bool.and_eq_true, decide_eq_true_eq]
          subst n
          exact ⟨⟨h, ‹_›⟩, w.2⟩
      · simp only [Memory.wfFrom, Bool.and_eq_true, decide_eq_true_eq]
        exact ⟨w.1, ih (by omega) w.2⟩

/-- A write keeps the canonical form. -/
theorem Memory.write_wf {m : Memory} (w : m.wf = true) (n : Nat) (x : Byte) : (m.write n x).wf = true :=
  Memory.write_wfFrom m (Nat.zero_le n) w

theorem Memory.putBytes_wf : ∀ (l : List Byte) {m : Memory} (a : Nat), m.wf = true → (m.putBytes a l).wf = true
  | [], _, _, w => w
  | _ :: l, _, a, w => Memory.putBytes_wf l (a + 1) (Memory.write_wf w a _)

theorem Memory.foldl_write_wf {α : Type} (f : α → Nat × Byte) : ∀ (l : List α) {m : Memory}, m.wf = true →
    (l.foldl (fun m e => m.write (f e).1 (f e).2) m).wf = true
  | [], _, w => w
  | _ :: l, _, w => Memory.foldl_write_wf f l (Memory.write_wf w _ _)

theorem Memory.filter_wfFrom (p : Nat × Byte → Bool) (m : Memory) : ∀ {lo : Nat}, Memory.wfFrom lo m = true →
    Memory.wfFrom lo (m.filter p) = true := by
  induction m with
  | nil => intro lo w; exact w
  | cons e t ih =>
    obtain ⟨a, y⟩ := e
    intro lo w
    simp only [Memory.wfFrom, Bool.and_eq_true, decide_eq_true_eq] at w
    rw [List.filter_cons]
    split
    · simp only [Memory.wfFrom, Bool.and_eq_true, decide_eq_true_eq]
      exact ⟨w.1, ih w.2⟩
    · exact Memory.wfFrom_mono (by omega) (ih w.2)

/-- Dropping cells keeps the canonical form. -/
theorem Memory.filter_wf {m : Memory} (p : Nat × Byte → Bool) (w : m.wf = true) :
    Memory.wf (m.filter p) = true :=
  Memory.filter_wfFrom p m w

/-! ## Read after write -/

theorem Memory.read_write_from (m : Memory) : ∀ {lo : Nat} (n a : Nat) (x : Byte), Memory.wfFrom lo m = true →
    (m.write n x).read a = if a = n then x else m.read a := by
  induction m with
  | nil =>
    intro lo n a x _
    simp only [Memory.write]
    split
    · subst x; split <;> rfl
    · simp only [Memory.read]
      split
      · rw [if_neg (by omega)]
      · rfl
  | cons e t ih =>
    obtain ⟨b, y⟩ := e
    intro lo n a x w
    simp only [Memory.wfFrom, Bool.and_eq_true, decide_eq_true_eq] at w
    simp only [Memory.write]
    split
    · split
      · subst x
        split
        · subst a; simp only [Memory.read]; rw [if_pos ‹_›]
        · rfl
      · simp only [Memory.read]
        by_cases h1 : a < n
        · rw [if_pos h1, if_neg (by omega), if_pos (by omega)]
        · rw [if_neg h1]
    · split
      · subst n
        split
        · subst x
          by_cases h : a < b
          · rw [Memory.read_below (lo := b + 1) (by omega) w.2, if_neg (by omega)]
            simp only [Memory.read]; rw [if_pos h]
          · by_cases h2 : a = b
            · rw [if_pos h2, Memory.read_below (lo := b + 1) (by omega) w.2]
            · rw [if_neg h2]; simp only [Memory.read]; rw [if_neg h, if_neg h2]
        · simp only [Memory.read]
          by_cases h : a < b
          · rw [if_pos h, if_neg (by omega), if_pos h]
          · rw [if_neg h]
            by_cases h2 : a = b
            · rw [if_pos h2, if_pos h2]
            · rw [if_neg h2, if_neg h2, if_neg h, if_neg h2]
      · simp only [Memory.read]
        by_cases h : a < b
        · rw [if_pos h, if_neg (by omega), if_pos h]
        · rw [if_neg h]
          by_cases h2 : a = b
          · rw [if_pos h2, if_neg (by omega), if_neg h, if_pos h2]
          · rw [if_neg h2, ih n a x w.2, if_neg h, if_neg h2]

/-- A write changes the byte written and no other. -/
theorem Memory.read_write {m : Memory} (w : m.wf = true) (n a : Nat) (x : Byte) :
    (m.write n x).read a = if a = n then x else m.read a :=
  Memory.read_write_from m n a x w

/-- A list of bytes written from an address on stands there; every other byte is as before. -/
theorem Memory.read_putBytes : ∀ (l : List Byte) {m : Memory} (b a : Nat), m.wf = true →
    (m.putBytes b l).read a = if b ≤ a ∧ a < b + l.length then l.getD (a - b) 0 else m.read a
  | [], m, b, a, _ => by simp [Memory.putBytes]
  | x :: l, m, b, a, w => by
    simp only [Memory.putBytes]
    rw [Memory.read_putBytes l (b + 1) a (Memory.write_wf w b x), Memory.read_write w]
    simp only [List.length_cons]
    by_cases h1 : a = b
    · subst h1
      rw [if_neg (by omega), if_pos rfl, if_pos ⟨by omega, by omega⟩]
      simp
    · by_cases h2 : b + 1 ≤ a ∧ a < b + 1 + l.length
      · rw [if_pos h2, if_pos ⟨by omega, by omega⟩]
        have : a - b = (a - (b + 1)) + 1 := by omega
        rw [this, List.getD_cons_succ]
      · rw [if_neg h2, if_neg h1, if_neg (by omega)]

theorem bytesOfNat_length : ∀ (n v : Nat), (bytesOfNat n v).length = n
  | 0, _ => rfl
  | n + 1, v => by simp [bytesOfNat, bytesOfNat_length n]

theorem bytesOfNat_getD : ∀ (n v j : Nat), j < n → (bytesOfNat n v).getD j 0 = BitVec.ofNat 8 (v / 256 ^ j)
  | 0, _, _, h => absurd h (by omega)
  | n + 1, v, 0, _ => by simp [bytesOfNat]
  | n + 1, v, j + 1, h => by
    rw [bytesOfNat, List.getD_cons_succ, bytesOfNat_getD n _ j (by omega), Nat.div_div_eq_div_mul, Nat.pow_succ']

namespace Machine
variable {s t u v w : State}

/-! ## What the operand reads leave unchanged -/

/-- A scalar operand read changes the counter of free values at most. -/
theorem readsS_same {n : Nat} {x : Word} (h : s.readsS n = some (x, t)) : t = { s with free := t.free } := by
  unfold State.readsS at h
  split at h
  · cases h; rfl
  · split at h
    · cases h
    · split at h
      · cases h; rfl
      · split at h
        · cases h
        · cases h; rfl

theorem readsV_same {n : Nat} {x : VReg} (h : s.readsV n = some (x, t)) : t = { s with free := t.free } := by
  unfold State.readsV at h
  split at h
  · cases h
  · split at h
    · cases h; rfl
    · split at h
      · cases h
      · cases h; rfl

theorem readsK_same {n : Nat} {x : KReg} (h : s.readsK n = some (x, t)) : t = { s with free := t.free } := by
  unfold State.readsK at h
  split at h
  · cases h; rfl
  · split at h
    · cases h; rfl
    · split at h
      · cases h
      · cases h; rfl

theorem freedS_mem (l : List Src) : ∀ s : State, (s.freedS l).mem = s.mem := by
  induction l with
  | nil => intro s; rfl
  | cons a l ih =>
    intro s
    simp only [State.freedS]
    rw [ih]
    split <;> rfl

/-! ## Guards of an access -/

theorem needNoFaults_of (h : s.ordered = true) : needNoFaults s = .ok ((), s) := by
  simp only [State.ordered, Bool.and_eq_true, Bool.not_eq_true'] at h
  unfold needNoFaults
  have h1 : needResolved s = .ok ((), s) := by unfold needResolved; rw [M.bind_get, h.1]; rfl
  have h2 : needAtomsDone s = .ok ((), s) := by unfold needAtomsDone; rw [M.bind_get, h.2]; rfl
  rw [M.bind_of_ok h1, h2]

theorem needRoom_of_room {c : Nat} (h : s.room c = true) : needRoom c s = .ok ((), s) :=
  needRoom_of (by simpa [State.room] using h)

/-! ## The scalar load and store -/

/-- A scalar load whose address leads to a place: the element read there is written, and the load class counts it. -/
theorem loadS_run {k : Acc} {d n width key val : Nat} {ea : Word} {conv : Nat → Word} {frees : M Unit}
    (hal : ea.toNat % n = 0) (ho : s.ordered = true) (hr : s.room 0 = true) (hf : frees s = .ok ((), u))
    (hl : locate k ea.toNat u = .ok (.ok key, v)) (hv : readAs k key n v = .ok (val, w)) (hd : w.roomS d = true) :
    loadS k d ea n width conv frees s = .ok ((), ((w.gotS d (conv val)).counted 0).gone) := by
  unfold loadS
  have : (ea.toNat % n != 0) = false := by simp [hal]
  rw [this]
  simp only [Bool.false_eq_true, if_false]
  show (do needNoFaults; needRoom 0; frees; _ : M Unit) s = _
  rw [M.bind_of_ok (needNoFaults_of ho), M.bind_of_ok (needRoom_of_room hr), M.bind_of_ok hf, M.bind_of_ok hl]
  show (do let x ← readAs k key n; writeS d (conv x); count 0; advance : M Unit) v = _
  rw [M.bind_of_ok hv, M.bind_of_ok (writeS_of_roomS hd)]
  rfl

/-- A scalar store whose address leads to a place. -/
theorem storeS_run {n width x key : Nat} {ea : Word} {frees : M Unit} (hal : ea.toNat % n = 0)
    (ho : s.ordered = true) (hr : s.room 1 = true) (hf : frees s = .ok ((), u))
    (hl : locate .store ea.toNat u = .ok (.ok key, v)) :
    storeS ea n width x frees s = .ok ((), ((v.putStore key (bytesOfNat n x)).counted 1).gone) := by
  unfold storeS
  have : (ea.toNat % n != 0) = false := by simp [hal]
  rw [this]
  simp only [Bool.false_eq_true, if_false]
  show (do needNoFaults; needRoom 1; frees; _ : M Unit) s = _
  rw [M.bind_of_ok (needNoFaults_of ho), M.bind_of_ok (needRoom_of_room hr), M.bind_of_ok hf, M.bind_of_ok hl]
  rfl

/-! ## Memory through the shared operations -/

theorem foldl_mem {α : Type} {f : State → α → State} (hf : ∀ s a, (f s a).mem = s.mem) :
    ∀ (l : List α) (s : State), (l.foldl f s).mem = s.mem
  | [], _ => rfl
  | a :: l, s => (foldl_mem hf l (f s a)).trans (hf s a)

/-- A store at the second-level cache or a bank writes its bytes and no others. -/
theorem putShared_mem (s : State) (key : Nat) (bs : List Byte) : (s.putShared key bs).mem = s.mem.putBytes key bs := by
  simp only [State.putShared]
  split <;> rfl

theorem useLine_mem (s : State) (l : Line) : (s.useLine l).mem = s.mem := by
  simp only [State.useLine]
  split
  · rfl
  · exact foldl_mem (f := fun s (e : Line) => s.settle (lineWords e.line e.written)) (fun _ _ => rfl) _ _

/-- A store of the context in hand writes its bytes and no others, where no host write has left the word old. -/
theorem putStore_mem (s : State) (key : Nat) (bs : List Byte) (h : s.cx.oldWord key bs.length = none) :
    (s.putStore key bs).mem = s.mem.putBytes key bs := by
  simp only [State.putStore, h]
  split
  · exact (useLine_mem _ _).trans (putShared_mem _ _ _)
  · exact putShared_mem _ _ _

/-- Where one has, the word goes home whole: the cached bytes with the new ones in them. -/
theorem putStore_old (s : State) (key : Nat) (bs : List Byte) {x : Word} (h : s.cx.oldWord key bs.length = some x) :
    (s.putStore key bs).mem = s.mem.putBytes (key / 8 * 8) (intoWord x (key % 8) bs) := by
  have hc : (isDram key && s.cx.ways != 0) = true := by
    by_contra hn
    simp [Ctx.oldWord, Bool.eq_false_iff.mpr hn] at h
  simp only [State.putStore, h, hc, if_true]
  exact (useLine_mem _ _).trans (putShared_mem _ _ _)

/-- A read of a place changes no byte of memory. -/
theorem readPlace_mem {key n x : Nat} (h : readPlace key n s = .ok (x, t)) : t.mem = s.mem := by
  unfold readPlace at h
  rw [M.bind_get] at h
  split at h
  · cases h
    exact useLine_mem _ _
  · cases h; rfl

end Machine
end Sys2Proof
end

