-- ==== Sys2Proof/Laws/State.lean ====
section
/-! SUPPORT. Tables: reading after writing. Then one lemma for each field and each update of the state, true by rfl, so that no
proof unfolds a record update; and the read of what an update has changed. -/
namespace Sys2Proof

/-! ## Tables -/

theorem Tab.get?_set_self {α : Type} (t : Tab α) (n : Nat) (x : α) : (t.set n x).get? n = some x := by
  induction t with
  | nil => simp [Tab.set, Tab.get?]
  | cons e t ih =>
    obtain ⟨m, y⟩ := e
    simp only [Tab.set]
    split
    · simp [Tab.get?]
    · split
      · simp [Tab.get?]
      · have : m ≠ n := fun h => by omega
        simp [Tab.get?, this, ih]

theorem Tab.get?_set_ne {α : Type} (t : Tab α) {n m : Nat} (x : α) (h : m ≠ n) : (t.set n x).get? m = t.get? m := by
  induction t with
  | nil => simp [Tab.set, Tab.get?, Ne.symm h]
  | cons e t ih =>
    obtain ⟨k, y⟩ := e
    simp only [Tab.set]
    split
    · simp [Tab.get?, Ne.symm h]
    · split
      · subst n
        simp [Tab.get?, Ne.symm h]
      · simp only [Tab.get?, ih]

theorem Tab.set_set {α : Type} (t : Tab α) (n : Nat) (x y : α) : (t.set n x).set n y = t.set n y := by
  induction t with
  | nil => simp [Tab.set]
  | cons e t ih =>
    obtain ⟨m, z⟩ := e
    simp only [Tab.set]
    split
    · simp [Tab.set]
    · split
      · simp [Tab.set]
      · simp [Tab.set, *]

theorem Tab.get?_erase_self {α : Type} (t : Tab α) (n : Nat) : (t.erase n).get? n = none := by
  induction t with
  | nil => rfl
  | cons e t ih =>
    obtain ⟨m, y⟩ := e
    simp only [Tab.erase, List.filter_cons] at ih ⊢
    split
    · simp_all [Tab.get?]
    · exact ih

theorem Tab.get?_erase_ne {α : Type} (t : Tab α) {n m : Nat} (h : m ≠ n) : (t.erase n).get? m = t.get? m := by
  induction t with
  | nil => rfl
  | cons e t ih =>
    obtain ⟨k, y⟩ := e
    simp only [Tab.erase, List.filter_cons] at ih ⊢
    split
    · simp [Tab.get?, ih]
    · have : k ≠ m := fun e => by simp_all
      simp [Tab.get?, this, ih]

theorem Tab.get?_modify {α : Type} (t : Tab α) (n m : Nat) (f : α → α) :
    (t.modify n f).get? m = if m = n then (t.get? m).map f else t.get? m := by
  induction t with
  | nil => simp [Tab.modify, Tab.get?]
  | cons e t ih =>
    obtain ⟨k, y⟩ := e
    simp only [Tab.modify, List.map_cons] at ih ⊢
    by_cases hk : k = n <;> by_cases hm : k = m <;> simp_all [Tab.get?]

@[simp] theorem Tab.getD_set_self {α : Type} (t : Tab α) (n : Nat) (x d : α) : (t.set n x).getD n d = x := by
  simp [Tab.getD, Tab.get?_set_self]
theorem Tab.getD_set_ne {α : Type} (t : Tab α) {n m : Nat} (x d : α) (h : m ≠ n) : (t.set n x).getD m d = t.getD m d := by
  simp [Tab.getD, Tab.get?_set_ne t x h]

namespace Machine
variable (s : State)

/-! ## What an update changed reads as written -/

@[simp] theorem State.core_modCore (n : Nat) (f : Core → Core) : (s.modCore n f).core n = f (s.core n) := by
  simp [State.modCore, State.setCore, State.core]
@[simp] theorem State.cluster_modCluster (n : Nat) (f : Cluster → Cluster) :
    (s.modCluster n f).cluster n = f (s.cluster n) := by simp [State.modCluster, State.cluster]
@[simp] theorem State.part_modPart (n : Nat) (f : Part → Part) : (s.modPart n f).part n = f (s.part n) := by
  simp [State.modPart, State.part]
@[simp] theorem State.queue_modQueue (n : Nat) (f : Queue → Queue) : (s.modQueue n f).queue n = f (s.queue n) := by
  simp [State.modQueue, State.queue]
@[simp] theorem State.link_modLink (n : Nat) (f : Link → Link) : (s.modLink n f).link n = f (s.link n) := by
  simp [State.modLink, State.link]
@[simp] theorem State.modPart_modPart (n : Nat) (f g : Part → Part) :
    (s.modPart n f).modPart n g = s.modPart n fun p => g (f p) := by simp [State.modPart, State.part, Tab.set_set]
@[simp] theorem State.modQueue_modQueue (n : Nat) (f g : Queue → Queue) :
    (s.modQueue n f).modQueue n g = s.modQueue n fun u => g (f u) := by simp [State.modQueue, State.queue, Tab.set_set]
@[simp] theorem State.modLink_modLink (n : Nat) (f g : Link → Link) :
    (s.modLink n f).modLink n g = s.modLink n fun k => g (f k) := by simp [State.modLink, State.link, Tab.set_set]
@[simp] theorem State.modCore_modCore (n : Nat) (f g : Core → Core) :
    (s.modCore n f).modCore n g = s.modCore n fun k => g (f k) := by
  simp [State.modCore, State.setCore, State.core, Tab.set_set]

/-! ## `modCore` leaves every other field -/

@[simp] theorem State.modCore_cx (n : Nat) (f : Core → Core) : (s.modCore n f).cx = s.cx := rfl
@[simp] theorem State.modCore_others (n : Nat) (f : Core → Core) : (s.modCore n f).others = s.others := rfl
@[simp] theorem State.modCore_clusters (n : Nat) (f : Core → Core) : (s.modCore n f).clusters = s.clusters := rfl
@[simp] theorem State.modCore_parts (n : Nat) (f : Core → Core) : (s.modCore n f).parts = s.parts := rfl
@[simp] theorem State.modCore_cmap (n : Nat) (f : Core → Core) : (s.modCore n f).cmap = s.cmap := rfl
@[simp] theorem State.modCore_mem (n : Nat) (f : Core → Core) : (s.modCore n f).mem = s.mem := rfl
@[simp] theorem State.modCore_poison (n : Nat) (f : Core → Core) : (s.modCore n f).poison = s.poison := rfl
@[simp] theorem State.modCore_ecc (n : Nat) (f : Core → Core) : (s.modCore n f).ecc = s.ecc := rfl
@[simp] theorem State.modCore_home (n : Nat) (f : Core → Core) : (s.modCore n f).home = s.home := rfl
@[simp] theorem State.modCore_variant (n : Nat) (f : Core → Core) : (s.modCore n f).variant = s.variant := rfl
@[simp] theorem State.modCore_bads (n : Nat) (f : Core → Core) : (s.modCore n f).bads = s.bads := rfl
@[simp] theorem State.modCore_atoms (n : Nat) (f : Core → Core) : (s.modCore n f).atoms = s.atoms := rfl
@[simp] theorem State.modCore_kernels (n : Nat) (f : Core → Core) : (s.modCore n f).kernels = s.kernels := rfl
@[simp] theorem State.modCore_insts (n : Nat) (f : Core → Core) : (s.modCore n f).insts = s.insts := rfl
@[simp] theorem State.modCore_cdq (n : Nat) (f : Core → Core) : (s.modCore n f).cdq = s.cdq := rfl
@[simp] theorem State.modCore_msgs (n : Nat) (f : Core → Core) : (s.modCore n f).msgs = s.msgs := rfl
@[simp] theorem State.modCore_events (n : Nat) (f : Core → Core) : (s.modCore n f).events = s.events := rfl
@[simp] theorem State.modCore_gates (n : Nat) (f : Core → Core) : (s.modCore n f).gates = s.gates := rfl
@[simp] theorem State.modCore_queues (n : Nat) (f : Core → Core) : (s.modCore n f).queues = s.queues := rfl
@[simp] theorem State.modCore_handles (n : Nat) (f : Core → Core) : (s.modCore n f).handles = s.handles := rfl
@[simp] theorem State.modCore_msix (n : Nat) (f : Core → Core) : (s.modCore n f).msix = s.msix := rfl
@[simp] theorem State.modCore_links (n : Nat) (f : Core → Core) : (s.modCore n f).links = s.links := rfl
@[simp] theorem State.modCore_power (n : Nat) (f : Core → Core) : (s.modCore n f).power = s.power := rfl
@[simp] theorem State.modCore_ras (n : Nat) (f : Core → Core) : (s.modCore n f).ras = s.ras := rfl
@[simp] theorem State.modCore_time (n : Nat) (f : Core → Core) : (s.modCore n f).time = s.time := rfl
@[simp] theorem State.modCore_free (n : Nat) (f : Core → Core) : (s.modCore n f).free = s.free := rfl
@[simp] theorem State.modCore_agenda (n : Nat) (f : Core → Core) : (s.modCore n f).agenda = s.agenda := rfl
@[simp] theorem State.modCore_late (n : Nat) (f : Core → Core) : (s.modCore n f).late = s.late := rfl
@[simp] theorem State.modCore_opened (n : Nat) (f : Core → Core) : (s.modCore n f).opened = s.opened := rfl
@[simp] theorem State.modCore_walking (n : Nat) (f : Core → Core) : (s.modCore n f).walking = s.walking := rfl
@[simp] theorem State.modCore_walkCache (n : Nat) (f : Core → Core) : (s.modCore n f).walkCache = s.walkCache := rfl
@[simp] theorem State.modCore_expanded (n : Nat) (f : Core → Core) : (s.modCore n f).expanded = s.expanded := rfl
@[simp] theorem State.modCore_forms (n : Nat) (f : Core → Core) : (s.modCore n f).forms = s.forms := rfl
@[simp] theorem State.modCore_nextBad (n : Nat) (f : Core → Core) : (s.modCore n f).nextBad = s.nextBad := rfl
@[simp] theorem State.modCore_nextKernel (n : Nat) (f : Core → Core) : (s.modCore n f).nextKernel = s.nextKernel := rfl
@[simp] theorem State.modCore_relocs (n : Nat) (f : Core → Core) : (s.modCore n f).relocs = s.relocs := rfl
@[simp] theorem State.modCore_nextInst (n : Nat) (f : Core → Core) : (s.modCore n f).nextInst = s.nextInst := rfl
@[simp] theorem State.modCore_nextPkt (n : Nat) (f : Core → Core) : (s.modCore n f).nextPkt = s.nextPkt := rfl
@[simp] theorem State.modCore_spilled (n : Nat) (f : Core → Core) : (s.modCore n f).spilled = s.spilled := rfl
@[simp] theorem State.modCore_bar2 (n : Nat) (f : Core → Core) : (s.modCore n f).bar2 = s.bar2 := rfl
@[simp] theorem State.modCore_aer (n : Nat) (f : Core → Core) : (s.modCore n f).aer = s.aer := rfl
@[simp] theorem State.modCore_aerCor (n : Nat) (f : Core → Core) : (s.modCore n f).aerCor = s.aerCor := rfl
@[simp] theorem State.modCore_hostReads (n : Nat) (f : Core → Core) : (s.modCore n f).hostReads = s.hostReads := rfl
@[simp] theorem State.modCore_routes (n : Nat) (f : Core → Core) : (s.modCore n f).routes = s.routes := rfl
@[simp] theorem State.modCore_winbase (n : Nat) (f : Core → Core) : (s.modCore n f).winbase = s.winbase := rfl
@[simp] theorem State.modCore_replies (n : Nat) (f : Core → Core) : (s.modCore n f).replies = s.replies := rfl
@[simp] theorem State.modCore_endSeq (n : Nat) (f : Core → Core) : (s.modCore n f).endSeq = s.endSeq := rfl
@[simp] theorem State.modCore_hostWrites (n : Nat) (f : Core → Core) : (s.modCore n f).hostWrites = s.hostWrites := rfl
@[simp] theorem State.modCore_keytab (n : Nat) (f : Core → Core) : (s.modCore n f).keytab = s.keytab := rfl
@[simp] theorem State.modCore_krels (n : Nat) (f : Core → Core) : (s.modCore n f).krels = s.krels := rfl
@[simp] theorem State.modCore_timeRead (n : Nat) (f : Core → Core) : (s.modCore n f).timeRead = s.timeRead := rfl
@[simp] theorem State.modCore_turn (n : Nat) (f : Core → Core) : (s.modCore n f).turn = s.turn := rfl

/-! ## `modCluster` leaves every other field -/

@[simp] theorem State.modCluster_cx (n : Nat) (f : Cluster → Cluster) : (s.modCluster n f).cx = s.cx := rfl
@[simp] theorem State.modCluster_others (n : Nat) (f : Cluster → Cluster) : (s.modCluster n f).others = s.others := rfl
@[simp] theorem State.modCluster_cores (n : Nat) (f : Cluster → Cluster) : (s.modCluster n f).cores = s.cores := rfl
@[simp] theorem State.modCluster_parts (n : Nat) (f : Cluster → Cluster) : (s.modCluster n f).parts = s.parts := rfl
@[simp] theorem State.modCluster_cmap (n : Nat) (f : Cluster → Cluster) : (s.modCluster n f).cmap = s.cmap := rfl
@[simp] theorem State.modCluster_mem (n : Nat) (f : Cluster → Cluster) : (s.modCluster n f).mem = s.mem := rfl
@[simp] theorem State.modCluster_poison (n : Nat) (f : Cluster → Cluster) : (s.modCluster n f).poison = s.poison := rfl
@[simp] theorem State.modCluster_ecc (n : Nat) (f : Cluster → Cluster) : (s.modCluster n f).ecc = s.ecc := rfl
@[simp] theorem State.modCluster_home (n : Nat) (f : Cluster → Cluster) : (s.modCluster n f).home = s.home := rfl
@[simp] theorem State.modCluster_variant (n : Nat) (f : Cluster → Cluster) : (s.modCluster n f).variant = s.variant := rfl
@[simp] theorem State.modCluster_bads (n : Nat) (f : Cluster → Cluster) : (s.modCluster n f).bads = s.bads := rfl
@[simp] theorem State.modCluster_atoms (n : Nat) (f : Cluster → Cluster) : (s.modCluster n f).atoms = s.atoms := rfl
@[simp] theorem State.modCluster_kernels (n : Nat) (f : Cluster → Cluster) : (s.modCluster n f).kernels = s.kernels := rfl
@[simp] theorem State.modCluster_insts (n : Nat) (f : Cluster → Cluster) : (s.modCluster n f).insts = s.insts := rfl
@[simp] theorem State.modCluster_cdq (n : Nat) (f : Cluster → Cluster) : (s.modCluster n f).cdq = s.cdq := rfl
@[simp] theorem State.modCluster_msgs (n : Nat) (f : Cluster → Cluster) : (s.modCluster n f).msgs = s.msgs := rfl
@[simp] theorem State.modCluster_events (n : Nat) (f : Cluster → Cluster) : (s.modCluster n f).events = s.events := rfl
@[simp] theorem State.modCluster_gates (n : Nat) (f : Cluster → Cluster) : (s.modCluster n f).gates = s.gates := rfl
@[simp] theorem State.modCluster_queues (n : Nat) (f : Cluster → Cluster) : (s.modCluster n f).queues = s.queues := rfl
@[simp] theorem State.modCluster_handles (n : Nat) (f : Cluster → Cluster) : (s.modCluster n f).handles = s.handles := rfl
@[simp] theorem State.modCluster_msix (n : Nat) (f : Cluster → Cluster) : (s.modCluster n f).msix = s.msix := rfl
@[simp] theorem State.modCluster_links (n : Nat) (f : Cluster → Cluster) : (s.modCluster n f).links = s.links := rfl
@[simp] theorem State.modCluster_power (n : Nat) (f : Cluster → Cluster) : (s.modCluster n f).power = s.power := rfl
@[simp] theorem State.modCluster_ras (n : Nat) (f : Cluster → Cluster) : (s.modCluster n f).ras = s.ras := rfl
@[simp] theorem State.modCluster_time (n : Nat) (f : Cluster → Cluster) : (s.modCluster n f).time = s.time := rfl
@[simp] theorem State.modCluster_free (n : Nat) (f : Cluster → Cluster) : (s.modCluster n f).free = s.free := rfl
@[simp] theorem State.modCluster_agenda (n : Nat) (f : Cluster → Cluster) : (s.modCluster n f).agenda = s.agenda := rfl
@[simp] theorem State.modCluster_late (n : Nat) (f : Cluster → Cluster) : (s.modCluster n f).late = s.late := rfl
@[simp] theorem State.modCluster_opened (n : Nat) (f : Cluster → Cluster) : (s.modCluster n f).opened = s.opened := rfl
@[simp] theorem State.modCluster_walking (n : Nat) (f : Cluster → Cluster) : (s.modCluster n f).walking = s.walking := rfl
@[simp] theorem State.modCluster_walkCache (n : Nat) (f : Cluster → Cluster) : (s.modCluster n f).walkCache = s.walkCache := rfl
@[simp] theorem State.modCluster_expanded (n : Nat) (f : Cluster → Cluster) : (s.modCluster n f).expanded = s.expanded := rfl
@[simp] theorem State.modCluster_forms (n : Nat) (f : Cluster → Cluster) : (s.modCluster n f).forms = s.forms := rfl
@[simp] theorem State.modCluster_nextBad (n : Nat) (f : Cluster → Cluster) : (s.modCluster n f).nextBad = s.nextBad := rfl
@[simp] theorem State.modCluster_nextKernel (n : Nat) (f : Cluster → Cluster) : (s.modCluster n f).nextKernel = s.nextKernel := rfl
@[simp] theorem State.modCluster_relocs (n : Nat) (f : Cluster → Cluster) : (s.modCluster n f).relocs = s.relocs := rfl
@[simp] theorem State.modCluster_nextInst (n : Nat) (f : Cluster → Cluster) : (s.modCluster n f).nextInst = s.nextInst := rfl
@[simp] theorem State.modCluster_nextPkt (n : Nat) (f : Cluster → Cluster) : (s.modCluster n f).nextPkt = s.nextPkt := rfl
@[simp] theorem State.modCluster_spilled (n : Nat) (f : Cluster → Cluster) : (s.modCluster n f).spilled = s.spilled := rfl
@[simp] theorem State.modCluster_bar2 (n : Nat) (f : Cluster → Cluster) : (s.modCluster n f).bar2 = s.bar2 := rfl
@[simp] theorem State.modCluster_aer (n : Nat) (f : Cluster → Cluster) : (s.modCluster n f).aer = s.aer := rfl
@[simp] theorem State.modCluster_aerCor (n : Nat) (f : Cluster → Cluster) : (s.modCluster n f).aerCor = s.aerCor := rfl
@[simp] theorem State.modCluster_hostReads (n : Nat) (f : Cluster → Cluster) : (s.modCluster n f).hostReads = s.hostReads := rfl
@[simp] theorem State.modCluster_routes (n : Nat) (f : Cluster → Cluster) : (s.modCluster n f).routes = s.routes := rfl
@[simp] theorem State.modCluster_winbase (n : Nat) (f : Cluster → Cluster) : (s.modCluster n f).winbase = s.winbase := rfl
@[simp] theorem State.modCluster_replies (n : Nat) (f : Cluster → Cluster) : (s.modCluster n f).replies = s.replies := rfl
@[simp] theorem State.modCluster_endSeq (n : Nat) (f : Cluster → Cluster) : (s.modCluster n f).endSeq = s.endSeq := rfl
@[simp] theorem State.modCluster_hostWrites (n : Nat) (f : Cluster → Cluster) : (s.modCluster n f).hostWrites = s.hostWrites := rfl
@[simp] theorem State.modCluster_keytab (n : Nat) (f : Cluster → Cluster) : (s.modCluster n f).keytab = s.keytab := rfl
@[simp] theorem State.modCluster_krels (n : Nat) (f : Cluster → Cluster) : (s.modCluster n f).krels = s.krels := rfl
@[simp] theorem State.modCluster_timeRead (n : Nat) (f : Cluster → Cluster) : (s.modCluster n f).timeRead = s.timeRead := rfl
@[simp] theorem State.modCluster_turn (n : Nat) (f : Cluster → Cluster) : (s.modCluster n f).turn = s.turn := rfl

/-! ## `modPart` leaves every other field -/

@[simp] theorem State.modPart_cx (n : Nat) (f : Part → Part) : (s.modPart n f).cx = s.cx := rfl
@[simp] theorem State.modPart_others (n : Nat) (f : Part → Part) : (s.modPart n f).others = s.others := rfl
@[simp] theorem State.modPart_cores (n : Nat) (f : Part → Part) : (s.modPart n f).cores = s.cores := rfl
@[simp] theorem State.modPart_clusters (n : Nat) (f : Part → Part) : (s.modPart n f).clusters = s.clusters := rfl
@[simp] theorem State.modPart_cmap (n : Nat) (f : Part → Part) : (s.modPart n f).cmap = s.cmap := rfl
@[simp] theorem State.modPart_mem (n : Nat) (f : Part → Part) : (s.modPart n f).mem = s.mem := rfl
@[simp] theorem State.modPart_poison (n : Nat) (f : Part → Part) : (s.modPart n f).poison = s.poison := rfl
@[simp] theorem State.modPart_ecc (n : Nat) (f : Part → Part) : (s.modPart n f).ecc = s.ecc := rfl
@[simp] theorem State.modPart_home (n : Nat) (f : Part → Part) : (s.modPart n f).home = s.home := rfl
@[simp] theorem State.modPart_variant (n : Nat) (f : Part → Part) : (s.modPart n f).variant = s.variant := rfl
@[simp] theorem State.modPart_bads (n : Nat) (f : Part → Part) : (s.modPart n f).bads = s.bads := rfl
@[simp] theorem State.modPart_atoms (n : Nat) (f : Part → Part) : (s.modPart n f).atoms = s.atoms := rfl
@[simp] theorem State.modPart_kernels (n : Nat) (f : Part → Part) : (s.modPart n f).kernels = s.kernels := rfl
@[simp] theorem State.modPart_insts (n : Nat) (f : Part → Part) : (s.modPart n f).insts = s.insts := rfl
@[simp] theorem State.modPart_cdq (n : Nat) (f : Part → Part) : (s.modPart n f).cdq = s.cdq := rfl
@[simp] theorem State.modPart_msgs (n : Nat) (f : Part → Part) : (s.modPart n f).msgs = s.msgs := rfl
@[simp] theorem State.modPart_events (n : Nat) (f : Part → Part) : (s.modPart n f).events = s.events := rfl
@[simp] theorem State.modPart_gates (n : Nat) (f : Part → Part) : (s.modPart n f).gates = s.gates := rfl
@[simp] theorem State.modPart_queues (n : Nat) (f : Part → Part) : (s.modPart n f).queues = s.queues := rfl
@[simp] theorem State.modPart_handles (n : Nat) (f : Part → Part) : (s.modPart n f).handles = s.handles := rfl
@[simp] theorem State.modPart_msix (n : Nat) (f : Part → Part) : (s.modPart n f).msix = s.msix := rfl
@[simp] theorem State.modPart_links (n : Nat) (f : Part → Part) : (s.modPart n f).links = s.links := rfl
@[simp] theorem State.modPart_power (n : Nat) (f : Part → Part) : (s.modPart n f).power = s.power := rfl
@[simp] theorem State.modPart_ras (n : Nat) (f : Part → Part) : (s.modPart n f).ras = s.ras := rfl
@[simp] theorem State.modPart_time (n : Nat) (f : Part → Part) : (s.modPart n f).time = s.time := rfl
@[simp] theorem State.modPart_free (n : Nat) (f : Part → Part) : (s.modPart n f).free = s.free := rfl
@[simp] theorem State.modPart_agenda (n : Nat) (f : Part → Part) : (s.modPart n f).agenda = s.agenda := rfl
@[simp] theorem State.modPart_late (n : Nat) (f : Part → Part) : (s.modPart n f).late = s.late := rfl
@[simp] theorem State.modPart_opened (n : Nat) (f : Part → Part) : (s.modPart n f).opened = s.opened := rfl
@[simp] theorem State.modPart_walking (n : Nat) (f : Part → Part) : (s.modPart n f).walking = s.walking := rfl
@[simp] theorem State.modPart_walkCache (n : Nat) (f : Part → Part) : (s.modPart n f).walkCache = s.walkCache := rfl
@[simp] theorem State.modPart_expanded (n : Nat) (f : Part → Part) : (s.modPart n f).expanded = s.expanded := rfl
@[simp] theorem State.modPart_forms (n : Nat) (f : Part → Part) : (s.modPart n f).forms = s.forms := rfl
@[simp] theorem State.modPart_nextBad (n : Nat) (f : Part → Part) : (s.modPart n f).nextBad = s.nextBad := rfl
@[simp] theorem State.modPart_nextKernel (n : Nat) (f : Part → Part) : (s.modPart n f).nextKernel = s.nextKernel := rfl
@[simp] theorem State.modPart_relocs (n : Nat) (f : Part → Part) : (s.modPart n f).relocs = s.relocs := rfl
@[simp] theorem State.modPart_nextInst (n : Nat) (f : Part → Part) : (s.modPart n f).nextInst = s.nextInst := rfl
@[simp] theorem State.modPart_nextPkt (n : Nat) (f : Part → Part) : (s.modPart n f).nextPkt = s.nextPkt := rfl
@[simp] theorem State.modPart_spilled (n : Nat) (f : Part → Part) : (s.modPart n f).spilled = s.spilled := rfl
@[simp] theorem State.modPart_bar2 (n : Nat) (f : Part → Part) : (s.modPart n f).bar2 = s.bar2 := rfl
@[simp] theorem State.modPart_aer (n : Nat) (f : Part → Part) : (s.modPart n f).aer = s.aer := rfl
@[simp] theorem State.modPart_aerCor (n : Nat) (f : Part → Part) : (s.modPart n f).aerCor = s.aerCor := rfl
@[simp] theorem State.modPart_hostReads (n : Nat) (f : Part → Part) : (s.modPart n f).hostReads = s.hostReads := rfl
@[simp] theorem State.modPart_routes (n : Nat) (f : Part → Part) : (s.modPart n f).routes = s.routes := rfl
@[simp] theorem State.modPart_winbase (n : Nat) (f : Part → Part) : (s.modPart n f).winbase = s.winbase := rfl
@[simp] theorem State.modPart_replies (n : Nat) (f : Part → Part) : (s.modPart n f).replies = s.replies := rfl
@[simp] theorem State.modPart_endSeq (n : Nat) (f : Part → Part) : (s.modPart n f).endSeq = s.endSeq := rfl
@[simp] theorem State.modPart_hostWrites (n : Nat) (f : Part → Part) : (s.modPart n f).hostWrites = s.hostWrites := rfl
@[simp] theorem State.modPart_keytab (n : Nat) (f : Part → Part) : (s.modPart n f).keytab = s.keytab := rfl
@[simp] theorem State.modPart_krels (n : Nat) (f : Part → Part) : (s.modPart n f).krels = s.krels := rfl
@[simp] theorem State.modPart_timeRead (n : Nat) (f : Part → Part) : (s.modPart n f).timeRead = s.timeRead := rfl
@[simp] theorem State.modPart_turn (n : Nat) (f : Part → Part) : (s.modPart n f).turn = s.turn := rfl

/-! ## `modInst` leaves every other field -/

@[simp] theorem State.modInst_cx (n : Nat) (f : Inst → Inst) : (s.modInst n f).cx = s.cx := rfl
@[simp] theorem State.modInst_others (n : Nat) (f : Inst → Inst) : (s.modInst n f).others = s.others := rfl
@[simp] theorem State.modInst_cores (n : Nat) (f : Inst → Inst) : (s.modInst n f).cores = s.cores := rfl
@[simp] theorem State.modInst_clusters (n : Nat) (f : Inst → Inst) : (s.modInst n f).clusters = s.clusters := rfl
@[simp] theorem State.modInst_parts (n : Nat) (f : Inst → Inst) : (s.modInst n f).parts = s.parts := rfl
@[simp] theorem State.modInst_cmap (n : Nat) (f : Inst → Inst) : (s.modInst n f).cmap = s.cmap := rfl
@[simp] theorem State.modInst_mem (n : Nat) (f : Inst → Inst) : (s.modInst n f).mem = s.mem := rfl
@[simp] theorem State.modInst_poison (n : Nat) (f : Inst → Inst) : (s.modInst n f).poison = s.poison := rfl
@[simp] theorem State.modInst_ecc (n : Nat) (f : Inst → Inst) : (s.modInst n f).ecc = s.ecc := rfl
@[simp] theorem State.modInst_home (n : Nat) (f : Inst → Inst) : (s.modInst n f).home = s.home := rfl
@[simp] theorem State.modInst_variant (n : Nat) (f : Inst → Inst) : (s.modInst n f).variant = s.variant := rfl
@[simp] theorem State.modInst_bads (n : Nat) (f : Inst → Inst) : (s.modInst n f).bads = s.bads := rfl
@[simp] theorem State.modInst_atoms (n : Nat) (f : Inst → Inst) : (s.modInst n f).atoms = s.atoms := rfl
@[simp] theorem State.modInst_kernels (n : Nat) (f : Inst → Inst) : (s.modInst n f).kernels = s.kernels := rfl
@[simp] theorem State.modInst_cdq (n : Nat) (f : Inst → Inst) : (s.modInst n f).cdq = s.cdq := rfl
@[simp] theorem State.modInst_msgs (n : Nat) (f : Inst → Inst) : (s.modInst n f).msgs = s.msgs := rfl
@[simp] theorem State.modInst_events (n : Nat) (f : Inst → Inst) : (s.modInst n f).events = s.events := rfl
@[simp] theorem State.modInst_gates (n : Nat) (f : Inst → Inst) : (s.modInst n f).gates = s.gates := rfl
@[simp] theorem State.modInst_queues (n : Nat) (f : Inst → Inst) : (s.modInst n f).queues = s.queues := rfl
@[simp] theorem State.modInst_handles (n : Nat) (f : Inst → Inst) : (s.modInst n f).handles = s.handles := rfl
@[simp] theorem State.modInst_msix (n : Nat) (f : Inst → Inst) : (s.modInst n f).msix = s.msix := rfl
@[simp] theorem State.modInst_links (n : Nat) (f : Inst → Inst) : (s.modInst n f).links = s.links := rfl
@[simp] theorem State.modInst_power (n : Nat) (f : Inst → Inst) : (s.modInst n f).power = s.power := rfl
@[simp] theorem State.modInst_ras (n : Nat) (f : Inst → Inst) : (s.modInst n f).ras = s.ras := rfl
@[simp] theorem State.modInst_time (n : Nat) (f : Inst → Inst) : (s.modInst n f).time = s.time := rfl
@[simp] theorem State.modInst_free (n : Nat) (f : Inst → Inst) : (s.modInst n f).free = s.free := rfl
@[simp] theorem State.modInst_agenda (n : Nat) (f : Inst → Inst) : (s.modInst n f).agenda = s.agenda := rfl
@[simp] theorem State.modInst_late (n : Nat) (f : Inst → Inst) : (s.modInst n f).late = s.late := rfl
@[simp] theorem State.modInst_opened (n : Nat) (f : Inst → Inst) : (s.modInst n f).opened = s.opened := rfl
@[simp] theorem State.modInst_walking (n : Nat) (f : Inst → Inst) : (s.modInst n f).walking = s.walking := rfl
@[simp] theorem State.modInst_walkCache (n : Nat) (f : Inst → Inst) : (s.modInst n f).walkCache = s.walkCache := rfl
@[simp] theorem State.modInst_expanded (n : Nat) (f : Inst → Inst) : (s.modInst n f).expanded = s.expanded := rfl
@[simp] theorem State.modInst_forms (n : Nat) (f : Inst → Inst) : (s.modInst n f).forms = s.forms := rfl
@[simp] theorem State.modInst_nextBad (n : Nat) (f : Inst → Inst) : (s.modInst n f).nextBad = s.nextBad := rfl
@[simp] theorem State.modInst_nextKernel (n : Nat) (f : Inst → Inst) : (s.modInst n f).nextKernel = s.nextKernel := rfl
@[simp] theorem State.modInst_relocs (n : Nat) (f : Inst → Inst) : (s.modInst n f).relocs = s.relocs := rfl
@[simp] theorem State.modInst_nextInst (n : Nat) (f : Inst → Inst) : (s.modInst n f).nextInst = s.nextInst := rfl
@[simp] theorem State.modInst_nextPkt (n : Nat) (f : Inst → Inst) : (s.modInst n f).nextPkt = s.nextPkt := rfl
@[simp] theorem State.modInst_spilled (n : Nat) (f : Inst → Inst) : (s.modInst n f).spilled = s.spilled := rfl
@[simp] theorem State.modInst_bar2 (n : Nat) (f : Inst → Inst) : (s.modInst n f).bar2 = s.bar2 := rfl
@[simp] theorem State.modInst_aer (n : Nat) (f : Inst → Inst) : (s.modInst n f).aer = s.aer := rfl
@[simp] theorem State.modInst_aerCor (n : Nat) (f : Inst → Inst) : (s.modInst n f).aerCor = s.aerCor := rfl
@[simp] theorem State.modInst_hostReads (n : Nat) (f : Inst → Inst) : (s.modInst n f).hostReads = s.hostReads := rfl
@[simp] theorem State.modInst_routes (n : Nat) (f : Inst → Inst) : (s.modInst n f).routes = s.routes := rfl
@[simp] theorem State.modInst_winbase (n : Nat) (f : Inst → Inst) : (s.modInst n f).winbase = s.winbase := rfl
@[simp] theorem State.modInst_replies (n : Nat) (f : Inst → Inst) : (s.modInst n f).replies = s.replies := rfl
@[simp] theorem State.modInst_endSeq (n : Nat) (f : Inst → Inst) : (s.modInst n f).endSeq = s.endSeq := rfl
@[simp] theorem State.modInst_hostWrites (n : Nat) (f : Inst → Inst) : (s.modInst n f).hostWrites = s.hostWrites := rfl
@[simp] theorem State.modInst_keytab (n : Nat) (f : Inst → Inst) : (s.modInst n f).keytab = s.keytab := rfl
@[simp] theorem State.modInst_krels (n : Nat) (f : Inst → Inst) : (s.modInst n f).krels = s.krels := rfl
@[simp] theorem State.modInst_timeRead (n : Nat) (f : Inst → Inst) : (s.modInst n f).timeRead = s.timeRead := rfl
@[simp] theorem State.modInst_turn (n : Nat) (f : Inst → Inst) : (s.modInst n f).turn = s.turn := rfl

/-! ## `modKernel` leaves every other field -/

@[simp] theorem State.modKernel_cx (n : Nat) (f : Kernel → Kernel) : (s.modKernel n f).cx = s.cx := rfl
@[simp] theorem State.modKernel_others (n : Nat) (f : Kernel → Kernel) : (s.modKernel n f).others = s.others := rfl
@[simp] theorem State.modKernel_cores (n : Nat) (f : Kernel → Kernel) : (s.modKernel n f).cores = s.cores := rfl
@[simp] theorem State.modKernel_clusters (n : Nat) (f : Kernel → Kernel) : (s.modKernel n f).clusters = s.clusters := rfl
@[simp] theorem State.modKernel_parts (n : Nat) (f : Kernel → Kernel) : (s.modKernel n f).parts = s.parts := rfl
@[simp] theorem State.modKernel_cmap (n : Nat) (f : Kernel → Kernel) : (s.modKernel n f).cmap = s.cmap := rfl
@[simp] theorem State.modKernel_mem (n : Nat) (f : Kernel → Kernel) : (s.modKernel n f).mem = s.mem := rfl
@[simp] theorem State.modKernel_poison (n : Nat) (f : Kernel → Kernel) : (s.modKernel n f).poison = s.poison := rfl
@[simp] theorem State.modKernel_ecc (n : Nat) (f : Kernel → Kernel) : (s.modKernel n f).ecc = s.ecc := rfl
@[simp] theorem State.modKernel_home (n : Nat) (f : Kernel → Kernel) : (s.modKernel n f).home = s.home := rfl
@[simp] theorem State.modKernel_variant (n : Nat) (f : Kernel → Kernel) : (s.modKernel n f).variant = s.variant := rfl
@[simp] theorem State.modKernel_bads (n : Nat) (f : Kernel → Kernel) : (s.modKernel n f).bads = s.bads := rfl
@[simp] theorem State.modKernel_atoms (n : Nat) (f : Kernel → Kernel) : (s.modKernel n f).atoms = s.atoms := rfl
@[simp] theorem State.modKernel_insts (n : Nat) (f : Kernel → Kernel) : (s.modKernel n f).insts = s.insts := rfl
@[simp] theorem State.modKernel_cdq (n : Nat) (f : Kernel → Kernel) : (s.modKernel n f).cdq = s.cdq := rfl
@[simp] theorem State.modKernel_msgs (n : Nat) (f : Kernel → Kernel) : (s.modKernel n f).msgs = s.msgs := rfl
@[simp] theorem State.modKernel_events (n : Nat) (f : Kernel → Kernel) : (s.modKernel n f).events = s.events := rfl
@[simp] theorem State.modKernel_gates (n : Nat) (f : Kernel → Kernel) : (s.modKernel n f).gates = s.gates := rfl
@[simp] theorem State.modKernel_queues (n : Nat) (f : Kernel → Kernel) : (s.modKernel n f).queues = s.queues := rfl
@[simp] theorem State.modKernel_handles (n : Nat) (f : Kernel → Kernel) : (s.modKernel n f).handles = s.handles := rfl
@[simp] theorem State.modKernel_msix (n : Nat) (f : Kernel → Kernel) : (s.modKernel n f).msix = s.msix := rfl
@[simp] theorem State.modKernel_links (n : Nat) (f : Kernel → Kernel) : (s.modKernel n f).links = s.links := rfl
@[simp] theorem State.modKernel_power (n : Nat) (f : Kernel → Kernel) : (s.modKernel n f).power = s.power := rfl
@[simp] theorem State.modKernel_ras (n : Nat) (f : Kernel → Kernel) : (s.modKernel n f).ras = s.ras := rfl
@[simp] theorem State.modKernel_time (n : Nat) (f : Kernel → Kernel) : (s.modKernel n f).time = s.time := rfl
@[simp] theorem State.modKernel_free (n : Nat) (f : Kernel → Kernel) : (s.modKernel n f).free = s.free := rfl
@[simp] theorem State.modKernel_agenda (n : Nat) (f : Kernel → Kernel) : (s.modKernel n f).agenda = s.agenda := rfl
@[simp] theorem State.modKernel_late (n : Nat) (f : Kernel → Kernel) : (s.modKernel n f).late = s.late := rfl
@[simp] theorem State.modKernel_opened (n : Nat) (f : Kernel → Kernel) : (s.modKernel n f).opened = s.opened := rfl
@[simp] theorem State.modKernel_walking (n : Nat) (f : Kernel → Kernel) : (s.modKernel n f).walking = s.walking := rfl
@[simp] theorem State.modKernel_walkCache (n : Nat) (f : Kernel → Kernel) : (s.modKernel n f).walkCache = s.walkCache := rfl
@[simp] theorem State.modKernel_expanded (n : Nat) (f : Kernel → Kernel) : (s.modKernel n f).expanded = s.expanded := rfl
@[simp] theorem State.modKernel_forms (n : Nat) (f : Kernel → Kernel) : (s.modKernel n f).forms = s.forms := rfl
@[simp] theorem State.modKernel_nextBad (n : Nat) (f : Kernel → Kernel) : (s.modKernel n f).nextBad = s.nextBad := rfl
@[simp] theorem State.modKernel_nextKernel (n : Nat) (f : Kernel → Kernel) : (s.modKernel n f).nextKernel = s.nextKernel := rfl
@[simp] theorem State.modKernel_relocs (n : Nat) (f : Kernel → Kernel) : (s.modKernel n f).relocs = s.relocs := rfl
@[simp] theorem State.modKernel_nextInst (n : Nat) (f : Kernel → Kernel) : (s.modKernel n f).nextInst = s.nextInst := rfl
@[simp] theorem State.modKernel_nextPkt (n : Nat) (f : Kernel → Kernel) : (s.modKernel n f).nextPkt = s.nextPkt := rfl
@[simp] theorem State.modKernel_spilled (n : Nat) (f : Kernel → Kernel) : (s.modKernel n f).spilled = s.spilled := rfl
@[simp] theorem State.modKernel_bar2 (n : Nat) (f : Kernel → Kernel) : (s.modKernel n f).bar2 = s.bar2 := rfl
@[simp] theorem State.modKernel_aer (n : Nat) (f : Kernel → Kernel) : (s.modKernel n f).aer = s.aer := rfl
@[simp] theorem State.modKernel_aerCor (n : Nat) (f : Kernel → Kernel) : (s.modKernel n f).aerCor = s.aerCor := rfl
@[simp] theorem State.modKernel_hostReads (n : Nat) (f : Kernel → Kernel) : (s.modKernel n f).hostReads = s.hostReads := rfl
@[simp] theorem State.modKernel_routes (n : Nat) (f : Kernel → Kernel) : (s.modKernel n f).routes = s.routes := rfl
@[simp] theorem State.modKernel_winbase (n : Nat) (f : Kernel → Kernel) : (s.modKernel n f).winbase = s.winbase := rfl
@[simp] theorem State.modKernel_replies (n : Nat) (f : Kernel → Kernel) : (s.modKernel n f).replies = s.replies := rfl
@[simp] theorem State.modKernel_endSeq (n : Nat) (f : Kernel → Kernel) : (s.modKernel n f).endSeq = s.endSeq := rfl
@[simp] theorem State.modKernel_hostWrites (n : Nat) (f : Kernel → Kernel) : (s.modKernel n f).hostWrites = s.hostWrites := rfl
@[simp] theorem State.modKernel_keytab (n : Nat) (f : Kernel → Kernel) : (s.modKernel n f).keytab = s.keytab := rfl
@[simp] theorem State.modKernel_krels (n : Nat) (f : Kernel → Kernel) : (s.modKernel n f).krels = s.krels := rfl
@[simp] theorem State.modKernel_timeRead (n : Nat) (f : Kernel → Kernel) : (s.modKernel n f).timeRead = s.timeRead := rfl
@[simp] theorem State.modKernel_turn (n : Nat) (f : Kernel → Kernel) : (s.modKernel n f).turn = s.turn := rfl

/-! ## `modQueue` leaves every other field -/

@[simp] theorem State.modQueue_cx (n : Nat) (f : Queue → Queue) : (s.modQueue n f).cx = s.cx := rfl
@[simp] theorem State.modQueue_others (n : Nat) (f : Queue → Queue) : (s.modQueue n f).others = s.others := rfl
@[simp] theorem State.modQueue_cores (n : Nat) (f : Queue → Queue) : (s.modQueue n f).cores = s.cores := rfl
@[simp] theorem State.modQueue_clusters (n : Nat) (f : Queue → Queue) : (s.modQueue n f).clusters = s.clusters := rfl
@[simp] theorem State.modQueue_parts (n : Nat) (f : Queue → Queue) : (s.modQueue n f).parts = s.parts := rfl
@[simp] theorem State.modQueue_cmap (n : Nat) (f : Queue → Queue) : (s.modQueue n f).cmap = s.cmap := rfl
@[simp] theorem State.modQueue_mem (n : Nat) (f : Queue → Queue) : (s.modQueue n f).mem = s.mem := rfl
@[simp] theorem State.modQueue_poison (n : Nat) (f : Queue → Queue) : (s.modQueue n f).poison = s.poison := rfl
@[simp] theorem State.modQueue_ecc (n : Nat) (f : Queue → Queue) : (s.modQueue n f).ecc = s.ecc := rfl
@[simp] theorem State.modQueue_home (n : Nat) (f : Queue → Queue) : (s.modQueue n f).home = s.home := rfl
@[simp] theorem State.modQueue_variant (n : Nat) (f : Queue → Queue) : (s.modQueue n f).variant = s.variant := rfl
@[simp] theorem State.modQueue_bads (n : Nat) (f : Queue → Queue) : (s.modQueue n f).bads = s.bads := rfl
@[simp] theorem State.modQueue_atoms (n : Nat) (f : Queue → Queue) : (s.modQueue n f).atoms = s.atoms := rfl
@[simp] theorem State.modQueue_kernels (n : Nat) (f : Queue → Queue) : (s.modQueue n f).kernels = s.kernels := rfl
@[simp] theorem State.modQueue_insts (n : Nat) (f : Queue → Queue) : (s.modQueue n f).insts = s.insts := rfl
@[simp] theorem State.modQueue_cdq (n : Nat) (f : Queue → Queue) : (s.modQueue n f).cdq = s.cdq := rfl
@[simp] theorem State.modQueue_msgs (n : Nat) (f : Queue → Queue) : (s.modQueue n f).msgs = s.msgs := rfl
@[simp] theorem State.modQueue_events (n : Nat) (f : Queue → Queue) : (s.modQueue n f).events = s.events := rfl
@[simp] theorem State.modQueue_gates (n : Nat) (f : Queue → Queue) : (s.modQueue n f).gates = s.gates := rfl
@[simp] theorem State.modQueue_handles (n : Nat) (f : Queue → Queue) : (s.modQueue n f).handles = s.handles := rfl
@[simp] theorem State.modQueue_msix (n : Nat) (f : Queue → Queue) : (s.modQueue n f).msix = s.msix := rfl
@[simp] theorem State.modQueue_links (n : Nat) (f : Queue → Queue) : (s.modQueue n f).links = s.links := rfl
@[simp] theorem State.modQueue_power (n : Nat) (f : Queue → Queue) : (s.modQueue n f).power = s.power := rfl
@[simp] theorem State.modQueue_ras (n : Nat) (f : Queue → Queue) : (s.modQueue n f).ras = s.ras := rfl
@[simp] theorem State.modQueue_time (n : Nat) (f : Queue → Queue) : (s.modQueue n f).time = s.time := rfl
@[simp] theorem State.modQueue_free (n : Nat) (f : Queue → Queue) : (s.modQueue n f).free = s.free := rfl
@[simp] theorem State.modQueue_agenda (n : Nat) (f : Queue → Queue) : (s.modQueue n f).agenda = s.agenda := rfl
@[simp] theorem State.modQueue_late (n : Nat) (f : Queue → Queue) : (s.modQueue n f).late = s.late := rfl
@[simp] theorem State.modQueue_opened (n : Nat) (f : Queue → Queue) : (s.modQueue n f).opened = s.opened := rfl
@[simp] theorem State.modQueue_walking (n : Nat) (f : Queue → Queue) : (s.modQueue n f).walking = s.walking := rfl
@[simp] theorem State.modQueue_walkCache (n : Nat) (f : Queue → Queue) : (s.modQueue n f).walkCache = s.walkCache := rfl
@[simp] theorem State.modQueue_expanded (n : Nat) (f : Queue → Queue) : (s.modQueue n f).expanded = s.expanded := rfl
@[simp] theorem State.modQueue_forms (n : Nat) (f : Queue → Queue) : (s.modQueue n f).forms = s.forms := rfl
@[simp] theorem State.modQueue_nextBad (n : Nat) (f : Queue → Queue) : (s.modQueue n f).nextBad = s.nextBad := rfl
@[simp] theorem State.modQueue_nextKernel (n : Nat) (f : Queue → Queue) : (s.modQueue n f).nextKernel = s.nextKernel := rfl
@[simp] theorem State.modQueue_relocs (n : Nat) (f : Queue → Queue) : (s.modQueue n f).relocs = s.relocs := rfl
@[simp] theorem State.modQueue_nextInst (n : Nat) (f : Queue → Queue) : (s.modQueue n f).nextInst = s.nextInst := rfl
@[simp] theorem State.modQueue_nextPkt (n : Nat) (f : Queue → Queue) : (s.modQueue n f).nextPkt = s.nextPkt := rfl
@[simp] theorem State.modQueue_spilled (n : Nat) (f : Queue → Queue) : (s.modQueue n f).spilled = s.spilled := rfl
@[simp] theorem State.modQueue_bar2 (n : Nat) (f : Queue → Queue) : (s.modQueue n f).bar2 = s.bar2 := rfl
@[simp] theorem State.modQueue_aer (n : Nat) (f : Queue → Queue) : (s.modQueue n f).aer = s.aer := rfl
@[simp] theorem State.modQueue_aerCor (n : Nat) (f : Queue → Queue) : (s.modQueue n f).aerCor = s.aerCor := rfl
@[simp] theorem State.modQueue_hostReads (n : Nat) (f : Queue → Queue) : (s.modQueue n f).hostReads = s.hostReads := rfl
@[simp] theorem State.modQueue_routes (n : Nat) (f : Queue → Queue) : (s.modQueue n f).routes = s.routes := rfl
@[simp] theorem State.modQueue_winbase (n : Nat) (f : Queue → Queue) : (s.modQueue n f).winbase = s.winbase := rfl
@[simp] theorem State.modQueue_replies (n : Nat) (f : Queue → Queue) : (s.modQueue n f).replies = s.replies := rfl
@[simp] theorem State.modQueue_endSeq (n : Nat) (f : Queue → Queue) : (s.modQueue n f).endSeq = s.endSeq := rfl
@[simp] theorem State.modQueue_hostWrites (n : Nat) (f : Queue → Queue) : (s.modQueue n f).hostWrites = s.hostWrites := rfl
@[simp] theorem State.modQueue_keytab (n : Nat) (f : Queue → Queue) : (s.modQueue n f).keytab = s.keytab := rfl
@[simp] theorem State.modQueue_krels (n : Nat) (f : Queue → Queue) : (s.modQueue n f).krels = s.krels := rfl
@[simp] theorem State.modQueue_timeRead (n : Nat) (f : Queue → Queue) : (s.modQueue n f).timeRead = s.timeRead := rfl
@[simp] theorem State.modQueue_turn (n : Nat) (f : Queue → Queue) : (s.modQueue n f).turn = s.turn := rfl

/-! ## `modLink` leaves every other field -/

@[simp] theorem State.modLink_cx (n : Nat) (f : Link → Link) : (s.modLink n f).cx = s.cx := rfl
@[simp] theorem State.modLink_others (n : Nat) (f : Link → Link) : (s.modLink n f).others = s.others := rfl
@[simp] theorem State.modLink_cores (n : Nat) (f : Link → Link) : (s.modLink n f).cores = s.cores := rfl
@[simp] theorem State.modLink_clusters (n : Nat) (f : Link → Link) : (s.modLink n f).clusters = s.clusters := rfl
@[simp] theorem State.modLink_parts (n : Nat) (f : Link → Link) : (s.modLink n f).parts = s.parts := rfl
@[simp] theorem State.modLink_cmap (n : Nat) (f : Link → Link) : (s.modLink n f).cmap = s.cmap := rfl
@[simp] theorem State.modLink_mem (n : Nat) (f : Link → Link) : (s.modLink n f).mem = s.mem := rfl
@[simp] theorem State.modLink_poison (n : Nat) (f : Link → Link) : (s.modLink n f).poison = s.poison := rfl
@[simp] theorem State.modLink_ecc (n : Nat) (f : Link → Link) : (s.modLink n f).ecc = s.ecc := rfl
@[simp] theorem State.modLink_home (n : Nat) (f : Link → Link) : (s.modLink n f).home = s.home := rfl
@[simp] theorem State.modLink_variant (n : Nat) (f : Link → Link) : (s.modLink n f).variant = s.variant := rfl
@[simp] theorem State.modLink_bads (n : Nat) (f : Link → Link) : (s.modLink n f).bads = s.bads := rfl
@[simp] theorem State.modLink_atoms (n : Nat) (f : Link → Link) : (s.modLink n f).atoms = s.atoms := rfl
@[simp] theorem State.modLink_kernels (n : Nat) (f : Link → Link) : (s.modLink n f).kernels = s.kernels := rfl
@[simp] theorem State.modLink_insts (n : Nat) (f : Link → Link) : (s.modLink n f).insts = s.insts := rfl
@[simp] theorem State.modLink_cdq (n : Nat) (f : Link → Link) : (s.modLink n f).cdq = s.cdq := rfl
@[simp] theorem State.modLink_msgs (n : Nat) (f : Link → Link) : (s.modLink n f).msgs = s.msgs := rfl
@[simp] theorem State.modLink_events (n : Nat) (f : Link → Link) : (s.modLink n f).events = s.events := rfl
@[simp] theorem State.modLink_gates (n : Nat) (f : Link → Link) : (s.modLink n f).gates = s.gates := rfl
@[simp] theorem State.modLink_queues (n : Nat) (f : Link → Link) : (s.modLink n f).queues = s.queues := rfl
@[simp] theorem State.modLink_handles (n : Nat) (f : Link → Link) : (s.modLink n f).handles = s.handles := rfl
@[simp] theorem State.modLink_msix (n : Nat) (f : Link → Link) : (s.modLink n f).msix = s.msix := rfl
@[simp] theorem State.modLink_power (n : Nat) (f : Link → Link) : (s.modLink n f).power = s.power := rfl
@[simp] theorem State.modLink_ras (n : Nat) (f : Link → Link) : (s.modLink n f).ras = s.ras := rfl
@[simp] theorem State.modLink_time (n : Nat) (f : Link → Link) : (s.modLink n f).time = s.time := rfl
@[simp] theorem State.modLink_free (n : Nat) (f : Link → Link) : (s.modLink n f).free = s.free := rfl
@[simp] theorem State.modLink_agenda (n : Nat) (f : Link → Link) : (s.modLink n f).agenda = s.agenda := rfl
@[simp] theorem State.modLink_late (n : Nat) (f : Link → Link) : (s.modLink n f).late = s.late := rfl
@[simp] theorem State.modLink_opened (n : Nat) (f : Link → Link) : (s.modLink n f).opened = s.opened := rfl
@[simp] theorem State.modLink_walking (n : Nat) (f : Link → Link) : (s.modLink n f).walking = s.walking := rfl
@[simp] theorem State.modLink_walkCache (n : Nat) (f : Link → Link) : (s.modLink n f).walkCache = s.walkCache := rfl
@[simp] theorem State.modLink_expanded (n : Nat) (f : Link → Link) : (s.modLink n f).expanded = s.expanded := rfl
@[simp] theorem State.modLink_forms (n : Nat) (f : Link → Link) : (s.modLink n f).forms = s.forms := rfl
@[simp] theorem State.modLink_nextBad (n : Nat) (f : Link → Link) : (s.modLink n f).nextBad = s.nextBad := rfl
@[simp] theorem State.modLink_nextKernel (n : Nat) (f : Link → Link) : (s.modLink n f).nextKernel = s.nextKernel := rfl
@[simp] theorem State.modLink_relocs (n : Nat) (f : Link → Link) : (s.modLink n f).relocs = s.relocs := rfl
@[simp] theorem State.modLink_nextInst (n : Nat) (f : Link → Link) : (s.modLink n f).nextInst = s.nextInst := rfl
@[simp] theorem State.modLink_nextPkt (n : Nat) (f : Link → Link) : (s.modLink n f).nextPkt = s.nextPkt := rfl
@[simp] theorem State.modLink_spilled (n : Nat) (f : Link → Link) : (s.modLink n f).spilled = s.spilled := rfl
@[simp] theorem State.modLink_bar2 (n : Nat) (f : Link → Link) : (s.modLink n f).bar2 = s.bar2 := rfl
@[simp] theorem State.modLink_aer (n : Nat) (f : Link → Link) : (s.modLink n f).aer = s.aer := rfl
@[simp] theorem State.modLink_aerCor (n : Nat) (f : Link → Link) : (s.modLink n f).aerCor = s.aerCor := rfl
@[simp] theorem State.modLink_hostReads (n : Nat) (f : Link → Link) : (s.modLink n f).hostReads = s.hostReads := rfl
@[simp] theorem State.modLink_routes (n : Nat) (f : Link → Link) : (s.modLink n f).routes = s.routes := rfl
@[simp] theorem State.modLink_winbase (n : Nat) (f : Link → Link) : (s.modLink n f).winbase = s.winbase := rfl
@[simp] theorem State.modLink_replies (n : Nat) (f : Link → Link) : (s.modLink n f).replies = s.replies := rfl
@[simp] theorem State.modLink_endSeq (n : Nat) (f : Link → Link) : (s.modLink n f).endSeq = s.endSeq := rfl
@[simp] theorem State.modLink_hostWrites (n : Nat) (f : Link → Link) : (s.modLink n f).hostWrites = s.hostWrites := rfl
@[simp] theorem State.modLink_keytab (n : Nat) (f : Link → Link) : (s.modLink n f).keytab = s.keytab := rfl
@[simp] theorem State.modLink_krels (n : Nat) (f : Link → Link) : (s.modLink n f).krels = s.krels := rfl
@[simp] theorem State.modLink_timeRead (n : Nat) (f : Link → Link) : (s.modLink n f).timeRead = s.timeRead := rfl
@[simp] theorem State.modLink_turn (n : Nat) (f : Link → Link) : (s.modLink n f).turn = s.turn := rfl

/-! ## `onCx` leaves every other field -/

@[simp] theorem State.onCx_others (f : Ctx → Ctx) : (s.onCx f).others = s.others := rfl
@[simp] theorem State.onCx_cores (f : Ctx → Ctx) : (s.onCx f).cores = s.cores := rfl
@[simp] theorem State.onCx_clusters (f : Ctx → Ctx) : (s.onCx f).clusters = s.clusters := rfl
@[simp] theorem State.onCx_parts (f : Ctx → Ctx) : (s.onCx f).parts = s.parts := rfl
@[simp] theorem State.onCx_cmap (f : Ctx → Ctx) : (s.onCx f).cmap = s.cmap := rfl
@[simp] theorem State.onCx_mem (f : Ctx → Ctx) : (s.onCx f).mem = s.mem := rfl
@[simp] theorem State.onCx_poison (f : Ctx → Ctx) : (s.onCx f).poison = s.poison := rfl
@[simp] theorem State.onCx_ecc (f : Ctx → Ctx) : (s.onCx f).ecc = s.ecc := rfl
@[simp] theorem State.onCx_home (f : Ctx → Ctx) : (s.onCx f).home = s.home := rfl
@[simp] theorem State.onCx_variant (f : Ctx → Ctx) : (s.onCx f).variant = s.variant := rfl
@[simp] theorem State.onCx_bads (f : Ctx → Ctx) : (s.onCx f).bads = s.bads := rfl
@[simp] theorem State.onCx_atoms (f : Ctx → Ctx) : (s.onCx f).atoms = s.atoms := rfl
@[simp] theorem State.onCx_kernels (f : Ctx → Ctx) : (s.onCx f).kernels = s.kernels := rfl
@[simp] theorem State.onCx_insts (f : Ctx → Ctx) : (s.onCx f).insts = s.insts := rfl
@[simp] theorem State.onCx_cdq (f : Ctx → Ctx) : (s.onCx f).cdq = s.cdq := rfl
@[simp] theorem State.onCx_msgs (f : Ctx → Ctx) : (s.onCx f).msgs = s.msgs := rfl
@[simp] theorem State.onCx_events (f : Ctx → Ctx) : (s.onCx f).events = s.events := rfl
@[simp] theorem State.onCx_gates (f : Ctx → Ctx) : (s.onCx f).gates = s.gates := rfl
@[simp] theorem State.onCx_queues (f : Ctx → Ctx) : (s.onCx f).queues = s.queues := rfl
@[simp] theorem State.onCx_handles (f : Ctx → Ctx) : (s.onCx f).handles = s.handles := rfl
@[simp] theorem State.onCx_msix (f : Ctx → Ctx) : (s.onCx f).msix = s.msix := rfl
@[simp] theorem State.onCx_links (f : Ctx → Ctx) : (s.onCx f).links = s.links := rfl
@[simp] theorem State.onCx_power (f : Ctx → Ctx) : (s.onCx f).power = s.power := rfl
@[simp] theorem State.onCx_ras (f : Ctx → Ctx) : (s.onCx f).ras = s.ras := rfl
@[simp] theorem State.onCx_time (f : Ctx → Ctx) : (s.onCx f).time = s.time := rfl
@[simp] theorem State.onCx_free (f : Ctx → Ctx) : (s.onCx f).free = s.free := rfl
@[simp] theorem State.onCx_agenda (f : Ctx → Ctx) : (s.onCx f).agenda = s.agenda := rfl
@[simp] theorem State.onCx_late (f : Ctx → Ctx) : (s.onCx f).late = s.late := rfl
@[simp] theorem State.onCx_opened (f : Ctx → Ctx) : (s.onCx f).opened = s.opened := rfl
@[simp] theorem State.onCx_walking (f : Ctx → Ctx) : (s.onCx f).walking = s.walking := rfl
@[simp] theorem State.onCx_walkCache (f : Ctx → Ctx) : (s.onCx f).walkCache = s.walkCache := rfl
@[simp] theorem State.onCx_expanded (f : Ctx → Ctx) : (s.onCx f).expanded = s.expanded := rfl
@[simp] theorem State.onCx_forms (f : Ctx → Ctx) : (s.onCx f).forms = s.forms := rfl
@[simp] theorem State.onCx_nextBad (f : Ctx → Ctx) : (s.onCx f).nextBad = s.nextBad := rfl
@[simp] theorem State.onCx_nextKernel (f : Ctx → Ctx) : (s.onCx f).nextKernel = s.nextKernel := rfl
@[simp] theorem State.onCx_relocs (f : Ctx → Ctx) : (s.onCx f).relocs = s.relocs := rfl
@[simp] theorem State.onCx_nextInst (f : Ctx → Ctx) : (s.onCx f).nextInst = s.nextInst := rfl
@[simp] theorem State.onCx_nextPkt (f : Ctx → Ctx) : (s.onCx f).nextPkt = s.nextPkt := rfl
@[simp] theorem State.onCx_spilled (f : Ctx → Ctx) : (s.onCx f).spilled = s.spilled := rfl
@[simp] theorem State.onCx_bar2 (f : Ctx → Ctx) : (s.onCx f).bar2 = s.bar2 := rfl
@[simp] theorem State.onCx_aer (f : Ctx → Ctx) : (s.onCx f).aer = s.aer := rfl
@[simp] theorem State.onCx_aerCor (f : Ctx → Ctx) : (s.onCx f).aerCor = s.aerCor := rfl
@[simp] theorem State.onCx_hostReads (f : Ctx → Ctx) : (s.onCx f).hostReads = s.hostReads := rfl
@[simp] theorem State.onCx_routes (f : Ctx → Ctx) : (s.onCx f).routes = s.routes := rfl
@[simp] theorem State.onCx_winbase (f : Ctx → Ctx) : (s.onCx f).winbase = s.winbase := rfl
@[simp] theorem State.onCx_replies (f : Ctx → Ctx) : (s.onCx f).replies = s.replies := rfl
@[simp] theorem State.onCx_endSeq (f : Ctx → Ctx) : (s.onCx f).endSeq = s.endSeq := rfl
@[simp] theorem State.onCx_hostWrites (f : Ctx → Ctx) : (s.onCx f).hostWrites = s.hostWrites := rfl
@[simp] theorem State.onCx_keytab (f : Ctx → Ctx) : (s.onCx f).keytab = s.keytab := rfl
@[simp] theorem State.onCx_krels (f : Ctx → Ctx) : (s.onCx f).krels = s.krels := rfl
@[simp] theorem State.onCx_timeRead (f : Ctx → Ctx) : (s.onCx f).timeRead = s.timeRead := rfl
@[simp] theorem State.onCx_turn (f : Ctx → Ctx) : (s.onCx f).turn = s.turn := rfl

end Machine
end Sys2Proof
end

