-- ==== Sys2Proof/Laws/Vector.lean ====
section
/-! SUPPORT. Elements of a register and the shapes of the vector instructions: what each element of a result is, and the
whole next state of an element-wise instruction. -/
namespace Sys2Proof.Machine
variable {s t u v w : State}

/-! ## Elements -/

theorem packNat_lt (w : Nat) : ∀ l : List Nat, packNat w l < 2 ^ (w * l.length)
  | [] => by simp [packNat]
  | x :: l => by
    have h := packNat_lt w l
    have hx : x % 2 ^ w < 2 ^ w := Nat.mod_lt _ (Nat.two_pow_pos w)
    simp only [packNat, List.length_cons, Nat.mul_succ, Nat.pow_add]
    calc x % 2 ^ w + 2 ^ w * packNat w l < 2 ^ w + 2 ^ w * packNat w l := by omega
      _ = 2 ^ w * (packNat w l + 1) := by ring
      _ ≤ 2 ^ w * 2 ^ (w * l.length) := Nat.mul_le_mul_left _ h
      _ = _ := by ring

theorem packNat_elem (w : Nat) : ∀ (l : List Nat) (i : Nat), packNat w l / 2 ^ (w * i) % 2 ^ w = l.getD i 0 % 2 ^ w
  | [], i => by simp [packNat]
  | x :: l, 0 => by simp [packNat, Nat.add_mod]
  | x :: l, i + 1 => by
    have h1 : packNat w (x :: l) / 2 ^ w = packNat w l := by
      rw [packNat, Nat.add_mul_div_left _ _ (Nat.two_pow_pos w),
        Nat.div_eq_of_lt (Nat.mod_lt _ (Nat.two_pow_pos w)), Nat.zero_add]
    rw [Nat.mul_succ, Nat.add_comm, Nat.pow_add, ← Nat.div_div_eq_div_mul, h1, packNat_elem w l i,
      List.getD_cons_succ]

/-- An element of a packed list. -/
theorem elem_packV {w : Nat} {l : List Nat} (h : w * l.length ≤ 1024) (i : Nat) :
    elem w (packV w l) i = l.getD i 0 % 2 ^ w := by
  have hl : packNat w l < 2 ^ 1024 := lt_of_lt_of_le (packNat_lt w l) (Nat.pow_le_pow_right (by omega) h)
  unfold elem packV
  rw [BitVec.toNat_ofNat, Nat.mod_eq_of_lt hl, packNat_elem]

theorem elem_lt (w : Nat) (v : VReg) (i : Nat) : elem w v i < 2 ^ w := Nat.mod_lt _ (Nat.two_pow_pos w)

/-! ## The shapes -/

theorem seeds_run {rsr : Bool} {n : Nat} (h : rsr = true → s.seedFree = true) :
    seeds rsr n s = .ok ((if rsr then genRun n s.cx.c.srseed else ([], s.cx.c.srseed)), s) := by
  cases rsr with
  | false => rfl
  | true =>
    have hs := h rfl
    simp only [State.seedFree, Bool.not_eq_true'] at hs
    unfold seeds
    have hn : needSeed s = .ok ((), s) := by
      unfold needSeed
      rw [M.bind_get, hs]; rfl
    simp only [if_true]
    rw [M.bind_of_ok hn]
    rfl

theorem keepSeed_run {rsr : Bool} {x : Word} :
    keepSeed rsr x s = .ok ((), if rsr then s.onCtl fun c => { c with srseed := x } else s) := by
  cases rsr <;> rfl

theorem setCtx_r_eq {cid : Nat} {c : Ctx} (h : ∀ d, s.ctx? cid = some d → c.r = d.r ∧ c.decl = d.decl) (hs : (s.ctx? cid).isSome) :
    (s.setCtx cid c).cx.r = s.cx.r ∧ (s.setCtx cid c).cx.decl = s.cx.decl := by
  unfold State.setCtx
  split
  · rename_i hc
    have := h s.cx (by unfold State.ctx?; rw [if_pos hc])
    exact this
  · exact ⟨rfl, rfl⟩

/-- Setting flags changes no register. -/
theorem flagged_regs (f : Nat) : (s.flagged f).cx.r = s.cx.r ∧ (s.flagged f).cx.decl = s.cx.decl := by
  unfold State.flagged
  split
  · exact ⟨rfl, rfl⟩
  · rename_i d hd
    unfold State.modCtx
    split
    · rename_i c hc
      exact setCtx_r_eq (by intro e he; rw [hc] at he; cases he; exact ⟨rfl, rfl⟩) (by rw [hc]; rfl)
    · exact ⟨rfl, rfl⟩

/-- The end of every vector instruction: flags, generator, destination, pc. -/
theorem vectorDone_run {rsr : Bool} {n fl d : Nat} {x : VReg} {y : Word} (hd : s.roomV d = true)
    (hy : rsr = true → y = (genRun n s.cx.c.srseed).2) :
    (do setFlags fl; keepSeed rsr y; writeV d x; advance : M Unit) s = .ok ((), s.vectorDone rsr n fl d x) := by
  rw [M.bind_of_ok (setFlags_run fl), M.bind_of_ok keepSeed_run]
  have hr := flagged_regs (s := s) fl
  cases rsr with
  | false =>
    have hd' : (s.flagged fl).roomV d = true := by
      simpa [State.roomV, hr.1, hr.2] using hd
    rw [M.bind_of_ok (writeV_of_roomV (by exact hd'))]
    rfl
  | true =>
    have hd' : ((s.flagged fl).onCtl fun c => { c with srseed := y }).roomV d = true := by
      simpa [State.roomV, State.onCtl, State.onCx, hr.1, hr.2] using hd
    simp only [if_true]
    rw [M.bind_of_ok (writeV_of_roomV hd'), hy rfl]
    rfl

theorem operandsV_split {srcs : List Src} {k d : Nat} {zero : Bool} {xs : List VReg} {m : KReg} {o : VReg}
    (h : s.operandsV srcs k zero d = some ((xs, m, o), w)) :
    ∃ t u v, s.readsVs (srcs.map (·.n)) = some (xs, t) ∧ t.readsK k = some (m, u) ∧
      u.readsOld k zero d = some (o, v) ∧ w = v.freedV srcs := by
  unfold State.operandsV at h
  cases h1 : s.readsVs (srcs.map (·.n)) with
  | none => simp [h1] at h
  | some p =>
    obtain ⟨xs', t⟩ := p
    simp only [h1] at h
    cases h2 : t.readsK k with
    | none => simp [h2] at h
    | some q =>
      obtain ⟨m', u⟩ := q
      simp only [h2] at h
      cases h3 : u.readsOld k zero d with
      | none => simp [h3] at h
      | some r =>
        obtain ⟨o', v⟩ := r
        simp only [h3, Option.some.injEq, Prod.mk.injEq] at h
        obtain ⟨⟨rfl, rfl, rfl⟩, rfl⟩ := h
        exact ⟨t, u, v, rfl, h2, h3, rfl⟩

theorem readsVs_same : ∀ {l : List Nat} {s t : State} {xs : List VReg}, s.readsVs l = some (xs, t) →
    t = { s with free := t.free }
  | [], s, t, xs, h => by simp only [State.readsVs, Option.some.injEq, Prod.mk.injEq] at h; rw [← h.2]
  | n :: l, s, t, xs, h => by
    simp only [State.readsVs] at h
    cases h1 : s.readsV n with
    | none => simp [h1] at h
    | some p =>
      obtain ⟨x, u⟩ := p
      simp only [h1] at h
      cases h2 : u.readsVs l with
      | none => simp [h2] at h
      | some q =>
        obtain ⟨ys, w⟩ := q
        simp only [h2, Option.some.injEq, Prod.mk.injEq] at h
        obtain ⟨-, rfl⟩ := h
        rw [readsVs_same h2, readsV_same h1]

theorem readsOld_same {k d : Nat} {zero : Bool} {x : VReg} (h : s.readsOld k zero d = some (x, t)) :
    t = { s with free := t.free } := by
  unfold State.readsOld at h
  split at h
  · exact readsV_same h
  · cases h; rfl

theorem freedV_ctl (l : List Src) : ∀ s : State, (s.freedV l).cx.c = s.cx.c := by
  induction l with
  | nil => intro s; rfl
  | cons a l ih => intro s; simp only [State.freedV]; rw [ih]; split <;> rfl

/-- An element-wise instruction, whole (R149, R150). -/
theorem vMap_run {W k d : Nat} {zero rsr : Bool} {srcs : List Src} {f : List Nat → Nat → Nat → Nat × Nat}
    {xs : List VReg} {m : KReg} {o : VReg} (h : s.operandsV srcs k zero d = some ((xs, m, o), w))
    (hs : rsr = true → s.seedFree = true) (hd : w.roomV d = true) :
    run (vMap W k zero d srcs false rsr f) s = .next (w.vectorDone rsr (elemCount W)
      (orFlags (laneResults W (elemCount W) m zero xs o
        (if rsr then (genRun (elemCount W) s.cx.c.srseed).1 else []) f)) d
      (packV W ((laneResults W (elemCount W) m zero xs o
        (if rsr then (genRun (elemCount W) s.cx.c.srseed).1 else []) f).map (·.1)))) := by
  obtain ⟨t, u, v, h1, h2, h3, rfl⟩ := operandsV_split h
  have e1 := readsVs_same h1
  have e2 := readsK_same h2
  have e3 := readsOld_same h3
  have hv : v.seedFree = s.seedFree := by rw [e3, e2, e1]; rfl
  have hc : v.cx.c.srseed = s.cx.c.srseed := by rw [e3, e2, e1]
  apply run_of_ok
  unfold vMap
  rw [M.bind_of_ok (readVs_of_readsVs h1), M.bind_of_ok (readK_of_readsK h2), M.bind_of_ok (readOld_of_readsOld h3),
    M.bind_of_ok (seeds_run (by rw [hv]; exact hs))]
  show (do freeVs srcs; _ : M Unit) v = _
  rw [M.bind_of_ok (freeVs_run srcs v), hc]
  have hcc : (v.freedV srcs).cx.c.srseed = s.cx.c.srseed := by rw [freedV_ctl, hc]
  cases rsr with
  | false => exact vectorDone_run hd (by intro hh; cases hh)
  | true => exact vectorDone_run hd (by intro _; rw [hcc]; rfl)

/-- An instruction whose results depend on whole registers, whole. -/
theorem vWhole_run {W k d : Nat} {zero rsr : Bool} {srcs : List Src}
    {f : List VReg → KReg → List Nat → List (Nat × Nat)} {xs : List VReg} {m : KReg} {o : VReg}
    (h : s.operandsV srcs k zero d = some ((xs, m, o), w)) (hs : rsr = true → s.seedFree = true)
    (hd : w.roomV d = true) :
    let rs := f xs m (if rsr then (genRun (elemCount W) s.cx.c.srseed).1 else [])
    let res := (List.range (elemCount W)).map fun i =>
      if active W m i then rs.getD i (0, 0) else (if zero then 0 else elem W o i, 0)
    run (vWhole W k zero d srcs rsr f) s =
      .next (w.vectorDone rsr (elemCount W) (orFlags res) d (packV W (res.map (·.1)))) := by
  obtain ⟨t, u, v, h1, h2, h3, rfl⟩ := operandsV_split h
  have e1 := readsVs_same h1
  have e2 := readsK_same h2
  have e3 := readsOld_same h3
  have hv : v.seedFree = s.seedFree := by rw [e3, e2, e1]; rfl
  have hc : v.cx.c.srseed = s.cx.c.srseed := by rw [e3, e2, e1]
  intro rs res
  apply run_of_ok
  unfold vWhole
  rw [M.bind_of_ok (readVs_of_readsVs h1), M.bind_of_ok (readK_of_readsK h2), M.bind_of_ok (readOld_of_readsOld h3),
    M.bind_of_ok (seeds_run (by rw [hv]; exact hs))]
  show (do freeVs srcs; _ : M Unit) v = _
  rw [M.bind_of_ok (freeVs_run srcs v), hc]
  have hcc : (v.freedV srcs).cx.c.srseed = s.cx.c.srseed := by rw [freedV_ctl, hc]
  cases rsr with
  | false => exact vectorDone_run hd (by intro hh; cases hh)
  | true => exact vectorDone_run hd (by intro _; rw [hcc]; rfl)

end Sys2Proof.Machine
end

