-- ==== Sys2Proof/Machine/GlasText.lean ====
section
/-! DEFINITION. The text of Gloith assembly (R27, R29, R30, R434): characters, names, registers, reserved words, and
expressions with their value in 64-bit two's complement. The assembler `glas` is no agent of the machine: it turns text
into the bytes that a launch reads, and no step calls it. -/
namespace Sys2Proof.Glas

/-- A piece of source text. -/
abbrev Str := List Char

/-- The errors that `glas` reports (R28 to R50, R434). -/
inductive Err where
  | eSyntax | eLabel | eExpr | eMark | eQual | eQorder | eRange | eChain | ePlace | eNest | eEdge | eKey | eDecl
  | eMicro | eMacro | eAlign | eSb
deriving DecidableEq, Repr

/-! ## Characters and pieces of a line -/

/-- Blank space between tokens. -/
def isBlank (c : Char) : Bool := c == ' ' || c == '\t' || c == '\r'
/-- A decimal digit. -/
def isDig (c : Char) : Bool := 48 ≤ c.toNat && c.toNat ≤ 57
/-- A character that begins an identifier (R27). -/
def idStart (c : Char) : Bool := (65 ≤ c.toNat && c.toNat ≤ 90) || (97 ≤ c.toNat && c.toNat ≤ 122) || c == '_'
/-- A character that continues an identifier (R27); the sign `@`, which no source holds, stands in the suffix of a label
that an expansion renames (R46). -/
def idCont (c : Char) : Bool := idStart c || isDig c || c == '.' || c == '@'
/-- A text without blank space at its ends. -/
def trim (t : Str) : Str := ((t.dropWhile isBlank).reverse.dropWhile isBlank).reverse
/-- The pieces of a text between the occurrences of a character. -/
def splitOn (c : Char) : Str → List Str
  | [] => [[]]
  | x :: t =>
    match splitOn c t with
    | [] => [[x]]
    | p :: ps => if x == c then [] :: p :: ps else (x :: p) :: ps
/-- The operands of a statement: separated by commas, none where there is no text. -/
def operands (t : Str) : List Str := if trim t == [] then [] else (splitOn ',' t).map trim
/-- What stands before and after the first occurrence of a character. -/
def cutAt (c : Char) (t : Str) : Option (Str × Str) :=
  if t.contains c then some (t.takeWhile (· != c), (t.dropWhile (· != c)).drop 1) else none
/-- A decimal number. -/
def decNat (t : Str) : Option Nat :=
  if t != [] && t.all isDig then some (t.foldl (fun n c => n * 10 + (c.toNat - 48)) 0) else none
/-- A hexadecimal digit. -/
def hexDig (c : Char) : Option Nat :=
  let n := c.toNat
  if 48 ≤ n && n ≤ 57 then some (n - 48) else if 97 ≤ n && n ≤ 102 then some (n - 87)
  else if 65 ≤ n && n ≤ 70 then some (n - 55) else none
/-- Hexadecimal digits with underscores, which are ignored (R30). -/
def hexNat (t : Str) : Option Nat :=
  let ds := t.filter (· != '_')
  if ds == [] then none else ds.foldl (fun n c => do return (← n) * 16 + (← hexDig c)) (some 0)
/-- A literal of an expression (R30). -/
def literal (t : Str) : Option Nat :=
  match t with
  | '0' :: 'x' :: ds => hexNat ds
  | _ => decNat t
/-- Decimal digits of a number. -/
def natText (n : Nat) : Str := (toString n).toList
/-- A number in decimal, with its sign. -/
def intText (i : Int) : Str := if i < 0 then '-' :: natText i.natAbs else natText i.natAbs
/-- Pieces joined by a separator. -/
def joinBy (sep : Str) : List Str → Str
  | [] => []
  | [p] => p
  | p :: ps => p ++ sep ++ joinBy sep ps
/-- The place of a name in a list of names. -/
def placeOf (t : Str) (names : List String) : Option Nat :=
  let i := names.findIdx (fun n => n.toList == t)
  if i < names.length then some i else none

/-! ## Registers and reserved words -/

/-- The file of a register name's letter (R29). -/
def fileOf (c : Char) : Option File :=
  if c == 's' then some .s else if c == 'v' then some .v else if c == 'k' then some .k else if c == 'b' then some .b
  else if c == 'a' then some .a else if c == 'q' then some .q else if c == 'h' then some .h else if c == 'e' then some .e
  else if c == 'n' then some .n else if c == 'f' then some .f else none
/-- The letter of a file. -/
def fileText : File → Str
  | .s => ['s'] | .v => ['v'] | .k => ['k'] | .b => ['b'] | .a => ['a'] | .q => ['q'] | .h => ['h'] | .e => ['e']
  | .n => ['n'] | .f => ['f'] | .no => [] | .cnt => []
/-- A register name (R29): a letter and a number below the size of its file, without leading zeros. -/
def regOf (t : Str) : Option (File × Nat) :=
  match t with
  | [] => none
  | c :: ds =>
    match fileOf c, decNat ds with
    | some fl, some n =>
      if n < fl.size && (ds.head? != some (Char.ofNat 48) || ds.length == 1) then some (fl, n) else none
    | _, _ => none

/-- The control registers, in the order of their indices (R57). -/
def ctlNames : List String :=
  ["ctxid", "coreid", "partid", "mode", "fflags", "cause", "tpc", "tinfo", "tvec"]
    ++ ["budget", "deadline", "brole", "srseed", "cnt", "tilexyz", "caps", "rrbase", "hold"]

/-- The opcode map (R117): the mnemonics of a page in the order of OP, empty for a cell that is no instruction. -/
def opNames : Nat → List String
  | 0 => ["", "add", "addi", "sub", "and", "or", "xor", "slli", "srli", "srai", "li", "mov", "slt", "sltu", "seq"]
      ++ ["ld", "st", "pbr", "br", "brnz", "brz", "wait", "mcall", "vld", "vst", "vmov", "vfma", "vadd", "vmul"]
      ++ ["sync", "halt"]
  | 1 => ["", "mul", "mulh", "mulhu", "div", "divu", "rem", "remu", "sll", "srl", "sra", "fshr", "clz", "ctz", "popc"]
      ++ ["bext", "bins", "min", "max", "minu", "maxu", "sel", "sext", "zext", "lea", "andi", "ori", "xori"]
  | 2 => ["", "call", "ret", "breq", "brne", "brlt", "brge", "brltu", "brgeu", "pbrr", "mfb", "yield", "trap", "tret"]
      ++ ["mfc", "mtc", "rdtime", "rdcyc", "mcw", "mcinv", "rpw", "spawn", "tsig", "ebrk", "retire", "pgate", "pwake"]
      ++ ["tmwait"]
  | 3 => ["", "ldx", "stx", "vldu", "vstm", "vgath", "vscat", "amo", "cas", "aggadd", "fence", "ldc", "vldc", "pref"]
      ++ ["clinv", "clwb"]
  | 4 => ["", "vsub", "vand", "vor", "vxor", "vsll", "vsrl", "vsra", "vfsh", "vmin", "vmax", "vabs", "vneg", "vcmp"]
      ++ ["vsel", "vbcast", "vext", "vins", "vperm", "vrot", "vgmax", "vgsum", "vscan", "vclz", "vpopc", "kop", "kmov"]
      ++ ["kpop", "vcompr", "vspread", "viota"]
  | 5 => ["", "vrcp", "vrsqrt", "vexp2", "vlog2", "vtanh", "vcvt", "vround", "vclass", "vscale", "vdot", "vpack"]
      ++ ["vunpk", "vqst", "vqenc", "vdq", "vseed"]
  | 6 => ["", "mxbind", "mxunbind", "mx", "mxg", "mxzero", "mxld", "mxst", "mxdrain", "drrow", "drput", "drdone"]
      ++ ["plane", "unplane", "mxstat"]
  | 7 => ["", "rgdef", "rgrsv", "rgpub", "rgcon", "rgst", "cpy", "cpys", "cpst", "fpush", "fpop", "ffree", "xput"]
      ++ ["xred", "xget", "xfin", "msend", "mrecv", "mpoll"]
  | 8 => ["", "bardef", "bar", "barv", "bararr", "barw", "bartx", "barst", "evwait", "evsig", "keyq", "keyrel"]
      ++ ["shadow", "publish", "snap", "tlbinv"]
  | 9 => ["", "hseek", "hrd", "hwr", "hrew", "hpos", "hstride", "htake", "hgive", "hrealign", "hmark", "hburst", "hfill"]
  | _ => []
/-- Page and OP of a mnemonic. -/
def opOf (m : Str) : Option (Nat × Nat) :=
  if m == [] then none
  else (List.range 10).findSome? (fun p => (placeOf m (opNames p)).map (fun o => (p, o)))
/-! ## Operation qualifiers (R33) -/

/-- The place of a piece of text in a list of names, as an error of qualifiers where it is none. -/
def qualOf (t : Str) (names : List String) : Except Err Nat :=
  match placeOf t names with
  | some i => .ok i
  | none => .error .eQual

def condNames : List String := ["eq", "ne", "lt", "le", "gt", "ge", "un", "ord"]
def amoNames : List String := ["swap", "add", "and", "or", "xor", "min", "max", "minu", "maxu", "fadd"]
def mfmtNames : List String := ["bf16", "e4m3", "e5m2", "mk8", "i8", "e2m1", "i4", "mx4", "sb4", "sb8"]

/-- The operation qualifiers of a mnemonic with their variants; an empty name says that the statement may leave it out
(R33, and each instruction's description). -/
def opQuals (m : Str) : List (String × Nat) :=
  let is (n : String) : Bool := m == n.toList
  if is "sync" then [("or", 0), ("and", 1), ("sum", 2), ("pop", 3)]
  else if is "halt" then [("", 0), ("kill", 1)]
  else if is "sext" then [("i8", 11), ("i16", 9), ("i32", 7)]
  else if is "zext" then [("n8", 12), ("n16", 10), ("n32", 8)]
  else if is "rpw" then [("s", 0), ("v", 1), ("done", 2), ("kill", 3)]
  else if is "pgate" then [("req", 0), ("q", 1)]
  else if is "cas" then [("d", 0), ("w", 1)]
  else if is "pref" then [("r", 0), ("w", 1)]
  else if is "kop" then [("and", 0), ("or", 1), ("xor", 2), ("andn", 3), ("orn", 4), ("not", 5)]
  else if is "kmov" then
    [("copy", 0), ("lo", 1), ("hi", 2), ("getlo", 3), ("gethi", 4), ("set", 5), ("clr", 6)]
  else if is "vqst" || is "vqenc" then [("sb4", 0), ("sb8", 16)]
  else if is "vdq" then [("sb4", 0), ("sb8", 1), ("mx4", 2)]
  else if is "mxdrain" then [("zero", 0), ("keep", 1)]
  else if is "drdone" then [("send", 0), ("drop", 1)]
  else if is "plane" || is "unplane" then mfmtNames.zipIdx
  else if is "mxstat" then [("rd", 0), ("clr", 1), ("cnt", 2)]
  else if is "rgst" then [("desc", 0), ("prod", 1), ("rsv", 2), ("cons", 3), ("addr", 4)]
  else if is "ffree" then [("free", 0), ("avail", 1)]
  else if is "barw" then [("", 0), ("t", 1)]
  else if is "barst" then [("st", 0), ("pend", 1)]
  else if is "evsig" then [("", 0), ("rmt", 1)]
  else if is "keyq" then [("own", 0), ("id", 1)]
  else if is "publish" then [("swap", 0), ("drop", 1)]
  else if is "snap" then [("take", 0), ("drop", 1)]
  else if is "tlbinv" then [("page", 0), ("all", 1)]
  else if is "hseek" then [("", 0), ("f", 1), ("b", 2)]
  else []

/-- What stands for an operation before the slots: the texts written, the variant they give, the condition code of the
mask form, and the qualifiers that follow. -/
structure OpPart where
  texts : List Str := []
  var : Nat := 0
  cond : Nat := 0
  rest : List Str
deriving DecidableEq, Repr

/-- The ALLOW slot of a selector-block kind (R169): `a` and four binary digits. -/
def allowOf (t : Str) : Option Nat :=
  match t with
  | ['a', w, x, y, z] =>
    if [w, x, y, z].all (fun c => c == '0' || c == '1') then
      some ([w, x, y, z].foldl (fun n c => n * 2 + (c.toNat - 48)) 0)
    else none
  | _ => none
/-- The text of an ALLOW slot. -/
def allowText (n : Nat) : Str :=
  'a' :: [n / 8 % 2, n / 4 % 2, n / 2 % 2, n % 2].map (fun b => if b == 1 then '1' else '0')

/-- The operation part of a statement's qualifiers: an operation qualifier has no default (R33), but where a description
leaves one out. -/
def opPart (m : Str) (qs : List Str) : Except Err OpPart :=
  if m == "amo".toList then
    match qs with
    | o :: w :: rest => do
      let o' ← qualOf o amoNames
      let w' ← qualOf w ["d", "w"]
      return { texts := [o, w], var := w' * 16 + o', rest := rest }
    | _ => .error .eQual
  else if m == "vcmp".toList then
    match qs with
    | c :: rest => do return { texts := [c], cond := ← qualOf c condNames, rest := rest }
    | [] => .error .eQual
  else
    let tab := opQuals m
    if tab == [] then .ok { rest := qs }
    else
      let names := tab.map (·.1)
      match qs with
      | q :: rest =>
        match (if q == [] then none else placeOf q names) with
        | some i =>
          let v := (tab.map (·.2)).getD i 0
          if m == "vqst".toList || m == "vqenc".toList then
            match rest with
            | a :: rest' => match allowOf a with
              | some n => .ok { texts := [q], var := v + n, rest := rest' }
              | none => .ok { texts := [q], var := v + 15, rest := rest }
            | [] => .ok { texts := [q], var := v + 15, rest := [] }
          else .ok { texts := [q], var := v, rest := rest }
        | none => if names.contains "" then .ok { rest := qs } else .error .eQual
      | [] => if names.contains "" then .ok { rest := [] } else .error .eQual

/-- A mnemonic: a stem, or a stem with its operation or condition qualifier, which is part of the mnemonic (R33). The slots
that follow are not. -/
def isMnemonic (t : Str) : Bool :=
  match splitOn '.' t with
  | [] => false
  | [m] => (opOf m).isSome
  | m :: qs => (opOf m).isSome && (match opPart m qs with
    | .ok p => p.rest == [] && p.texts.length == qs.length
    | .error _ => false)
/-- A reserved word (R27). -/
def reserved (t : Str) : Bool :=
  isMnemonic t || (regOf t).isSome || (placeOf t ctlNames).isSome || t == ['x'] || t == ['y']
/-- An identifier's characters (R27). -/
def idText (t : Str) : Bool :=
  match t with
  | [] => false
  | c :: cs => idStart c && cs.all idCont
/-- A name that a statement may define (R27, R434). -/
def definable (t : Str) : Bool := idText t && !reserved t

/-! ## Expressions -/

/-- The binary operators of R30. -/
inductive Bop where
  | mul | div | add | sub | shl | shr | and | or
deriving DecidableEq, Repr

/-- An expression (R30). -/
inductive Ex where
  | lit (n : Nat)
  | name (s : Str)
  | neg (e : Ex)
  | not (e : Ex)
  | bin (b : Bop) (l r : Ex)
deriving DecidableEq, Repr

/-- The tokens of an expression. -/
inductive Tok where
  | lit (n : Nat)
  | name (s : Str)
  | op (b : Bop)
  | not | lp | rp
deriving DecidableEq, Repr

/-- The token that begins a text, and the text after it. -/
def token (t : Str) : Option (Tok × Str) :=
  match t with
  | [] => none
  | '<' :: '<' :: r => some (.op .shl, r)
  | '>' :: '>' :: r => some (.op .shr, r)
  | c :: r =>
    if isDig c then (literal (t.takeWhile idCont)).map (fun n => (.lit n, t.dropWhile idCont))
    else if idStart c then some (.name (t.takeWhile idCont), t.dropWhile idCont)
    else if c == '*' then some (.op .mul, r) else if c == '/' then some (.op .div, r)
    else if c == '+' then some (.op .add, r) else if c == '-' then some (.op .sub, r)
    else if c == '&' then some (.op .and, r) else if c == '|' then some (.op .or, r)
    else if c == '~' then some (.not, r) else if c == '(' then some (.lp, r) else if c == ')' then some (.rp, r)
    else none
/-- The tokens of a text; each takes a character at least, so the text's length bounds the steps. -/
def tokens : Nat → Str → Option (List Tok)
  | 0, t => if trim t == [] then some [] else none
  | n + 1, t =>
    match t.dropWhile isBlank with
    | [] => some []
    | c :: r => do
      let (k, rest) ← token (c :: r)
      return k :: (← tokens n rest)

/-- How tightly an operator binds: `*` `/`, then `+` `-`, then shifts, then `&`, then `|`. -/
def Bop.binds : Bop → Nat
  | .mul | .div => 5
  | .add | .sub => 4
  | .shl | .shr => 3
  | .and => 2
  | .or => 1

/-- What waits for its operands while an expression is read. -/
inductive Wait where
  | lp | neg | not
  | bin (b : Bop)
deriving DecidableEq, Repr

/-- One waiting operator applied to the operands read. -/
def Wait.apply : Wait → List Ex → Option (List Ex)
  | .neg, e :: es => some (.neg e :: es)
  | .not, e :: es => some (.not e :: es)
  | .bin b, r :: l :: es => some (.bin b l r :: es)
  | _, _ => none
/-- How tightly a waiting operator binds; a parenthesis holds all. -/
def Wait.binds : Wait → Nat
  | .lp => 0
  | .bin b => b.binds
  | _ => 6
/-- Applies the waiting operators that bind at least as tightly as `p`. -/
def unwind (p : Nat) : List Wait → List Ex → Option (List Wait × List Ex)
  | [], es => some ([], es)
  | w :: ws, es =>
    if w.binds < p then some (w :: ws, es)
    else match w.apply es with
      | none => none
      | some es' => unwind p ws es'
/-- Reads the tokens of an expression; `want` says that an operand must come next. -/
def readEx (want : Bool) (ws : List Wait) (es : List Ex) : List Tok → Option Ex
  | [] =>
    if want then none
    else match unwind 1 ws es with
      | some ([], [e]) => some e
      | _ => none
  | k :: ks =>
    match k with
    | .lit n => if want then readEx false ws (.lit n :: es) ks else none
    | .name s => if want then readEx false ws (.name s :: es) ks else none
    | .not => if want then readEx true (.not :: ws) es ks else none
    | .lp => if want then readEx true (.lp :: ws) es ks else none
    | .rp =>
      if want then none
      else match unwind 1 ws es with
        | some (.lp :: ws', es') => readEx false ws' es' ks
        | _ => none
    | .op b =>
      if want then (if b == .sub then readEx true (.neg :: ws) es ks else none)
      else match unwind b.binds ws es with
        | some (ws', es') => readEx true (.bin b :: ws') es' ks
        | none => none

/-- The names of an expression. -/
def Ex.names : Ex → List Str
  | .lit _ => []
  | .name s => [s]
  | .neg e => e.names
  | .not e => e.names
  | .bin _ l r => l.names ++ r.names
/-- The expression of a text, where it is one (R30, R434); its names are identifiers, and the coordinates `x` and `y`
where `xy` admits them (R42). -/
def exOf (xy : Bool) (t : Str) : Except Err Ex :=
  match (tokens t.length t).bind (readEx true [] []) with
  | some e => if e.names.all (fun s => !reserved s || (xy && (s == ['x'] || s == ['y']))) then .ok e else .error .eSyntax
  | none => .error .eSyntax

/-- A binary operator on two values (R30). -/
def Bop.eval (b : Bop) (l r : Word) : Except Err Word :=
  match b with
  | .mul => .ok (l * r)
  | .div => if r == 0 then .error .eExpr else .ok (l.sdiv r)
  | .add => .ok (l + r)
  | .sub => .ok (l - r)
  | .shl => if r.toInt < 0 then .error .eExpr else .ok (if 64 ≤ r.toNat then 0 else l <<< r.toNat)
  | .shr => if r.toInt < 0 then .error .eExpr else .ok (l.sshiftRight (if 64 ≤ r.toNat then 64 else r.toNat))
  | .and => .ok (l &&& r)
  | .or => .ok (l ||| r)
/-- The value of an expression (R30); a name that `env` does not define is an error. A literal of 2^64 or more is taken
modulo 2^64, without an error (DESIGN CHOICE, notes/assumptions/39.md). -/
def Ex.eval (env : Str → Option Word) : Ex → Except Err Word
  | .lit n => .ok (BitVec.ofNat 64 n)
  | .name s => match env s with
    | some v => .ok v
    | none => .error .eExpr
  | .neg e => do return - (← e.eval env)
  | .not e => do return ~~~ (← e.eval env)
  | .bin b l r => do b.eval (← l.eval env) (← r.eval env)
/-- The value of an expression's text, read as signed. -/
def valueOf (env : Str → Option Word) (t : Str) : Except Err Int := do
  let e ← exOf false t
  return (← e.eval env).toInt
/-- A value with its limits (R41): outside them is an error. -/
def valueIn (env : Str → Option Word) (t : Str) (lo hi : Int) : Except Err Int := do
  let v ← valueOf env t
  if lo ≤ v && v ≤ hi then return v else .error .eRange

end Sys2Proof.Glas
end

