-- ==== Sys2Proof/Machine/GlasInstr.lean ====
section
/-! DEFINITION. One instruction statement of Gloith assembly: its qualifiers and their order (R33, R34), operands and
last-use marks (R29, R31, R32), immediates and the fewest XI prefixes (R37, R38, R103), its encoding (R36) and, inside a
microprogram, the substitution halfword of its record (R45, R141); the verbose and the compact notation (R35), and the
disassembler. What each instruction's fields are is read from its row of the opcode map (Decode.lean). -/
namespace Sys2Proof.Glas

/-! ## Qualifiers -/

/-- The element types in the order of their codes (R115). -/
def typeNames : List String :=
  ["f32", "bf16", "f16", "e4m3", "e5m2", "mk8", "e2m1", "i32", "n32", "i16", "n16", "i8", "n8", "i64", "n64"]
def rndNames : List String := ["rne", "rtz", "rdn", "rup", "rna", "rsr"]
def satNames : List String := ["nosat", "sat"]
def maskNames : List String := ["k0", "k1", "k2", "k3", "k4", "k5", "k6", "k7"]
def zeroNames : List String := ["merge", "zero"]
def scopeNames : List String := ["core", "part", "pkg", "sys"]
def orderNames : List String := ["rlx", "acq", "rel", "sc"]
/-- The slots in their fixed order (R33). -/
def slotNames : List (List String) :=
  [typeNames, rndNames, satNames, maskNames, zeroNames, scopeNames, orderNames]

/-- Whether an instruction has the type slot (R108, R153 to R155, R200). -/
def typed (page : Nat) (m : Str) : Bool :=
  let among (ns : List String) : Bool := (placeOf m ns).isSome
  if page == 0 then among ["vld", "vst", "vmov", "vfma", "vadd", "vmul"]
  else if page == 3 then among ["ldx", "stx", "vldu", "vstm", "vgath", "vscat", "ldc", "vldc"]
  else if page == 4 then !among ["kop", "kmov"]
  else if page == 5 then !among ["vqst", "vqenc", "vdq", "vseed"]
  else page == 7 && among ["xred", "xfin"]

/-- Whether an instruction has the slot of number `i` in the order of R33. A row whose zero slot is marked "no" (R152) has
the slot, as the printed verbose lines show it; a device traps on `.zero` there. -/
def hasSlot (ty : Bool) (r : Row) (i : Nat) : Bool :=
  if i == 0 then ty
  else if i == 1 || i == 2 then r.nib == .rs
  else if i == 3 || i == 4 then r.mask
  else r.nib == .so
/-- The default of a slot (R33); scope and order have the instruction's own. -/
def slotDef (r : Row) (i : Nat) : Nat := if i == 5 then r.nibDef / 4 else if i == 6 then r.nibDef % 4 else 0
/-- The slot that a qualifier belongs to, and its value. -/
def slotOf (q : Str) : Option (Nat × Nat) :=
  (List.range 7).findSome? (fun i => (placeOf q (slotNames.getD i [])).map (fun v => (i, v)))
/-- The text of a slot's value. -/
def slotText (i v : Nat) : Str := ((slotNames.getD i []).getD v "").toList
/-- Reads the slots written, in order (R34); `last` is the slot written last. -/
def slots (ty : Bool) (r : Row) (last : Nat) (got : List (Nat × Nat)) : List Str → Except Err (List (Nat × Nat))
  | [] => .ok got
  | q :: qs =>
    match slotOf q with
    | none => .error .eQual
    | some (i, v) =>
      if !hasSlot ty r i || got.any (·.1 == i) then .error .eQual
      else if i < last then .error .eQorder
      else slots ty r i (got ++ [(i, v)]) qs
/-- The value of a slot, written or default. -/
def slotVal (r : Row) (got : List (Nat × Nat)) (i : Nat) : Nat := ((got.find? (·.1 == i)).map (·.2)).getD (slotDef r i)
/-- The mask form of the slots (R36, R109), left out where it says nothing. -/
def maskForm (r : Row) (got : List (Nat × Nat)) (cond : Nat) : Option MaskForm :=
  let nib := match r.nib with
    | .rs => slotVal r got 1 * 2 + slotVal r got 2
    | .so => slotVal r got 5 * 4 + slotVal r got 6
    | .cond => cond
    | _ => 0
  maskOf (slotVal r got 3) (slotVal r got 4 == 1) nib r.nibDef

/-! ## Operands -/

/-- The register fields of a chain. -/
inductive Fld where
  | d | a | b | c
deriving DecidableEq, Repr

/-- What an operand of a statement is. -/
inductive Kind where
  /-- a register of a file -/
  | reg (f : Fld) (fl : File)
  /-- a memory operand, with or without a displacement -/
  | mem (f : Fld) (disp : Bool)
  /-- a count of `wait` in a register field (R127) -/
  | cnt (f : Fld)
  /-- an immediate, or a part of one -/
  | imm
  /-- the source type of `vcvt` (R155) -/
  | sty
  /-- a control register (R29) -/
  | ctl
  /-- a parameter of `mcall` (R142) -/
  | par
deriving DecidableEq, Repr

/-- Instructions whose first source is a memory operand with a displacement. -/
def memDisp : List String :=
  ["ld", "st", "ldx", "stx", "vld", "vst", "vldu", "vstm", "ldc", "vldc", "pref", "vqst"]
/-- Instructions whose first source is a memory operand without one. -/
def memPlain : List String :=
  ["vgath", "vscat", "amo", "cas", "aggadd", "clinv", "clwb", "mxld", "mxst", "plane", "unplane", "mcw"]

/-- The operands of an instruction in the order of its syntax, and how many of the last may be left out. -/
def pattern (m : Str) (r : Row) (var : Nat) : List Kind × Nat :=
  let among (ns : List String) : Bool := (placeOf m ns).isSome
  let one (f : Fld) (fl : File) : List Kind := if fl == .no || fl == .cnt then [] else [.reg f fl]
  let d := if among ["plane", "unplane"] then [.mem .d false] else one .d r.d
  let a := if among memDisp then [.mem .a true] else if among memPlain then [.mem .a false] else one .a r.a
  let b := if r.form == .R then one .b r.b else []
  let c := if r.c == 0 then [] else [.reg .c (if m.head? == some 'v' then .v else .s)]
  if among ["wait"] then ([.cnt .d, .cnt .a, .cnt .b, .imm, .imm], 2)
  else if among ["mcall"] then ([.imm, .par, .par, .par, .par], 4)
  else if among ["lea"] then (d ++ a ++ b ++ [.imm], 1)
  else if among ["bext", "bins"] then (d ++ a ++ [.imm, .imm], 1)
  else if among ["ebrk"] then ([.imm], 1)
  else if among ["vcvt"] then (d ++ a ++ [.sty], 0)
  else if among ["mfc"] then (d ++ [.ctl], 0)
  else if among ["mtc"] then ([.ctl] ++ a, 0)
  else if among ["mcw"] then ([.imm] ++ a, 0)
  else if among ["vscat"] then (c ++ a ++ b, 0)
  else if among ["breq", "brne", "brlt", "brge", "brltu", "brgeu"] then (a ++ b ++ d, 0)
  else if among ["keyq"] && var == 1 then (d ++ a, 0)
  else if among memDisp then (d ++ a, 0)
  else (d ++ a ++ b ++ c ++ (if r.form != .R && r.imm then [.imm] else []), if r.c == 1 then 1 else 0)

/-- A register operand's name: a register, or a placeholder of a microprogram (R45). -/
inductive Reg where
  | reg (fl : File) (n : Nat)
  | ph (i : Nat)
deriving DecidableEq, Repr

/-- The placeholder that a text is. -/
def phOf (t : Str) : Option Nat :=
  match t with
  | ['%', 'p', c] => if 48 ≤ c.toNat && c.toNat ≤ 51 then some (c.toNat - 48) else none
  | _ => none
/-- The register that a text is. -/
def nameOf (t : Str) : Option Reg :=
  match phOf t, regOf t with
  | some i, _ => some (.ph i)
  | none, some (fl, n) => some (.reg fl n)
  | none, none => none
/-- The text of a register. -/
def Reg.text : Reg → Str
  | .reg fl n => fileText fl ++ natText n
  | .ph i => ['%', 'p'] ++ natText i

/-- A text with its last-use mark taken off (R31): the mark is `true` for `!` and `.last`, `false` for `.live`. An
identifier that itself ends in `.last` or `.live`, written as an operand, is taken as a marked operand (DESIGN CHOICE,
notes/assumptions/39.md). -/
def unmark (t : Str) : Str × Option Bool :=
  if t.getLast? == some '!' then (trim t.dropLast, some true)
  else if ".last".toList.isSuffixOf t then (t.take (t.length - 5), some true)
  else if ".live".toList.isSuffixOf t then (t.take (t.length - 5), some false)
  else (t, none)

/-- Whether the instruction reads a pool register through a field that carries a last-use bit (R32, R103). -/
def markable (fm : Form) (f : Fld) (fl : File) : Bool :=
  fl.isPool && (match fm with
    | .R => f != .d
    | .I => f == .a || f == .c
    | .S => f == .d || f == .a || f == .c)

/-- A piece of a statement as the two notations print it. -/
inductive Piece where
  /-- a register: with its mark where the field carries one, else bare -/
  | reg (x : Reg) (mark : Option Bool)
  /-- a memory operand with the text of its displacement, the sign included -/
  | mem (x : Reg) (last : Bool) (disp : Str)
  | raw (t : Str)
deriving DecidableEq, Repr

/-- What the task and the place of a statement allow (R40, R43, R45). -/
structure Ctx where
  /-- the values of names -/
  env : Str → Option Word
  /-- the microprograms of the kernel -/
  micros : Str → Option Nat := fun _ => none
  /-- the tiles and tracks that the task declares, where the statement stands in a task -/
  decl : Option (Nat × Nat) := none
  /-- the names of the task's keys -/
  keys : List Str := []
  /-- inside a microprogram -/
  micro : Bool := false
  /-- the address of the statement's first halfword -/
  pc : Nat := 0

/-- A register read into a field: its number, its last-use bit, and the placeholder that stands for it. -/
structure FldVal where
  f : Fld
  n : Nat
  last : Bool
  ph : Option Nat
deriving DecidableEq, Repr

/-- Checks a register operand in a field (R29, R32, R43, R45). -/
def regField (cx : Ctx) (fm : Form) (f : Fld) (fl : File) (x : Reg) (mark : Option Bool) : Except Err FldVal :=
  if mark.isSome && !markable fm f fl then .error .eMark
  else match x with
  | .ph i => if cx.micro then .ok ⟨f, 0, mark == some true, some i⟩ else .error .ePlace
  | .reg fl' n =>
    if fl' != fl then .error (if mark.isSome && !fl'.isPool then .eMark else .eSyntax)
    else if mark == some true && n == 0 && fl != .v then .error .eMark
    else if cx.decl.any (fun q => (fl == .a && decide (q.1 ≤ n)) || (fl == .h && decide (q.2 ≤ n))) then .error .eDecl
    else .ok ⟨f, n, mark == some true, none⟩

/-- The error of an operand that its place cannot take: where a mark stands on a name outside the pools, a control register
name or an immediate it is the mark that is wrong (R32), else the form (R434). -/
def misplaced (t : Str) : Err :=
  let (core, mark) := unmark t
  let readable := match regOf core with
    | some (fl, _) => !fl.isPool
    | none => (placeOf core ctlNames).isSome || (exOf false core).toOption.isSome
  if mark.isSome && readable then .eMark else .eSyntax

/-- The parts of a memory operand (R29): base, mark, and the sign and text of its displacement. -/
structure MemText where
  base : Reg
  mark : Option Bool
  disp : Option (Bool × Str)
deriving DecidableEq, Repr

/-- Reads a memory operand; the form with an index register is reserved (R29, R434). -/
def memOf (t : Str) : Except Err MemText :=
  if t.head? != some '[' || t.getLast? != some ']' then .error (misplaced t)
  else
    let inner := trim (t.drop 1).dropLast
    let isCut (c : Char) : Bool := c == '+' || c == '-'
    let base := trim (inner.takeWhile (fun c => !isCut c))
    let rest := inner.dropWhile (fun c => !isCut c)
    let (core, mark) := unmark base
    match nameOf core, rest with
    | some x, [] => .ok ⟨x, mark, none⟩
    | some x, c :: e =>
      let e := trim e
      if e == [] || (regOf (unmark e).1).isSome then .error .eSyntax else .ok ⟨x, mark, some (c == '-', e)⟩
    | none, _ => .error (misplaced base)

/-- What an operand gives: a register field, the text of an immediate, or a text with a sign. -/
structure OpRead where
  fld : Option FldVal := none
  imm : Option (Bool × Str) := none
  piece : Piece
deriving DecidableEq, Repr

/-- A text in the place of an immediate carries no mark (R32), and a register stands there only as a parameter of
`mcall`; such a parameter, as `a5` or `h3`, is not checked against the task's declaration (R43; DESIGN CHOICE,
notes/assumptions/39.md). -/
def plainText (cx : Ctx) (k : Kind) (t : Str) : Except Err OpRead :=
  let (core, mark) := unmark t
  if mark.isSome then .error .eMark
  else match nameOf core with
  | some (.ph _) =>
    if cx.micro then .ok { imm := some (false, t), piece := .raw t }
    else .error .ePlace
  | some (.reg _ _) =>
    if k == .par || (k == .sty && (placeOf t typeNames).isSome) then .ok { imm := some (false, t), piece := .raw t }
    else .error .eSyntax
  | none => .ok { imm := some (false, t), piece := .raw t }

/-- Reads one operand of the kind that the syntax gives its place. -/
def readOp (cx : Ctx) (r : Row) (k : Kind) (t : Str) : Except Err OpRead :=
  match k with
  | .reg f fl =>
    let (core, mark) := unmark t
    match nameOf core with
    | none => .error (misplaced t)
    | some x => do
      let v ← regField cx r.form f fl x mark
      return { fld := some v, piece := .reg x (if markable r.form f fl then some v.last else none) }
  | .mem f disp => do
    let m ← memOf t
    let v ← regField cx r.form f .s m.base m.mark
    match m.disp with
    | none => return { fld := some v, imm := if disp then some (false, ['0']) else none, piece := .mem m.base v.last [] }
    | some (neg, e) =>
      if !disp || (neg && (phOf e).isSome) then .error .eSyntax
      else if (phOf e).isSome && !cx.micro then .error .ePlace
      else if (unmark e).2.isSome then .error .eMark
      else return { fld := some v, imm := some (neg, e)
                    piece := .mem m.base v.last ((if neg then '-' else '+') :: e) }
  | .cnt f =>
    match phOf t with
    | some i => if cx.micro then return { fld := some ⟨f, 0, false, some i⟩, piece := .raw t } else .error .ePlace
    | none => do
      let o ← plainText cx k t
      return { o with fld := some ⟨f, 0, false, none⟩ }
  | _ => plainText cx k t

/-- Reads the operands; `skip` is how many of the last may be left out (R434). -/
def readOps (cx : Ctx) (r : Row) (skip : Nat) : List Kind → List Str → Except Err (List (Kind × OpRead))
  | [], [] => .ok []
  | [], _ :: _ => .error .eSyntax
  | ks, [] => if ks.length ≤ skip then .ok [] else .error .eSyntax
  | k :: ks, t :: ts => do
    let o ← readOp cx r k t
    return (k, o) :: (← readOps cx r skip ks ts)

/-! ## A statement -/

/-- An instruction statement, read: the row of the opcode map it names, its qualifiers and its operands. -/
structure Stmt where
  stem : Str
  page : Nat
  op : Nat
  row : Row
  part : OpPart
  got : List (Nat × Nat)
  ops : List (Kind × OpRead)

/-- Splits a statement into its mnemonic with qualifiers and the text of its operands (R27); blank space between the two
is free where the first operand begins with punctuation. -/
def headOf (t : Str) : Str × Str :=
  let t := trim t
  (t.takeWhile idCont, trim (t.dropWhile idCont))

/-- Reads an instruction statement (R27 to R34, R434). -/
def readStmt (cx : Ctx) (t : Str) : Except Err Stmt := do
  let (h, rest) := headOf t
  match splitOn '.' h with
  | [] => .error .eSyntax
  | m :: qs =>
    match (if qs.contains [] then none else opOf m) with
    | none => .error .eSyntax
    | some (page, op) => do
      let part ← opPart m qs
      let texts := operands rest
      let isB := m == "call".toList && (match texts with
        | [x] => (match nameOf (unmark x).1 with
          | some (.reg fl _) => fl == .b
          | _ => false)
        | _ => false)
      let part := if isB then { part with var := 1 } else part
      match rowOf page op part.var with
      | none => .error .eSyntax
      | some r => do
        let ty := typed page m
        let got ← slots ty r 0 [] part.rest
        let part := if ty then { part with var := slotVal r got 0 } else part
        let (ks, skip) := pattern m r part.var
        if isB then do
          let ops ← readOps cx r 0 [.reg .d .b] texts
          return ⟨m, page, op, r, part, got, ops⟩
        else do
          let ops ← readOps cx r skip ks texts
          return ⟨m, page, op, r, part, got, ops⟩

/-! ## Immediates -/

/-- Instructions whose immediate is unsigned (R37, and each description). -/
def unsignedImm : List String :=
  ["slli", "srli", "srai", "mcall", "bext", "bins", "ori", "xori", "mfc", "mtc", "mcw", "mcinv", "trap", "ebrk"]
    ++ ["retire", "mx", "keyq", "keyrel", "vcvt", "vunpk"]
/-- Branches to a target (R124). -/
def branches : List String := ["pbr", "br", "brnz", "brz", "call"]

/-- The number of a `mcall` parameter: a register's, or an integer (R142). -/
def paramOf (env : Str → Option Word) (t : Str) : Except Err Int :=
  match regOf t with
  | some (_, n) => .ok n
  | none => valueIn env t 0 63
/-- The parameters of an `mcall`, from parameter 0 up. -/
def paramsOf (env : Str → Option Word) : List Str → Except Err Int
  | [] => .ok 0
  | t :: ts => do return (← paramOf env t) + 64 * (← paramsOf env ts)

/-- The value of the immediate field of a statement whose operands have the given immediate texts (R119, R124, R128,
R130, R132, R142, R155, R156, R184, R304). The displacement of `[sB-e]` is all that follows the sign: `[sB-e1+e2]` is
the base less `e1+e2` (DESIGN CHOICE, notes/assumptions/39.md). -/
def immField (cx : Ctx) (m : Str) (ts : List (Bool × Str)) : Except Err Int :=
  let is (n : String) : Bool := m == n.toList
  let among (ns : List String) : Bool := (placeOf m ns).isSome
  let t := (ts.map (·.2)).getD 0 ['0']
  if is "mcall" then do
    let slot ← match cx.micros t with
      | some i => Except.ok (i : Int)
      | none => valueIn cx.env t 0 63
    return slot + 64 * (← paramsOf cx.env (ts.drop 1 |>.map (·.2)))
  else if among ["bext", "bins"] then do
    let pos ← valueIn cx.env t 0 63
    let len ← match ts.drop 1 with
      | [] => Except.ok 1
      | (_, l) :: _ => valueIn cx.env l 1 64
    return pos + 64 * (len - 1)
  else if among memDisp then do
    let v ← valueOf cx.env t
    let v := if (ts.map (·.1)).getD 0 false then -v else v
    if among ["vld", "vst", "vldc"] then (if v % 64 == 0 then return v / 64 else .error .eRange) else return v
  else if among branches then do
    let v := (BitVec.ofInt 64 ((← valueOf cx.env t) - cx.pc)).toInt
    if v % 2 == 0 then return v / 2 else .error .eRange
  else if among ["mfc", "mtc"] then
    match placeOf t ctlNames with
    | some i => .ok i
    | none => valueIn cx.env t 0 17
  else if is "vcvt" then
    match placeOf t typeNames with
    | some i => .ok i
    | none => .error .eSyntax
  else if among ["slli", "srli", "srai"] then valueIn cx.env t 0 63
  else if is "mx" then do return (← valueIn cx.env t 1 16) - 1
  else if among ["keyq", "keyrel"] then
    match cx.keys.findIdx? (· == t) with
    | some i => .ok i
    | none => valueOf cx.env t
  else valueOf cx.env t

/-- Whether a value fits `n` XI prefixes (R37). -/
def fits (uns : Bool) (n : Nat) (v : Int) : Bool :=
  if uns then decide (0 ≤ v) && decide (v < 2 ^ (4 + 9 * n))
  else decide (-(2 ^ (3 + 9 * n) : Int) ≤ v) && decide (v < 2 ^ (3 + 9 * n))
/-- The fewest XI prefixes that hold a value, from `n` up, where `k` more may be tried. -/
def fewest (uns : Bool) (v : Int) (n : Nat) : Nat → Option Nat
  | 0 => if fits uns n v then some n else none
  | k + 1 => if fits uns n v then some n else fewest uns v (n + 1) k

/-! ## Encoding -/

/-- What a statement assembles to: its encoding, and the substitution halfword of its record (R141). -/
structure Code where
  e : Enc
  sub : Nat
deriving DecidableEq, Repr

/-- The bits of the substitution halfword that a field's placeholder sets. -/
def subBits (v : FldVal) : Nat :=
  match v.ph with
  | none => 0
  | some i => match v.f with
    | .d => 16384 + i * 4096
    | .a => 2048 + i * 512
    | .b => 256 + i * 64
    | .c => 32 + i * 8

/-- The register in a field. -/
def fieldOf (vs : List FldVal) (f : Fld) : Option Src := (vs.find? (·.f == f)).map (fun v => ⟨v.n, v.last⟩)

/-- How an immediate that has no value yet is taken: with its error, or as 0 with a number of XI prefixes that an earlier
pass found. -/
inductive Open where
  | report
  | assume (n : Nat)
deriving DecidableEq, Repr

/-- The encoding of a statement that has been read. `least` is a number of XI prefixes to take at the least. -/
def Stmt.code (cx : Ctx) (un : Open) (least : Nat) (s : Stmt) : Except Err Code := do
  let is (n : String) : Bool := s.stem == n.toList
  if cx.micro && is "mcall" then .error .eMicro
  else
    let vs := s.ops.filterMap (fun o => o.2.fld)
    let imms := s.ops.filterMap (fun o => match o.1 with
      | .cnt _ => none
      | _ => o.2.imm)
    let cnts ← s.ops.foldlM (init := ([] : List (Fld × Int))) (fun acc o => match o.1, o.2.imm with
      | .cnt f, some (_, t) => do return acc ++ [(f, ← valueIn cx.env t 0 7)]
      | _, _ => .ok acc)
    let sub := vs.foldl (fun n v => n + subBits v) 0
    let src (f : Fld) : Src :=
      match cnts.find? (·.1 == f) with
      | some (_, n) => ⟨n.toNat, false⟩
      | none => (fieldOf vs f).getD ⟨0, false⟩
    let e : Enc := { page := s.page, var := s.part.var, op := s.op, form := s.row.form, d := src .d, a := src .a
                     b := src .b, c := fieldOf vs .c, m := maskForm s.row s.got s.part.cond }
    let pre := e.halves.length - 1
    if 4 < pre then .error .eChain
    else if is "wait" then do
      let m ← match imms with
        | [] => Except.ok 7
        | (_, t) :: _ => valueIn cx.env t 0 7
      let h ← match imms.drop 1 with
        | [] => Except.ok 7
        | (_, t) :: _ => valueIn cx.env t 0 7
      return ⟨{ e with imm := (m + 8 * h).toNat * 16, n := if m == 7 && h == 7 then 0 else 1 }, sub⟩
    else if is "lea" then do
      let sh ← match imms with
        | [] => Except.ok 0
        | (_, t) :: _ => valueIn cx.env t 0 7
      return ⟨{ e with var := sh.toNat }, sub⟩
    else if s.row.form == .R || !s.row.imm then return ⟨e, sub⟩
    else match imms with
      | [(_, t)] =>
        match phOf t with
        | some i => return ⟨e, sub + 4 + i⟩
        | none => finish e sub pre imms
      | _ => finish e sub pre imms
where
  /-- Puts the immediate into the encoding (R37, R38, R103). -/
  finish (e : Enc) (sub pre : Nat) (imms : List (Bool × Str)) : Except Err Code :=
    let uns := (placeOf s.stem unsignedImm).isSome
    let lim := Nat.min s.row.xi (4 - pre)
    let put (v : Int) (n : Nat) : Code := ⟨{ e with imm := (v % 2 ^ (4 + 9 * n)).toNat, n := n }, sub⟩
    let whole : Except Err Code := do
      let v ← immField cx s.stem imms
      match fewest uns v (Nat.min least lim) (lim - Nat.min least lim) with
      | none => .error .eRange
      | some n => if s.row.form == .S && v % 2 != 0 then .error .eRange else return put v n
    match whole, un with
    | .ok c, _ => .ok c
    | .error x, .report => .error x
    | .error _, .assume n => .ok (put 0 (Nat.min n lim))

/-- The halfwords of one instruction statement and the substitution halfword of its record. -/
def assembleOne (cx : Ctx) (t : Str) : Except Err (List Nat × Nat) := do
  let s ← readStmt cx t
  let c ← s.code cx .report 0
  return (c.e.halves, c.sub)

/-! ## The two notations -/

/-- Prints a piece; a register with a mark shows `.last` or `.live` in verbose notation, `!` or nothing in compact. -/
def Piece.text (verbose : Bool) : Piece → Str
  | .reg x none => x.text
  | .reg x (some l) => x.text ++ markText l
  | .mem x l d => ['['] ++ x.text ++ markText l ++ d ++ [']']
  | .raw t => t
where
  /-- The mark of a source. -/
  markText (l : Bool) : Str := if verbose then (if l then ".last".toList else ".live".toList) else if l then ['!'] else []

/-- The qualifiers of a statement: the operation part, the ALLOW slot of R169, and every slot in verbose notation, those
that differ from their defaults in compact (R35). -/
def Stmt.quals (verbose : Bool) (s : Stmt) : List Str :=
  let allow :=
    if s.stem == "vqst".toList || s.stem == "vqenc".toList then
      (if verbose || s.part.var % 16 != 15 then [allowText (s.part.var % 16)] else [])
    else []
  let ty := typed s.page s.stem
  let one (i : Nat) : List Str :=
    let v := slotVal s.row s.got i
    if hasSlot ty s.row i && (verbose || v != slotDef s.row i) then [slotText i v] else []
  s.part.texts ++ allow ++ (List.range 7).flatMap one

/-- Prints a statement in one of the two notations (R35). -/
def Stmt.text (verbose : Bool) (s : Stmt) : Str :=
  let h := joinBy ['.'] (s.stem :: s.quals verbose)
  let os := joinBy [',', ' '] (s.ops.map (fun o => o.2.piece.text verbose))
  if os == [] then h else h ++ [' '] ++ os

/-- A statement in the other notation, or in the same one with its spacing made regular. -/
def convert (verbose : Bool) (t : Str) : Except Err Str := do
  let s ← readStmt { env := fun _ => none, micro := true } t
  return s.text verbose

/-! ## The disassembler -/

/-- The operation part that a variant and a condition code spell. -/
def partText (m : Str) (var cond : Nat) : Option (List Str) :=
  if m == "amo".toList then
    (amoNames[var % 16]?).map (fun o => [o.toList, if var / 16 == 1 then ['w'] else ['d']])
  else if m == "vcmp".toList then (condNames[cond]?).map (fun c => [c.toList])
  else
    let tab := opQuals m
    let v := if m == "vqst".toList || m == "vqenc".toList then var / 16 * 16 else var
    if tab == [] then some []
    else (tab.find? (·.2 == v)).map (fun p => if p.1 == "" then [] else [p.1.toList])

/-- The source in a field of a chain's fields. -/
def Fld.of (f : Fld) (x : Fd) : Src :=
  match f with
  | .d => x.d | .a => x.a | .b => x.b | .c => x.c0

/-- The text of an immediate of a kind, from the value of the field (R124 gives a target's address). -/
def immText (m : Str) (pc : Nat) (x : Fd) (i : Nat) : Str :=
  let is (n : String) : Bool := m == n.toList
  let among (ns : List String) : Bool := (placeOf m ns).isSome
  if is "wait" then natText (if i == 0 then x.imm % 8 else x.imm / 8 % 8)
  else if is "lea" then natText x.var
  else if among ["bext", "bins"] then natText (if i == 0 then x.imm % 64 else x.imm / 64 % 64 + 1)
  else if is "mcall" then natText (x.imm / 64 ^ i % 64)
  else if is "mx" then natText (x.imm + 1)
  else if among branches then intText ((pc : Int) + 2 * x.simm)
  else if (placeOf m unsignedImm).isSome then natText x.imm
  else intText x.simm

/-- The pieces of the operands of a decoded instruction; `i` counts the immediates printed. -/
def piecesOf (m : Str) (r : Row) (pc : Nat) (verbose : Bool) (x : Fd) (i : Nat) : List Kind → List (Kind × OpRead)
  | [] => []
  | k :: ks =>
    let one (p : Piece) : Kind × OpRead := (k, { piece := p })
    match k with
    | .reg f fl =>
      one (.reg (.reg fl (f.of x).n) (if markable r.form f fl then some (f.of x).last else none))
        :: piecesOf m r pc verbose x i ks
    | .mem f disp =>
      let v := if (placeOf m ["vld", "vst", "vldc"]).isSome then x.simm * 64 else x.simm
      let t := if !disp || (v == 0 && !verbose) then [] else if v < 0 then intText v else '+' :: intText v
      one (.mem (.reg .s (f.of x).n) (f.of x).last t) :: piecesOf m r pc verbose x i ks
    | .cnt f => one (.raw (natText (f.of x).n)) :: piecesOf m r pc verbose x i ks
    | .sty => one (.raw (typeNames.getD x.imm "").toList) :: piecesOf m r pc verbose x i ks
    | .ctl => one (.raw (ctlNames.getD x.imm "").toList) :: piecesOf m r pc verbose x i ks
    | _ => one (.raw (immText m pc x i)) :: piecesOf m r pc verbose x (i + 1) ks

/-- The statement of the instruction at the head of a list of halfwords, in compact notation or verbose, and how many
halfwords it takes; none where they are no instruction. -/
def disassemble (verbose : Bool) (pc : Nat) (hs : List Nat) : Option (Str × Nat) :=
  match parseChain .empty 0 hs, decodeAt hs .none with
  | .ok c, .ok _ =>
    let xp := c.xp.getD 0
    let page := xp / 32 % 16
    let op := c.half / 2048 % 32
    match rowOf page op (xp % 32) with
    | none => none
    | some r => do
      let m := ((opNames page).getD op "").toList
      let x := fieldsOf r c .none
      let texts ← partText m x.var x.nib
      let ty := typed page m
      let got := (if ty then [(0, x.var)] else [])
        ++ (if r.nib == .rs then [(1, x.nib / 2), (2, x.nib % 2)] else [])
        ++ (if r.mask then [(3, x.k), (4, bit x.zero)] else [])
        ++ (if r.nib == .so then [(5, x.nib / 4), (6, x.nib % 4)] else [])
      let isB := m == "call".toList && x.var == 1
      let (ks, skip) := if isB then ([.reg .d .b], 0) else pattern m r x.var
      let ks := if r.c == 1 && x.c.isNone then ks.take (ks.length - skip) else ks
      let s : Stmt := ⟨m, page, op, r, { texts := texts, var := x.var, rest := [] }, got, piecesOf m r pc verbose x 0 ks⟩
      return (s.text verbose, c.len)
  | _, _ => none

end Sys2Proof.Glas
end

