-- ==== Sys2Proof/Machine/GlasFile.lean ====
section
/-! DEFINITION. A source file of Gloith assembly: macros (R46), labels and names (R28, R47), kernels, tasks and their
descriptors (R40 to R43, R49), parameters (R44), microprograms (R45, R141), data (R47, R48), and the object that `glas`
writes (R50, R277, R278) with its relocations (R140). The layout is the least one at which every label holds: passes go
over the statements until names and sizes stay as they are. -/
namespace Sys2Proof.Glas
open Sys2Proof.Machine

/-! ## Real literals (R47) -/

/-- A real literal: NaN, an infinity, or ±`num` × 10^`k`. -/
inductive Real where
  | nan
  | inf (neg : Bool)
  | dec (neg : Bool) (num : Nat) (k : Int)
deriving DecidableEq, Repr

/-- The exponent of a literal. -/
def expOf (t : Str) : Option Int :=
  match t with
  | '-' :: ds => (decNat ds).map (fun n => -(n : Int))
  | '+' :: ds => (decNat ds).map (fun n => (n : Int))
  | _ => (decNat t).map (fun n => (n : Int))
/-- A decimal literal with an optional exponent. -/
def realOf (t : Str) : Except Err Real :=
  let t := trim t
  let neg := t.head? == some '-'
  let body := if neg then trim (t.drop 1) else t
  if t == "nan".toList then .ok .nan
  else if body == "inf".toList then .ok (.inf neg)
  else
    let isE (c : Char) : Bool := c == 'e' || c == 'E'
    let mant := body.takeWhile (fun c => !isE c)
    let tail := body.dropWhile (fun c => !isE c)
    let whole := mant.takeWhile (· != '.')
    let frac := (mant.dropWhile (· != '.')).drop 1
    match decNat (whole ++ frac), (if tail == [] then some 0 else expOf (tail.drop 1)) with
    | some n, some x => .ok (.dec neg n (x - frac.length))
    | _, _ => .error .eSyntax
/-- The magnitude of a decimal for the rounding core: exact, or cut far below every tie with the rest noted. -/
def magDec (num : Nat) (k : Int) : Mag :=
  if 0 ≤ k then ⟨num * 10 ^ k.toNat, 0, false⟩
  else
    let den := 10 ^ (-k).toNat
    let s := bitLen den + 80
    ⟨num * 2 ^ s / den, -(s : Int), num * 2 ^ s % den != 0⟩
/-- The bits of a literal in a float type, rounded to nearest even; a finite literal that rounds to infinity is an
error (R47). -/
def realBits (ty : ETy) (r : Real) : Except Err Nat :=
  match r with
  | .nan => .ok (nanOf ty)
  | .inf neg => .ok (infTo ty false neg).1
  | .dec neg n k =>
    let x := (roundTo ty .rne false neg 0 (magDec n k)).1
    if x == (infTo ty false neg).1 then .error .eRange else .ok x
/-- Whether a literal has exactly the value of a level. -/
def sameValue (r : Real) (v : FV) : Bool :=
  match r, v with
  | .dec neg n k, .fin neg' m e =>
    (n == 0 && m == 0) || (neg == neg'
      && n * 10 ^ k.toNat * 2 ^ (-e).toNat == m * 2 ^ e.toNat * 10 ^ (-k).toNat)
  | _, _ => false

/-! ## Macros (R46) -/

/-- A line of source after its comment is taken off. -/
structure Line where
  no : Nat
  text : Str
deriving DecidableEq, Repr

/-- A macro. -/
structure Macro where
  name : Str
  params : List Str
  body : List Str
deriving DecidableEq, Repr

/-- The label at the head of a line and the rest of the line (R27). -/
def labelOf (t : Str) : Option Str × Str :=
  let t := trim t
  let w := t.takeWhile idCont
  let r := (t.dropWhile idCont).dropWhile isBlank
  if idText w && r.head? == some ':' then (some w, trim (r.drop 1)) else (none, t)

/-- A text with the identifiers of a list renamed by a suffix, but for the names of parameters; `run` is the identifier
being read, `par` says that a dollar sign stands before it. -/
def rename (ls : List Str) (suf : Str) (par : Bool) (run : Str) : Str → Str
  | [] => if !par && ls.contains run then run ++ suf else run
  | c :: t =>
    if idCont c then rename ls suf par (run ++ [c]) t
    else (if !par && ls.contains run then run ++ suf else run) ++ c :: rename ls suf (c == '$') [] t

/-- The parameter that a text begins with, taken as long as it can be, with its argument and its length. -/
def argAt (args : List (Str × Str)) (t : Str) : Nat → Option (Str × Nat)
  | 0 => none
  | n + 1 =>
    let w := t.take (n + 1)
    let ends := match t[n + 1]? with
      | none => true
      | some c => !(idStart c || isDig c)
    match (if ends then args.find? (·.1 == w) else none) with
    | some p => some (p.2, n + 1)
    | none => argAt args t n
/-- A line of a body with its parameters replaced; none where a dollar sign names no parameter. -/
def substArgs (args : List (Str × Str)) : Nat → Str → Option Str
  | _, [] => some []
  | 0, _ :: _ => none
  | n + 1, c :: t =>
    if c == '$' then
      match argAt args t (t.takeWhile idCont).length with
      | some (v, k) => (substArgs args n (t.drop k)).map (v ++ ·)
      | none => none
    else (substArgs args n t).map (c :: ·)

/-- Macros and the lines outside their bodies. -/
structure Collect where
  macros : List Macro := []
  open? : Option Macro := none
  lines : List Line := []
  errs : List (Nat × Err) := []
deriving DecidableEq, Repr

/-- The head of a macro definition. Two parameters of one name are `E-SYNTAX`, and a macro may bear the name of a stem with
a slot's qualifier, as `vadd.f32`, which is no mnemonic: it then stands for the statements that begin so (DESIGN CHOICE,
notes/assumptions/40.md). -/
def macroHead (ms : List Macro) (rest : Str) : Except Err Macro :=
  let (n, ps) := headOf rest
  let ps := operands ps
  if isMnemonic n then .error .eMacro
  else if !definable n || !ps.all definable || 16 < ps.length || !ps.Nodup then .error .eSyntax
  else if ms.any (·.name == n) then .error .eLabel
  else .ok ⟨n, ps, []⟩

/-- Takes one line: into the body of the open macro, or on. An `.endmacro` with no open macro is `E-NEST`, and one that
carries an operand still ends its macro (DESIGN CHOICE, notes/assumptions/40.md). A label before either directive names
the statement that follows (R27, R28). -/
def Collect.line (c : Collect) (l : Line) : Collect :=
  let (lab, t) := labelOf l.text
  let (d, rest) := headOf t
  let mark : List Str := match lab with
    | some n => [n ++ [':']]
    | none => []
  match c.open? with
  | some m =>
    if d == ".endmacro".toList then
      { c with open? := none, macros := c.macros ++ [{ m with body := m.body ++ mark }]
               errs := if rest == [] then c.errs else c.errs ++ [(l.no, .eSyntax)] }
    else if d == ".macro".toList then { c with errs := c.errs ++ [(l.no, .eNest)] }
    else { c with open? := some { m with body := m.body ++ [l.text] } }
  | none =>
    if d == ".macro".toList then
      let c := { c with lines := c.lines ++ mark.map (fun b => Line.mk l.no b) }
      match macroHead c.macros rest with
      | .ok m => { c with open? := some m }
      | .error e => { c with errs := c.errs ++ [(l.no, e)], open? := some ⟨[], [], []⟩ }
    else if d == ".endmacro".toList then { c with errs := c.errs ++ [(l.no, .eNest)] }
    else { c with lines := c.lines ++ [l] }

/-- Lines expanded, the errors met, and how many expansions were made. -/
structure Expanded where
  lines : List Line := []
  errs : List (Nat × Err) := []
  count : Nat := 0
deriving DecidableEq, Repr

/-- Expands one line, at most `depth` deep; labels defined in a body carry a suffix of their own for each expansion. A
label whose name the body takes from a parameter (`$lab:`) is the caller's and carries no suffix (DESIGN CHOICE,
notes/assumptions/40.md). -/
def expand (ms : List Macro) (l : Line) : Nat → Expanded → Expanded
  | depth, acc =>
    let (lab, t) := labelOf l.text
    let (h, rest) := headOf t
    match ms.find? (fun m => m.name == h && h != []) with
    | none => { acc with lines := acc.lines ++ [l] }
    | some m =>
      let args := operands rest
      if args.length != m.params.length then { acc with errs := acc.errs ++ [(l.no, .eMacro)] }
      else match depth with
        | 0 => { acc with errs := acc.errs ++ [(l.no, .eMacro)] }
        | d + 1 =>
          let acc := { acc with count := acc.count + 1
                                lines := acc.lines ++ (match lab with
                                  | some n => [⟨l.no, n ++ [':']⟩]
                                  | none => []) }
          let suf := '@' :: natText acc.count
          let own := m.body.filterMap (fun b => (labelOf b).1)
          m.body.foldl (init := acc) fun acc b =>
            let b := rename own suf false [] b
            match substArgs (m.params.zip args) b.length b with
            | some b' => expand ms ⟨l.no, b'⟩ d acc
            | none => { acc with errs := acc.errs ++ [(l.no, .eSyntax)] }

/-! ## What a file declares -/

/-- The names of expressions: labels and `.equ` names are the file's, parameters their kernel's (R28, R44). -/
inductive Key where
  | file (s : Str)
  | kern (k s : Str)
  | micro (k s : Str)
deriving DecidableEq, Repr

/-- A key of a task (R42). -/
structure KeyDecl where
  name : Str
  base : Int
  cx : Int
  cy : Int
  shared : Bool
deriving DecidableEq, Repr

/-- Track data of a task (R49). -/
structure TrackDecl where
  no : Nat
  track : Nat
  pos : Nat
  /-- The data-section label, and the offset it stands for once the section is whole. -/
  label : Str
  off : Nat := 0
  count : Nat
deriving DecidableEq, Repr

/-- A task with its descriptor (R41). -/
structure Task where
  name : Str
  entry : Option Nat := none
  seen : List Str := []
  gang : Nat := 1
  ext : Nat × Nat × Nat := (1, 1, 1)
  after : List (Nat × Str × Bool) := []
  keys : List KeyDecl := []
  deadline : Nat := 4294967295
  budget : Nat := 4294967295
  sregs : Nat := 64
  vregs : Nat := 64
  acc : Nat := 0
  banks : Nat := 0
  roles : Nat := 0
  tracks : Nat := 0
  data : List TrackDecl := []
deriving DecidableEq, Repr

/-- A microprogram: its records, latest first (R141). -/
structure Micro where
  name : Str
  recs : List (List Nat × Nat) := []
deriving DecidableEq, Repr

/-- A parameter: name, offset, type name and count (R44). -/
structure Param where
  name : Str
  off : Nat
  ty : Str
  count : Nat
deriving DecidableEq, Repr

/-- A kernel being assembled; its code's halfwords stand latest first. -/
structure Kern where
  no : Nat
  name : Str
  code : List Nat := []
  len : Nat := 0
  align : Nat := 2
  tasks : List Task := []
  micros : List Micro := []
  params : List Param := []
  plen : Nat := 0
  relocs : List (Nat × Nat) := []
deriving DecidableEq, Repr

/-- Where a pass over the statements stands. -/
structure Asm where
  defs : List (Key × Option Word) := []
  errs : List (Nat × Err) := []
  /-- lines with the warning `W-ALIGN` -/
  warns : List Nat := []
  kerns : List Kern := []
  kern : Option Kern := none
  task : Option Task := none
  micro : Option Micro := none
  inData : Bool := false
  /-- bytes of the data section, latest first -/
  data : List Nat := []
  dlen : Nat := 0
  dalign : Nat := 1
  dlabels : List (Str × Nat) := []
  pending : List Str := []
  /-- the XI prefixes of each instruction, latest first -/
  sizes : List Nat := []
deriving DecidableEq, Repr

/-- What a pass takes from the one before: the values of names and the XI prefixes of each instruction; whether sizes
only grow, and whether errors of values are reported. -/
structure Pass where
  env : List (Key × Option Word)
  sizes : List Nat
  grow : Bool
  final : Bool
deriving DecidableEq, Repr

/-- The value of a definition. -/
def find (env : List (Key × Option Word)) (k : Key) : Option Word := ((env.find? (·.1 == k)).map (·.2)).join
/-- The values of names inside a kernel: its own parameters before the file's names. -/
def Pass.look (p : Pass) (s : Asm) : Str → Option Word := fun n =>
  match s.kern with
  | none => find p.env (.file n)
  | some k => match find p.env (.kern k.name n) with
    | some v => some v
    | none => find p.env (.file n)

/-- Defines a name once (R28, R47). -/
def Asm.define (s : Asm) (k : Key) (name : Str) (v : Option Word) : Except Err Asm :=
  if !definable name then .error .eSyntax
  else if s.defs.any (·.1 == k) then .error .eLabel
  else .ok { s with defs := s.defs ++ [(k, v)] }
/-- The byte offset at which the next halfword of code stands. -/
def Asm.pc (s : Asm) : Nat := match s.kern with
  | some k => 2 * k.len
  | none => 0
/-- Gives the labels that wait their place: in the data section or in the code (R28). A code label's number is its byte
offset from the start of the kernel's code image, in whatever expression it stands (DESIGN CHOICE,
notes/assumptions/40.md). -/
def Asm.settle (s : Asm) (data : Bool) : Except Err Asm :=
  if !data && s.micro.isSome && s.pending != [] then .error .ePlace
  else
    let v := if data then s.dlen else s.pc
    s.pending.foldlM (init := { s with pending := [] }) fun s n => do
      let s ← s.define (.file n) n (some (BitVec.ofNat 64 v))
      return if data then { s with dlabels := s.dlabels ++ [(n, v)] } else s
/-- Appends bytes to the data section. -/
def Asm.emit (s : Asm) (bs : List Nat) : Asm := { s with data := bs.reverseAux s.data, dlen := s.dlen + bs.length }
/-- Bytes of a number, the least significant first (R39). -/
def le (n v : Nat) : List Nat := (List.range n).map (fun i => v / 256 ^ i % 256)

/-! ## Data directives (R47, R48) -/

/-- The places outside parentheses at which a text has a star; `d` is the depth of parentheses before it. -/
def stars (i : Nat) (d : Int) : Str → List Nat
  | [] => []
  | c :: t =>
    (if c == '*' && d == 0 then [i] else [])
      ++ stars (i + 1) (if c == '(' then d + 1 else if c == ')' then d - 1 else d) t
/-- An item and how often it stands. -/
def times (env : Str → Option Word) (t : Str) : Except Err (Str × Nat) :=
  match stars 0 0 t with
  | [] => .ok (t, 1)
  | [i] => do return (t.take i, (← valueIn env (t.drop (i + 1)) 1 4294967295).toNat)
  | _ => .error .eExpr
/-- The integers of `.byte` to `.dword`. -/
def intItems (env : Str → Option Word) (n : Nat) (ts : List Str) : Except Err (List Nat) :=
  ts.foldlM (init := []) fun acc t => do
    let (v, k) ← times env t
    let x ← valueOf env v
    if -(2 ^ (8 * n - 1) : Int) ≤ x && x < 2 ^ (8 * n) then
      return acc ++ (List.replicate k (le n (x % 2 ^ (8 * n)).toNat)).flatten
    else .error .eRange
/-- The reals of `.bf16` and `.f32`. -/
def realItems (env : Str → Option Word) (ty : ETy) (n : Nat) (ts : List Str) : Except Err (List Nat) :=
  ts.foldlM (init := []) fun acc t => do
    let (v, k) ← times env t
    let x ← realBits ty (← realOf v)
    return acc ++ (List.replicate k (le n x)).flatten

/-- The encodings of `.sb4` in the order of their codes (R92). -/
def sb4Names : List String := ["e2m1", "int4", "nl4", "e3m0"]
/-- The code of a level: the lowest with that value. -/
def levelCode (e : Nat) (r : Real) : Except Err Nat :=
  match (List.range 16).find? (fun c => sameValue r (decSb4 e c)) with
  | some c => .ok c
  | none => .error .eSb
/-- One SB4 block (R48). -/
def sb4Block (env : Str → Option Word) (ts : List Str) : Except Err (List Nat) :=
  let values (ts : List Str) : Except Err (List Real) := do
    let items ← ts.foldlM (init := ([] : List Str)) fun acc t => do
      let (v, k) ← times env t
      -- more than 32 of an item are too many whatever their number
      return acc ++ List.replicate (Nat.min k 33) v
    if items.length != 32 then .error .eSb else items.mapM realOf
  match ts with
  | [] => .error .eSyntax
  | e :: rest =>
    if e == "auto".toList then do
      let xs ← (← values rest).mapM (realBits .f32)
      return (quantBlock false 15 (xs.map decF32)).1
    else match placeOf e sb4Names, rest with
      | some c, s :: vs => do
        let b ← if s == "nan".toList then Except.ok 255 else (valueIn env s (-127) 127).map (fun v => (v + 127).toNat)
        let codes ← (← values vs).mapM (levelCode c)
        return packBlock false b (selectorOf b c) codes
      | _, _ => .error .eSyntax

/-! ## Key expressions (R42) -/

/-- A sum of a base, a multiple of `x` and a multiple of `y`. -/
structure Aff where
  base : Option Int
  cx : Option Int
  cy : Option Int
deriving DecidableEq, Repr

/-- Puts two terms of one kind together: one of them at most stands in a key. -/
def joinTerm (a b : Option Int) : Except Err (Option Int) :=
  match a, b with
  | some _, some _ => .error .eKey
  | some v, none => .ok (some v)
  | none, v => .ok v
/-- The sum of two parts; a base and each coordinate stand once. -/
def Aff.add (p q : Aff) : Except Err Aff := do
  return ⟨← joinTerm p.base q.base, ← joinTerm p.cx q.cx, ← joinTerm p.cy q.cy⟩
/-- The negative of a part. -/
def Aff.neg (p : Aff) : Aff := ⟨p.base.map (- ·), p.cx.map (- ·), p.cy.map (- ·)⟩
/-- A coordinate of a key expression. -/
def isCoord (s : Str) : Bool := s == ['x'] || s == ['y']
/-- A multiple of a coordinate. -/
def multiple (s : Str) (c : Int) : Except Err Aff :=
  if s == ['x'] then .ok ⟨none, some c, none⟩ else if s == ['y'] then .ok ⟨none, none, some c⟩ else .error .eKey
/-- One term of a key expression (R42): a base, or a multiple of a coordinate by a constant. -/
def affTerm (env : Str → Option Word) (e : Ex) : Except Err Aff :=
  let times (s : Str) (c : Ex) : Except Err Aff :=
    if c.names.any isCoord then .error .eKey else do multiple s (← c.eval env).toInt
  if !e.names.any isCoord then do return ⟨some (← e.eval env).toInt, none, none⟩
  else match e with
  | .name s => multiple s 1
  | .neg (.name s) => multiple s (-1)
  | .bin .mul (.name s) (.name c) => if isCoord s then times s (.name c) else times c (.name s)
  | .bin .mul (.name s) c => times s c
  | .bin .mul c (.name s) => times s c
  | _ => .error .eKey
/-- The shape of a key expression: terms in any order, each kind once; any other is an error (R42). -/
def affine (env : Str → Option Word) (e : Ex) : Except Err Aff :=
  if !e.names.any isCoord then affTerm env e
  else match e with
  | .bin .add l r => do (← affine env l).add (← affTerm env r)
  | .bin .sub l r => do (← affine env l).add (← affTerm env r).neg
  | _ => affTerm env e

/-- One entry of `.keys` (R42). -/
def keyEntry (env : Str → Option Word) (t : Str) : Except Err KeyDecl :=
  match cutAt ':' t with
  | none => .error .eSyntax
  | some (n, rest) =>
    let n := trim n
    let rest := trim rest
    let last := (rest.reverse.takeWhile (fun c => !isBlank c)).reverse
    let named := last != rest && (last == "excl".toList || last == "shr".toList)
    let body := if named then rest.take (rest.length - last.length) else rest
    if !definable n then .error .eSyntax
    else do
      let a ← affine env (← exOf true body)
      let b ← match a.base with
        | some b => Except.ok b
        | none => .error .eKey
      let (cx, cy) := (a.cx.getD 0, a.cy.getD 0)
      let stride (c : Int) : Bool := -2147483648 ≤ c && c < 2147483648
      if 0 ≤ b && b < 4294967296 && stride cx && stride cy then return ⟨n, b, cx, cy, named && last == "shr".toList⟩
      else .error .eRange

/-! ## Descriptor directives (R41, R49) -/

/-- The number of a directive with one operand. -/
def oneIn (env : Str → Option Word) (ts : List Str) (lo hi : Int) : Except Err Nat :=
  match ts with
  | [t] => do return (← valueIn env t lo hi).toNat
  | _ => .error .eSyntax
/-- The roles of bank units (R64, R278). -/
def roleNames : List String := ["sp", "cache", "opbuf", "const"]
/-- The roles written, packed from unit 0 up. -/
def rolesOf : List Str → Except Err Nat
  | [] => .ok 0
  | t :: ts => match placeOf t roleNames with
    | some r => do return r + 4 * (← rolesOf ts)
    | none => .error .eSyntax
/-- One item of `.regs` (R41). The items stand in either order, one alone leaves the other at its default, and one named
twice is `E-SYNTAX` (DESIGN CHOICE, notes/assumptions/40.md). -/
def regsItem (env : Str → Option Word) (t : Task) (x : Str) : Except Err Task :=
  match cutAt '=' x with
  | none => .error .eSyntax
  | some (k, v) =>
    let k := trim k
    if t.seen.contains k then .error .eSyntax
    else if k == ['s'] then do return { t with sregs := (← valueIn env v 8 64).toNat, seen := t.seen ++ [k] }
    else if k == ['v'] then do return { t with vregs := (← valueIn env v 0 64).toNat, seen := t.seen ++ [k] }
    else .error .eSyntax

/-- A descriptor directive on the open task. -/
def descriptor (env : Str → Option Word) (no : Nat) (t : Task) (d : Str) (ts : List Str) : Except Err Task := do
  let is (n : String) : Bool := d == n.toList
  if is ".gang" then return { t with gang := ← oneIn env ts 1 1536 }
  else if is ".extent" then do
    let ns ← ts.mapM (fun x => do return (← valueIn env x 1 65535).toNat)
    match ns with
    | [x] => return { t with ext := (x, 1, 1) }
    | [x, y] => return { t with ext := (x, y, 1) }
    | [x, y, z] => return { t with ext := (x, y, z) }
    | _ => .error .eSyntax
  else if is ".after" then
    if ts == [] then .error .eSyntax
    else if 8 < ts.length then .error .eRange
    else do
      let es ← ts.mapM fun x => match cutAt ':' x with
        | none => Except.error Err.eEdge
        | some (n, k) =>
          if trim k == "all".toList then .ok (no, trim n, false)
          else if trim k == "same".toList then .ok (no, trim n, true)
          else .error .eEdge
      return { t with after := es }
  else if is ".keys" then
    if ts == [] then .error .eSyntax
    else if 4 < ts.length then .error .eRange
    else do
      let ks ← ts.mapM (keyEntry env)
      if (ks.map (·.name)).Nodup then return { t with keys := ks } else .error .eKey
  else if is ".deadline" then return { t with deadline := ← oneIn env ts 0 4294967295 }
  else if is ".budget" then return { t with budget := ← oneIn env ts 1 4294967295 }
  else if is ".regs" then if ts == [] then .error .eSyntax else ts.foldlM (regsItem env) t
  else if is ".acc" then return { t with acc := ← oneIn env ts 0 8 }
  else if is ".banks" then
    match ts with
    | [] => .error .eSyntax
    | u :: rs => do
      let n ← valueIn env u 0 8
      if n < rs.length then .error .eRange
      else return { t with banks := n.toNat, roles := ← rolesOf rs }
  else if is ".tracks" then return { t with tracks := ← oneIn env ts 0 16 }
  else match ts with
    | [i, p, l, c] => do
      let _ ← if idText l then valueOf env l else .error .eSyntax
      let x : TrackDecl :=
        { no := no, track := (← valueIn env i 0 4294967295).toNat, pos := (← valueIn env p 0 4095).toNat
          label := l, count := (← valueIn env c 1 4096).toNat }
      if t.data.length < 16 then return { t with data := t.data ++ [x] } else .error .eRange
    | _ => .error .eSyntax
/-- The names of the descriptor directives; `.trackdata`, which stands among them, may be repeated (R40, R49). -/
def descNames : List String :=
  [".gang", ".extent", ".after", ".keys", ".deadline", ".budget", ".regs", ".acc", ".banks", ".tracks", ".trackdata"]

/-! ## Statements -/

/-- The element sizes of parameter types (R44). -/
def paramSize (t : Str) : Option Nat :=
  if t == "addr".toList then some 8
  else match placeOf t ["i8", "n8", "i16", "n16", "bf16", "i32", "n32", "f32", "i64", "n64"] with
    | some i => some (if i < 2 then 1 else if i < 5 then 2 else if i < 8 then 4 else 8)
    | none => none

/-- The task's first instruction, or its end, fixes its entry; its track data names declared tracks (R49, R278). -/
def Task.begin (t : Task) (pc : Nat) : Except (Nat × Err) Task :=
  match t.entry with
  | some _ => .ok t
  | none => match t.data.find? (fun x => t.tracks ≤ x.track) with
    | some x => .error (x.no, .eDecl)
    | none => .ok { t with entry := some pc }

/-- Puts the open kernel away. -/
def Asm.close (s : Asm) : Except Err Asm := do
  let s ← s.settle s.inData
  match s.kern with
  | none => return s
  | some k => return { s with kern := none, kerns := s.kerns ++ [k] }

/-- The error of a statement outside a task and a microprogram: an instruction stands there in the wrong place (R40), an
unknown mnemonic is none (R434). -/
def strayErr (t : Str) : Err :=
  if (opOf ((headOf t).1.takeWhile (· != '.'))).isSome then .ePlace else .eSyntax
/-- An instruction (R40, R45). An `mcall` that names a microprogram carries an XI at the least, so that its field holds
whatever slot the loader gives (R37, R45, R140; DESIGN CHOICE, notes/assumptions/41.md). -/
def Asm.instr (p : Pass) (no : Nat) (s : Asm) (t : Str) : Except (Nat × Err) Asm := do
  let at' {α : Type} (x : Except Err α) : Except (Nat × Err) α := x.mapError (fun e => (no, e))
  let prev := p.sizes.getD s.sizes.length 0
  let un : Open := if p.final then .report else .assume prev
  let least := if p.grow then prev else 0
  match s.kern with
  | none => .error (no, strayErr t)
  | some k =>
    if s.inData then .error (no, strayErr t)
    else do
      let micros : Str → Option Nat := fun n => (find p.env (.micro k.name n)).map (·.toNat)
      let s ← at' (s.settle false)
      match s.micro, s.task with
      | some m, _ => do
        let cx : Ctx := { env := p.look s, micros := micros, micro := true }
        let st ← at' (readStmt cx t)
        let c ← at' (st.code cx un least)
        if 32 ≤ m.recs.length then .error (no, .eMicro)
        else return { s with micro := some { m with recs := (c.e.halves, c.sub) :: m.recs }
                             sizes := c.e.n :: s.sizes }
      | none, some tk => do
        let tk ← tk.begin s.pc
        let cx : Ctx := { env := p.look s, micros := micros, decl := some (tk.acc, tk.tracks)
                          keys := tk.keys.map (·.name), pc := s.pc }
        let st ← at' (readStmt cx t)
        let slot := if st.stem == "mcall".toList then
            ((st.ops.head?.bind (fun o => o.2.imm)).bind (fun i => micros i.2)) else none
        -- the slot of a microprogram is any of 64 until the loader places it
        let c ← at' (st.code cx un (if slot.isSome then Nat.max least 1 else least))
        let hs := c.e.halves
        let k := { k with code := hs.reverseAux k.code, len := k.len + hs.length
                          relocs := match slot with
                            | some i => k.relocs ++ [(2 * k.len, i)]
                            | none => k.relocs }
        return { s with kern := some k, task := some tk, sizes := c.e.n :: s.sizes }
      | none, none => .error (no, strayErr t)

/-- `.align` (R47). Where the rule names no error: a number outside 1 to 65,536 is `E-RANGE`, one that is no power of two
`E-ALIGN`, and `.align` in code outside a kernel or inside a microprogram `E-PLACE` (DESIGN CHOICE,
notes/assumptions/40.md). -/
def Asm.alignTo (p : Pass) (no : Nat) (s : Asm) (ts : List Str) : Except Err Asm := do
  let n ← oneIn (p.look s) ts 1 65536
  if 2 ^ Nat.log2 n != n || (!s.inData && n == 1) then .error .eAlign
  else if s.inData then do
    let s ← s.settle true
    let s := s.emit (List.replicate ((n - s.dlen % n) % n) 0)
    return { s with dalign := Nat.max s.dalign n }
  else match s.kern with
    | none => .error .ePlace
    | some _ =>
      if s.micro.isSome then .error .ePlace
      else do
        let s ← s.settle false
        match s.kern with
        | none => return s
        | some k =>
          let pad := (n - 2 * k.len % n) % n / 2
          return { s with kern := some { k with code := (List.replicate pad 2048).reverseAux k.code
                                                len := k.len + pad, align := Nat.max k.align n }
                          warns := if 4096 < n then s.warns ++ [no] else s.warns }

/-- `.param` (R44). Two of one name in one kernel are `E-LABEL`, and one inside an open microprogram is `E-PLACE` (DESIGN
CHOICE, notes/assumptions/40.md). -/
def Asm.param (p : Pass) (s : Asm) (ts : List Str) : Except Err Asm :=
  match s.kern with
  | none => .error .ePlace
  | some k =>
    if k.tasks != [] || s.task.isSome || s.micro.isSome then .error .ePlace
    else do
      let (n, ty, c) ← match ts with
        | [n, ty] => Except.ok (n, ty, 1)
        | [n, ty, c] => (valueIn (p.look s) c 1 4096).map (fun v => (n, ty, v.toNat))
        | _ => .error .eSyntax
      match paramSize ty with
      | none => .error .eSyntax
      | some z =>
        let off := (k.plen + z - 1) / z * z
        if 4096 < off + z * c then .error .eRange
        else do
          let s ← s.define (.kern k.name n) n (some (BitVec.ofNat 64 off))
          return { s with kern := some { k with plen := off + z * c, params := k.params ++ [⟨n, off, ty, c⟩] } }

/-- Opens a kernel, a task or a microprogram (R40, R45). A `.micro` inside an open task is `E-PLACE`, since a microprogram
stands outside any task, a `.task` inside an open microprogram is `E-NEST`, a `.task` or `.micro` before any `.kernel` is
`E-PLACE`, and two microprograms of one name in one kernel are `E-LABEL` (DESIGN CHOICE, notes/assumptions/40.md). -/
def Asm.openBlock (no : Nat) (s : Asm) (d : Str) (ts : List Str) : Except Err Asm := do
  let name ← match ts with
    | [n] => if definable n then Except.ok n else .error .eSyntax
    | _ => .error .eSyntax
  if s.micro.isSome || (s.task.isSome && d != ".micro".toList) then .error .eNest
  else if d == ".kernel".toList then do
    let s ← s.close
    if s.kerns.any (·.name == name) then .error .eLabel
    else return { s with kern := some { no := no, name := name }, inData := false }
  else match s.kern with
    | none => .error .ePlace
    | some k =>
      if d == ".task".toList then
        if k.tasks.any (·.name == name) then .error .eLabel
        else return { s with task := some { name := name }, inData := false }
      else if s.task.isSome then .error .ePlace
      else if 64 ≤ k.micros.length then .error .eMicro
      else do
        let s ← s.settle s.inData
        let s ← s.define (.micro k.name name) name (some (BitVec.ofNat 64 k.micros.length))
        return { s with micro := some { name := name }, inData := false }

/-- A directive. A descriptor directive after `.data` is `E-PLACE` though its task has no instruction yet, and an
`.endmicro` with no open microprogram is `E-NEST` (DESIGN CHOICE, notes/assumptions/40.md). -/
def Asm.directive (p : Pass) (no : Nat) (s : Asm) (d : Str) (rest : Str) : Except (Nat × Err) Asm :=
  let ts := operands rest
  let is (n : String) : Bool := d == n.toList
  let at' {α : Type} (x : Except Err α) : Except (Nat × Err) α := x.mapError (fun e => (no, e))
  let data (bs : Except Err (List Nat)) : Except (Nat × Err) Asm := at' do
    let s ← s.settle true
    let bs ← bs
    return s.emit bs
  let env := p.look s
  let items (x : Except Err (List Nat)) : Except Err (List Nat) := if ts == [] then .error .eSyntax else x
  if is ".byte" then data (items (intItems env 1 ts))
  else if is ".half" then data (items (intItems env 2 ts))
  else if is ".word" then data (items (intItems env 4 ts))
  else if is ".dword" then data (items (intItems env 8 ts))
  else if is ".bf16" then data (items (realItems env .bf16 2 ts))
  else if is ".f32" then data (items (realItems env .f32 4 ts))
  else if is ".sb4" then data (sb4Block env ts)
  else if is ".align" then at' (s.alignTo p no ts)
  else if (placeOf d descNames).isSome then
    match s.task with
    | none => .error (no, .ePlace)
    | some t =>
      if t.entry.isSome || s.inData || (!is ".trackdata" && t.seen.contains d) then .error (no, .ePlace)
      else at' do
        let t ← descriptor env no t d ts
        return { s with task := some { t with seen := t.seen ++ [d] } }
  else if is ".kernel" || is ".task" || is ".micro" then at' (s.openBlock no d ts)
  else if is ".endtask" then
    match s.task, s.kern with
    | some t, some k => if ts != [] then .error (no, .eSyntax) else do
      let t ← t.begin s.pc
      return { s with task := none, kern := some { k with tasks := k.tasks ++ [t] } }
    | _, _ => .error (no, .eNest)
  else if is ".endmicro" then
    match s.micro, s.kern with
    | some m, some k =>
      if ts != [] then .error (no, .eSyntax)
      else if s.pending != [] && !s.inData then .error (no, .ePlace)
      else if m.recs == [] then .error (no, .eMicro)
      else .ok { s with micro := none, kern := some { k with micros := k.micros ++ [m] } }
    | _, _ => .error (no, .eNest)
  else if is ".param" then at' (s.param p ts)
  else if is ".data" then if ts == [] then .ok { s with inData := true } else .error (no, .eSyntax)
  else if is ".equ" then
    match ts with
    | [n, e] => match valueOf env e with
      | .ok v => at' (s.define (.file n) n (some (BitVec.ofInt 64 v)))
      | .error x => if p.final then .error (no, x) else at' (s.define (.file n) n none)
    | _ => .error (no, .eSyntax)
  else .error (no, .eSyntax)

/-- Whether a text holds a placeholder of a microprogram (R45). -/
def hasPh : Str → Bool
  | [] => false
  | c :: t => (phOf (c :: t.take 2)).isSome && (t[2]?.all (fun x => !idCont x)) || hasPh t
/-- A placeholder outside a microprogram is an error of place, whatever the statement (R45). -/
def placed (inMicro : Bool) (t : Str) (e : Err) : Err := if e == .eSyntax && !inMicro && hasPh t then .ePlace else e
/-- One line of a pass; a statement in error leaves no trace but its error (R50). -/
def Asm.line (p : Pass) (s : Asm) (l : Line) : Asm :=
  let (lab, t) := labelOf l.text
  let s := match lab with
    | some n =>
      if s.micro.isSome && !s.inData then { s with errs := s.errs ++ [(l.no, .ePlace)] }
      else { s with pending := s.pending ++ [n] }
    | none => s
  if t == [] then s
  else
    let r := if t.head? == some '.' then (let (d, rest) := headOf t; s.directive p l.no d rest) else Asm.instr p l.no s t
    match r with
    | .ok s' => s'
    | .error (no, e) => { s with errs := s.errs ++ [(no, placed s.micro.isSome t e)], pending := [] }

/-- A pass over the statements of a file. -/
def run (p : Pass) (ls : List Line) : Asm :=
  let s := ls.foldl (Asm.line p) {}
  let no := (ls.getLast?.map (·.no)).getD 0
  let s := if s.task.isSome || s.micro.isSome then { s with errs := s.errs ++ [(no, .eNest)], task := none, micro := none } else s
  match s.close with
  | .ok s' => s'
  | .error e => { s with errs := s.errs ++ [(no, e)] }

/-- Passes until names and sizes stay as they are; none where `n` passes do not settle them. -/
def settleNames (grow : Bool) (ls : List Line) : Nat → Pass → Option Pass
  | 0, _ => none
  | n + 1, p =>
    let s := run p ls
    if s.defs == p.env && s.sizes.reverse == p.sizes then some p
    else settleNames grow ls n { env := s.defs, sizes := s.sizes.reverse, grow := grow, final := false }

/-! ## The object (R277, R278) -/

/-- The order of a kernel's tasks: again and again the first task whose predecessors all stand before it. -/
def order (preds : List (List Nat)) : Nat → List Nat → Option (List Nat)
  | 0, done => if done.length == preds.length then some done else none
  | n + 1, done =>
    match (List.range preds.length).find? (fun i => !done.contains i && (preds.getD i []).all done.contains) with
    | some i => order preds n (done ++ [i])
    | none => if done.length == preds.length then some done else none

/-- The predecessors of a task, as indices of the tasks in the file's order (R41). An entry that names no task of the
kernel is `E-EDGE` (DESIGN CHOICE, notes/assumptions/40.md). -/
def predsOf (ts : List Task) (t : Task) : Except (Nat × Err) (List (Nat × Bool)) :=
  t.after.mapM fun (no, n, same) =>
    match ts.findIdx? (·.name == n) with
    | none => .error (no, .eEdge)
    | some i => if same && (ts[i]?.map (·.ext)) != some t.ext then .error (no, .eEdge) else .ok (i, same)

/-- A number to bytes in two's complement. -/
def leInt (n : Nat) (v : Int) : List Nat := le n (v % 2 ^ (8 * n)).toNat
/-- Bytes padded with zeros to a multiple. -/
def padTo (m : Nat) (bs : List Nat) : List Nat := bs ++ List.replicate ((m - bs.length % m) % m) 0
/-- A list of bytes filled with zeros to a length. -/
def fillTo (n : Nat) (bs : List Nat) : List Nat := bs ++ List.replicate (n - bs.length) 0

/-- A node descriptor (R278): `pos` gives the index of each task in the node table, `td` where its track data stands. -/
def nodeBytes (pos : Nat → Nat) (preds : List (Nat × Bool)) (td : Nat) (t : Task) : List Nat :=
  le 8 (t.entry.getD 0) ++ le 2 t.ext.1 ++ le 2 t.ext.2.1 ++ le 2 t.ext.2.2 ++ le 2 t.gang ++ le 4 t.deadline
    ++ le 4 t.budget ++ [t.sregs, t.vregs, t.acc, t.banks, t.tracks, preds.length, t.keys.length, 0]
    ++ le 2 t.roles ++ le 2 t.data.length ++ le 4 (if t.data == [] then 0 else td) ++ le 8 0
    ++ fillTo 64 (t.keys.flatMap (fun k =>
        leInt 4 k.base ++ leInt 4 k.cx ++ leInt 4 k.cy ++ [bit k.shared, 0, 0, 0]))
    ++ fillTo 16 (preds.flatMap (fun q => le 2 (bit q.2 * 32768 + pos q.1)))

/-- A microprogram image (R141), padded to 8 bytes (R277). -/
def microBytes (m : Micro) : List Nat :=
  padTo 8 (le 8 m.recs.length
    ++ m.recs.reverse.flatMap (fun r => le 2 r.1.length ++ le 2 r.2 ++ (fillTo 5 r.1).flatMap (le 2)))

/-- The track data of one task from offset `at'` on: its entries, then their words; the words come from the data
section (R49, R278). -/
def trackBytes (data : List Nat) (at' : Nat) (t : Task) : List Nat :=
  let heads := 16 * t.data.length
  let offs := t.data.foldl (fun (acc : List Nat × Nat) x => (acc.1 ++ [acc.2], acc.2 + 128 * x.count)) ([], at' + heads)
  (t.data.zip offs.1).flatMap (fun (x, o) => [x.track, 0] ++ le 2 x.pos ++ le 2 x.count ++ [0, 0] ++ le 8 o)
    ++ t.data.flatMap (fun x => (data.drop x.off).take (128 * x.count))

/-- A kernel's object and what stands beside it: the relocations of `mcall` (R140), the parameters and the names of
the nodes. -/
structure KernelObject where
  name : Str
  bytes : List Nat
  relocs : List (Nat × Nat)
  params : List Param
  nodes : List Str
deriving DecidableEq, Repr

/-- A task with the offsets of its track data's labels; a name that is no label of the data section is an operand of the
wrong form (R49, R434). -/
def Task.located (labels : List (Str × Nat)) (t : Task) : Except (Nat × Err) Task := do
  let data ← t.data.mapM fun x => match labels.find? (·.1 == x.label) with
    | some e => Except.ok { x with off := e.2 }
    | none => .error (x.no, .eSyntax)
  return { t with data := data }

/-- The object of a kernel (R277). -/
def objectOf (data : List Nat) (labels : List (Str × Nat)) (k : Kern) : Except (Nat × Err) KernelObject := do
  if k.tasks == [] || 256 < k.tasks.length then .error (k.no, .eRange)
  else
    let k := { k with tasks := ← k.tasks.mapM (Task.located labels) }
    let ps ← k.tasks.mapM (predsOf k.tasks)
    match order (ps.map (fun q => q.map (·.1))) k.tasks.length [] with
    | none => .error (k.no, .eEdge)
    | some ord =>
      match (k.tasks.flatMap (·.data)).find? (fun x => data.length < x.off + 128 * x.count) with
      | some x => .error (x.no, .eRange)
      | none =>
        let pos (i : Nat) : Nat := ord.findIdx (· == i)
        let ts := ord.filterMap (fun i => (k.tasks[i]?).map (fun t => (t, ps.getD i [])))
        let al := Nat.min k.align 4096
        let table := 64 + 128 * ts.length
        let code := (table + al - 1) / al * al
        let clen := 2 * k.len
        let micro := (code + clen + 7) / 8 * 8
        let images := k.micros.flatMap microBytes
        let tracks := ts.foldl (fun (acc : List Nat × List Nat) t =>
            let o := micro + images.length + acc.1.length
            (padTo 8 (acc.1 ++ trackBytes data o t.1), acc.2 ++ [o])) ([], [])
        let bmap := (ts.map (fun t => 8 * ((t.1.ext.1 * t.1.ext.2.1 * t.1.ext.2.2 + 63) / 64))).foldl (· + ·) 0
        let header := [3, 0] ++ le 2 ts.length ++ [k.micros.length, 0, 0, 0] ++ le 8 code ++ le 4 clen ++ le 4 k.plen
          ++ le 8 (if k.micros == [] then 0 else micro) ++ le 4 bmap
        let nodes := (ts.zip tracks.2).flatMap (fun (t, o) => nodeBytes pos t.2 o t.1)
        return { name := k.name
                 bytes := fillTo code (fillTo 64 header ++ nodes)
                   ++ fillTo (micro - code) (k.code.reverse.flatMap (le 2)) ++ images ++ tracks.1
                 relocs := k.relocs, params := k.params, nodes := ts.map (·.1.name) }

/-- An object file: the kernels, the data section with its largest alignment and its labels, and the lines with
`W-ALIGN`. -/
structure ObjectFile where
  kernels : List KernelObject
  data : List Nat
  dataAlign : Nat
  labels : List (Str × Nat)
  warns : List Nat
deriving DecidableEq, Repr

/-- The lines of a source: ASCII, at most 1,024 characters each, without comments, and no sign `@` in a statement, which
begins no token (R27, R434). -/
def linesOf (src : Str) : List Line × List (Nat × Err) :=
  let ls := (splitOn '\n' src).zipIdx 1
  (ls.map (fun (t, n) => ⟨n, trim (t.takeWhile (· != ';'))⟩),
    ls.filterMap (fun (t, n) =>
      if 1024 < t.length || t.any (fun c => 128 ≤ c.toNat) || (t.takeWhile (· != ';')).contains '@' then some (n, .eSyntax)
      else none))

/-- The errors in the order of their lines. -/
def byLine (es : List (Nat × Err)) : List (Nat × Err) := es.mergeSort (fun a b => a.1 ≤ b.1)

/-- `glas` on a source file: its object file, or the errors it reports, each with its line; where it reports any it
writes no object file (R50). -/
def assemble (src : Str) : Except (List (Nat × Err)) ObjectFile :=
  let (ls, bad) := linesOf src
  let c := ls.foldl Collect.line {}
  let c := if c.open?.isSome then { c with errs := c.errs ++ [(ls.length, .eNest)] } else c
  let stray := c.lines.filterMap (fun l => if l.text.contains '$' then some (l.no, Err.eSyntax) else none)
  let x := c.lines.foldl (fun acc l => expand c.macros l 64 acc) {}
  let early := bad ++ c.errs ++ stray ++ x.errs
  if early != [] then .error (byLine early)
  else
    let start : Pass := { env := [], sizes := [], grow := false, final := false }
    let n := x.lines.length
    let found := match settleNames false x.lines 64 start with
      | some p => some p
      | none => settleNames true x.lines (64 + 6 * n) { start with grow := true }
    match found with
    | none => .error [(0, .eExpr)]
    | some p =>
      let s := run { p with final := true } x.lines
      if s.errs != [] then .error (byLine s.errs)
      else
        let data := s.data.reverse
        let r := s.kerns.foldl (fun (acc : List KernelObject × List (Nat × Err)) k =>
          match objectOf data s.dlabels k with
          | .ok o => (acc.1 ++ [o], acc.2)
          | .error e => (acc.1, acc.2 ++ [e])) ([], [])
        if r.2 != [] then .error (byLine r.2)
        else .ok { kernels := r.1, data := data, dataAlign := s.dalign, labels := s.dlabels, warns := s.warns }

end Sys2Proof.Glas
end

