-- ==== Sys2Proof/Tests/Slice0.lean ====
section
/-! SUPPORT. Tests: ill-formed terms that the checks refuse, words written from the encodings of the spec, and, for each
statement of Obligations.lean, states and operands that meet its hypotheses, clause by clause; what a step leaves is checked
against values worked out from the rules by hand. -/
open Sys2Proof Sys2Proof.Machine
namespace Sys2Proof.Tests
set_option Elab.async false

/-! ## States -/

/-- A context of core 0x200 with four banks: `s1` to `s5` and three vector registers are mapped. -/
def ctx0 : Ctx :=
  { Ctx.blank with
    r := { Ctx.blank.r with
      s := [(1, 5), (2, 7), (3, 0x100), (4, 0xFFFFFFFFFFFFFFF8), (5, 0)]
      v := [(1, 1), (2, 2 ^ 32 + 3), (3, 0)]
      k := [(1, 1), (2, 0xF)] }
    decl := { Ctx.blank.decl with banks := [0, 1, 2, 3], acc := 1 }
    pc := 0x10000000000
    npc := 0x10000000002
    st := { Ctx.blank.st with live := true } }

/-- The state with a context in hand. -/
def withCx (c : Ctx) : State := { State.reset with cx := c }
def st0 : State := withCx ctx0
/-- At supervisor level. -/
def sup0 : State := withCx { ctx0 with sup := true, c := { ctx0.c with tvec := 0x200, tpc := 0x301 } }
/-- On the memory core 0. -/
def mem0 : State := withCx { ctx0 with id := { ctx0.id with core := 0 } }
def src (n : Nat) : Src := ⟨n, false⟩
/-- `s[n]` holds `x`. -/
def reg (s : State) (n : Nat) (x : Word) : State := s.onRegs fun r => { r with s := r.s.set n x }
/-- The values of operands that read. -/
def vals (o : Option (List Word × State)) : Option (List Word) := o.map (·.1)
/-- The state after an instruction that goes on. -/
def after (i : Instr) (s : State) : State := nextOr State.reset (exec i s)
/-- A scalar register after it. -/
def out (i : Instr) (s : State) (n : Nat) : Option Word := (after i s).cx.r.s.get? n
/-- The cause of a trap that it took. -/
def cause (i : Instr) (s : State) : Option Nat :=
  if (after i s).cx.sup && !s.cx.sup then some ((after i s).cx.c.cause.toNat % 64) else none

/-! ## Well-formedness: one ill-formed term for each check -/

theorem test_wf_register : (Instr.add 64 (src 1) (src 2)).wf = false ∧ (Instr.add 1 (src 64) (src 2)).wf = false := by decide
theorem test_wf_immediate : (Instr.li 1 (2 ^ 39)).wf = false ∧ (Instr.li 1 (2 ^ 39 - 1)).wf = true := by decide
theorem test_wf_even : (Instr.st (src 1) (src 2) 3).wf = false := by decide
theorem test_wf_unsigned : (Instr.slli 1 (src 2) 8192).wf = false := by decide
theorem test_wf_branch_target : (Instr.pbr 4 0).wf = false ∧ (Instr.mfb 1 4).wf = false := by decide
theorem test_wf_wait : (Instr.wait 8 0 0 0 0).wf = false := by decide
theorem test_wf_slot : (Instr.mcall 64 0 0 0 0).wf = false ∧ (Instr.mcinv 64).wf = false := by decide
theorem test_wf_type : (Instr.vld ⟨.e2m1, 0, false⟩ 1 (src 2) 0).wf = false ∧
    (Instr.vadd ⟨.e4m3, .rne, false, 0, false⟩ 1 (src 2) (src 3)).wf = false ∧ (Instr.ldx .f32 1 (src 2) 0).wf = false := by decide
theorem test_wf_mask : (Instr.vld ⟨.i32, 8, false⟩ 1 (src 2) 0).wf = false ∧ (Instr.kop .and 0 (src 1) (src 2)).wf = false := by decide
theorem test_wf_rounding : (Instr.vadd ⟨.i32, .rtz, false, 0, false⟩ 1 (src 2) (src 3)).wf = false := by decide
theorem test_wf_length : (Instr.bext 1 (src 2) 0 65).wf = false ∧ (Instr.bins 1 (src 2) 64 1).wf = false := by decide
theorem test_wf_extension : (Instr.sext 24 1 (src 2)).wf = false ∧ (Instr.lea 8 1 (src 2) (src 3)).wf = false := by decide
theorem test_wf_condition : (Instr.vcmp .un ⟨.i32, 0, false⟩ 1 (src 2) (src 3)).wf = false := by decide
theorem test_wf_atomic : (Instr.amo .fadd false .core 1 (src 2) (src 3)).wf = false ∧ (Instr.fence .core .rlx).wf = false := by decide
theorem test_wf_tile : (Instr.mxzero 8).wf = false ∧ (Instr.mx 0 17).wf = false ∧ (Instr.mx 0 0).wf = false := by decide
theorem test_wf_ring_chute : (Instr.rgrsv 1 16 (src 2)).wf = false ∧ (Instr.fpop 1 4).wf = false := by decide
theorem test_wf_event_unit : (Instr.bar false 16 (src 1)).wf = false ∧ (Instr.evsig 32).wf = false ∧ (Instr.keyrel 4).wf = false := by decide
theorem test_wf_head : (Instr.hrd 1 16).wf = false ∧ (Instr.hburst 0 16 (src 1)).wf = false := by decide
theorem test_wf_unused_operand : (Instr.kmov .set 1 (src 1)).wf = false ∧ (Instr.mxstat .cnt 1 1).wf = false ∧
    (Instr.rgst .prod 1 0 (src 1)).wf = false := by decide
theorem test_wf_selectors : (Instr.vqenc false 0 1 (src 2)).wf = false ∧ (Instr.vunpk ⟨.i8, 0, false⟩ 1 (src 2) 2).wf = false := by decide
theorem test_wf_reserved : (Instr.reservedOpcode 0 0x0800).wf = false ∧ (Instr.reservedOpcode 10 0x0800).wf = true := by decide
theorem test_wf_chain : (Instr.addi 8 (src 1) (2 ^ 35)).wf = true ∧ (Instr.addi 8 (src 1) (2 ^ 35)).wellFormed = false := by decide

/-! ## Decoding: the words of the spec's worked encodings, page by page. `0b` words are written out field by field. -/

/-- The instruction that halfwords decode to. -/
def dec (hs : List Nat) : Option Instr := decode hs

theorem test_decode_page0 :
    -- OP 00001 | D 011 | A 001 | B 010 | LA 1 | LB 0
    dec [0b0000101100101010] = some (.add 3 ⟨1, true⟩ (src 2)) ∧
    dec [0b1111100000000110, 0b0001010010001000] = some (.addi 4 (src 4) 100) ∧
    dec [0xFB48, 0x0828] = some (.add 40 (src 9) (src 2)) ∧ dec [0x1B95] = some (.sub 3 (src 4) ⟨5, true⟩) ∧
    dec [0xA8FC] = some (.wait 0 7 7 7 7) ∧ dec [0xF838, 0xAFFC] = some (.wait 7 7 7 0 7) ∧
    dec [0xFC02, 0xEB40] = some (.sync .sum 3 (src 2)) := by decide
theorem test_decode_page0_vector :
    dec [0xFC01, 0xFF70, 0xDC4C] = some (.vadd ⟨.bf16, .rne, false, 3, true⟩ 4 (src 2) (src 3)) ∧
    dec [0xFA40, 0xB988] = some (.vld ⟨.f32, 0, false⟩ 9 (src 4) 4) ∧
    dec [0xFC01, 0xFE0E, 0xD529] = some (.vfma ⟨.bf16, .rne, false, 0, false⟩ 5 (src 1) ⟨2, true⟩ (some ⟨3, true⟩)) ∧
    dec [0xFF03, 0xDFE5] = some (.vadd ⟨.f32, .rtz, true, 0, false⟩ 7 (src 7) ⟨1, true⟩) := by decide
theorem test_decode_page1 :
    -- XP page 1 | XR D 001 A 001 B 000 | OP 01111 | D 001 | A 000 | IMM4 1111 | LA 1
    dec [0b1111110000100000, 0b1111101001001000, 0b0111100100011111] = some (.bext 9 ⟨8, true⟩ 15 1) ∧
    dec [0xFC23, 0xC5DC] = some (.lea 3 5 (src 6) (src 7)) := by decide
theorem test_decode_page2 :
    -- XP page 2 | XR D 000 A 001 B 000 | OP 00100 | D 000 | A 011 | B 000 | LA 0 | LB 0
    dec [0b1111110001000000, 0b1111101000001000, 0b0010000001100000] = some (.brne 0 (src 11) (src 0)) ∧
    dec [0xFC40, 0xFA40, 0x701E] = some (.mfc 8 15) ∧ dec [0xFC40, 0xFA08, 0x7827] = some (.mtc 3 ⟨9, true⟩) ∧
    dec [0xFC40, 0xB000] = some .tsig ∧ dec [0xFC40, 0xFA48, 0xA822] = some (.spawn 8 ⟨9, true⟩) ∧
    dec [0xFC40, 0xFA48, 0xDA02] = some (.tmwait 10 ⟨8, true⟩) ∧ dec [0xFC40, 0xFA48, 0xC820] = some (.pgateReq 8 (src 9)) ∧
    dec [0xFC41, 0xCCA0] = some (.pgateQ 4 (src 5)) ∧ dec [0xFC40, 0xD342] = some (.pwake 3 ⟨2, true⟩) := by decide
theorem test_decode_page3 :
    -- XP page 3 variant 12 | XR D 001 | OP 00001 | D 001 | A 100 | IMM4 0011 | LA 0
    dec [0b1111110001101100, 0b1111101001000000, 0b0000100110000110] = some (.ldx .n8 9 (src 4) 3) ∧
    dec [0xFC71, 0xFA40, 0x3895] = some (.amo .add true .pkg 8 (src 4) ⟨5, true⟩) ∧
    dec [0xFC60, 0xFF2B, 0x4E69] = some (.aggadd 1 false .pkg 6 (src 3) ⟨2, true⟩) := by decide
theorem test_decode_page4 :
    -- XP page 4 variant 7 | XQ mask form, nibble 0010 | OP 01101 | D 010 | A 100 | B 101 | LA 0 | LB 0
    dec [0b1111110010000111, 0b1111111100000010, 0b0110101010010100] =
      some (.vcmp .lt ⟨.i32, 0, false⟩ 2 (src 4) (src 5)) := by decide
theorem test_decode_page5 :
    -- XP page 5 variant 1 | XQ nibble 1010 | OP 00110 | D 100 | A 010 | IMM4 0000 | LA 1
    dec [0b1111110010100001, 0b1111111100001010, 0b0011010001000001] =
      some (.vcvt ⟨.bf16, .rsr, false, 0, false⟩ 4 ⟨2, true⟩ .f32) ∧
    dec [0xFCAF, 0xF802, 0x6AC9] = some (.vqst false 15 ⟨2, true⟩ (src 6) 36) := by decide
theorem test_decode_page6 :
    -- XP page 6 | OP 00011 | D 010 | A 000 | IMM4 0011 | LA 0
    dec [0b1111110011000000, 0b0001101000000110] = some (.mx 2 4) ∧
    dec [0xFCC0, 0xFA09, 0x0A05] = some (.mxbind 2 (src 8) ⟨9, true⟩ none) ∧ dec [0xFCC0, 0x2062] = some (.mxg 0 ⟨3, true⟩) ∧
    dec [0xFCC0, 0x6581] = some (.plane .bf16 ⟨5, true⟩ (src 4)) ∧ dec [0xFCC1, 0x5800] = some (.drdone true) ∧
    dec [0xFCC1, 0xFA40, 0x7260] = some (.mxstat .clr 10 3) := by decide
theorem test_decode_page7 :
    -- XP page 7 | XR D 000 A 001 B 001 | OP 00011 | D 101 | A 000 | B 001 | LA 1 | LB 0
    dec [0b1111110011100000, 0b1111101000001001, 0b0001110100000110] = some (.rgpub 5 ⟨8, true⟩ (src 9)) ∧
    dec [0xFCE0, 0xFA49, 0xFE34, 0x3270] = some (.cpy .rne false 10 (src 11) (src 12) (some (src 13))) ∧
    dec [0xFCE0, 0x4862] = some (.fpush 0 ⟨3, true⟩) := by decide
theorem test_decode_page8 :
    -- XP page 8 | XQ mask form, nibble 0100 | OP 00010 | D 011 | A 010 | B 000 | LA 0 | LB 0
    dec [0b1111110100000000, 0b1111111100000100, 0b0001001101000000] = some (.bar false 3 (src 2)) ∧
    dec [0xFD00, 0xFA08, 0x0B00] = some (.bardef 3 (src 8)) ∧
    dec [0xFD01, 0xFA41, 0xFE2E, 0x2968] = some (.barwT 9 3 (src 10) ⟨11, true⟩) ∧ dec [0xFD00, 0xFA80, 0x4100] = some (.evwait 17) ∧
    dec [0xFD01, 0xFA09, 0x4805] = some (.evsigRmt (src 8) ⟨9, true⟩) ∧ dec [0xFD00, 0xFA40, 0x5002] = some (.keyqOwn 8 1) ∧
    dec [0xFD01, 0xFA48, 0x5021] = some (.keyqId 8 ⟨9, true⟩) ∧ dec [0xFD00, 0x5804] = some (.keyrel 2) := by decide
theorem test_decode_windows :
    dec [0xFD00, 0xFA48, 0x6022] = some (.shadow 8 ⟨9, true⟩) ∧ dec [0xFD00, 0xFA08, 0x6800] = some (.publishSwap (src 8)) ∧
    dec [0xFD00, 0xFA48, 0x7220] = some (.snapTake 10 (src 9)) ∧ dec [0xFD01, 0xFA08, 0x7002] = some (.snapDrop ⟨8, true⟩) ∧
    dec [0xFD00, 0x7880] = some (.tlbinvPage (src 4)) ∧ dec [0xFD01, 0x7800] = some .tlbinvAll := by decide
theorem test_decode_page9 :
    -- XP page 9 variant 2 | XR A 001 | OP 00001 | D 010 | A 001 | B 000 | LA 1 | LB 0
    dec [0b1111110100100010, 0b1111101000001000, 0b0000101000100010] = some (.hseek .bwd 2 ⟨9, true⟩) ∧
    dec [0xFD20, 0x1560] = some (.hrd 5 3) ∧ dec [0xFD20, 0x1BA2] = some (.hwr 3 ⟨5, true⟩) ∧
    dec [0xFD20, 0xFA08, 0x3300] = some (.hstride 3 (src 8)) ∧ dec [0xFD20, 0x3B00] = some (.htake 3) ∧
    dec [0xFD20, 0x4800] = some (.hrealign 0) ∧ dec [0xFD20, 0xFA01, 0x5988] = some (.hburst 1 4 (src 10)) := by decide
theorem test_decode_refused :
    decodeAt [0xF800, 0xF800, 0xF800, 0xF800, 0xF800] .none = .error (.badPrefix 1 0 4) ∧
    decodeAt [0xFC00, 0xFC00, 0x0800] .none = .error (.badPrefix 2 2 1) ∧
    dec [0xFD40, 0x0800] = some (.reservedOpcode 10 0x0800) := by decide
theorem test_encode : encode (.addi 4 (src 4) 100) = [0xF806, 0x1488] ∧
    encode (.lea 3 5 (src 6) (src 7)) = [0xFC23, 0xC5DC] := by decide
theorem test_table_word : decodeTableWord 16 0x0B2A = some (.add 3 ⟨1, true⟩ (src 2)) := by decide

/-! ## Vector instructions -/

/-- The number of a vector operand read. -/
def vnum (o : Option (VReg × State)) : Option Nat := o.map (·.1.toNat)
/-- Element `i` of width `w` of a vector register after an instruction. -/
def vout (j : Instr) (s : State) (n w i : Nat) : Option Nat := ((after j s).cx.r.v.get? n).map fun x => elem w x i
def q32 : MQ := ⟨.i32, 0, false⟩
def r32 : VQ := ⟨.i32, .rne, false, 0, false⟩
def f32 : VQ := ⟨.f32, .rne, false, 0, false⟩
/-- `v[n]` holds a number. -/
def vreg (s : State) (n x : Nat) : State := s.onRegs fun r => { r with v := r.v.set n (BitVec.ofNat 1024 x) }
theorem test_hyp_vector : (st0.operandsV [src 1, src 2, src 3] 2 false 1).isSome = true ∧
    (st0.operandsV [src 1, src 2] 0 false 9).isSome = true ∧ (st0.operandsV [src 1] 1 true 9).isSome = true ∧
    (st0.operandsV [] 0 false 9).isSome = true ∧ (st0.operandsVD [src 1, src 2] 0 3).isSome = true ∧
    st0.roomV 9 = true ∧ st0.roomV 1 = true := by decide
theorem test_vadd : vout (.vadd r32 9 (src 1) (src 2)) st0 9 32 0 = some 4 ∧ vout (.vadd r32 9 (src 1) (src 2)) st0 9 32 1 = some 1 := by decide +kernel
theorem test_vsub_sat : vout (.vsub ⟨.n8, .rne, true, 0, false⟩ 9 (src 1) (src 2)) st0 9 8 0 = some 0 ∧
    vout (.vsub r32 9 (src 1) (src 2)) st0 9 32 0 = some (2 ^ 32 - 2) := by decide +kernel
theorem test_vfma : vout (.vfma r32 2 (src 2) (src 2) none) st0 2 32 0 = some 12 ∧
    vout (.vmul r32 9 (src 2) (src 2)) st0 9 32 0 = some 9 := by decide +kernel
theorem test_vmask : vout (.vadd ⟨.i32, .rne, false, 1, false⟩ 2 (src 1) (src 2)) st0 2 32 1 = some 1 ∧
    vout (.vadd ⟨.i32, .rne, false, 1, true⟩ 2 (src 1) (src 2)) st0 2 32 1 = some 0 := by decide +kernel
theorem test_vbits : vout (.vclz q32 9 (src 2)) st0 9 32 0 = some 30 ∧ vout (.vpopc q32 9 (src 2)) st0 9 32 0 = some 2 ∧
    vout (.vxor q32 9 (src 1) (src 2)) st0 9 32 0 = some 2 ∧ vout (.vsll q32 9 (src 2) (src 2)) st0 9 32 0 = some 24 := by decide +kernel
theorem test_vfloat : vout (.vadd f32 9 (src 4) (src 5)) (vreg (vreg st0 4 0x3F800000) 5 0x40000000) 9 32 0 = some 0x40400000 ∧
    vout (.vmul f32 9 (src 5) (src 5)) (vreg st0 5 0x40000000) 9 32 0 = some 0x40800000 := by decide +kernel
theorem test_vclass_vround : vout (.vround ⟨.f32, .rtz, false, 0, false⟩ 9 (src 4)) (vreg st0 4 0x3FC00000) 9 32 0 = some 0x3F800000 ∧
    vout (.vscale f32 9 (src 4) (src 5)) (vreg (vreg st0 4 0x3F800000) 5 1) 9 32 0 = some 0x40000000 := by decide +kernel
theorem test_round : roundAt .rne false 0 ⟨3, 0, false⟩ 1 = (2, true) ∧ roundAt .rne false 0 ⟨4, 0, false⟩ 1 = (2, false) ∧
    roundAt .rne false 0 ⟨5, 0, false⟩ 1 = (2, true) := by decide
theorem test_vperm : vout (.vperm q32 9 (src 2) (src 1)) st0 9 32 0 = some 1 ∧ vout (.vrot q32 9 (src 2) (src 1)) st0 9 32 27 = some 3 ∧
    vout (.vspread ⟨.i32, 1, true⟩ 9 (src 2)) st0 9 32 0 = some 3 ∧ vout (.vcompr ⟨.i32, 1, true⟩ 9 (src 2)) st0 9 32 1 = some 0 := by decide +kernel
theorem test_vreduce : vout (.vgsum r32 9 (src 2)) st0 9 32 5 = some 4 ∧ vout (.vscan r32 9 (src 2)) st0 9 32 0 = some 3 ∧
    vout (.vgmax q32 9 (src 2)) st0 9 32 7 = some 3 ∧ vout (.viota q32 9) st0 9 32 4 = some 4 := by decide +kernel
theorem test_hyp_moves : (st0.readsS 2).isSome = true ∧ (st0.readsV 2).isSome = true ∧ (st0.readsK 1).isSome = true ∧
    (st0.readsOld 1 false 2).isSome = true ∧ (st0.readsV 9).isSome = true ∧ st0.roomK 3 = true ∧ st0.roomK 1 = true := by decide
theorem test_vmoves : vout (.vbcast q32 9 (src 2)) st0 9 32 31 = some 7 ∧ out (.vext .i32 9 (src 2) (src 5)) st0 9 = some 3 ∧
    vout (.vins .i32 2 (src 2) (src 5)) st0 2 32 0 = some 7 ∧ vout (.vsel .i32 1 9 (src 2) (src 1)) st0 9 32 1 = some 0 := by decide +kernel
theorem test_masks : (after (.kop .andn 3 (src 2) (src 1)) st0).cx.r.k.get? 3 = some 0xE ∧
    (after (.kmov .hi 1 (src 2)) st0).cx.r.k.get? 1 = some (BitVec.ofNat 128 (7 * 2 ^ 64 + 1)) ∧ out (.kmov .getlo 9 (src 2)) st0 9 = some 0xF ∧
    out (.kpop .i32 9 (src 2)) st0 9 = some 1 := by decide +kernel
theorem test_vcmp : (after (.vcmp .lt q32 3 (src 1) (src 2)) st0).cx.r.k.get? 3 = some 0xFF ∧
    (after (.vcmp .eq ⟨.i32, 1, true⟩ 3 (src 2) (src 2)) st0).cx.r.k.get? 3 = some 0xF := by decide +kernel
theorem test_hyp_conversions : tyWidth (wideOf .bf16) = 2 * tyWidth .bf16 ∧ (st0.operandsVD [src 1, src 2] 0 3).isSome = true ∧ st0.seedFree = true ∧
    (match dqBlock .mx4 ((List.range 34).map (elem 8 0)) with | .corrupt => false | _ => true) = true := by decide +kernel
theorem test_vcvt : vout (.vcvt ⟨.bf16, .rne, false, 0, true⟩ 9 (src 4) .f32) (vreg st0 4 0x3F800000) 9 16 0 = some 0x3F80 ∧
    vout (.vpack ⟨.bf16, .rne, false, 0, false⟩ 9 (src 4) (src 4)) (vreg st0 4 0x3F800000) 9 16 32 = some 0x3F80 ∧
    vout (.vunpk ⟨.bf16, 0, false⟩ 9 (src 4) 0) (vreg st0 4 0x3F80) 9 32 0 = some 0x3F800000 := by decide +kernel
theorem test_vdot : vout (.vdot ⟨.i8, .rne, false, 0, false⟩ 3 (src 2) (src 2)) st0 3 32 0 = some 9 := by decide +kernel
theorem test_vseed : ((after (.vseed 0 false 9) st0).cx.r.v.get? 9).isSome = true ∧ (after (.vseed 0 false 9) st0).cx.c.srseed ≠ 1 := by decide +kernel
/-- Five `mx4` selectors that name more than one pattern: the block is corrupt. -/
theorem test_vqenc : ((after (.vqenc false 15 9 (src 3)) st0).cx.r.v.get? 9).isSome = true := by decide +kernel

/-! ## Scalar instructions: hypotheses met, and results worked out by hand -/

theorem test_hyp_scalar : vals (st0.operands [src 1, src 2]) = some [5, 7] ∧ vals (st0.operands [src 1]) = some [5] ∧
    vals (st0.operands [src 1, src 2, src 0]) = some [5, 7, 0] ∧ st0.roomS 9 = true ∧ st0.roomS 0 = true := by decide
theorem test_add_sub : out (.add 9 (src 2) (src 4)) st0 9 = some 0xFFFFFFFFFFFFFFFF ∧ out (.sub 9 (src 1) (src 2)) st0 9 = some (-2) := by
  decide
theorem test_compare : out (.slt 9 (src 4) (src 1)) st0 9 = some 1 ∧ out (.sltu 9 (src 4) (src 1)) st0 9 = some 0 ∧
    out (.seq 9 (src 1) (src 1)) st0 9 = some 1 := by decide
theorem test_shift_immediate : out (.srai 9 (src 4) 66) st0 9 = some (-2) ∧ out (.slli 9 (src 1) 64) st0 9 = some 5 := by decide
theorem test_mul_high : out (.mulhu 9 (src 4) (src 4)) st0 9 = some 0xFFFFFFFFFFFFFFF0 ∧ out (.mulh 9 (src 4) (src 4)) st0 9 = some 0 := by
  decide
theorem test_div : out (.div 9 (src 4) (src 1)) st0 9 = some (-1) ∧ out (.rem 9 (src 4) (src 1)) st0 9 = some (-3) ∧
    out (.div 9 (src 1) (src 0)) st0 9 = some (-1) ∧ out (.remu 9 (src 1) (src 0)) st0 9 = some 5 := by decide
theorem test_div_overflow : out (.div 9 (src 1) (src 4)) (reg (reg st0 1 (BitVec.ofNat 64 (2 ^ 63))) 4 (-1)) 9 =
    some (BitVec.ofNat 64 (2 ^ 63)) := by decide
theorem test_bits : out (.clz 9 (src 0)) st0 9 = some 64 ∧ out (.ctz 9 (src 4)) st0 9 = some 3 ∧ out (.popc 9 (src 2)) st0 9 = some 3 ∧
    out (.bext 9 (src 4) 60 8) st0 9 = some 0xF ∧ out (.bins 3 (src 1) 4 3) st0 3 = some 0x150 := by decide
theorem test_hyp_bins : vals (st0.operands [src 1, ⟨3, false⟩]) = some [5, 0x100] := by decide
theorem test_select : out (.sel 9 (src 1) (src 2) (src 0)) st0 9 = some 7 ∧ out (.fshr 9 (src 1) (src 4) (src 2)) st0 9 =
    some 0x0BFFFFFFFFFFFFFF ∧ out (.min 9 (src 4) (src 1)) st0 9 = some (-8) ∧
    out (.minu 9 (src 4) (src 1)) st0 9 = some 5 := by decide
theorem test_extend : out (.sext 8 9 (src 4)) st0 9 = some (-8) ∧ out (.zext 8 9 (src 4)) st0 9 = some 0xF8 ∧
    out (.lea 3 9 (src 1) (src 2)) st0 9 = some 61 ∧ out (.andi 9 (src 4) (-1)) st0 9 = some (-8) := by decide
theorem test_last_use : out (.add 1 ⟨1, true⟩ ⟨2, true⟩) st0 1 = some 12 ∧ out (.add 1 ⟨1, true⟩ ⟨2, true⟩) st0 2 = none ∧
    out (.add 0 (src 1) (src 2)) st0 0 = none := by decide
theorem test_hyp_last_use : vals (st0.operands [⟨1, true⟩, ⟨2, true⟩]) = some [5, 7] := by decide

/-- Contexts at a limit, with an unmapped source under UDREAD, with a pending register, and with a killed entry. -/
def full0 : State := withCx { ctx0 with decl := { ctx0.decl with sregs := 5 } }
def ud0 : State := withCx { ctx0 with c := { ctx0.c with mode := 1 } }
def pend0 : State := withCx { ctx0 with r := { ctx0.r with sPend := [(2, [4])] } }
def kill0 : State := withCx { ctx0 with r := { ctx0.r with sPoison := [(2, 9)] }, st := { ctx0.st with killed := [9] } }
theorem test_hyp_scalar_stops : vals (full0.operands [src 1]) = some [5] ∧ full0.roomS 9 = false ∧ pend0.cx.r.sPend.has 2 = true ∧
    pend0.cx.r.sPoison.get? 2 = none ∧ ud0.cx.r.s.get? 9 = none ∧ ud0.cx.c.mode.getLsbD 0 = true ∧
    kill0.cx.r.sPoison.get? 2 = some 9 := by decide
theorem test_scalar_stops : cause (.mov 9 (src 1)) full0 = some 1 ∧ (after (.mov 9 (src 2)) pend0).cx.wait = some (.reg 0 2) ∧
    cause (.mov 9 (src 8)) ud0 = some 3 ∧ cause (.mov 9 (src 2)) kill0 = some 0x13 := by decide

/-! ## Control -/

theorem test_hyp_branches : st0.plain = true ∧ st0.roomS 63 = true ∧ ((reg st0 63 0x44).readsS 63).map (·.1) = some 0x44 := by decide
theorem test_branch : (after (.br (-3)) st0).cx.pc = 0xFFFFFFFFFA ∧ (after (.brz (src 1) 4) st0).cx.pc = 0x10000000002 ∧
    (after (.brnz (src 1) 4) st0).cx.pc = 0x10000000008 := by decide
theorem test_call : (after (.call 8) st0).cx.pc = 0x10000000010 ∧ out (.call 8) st0 63 = some 0x10000000002 ∧
    (after .ret (reg st0 63 0x45)).cx.pc = 0x44 := by decide
theorem test_branch_register : (after (.brlt 1 (src 4) (src 1)) (after (.pbrr 1 (src 3)) st0)).cx.pc = 0x100 ∧
    (after (.brltu 1 (src 4) (src 1)) st0).cx.pc = 0x10000000002 ∧ out (.mfb 9 1) (after (.pbr 1 4) st0) 9 = some 0x10000000008 := by
  decide
theorem test_hyp_control_registers : st0.notDrain = true ∧ st0.seedFree = true ∧ st0.cx.sup = false ∧ sup0.cx.sup = true ∧
    sup0.notDrain = true ∧ (∀ e ∈ sup0.bads, e.2.part = sup0.cx.id.part → e.2.posted = none) ∧ st0.cx.cnt = ⟨0, 0, 0, 0, 0⟩ := by decide
theorem test_hyp_mtc_values : (7 : Word) < 16 ∧ (7 : Word).toNat / 4 ≠ 3 ∧ (5 : Word) &&& ~~~0x3F3FFF#64 = 0 ∧
    (0x200 : Word) &&& ~~~0x1FFFFFFFFFFFFFE#64 = 0 ∧ (6 : Word) &&& ~~~0x1FFFFFFFFFFF01F#64 = 0 ∧ (16 : Word) &&& ~~~0x1FFFFFFFFFFF01F#64 = 0 ∧
    (4 : Word) &&& BitVec.ofNat 64 (4 ^ st0.cx.decl.banks.length - 1) ≠ st0.cx.c.brole := by decide
theorem test_mfc : out (.mfc 9 17) st0 9 = some 64 ∧ out (.mfc 9 1) st0 9 = some 0x200 ∧ cause (.mfc 9 8) st0 = some 4 ∧
    cause (.mfc 9 18) st0 = some 1 ∧ out (.mfc 9 8) sup0 9 = some 0x200 := by decide
theorem test_mtc : (after (.mtc 3 (src 2)) st0).cx.c.mode = 7 ∧ (after (.mtc 12 (src 5)) st0).cx.c.srseed = 1 ∧
    (after (.mtc 8 (src 3)) sup0).cx.c.tvec = 0x100 ∧ cause (.mtc 3 (src 3)) st0 = some 1 := by decide
theorem test_hyp_mtc_refused (x : Word) : (reg sup0 3 x).readsS 3 = some (x, reg sup0 3 x) ∧ (reg sup0 3 x).notDrain = true ∧
    (17 : Word) &&& ~~~0x1FFFFFFFFFFF01F#64 = 0 := ⟨rfl, rfl, by decide⟩
/-- A faulted access of the partition stands posted. -/
def bad0 : Bad := { cid := 0, part := 0, ctxid := 0, pc := 0, addr := 0, opk := 0, cause := 1, dkind := 1, dreg := 9, width := 14, lmask := 0, data := [],
                    aux := 0, counted := true, access := none, exch := false, flags := 0, atom := none, posted := some 0 }
theorem test_hyp_rrbase_held : ∃ e ∈ ({ reg sup0 3 6 with bads := [(0, bad0)] } : State).bads, e.2.part = sup0.cx.id.part ∧ e.2.posted.isSome = true := by
  decide

/-- A control-store slot with one operation; one that is empty. -/
def micro0 : State := st0.modCore 0x200 fun k => { k with store := [(1, ⟨true, [[1, 0, 0x0800, 0, 0, 0, 0]], none, []⟩)] }
def inMicro : State := { micro0 with cx := { ctx0 with micro := some ⟨1, 0, 0, 0, 0, 0, 0x10000000000, 0x10000000002⟩ } }
theorem test_hyp_micro : micro0.plain = true ∧ ((micro0.core 0x200).slot 1).valid = true ∧ ((micro0.core 0x200).slot 1).waiters = [] ∧
    ((micro0.core 0x200).slot 2).valid = false := by decide
theorem test_micro : (after (.mcall 1 2 3 4 5) micro0).cx.micro = some ⟨1, 0, 2, 3, 4, 5, 0x10000000000, 0x10000000002⟩ ∧
    cause (.mcall 2 0 0 0 0) micro0 = some 1 ∧ cause (.br 0) inMicro = some 1 ∧ (after (.add 9 (src 1) (src 2)) inMicro).cx.pc = 0x10000000002 := by
  decide
/-- An image in bank 0: one operation of one halfword; the base address is 0x100. -/
def imageMem : Memory :=
  (Memory.putBytes [] (bankKey 0x200 0 0x100) (bytesOfNat 8 1)).putBytes (bankKey 0x200 0 0x108) ([1, 0, 0, 0, 0, 8] ++ List.replicate 8 0)
def image0 : State := { reg sup0 3 0x100 with mem := imageMem }
theorem test_hyp_image : image0.cx.sup = true ∧ image0.plain = true ∧ (∀ c ∈ image0.ctxs, c.id.core = image0.cx.id.core → c.micro = none ∧ c.kept = none) ∧
    (image0.readsS 3).map (·.1) = some 0x100 ∧ image0.ordered = true ∧
    ((loadImage 0x100 8 image0).toOption.map (·.1)) = some 1 ∧
    ((loadRecs 0x108 1 image0).toOption.map (·.1)) = some [[1, 0, 0x0800, 0, 0, 0, 0]] := by decide
theorem test_mcw : ((after (.mcw 1 (src 3)) image0).core 0x200).slot 1 = ⟨true, [[1, 0, 0x0800, 0, 0, 0, 0]], none, []⟩ ∧
    (((after (.mcinv 1) { micro0 with cx := { ctx0 with sup := true } }).core 0x200).slot 1).valid = false := by decide
theorem test_trap_entry : cause (.ebrk 5) st0 = some 0x14 ∧ (after (.trap 5) st0).cx.c.tpc = 0x10000000002 ∧
    (after (.trap 5) st0).cx.c.tinfo = 5 ∧ cause (.reservedOpcode 0 0) st0 = some 1 := by decide
theorem test_double_fault : ((after (.ebrk 5) sup0).part 0).pstate = 4 ∧ ((after (.ebrk 5) sup0).part 0).stopReq = some (3, 0x14, 0x200) := by decide
/-- A handler entered from operation 2 of slot 1. -/
def ret0 : State := withCx { sup0.cx with kept := some ⟨1, 0, 0, 0, 0, 0, 0, 2⟩, c := { sup0.cx.c with cause := 0x220110 } }
theorem test_hyp_tret : sup0.plain = true ∧ sup0.cx.c.cause.getLsbD 21 = false ∧ ret0.cx.c.cause.getLsbD 21 = true ∧ ret0.cx.kept.isSome = true := by decide
theorem test_tret : (after .tret sup0).cx.pc = 0x300 ∧ (after .tret sup0).cx.sup = false ∧
    (after .tret ret0).cx.micro = some ⟨1, 2, 0, 0, 0, 0, 0, 2⟩ := by decide
theorem test_hyp_absent : onDeck mem0.cx.id.core = false ∧ mem0.notDrain = true := by decide
theorem test_privilege : cause .tret st0 = some 4 ∧ cause .haltKill st0 = some 4 ∧ cause (.rpwDone 9 (src 1)) st0 = some 4 ∧
    cause (.mxzero 0) mem0 = some 5 ∧ cause (.hrd 1 0) mem0 = some 5 := by decide

/-! ## Memory -/

/-- Where an address leads. -/
def located (k : Acc) (va : Nat) (s : State) : Option (Option Nat) := (locate k va s).toOption.map (·.1.toOption)
def locatedMany (k : Acc) (vas : List Nat) (s : State) : Option (List (Option Nat)) :=
  (locateMany s.cx k vas s).toOption.map fun p => p.1.map fun e => e.2.toOption
/-- A byte of bank 0 of core 0x200; bytes of memory after an instruction. -/
def bk (off : Nat) : Nat := bankKey 0x200 0 off
def memory (i : Instr) (s : State) (key n : Nat) : Nat := natOfBytes ((after i s).mem.bytes key n)
/-- Eight bytes stand at 0x100 of bank 0. -/
def ld0 : State := { st0 with mem := Memory.putBytes [] (bk 0x100) (bytesOfNat 8 0xFEDCBA9876543280) }
/-- Global memory from 2^40 on is mapped to a writable page; to a constant page. `s3` points there. -/
def dram0 : State := { reg st0 3 0x10000000100 with parts := [(0, { Part.fresh with root := 0x10000 })], mem := placedMem [] [0x1234, 0x5678] }
def const0 : State :=
  { reg dram0 3 0x10000000000 with mem := dram0.mem.putBytes 0x30000 (bytesOfNat 8 (2 ^ 57 + 2 ^ 54 + 0x2000000 + 1)) }
/-- Two banks are a cache. -/
def cache0 : State := dram0.onCtl fun c => { c with brole := 0x50 }

theorem test_hyp_addresses : located .load 0x100 st0 = some (some (bk 0x100)) ∧ located .load 0x10000 st0 = some none ∧
    located .load (2 ^ 57) st0 = some none ∧ located .load 0x8000 cache0 = some none ∧ st0.ecc = [] := by decide
theorem test_translation : located .load 0x10000000100 dram0 = some (some 0x2000100) ∧ located .load 0x10002000000 dram0 = some none ∧
    located .store 0x10000000000 const0 = some none ∧ located .fetch 0x10000000000 const0 = some none := by decide
theorem test_hyp_loads : vals (ld0.operands [src 3]) = some [0x100] ∧ ld0.ordered = true ∧ ld0.room 0 = true ∧ ld0.room 1 = true ∧
    ld0.mem.wf = true ∧ ((readPlace (bk 0x100) 8 ld0).toOption.map (·.1)) = some 0xFEDCBA9876543280 ∧
    located .const 0x10000000000 const0 = some (some 0x2000000) ∧ ((readConst 0x2000000 2 const0).toOption.map (·.1)) = some 0x1234 := by decide
theorem test_loads : out (.ld 9 (src 3) 0) ld0 9 = some 0xFEDCBA9876543280 ∧ out (.ldx .i8 9 (src 3) 0) ld0 9 = some (-128) ∧
    out (.ldx .n16 9 (src 3) 2) ld0 9 = some 0x7654 ∧ (after (.ld 9 (src 3) 0) ld0).cx.cnt.load = 1 := by decide
theorem test_ldc : out (.ldc .n16 9 (src 3) 2) const0 9 = some 0x5678 ∧ out (.ld 9 (src 3) (-256)) dram0 9 = some 0x56781234 := by decide
theorem test_hyp_stores : vals (st0.operands [src 3, src 4]) = some [0x100, 0xFFFFFFFFFFFFFFF8] ∧ located .store 0x108 st0 = some (some (bk 0x108)) := by decide
theorem test_stores : memory (.st (src 4) (src 3) 8) ld0 (bk 0x100) 17 = 0xFFFFFFFFFFFFFFF8FEDCBA9876543280 ∧
    memory (.stx .n16 (src 4) (src 3) 0) ld0 (bk 0x100) 8 = 0xFEDCBA987654FFF8 ∧ memory (.st (src 1) (src 3) 0) dram0 0x2000100 8 = 5 := by decide
theorem test_align : cause (.ld 9 (src 3) 4) st0 = some 0x11 ∧ cause (.st (src 1) (src 3) 2) st0 = some 0x11 ∧
    cause (.vld q32 9 (src 1) 0) st0 = some 0x11 ∧ cause (.amo .add true .core 9 (src 1) (src 2)) st0 = some 0x11 ∧
    cause (.ldx .n16 9 (src 1) 0) st0 = some 0x11 := by decide
def hole0 : State := reg st0 3 0x10000000000
theorem test_hyp_faulted : vals (hole0.operands [src 3]) = some [0x10000000000] ∧ located .load 0x10000000000 hole0 = some none ∧
    (reg st0 3 (BitVec.ofNat 64 (2 ^ 60))).ordered = true ∧ (st0.part 0).rrbase = 0 := by decide
theorem test_faulted : ((after (.ld 9 (src 3) 0) hole0).bads.get? 0).map (fun e => (e.cause, e.addr, e.dreg)) = some (1, 0x10000000000, 9) ∧
    (after (.ld 9 (src 3) 0) hole0).cx.r.sPend.get? 9 = some [0] ∧ (after (.ld 9 (src 3) 0) hole0).cx.cnt.load = 1 ∧
    cause (.ld 9 (src 3) 0) (reg st0 3 (BitVec.ofNat 64 (2 ^ 60))) = some 0xF := by decide

theorem test_hyp_vector_memory : (st0.readsS 3).isSome = true ∧ (st0.readsK 2).isSome = true ∧ (st0.readsOld 2 false 1).isSome = true ∧
    st0.cx.ways = 0 ∧ st0.cx.constWays = 0 ∧ locatedMany .load [0x100, 0x101, 0x102, 0x103] st0 = some [some (bk 0x100), some (bk 0x101), some (bk 0x102),
      some (bk 0x103)] ∧ ((List.range 128).filter fun j => (0xF : KReg).getLsbD (32 * (j * 8 / 32) / 8)) = [0, 1, 2, 3] := by decide +kernel
theorem test_hyp_memory_form : ld0.mem.wf = true ∧ cache0.mem.wf = true ∧ dram0.mem.wf = true ∧ st0.mem.wf = true := by decide
theorem test_vector_loads : vout (.vld q32 9 (src 3) 0) ld0 9 32 1 = some 0xFEDCBA98 ∧ vout (.vld ⟨.i32, 2, false⟩ 1 (src 3) 0) ld0 1 32 1 = some 0 ∧
    vout (.vldu q32 9 (src 3) 4) ld0 9 32 0 = some 0xFEDCBA98 ∧ vout (.vldc q32 9 (src 3) 0) const0 9 32 0 = some 0x56781234 := by decide +kernel
theorem test_vector_stores : memory (.vst .i32 2 (src 2) (src 3) 0) ld0 (bk 0x100) 8 = 0xFEDCBA9800000003 ∧
    memory (.vstm .i32 0 (src 2) (src 3) 1) ld0 (bk 0x100) 8 = 0x0000010000000380 := by decide +kernel
theorem test_hyp_vqst : (quantBlock false 15 ((List.range 32).map fun l => decF32 (elem 32 0 l))).1.length ≤ 128 := by decide +kernel
theorem test_hyp_gather : ((List.range 32).filter fun l => (0xF : KReg).getLsbD (4 * l)) = [0] ∧
    locatedMany .load [0x10C] st0 = some [some (bk 0x10C)] := by decide +kernel
theorem test_gather_scatter : vout (.vgath ⟨.i8, 2, false⟩ 1 (src 3) (src 1)) (vreg ld0 1 0) 1 32 0 = some 0xFFFFFF80 ∧
    memory (.vscat .n16 2 (src 3) (src 3) (src 2)) ld0 (bk 0x100) 8 = 0xFEDCBA9876540003 := by decide +kernel

theorem test_hyp_atomics : vals (ld0.operands [src 3, src 2]) = some [0x100, 7] ∧ vals (ld0.operands [src 3, src 1, src 2]) = some [0x100, 5, 7] ∧
    located .atomic 0x100 ld0 = some (some (bk 0x100)) ∧ isDram (bk 0x100) = false ∧ ld0.notDrain = true ∧
    located .atomic 0x10000000100 cache0 = some (some 0x2000100) ∧ cache0.cx.ways = 2 := by decide
theorem test_amo : memory (.amo .add true .core 9 (src 3) (src 2)) ld0 (bk 0x100) 8 = 0xFEDCBA9876543287 ∧
    out (.amo .add true .core 9 (src 3) (src 2)) ld0 9 = some 0x76543280 ∧ memory (.amo .min false .core 9 (src 3) (src 2)) ld0 (bk 0x100) 8 = 0xFEDCBA9876543280 ∧
    memory (.amo .add false .pkg 9 (src 3) (src 2)) cache0 0x2000100 8 = 7 := by decide
theorem test_cas : memory (.cas true .core 9 (src 3) (src 5) (src 2)) st0 (bk 0x100) 4 = 7 ∧ memory (.cas true .core 9 (src 3) (src 1) (src 2)) st0 (bk 0x100) 4 = 0 := by
  decide
theorem test_aggadd : memory (.aggadd 0 false .core 9 (src 3) (src 2)) (withCx ctx0) (bk 0x100) 4 = 4 ∧
    vout (.aggadd 0 false .core 9 (src 3) (src 2)) (withCx ctx0) 9 32 1 = some 3 := by decide +kernel
/-- A word of the context's cache that a host write left old. -/
def old0 : State :=
  (after (.pref true (src 3) 0) cache0).onCx fun c => { c with l1 := { c.l1 with data := c.l1.data.map fun l => { l with old := [(0x400020, 9)] } } }
theorem test_hyp_old : old0.cx.oldWord 0x2000100 8 = some 9 ∧ old0.storeSpan 0x2000104 4 = (0x2000100, 8) ∧ old0.mem.wf = true ∧
    located .store 0x10000000104 old0 = some (some 0x2000104) ∧ ((readPlace 0x2000100 8 old0).toOption.map (·.1)) = some 9 ∧
    located .atomic 0x10000000100 old0 = some (some 0x2000100) ∧ (9 : Nat) < 2 ^ (8 * 8) := by decide
theorem test_hyp_aggadd : (ld0.readsS 3).isSome = true ∧ (ld0.readsV 2).isSome = true ∧ (ld0.readsK 1).isSome = true ∧
    (ld0.readsOld 1 false 3).isSome = true ∧ (∃ l, l < 32 ∧ (1 : KReg).getLsbD (4 * l) = true) ∧
    ((readPlace (bk 0x100) 4 ld0).toOption.map (·.1)) = some 0x76543280 ∧ ld0.roomV 3 = true ∧ ld0.room 0 = true ∧ ld0.ordered = true := by decide +kernel
theorem test_hyp_on_their_way : located .atomic 0x10000000100 dram0 = some (some 0x2000100) ∧ isDram 0x2000100 = true ∧ dram0.cx.ways = 0 ∧
    vals (dram0.operands [src 3, src 2]) = some [0x10000000100, 7] := by decide
def fly0 : State := after (.amo .add false .core 9 (src 3) (src 2)) dram0
theorem test_on_their_way : fly0.cx.r.sFly.get? 9 = some 0 ∧ natOfBytes (fly0.mem.bytes 0x2000100 8) = 0 ∧
    memory (.atomicAtHome 0) fly0 0x2000100 8 = 7 ∧ out (.atomicAtHome 0) fly0 9 = some 0 := by decide
theorem test_hyp_home : (fly0.atoms.find? fun x => x.2.cid = 0).isSome = true ∧ (fly0.ctx? 0).isSome = true ∧ (fly0.part 0).pstate = 0 := by decide
/-- A load and a store are on their way. -/
def cnt0 : State := st0.onCx fun c => { c with cnt := ⟨1, 1, 0, 0, 0⟩ }
theorem test_hyp_release : st0.cx.cnt.store = 0 ∧ st0.cx.cnt.load = 0 ∧ st0.ordered = true ∧ cnt0.cx.cnt.load ≠ 0 ∧ cnt0.notDrain = true := by decide
theorem test_waits : (after (.wait 7 0 0 0 0) cnt0).cx.wait = some (.classes 7 0 0 0 0) ∧ (after (.wait 1 7 0 0 0) cnt0).cx.wait = none ∧
    (after (.fence .pkg .acq) cnt0).cx.wait = some (.classes 0 7 7 7 7) ∧ (after (.fence .pkg .acq) st0).cx.pc = 0x10000000002 := by decide
theorem test_hyp_lines : isGlobal 0x10000000100 = true ∧ isGlobal 0x100 = false ∧ located .load 0x10000000100 cache0 = some (some 0x2000100) := by decide
theorem test_lines : ((after (.pref true (src 3) 0) cache0).cx.l1.data.map (·.line)) = [0x40002] ∧
    (after (.clinv (src 3)) (after (.pref true (src 3) 0) cache0)).cx.l1.data = [] ∧ (after (.clwb (src 3)) (after (.pref true (src 3) 0) cache0)).cx.cnt.store = 1 := by
  decide
/-- A posted load of context 1 in ring slot 0, in a partition with a ring of 64 entries; the handler is in hand. -/
def rr0 : State :=
  { sup0 with
    cx := { sup0.cx with id := { sup0.cx.id with serial := 2 }, r := { sup0.cx.r with s := [(1, 0), (2, 7)] } }
    others := [(1, { ctx0 with id := { ctx0.id with serial := 1 }, r := { ctx0.r with s := [(1, 5), (9, 0)], sPend := [(9, [0])] } })]
    parts := [(0, { Part.fresh with rrbase := 0x10000000006, posts := 1 })]
    bads := [(0, { bad0 with cid := 1 })] }
/-- The same with another kind of entry. -/
def rrOf (f : Bad → Bad) : State := { rr0 with bads := rr0.bads.map fun e => (e.1, f e.2) }
def fetch0 : State := rrOf fun b => { b with dkind := 0, opk := 3 }
def held0 : State := rrOf fun b => { b with dkind := 0, opk := 1, addr := 0x100, data := [7], lmask := 1 }
theorem test_hyp_rpw : vals (rr0.operands [src 1, src 2]) = some [0, 7] ∧ rr0.postedAt 0 0 = some (0, { bad0 with cid := 1 }) ∧
    (rr0.part 0).rrbase.toNat % 32 = 6 ∧ (rr0.ctx? 1).isSome = true ∧ rr0.cx.cid = 2 ∧ (fetch0.postedAt 0 0).isSome = true ∧
    ((held0.gotS 9 0).storeHeld { ctx0 with id := { ctx0.id with serial := 1 } } { bad0 with cid := 1, dkind := 0, opk := 1, addr := 0x100, data := [7], lmask := 1 }).toOption.isSome = true := by
  decide
theorem test_hyp_entry : rr0.entryNow 0 0 = some (0, { bad0 with cid := 1 }) ∧ (fetch0.entryNow 0 0).map (fun e => (e.2.dkind, e.2.opk)) = some (0, 3) ∧
    (held0.entryNow 0 0).map (fun e => (e.2.dkind, e.2.opk)) = some (0, 1) ∧ ((rrOf fun b => { b with dkind := 2 }).entryNow 0 0).map (·.2.dkind) = some 2 := by decide
theorem test_rpw : ((after (.rpwS 9 (src 1) (src 2)) rr0).ctx? 1).map (·.r.s.get? 9) = some (some 7) ∧ (after (.rpwKill 9 (src 1)) rr0).bads = [] ∧
    (after (.rpwDone 9 (src 1)) fetch0).bads = [] ∧ ((after (.rpwDone 9 (src 1)) fetch0).part 0).resolved = 1 := by decide
/-- A fault found late, in a partition with a ring in mapped memory. -/
def late0 : State :=
  { dram0 with
    cx := { dram0.cx with cnt := ⟨1, 0, 0, 0, 0⟩ }
    parts := [(0, { Part.fresh with root := 0x10000, rrbase := 0x10000001006 })]
    bads := [(0, { bad0 with posted := none })] }
theorem test_hyp_post : late0.bads.get? 0 = some { bad0 with posted := none } ∧ ({ bad0 with posted := none } : Bad).cls = some 0 ∧ (late0.part 0).pstate = 0 ∧
    ((late0.uncount 0 0).post 0 { bad0 with posted := none }).toOption.isSome = true := by decide
theorem test_post : ((after (.deadLetterPost 0) late0).part 0).posts = 1 ∧ (after (.deadLetterPost 0) late0).cx.cnt.load = 0 ∧
    natOfBytes ((after (.deadLetterPost 0) late0).mem.bytes (0x2001018 + 2) 2) = 0x901 := by decide
def two0 : State := { sup0 with others := [(1, { ctx0 with id := { ctx0.id with serial := 1 }, cnt := ⟨1, 1, 0, 0, 0⟩ })] }
theorem test_complete : ((after (.accessComplete 1 false) two0).ctx? 1).map (·.cnt.load) = some 0 ∧
    ((after (.accessComplete 1 true) two0).ctx? 1).map (·.cnt.store) = some 0 := by decide
/-! ## Rings, copies, chutes, messages -/

/-- A ring of four slots of 16 bytes; with two slots reserved; with the first of them published. -/
def ringR : Ring := { Ring.undef with defd := true, base := 0x80, entryb := 16, log2n := 2, banks := [0, 1, 2, 3] }
def ring0 : State := (reg (reg st0 1 1) 2 2).modRing 0x200 3 fun _ => ringR
def ring2 : State := ring0.modRing 0x200 3 fun r => { r with rsv := 2 }
def ring1 : State := ring2.modRing 0x200 3 fun r => { r with prod := 1 }
theorem test_hyp_rgdef : vals ((reg (reg st0 1 0x80) 2 0x102000).operands [src 1, src 2]) = some [0x80, 0x102000] ∧
    st0.cx.ownRange 0x80 64 = true ∧ (st0.ring 0x200 3).engine = 0 ∧ (st0.ring 0x200 3).defd = false := by decide
theorem test_rgdef : (after (.rgdef 3 (src 1) (src 2)) (reg (reg st0 1 0x80) 2 0x102000)).ring 0x200 3 = ringR ∧
    cause (.rgdef 3 (src 1) (src 2)) st0 = some 0x15 ∧ cause (.rgrsv 9 3 (src 1)) st0 = some 0x15 := by decide
theorem test_hyp_rings : (ring0.ring 0x200 3).defd = true ∧ ringR.cons < 2 ^ 32 ∧ vals (ring2.operands [src 5, src 1]) = some [0, 1] ∧
    ({ ringR with rsv := 2 } : Ring).reserved 0 = true ∧ ({ ringR with rsv := 2 } : Ring).published 0 = false ∧ ringR.marks = [] := by decide
theorem test_rings : out (.rgrsv 9 3 (src 2)) ring0 9 = some 0 ∧ ((after (.rgrsv 9 3 (src 2)) ring0).ring 0x200 3).rsv = 2 ∧
    out (.rgrsv 9 3 (src 2)) (ring2.modRing 0x200 3 fun r => { r with rsv := 3 }) 9 = some (-1) ∧ cause (.rgrsv 9 3 (src 5)) ring0 = some 0x15 := by decide
theorem test_publish : ((after (.rgpub 3 (src 5) (src 1)) ring2).ring 0x200 3).prod = 1 ∧ ((after (.rgpub 3 (src 1) (src 1)) ring2).ring 0x200 3).prod = 0 ∧
    ((after (.rgpub 3 (src 5) (src 1)) (after (.rgpub 3 (src 1) (src 1)) ring2)).ring 0x200 3).prod = 2 := by decide
theorem test_consume : out (.rgcon 9 3 (src 1)) ring1 9 = some 0 ∧ out (.rgcon 9 3 (src 2)) ring1 9 = some (-1) ∧
    out (.rgst .addr 9 3 (src 1)) ring1 9 = some 0x90 ∧ out (.rgst .desc 9 3 (src 0)) ring1 9 = some 0x8000102001 := by decide

/-- `s1` to `s3`: destination 0x100, source 0x40, length 8, in the context's banks; the source bytes. -/
def cp0 : State := { reg (reg (reg st0 1 0x100) 2 0x40) 3 8 with mem := Memory.putBytes [] (bk 0x40) (bytesOfNat 8 0x0102030405060708) }
/-- The same with remote and global addresses on either side, on a memory core. -/
def mcore0 : State := { dram0 with cx := { cp0.cx with id := { ctx0.id with core := 0 } } }
def xput0 : State := reg mcore0 1 0x10000000000
def xget0 : State := reg mcore0 2 0x10000000000
def base0 (kind : Nat) (d s n : Word) : CopyOp :=
  { cid := 0, kind := kind, dst := d, src := s, len := n, ctrl := 0, rows := 1, rowb := n.toNat, sstr := 0, dstr := 0, ty := .f32, rnd := .rne,
    sat := false, pc := 0x10000000000, sup := false, landed := [], wins := [], lost := [], gen := none, ack := none }
theorem test_hyp_copies : vals (cp0.operands [⟨1, false⟩, src 2, src 3]) = some [0x100, 0x40, 8] ∧ vals (cp0.operands [⟨1, false⟩, src 2, src 3, src 0]) = some [0x100, 0x40, 8, 0] ∧
    cwBad 0 false = false ∧ cp0.engineMay (base0 0 0x100 0x40 8) = true ∧ cp0.engineMay (base0 2 0x100 0x40 8) = true ∧
    xput0.engineMay (base0 3 0x10000000000 0x40 8) = true ∧ xget0.engineMay (base0 4 0x100 0x10000000000 8) = true ∧
    cp0.engineMay (base0 5 0x100 0x40 8) = true ∧ cp0.engineMay (base0 6 0x100 0x40 8) = true := by decide
/-- A descriptor of two rows of 8 bytes at 0x80, strides 8 and 16. -/
def cps0 : State := { reg cp0 3 0x80 with mem := cp0.mem.putBytes (bk 0x80) (bytesOfNat 8 0x800000002 ++ bytesOfNat 8 8 ++ bytesOfNat 8 16) }
theorem test_hyp_strided : natOfBytes (cps0.ownBytes cps0.cx 0x80 32) = 0x1000000000000000080000000800000002 ∧ cps0.cx.ownRange 0x80 32 = true ∧
    cps0.engineMay { base0 1 0x100 0x40 8 with rows := 2, sstr := 8, dstr := 16 } = true ∧ cwBad 0 true = false := by decide
theorem test_engine_issue : ((after (.cpy .rne false 1 (src 2) (src 3) none) cp0).core 0x200).copies = [base0 0 0x100 0x40 8] ∧
    ((after (.cpys .rne false 1 (src 2) (src 3)) cps0).core 0x200).copies = [{ base0 1 0x100 0x40 8 with rows := 2, sstr := 8, dstr := 16 }] ∧
    (after (.cpst 1 (src 3) (src 2)) cp0).cx.cnt.copy = 1 ∧ cause (.cpy .rne false 1 (src 2) (src 0) none) cp0 = some 1 := by decide
theorem test_exchange_issue : ((after (.xput 1 (src 2) (src 3)) xput0).core 0).copies.length = 1 ∧ ((after (.xget 1 (src 2) (src 3)) xget0).core 0).copies.length = 1 ∧
    ((after (.xred .f32 1 (src 2) (src 3)) cp0).core 0x200).copies.length = 1 ∧ ((after (.xfin .f32 1 (src 2) (src 3)) cp0).core 0x200).copies.length = 1 ∧
    cause (.xput 1 (src 2) (src 3)) cp0 = some 1 := by decide
/-- Another context has a copy at the head of the engine. -/
def land0 : State :=
  { cp0 with
    cx := { sup0.cx with id := { ctx0.id with serial := 2 } }
    others := [(0, { cp0.cx with cnt := ⟨0, 0, 1, 0, 0⟩ })]
    cores := [(0x200, { Core.fresh with copies := [base0 0 0x100 0x40 8] })] }
theorem test_hyp_land : (land0.core 0x200).copies = [base0 0 0x100 0x40 8] ∧ (land0.ctx? 0).isSome = true ∧ land0.cx.cid = 2 ∧ (land0.part 0).windows = [] ∧
    cp0.cx.ownBank 0x40 = .ok (bk 0x40) ∧ cp0.cx.ownBank 0x100 = .ok (bk 0x100) ∧ land0.mem.wf = true ∧ 2 ^ 56 ≤ bk 0x40 := by decide
theorem test_land : memory (.copyLand 0x200) land0 (bk 0x100) 8 = 0x0102030405060708 ∧ ((after (.copyLand 0x200) land0).core 0x200).copies = [] ∧
    ((after (.copyLand 0x200) land0).ctx? 0).map (·.cnt.copy) = some 0 := by decide

/-- An entry waits at each end of the chute of core 0x200, and a slot is owed to each side. -/
def chute0 : State := st0.modCore 0x200 fun k => { k with chute := { Chute.fresh with up := [7], down := [9], owedUp := 1, owedDown := 1 } }
def chuteM : State := { chute0 with cx := { ctx0 with id := { ctx0.id with core := 0 } } }
theorem test_hyp_chutes : (chute0.cluster 0).gate = 0 ∧ clusterOf 0x200 = 0 ∧ computeCore (clusterOf 0) 0 = 0x200 ∧ onDeck 0 = false ∧ onDeck 0x200 = true ∧
    (chute0.core 0x200).chute.up = [7] ∧ (chute0.core 0x200).chute.down = [9] ∧ chute0.roomV 9 = true := by decide +kernel
theorem test_chutes : ((after (.fpush 0 (src 1)) chute0).core 0x200).chute.down = [9, 1] ∧ ((after (.fpush 0 (src 1)) chuteM).core 0x200).chute.freeUp = 15 ∧
    vout (.fpop 9 0) chute0 9 32 0 = some 7 ∧ vout (.fpop 9 0) chuteM 9 32 0 = some 9 := by decide +kernel
theorem test_chute_counts : out (.ffree false 9 0) chute0 9 = some 16 ∧ out (.ffree true 9 0) chuteM 9 = some 1 ∧
    ((after (.chuteCredit 0x200 true) chute0).core 0x200).chute.freeUp = 17 ∧ ((after (.chuteCredit 0x200 false) chute0).core 0x200).chute.owedDown = 0 ∧
    cause (.fpush 1 (src 1)) chute0 = some 5 := by decide

/-- A receiver, context 1, beside the sender; `s1` is its receiver word. -/
def peer : Ctx := { ctx0 with id := { ctx0.id with serial := 1 } }
def msg0 : State := { reg st0 1 0x12000 with others := [(1, peer)] }
def msgIn (f : Stand → Stand) : State :=
  { msg0 with others := [(1, { peer with st := f peer.st })], msgs := [(4, ⟨0, 0, 0x200, 1, 0, 0, 0x12000, [1]⟩)] }
def box0 : State := st0.onCx fun c => { c with st := { c.st with inbox := [[5]], queue := [[6], [7]] } }
def queue0 : State := st0.onCx fun c => { c with st := { c.st with queue := [[6], [7]] } }
def fullMsg : State := { msgIn id with others := [(1, { peer with st := { peer.st with queue := List.replicate 16 [] } })] }
def expired : State := { fullMsg with cx := { fullMsg.cx with wait := some (.msgRoom 0 0x12000) } }
theorem test_hyp_messages : coreExists 0 0x200 = true ∧ msg0.roomFor 0 0x12000 = true ∧ fullMsg.roomFor 0 0x12000 = false ∧ (msgIn id).ctx? 1 = some peer ∧
    (msg0.readsS 1).isSome = true ∧ (msg0.readsV 2).isSome = true ∧ ((msgIn id).part 0).moved = [] ∧ st0.insts = [] ∧ box0.cx.st.inbox = [[5]] ∧
    (expired.ctx? 0).map (·.wait) = some (some (.msgRoom 0 0x12000)) := by decide +kernel
theorem test_hyp_send : msg0.openWay (coreStack 0x200) (coreStack 0x200) = true ∧ msg0.ordered = true ∧ msg0.cx.cnt.store = 0 ∧ msg0.notDrain = true ∧
    fullMsg.ordered = true ∧ fullMsg.openWay (coreStack 0x200) (coreStack 0x200) = true := by decide +kernel
/-- The receiver's queue is full and its partition has an overflow region; the message has no receiver. -/
def overflow : State := { fullMsg with parts := [(0, { Part.fresh with movbase := 0x10000000000, movslots := 4 })] }
def nobody : State := { msgIn id with others := [] }
theorem test_hyp_deliveries : (∀ z ∈ [msgIn id, msgIn fun t => { t with out := true }, overflow, nobody], (z.msgs.get? 4).isSome = true ∧
      (z.part 0).pstate = 0 ∧ (∀ m, z.msgs.get? 4 = some m → z.openWay (coreStack m.srcCore) (z.msgStack m) = true)) ∧
    (∀ x ∈ (msgIn id).msgs, ¬ x.1 < 4) ∧ (overflow.part 0).moved.length < (overflow.part 0).movslots ∧ (overflow.ctx? 1).map (·.st.queue.length) = some 16 ∧
    nobody.ctx? 1 = none := by decide +kernel
theorem test_deliveries : ((after (.messageDelivery 4) overflow).part 0).moved = [(1, [1])] ∧
    ((after (.messageDelivery 4) nobody).bads.get? nobody.nextBad).map (fun b => (b.opk, b.addr)) = some (5, 0x12000) := by decide +kernel
/-- A message for the context in hand lies in the overflow region; behind a queue. -/
def moved0 : State := { st0 with parts := [(0, { Part.fresh with moved := [(0, [8])] })] }
def movedQ : State := { queue0 with parts := moved0.parts }
theorem test_hyp_receive : st0.holdsKeys st0.cx = false ∧ queue0.cx.st.inbox = [] ∧ (queue0.part 0).moved = [] ∧ movedQ.cx.st.live = true ∧
    movedQ.cx.st.queue = [[6], [7]] ∧ (movedQ.part 0).moved = [(0, [8])] ∧ moved0.cx.st.queue = [] ∧ st0.roomV 9 = true := by decide
theorem test_receive : vout (.mrecv 9) movedQ 9 8 0 = some 6 ∧ (after (.mrecv 9) movedQ).cx.st.queue = [[7], [8]] ∧ vout (.mrecv 9) moved0 9 8 0 = some 8 ∧
    ((after (.mrecv 9) moved0).part 0).moved = [] := by decide +kernel
theorem test_hyp_msgwait : expired.cx.st.out = false ∧ (expired.part 0).pstate = 0 ∧ expired.cx.drain = none ∧ expired.cx.sup = false ∧
    0 ≤ (expired.core 0x200).cyc ∧ expired.roomFor 0 0x12000 = false := by decide +kernel
theorem test_msend : ((after (.msend (src 1) (src 2)) msg0).msgs.get? 0).map (fun m => (m.dst, natOfBytes (m.bytes.drop 56), natOfBytes (m.bytes.take 8))) =
      some (1, 0x2000, 0x100000003) ∧ (after (.msend (src 1) (src 2)) fullMsg).cx.wait = some (.msgRoom 1048576 0x12000) := by decide +kernel
theorem test_delivery : ((after (.messageDelivery 4) (msgIn id)).ctx? 1).map (·.st.queue) = some [[1]] ∧
    ((after (.messageDelivery 4) (msgIn fun t => { t with out := true })).ctx? 1).map (·.st.inbox) = some [[1]] ∧
    (after (.msgwaitExpiry 0) expired).cx.c.cause = 0xE := by decide
theorem test_mrecv : vout (.mrecv 9) box0 9 8 0 = some 5 ∧ vout (.mrecv 9) queue0 9 8 0 = some 6 ∧ (after (.mrecv 9) st0).cx.wait = some .msg ∧
    out (.mpoll 9) box0 9 = some 3 := by decide +kernel
/-! ## Barriers, event lines, keys, windows -/

/-- Barrier 3 of cluster 0 expects two arrivals and sums; with one made; complete but for bytes; full; one early. -/
def bar2 : Barrier := { Barrier.undef with defd := true, cnt := 2, op := 2, ph := 5, acc := 0, eacc := 0, grp := some 0 }
def barOf (b : Barrier) : State := st0.modBarrier 0 3 fun _ => b
def bar0 : State := barOf bar2
def barOne : State := barOf { bar2 with arr := 1, acc := 4 }
def barPend : State := barOf { bar2 with arr := 2, acc := 9, pend := 8 }
def barFull : State := barOf { bar2 with arr := 2, early := 2, pend := 8 }
def bars (s : State) : Barrier := s.barrier 0 3
theorem test_hyp_barriers : bar0.myCluster = 0 ∧ bars bar0 = bar2 ∧ bar0.holdsKeys bar0.cx = false ∧ bar0.cx.st.arrived = [] ∧ bar0.barWaited 0 3 = false ∧
    vals ((reg bar0 3 0x202).operands [src 3]) = some [0x202] ∧ vals (bar0.operands [src 1, src 5]) = some [5, 0] ∧ bar0.cx.cnt.store = 0 ∧
    bar2.state = 1 ∧ (bars st0).defd = false := by decide
theorem test_hyp_release_arrival : bar0.ordered = true ∧ barFull.holdsKeys barFull.cx = false ∧ (bars barFull).early = (bars barFull).cnt ∧
    (bars (barOf { bar2 with arr := 2, pend := 8 })).early < 2 ∧ bar0.roomS 9 = true := by decide
theorem test_bardef : bars (after (.bardef 3 (src 3)) (reg (barOf { bar2 with defd := false }) 3 0x202)) = bar2 ∧
    cause (.bardef 3 (src 5)) st0 = some 1 ∧ cause (.bar false 3 (src 1)) st0 = some 1 ∧ cause (.bartx 3 (src 1)) st0 = some 1 := by decide
theorem test_arrivals : out (.bararr false 9 3 (src 1)) bar0 9 = some 5 ∧ (bars (after (.bararr false 9 3 (src 1)) bar0)).acc = 5 ∧
    bars (after (.bararr false 9 3 (src 1)) barOne) = { bar2 with ph := 6, result := 9 } ∧ out (.bararr false 9 3 (src 1)) barPend 9 = some 6 ∧
    (after (.bararr false 9 3 (src 1)) barFull).cx.wait = some (.early 3) := by decide
theorem test_bar : (after (.bar false 3 (src 1)) bar0).cx.wait = some (.barrier 3 5 none) ∧ (after (.bar false 3 (src 1)) barOne).cx.wait = none ∧
    (bars (after (.bar false 3 (src 1)) (after (.bar false 3 (src 1)) bar0))).arr = 1 := by decide
theorem test_barrier_waits : out (.barw 9 3 (src 3)) (reg bar0 3 4) 9 = some 0 ∧ (after (.barw 9 3 (src 1)) bar0).cx.wait = some (.barrier 3 5 none) ∧
    out (.barwT 9 3 (src 1) (src 5)) bar0 9 = some 1 ∧ (after (.barwT 9 3 (src 1) (src 2)) bar0).cx.wait = some (.barrier 3 5 (some 7)) := by decide
theorem test_barrier_reads : (bars (after (.bartx 3 (src 1)) bar0)).pend = 5 ∧ cause (.bartx 3 (src 4)) bar0 = some 1 ∧ out (.barv 9 3) bar0 9 = some 0 ∧
    out (.barst false 9 3) barOne 9 = some 0x0005010002020002 ∧ out (.barst true 9 3) barPend 9 = some 8 := by decide
theorem test_hyp_phase : bars (barOf { bar2 with arr := 2 }) = { bar2 with arr := 2 } := by decide
theorem test_phase : (bars (after (.barrierPhaseComplete 0 3) (barOf { bar2 with arr := 2, acc := 9 }))).result = 9 ∧
    (bars (after (.barrierPhaseComplete 0 3) barPend)).ph = 5 := by decide
def waiting (w : Wait) : State := st0.onCx fun c => { c with wait := some w }
theorem test_hyp_wait_ends : ((waiting (.barrier 3 5 (some 0))).ctx? 0).isSome = true ∧ ((waiting (.time 0)).part 0).pstate = 0 ∧ st0.time = 0 := by decide
theorem test_wait_ends : (after (.barrierWaitTimeout 0) (waiting (.barrier 3 5 (some 0)))).cx.wait = none ∧ (after (.timedWaitWake 0) (waiting (.time 0))).cx.wait = none ∧
    (after (.timedWaitWake 0) (waiting (.time 1))).cx.wait = some (.time 1) ∧ (after (.contextWaitEnd 0) (waiting .group)).cx.wait = none := by decide

def lit0 : State := st0.modCluster 0 fun u => { u with lines := 8 }
/-- A context of core 0x201, of the same cluster, waits on line 3. -/
def ev0 : State := { st0 with others := [(1, { peer with id := { peer.id with core := 0x201 }, wait := some (.event 3) })] }
def evx (b : Bool) : Event := ⟨0, 0, 0x200, 0, b, 3, 9, 0x2000, 0, 0x200⟩
def arrive (b : Bool) (s : State) : State := { s with events := [(4, evx b)], cmap := [(0, 0x80)] }
theorem test_hyp_events : (lit0.cluster 0).lines.getLsbD 3 = true ∧ (st0.cluster 0).lines.getLsbD 3 = false ∧ st0.cx.wait = none ∧
    ((reg st0 3 0x30200).operands [src 3, src 2]).isSome = true ∧ (arrive true bar0).partOfCluster 0 = some 0 ∧ ((arrive true barFull).barrier 0 3).full = true ∧
    st0.partOfCluster 0 = none ∧ clusterOf 0x201 = 0 := by decide
theorem test_hyp_event_ways : st0.holdsKeys st0.cx = false ∧ st0.ordered = true ∧ (∀ c ∈ st0.others.vals, c.wait ≠ some (.event 3)) ∧
    (∃ c ∈ ev0.others.vals, c.st.live = true ∧ c.st.out = false ∧ clusterOf c.id.core = ev0.myCluster ∧ c.wait = some (.event 3)) ∧
    coreExists 0 (0x30200 % 4096) = true ∧ st0.openWay (coreStack 0x200) (coreStack (0x30200 % 4096)) = true ∧
    (∀ z ∈ [arrive false st0, arrive true bar0, arrive true barFull, arrive true st0], (z.events.get? 4).isSome = true ∧ (z.part 0).pstate = 0 ∧
      z.openWay (coreStack 0x200) (0 / 96) = true ∧ z.partOfCluster 0 = some 0 ∧ (z.cluster 0).gate ≠ 2) := by decide +kernel
/-- Contexts that wait for each kind of thing, which has come. -/
def linkWait : State := waiting (.link 3 none)
theorem test_hyp_wait_kinds : (waiting (.barrier 3 5 (some 0))).cx.st.out = false ∧ ((waiting (.barrier 3 5 (some 0))).part 0).pstate = 0 ∧
    (waiting (.msgRoom 9 0x12000)).roomFor 0 0x12000 = true ∧ ((waiting (.early 3)).barrier 0 3).full = false ∧
    (linkWait.crosses 3 = true ∨ linkWait.carries 3 = false) ∧ (waiting (.time 1)).time < 1 := by decide +kernel
theorem test_evwait : ((after (.evwait 3) lit0).cluster 0).lines = 0 ∧ (after (.evwait 3) st0).cx.wait = some (.event 3) ∧
    ((after (.evsig 3) st0).cluster 0).lines = 8 ∧ ((after (.evsig 3) ev0).ctx? 1).map (·.wait) = some none ∧ ((after (.evsig 3) ev0).cluster 0).lines = 0 := by decide
theorem test_evsig_rmt : ((after (.evsigRmt (src 3) (src 2)) (reg st0 3 0x30200)).events.get? 0).map (fun e => (e.cl, e.num, e.payload, e.barrier)) = some (0, 3, 7, false) ∧
    cause (.evsigRmt (src 3) (src 2)) (reg st0 3 0x1000) = some 1 ∧ out (.tmwait 9 (src 5)) st0 9 = some 0 ∧
    (after (.tmwait 9 (src 1)) st0).cx.wait = some (.time 5) := by decide
theorem test_arrival : ((after (.remoteEventArrival 4) (arrive false st0)).cluster 0).lines = 8 ∧ ((after (.remoteEventArrival 4) (arrive true bar0)).barrier 0 3).arr = 1 ∧
    (after (.remoteEventArrival 4) (arrive true barFull)).events.length = 1 ∧
    ((after (.remoteEventArrival 4) (arrive true st0)).bads.get? 0).map (fun e => (e.opk, e.cause)) = some (5, 2) := by decide

/-- An instance of a node with two keys, 3 and 3, held by the context in hand. -/
def node0 : Node :=
  { entry := 0x10000000000, nx := 1, ny := 1, nz := 1, gang := 1, deadline := 0, budget := 0xFFFFFFFF, sregs := 8, vregs := 8, acc := 0, banku := 0, tracks := 0,
    retained := false, place := 0, broles := 0, loads := [], keys := [⟨3, 0, 0, false⟩, ⟨3, 0, 0, true⟩], preds := [], param := 0, t0 := 0, src := 0,
    copy := false, after := none, enqueued := false }
def kernel0 : Kernel :=
  { part := 0, queue := 0, cmd := 0, st := 2, reason := 0, t0 := 0, compl := 0, start := 0, late := false, spawnfull := false, nnodes := 1, nodes := [(0, node0)],
    micro := [], relocs := [], spawned := 0, retired := 0, killed := 0, never := 0, spann := 1, spanrank := 0, spannodes := 0, tnodes := 0 }
def inst0 : Inst :=
  { kernel := 1, node := 0, x := 0, y := 0, z := 0, st := 3, edge := false, signalled := [], ended := [], deadline := 0, cores := [0x200], cids := [0], begun := true,
    held := [0, 1], reserved := false, banks := [[0, 1, 2, 3]], tracks := [[]], loaded := true, gst := 0, phase := 0, arrivals := [], released := [], result := 0,
    mixed := 0, holdmax := 0, ptab := [] }
/-- The slot of key 3: 3 × 0x9E3779B1 is 0x1DAA66D13, of which bits 31 to 16 are 0xDAA6. -/
def slot3 : Nat := 0xDAA6
def key0 : State :=
  { withCx { ctx0 with id := { ctx0.id with inst := 1 } } with
    kernels := [(1, kernel0)], insts := [(1, inst0)], keytab := [(slot3, ⟨[], some 1, none⟩)], cmap := [(0, 0x80)] }
def keyOne : State := { key0 with insts := [(1, { inst0 with held := [0] })] }
theorem test_hyp_keys : key0.insts.get? 1 = some inst0 ∧ key0.nodeOf inst0 = some node0 ∧ key0.instPart inst0 = 0 ∧ key0.serviceCluster 0 = 0 ∧
    key0.slotOfKey inst0 1 = some slot3 ∧ 3 * 0x9E3779B1 % 2 ^ 32 / 2 ^ 16 = slot3 ∧ 0 ∈ inst0.held ∧ 2 ∉ inst0.held ∧ inst0.held ≠ [] := by decide
theorem test_hyp_key_release : key0.ordered = true ∧ key0.cx.cnt.store = 0 ∧ key0.roomS 9 = true ∧ node0.keys[0]? = some ⟨3, 0, 0, false⟩ ∧
    (∃ j ∈ inst0.held.erase 0, key0.slotOfKey inst0 j = some slot3) ∧ (∀ j ∈ ({ inst0 with held := [0] } : Inst).held.erase 0, False) := by decide
theorem test_keyq : out (.keyqOwn 9 0) key0 9 = some 0xDAA601000A ∧ out (.keyqId 9 (src 3)) (reg key0 3 3) 9 = some 0xDAA600000A := by decide
theorem test_keyrel : (after (.keyrel 0) key0).krels = [] ∧ ((after (.keyrel 0) key0).insts.get? 1).map (·.held) = some [1] ∧
    (after (.keyrel 0) keyOne).krels = [(0, (1, slot3))] ∧ (after (.keyrel 1) keyOne).cx.pc = 0x10000000002 := by decide
theorem test_keywait : cause (.evwait 3) key0 = some 0xD ∧ cause (.mrecv 9) key0 = some 0xD ∧ ((after (.mrecv 9) key0).part 0).kwtrap = 1 := by decide
theorem test_key_release : ((after (.keyReleaseArrival 0) { key0 with krels := [(0, (1, slot3))] }).keySlot slot3) = KeySlot.free := by decide

/-- A window descriptor at 0x80 on a memory core: one page at 2^40, its spare at 2^40 + 64 KiB. -/
def win0 : State :=
  { reg dram0 3 0x80 with
    cx := { (reg dram0 3 0x80).cx with id := { ctx0.id with core := 0 } }
    mem := ((dram0.mem.putBytes (bankKey 0 0 0x80) (bytesOfNat 8 0x10000000000 ++ bytesOfNat 8 0x10000010000 ++ bytesOfNat 8 1)).putBytes 0x30000
      (bytesOfNat 8 0x50001)).putBytes 0x50000 (bytesOfNat 8 (2 ^ 55 + 2 ^ 54 + 0x2000001) ++ bytesOfNat 8 (2 ^ 55 + 2 ^ 54 + 0x2010001)) }
/-- Windows without frames, a snapshot and a shadow, stand open. -/
def snapped : State := (reg win0 9 0).modPart 0 fun p => { p with windows := [(0, ⟨true, 0x10000000000, 0x10000010000, 1, [], [], []⟩)] }
def shadowed : State := (reg win0 9 0).modPart 0 fun p => { p with windows := [(0, ⟨false, 0x10000000000, 0x10000010000, 1, [], [], []⟩)] }
def opened : State := after (.shadow 9 (src 3)) win0
def pte0 : Pte := { frame := 0x2000000, units := 512, w := true, x := true, const := false, cmp := false }
theorem test_hyp_windows : (win0.readsS 3).isSome = true ∧ win0.cx.ownRange 0x80 32 = true ∧ win0.ordered = true ∧ (win0.part 0).freeWindow = some 0 ∧
    natOfBytes (win0.ownBytes win0.cx 0x80 32) = 2 ^ 128 + 0x10000010000 * 2 ^ 64 + 0x10000000000 ∧
    (newWindow false ⟨0x10000000000, 0x10000010000, 1⟩ win0).toOption.isSome = true ∧ (newWindow true ⟨0x10000000000, 0x10000010000, 1⟩ win0).toOption.isSome = true := by decide
theorem test_hyp_snapshot : ((newWindow true ⟨0x10000000000, 0x10000010000, 1⟩ win0).toOption.map fun e =>
      (decide (e.2.expanded = []), decide (e.2.poison = []), (e.1.frames ++ e.1.spares).all (fun p => !p.cmp), e.1.frames.length)) =
        some (true, true, true, 1) ∧
    ((win0.modPart 0 fun p => { p with windows := (List.range 16).map fun n => (n, ⟨false, 0, 0, 1, [], [], []⟩) }).part 0).freeWindow = none ∧
    (snapped.readsS 9).isSome = true ∧ ((snapped.part 0).windows.get? 0).map (·.snap) = some true ∧ ((shadowed.part 0).windows.get? 0).map (·.snap) = some false ∧
    shadowed.cx.cnt.copy = 0 ∧ snapped.notDrain = true := by decide
theorem test_shadow : out (.shadow 9 (src 3)) win0 9 = some 0 ∧ ((opened.part 0).windows.get? 0).map (fun w => (w.base, w.npages, w.snap)) = some (0x10000000000, 1, false) ∧
    cause (.shadow 9 (src 1)) win0 = some 1 := by decide
theorem test_publish_window : ((after (.publishDrop (src 9)) shadowed).part 0).windows = [] ∧ ((after (.publishSwap (src 9)) shadowed).part 0).windows = [] ∧
    ((after (.snapDrop (src 9)) snapped).part 0).windows = [] ∧ cause (.snapDrop (src 9)) shadowed = some 1 ∧ cause (.publishSwap (src 9)) snapped = some 1 := by decide
/-- A cached translation, a handler in hand; a walk in progress. -/
def tlb0 : State := { dram0 with cx := { sup0.cx with r := { sup0.cx.r with s := [(1, 0x10000000000)] } }, clusters := [(0, { Cluster.fresh with tlb := [(0, 0x1000000, pte0)] })] }
def walk0 : State := { dram0 with walking := [⟨0, 0, 0x1000000, some pte0, 0⟩] }
theorem test_hyp_translations : tlb0.cx.sup = true ∧ tlb0.notDrain = true ∧ tlb0.cx.cnt.store = 0 ∧ walk0.walk 0 (0x1000000 * 65536) = .ok pte0 ∧
    (walk0.cluster 0).tlb = [] := by decide
theorem test_translations : ((after (.tlbinvPage (src 1)) tlb0).cluster 0).tlb = [] ∧ ((after .tlbinvAll tlb0).cluster 0).tlb = [] ∧
    ((after (.tlbWalkComplete 0 0x1000000) walk0).cluster 0).tlb = [(0, 0x1000000, pte0)] ∧ (after (.tlbWalkComplete 0 0x1000000) walk0).walking = [] := by decide
/-! ## Heads -/

/-- Head 0 of the context is on track 2 of its core, whose port it owns; the word under the port holds 7. -/
def trk : Track := { Track.fresh with v := true, owner := some 0 }
def headCx : Ctx := { ctx0 with decl := { ctx0.decl with tracks := [2] }, heads := [(0, { Head.fresh with stride := 1 })] }
def headOf (f : Track → Track) : State :=
  { withCx headCx with cores := [(0x200, { Core.fresh with tracks := [(2, f trk)] })], mem := Memory.putBytes [] (trackKey 0x200 2 0 0) [7] }
def head0 : State := headOf id
/-- The word under the port is one behind; it has been measured; the track is suspect; another context holds the port. -/
def slip0 : State := headOf fun t => { t with off := 4095 }
def slip1 : State := headOf fun t => { t with off := 4095, slip := -1 }
def lost0 : State := headOf fun t => { t with suspect := true }
def held1 : State := headOf fun t => { t with holder := some 0, hleft := 5 }
/-- Ring 3 has four slots of 128 bytes. -/
def hring (s : State) : State := s.modRing 0x200 3 fun _ => { ringR with entryb := 128, base := 0x800 }
theorem test_hyp_heads : onDeck head0.cx.id.core = true ∧ head0.cx.decl.tracks[0]? = some 2 ∧ head0.streamOn 0x200 0 0 = none ∧ (head0.track 0x200 2).lost = false ∧
    (head0.cx.head 0).pv = false ∧ head0.room 4 = true ∧ (head0.track 0x200 2).owner = some head0.cx.cid ∧ (head0.track 0x200 2).slipAt 0 = 0 ∧
    (slip0.track 0x200 2).slipAt 0 = -1 ∧ (slip1.track 0x200 2).slip ≠ 0 ∧ ((slip1.track 0x200 2).shifted (-1)).slipAt 0 = 0 ∧ (lost0.track 0x200 2).lost = true ∧
    (0 : Nat) ∉ (head0.track 0x200 2).bad ∧ slip0.cx.c.mode.getLsbD 1 = false ∧ (held1.track 0x200 2).holder = some held1.cx.cid := by decide
/-- Another context owns the port, and holds it. -/
def taken0 : State :=
  { headOf fun t => { t with owner := some 5, holder := some 5, hleft := 3 } with others := [(5, { headCx with id := { headCx.id with serial := 5 } })] }
theorem test_hyp_port_asked : head0.cx.st.live = true ∧ taken0.portFree 0x200 2 0 = false ∧ (taken0.track 0x200 2).owner ≠ some taken0.cx.cid ∧
    (taken0.track 0x200 2).lost = false ∧ taken0.ordered = true ∧ taken0.streamOn 0x200 0 0 = none ∧ (hring head0).room 4 = true ∧
    ((hring head0).ring 0x200 3).defd = true ∧ ((hring head0).ring 0x200 3).engine = 0 ∧ head0.mem.wf = true := by decide
theorem test_port_asked : (after (.hrd 9 0) taken0).cx.wait = some (.head 0) ∧ (after (.htake 0) taken0).cx.wait = some (.head 0) := by decide +kernel
theorem test_hyp_streams : ((hring head0).ring 0x200 3).entryb = 128 ∧ ((hring head0).core 0x200).streams = [] ∧ vals ((hring head0).operands [src 1]) = some [5] := by decide
theorem test_hpos : out (.hpos 9 0) head0 9 = some 0x8000001000 ∧ ((after (.hstride 0 (src 4)) head0).cx.head 0).stride = -8 ∧
    cause (.hstride 0 (src 1)) (reg head0 1 2048) = some 1 ∧ cause (.hpos 9 1) head0 = some 1 := by decide
theorem test_seek : ((after (.hseek .shortest 0 (src 1)) head0).cx.head 0).pend = 5 ∧ ((after (.hseek .shortest 0 (src 1)) head0).cx.head 0).bwd = false ∧
    (after (.hseek .fwd 0 (src 1)) head0).cx.cnt.head = 1 ∧ cause (.hseek .bwd 0 (src 4)) head0 = some 1 ∧ ((after (.hrew 0) head0).cx.head 0).pv = true := by decide
theorem test_transfers : vout (.hrd 9 0) head0 9 8 0 = some 7 ∧ ((after (.hrd 9 0) head0).track 0x200 2).ppos = 1 ∧
    memory (.hwr 0 (src 2)) head0 (trackKey 0x200 2 0 0) 8 = 0x100000003 ∧ ((after (.hwr 0 (src 2)) head0).cx.head 0).pos = 1 ∧
    ((after (.hrd 9 0) held1).track 0x200 2).hleft = 4 := by decide +kernel
theorem test_slips : cause (.hrd 9 0) slip0 = some 8 ∧ ((after (.hrd 9 0) slip0).track 0x200 2).slip = -1 ∧ (after (.hrd 9 0) slip0).cx.c.tinfo = 15 ∧
    ((after (.hrealign 0) slip1).track 0x200 2).off = 0 ∧ cause (.hrd 9 0) lost0 = some 9 := by decide
theorem test_holds : ((after (.htake 0) head0).track 0x200 2).hleft = 64 ∧ ((after (.hgive 0) held1).track 0x200 2).holder = none ∧
    ((after (.hmark 0) (head0.onCx fun c => c.modHead 0 fun h => { h with pos := 9 })).cx.head 0).mark = 9 := by decide
theorem test_streams : ((after (.hburst 0 3 (src 1)) (hring head0)).core 0x200).streams = [⟨0, 0, false, 3, 5, 0, true⟩] ∧
    ((after (.hfill 0 3 (src 1)) (hring head0)).ring 0x200 3).engine = 2 ∧ cause (.hburst 0 3 (src 5)) (hring head0) = some 1 := by decide

/-- A seek waits for a free port; the owner's seek is on its way; a stream holds the port. -/
def seek0 : State := { headOf fun t => { t with owner := none } with cx := headCx.modHead 0 fun h => { h with pv := true, pend := 9 } }
def seek1 : State := { seek0 with cores := head0.cores }
def stream0 (fill : Bool) : State :=
  (hring { head0 with cx := { headCx with cnt := ⟨0, 0, 0, 0, 1⟩ } }).modCore 0x200 fun k => { k with streams := [⟨0, 0, fill, 3, 2, 0, true⟩] }
def fill0 : State :=
  { (stream0 true).modRing 0x200 3 fun r => { r with engine := 2, rsv := 1, prod := 1 } with mem := Memory.putBytes [] (bk 0x800) [9] }
theorem test_hyp_head_events : (seek0.ctx? 0).isSome = true ∧ seek0.cx.cid = 0 ∧ seek0.portFree 0x200 2 0 = true ∧ (seek0.track 0x200 2).owner ≠ some 0 ∧
    seek1.streamHolds 0x200 2 = none ∧ (seek1.track 0x200 2).owner = some 0 ∧ ((stream0 false).streamHolds 0x200 2).isSome = true ∧
    ((held1.modCore 0x200 fun k => { k with cyc := 1024 }).core 0x200).cyc - 0 = 16 * held1.cx.c.hold.toNat ∧ (stream0 false).mem.wf = true ∧
    cdiff (fill0.ring 0x200 3).prod (fill0.ring 0x200 3).cons = 1 := by decide +kernel
theorem test_hyp_head_moves : seek0.cx.st.out = false ∧ (seek0.part 0).pstate = 0 ∧ (seek0.track 0x200 2).lost = false ∧ seek0.streamOn 0x200 0 0 = none ∧
    (∀ z ∈ [stream0 false, fill0], z.atoms = [] ∧ (z.track 0x200 2).lost = false ∧ (z.track 0x200 2).slipAt (z.cx.head 0).pos = 0 ∧ z.mem.wf = true ∧
      (z.streamHolds 0x200 2).map (·.cid) = some 0 ∧ z.cx.decl.tracks[0]? = some 2) ∧ held1.ctx? 0 = some held1.cx := by decide +kernel
theorem test_seek_pend : ((after (.seekComplete 0 0) seek1).cx.head 0).pend = 0 := by decide +kernel
theorem test_ports : ((after (.portTake 0 0) seek0).track 0x200 2).owner = some 0 ∧ ((after (.portTake 0 0) seek0).cx.head 0).pos = 9 ∧
    ((after (.seekComplete 0 0) seek1).track 0x200 2).ppos = 9 ∧ ((after (.holdLapse 0x200 2) (held1.modCore 0x200 fun k => { k with cyc := 1024 })).track 0x200 2).holder = none ∧
    ((after (.holdLapse 0x200 2) (held1.modCore 0x200 fun k => { k with cyc := 1023 })).track 0x200 2).holder = some 0 := by decide
theorem test_stream_words : memory (.headStreamWord 0x200 2) (stream0 false) (bk 0x800) 1 = 7 ∧ ((after (.headStreamWord 0x200 2) (stream0 false)).ring 0x200 3).prod = 1 ∧
    memory (.headStreamWord 0x200 2) fill0 (trackKey 0x200 2 0 0) 1 = 9 ∧ ((after (.headStreamWord 0x200 2) fill0).ring 0x200 3).cons = 1 := by decide +kernel
theorem test_hyp_track_map : coreExists 0 0x200 = true ∧ (lost0.track 0x200 2).entry = 0xA000 ∧ (lost0.track 0x200 2).inst = none ∧ (0x8000 : Nat).testBit 13 = false := by decide
theorem test_hyp_track_write : (head0.track 0x200 2).common = false ∧ (0xA000 : Nat) / 2 ^ 14 % 4 = (lost0.track 0x200 2).entry / 2 ^ 14 % 4 ∧
    (0xA000 : Nat).testBit 13 = true ∧ ((headOf fun t => { t with ridx := true }).track 0x200 2).ridx = true ∧ (head0.track 0x200 2).inst = none := by decide
theorem test_track_map : ((after (.trackMapWrite 0 0x200 2 0x8000) lost0).track 0x200 2).ridx = true ∧ ((after (.trackMapWrite 0 0x200 2 0x8304) head0).track 0x200 2).hidx = 3 ∧
    (after (.trackMapWrite 1 0x200 2 0x8304) head0).cores = head0.cores ∧ ((after (.reindexDone 0x200 2) (headOf fun t => { t with ridx := true })).track 0x200 2).ridx = false := by
  decide
/-! ## Matrix engine -/

/-- A binding word: rings 1, 2 and 3, i8 by i8 into i32, one row and one column, a drain ring. -/
def bw0 : Nat := 1 + 2 * 2 ^ 4 + 3 * 2 ^ 8 + 2 ^ 13 + 4 * 2 ^ 14 + 4 * 2 ^ 18 + 2 * 2 ^ 22 + 3 * 2 ^ 24
/-- The same ganged, led from position 0; with an automatic drain after one firing. -/
def bwG : Nat := bw0 + 2 ^ 57
def bwD1 : Nat := bw0 + 2 ^ 31
def mring (base e : Nat) : Ring := { Ring.undef with defd := true, base := base, entryb := e, banks := [0, 1, 2, 3] }
def rings3 (eng full : Nat) : Tab Ring :=
  [(1, { mring 0x1000 1152 with engine := eng, prod := full, rsv := full }), (2, { mring 0x2000 1024 with engine := eng, prod := full, rsv := full }),
    (3, { mring 0x3000 128 with engine := eng })]
def mxCx : Ctx :=
  { ctx0 with c := { ctx0.c with brole := 2 }, r := { ctx0.r with s := [(1, BitVec.ofNat 64 bw0), (2, 0), (3, 0x80), (4, 0x4000), (5, 5)] } }
/-- A ring entry of each operand: A is 3 at (0, 0), B is 5. -/
def mxMem : Memory :=
  ((Memory.write [] (bk (0x1000 + 128 * 7)) 1).write (bk (0x1000 + 128 * 8)) 1).write (bk 0x2000) 5
def mx0 : State := { withCx mxCx with cores := [(0x200, { Core.fresh with rings := rings3 0 1, assay := 4 })], mem := mxMem }
def bnd (w st : Nat) : Binding := ⟨BitVec.ofNat 64 w, 0, 9, 0, st, [], 0, none, none⟩
/-- The context has a binding on tile 0; `f` changes its core. -/
def mxB (b : Binding) (f : Core → Core) : State :=
  { mx0 with cx := { mxCx with binds := [(0, b)], cnt := ⟨0, 0, 0, 1, 0⟩ }, cores := [(0x200, f { Core.fresh with rings := rings3 1 1 })] }
def mx1 : State := mxB (bnd bw0 0) id
def mxFaulted : State := mxB (bnd bw0 3) id
/-- A ganged binding; barrier 2 of its cluster is defined. -/
def mxG : State := (mxB (bnd bwG 0) id).modBarrier 0 2 fun _ => { Barrier.undef with defd := true, cnt := 1, op := 1, acc := 0, eacc := 0 }
theorem test_hyp_mxbind : vals (mx0.operands [src 1, src 2]) = some [BitVec.ofNat 64 bw0, 0] ∧ bwBad bw0 = false ∧ mx0.cx.hasTile 0 = true ∧ mx0.cx.hasTile 1 = false ∧
    mx0.cx.binds.get? 0 = none ∧ ringsOf bw0 0 = [(1, 1152, false), (2, 1024, false), (3, 128, true)] ∧ mx0.ringRole 0x200 (mx0.ring 0x200 1) = 2 ∧
    bwAuto bw0 = false ∧ bwGang bw0 = false ∧ corePos 0x200 = 0 := by decide +kernel
theorem test_mxbind : (after (.mxbind 0 (src 1) (src 2) none) mx0).cx.binds.get? 0 = some { bnd bw0 0 with arg := 0 } ∧
    ((after (.mxbind 0 (src 1) (src 2) none) mx0).ring 0x200 3).engine = 1 ∧ cause (.mxbind 0 (src 1) (src 2) none) mx1 = some 0xC ∧
    cause (.mxbind 1 (src 1) (src 2) none) mx0 = some 0xC := by decide +kernel
theorem test_hyp_requests : mx1.cx.binds.get? 0 = some (bnd bw0 0) ∧ mx1.room 3 = true ∧ mx1.drainWaits 0x200 0 0 = false ∧ mxFaulted.cx.binds.get? 0 = some (bnd bw0 3) ∧
    (mxG.barrier mxG.myCluster 2).defd = true ∧ bwLead bwG = 0 ∧ (0x21 : Nat).testBit 0 = true ∧ positions 1 = [0] ∧ (mxG.gangMember 0x200 0 0).isSome = true := by decide +kernel
theorem test_requests : ((after (.mx 0 3) mx1).cx.binds.get? 0).map (·.reqs) = some [⟨3, none, [], false, []⟩] ∧ cause (.mx 0 3) mxFaulted = some 0xC ∧ cause (.mx 0 3) mx0 = some 0xC ∧
    ((after (.mxg 0 (src 3)) (reg mxG 3 0x121)).cx.binds.get? 0).map (·.reqs) = some [⟨2, some (1, 2), [], false, []⟩] ∧ cause (.mx 0 3) mxG = some 0xC := by decide +kernel
theorem test_mxunbind : (after (.mxunbind 0) mx1).cx.binds = [] ∧ ((after (.mxunbind 0) mxFaulted).ring 0x200 1).engine = 0 ∧
    (after (.mxunbind 0) (mxB (bnd bw0 1) id)).cx.wait = some (.tile 0) ∧ cause (.mxunbind 0) mx0 = some 0xC := by decide +kernel
/-- A tile operation waits on the core's queue. -/
def mopOn (k : Nat) : State := mxB (bnd bw0 0) fun c => { c with mops := [⟨0, k, 0, .bf16, 0x4000, 0, 0, true, none, []⟩] }
def mops (i : Instr) : List MatOp := ((after i mx1).core 0x200).mops
theorem test_hyp_tile_operations : mx1.cx.ownRange 0x4000 10240 = true ∧ mx1.cx.ownRange 0x80 (32 * mRowBytes .i8) = true ∧ mx1.cx.ownRange 0x4000 (imageBytes .i8) = true ∧
    mx1.ordered = true ∧ vals (mx1.operands [src 4, src 3]) = some [0x4000, 0x80] := by decide +kernel
theorem test_hyp_unbind : mx1.cx.st.live = true ∧ (bnd bw0 0).gang = none ∧ (bnd bw0 0).reqs = [] ∧ mx0.gangedOn 0x200 = false ∧ mx1.tileWaits 0x200 0 0 = false ∧
    (mopOn 0).tileWaits 0x200 0 0 = true ∧ (mopOn 0).cx.hasTile 0 = true := by decide +kernel
theorem test_tile_operations : mops (.mxzero 0) = [⟨0, 0, 0, .bf16, 0, 0, 0, true, none, []⟩] ∧ mops (.mxld 0 (src 4)) = [⟨0, 1, 0, .bf16, 0x4000, 0, 0, true, none, []⟩] ∧
    mops (.mxst 0 (src 4)) = [⟨0, 2, 0, .bf16, 0, 0x4000, 0, true, none, []⟩] ∧ mops (.mxdrain true 0) = [⟨0, 5, 0, .bf16, 0, 0, 0, true, none, []⟩] := by decide +kernel
theorem test_planes : mops (.plane .i8 (src 4) (src 3)) = [⟨0, 3, 0, .i8, 0x80, 0x4000, 0, true, none, []⟩] ∧ mops (.unplane .i8 (src 3) (src 4)) = [⟨0, 4, 0, .i8, 0x4000, 0x80, 0, true, none, []⟩] ∧
    cause (.plane .i8 (src 5) (src 3)) mx1 = some 0x11 ∧ cause (.mxld 0 (src 5)) mx1 = some 0x11 := by decide +kernel
theorem test_mxstat : out (.mxstat .rd 9 0) mx1 9 = some 0x10000000000 ∧ out (.mxstat .cnt 9 0) mx0 9 = some 4 ∧
    ((after (.mxstat .clr 9 0) mxFaulted).cx.binds.get? 0).map (·.st) = some 0 ∧ cause (.drrow 9) mx1 = some 1 := by decide +kernel

/-- A run of the drain slot on row 0 of tile 0 of the context. -/
def run0 : Drain := ⟨0, 0, 0, 0, 2, 0, none, none, none⟩
def drainIn (r : Drain) : Ctx :=
  { ctx0 with id := { ctx0.id with slot := 4 }, drain := some r, decl := { ctx0.decl with sregs := 16, vregs := 8, kregs := 4 }, pc := 0x500, npc := 0x502 }
def owner0 : Ctx := { mxCx with acc := [(0, BitVec.ofNat 80 (fa80Of (.fin false 15 0)))], binds := [(0, { bnd bw0 2 with handler := 0x10000000101 })], cnt := ⟨0, 0, 0, 1, 0⟩ }
def drun : State := { mx0 with cx := drainIn run0, others := [(0, owner0)] }
theorem test_hyp_handler : drun.cx.drain = some run0 ∧ (drun.ctx? 0).isSome = true ∧ drun.roomV 9 = true ∧ (drun.readsV 2).isSome = true := by decide +kernel
theorem test_handler : vout (.drrow 9) drun 9 32 0 = some 15 ∧ ((after (.drput (src 2)) drun).cx.drain.bind (·.put)).isSome = true ∧
    (after (.drdone false) drun).cx.drain.map (·.done) = some (some true) ∧ (after (.ebrk 1) drun).cx.drain.map (·.trapped) = some (some 1) := by decide +kernel

/-- Requests wait; a firing runs; a drain runs. -/
def asked : State := mxB { bnd bw0 0 with reqs := [⟨1, none, [], false, []⟩], ready := some 1 } id
def askedG : State := mxB { bnd bwG 0 with reqs := [⟨1, some (1, 2), [], false, []⟩], ready := some 1 } id
def firing0 (again : Bool) : Firing := ⟨0, 0, [0x80, 0x80].foldl (fun l _ => l) (mxMem.bytes (bk 0x1000) 1152), mxMem.bytes (bk 0x2000) 1024, none, again, false⟩
def fires (again : Bool) : State := mxB (bnd bw0 1) fun k => { k with firing := some (firing0 again) }
theorem test_hyp_firing : asked.canFire asked.cx 0 { bnd bw0 0 with reqs := [⟨1, none, [], false, []⟩] } = true ∧ asked.hasEntry 0x200 1 = true ∧ asked.hasEntry 0x200 2 = true ∧
    (askedG.gangMember 0x200 0 0).isSome = true ∧ ((fires false).core 0x200).firing.isSome = true ∧ 2 &&& (2 ^ bwM bw0 - 1) = 0 ∧ 1 &&& (2 ^ bwM bw0 - 1) ≠ 0 := by decide +kernel
theorem test_hyp_firing_order : (asked.core 0x200).firing = none ∧ asked.ctxs.map (fun c => c.binds.map fun e => e.2.ready) = [[some 1]] ∧ bwAq bw0 ≠ bwBq bw0 ∧
    bwGang bw0 = false ∧ bwAuto bw0 = false ∧ (asked.ctx? 0).map (·.id.core) = some 0x200 ∧
    askedG.canFire askedG.cx 0 { bnd bwG 0 with reqs := [⟨1, some (1, 2), [], false, []⟩], ready := some 1 } = true ∧ askedG.hasEntry 0x200 1 = true ∧
    ((fires true).core 0x200).firing.map (·.again) = some true ∧ (fires false).cx.binds.get? 0 = some (bnd bw0 1) := by decide +kernel
theorem test_firing_start : (((after (.firingStart 0x200 0 0) asked).core 0x200).firing.map fun f => (natOfBytes (f.b.take 1), f.a.length)) = some (5, 1152) ∧
    ((after (.firingStart 0x200 0 0) asked).ring 0x200 1).cons = 0 ∧ ((after (.firingStart 0x200 0 0) asked).firingRead 0x200 |>.ring 0x200 1).cons = 1 ∧ (((after (.gangedFiringStart 0x200 0 0) askedG).core 0x200).firing.bind (·.leader)) = some 0 := by decide +kernel
theorem test_firing : (after (.firingComplete 0x200 0) (fires false)).cx.tile 0 0 = fa80Of (.fin false 15 0) ∧ ((after (.firingComplete 0x200 0) (fires false)).core 0x200).firing = none ∧
    (((after (.firingComplete 0x200 1) (fires false)).core 0x200).firing.map (·.again)) = some true := by decide +kernel
theorem test_assay : ((after (.assayRecompute 0x200 0) (fires true)).core 0x200).assay = 1 ∧ ((after (.assayRecompute 0x200 1) (fires true)).cx.binds.get? 0).map (·.st) = some 3 ∧
    (after (.assayRecompute 0x200 1) (fires true)).cx.st.defer.map (·.code) = [0xB] ∧ (after (.assayRecompute 0x200 1) (fires true)).cx.tile 0 0 = 0 := by decide +kernel
/-- An `mxg` whose firings have ended; an automatic drain is due, and an `mxdrain` waits. -/
def ended0 : State := { mxG with cx := { mxG.cx with binds := [(0, { bnd bwG 0 with reqs := [⟨0, some (1, 2), [(0, 1)], true, [(0, 0)]⟩], gang := some 0 })] } }
def due0 : State := mxB { bnd bwD1 0 with since := 1 } id
def queued0 : State := mxB (bnd bw0 0) fun k => { k with mops := [⟨0, 5, 0, .bf16, 0, 0, 0, true, none, []⟩] }
theorem test_hyp_gang_drain : ended0.ctxs.map (·.cid) = [0] ∧ ended0.cx.binds.length = 1 ∧ (ended0.barrier 0 2).full = false ∧ ({ bnd bwD1 0 with since := 1 } : Binding).drainDue = true ∧
    (bnd bw0 0).drainDue = false ∧ queued0.nextDrain 0x200 0 0 = some ⟨0, 5, 0, .bf16, 0, 0, 0, true, none, []⟩ ∧ (due0.part 0).pstate = 0 := by decide +kernel
/-- The arrivals of the `mxg` are owed. -/
def owed0 : State := ended0.owing 0x200
theorem test_hyp_arrivals : (ended0.core 0x200).gangs = [] ∧ (ended0.gangEnded 0x200).isSome = true ∧ (owed0.core 0x200).gangs.map (·.left) = [[(0, 0)]] ∧
    (owed0.barrier 0 2).full = false ∧ owed0.cx.trapDue 0 = false ∧ (∀ e ∈ owed0.cores, e.2.firing = none) ∧ due0.cx.trapDue 0 = false ∧
    (due0.core 0x200).drains = [] ∧ (due0.core 0x200).firing = none ∧ due0.cx.cnt.matrix < 16 ∧ due0.cx.st.out = false := by decide +kernel
theorem test_gang_arrival : ((after (.gangArrival 0x200) ended0).cx.binds.get? 0).map (fun b => (b.reqs, b.gang)) = some ([], none) ∧
    ((after (.gangArrival 0x200) ended0).barrier 0 2).result = 1 := by decide +kernel
theorem test_drain_start : ((after (.drainStart 0x200 0 0) due0).core 0x200).drains = [⟨0, 0, false, 0, none, 0⟩] ∧ ((after (.drainStart 0x200 0 0) queued0).core 0x200).drains = [⟨0, 0, true, 0, none, 0⟩] ∧
    ((after (.drainStart 0x200 0 0) queued0).core 0x200).mops = [] := by decide +kernel
/-- A drain on its only row, without and with a handler; the handler's run in progress, and done. -/
def drains0 (c : Ctx) (o : Tab Ctx) : State :=
  { mx0 with cx := { c with binds := c.binds.map fun e => (e.1, e.2) }, others := o,
             cores := [(0x200, { Core.fresh with rings := rings3 1 1, drains := [⟨0, 0, false, 0, none, 0⟩] })] }
def leave0 : State := drains0 { owner0 with binds := [(0, bnd bw0 2)] } []
def drop0 : State := drains0 { owner0 with binds := [(0, bnd (bw0 - 2 ^ 13) 2)] } []
def begin0 : State := drains0 owner0 []
def sentD : State := drains0 owner0 [(drainCid 0x200, drainIn { run0 with done := some true })]
def late1 : State := drains0 owner0 [(drainCid 0x200, drainIn { run0 with cycles := 4096 })]
theorem test_hyp_drains : (leave0.core 0x200).drains = [⟨0, 0, false, 0, none, 0⟩] ∧ leave0.cx.cid = 0 ∧ bwDron bw0 = true ∧ bwDron (bw0 - 2 ^ 13) = false ∧
    (sentD.ctx? (drainCid 0x200)).isSome = true ∧ begin0.ctx? (drainCid 0x200) = none ∧ owner0.binds.map (fun e => e.2.handler ≠ 0) = [True] ∧ bwM bw0 = 1 := by
  refine ⟨by decide +kernel, by decide +kernel, by decide +kernel, by decide +kernel, by decide +kernel, by decide +kernel, ?_, by decide +kernel⟩
  simp [owner0]
theorem test_hyp_drain_rows : (∀ y ∈ (leave0.core 0x200).drains, (leave0.drainOf y).isSome = true) ∧ (∀ y ∈ (drop0.core 0x200).drains, (drop0.drainOf y).isSome = true) ∧
    (leave0.ring 0x200 3).log2n = 0 ∧ ((leave0.ring 0x200 3).rsv + 2 ^ 32 - (leave0.ring 0x200 3).cons % 2 ^ 32) % 2 ^ 32 < 2 ^ (leave0.ring 0x200 3).log2n ∧
    begin0.cx.st.out = false ∧ drainCid 0x200 ≠ 0 ∧ (sentD.others.get? (drainCid 0x200)).map (fun c => (c.drain.bind (·.done), (c.drain.bind (·.trapped)).isSome)) =
      some (some true, false) := by decide +kernel
theorem test_drain_row : memory (.drainRow 0x200) leave0 (bk 0x3000) 8 = 15 ∧ ((after (.drainRow 0x200) leave0).ring 0x200 3).prod = 1 ∧
    (after (.drainRow 0x200) leave0).cx.tile 0 0 = 0 ∧ ((after (.drainRow 0x200) drop0).core 0x200).drains = [] := by decide +kernel
theorem test_drain_handler : ((after (.drainHandlerRun 0x200) begin0).ctx? (drainCid 0x200)).map (fun c => (c.pc, c.r.s.get? 1, c.decl.sregs)) = some (0x10000000100, some 0, 16) ∧
    ((after (.drainHandlerRun 0x200) sentD).core 0x200).drains.map (fun d => (d.out.getD []).map (·.toNat) |>.take 1) = [[15]] ∧
    (after (.drainRunLimit 0x200) late1).cx.drain.map (·.trapped) = some (some 6) := by decide +kernel
/-- An operation of the engine is alone. -/
def mopOf (k : Nat) : State :=
  { mx0 with cx := { owner0 with binds := [] }, mem := mxMem.write (bk 0x80) 3, cores := [(0x200, { Core.fresh with mops := [⟨0, k, 0, .i8, 0x80, 0x4000, 0, true, none, []⟩] })] }
theorem test_hyp_operations : ((mopOf 0).core 0x200).mops.length = 1 ∧ ((mopOf 0).core 0x200).firing = none ∧ (mopOf 0).atoms = [] ∧ ((mopOf 0).ctx? 0).isSome = true := by decide +kernel
theorem test_hyp_operation_kinds : ∀ k ∈ [0, 1, 2, 3, 4], ((mopOf k).core 0x200).mops.map (fun m => (m.kind, m.landed)) = [(k, [])] ∧
    ((mopOf k).core 0x200).drains = [] ∧ (mopOf k).atoms = [] ∧ (mopOf k).cx.cid = 0 := by decide +kernel
theorem test_operations : (after (.matrixOpComplete 0x200) (mopOf 0)).cx.tile 0 0 = 0 ∧ (after (.matrixOpComplete 0x200) (mopOf 2)).cx.cnt.matrix = 0 ∧
    memory (.matrixOpComplete 0x200) (mopOf 3) (bankKey 0x200 1 (128 * 7)) 1 = 1 ∧ (after (.matrixOpComplete 0x200) (mopOf 3)).cx.cnt.matrix = 0 := by decide +kernel
/-! ## Contexts, groups, dispatch -/

/-- A member of instance 1, whose kernel has another instance; node 1 may take over from node 0. -/
def ctx1 : Ctx := { ctx0 with id := { ctx0.id with inst := 1, kseq := 1 } }
def kern1 : Kernel := { kernel0 with nnodes := 2, nodes := [(0, { node0 with keys := [] }), (1, { node0 with keys := [], retained := true, preds := [(true, 0)] })] }
def inst1 : Inst := { inst0 with held := [] }
def instB : Inst := { inst1 with st := 0, node := 1, cores := [], cids := [], begun := false, banks := [], tracks := [], loaded := false }
def end0 : State := { withCx ctx1 with kernels := [(1, kern1)], insts := [(1, inst1), (2, instB)], cmap := [(0, 0x80)] }
/-- The first of two members; the other is context 1. -/
def kern2 : Kernel := { kern1 with nodes := [(0, { node0 with keys := [], gang := 2 })] }
def inst2 : Inst := { inst1 with cores := [0x200, 0x201], cids := [0, 1], banks := [[0, 1, 2, 3], [0, 1, 2, 3]], tracks := [[], []] }
def memb (n : Nat) : Ctx := { ctx1 with id := { ctx1.id with gsize := 2, serial := n, core := 0x200 + n, rank := n } }
def grpOf (i : Inst) (f : Stand → Stand) : State :=
  { withCx { memb 0 with st := f (memb 0).st } with others := [(1, memb 1)], kernels := [(1, kern2)], insts := [(1, i)] }
def grp0 : State := grpOf inst2 id
theorem test_hyp_ends : end0.plain = true ∧ end0.cx.st.live = true ∧ end0.others.get? 0 = none ∧ end0.insts.get? 1 = some inst1 ∧ end0.kernels.get? 1 = some kern1 ∧
    (end0.nodeOf inst1).isSome = true ∧ end0.cx.cnt = ⟨0, 0, 0, 0, 0⟩ ∧ end0.bads = [] ∧ end0.cx.binds = [] ∧ end0.cx.st.killed = [] ∧ end0.takesOver end0.cx 1 = true ∧
    end0.takesOver end0.cx 0 = false ∧ end0.gangOf inst1 = 1 ∧ inst1.localRank 0 = 0 := by decide
theorem test_hyp_member_ends : grp0.gangOf inst2 = 2 ∧ inst2.localRank 0 = 0 ∧ (1 : Nat) ∉ inst2.ended ∧ grp0.plain = true ∧ grp0.others.get? 0 = none ∧
    grp0.cx.st.vote = none ∧ 1 < grp0.cx.id.gsize ∧ vals (grp0.operands [src 1]) = some [5] := by decide
theorem test_hyp_last_member : kern1.st = 2 ∧ (∃ e ∈ end0.insts, e.1 ≠ 1 ∧ e.2.kernel = inst1.kernel ∧ e.2.st < 4) ∧ (∀ r, r < end0.gangOf inst1 → r = 0) ∧
    end0.exchangeDone [0] = true ∧ (end0.cx.id.gsize ≤ 1) ∧ end0.roomS 9 = true ∧ end0.ordered = true ∧ grp0.cx.st.inSync = 0 ∧
    (grpOf inst2 fun t => { t with vote := some (12, 0) }).cx.st.vote = some (12, 0) := by decide
theorem test_halt : (after .halt end0).ctx? 0 = none ∧ ((after .halt end0).insts.get? 1).map (·.st) = some 4 ∧ ((after .halt end0).kernels.get? 1).map (·.retired) = some 1 ∧
    ((after .halt grp0).insts.get? 1).map (fun i => (i.st, i.ended)) = some (3, [0]) ∧
    (after .halt (end0.onCx fun c => { c with cnt := ⟨1, 0, 0, 0, 0⟩ })).cx.wait = some (.classes 0 0 0 0 0) := by decide
theorem test_retire : ((after (.retire 1) end0).core 0x200).kept.map (fun k => (k.bank, k.node)) = [(0, 1), (1, 1), (2, 1), (3, 1)] ∧ cause (.retire 0) end0 = some 1 := by decide
theorem test_halt_kill : ((after .haltKill { end0 with cx := { ctx1 with sup := true } }).kernels.get? 1).map (fun u => (u.st, u.killed, u.never)) = some (5, 1, 1) ∧
    (after .haltKill { end0 with cx := { ctx1 with sup := true } }).ctx? 0 = none := by decide
theorem test_yield : (after .yield end0).cx.st.out = true ∧ ((after .yield end0).insts.get? 1).map (·.st) = some 1 ∧ (after .yield end0).cx.pc = 0x10000000002 ∧
    (after .yield grp0).cx.wait = some .group ∧ (after .yield grp0).cx.st.inSync = 2 := by decide
theorem test_sync : out (.sync .pop 9 (src 2)) end0 9 = some 3 ∧ out (.sync .sum 9 (src 4)) end0 9 = some 0xFFFFFFF8 ∧
    ((after (.sync .sum 9 (src 1)) grp0).insts.get? 1).map (·.arrivals) = some [(0, .sync .sum 5)] ∧
    out (.sync .sum 9 (src 1)) (grpOf inst2 fun t => { t with vote := some (12, 0) }) 9 = some 12 := by decide
theorem test_tsig : ((after .tsig end0).insts.get? 1).map (fun i => (i.signalled, i.edge)) = some ([0], true) ∧ ((after .tsig grp0).insts.get? 1).map (·.edge) = some false := by
  decide
/-- A spawn record at 0x80: node 0, one instance. -/
def spawn0 (full : Bool) : State :=
  { reg end0 3 0x80 with
    mem := Memory.putBytes [] (bk 0x88) [1, 0, 1, 0, 1, 0]
    kernels := [(1, if full then { kern1 with st := 3 } else kern1)] }
theorem test_hyp_spawn : spawnBad ((spawn0 false).ownBytes (spawn0 false).cx 0x80 32) kern1.nnodes = false ∧ (spawn0 false).cx.ownRange 0x80 32 = true ∧
    (spawn0 false).ordered = true ∧ (spawn0 false).copiesOf 1 kern1 = 0 ∧ kern1.nodes.get? 0 = some { node0 with keys := [] } := by decide
theorem test_spawn : out (.spawn 9 (src 3)) (spawn0 false) 9 = some 0 ∧ (((after (.spawn 9 (src 3)) (spawn0 false)).kernels.get? 1).bind fun u => u.nodes.get? 2).map (·.copy) = some true ∧
    out (.spawn 9 (src 3)) (spawn0 true) 9 = some (-1) ∧ cause (.spawn 9 (src 1)) end0 = some 0x11 := by decide

/-- Both members have arrived; the phase drains, is held, is released. -/
def drainI : Inst := { inst2 with gst := 2, arrivals := [(0, .sync .sum 5), (1, .sync .sum 7)] }
def grpD : State := grpOf drainI fun t => { t with inSync := 1 }
def grpS : State := { grpD with kernels := [(1, { kern2 with spann := 2, spannodes := 1 })] }
def relI : Inst := { inst2 with gst := 4, result := 12 }
def grpR : State := { grpOf relI fun t => { t with inSync := 1 } with others := [(1, { memb 1 with st := { ctx1.st with inSync := 1 }, wait := some .group })] }
theorem test_hyp_groups : grpD.insts.get? 1 = some drainI ∧ grpD.exchangeDone drainI.cids = true ∧ grpD.spans drainI = false ∧ grpS.spans drainI = true ∧ grpD.instPart drainI = 0 ∧
    (grpD.modCore 0x200 fun k => { k with copies := [base0 3 0 0 8] }).exchangeDone drainI.cids = false ∧
    grpR.columnsOf relI = [(0, 0), (1, 1)] ∧ (grpD.part 0).holdmax = 0 := by decide
theorem test_hyp_release_order : (grpD.part 0).pstate = 0 ∧ (grpS.part 0).pstate = 0 ∧ grpS.exchangeDone drainI.cids = true ∧ grpR.insts.get? 1 = some relI ∧
    (∀ e ∈ grpR.columnsOf relI, e.2 ∉ relI.released → relI.ptab.getD 0 0 ≤ relI.ptab.getD e.2 0) ∧
    (grpR.ctx? 0).map (fun c => (c.cid, coreColumn c.id.core, c.st.inSync)) = some (0, 0, 1) ∧ ((grpR.ctx? 1).map (·.wait)) = some (some .group) := by decide
theorem test_exchange_complete : ((after (.syncExchangeComplete 1) grpD).insts.get? 1).map (fun i => (i.gst, i.result, i.mixed)) = some (4, 12, 0) ∧
    ((after (.syncExchangeComplete 1) grpD).part 0).phases = 1 ∧ ((after (.spanReleaseTick 1 9 [some (.sum, 3)]) grpS).insts.get? 1).map (·.result) = some 15 ∧
    (after (.spanReleaseTick 1 9 [some (.sum, 3)]) grpS).time = 9 := by decide +kernel
theorem test_release : ((after (.columnRelease 1 0) grpR).ctx? 0).map (·.st.vote) = some (some (12, 0)) ∧ ((after (.columnRelease 1 0) grpR).insts.get? 1).map (·.released) = some [0] ∧
    ((after (.columnRelease 1 1) (after (.columnRelease 1 0) grpR)).insts.get? 1).map (fun i => (i.gst, i.phase)) = some (0, 1) ∧
    ((after (.powerHoldEnd 1) (grpOf { drainI with gst := 3 } id)).insts.get? 1).map (·.gst) = some 4 := by decide +kernel

/-- Instance 2 is ready, with a key; cluster 0 belongs to the partition. -/
def dnode : Node := { node0 with keys := [⟨3, 0, 0, false⟩], banku := 1 }
def dkern : Kernel := { kernel0 with nodes := [(0, dnode)] }
def ready2 : Inst := { instB with st := 1, node := 0 }
def pick0 : State := { State.reset with kernels := [(1, dkern)], insts := [(2, ready2)], cmap := [(0, 0x80)] }
def locked : State :=
  { pick0 with keytab := [(slot3, ⟨[], some 9, none⟩)], parts := [(0, { Part.fresh with keyTimer := some (2, 2 ^ 31) })] }
/-- No core fits: the node asks for memory cores with a tile. -/
def nofit : State := { pick0 with kernels := [(1, { dkern with nodes := [(0, { dnode with place := 1, acc := 1 })] })], parts := [(0, { Part.fresh with placeTimer := some (2, 2 ^ 31) })] }
theorem test_hyp_pick : pick0.pool 0 = [(2, ready2)] ∧ pick0.keysOk 2 ready2 = true ∧ (pick0.part 0).placing = [] ∧
    pick0.placement ready2 0 none (pick0.coresOf 0) = some [0x200] := by decide +kernel
theorem test_hyp_no_pick : nofit.keysOk 2 ready2 = true ∧ nofit.placement ready2 0 none (nofit.coresOf 0) = none ∧ locked.keysOk 2 ready2 = false ∧
    locked.slotsOf ready2 = [(slot3, true)] ∧ (locked.keySlot slot3).owner = none ∧ pick0.queueRoom [0x200] = true := by decide +kernel
theorem test_hyp_dispatch : pick0.insts.get? 2 = some ready2 ∧ (pick0.part 0).pstate = 0 ∧ ready2.begun = false ∧ ready2.ended = [] ∧ ready2.reserved = false ∧
    nofit.pool 0 = [(2, ready2)] ∧ locked.pool 0 = [(2, ready2)] ∧ (nofit.part 0).placeTimer = some (2, 2 ^ 31) ∧ (nofit.part 0).ageplace ≤ 2 ^ 31 ∧
    (locked.part 0).keyTimer = some (2, 2 ^ 31) ∧ (locked.part 0).agekey ≤ 2 ^ 31 := by decide +kernel
theorem test_pick : ((after (.dispatchPick 0) pick0).insts.get? 2).map (fun i => (i.st, i.cores, i.held)) = some (2, [0x200], [0]) ∧
    (after (.dispatchPick 0) pick0).cdq = [(0, [2])] ∧ ((after (.dispatchPick 0) pick0).keySlot slot3).excl = some 2 ∧
    ((after (.ageplaceExpiry 0) nofit).part 0).placing = [2] ∧ ((after (.agekeyExpiry 0) locked).keySlot slot3).owner = some 2 := by decide +kernel
/-- The instance is queued on core 0x200. -/
def queued2 : Inst := { ready2 with st := 2, cores := [0x200], banks := [[4, 5, 6, 7]], tracks := [[]], held := [0] }
def start0 : State := { pick0 with insts := [(2, queued2)], cdq := [(0, [2])] }
/-- It has one track and a word for it at 2^40. -/
def tnode : Node := { dnode with tracks := 1, loads := [⟨0, 5, 1, 0x10000000000⟩] }
def load0 : State :=
  { dram0 with
    kernels := [(1, { dkern with nodes := [(0, tnode)] })], insts := [(2, { queued2 with tracks := [[2]] })], cdq := [(0, [2])] }
theorem test_hyp_start : start0.canStart 2 queued2 = true ∧ (start0.nodeOf queued2).isSome = true ∧ start0.spans queued2 = false ∧ (start0.part 0).pstate = 0 ∧
    ((load0.readGlobal 0 0x10000000000 128).map fun bs => (natOfBytes bs, bs.length)) = some (0x56781234, 128) ∧ (load0.track 0x200 2).common = false ∧
    end0.edgesDone instB = false ∧ (after .halt end0).edgesDone instB = true := by decide +kernel
theorem test_hyp_first_start : start0.ctx? ((start0.part 0).serial % 2 ^ 24) = none ∧ queued2.cids = [] ∧ queued2.ended = [] ∧ queued2.cores = [0x200] ∧
    dnode.gang = 1 ∧ dnode.loads = [] ∧ dnode.retained = false ∧ load0.insts.get? 2 = some { queued2 with tracks := [[2]] } ∧ load0.instPart queued2 = 0 ∧
    load0.mem.wf = true := by decide
theorem test_start : (((after (.instanceStart 2) start0).others.get? 0).map fun c => (c.id.core, c.pc, c.decl.banks)) = some (0x200, 0x10000000000, [4, 5, 6, 7]) ∧
    (((after (.instanceStart 2) start0).others.get? 0).bind fun c => c.r.s.get? 7) = some 1 ∧
    ((after (.instanceStart 2) start0).insts.get? 2).map (fun i => (i.st, i.cids)) = some (3, [0]) := by decide +kernel
theorem test_track_data : memory (.trackdataLoad 2) load0 (trackKey 0x200 2 5 0) 4 = 0x56781234 ∧ ((after (.trackdataLoad 2) load0).track 0x200 2).ppos = 6 ∧
    ((after (.edgeRelease 2) (after .halt end0)).insts.get? 2).map (·.st) = some 1 ∧ ((after (.edgeRelease 2) end0).insts.get? 2).map (·.st) = some 0 := by decide +kernel
def copy0 : State := { pick0 with kernels := [(1, { dkern with nodes := [(3, { dnode with copy := true, nx := 2 })] })], insts := [] }
theorem test_hyp_spawn_enqueue : copy0.kernels.get? 1 = some { dkern with nodes := [(3, { dnode with copy := true, nx := 2 })] } ∧
    ({ dnode with copy := true, nx := 2 } : Node).enqueued = false := by decide
theorem test_spawn_enqueue : ((after (.spawnEnqueue 1 3) copy0).insts.map fun e => (e.1, e.2.x, e.2.st)) = [(1, 0, 1), (2, 1, 1)] ∧
    (after (.spawnEnqueue 1 3) copy0).nextInst = 3 := by decide +kernel
def tired : State := st0.onCtl fun c => { c with budget := 0, tvec := 0x200 }
def deferred : State := st0.defer 0 cBARUF 3 none
theorem test_hyp_context_events : (tired.ctx? 0).isSome = true ∧ tired.cx.st.defer = [] ∧ tired.cx.c.budget = 0 ∧ (deferred.cx.st.defer.map (·.code)) = [0x10] := by decide
theorem test_hyp_user_level : tired.cx.sup = false ∧ tired.cx.drain = none ∧ tired.cx.st.out = false ∧ (tired.part 0).pstate = 0 ∧ deferred.cx.sup = false ∧
    deferred.cx.drain = none ∧ (deferred.ctx? 0).isSome = true ∧ deferred.cx.cid = 0 := by decide
theorem test_context_events : (after (.budgetExpiry 0) tired).cx.pc = 0x200 ∧ (after (.budgetExpiry 0) tired).cx.c.cause = 6 ∧ (after (.deferredTrap 0) deferred).cx.c.cause = 0x10 ∧
    (after (.deferredTrap 0) deferred).cx.c.tinfo = 3 := by decide
/-- The only core that a ready instance may use is full of later contexts. -/
def late2 : Inst := { inst1 with node := 1, cids := [0], deadline := 9 }
def busyCx : Ctx := { ctx1 with c := { ctx1.c with deadline := 9 }, decl := { ctx1.decl with tracks := [] } }
def pre0 : State :=
  { withCx busyCx with
    kernels := [(1, { dkern with nnodes := 2, nodes := [(0, { dnode with keys := [], vregs := 8, sregs := 16 }), (1, { dnode with keys := [], sregs := 16, vregs := 8 })] })]
    insts := [(1, late2), (2, { ready2 with deadline := 3 }), (3, { late2 with cids := [7] }), (4, { late2 with cids := [8] }), (5, { late2 with cids := [9] })]
    cmap := [(0, 0x80)]
    parts := [(0, { Part.fresh with role := [(0x201, 1), (0x210, 1), (0x211, 1)] })] }
def out1 : State := { end0 with cx := { ctx1 with st := { ctx1.st with out := true } }, insts := [(1, { inst1 with st := 2 })], cdq := [(0, [1])] }
theorem test_hyp_resume : (out1.ctx? 0).isSome = true ∧ out1.canStart 1 { inst1 with st := 2 } = true ∧ 3 ∈ out1.slotsFree 0x200 ∧ out1.gangOf inst1 = 1 := by decide
theorem test_resume : ((after (.contextResume 0 0x200 3) out1).ctx? 0).map (fun c => (c.id.slot, c.st.out)) = some (3, false) ∧
    ((after (.contextResume 0 0x200 3) out1).insts.get? 1).map (·.st) = some 3 := by decide
theorem test_hyp_preempt : (pre0.pool 0).map (·.1) = [2] ∧ pre0.placement { ready2 with deadline := 3 } 0 none (pre0.coresOf 0) = none ∧
    (latest (pre0.victims 0 { ready2 with deadline := 3 })).map Ctx.cid = some 0 ∧ pre0.drainedCtx busyCx = true := by decide +kernel
theorem test_hyp_slices : pre0.keysOk 2 { ready2 with deadline := 3 } = true ∧ busyCx.st.out = false ∧ pre0.insts.get? busyCx.id.inst = some late2 ∧
    out1.insts.get? 1 = some { inst1 with st := 2 } ∧ inst1.begun = true ∧ ctx1.id.slot ≠ 4 ∧ ctx1.id.core = 0x200 := by decide +kernel
theorem test_preempt : ((after (.contextPreempt 0) pre0).ctx? 0).map (·.st.out) = some true ∧ ((after (.contextPreempt 0) pre0).insts.get? 1).map (·.st) = some 1 := by decide +kernel

/-! ## Gating -/

/-- `s3` names core 0x200, whose cluster belongs to the partition. -/
def gate0 (g : Nat) : State := { reg st0 3 0x200 with cmap := [(0, 0x80)], clusters := [(0, { Cluster.fresh with gate := g, disc := 2 })] }
def gateIn (kind g : Nat) : State := { (gate0 g).onRegs fun r => { r with sFly := [(9, 4)] } with gates := [(4, ⟨0, 0, 0, kind, 9, none⟩)] }
def woken : State := { gate0 0 with gates := [(4, ⟨0, 0, 0, 3, 9, some 5⟩)] }
def quietG : State := { gate0 1 with cx := { mem0.cx with id := { ctx0.id with core := 0x220 } }, mem := Memory.putBytes [] (bk 0) [7] }
def waking : State := { gate0 3 with gates := [(4, ⟨0, 0, 0, 2, 9, some 2⟩)], cores := [(0x200, { Core.fresh with tracks := [(2, { trk with off := 3 })] })] }
theorem test_hyp_gates : vals ((gate0 0).operands [src 3]) = some [0x200] ∧ (gate0 0).partOfCluster 0 = some 0 ∧ (reg st0 3 0x200).partOfCluster 0 ≠ some 0 ∧
    (gate0 0).wakeOf 0 0 = none ∧ woken.wakeOf 0 0 = some (4, ⟨0, 0, 0, 3, 9, some 5⟩) ∧ ((gateIn 1 0).ctx? 0).map (fun c => c.r.sFly.get? 9) = some (some 4) ∧
    (gate0 0).power.gateen.testBit 0 = true := by decide
theorem test_gate_requests : ((after (.pgateReq 9 (src 3)) (gate0 0)).gates.get? 0).map (·.kind) = some 0 ∧ (after (.pgateQ 9 (src 3)) (gate0 0)).cx.r.sFly.get? 9 = some 0 ∧
    (after (.pwake 9 (src 3)) (gate0 2)).cx.wait = some (.reg 0 9) ∧ out (.pwake 9 (src 3)) woken 9 = some 5 ∧ cause (.pgateQ 9 (src 3)) (reg st0 3 0x200) = some 1 ∧
    cause (.pgateQ 9 (src 4)) st0 = some 1 := by decide
theorem test_gate_arrival : out (.gateRequestArrival 4) (gateIn 1 0) 9 = some 0x20000 ∧ ((after (.gateRequestArrival 4) (gateIn 0 0)).cluster 0).gate = 1 ∧
    ((after (.gateRequestArrival 4) (gateIn 2 2)).cluster 0).gate = 3 ∧ ((after (.gateRequestArrival 4) (gateIn 2 0)).gates.get? 4).map (·.kind) = some 3 := by decide
theorem test_hyp_off : (quietG.cluster 0).gate = 1 ∧ quietG.noTraffic 0 = true ∧ deckCores 0 = [0x200, 0x201, 0x210, 0x211] ∧ (quietG.part 0).pstate = 0 ∧
    (waking.cluster 0).gate = 3 := by decide
theorem test_off : ((after (.clusterOff 0) quietG).cluster 0).gate = 2 ∧ (after (.clusterOff 0) quietG).mem = [] ∧ ((after (.clusterWakeReady 0) waking).cluster 0).gate = 0 ∧
    ((after (.clusterWakeReady 0) waking).track 0x200 2).off = 0 ∧ ((after (.clusterWakeReady 0) waking).gates.get? 4).map (·.kind) = some 3 := by decide
/-! ## Queues and commands -/

/-- Queue 3 in a state, sixteen slots, vector 2. -/
def queueOf (f : Queue → Queue) : State := { State.reset with links := [(12, { Link.fresh with st := 5 })], queues := [(3, f { Queue.fresh with vec := 2, qbase := 0x1000 })] }
def cmdOf (op z : Nat) : Cmd := { op := op, intr := true, handles := [], sub := 0, x := 0x2000, y := 1, z := z, done := false }
def idle : State := queueOf fun u => { u with st := 1 }
/-- One command has started; the error state at it. -/
def busyQ (op z : Nat) : State := queueOf fun u => { u with st := 2, tail := 2, fetch := 1, cmds := [(0, cmdOf op z)] }
def stopped : State := queueOf fun u => { u with st := 5, tail := 2, fetch := 0, done := 0, errIdx := 0 }
theorem test_hyp_queues : (idle.queue 3).st = 1 ∧ (idle.queue 3).log2 = 4 ∧ (State.reset.queue 3).st = 0 ∧ idle.hostUp = true ∧ (stopped.queue 3).fetch = (stopped.queue 3).errIdx ∧
    ((busyQ 2 0).queue 3).cmds.get? 0 = some (cmdOf 2 0) ∧ (busyQ 4 5).waitHolds 0 (cmdOf 4 5) = false ∧ (busyQ 4 0).waitHolds 0 { cmdOf 4 0 with y := 0 } = true ∧
    ((queueOf fun u => { u with st := 4, cmds := [(0, { cmdOf 2 0 with done := true })] }).queue 3).st = 4 := by decide
/-- A draining queue with a counted command done; a stopped one with fetched slots behind the error; a WAIT on an unmapped address. -/
def drainQ : State := queueOf fun u => { u with st := 4, cmds := [(0, { cmdOf 2 0 with done := true })] }
def keptQ : State := queueOf fun u => { u with st := 5, tail := 3, fetch := 2, slots := [(1, [])] }
theorem test_hyp_queue_drained : (∀ e ∈ (drainQ.queue 3).cmds, e.2.done = true) ∧ (drainQ.queue 3).cmds.get? ((drainQ.queue 3).done + 1) = none ∧
    (drainQ.queue 3).vec < 256 ∧ drainQ.hostUp = true ∧ (keptQ.queue 3).done = (keptQ.queue 3).errIdx ∧
    (keptQ.queue 3).slots.filter (fun e => e.1 != 0 && (0 + 2 ^ 32 - e.1) % 2 ^ 32 < 2 ^ 31) = [] ∧ (busyQ 4 5).poll 0 { cmdOf 4 5 with x := 0x10000000000 } = none ∧
    (cmdOf 4 5).done = false := by decide
theorem test_queue_drained : ((after (.queueDrained 3) drainQ).queue 3).done = 1 ∧ (after (.queueDrained 3) drainQ).msix = [(1, 2)] := by decide
theorem test_queue_states : ((after (.queueEnable 3) State.reset).queue 3).st = 1 ∧ ((after (.queueDisable 3) idle).queue 3).st = 4 ∧
    ((after (.queueDrained 3) (queueOf fun u => { u with st := 4 })).queue 3).st = 0 ∧ ((after (.queueResume 3) stopped).queue 3).st = 2 ∧
    ((after (.queueResumeSkip 3) stopped).queue 3).done = 1 := by decide
theorem test_doorbell : ((after (.tail 3 16) idle).queue 3).st = 2 ∧ ((after (.tail 3 17) idle).queue 3).errCode = 3 ∧ (after (.tail 3 17) idle).msix = [(1, 2)] ∧
    ((after (.tail 3 5) (queueOf fun u => { u with st := 3 })).queue 3).shadow = some 5 ∧ ((after (.tail 3 5) State.reset).queue 3).tail = 0 := by decide
theorem test_completion : ((after (.commandComplete 3 0) (busyQ 2 0)).queue 3).done = 1 ∧ (after (.commandComplete 3 0) (busyQ 2 0)).msix = [(1, 2)] ∧
    ((after (.commandComplete 3 0) (busyQ 4 0)).queue 3).done = 0 ∧ ((after (.waitTimeout 3 0) { busyQ 4 5 with time := 5 }).queue 3).errCode = 5 ∧
    ((after (.waitTimeout 3 0) (busyQ 4 5)).queue 3).st = 2 := by decide

/-- The next command of queue 3, in host memory: header and body words; global memory is mapped. -/
def withCmd (h : Nat) (body : List Nat) : State :=
  { dram0 with
    queues := [(3, { Queue.fresh with st := 2, tail := 1, qbase := 0x1000 })]
    links := [(8, { Link.fresh with st := 5 }), (9, { Link.fresh with st := 5 }), (10, { Link.fresh with st := 5 }), (11, { Link.fresh with st := 5 }), (12, { Link.fresh with st := 5 })]
    cmap := [(0, 0x80)]
    mem := dram0.mem.putBytes (hostKey 0x1000) (bytesOfNat 8 h ++ body.flatMap (bytesOfNat 8)) }
def line (s : State) : Line128 := lineOfBytes (s.mem.bytes (hostKey 0x1000) 128)
def copyC (sub : Nat) : State := withCmd (2 + sub * 65536) (if sub = 0 then [0x10000000000, 0x10000000008, 1] else if sub = 1 then [0x1000, 0x10000000008, 1] else [0x10000000000, 0x80, 1])
def launchC : State := withCmd 1 [0x10000000000, 0, 0, 0]
theorem test_hyp_commands : ((copyC 0).queue 3).st = 2 ∧ (line (copyC 0)).bad ((copyC 0).mem.bytes (hostKey 0x1000) 128) = none ∧ (line (copyC 0)).op = 2 ∧ (line (copyC 0)).nh = 0 ∧
    (copyC 0).handlesFree [] = true ∧ (copyC 0).hostUp = true ∧ launchC.bridgesUp = true ∧ (copyC 0).globalPlace 0 0x10000000000 .load = .ok 0x2000000 ∧
    (copyC 0).globalPlace 0 0x10000000008 .store = .ok 0x2000008 ∧ (copyC 0).globalPlace 0 0x20000000000 .store = .error 1 := by decide +kernel
/-- The slot was fetched ahead; the slot's fetch faults in the BAR2 window. -/
def aheadC : State := (copyC 0).modQueue 3 fun u => { u with fetch := 1, slots := [(0, bytesOfNat 8 2 ++ List.replicate 120 0)] }
def slotless : State := (copyC 0).modQueue 3 fun u => { u with qbase := 2 ^ 60 }
theorem test_hyp_next_slot : (copyC 0).windowOf 0x1000 = none ∧ ((copyC 0).nextSlot 3).isSome = true ∧ ((copyC 0).queue 3).slots = [] ∧
    ((aheadC.queue 3).slots.head?.map (·.1)) = some 0 ∧ (aheadC.nextSlot 3).isSome = true ∧ ((copyC 0).queue 3).cmds.has 0 = false := by decide +kernel
theorem test_hyp_command_places : (let s := (copyC 0).reach 0 0x10000000000 .load; s.2 = .ok 0x2000000 ∧ (s.1.reach 0 0x10000000008 .store).2 = .ok 0x2000008 ∧
      s.1.globalPlace 0 0x10000000000 .load = .ok 0x2000000 ∧ (s.1.reach 0 0x20000000000 .store).2 = .error 1) ∧
    ((copyC 0).reach 0 0x20000000000 .load).2 = .error 1 ∧ ((copyC 0).cmdPlace 0 0x10000000008 .store).2 = .ok 0x2000008 ∧
    ((copyC 0).cmdPlace 0 0x20000000000 .store).2 = .error 1 ∧ ((copyC 0).cmdPlace 0 0x10000000000 .load).2 = .ok 0x2000000 ∧
    (copyC 1).mem.wf = true := by decide +kernel
theorem test_malformed : ((after (.copy 3) (withCmd 0x102 [])).queue 3).errCode = 2 ∧ ((after (.copy 3) (withCmd 9 [])).queue 3).errCode = 1 ∧
    ((after (.copy 3) (withCmd 2 [0x10000000000, 0x20000000000, 1])).queue 3).errCode = 4 := by decide +kernel
theorem test_copy_command : memory (.copy 3) (copyC 0) 0x2000008 1 = 0x34 ∧ memory (.copy 3) (copyC 1) 0x2000008 1 = 2 ∧ memory (.copy 3) (copyC 2) (hostKey 0x80) 1 = 0x34 ∧
    ((after (.copy 3) (copyC 0)).queue 3).fetch = 1 := by decide +kernel
theorem test_signal : memory (.signal 3) (withCmd 3 [0x10000000008, 7]) 0x2000008 8 = 7 ∧ memory (.signal 3) (withCmd 0x10003 [0x10000000000, 1]) 0x2000000 8 = 0x56781235 ∧
    ((after (.waitCommand 3) (withCmd 4 [0x10000000000, 7, 9])).queue 3).cmds.get? 0 = some ⟨4, false, [], 0, 0x10000000000, 7, 9, false⟩ ∧
    (after (.flush 3) { withCmd 5 [] with cx := (after (.st (src 1) (src 3) 0) cache0).cx }).cx.l1.data.map (·.written) = [0] := by decide +kernel
/-- An object with one node of one instance, at 2^40. -/
def objBytes : List Byte :=
  bytesOfNat 8 0x10003 ++ bytesOfNat 8 0x100 ++ bytesOfNat 8 4 ++ bytesOfNat 40 0 ++
    (bytesOfNat 8 0 ++ bytesOfNat 8 0x1000100010001 ++ bytesOfNat 8 0xFFFFFFFFFFFFFFFF ++ bytesOfNat 8 0x0000000001000808 ++ bytesOfNat 96 0)
def object0 : State := { launchC with mem := launchC.mem.putBytes 0x2000000 objBytes }
theorem test_hyp_launch : (object0.checkObject 0 0x10000000000 0 0).toOption.map (fun o => (o.1.map (·.banku), o.2)) = some ([1], []) ∧
    (match launchC.checkObject 0 0x10000000000 0 0 with | .error r => r | .ok _ => 0) = 1 := by decide +kernel
theorem test_launch : ((after (.launch 3) object0).kernels.get? 1).map (fun u => (u.st, u.nnodes)) = some (2, 1) ∧ (after (.launch 3) object0).insts.map (fun e => (e.1, e.2.st)) = [(1, 1)] ∧
    ((after (.launch 3) launchC).kernels.get? 1).map (fun u => (u.st, u.reason)) = some (6, 1) ∧ ((after (.launch 3) launchC).queue 3).errCode = 7 := by decide +kernel
def timed : State := { State.reset with kernels := [(1, { kernel0 with st := 1, start := 5 })], time := 5 }
theorem test_start_tick : ((after (.startTick 1) timed).kernels.get? 1).map (·.st) = some 2 ∧ (after (.startTick 1) timed).nextInst = 2 ∧
    ((after (.startTick 1) { timed with time := 4 }).kernels.get? 1).map (·.st) = some 1 := by decide

/-! ## Partitions -/

def partIn (f : Part → Part) : State := { st0 with parts := [(0, f Part.fresh)], cmap := [(0, 0x80)], mem := Memory.putBytes [] (bk 0x100) [7] }
def leaving (n : Option Nat) : State := partIn fun p => { p with pstate := 1, stopReq := some (0, 0, 0), nextIn := n }
def savedP : State := partIn fun p => { p with pstate := 3, savedMem := [(bk 0x100, 9)], savedCores := [(0x200, { Core.fresh with sent := 3 })] }
theorem test_hyp_partitions : (State.reset.part 0).pstate = 0 ∧ (leaving none).quiet 0 = true ∧ ((leaving none).part 0).stopReq ≠ none ∧ 0x200 ∈ (leaving none).coresOf 0 ∧
    (savedP.part 0).savedClusters = [] ∧ (savedP.part 0).savedMem.wf = true ∧ ((partIn fun p => { p with pstate := 1, ptick := 5 }).part 0).ptick = 5 := by decide +kernel
theorem test_hyp_partition_moves : ((partIn fun p => { p with pstate := 4, stopReq := some (3, 1, 0x200) }).part 0).stopReq = some (3, 1, 0x200) ∧
    (leaving (some 1)).quiet 0 = true ∧ ((leaving (some 1)).part 0).nextIn = some 1 ∧ (leaving none).mem.wf = true ∧
    (({ leaving (some 1) with parts := (leaving (some 1)).parts ++ [(1, { Part.fresh with pstate := 2 })] } : State).part 1).pstate = 2 ∧
    (savedP.part 0).savedCores = [(0x200, { Core.fresh with sent := 3 })] ∧ savedP.mem.wf = true := by decide +kernel
theorem test_switch : ((after (.switchOut 0 0 true 1) st0).part 0).pstate = 1 ∧ ((after (.switchOut 1 0 true 1) st0).part 0).pstate = 0 ∧
    ((after (.switchIn 0 0) (partIn fun p => { p with pstate := 2 })).part 0).pstate = 3 ∧ ((after (.stop 0 0) st0).part 0).stopReq = some (1, 0, 0) ∧
    ((after (.partitionResume 0 0) (partIn fun p => { p with pstate := 5 })).part 0).pstate = 3 := by decide
theorem test_ptick : (after (.ptickReached 0) (partIn fun p => { p with pstate := 1 })).cx.st.out = true ∧
    (after (.ptickReached 0) (partIn fun p => { p with pstate := 1, ptick := 5 })).cx.st.out = false := by decide +kernel
theorem test_switch_out_done : ((after (.switchOutDone 0) (leaving none)).part 0).pstate = 2 ∧ (after (.switchOutDone 0) (leaving none)).mem = [] ∧
    ((after (.switchOutDone 0) (leaving none)).part 0).savedMem = [(bk 0x100, 7)] := by decide +kernel
theorem test_switch_in_done : ((after (.switchInDone 0) savedP).part 0).pstate = 0 ∧ (after (.switchInDone 0) savedP).mem.read (bk 0x100) = 9 ∧
    ((after (.switchInDone 0) savedP).core 0x200).sent = 3 := by decide +kernel
theorem test_stop_kill : ((after (.haltTreeStop 0 0 0 0) (partIn fun p => { p with pstate := 4, stopReq := some (3, 1, 0x200) })).part 0).reason = 3 ∧
    ((after (.haltTreeStop 0 2 0 0) (partIn id)).part 0).reason = 2 ∧
    ((after (.partitionKill 0 0) { end0 with parts := [(0, { Part.fresh with pstate := 5 })] }).part 0).pstate = 0 := by decide +kernel
/-- Clusters 0 and 1; two queued instances in the first. -/
def bal0 : State := { start0 with cmap := [(0, 0x80), (1, 0x80)] }
def bal2 : State := { bal0 with insts := [(2, queued2), (3, queued2)], cdq := [(0, [2, 3])] }
theorem test_hyp_balancer : bal0.placement queued2 0 none (clusterCores 1) = some [0x202] ∧ bal2.byLoad 0 = [0, 1] ∧ bal2.balLoad 0 = 2 ∧ bal2.balLoad 1 = 0 ∧
    (bal0.cluster 1).gate = 0 := by decide +kernel
theorem test_balancer : ((after (.balcmd 0 0 (512 + 2 ^ 18)) bal0).insts.get? 2).map (·.cores) = some [0x202] ∧ (after (.balcmd 2 0 (512 + 2 ^ 18)) bal0).cdq = [(0, [2])] ∧
    ((after (.balancerPeriod 0) bal2).insts.get? 3).map (·.cores) = some [0x202] ∧ (after (.balancerPeriod 0) bal0).cdq = [(0, [2])] := by decide +kernel

/-! ## Links -/

def linkOf (l : Nat) (f : Link → Link) : State := { st0 with links := [(l, f Link.fresh)] }
def lk (l : Nat) (i : Instr) (f : Link → Link) : Link := (after i (linkOf l f)).link l
def upK (k : Link) : Link := { k with st := 5, lanes := 4 }
theorem test_hyp_links : (linkOf 2 upK).hasLink 2 = true ∧ ((linkOf 2 upK).link 2).st = 5 ∧ (linkOf 2 upK).hasLink 12 = true ∧ (linkOf 2 upK).hasLink 13 = false := by decide
theorem test_hyp_time_read : (linkOf 2 upK).timeRead = false ∧ ({ linkOf 2 upK with timeRead := true } : State).timeRead = true ∧
    ((linkOf 2 fun k => { k with st := 2, sent := [[0]] }).link 2).sent.length = 1 := by decide
theorem test_link_states : (lk 2 (.linkEnable 0 2) id).st = 1 ∧ (lk 9 (.linkEnable 0 9) id).st = 2 ∧ (lk 2 (.linkEnable 3 2) id).st = 0 ∧ (lk 2 (.linkDisable 0 2) upK).lanes = 0 ∧
    (lk 2 (.retrain 0 2) fun k => { k with st := 7 }).st = 1 ∧ (lk 2 (.signalSeen 2 2) fun k => { k with st := 1 }).st = 2 ∧
    (lk 2 (.signalSeen 2 1) fun k => { k with st := 1 }).st = 1 := by decide
theorem test_training : (lk 2 (.equalisationDone 2 3) fun k => { k with st := 2 }).lanes = 3 ∧ (lk 2 (.equalisationDone 2 1) fun k => { k with st := 2 }).failcode = 2 ∧
    (lk 9 (.equalisationDone 9 12) fun k => { k with st := 2 }).st = 6 ∧ (lk 2 (.negotiate 2 9 2 4 1 1 0) fun k => { k with st := 3, lanes := 4 }).failcode = 3 ∧
    (lk 2 (.negotiate 2 9 3 4 1 1 0x0820) fun k => { k with st := 3, lanes := 4 }).credits = [(0, 0x20), (1, 8), (2, 0), (3, 0)] := by decide
theorem test_times : (lk 2 (.timeFlitExchange 2 100 160 170 210) fun k => { upK k with credits := vlCredits }).latns = 50 := by decide
/-- A port beyond which no device is lower than this one. -/
def timing (f : Link → Link) : State :=
  linkOf 2 fun k => f { k with st := 4, lanes := 4, peerid := 2 ^ 64 - 1, beyond := 2 ^ 64 - 1, credits := vlCredits }
theorem test_follows (f : Link → Link) (h : ((timing f).link 2).beyond = 2 ^ 64 - 1) : (timing f).follows 2 = false := by
  have := Config.devid.isLt
  simp only [State.follows, h, Bool.and_eq_false_iff, decide_eq_false_iff_not]
  omega
theorem test_hyp_times : ((timing id).link 2).st = 4 ∧ ((timing id).link 2).peerid = 2 ^ 64 - 1 ∧ (timing id).hasLink 2 = true ∧ ((timing id).link 2).maySend 3 = true ∧
    ((linkOf 2 upK).link 2).maySend 3 = false := by decide

/-- A flit of type 3 in lane 2 with sequence number `seq` and a payload of eight bytes: those that take the CRC to zero, where
the zeros that follow keep it. -/
def flitHead (seq : Nat) : List Nat :=
  [8, 0, 0, 0, seq, 0, 0x23, 0] ++ if seq = 0 then [139, 220, 253, 152, 74, 218, 198, 254] else [110, 64, 177, 97, 70, 63, 81, 149]
def flit (seq : Nat) : List Nat := flitHead seq ++ List.replicate 240 0
/-- The check value of CRC-64/ECMA-182: the digits 1 to 9. -/
theorem test_crc : crc64 [0x31, 0x32, 0x33, 0x34, 0x35, 0x36, 0x37, 0x38, 0x39] = 0x6C40DF5F0B497347#64 := by decide +kernel
theorem test_crc_zeros (n : Nat) : (List.replicate n 0).foldl flitCrcByte 0 = 0 := by
  induction n with
  | zero => rfl
  | succ n ih => rw [List.replicate_succ, List.foldl_cons, show flitCrcByte 0 0 = 0 by decide, ih]
theorem test_flit_ok (seq : Nat) (h : (flitHead seq).foldl flitCrcByte 0 = 0) : crc64 ((flit seq).take 248) = 0 := by
  have l : (flitHead seq).length = 16 := by by_cases z : seq = 0 <;> simp [flitHead, z]
  have e : (flit seq).take 248 = flitHead seq ++ List.replicate 232 0 := by
    rw [flit, List.take_append, l, List.take_of_length_le (by omega), List.take_replicate]
    rfl
  rw [e, crc64, List.foldl_append, h, test_crc_zeros]
theorem test_hyp_flit : flitCrcOk (flit 0) = true ∧ flitCrcOk (flit 1) = true ∧ flitCrcOk [] = false ∧ flitType (flit 0) = 3 ∧ flitSeq (flit 0) = 0 ∧ flitSeq (flit 1) = 1 := by
  unfold flitCrcOk
  rw [test_flit_ok 0 (by decide +kernel), test_flit_ok 1 (by decide +kernel)]
  decide +kernel
theorem test_forward (s : State) (pay : List Nat) : s.forwardPort 2 3 pay = none := by
  unfold State.forwardPort
  cases Config.flitRoute pay <;> rfl
theorem test_flit : (lk 2 (.flitReceive 2 (flit 0) true) upK).received = [[2, 3, 139, 220, 253, 152, 74, 218, 198, 254]] ∧ (lk 2 (.flitReceive 2 (flit 1) true) upK).received = [] ∧
    (lk 2 (.flitReceive 2 (flit 0) false) upK).uncorr = 1 := by
  simp only [lk, after, exec, execFlitReceive, test_hyp_flit, test_forward]
  decide +kernel
theorem test_lanes : (lk 2 (.lanesLost 2 2) upK).st = 6 ∧ (lk 2 (.lanesLost 2 1) upK).failcode = 2 ∧ (lk 2 (.lanesLost 2 4) upK).st = 5 ∧ (lk 2 (.linkLost 2 9) upK).failcode = 9 ∧
    (lk 2 (.nak 2 0) upK).naks = 1 ∧ (lk 2 (.nak 2 0) fun k => { upK k with naks := 15 }).lanes = 3 ∧
    (lk 2 (.nak 2 0) fun k => { upK k with naks := 15, lanes := 2 }).failcode = 5 := by decide
/-- The value 1.0 in a reduce message's 48 bytes is built from its low word; port 1 leads to identifier 3. -/
def fab0 : State := { linkOf 2 upK with routes := [(3, 0x81)] }
def fabAt : Nat := 2 ^ 51 + 3 * 2 ^ 44 + 0x40
theorem test_hyp_reduce : isFabric fabAt = true ∧ fab0.route fabAt = 0x81 ∧ isFabric 0x40 = false := by decide
theorem test_reduce : ((after (.reduceMessage 2 fabAt (List.replicate 48 0)) fab0).link 1).reduces.map (·.dst) = [fabAt] ∧
    (after (.reduceMessage 2 0x40 (List.replicate 48 0)) fab0).mem = [] := by decide +kernel
/-- A store to another device at the head of a core's engine has landed there. -/
def far0 : State := { withCx { ctx0 with cnt := ⟨1, 0, 0, 0, 0⟩ } with links := [(2, upK Link.fresh)] }.modCore 0x200 fun k => { k with copies := [{ base0 0 0 0 8 with ack := some ([2], 0, 8) }] }
theorem test_hyp_ack : (far0.core 0x200).copies.length = 1 ∧ far0.ctx? 0 = some far0.cx ∧ far0.cx.cid = 0 := by decide +kernel
theorem test_ack : ((after (.ack 2 0x200) far0).core 0x200).copies = [] ∧ ((after (.ack 2 0x200) far0).ctx? 0).map (·.cnt.copy) = some 0 := by decide +kernel

/-! ## Bring-up, errors, attestation, host -/

def pcieUp : State := { st0 with links := [(12, Link.at 12 5)], cmap := [(0, 0x80)] }
def inRecovery (s : State) : State := { s with ras := { s.ras with recovery := true, booterr := 2 } }
theorem test_power_on : (after (.powerOn [1] 7) mem0).ras.held = true ∧ (after (.powerOn [3, 4] 7) mem0).ras.bootstage = 2 ∧ (after (.powerOn [] 7) mem0).ras.fwver = 7 ∧
    ((after (.powerOn [] 7) mem0).link 0).st = 1 ∧ ((after (.powerOn [] 7) mem0).link 12).st = 5 := by decide +kernel
theorem test_hyp_train : (after (.powerOn [6] 7) st0).ras.booterr = 6 ∧ ((after (.powerOn [6] 7) st0).link 12).st = 2 := by decide +kernel
theorem test_train : ((after (.pcieTrainRetry true 4) (after (.powerOn [6] 7) st0)).link 12).st = 6 ∧ ((after (.pcieTrainRetry true 3) (after (.powerOn [6] 7) st0)).link 12).st = 2 := by decide +kernel
theorem test_hyp_recover : (inRecovery st0).ras.recovery = true ∧ st0.ras.recovery = false := by decide
theorem test_hyp_errors : (0x1000 : Nat) < dramBytes st0.variant ∧ (1 : Nat) ∉ st0.poison ∧ st0.ctx? 0 = some ctx0 ∧ onDeck 0x200 = true ∧ pcieUp.partOfCluster (clusterOf 0) = some 0 ∧
    (pcieUp.part 0).pstate = 0 := by decide +kernel
theorem test_errors : (after (.uncorrectableError 0 0x200 0 0x1008) pcieUp).poison = [1] ∧ ((after (.uncorrectableError 0 0x200 0 0x1008) pcieUp).part 0).psnblk = 1 ∧
    (after (.uncorrectableError 1 0 0 0x1008) pcieUp).ecc = [0x201] ∧ ((after (.uncorrectableError 2 0x200 3 5) pcieUp).track 0x200 3).bad = [5] ∧
    ((after (.uncorrectableError 3 0 0 0) pcieUp).part 0).reason = 2 := by decide +kernel
theorem test_hyp_responder : pcieUp.ras.held = false ∧ (pcieUp.link 12).st = 5 ∧ (st0.link 12).st = 0 := by decide
theorem test_responder : (after .getVersion pcieUp).replies = [⟨4, [0x13]⟩] ∧ (after .getVersion st0).replies = [] ∧
    (after (.getMeasurements 5 []) pcieUp).replies = [⟨0x7F, [7, 0xE0]⟩] := by decide
theorem test_hyp_host : pcieUp.hostUp = true ∧ (pcieUp.modLink 12 fun k => { k with st := 7 }).hostUp = false ∧ pcieUp.ras.recovery = false ∧ (pcieUp.queue 0).part = 0 := by decide
theorem test_bar0 : (after (.bar0RegisterWrite 0 0x90004 4 500) pcieUp).power.plimit = 500 ∧ (after (.bar0RegisterWrite 0 0x90004 4 3000) (after (.bar0RegisterWrite 0 0x90004 4 500) pcieUp)).power.plimit = 3000 ∧
    (after (.bar0RegisterWrite 0 0x90004 4 499) pcieUp).power.plimit = 3000 ∧ (after (.bar0RegisterWrite 0 0x90004 4 3001) pcieUp).power.plimit = 3000 ∧
    (after (.bar0RegisterWrite 0 0xC0008 4 2) pcieUp).link 0 = Link.fresh ∧ ((after (.bar0RegisterWrite 0 0xC0C08 4 2) pcieUp).link 12).st = 0 ∧
    ((after (.bar0RegisterWrite 1 0x10010 4 5) pcieUp).queue 0).tail = ((after (.tail 0 5) pcieUp).queue 0).tail := by decide +kernel
/-- Memory as partition 0 maps it (from `withFetchWord`), seen by function 1. -/
def window0 : State := { pcieUp with parts := [(0, { Part.fresh with root := 0x10000 })], mem := placedMem [] [7] }
theorem test_hyp_window : window0.globalPlace 0 (2 ^ 40) .load = .ok 0x2000000 ∧ window0.globalPlace 0 (2 ^ 40 + 0x2000000) .load = .error 1 ∧
    window0.globalPlace 0 (2 ^ 40) .store = .ok 0x2000000 ∧ isFabric 0x2000000 = false := by decide +kernel
theorem test_hyp_reach : (window0.reach 0 (2 ^ 40) .load).2 = .ok 0x2000000 ∧ (window0.reach 0 (2 ^ 40 + 0x2000000) .load).2 = .error 1 ∧
    (window0.reach 0 (2 ^ 40) .store).2 = .ok 0x2000000 ∧ (window0.reach 0 (2 ^ 40 + 0x2000000) .store).2 = .error 1 ∧ window0.mem.wf = true := by decide +kernel
theorem test_window : (after (.hostBar2Access 1 0 false [] 1) window0).hostReads = [some [7]] ∧ (after (.hostBar2Access 1 0x2000000 false [] 1) window0).hostReads = [none] ∧
    (after (.hostBar2Access 1 0x2000000 true [9] 0) window0).aer = [1] ∧ (after (.hostBar2Access 1 0 true [9] 0) window0).homeByte 0x2000000 = 9 ∧ (after (.hostBar2Access 0 5 true [9] 0) (inRecovery pcieUp)).ras.staged = [(5, 9)] := by decide +kernel
theorem test_hyp_cluster_map : (0x83 : Nat) ≠ st0.cmap.getD 1 0 ∧ st0.cmap.getD 1 0 < 128 ∧ State.reset.clusterEmpty 1 = true ∧
    (∀ q, q < 16 → State.reset.serviceFree q = true) ∧ (1 : Nat) < clusterCount State.reset.variant := by decide
theorem test_cluster_map : (after (.clusterMapWrite 0 1 0x83) State.reset).partOfCluster 1 = some 3 ∧ (after (.clusterMapWrite 1 1 0x83) State.reset).cmap = [] := by decide +kernel

/-! ## Decoding, stepping, reset -/

theorem test_hyp_memory : State.reset.mem.wf = true ∧ (Instr.addi 4 ⟨4, false⟩ 100).wellFormed = true ∧ isEvent (.addi 4 ⟨4, false⟩ 100) = false := by decide
/-- `addi s4, s4, 5`, placed where the next step fetches it. -/
def placed0 : State := State.reset.withFetchWord 16 0b0001010010001010
theorem test_hyp_step : placed0.ras.held = false ∧ placed0.agenda = [.issue 0] ∧ (placed0.ctx? 0).map (fun c => (c.cid, c.pc.toNat, c.st.live, c.st.out, c.sup, c.c.budget)) =
      some (0, 2 ^ 40, true, false, false, 0xFFFFFFFF) ∧ (placed0.part 0).pstate = 0 ∧ placed0.bads = [] ∧ (placed0.cluster (clusterOf 0x200)).tlb = [] ∧
    placed0.globalPlace 0 (2 ^ 40) .fetch = .ok 0x2000000 ∧ natOfBytes (placed0.mem.bytes 0x2000000 2) = 0b0001010010001010 ∧
    decodeAt [0b0001010010001010] .none = .ok (.addi 4 ⟨4, false⟩ 5, 1) := by decide +kernel
theorem test_hyp_issue : placed0.ctxs.map (fun c => (c.drain.isSome, c.micro.isSome, c.wait.isSome, c.st.defer.length, c.pc == placed0.endSeq, placed0.passedOver c)) =
      [(false, false, false, 0, false, false)] ∧ placed0.late.getD 0 [] = [] ∧ placed0.walking = [] ∧ placed0.walkCache = [] ∧ isGlobal (2 ^ 40) = true ∧
    ((placed0.translation 0 0 (2 ^ 40)).toOption.bind fun p => (placed0.place 0 (2 ^ 40) .fetch p).toOption) = some 0x2000000 ∧
    land0.late = [] ∧ isEvent .getVersion = true := by decide +kernel
theorem test_step : (nextOr State.reset (step placed0)).cx.pc = 0x10000000002 ∧ (nextOr State.reset (step placed0)).cx.r.s.get? 4 =
    (placed0.cx.r.s.get? 4).map (· + 5) := by decide +kernel
theorem test_step_event : (nextOr st0 (step { pcieUp with agenda := [.event .getVersion] })).replies = [⟨4, [0x13]⟩] := by decide +kernel

/-! ## Assembly (the worked pairs, encodings and blocks of 02_assembly.md, 04_formats.md and 06_isa_scalar.md) -/

/-- A statement in a task with a tile and a track, without names. -/
def asmCx : Glas.Ctx := { env := fun _ => none, decl := some (1, 1) }
/-- The halfwords and the substitution halfword of a statement. -/
def asm (micro : Bool) (t : String) : Option (List Nat × Nat) := (Glas.assembleOne { asmCx with micro := micro } t.toList).toOption
/-- The error of a statement. -/
def asmErr (t : String) : Option Glas.Err :=
  match Glas.assembleOne asmCx t.toList with
  | .error e => some e
  | .ok _ => none

theorem test_glas_words : asm false "add s40, s9, s2" = some ([0xFB48, 0x0828], 0) ∧ asm false "addi s4, s4, 100" = some ([0xF806, 0x1488], 0) := by decide +kernel
theorem test_glas_slots : asm false "vadd.bf16.k3.zero v4, v2, v3" = some ([0xFC01, 0xFF70, 0xDC4C], 0) ∧
    asm false "fence.sys" = some ([0xFC60, 0xFF0F, 0x5000], 0) := by decide +kernel
/-- The record of line 7 of the worked microprogram: SD 1 and SA 1, both with parameter 0. -/
theorem test_glas_micro : (asm true "add %p0, %p0, s9!").map (·.2) = some 0x4800 ∧ asmErr "add %p0, s1, s2" = some .ePlace := by decide +kernel
theorem test_glas_errors : asmErr "add s3!, s1, s2" = some .eMark ∧ asmErr "vadd.k1.f32 v1, v2, v3" = some .eQorder ∧
    asmErr "st s1, [s2+3]" = some .eRange ∧ asmErr "ld s8, [s1+s2]" = some .eSyntax := by decide +kernel
theorem test_glas_convert : Glas.convert true "ld s8, [s1!+16]".toList = .ok "ld s8, [s1.last+16]".toList ∧
    Glas.convert false "vadd.f32.rne.nosat.k0.merge v7, v7.live, v1.last".toList = .ok "vadd v7, v7, v1!".toList := by decide +kernel
theorem test_glas_value : (Glas.valueOf (fun _ => none) "-7 / 2 << 1".toList) = .ok (-6) ∧ (Glas.valueOf (fun _ => none) "1 << (0-1)".toList) = .error .eExpr := by decide +kernel
theorem test_glas_sb4 : Glas.sb4Block (fun _ => none) ["e2m1".toList, "0".toList, "1.5".toList, "-1".toList, "0*30".toList] =
    .ok ([0x7F, 0xDC, 0xA3] ++ List.replicate 15 0) := by decide +kernel
/-- The worked task of 02_assembly.md, without its comments. -/
def sum2 : List String :=
  [".kernel sum2", ".param lhs, n64", ".param rhs, n64", ".param out, n64", ".task add_pair", ".regs s=16, v=0"]
    ++ ["ld s8, [s1+lhs]", "ld s9, [s1+rhs]", "add s10, s8!, s9!", "st s10!, [s1!+out]", "halt", ".endtask"]
theorem test_assemble : ((Glas.assemble (Glas.joinBy ['\n'] (sum2.map String.toList))).toOption.map fun o =>
    o.kernels.map fun k => ((k.bytes.drop 192).take 22, k.params.map (·.off))) =
    some [([0x40, 0xFA, 0x20, 0x78, 0x40, 0xFA, 0x00, 0xF8, 0x30, 0x79, 0x49, 0xFA, 0x07, 0x0A, 0x40, 0xFA, 0x01, 0xF8, 0x23, 0x82, 0x00, 0xF0], [0, 8, 16])] := by
  decide +kernel
/-- `v2` of the worked round trip of R170: 3, −1.5 and 0.4. -/
theorem test_quantise : (quantBlock false 15 ([0x40400000, 0xBFC00000, 0x3ECCCCCD].map decF32 ++ List.replicate 29 (.fin false 0 0))).1 =
    [0x7E, 0xCC, 0xD7, 0x02] ++ List.replicate 14 0 := by decide +kernel
theorem test_disassemble : Glas.disassemble false 0 [0xFA48, 0x0828, 0] = some ("add s8, s9, s2".toList, 2) := by decide +kernel

/-! ## The other clauses of the instructions -/

theorem test_brole_waits : (after (.mtc 11 (src 1)) cnt0).cx.wait = some (.classes 0 0 0 0 0) ∧ (after (.mtc 11 (src 1)) st0).cx.c.brole = 5 := by decide
theorem test_mtc_reasons : (after (.mtc 3 (src 3)) st0).cx.c.tinfo = 0x1000000000000303 ∧ (after (.mtc 3 (src 3)) (reg st0 3 12)).cx.c.tinfo = 0x1000000000000403 ∧
    (after (.mtc 17 (src 3)) (reg st0 3 4097)).cx.c.tinfo = 0x1000000000000411 ∧ (after (.mtc 17 (src 3)) (reg st0 3 8192)).cx.c.tinfo = 0x1000000000000311 := by decide
theorem test_mcall_cost : ((after (.mcall 1 2 3 4 5) micro0).core 0x200).owed = 1 := by decide
/-- A written word in the cache. -/
def written0 : State := after (.st (src 2) (src 3) 0) cache0
def placeIn (h : Option Nat) (k : Acc) (va : Nat) (s : State) : Option (Option Nat) := (locateIn h k va s).toOption.map (·.1.toOption)
theorem test_hyp_cache_lines : placeIn none .store 0x10000000100 cache0 = some (some 0x2000100) ∧ placeIn none .load 0x20000000000 cache0 = some none ∧
    placeIn (some 1) .load 0x10000000100 written0 = some (some 0x2000100) ∧ written0.room 1 = true ∧ cache0.cx.ways ≠ 0 ∧
    (written0.cx.l1.data.find? fun l => l.line = 0x40002).map (·.written.getLsbD 0) = some true := by decide
theorem test_cache_lines : ((after (.pref true (src 3) 0) cache0).cx.l1.data.head?.map fun l => (l.line, l.perm)) = some (0x40002, true) ∧
    ((after (.clwb (src 3)) written0).cx.l1.data.map fun l => (l.line, l.written)) = [(0x40002, 0)] ∧ (after (.clwb (src 3)) written0).home.get? 0x400020 = none ∧
    (written0.home.get? 0x400020).isSome = true ∧ (after (.clinv (src 3)) written0).cx.l1.data = [] := by decide
/-- Lanes 0 and 2 of an index vector are even, lane 1 is odd. -/
def odd0 : State := vreg st0 4 (2 ^ 32)
theorem test_misaligned_forms : cause (.stx .n32 (src 1) (src 3) 1) st0 = some 0x11 ∧ cause (.vst .i32 0 (src 1) (src 1) 0) st0 = some 0x11 ∧
    cause (.cas false .core 9 (src 1) (src 1) (src 2)) st0 = some 0x11 ∧ cause (.aggadd 0 false .core 1 (src 1) (src 2)) st0 = some 0x11 := by decide
theorem test_misaligned_lanes : (after (.vgath ⟨.i16, 0, false⟩ 1 (src 1) (src 3)) st0).cx.c.tpc = 0x10000000000 ∧
    (after (.vgath ⟨.i16, 0, false⟩ 1 (src 1) (src 3)) st0).cx.c.tinfo = 5 ∧ cause (.vscat .i16 0 (src 1) (src 3) (src 2)) st0 = some 0x11 := by decide +kernel
theorem test_faulted_store : ((after (.st (src 1) (src 3) 0) hole0).bads.get? 0).map (fun e => (e.opk, e.dkind, e.cause, natOfBytes e.data)) = some (1, 0, 1, 5) ∧
    (after (.st (src 1) (src 3) 0) hole0).cx.cnt.store = 1 := by decide
/-- 1.0 and -0.0 in v4 and v5; a NaN in v6. -/
def floats0 : State := vreg (vreg (vreg st0 4 0x3F800000) 5 0x80000000) 6 0x7F800001
theorem test_hyp_float_ops : (floats0.operandsV [src 4, src 5] 0 false 9).isSome = true ∧ (floats0.operandsVD [src 4, src 5] 0 5).isSome = true := by decide
theorem test_float_order : vout (.vmin ⟨.f32, 0, false⟩ 9 (src 4) (src 5)) floats0 9 32 0 = some 0x80000000 ∧ vout (.vmax ⟨.f32, 0, false⟩ 9 (src 4) (src 5)) floats0 9 32 0 = some 0x3F800000 ∧
    vout (.vmax ⟨.f32, 0, false⟩ 9 (src 3) (src 5)) floats0 9 32 0 = some 0 ∧ vout (.vabs f32 9 (src 5)) floats0 9 32 0 = some 0 := by decide +kernel
theorem test_float_nan : vout (.vmin ⟨.f32, 0, false⟩ 9 (src 4) (src 6)) floats0 9 32 0 = some 0x7FC00000 ∧ vout (.vneg f32 9 (src 4)) floats0 9 32 0 = some 0xBF800000 ∧
    (after (.vneg f32 9 (src 6)) floats0).cx.c.fflags = 1 ∧ vout (.vfma f32 4 (src 4) (src 4) none) floats0 4 32 0 = some 0x40000000 := by decide +kernel
/-- Lists with a NaN, with both infinities, with one, and with neither: 1 and 2; -0 and -0; 1 and -1. -/
theorem test_float_sums : sumElems f32 0 [0x3F800000, 0x7F800001] = (0x7FC00000, fNV) ∧ sumElems f32 0 [0x7F800000, 0xFF800000] = (0x7FC00000, fNV) ∧
    sumElems f32 0 [0x3F800000, 0xFF800000] = (0xFF800000, 0) ∧ sumElems f32 0 [0x3F800000, 0x40000000] = (0x40400000, 0) ∧
    sumElems f32 0 [0x80000000, 0x80000000] = (0x80000000, 0) ∧ sumElems f32 0 [0x3F800000, 0xBF800000] = (0, 0) := by decide +kernel
theorem test_greatest : greatest .f32 [0x80000000, 0, 0xBF800000] = (0, 0) ∧ (greatest .f32 [0, 0x7FC00000]).1 = 0x7FC00000 ∧ greatest .i8 [0x80, 0x7F] = (0x7F, 0) ∧
    sumElems ⟨.i8, .rne, true, 0, false⟩ 0 [0x7F, 0x7F] = (0x7F, 0) ∧ sumElems ⟨.i8, .rne, false, 0, false⟩ 0 [0x7F, 0x7F] = (0xFE, 0) := by decide +kernel
/-- An atomic of `.sys` scope beside earlier accesses; one `cas` and one `aggadd` on their way. -/
theorem test_hyp_atomic_forms : vals (dram0.operands [src 3, src 1, src 2]) = some [0x10000000100, 5, 7] ∧ cnt0.cx.cnt.load ≠ 0 ∧ dram0.cx.cnt.store = 0 ∧
    located .atomic 0x10000000100 (dram0.cleanAll false) = some (some 0x2000100) ∧ dram0.roomV 3 = true ∧ (dram0.readsOld 1 false 3).isSome = true ∧
    dram0.openWay 0 (stackOf 0x2000100) = true ∧ (dram0.request 0 (stackOf 0x2000100)).isSome = true ∧ coreStack 0x200 = 0 := by decide +kernel
theorem test_atomic_forms : (after (.amo .add false .sys 9 (src 3) (src 2)) { cnt0 with parts := dram0.parts }).cx.wait = some (.classes 0 0 7 7 7) ∧
    ((after (.amo .add false .sys 0 (src 3) (src 2)) dram0).atoms.map fun e => (e.2.sys, e.2.d)) = [(true, 0)] ∧
    ((after (.cas true .core 9 (src 3) (src 1) (src 2)) dram0).atoms.map fun e => (e.2.op, e.2.wide, e.2.b, e.2.c)) = [(10, 32, 5, 7)] ∧
    ((after (.aggadd 1 false .core 3 (src 3) (src 2)) dram0).atoms.map fun e => (e.2.op, e.2.k)) = [(11, 1)] := by decide +kernel
def aggFly : State := after (.aggadd 0 false .core 3 (src 3) (src 2)) dram0
theorem test_aggadd_home : vout (.atomicAtHome 0) aggFly 3 32 1 = some 3 ∧ memory (.atomicAtHome 0) aggFly 0x2000100 4 = 4 ∧ aggFly.cx.r.vFly.get? 3 = some 0 ∧
    (after (.atomicAtHome 0) aggFly).cx.r.vFly = [] := by decide +kernel
/-- An arrival that releases since a fence; a fence beside a store, and beside a fault not yet posted. -/
def fencedBar : State := bar0.onCx fun c => { c with st := { c.st with fenced := true }, cnt := ⟨0, 1, 0, 0, 0⟩ }
def faultedS (s : State) : State := { s with bads := [(7, { bad0 with posted := none, opk := 1, dkind := 0 })] }
theorem test_hyp_fences : (faultedS st0).placed = false ∧ st0.placed = true ∧ (faultedS st0).cx.cnt.store = 0 ∧ fencedBar.holdsKeys fencedBar.cx = false ∧
    (bars fencedBar).defd = true := by decide +kernel
theorem test_fences : (after (.fence .pkg .rel) cnt0).cx.wait = some (.classes 7 0 7 7 7) ∧ (after (.fence .pkg .rel) (faultedS st0)).cx.wait = some .faults ∧
    (after (.fence .sys .sc) st0).cx.st.fenced = true ∧ (after (.bararr false 9 3 (src 1)) fencedBar).cx.wait = some (.classes 7 0 7 7 7) ∧
    (after (.bararr false 9 3 (src 1)) (faultedS (fencedBar.onCx fun c => { c with cnt := ⟨0, 0, 0, 0, 0⟩ }))).cx.wait = some .faults := by decide +kernel
/-- The context has made its arrival at a phase that is over, and at one that is not. -/
def arrivedAt (ph : Nat) : State := bar0.onCx fun c => { c with st := { c.st with arrived := [⟨false, 0x10000000000, none, 3, ph⟩] } }
theorem test_arrived : ((arrivedAt 4).cx.madeArrival 3).isSome = true ∧ (after (.bar false 3 (src 1)) (arrivedAt 4)).cx.pc = 0x10000000002 ∧
    (after (.bar false 3 (src 1)) (arrivedAt 5)).cx.wait = some (.barrier 3 5 none) := by decide +kernel

/-- Entries of a vector register, of `s0`, of a store that faults again, of an atomic; an access of two entries found late. -/
def rrV : State :=
  { rrOf fun b => { b with dkind := 2, dreg := 3, lmask := 2 } with
    others := [(1, { ctx0 with id := { ctx0.id with serial := 1 }, r := { ctx0.r with vPend := [(3, [0])] } })] }
def rrZero : State := rrOf fun b => { b with dreg := 0 }
def refault : State := rrOf fun b => { b with dkind := 0, opk := 1, addr := 0x10000000000, data := [7], lmask := 1 }
def atomF : Atom := { cid := 1, op := 0, wide := 32, ea := 0x100, key := 0, b := 7, c := 0, vb := 0, k := 0, zero := false, old := 0, d := 9, sys := false }
def rrAtom (a : Word) : State := rrOf fun b => { b with opk := 2, addr := a, atom := some atomF }
def late2x : State := { late0 with bads := [(0, { bad0 with posted := none, access := some 4 }), (1, { bad0 with posted := none, access := some 4 })] }
theorem test_hyp_rpw_kinds : (rrV.entryNow 0 0).map (·.2.dkind) = some 2 ∧ ((rrV.ctx? 1).map fun c => (c.r.vPend.getD 3 []).contains 0) = some true ∧
    (rrZero.entryNow 0 0).map (·.2.dreg) = some 0 ∧ (refault.entryNow 0 0).map (·.2.opk) = some 1 ∧ ((rrAtom 0x100).entryNow 0 0).map (·.2.opk) = some 2 ∧
    ({ bad0 with posted := none, access := some 4 } : Bad).cls = some 0 := by decide +kernel
theorem test_hyp_retries : (let w := refault.gotS 9 0; match w.storeHeld ((w.ctx? 1).getD w.cx) { bad0 with cid := 1, dkind := 0, opk := 1, addr := 0x10000000000, data := [7], lmask := 1 } with
      | .error e => decide (e.1 = 1) && e.2.roomS 9 | .ok _ => false) = true ∧
    ((rrAtom 0x100).atomHeld peer 0 { bad0 with cid := 1, opk := 2, addr := 0x100 } atomF).toOption.isSome = true ∧
    (match (rrAtom 0x10000000000).atomHeld peer 0 { bad0 with cid := 1, opk := 2, addr := 0x10000000000 } atomF with | .error e => decide (e.1 = 1) | .ok _ => false) = true := by
  decide +kernel
theorem test_rpw_kinds : ((after (.rpwV 9 (src 1) (src 2)) (vreg rrV 2 0x10203)).ctx? 1).map (fun c => c.r.v.get? 3) = some (some 0x200) ∧
    ((after (.rpwS 9 (src 1) (src 2)) fetch0).part 0).pstate = 4 ∧ ((after (.rpwKill 9 (src 1)) rrV).ctx? 1).map (·.r.vPoison.get? 3) = some (some 0) ∧
    ((after (.rpwKill 9 (src 1)) rrZero).ctx? 1).map (fun c => c.st.defer.map (·.code)) = some [0x13] := by decide +kernel
theorem test_retries : out (.rpwDone 9 (src 1)) refault 9 = some 1 ∧ ((after (.rpwDone 9 (src 1)) refault).part 0).resolved = 0 ∧ (after (.rpwDone 9 (src 1)) (rrAtom 0x100)).bads = [] ∧
    out (.rpwDone 9 (src 1)) (rrAtom 0x10000000000) 9 = some 1 := by decide +kernel
theorem test_post_first : ((after (.deadLetterPost 0) late2x).part 0).posts = 1 ∧ (after (.deadLetterPost 0) late2x).cx.cnt.load = 1 ∧
    (after (.deadLetterPost 1) (after (.deadLetterPost 0) late2x)).cx.cnt.load = 0 := by decide +kernel

/-! ## The other clauses of the units -/

def stopping : State := { land0 with parts := [(0, { Part.fresh with pstate := 4 })] }
theorem test_hyp_land_stopping : (land0.part 0).pstate = 0 ∧ (stopping.part 0).pstate = 4 ∧ memory (.copyLand 0x200) stopping (bk 0x100) 8 = 0x0102030405060708 ∧
    ((after (.copyLand 0x200) { land0 with parts := [(0, { Part.fresh with pstate := 1 })] }).core 0x200).copies.length = 1 := by decide +kernel
theorem test_hyp_crossings : ∀ z ∈ [msgIn id, overflow, nobody, arrive false st0, arrive true bar0], (z.request 0 0).isSome = true := by decide +kernel
/-- Both dispatchers of the stack have picked nothing for 3 cycles, and one has. -/
def lastKey (n : Nat) : State := { pick0 with keytab := [(slot3, ⟨[], some 9, none⟩)], krels := [(0, (9, slot3))], parts := [(0, { Part.fresh with idle := n })] }
theorem test_key_pick : ((after (.keyReleaseArrival 0) (lastKey 4)).keySlot slot3).excl = some 2 ∧ ((after (.keyReleaseArrival 0) (lastKey 3)).keySlot slot3) = KeySlot.free ∧
    ((lastKey 4).serviceCluster 0) / 96 = slot3 / 65536 := by decide +kernel
theorem test_hyp_unsound : pte0.sound 0 0x1000000 = true ∧ ({ pte0 with frame := 2 ^ 50 } : Pte).sound 0 0x1000000 = false ∧
    ((newWindow false ⟨0x10000000000, 0x10000010000, 1⟩ win0).toOption.map fun e => (decide (e.2.expanded = []), e.1.spares.all fun p => !p.cmp)) = some (true, true) := by
  decide +kernel
theorem test_walks : (after (.tlbWalkComplete 0 0x1000000) { walk0 with walking := [⟨0, 0, 0x1000000, some { pte0 with frame := 2 ^ 50 }, 0⟩] }).clusters = [] ∧
    (after (.tlbinvPage (src 1)) { tlb0 with walking := [⟨0, 0, 0x1000001, some pte0, 0⟩] }).walking = [] := by decide +kernel
/-- The track of a stream, or of a seek, turns suspect. -/
def lostStream : State := (stream0 false).modTrack 0x200 2 fun t => { t with suspect := true }
theorem test_hyp_lost : (lostStream.track 0x200 2).lost = true ∧ (lostStream.streamHolds 0x200 2).map (·.cid) = some 0 ∧ ((seek1.modTrack 0x200 2 fun t => { t with suspect := true }).cx.head 0).pv = true := by
  decide +kernel
theorem test_lost : (((after (.headStreamWord 0x200 2) lostStream).core 0x200).streams) = [] ∧ (after (.headStreamWord 0x200 2) lostStream).cx.st.defer.map (·.code) = [9] ∧
    (after (.seekComplete 0 0) (seek1.modTrack 0x200 2 fun t => { t with suspect := true })).cx.cnt = seek1.cx.cnt := by decide +kernel
theorem test_realign_direction : ((after (.hrealign 0) slip1).cx.head 0).bwd = false ∧ ((after (.hrealign 0) (headOf fun t => { t with off := 1, slip := 1 })).cx.head 0).bwd = true := by decide +kernel
/-- The kernel is in FAULTING. -/
def faulting0 : State := { end0 with kernels := [(1, { kern1 with st := 3 })] }
theorem test_faulting : ((after .yield faulting0).kernels.get? 1).map (fun u => (u.st, u.killed)) = some (3, 1) ∧ (after .yield faulting0).ctx? 0 = none ∧
    ((after (.instanceStart 2) { start0 with kernels := [(1, { dkern with st := 3 })] }).insts.get? 2).map (·.st) = some 2 := by decide +kernel
theorem test_loads_once : memory (.trackdataLoad 2) { load0 with insts := load0.insts ++ [(3, { queued2 with loaded := true })] } (trackKey 0x200 2 5 0) 4 = 0 ∧
    ((after (.trackdataLoad 2) { load0 with insts := load0.insts ++ [(3, { queued2 with loaded := true })] }).insts.get? 2).map (·.loaded) = some true ∧
    load0.commonTrack 0x200 0 0 = none := by decide +kernel

/-- A request behind another of its context and cluster; a `pwake` that waits for its cluster. -/
def behind0 : State := { gateIn 1 0 with gates := [(2, ⟨0, 0, 0, 0, 8, none⟩), (4, ⟨0, 0, 0, 1, 9, none⟩)] }
def wakes4 : State := { waking with cx := { waking.cx with r := { waking.cx.r with sFly := [(9, 4)] } }, gates := [(4, ⟨0, 0, 0, 4, 9, some 2⟩)] }
theorem test_hyp_gate_order : (gate0 2).wakeOf 0 0 = none ∧ (∃ e ∈ behind0.gates, e.1 < 4 ∧ e.2.cid = 0 ∧ e.2.cl = 0 ∧ e.2.sampled = none) ∧
    (wakes4.ctx? 0).map (·.r.sFly.get? 9) = some (some 4) ∧ (∀ e ∈ quietG.insts, e.2.st = 2 → ∀ k ∈ e.2.cores, k ∉ deckCores 0) := by decide
theorem test_gate_order : (after (.gateRequestArrival 4) behind0).gates.length = 2 ∧ out (.gateRequestArrival 4) (gateIn 4 0) 9 = some 0x20000 ∧
    ((after (.gateRequestArrival 4) (gateIn 4 2)).gates.get? 4).bind (·.sampled) = some 0x20002 ∧ ((after (.gateRequestArrival 4) (gateIn 4 2)).cluster 0).gate = 3 ∧
    out (.clusterWakeReady 0) wakes4 9 = some 2 ∧ (after (.clusterWakeReady 0) wakes4).gates = [] := by decide
theorem test_gate_reserved : ((after (.clusterOff 0) { quietG with insts := [(2, queued2)] }).cluster 0).gate = 1 ∧ ((gate0 0).cluster 0).gate ≤ 1 ∧
    ((after (.pwake 9 (src 3)) (gate0 0)).gates.get? 0).map (·.kind) = some 4 ∧ (after (.pwake 9 (src 3)) (gate0 0)).cx.wait = none := by decide
/-- A command before the one in error has failed as well, with code 6; the tail is bad; the command that comes next has failed. -/
def failedQ : State := queueOf fun u => { u with st := 5, tail := 2, fetch := 2, errIdx := 1, cmds := [(0, { cmdOf 255 0 with sub := 6 }), (1, { cmdOf 255 0 with sub := 4 })] }
def badTail : State := queueOf fun u => { u with st := 5, tail := 40 }
def failedHead : State := queueOf fun u => { u with st := 2, tail := 2, fetch := 0, cmds := [(0, { cmdOf 255 0 with sub := 6 })] }
theorem test_hyp_failed : (failedQ.queue 3).cmds.erase 1 = [(0, { cmdOf 255 0 with sub := 6 })] ∧ (failedQ.queue 3).slots = [] ∧ (badTail.queue 3).cmds = [] ∧
    failedHead.hostUp = true ∧ (failedHead.queue 3).cmds.get? 0 = some { cmdOf 255 0 with sub := 6 } := by decide
theorem test_failed : ((after (.queueResume 3) failedQ).queue 3).errIdx = 0 ∧ ((after (.queueResume 3) failedQ).queue 3).errCode = 6 ∧
    ((after (.queueResumeSkip 3) badTail).queue 3).done = 1 ∧ ((after (.queueResumeSkip 3) badTail).queue 3).errIdx = 1 ∧
    ((after (.queueResumeSkip 3) badTail).queue 3).errCode = 3 ∧ ((after (.copy 3) failedHead).queue 3).errCode = 6 := by decide

/-- A route leads the payload to port 1 as far as the fabric says. -/
theorem test_hyp_forward (r : Nat) (h : Config.flitRoute [1] = some r) (t : r % 128 = 3) : fab0.forwardPort 2 1 [1] = some 1 := by
  unfold State.forwardPort
  rw [h]
  simp only [t]
  decide
/-- A landed write awaits the acknowledgement of two ports. -/
def far2 : State := far0.modCore 0x200 fun k => { k with copies := [{ base0 0 0 0 8 with ack := some ([2, 5], 4, 8) }] }
theorem test_ack_two : ((after (.ack 2 0x200) far2).core 0x200).copies.map (·.ack) = [some ([5], 4, 8)] ∧
    ((after (.ack 2 0x200) (far0.modCore 0x200 fun k => { k with copies := [{ base0 0 0 0 8 with ack := some ([2], 4, 8) }] })).ctx? 0).map (·.c.fflags) = some 4 := by decide +kernel
theorem test_rates : (lk 12 (.equalisationDone 12 16) fun k => { k with st := 2, rate := 64 }).st = 6 ∧ (lk 12 (.equalisationDone 12 16) fun k => { k with st := 2 }).st = 5 ∧
    (lk 12 (.retrain 0 12) fun k => { k with st := 5 }).st = 2 := by decide
/-- A context whose save area has an uncorrectable error; a corrected error. -/
def saved0 : State := st0.onCx fun c => { c with st := { c.st with out := true } }
theorem test_save_area : ((after (.uncorrectableError 4 0x200 0 0) saved0).bads.map fun e => (e.2.cid, e.2.cause)) = [(0, 5)] ∧
    (nextOr st0 (step { pcieUp with agenda := [.eccCorrected] })).ras.cecnt = 1 := by decide +kernel
theorem test_certificate : (after (.getCertificate 0 8 0) pcieUp).replies = [⟨2, [0, 8]⟩] ∧ (after .getCapabilities pcieUp).replies = [⟨0x61, [0x16]⟩] := by decide
theorem test_hyp_placed : placed0.forms = [] ∧ placed0.openWay (coreStack 0x200) (stackOf 0x2000000) = true := by decide

end Sys2Proof.Tests
end

section
/-! The part after reset (O59); the guards with which privileged instructions and those of absent units begin (O14). -/
namespace Sys2Proof.Machine

/-! ## The part after reset -/

theorem State.core_reset (c : Nat) : State.reset.core c = Core.fresh := rfl
theorem State.cluster_reset (cl : Nat) : State.reset.cluster cl = Cluster.fresh := rfl
theorem State.part_reset (p : Nat) : State.reset.part p = Part.fresh := rfl
theorem State.cmap_reset (cl : Nat) : State.reset.cmap.getD cl 0 = 0 := rfl
theorem State.queue_reset (q : Nat) : State.reset.queue q = Queue.fresh := rfl

/-- Settles O59: every table of the reset state is empty, so each entry reads as its default record. -/
theorem resetState : Obligations.ResetState := by
  unfold Obligations.ResetState
  refine ⟨rfl, rfl, fun cl => ?_, fun q => ?_, fun c q n => ?_, fun cl n => ?_, fun p => ?_, rfl, rfl, rfl⟩
  · simp [State.partOfCluster, State.cmap_reset]
  · rw [State.queue_reset]; rfl
  · rw [State.core_reset]; exact ⟨rfl, rfl⟩
  · rw [State.barrier, State.cluster_reset]; exact ⟨rfl, rfl, rfl⟩
  · rw [State.part_reset]; exact ⟨rfl, rfl, rfl⟩

/-! ## Guards that trap -/

variable {α : Type} {s : State}

/-- An instruction whose first part traps leaves the state to the trap alone. -/
theorem run_bind_of_trap {m : M α} {f : α → M Unit} {c : Nat} {x : Word} (h : m s = .error (.trap c x)) :
    run (m >>= f) s = .next (takeTrap s c x) :=
  run_of_trap (M.bind_of_error h)

theorem needDeck_of_memoryCore {p : Nat} {i : Instr} (h : onDeck s.cx.id.core = false) :
    needDeck p i s = .error (.trap cUNITABSENT (opInfo p i)) := by
  unfold needDeck; simp [h]

theorem needMx_of_memoryCore {i : Instr} (h : onDeck s.cx.id.core = false) :
    needMx i s = .error (.trap cUNITABSENT (opInfo 6 i)) :=
  M.bind_of_error (needDeck_of_memoryCore h)

theorem needRun_of_memoryCore {i : Instr} (h : onDeck s.cx.id.core = false) :
    needRun i s = .error (.trap cUNITABSENT (opInfo 6 i)) :=
  M.bind_of_error (needDeck_of_memoryCore h)

theorem needHead_of_memoryCore {i : Instr} {n : Nat} (hd : s.cx.drain = none) (h : onDeck s.cx.id.core = false) :
    needHead i n s = .error (.trap cUNITABSENT (opInfo 9 i)) := by
  unfold needHead
  rw [M.bind_of_ok (notInDrain_of hd)]
  exact M.bind_of_error (needDeck_of_memoryCore h)

theorem rpwChecks_of_user {i : Instr} (hd : s.cx.drain = none) (h : s.cx.sup = false) :
    rpwChecks i s = .error (.trap cPRIV (opInfo 2 i)) :=
  (M.bind_of_ok (notInDrain_of hd)).trans (needSup_of_user h)

/-- The guards of a privileged instruction that may stand in the drain slot alone, at user level. -/
theorem run_drainGuard_of_user {p : Nat} {i : Instr} {f : Unit → M Unit} (hd : s.cx.drain = none) (h : s.cx.sup = false) :
    run (do notInDrain; let u ← needSup p i; f u) s = .next (takeTrap s cPRIV (opWord p i)) :=
  run_of_trap ((M.bind_of_ok (notInDrain_of hd)).trans (M.bind_of_error (needSup_of_user h)))

/-- The same where the instruction is refused inside a microprogram too. -/
theorem run_plainGuard_of_user {p : Nat} {i : Instr} {f : Unit → M Unit} (hp : s.plain = true) (h : s.cx.sup = false) :
    run (do notInMicro; notInDrain; let u ← needSup p i; f u) s = .next (takeTrap s cPRIV (opWord p i)) := by
  obtain ⟨hm, hd⟩ := State.plain_iff.mp hp
  exact run_of_trap ((M.bind_of_ok (notInMicro_of_plain hm)).trans
    ((M.bind_of_ok (notInDrain_of hd)).trans (M.bind_of_error (needSup_of_user h))))

/-- Settles O14: each of these instructions begins with the guards above, and its first failing guard is the one of
privilege, or of the unit. -/
theorem privilegeAndAbsentUnits : Obligations.PrivilegeAndAbsentUnits := by
  unfold Obligations.PrivilegeAndAbsentUnits
  constructor
  · intro s d n a b hs hp
    have hd := (State.plain_iff.mp hp).2
    simp only [List.forall_mem_cons]
    exact ⟨run_plainGuard_of_user hp hs, run_plainGuard_of_user hp hs, run_plainGuard_of_user hp hs,
      run_bind_of_trap (rpwChecks_of_user hd hs), run_bind_of_trap (rpwChecks_of_user hd hs),
      run_bind_of_trap (rpwChecks_of_user hd hs), run_bind_of_trap (rpwChecks_of_user hd hs),
      run_plainGuard_of_user hp hs, run_drainGuard_of_user hd hs, run_drainGuard_of_user hd hs, by simp⟩
  · intro s d n h q keep drop fmt mop dir a b c hc hd
    have mx {i : Instr} {f : Unit → M Unit} : run (needMx i >>= f) s = .next (takeTrap s cUNITABSENT (opWord 6 i)) :=
      run_bind_of_trap (needMx_of_memoryCore hc)
    have drain {i : Instr} {f : Drain → M Unit} : run (needRun i >>= f) s = .next (takeTrap s cUNITABSENT (opWord 6 i)) :=
      run_bind_of_trap (needRun_of_memoryCore hc)
    have head {i : Instr} {n : Nat} {f : Nat → M Unit} :
        run (needHead i n >>= f) s = .next (takeTrap s cUNITABSENT (opWord 9 i)) :=
      run_bind_of_trap (needHead_of_memoryCore (State.notDrain_iff.mp hd) hc)
    simp only [List.forall_mem_cons]
    exact ⟨mx, mx, mx, mx, mx, mx, mx, mx, drain, drain, drain, mx, mx, mx,
      head, head, head, head, head, head, head, head, head, head, head, head, by simp⟩

end Sys2Proof.Machine
end

section
/-! What the host writes (O55): first the registers behind BAR0, from the address of an access to the operation of its register;
then the byte of an access over BAR2 at its home; then what an accepted write of the cluster map leaves. -/
namespace Sys2Proof

/-- The bytes of a number, put together again. -/
theorem sum_bytes (v : Nat) : ∀ n, (List.range n).foldl (fun x i => x + v / 256 ^ i % 256 * 256 ^ i) 0 = v % 256 ^ n
  | 0 => by simp [Nat.mod_one]
  | n + 1 => by
    rw [List.range_succ, List.foldl_concat, sum_bytes v n, Nat.mod_pow_succ, Nat.mul_comm (256 ^ n)]

/-- Addresses of which no cell is listed read as unlisted. -/
theorem Memory.read_of_not_listed {n : Nat} : ∀ {m : Memory}, (∀ e ∈ m, e.1 ≠ n) → m.read n = Memory.unlisted
  | [], _ => rfl
  | (k, y) :: t, h => by
    have hk : n ≠ k := (h (k, y) List.mem_cons_self).symm
    simp only [Memory.read, if_neg hk, Memory.read_of_not_listed (m := t) fun e he => h e (List.mem_cons_of_mem _ he), ite_self]

namespace Machine
variable {s : State}

/-! ## A write access and the registers of its block -/

/-- An access that covers a register exactly gives it the value written. -/
theorem mergeReg_whole {off rs v : Nat} (cur : Nat) (h : v < 256 ^ rs) : mergeReg off rs v off rs cur = v := by
  have hb : ∀ i ∈ List.range rs, ∀ x,
      x + (if off ≤ off + i && off + i < off + rs then v / 256 ^ (off + i - off) % 256 else cur / 256 ^ i % 256) * 256 ^ i =
        x + v / 256 ^ i % 256 * 256 ^ i := by
    intro i hi x
    have : i < rs := List.mem_range.mp hi
    simp [this]
  unfold mergeReg
  rw [List.foldl_ext _ _ _ fun x i hi => hb i hi x, sum_bytes, Nat.mod_eq_of_lt h]

theorem Wr.reg_whole {off rs v cur : Nat} {ok : Nat → Bool} {f : Nat → State → State} (h : v < 256 ^ rs) (h0 : 0 < rs) :
    (Wr.mk off rs v).reg off rs cur ok f s = if ok v then f v s else s := by
  simp [Wr.reg, touches, h0, mergeReg_whole cur h]

theorem Wr.reg_apart {a n v off rs cur : Nat} {ok : Nat → Bool} {f : Nat → State → State}
    (h : off + rs ≤ a ∨ a + n ≤ off) : (Wr.mk a n v).reg off rs cur ok f s = s := by
  have : touches a n off rs = false := by simp [touches]; omega
  simp [Wr.reg, this]

/-! ## From an address of BAR0 to its block -/

theorem within_true {lo hi x : Nat} (h1 : lo ≤ x) (h2 : x ≤ hi) : within lo hi x = true := by
  simp [within, h1, h2]
theorem within_false {lo hi x : Nat} (h : x < lo ∨ hi < x) : within lo hi x = false := by
  simp [within]; omega

/-- A well-formed write outside RECOVER, the part not in recovery mode. -/
theorem exec_bar0RegisterWrite {fn addr size v : Nat} (hup : s.hostUp = true) (hr : s.ras.recovery = false)
    (hs : size = 4 ∨ size = 8) (ha : addr % size = 0) (hfn : fn < 17) (hv : v < 2 ^ (8 * size))
    (hfar : addr + size ≤ 0xA0028 ∨ 0xA002C ≤ addr) :
    exec (.bar0RegisterWrite fn addr size v) s = .next (s.writeBar0 fn addr size v) := by
  have hfar' : touches addr size 0xA0028 4 = false := by simp [touches]; omega
  show execBar0RegisterWrite fn addr size v s = _
  have hok : (!s.hostUp || !(size = 1 || size = 2 || size = 4 || size = 8) || addr % size != 0 || decide (17 ≤ fn) ||
      decide (2 ^ (8 * size) ≤ v)) = false := by
    simp [hup, ha]; omega
  simp only [execBar0RegisterWrite, hok, hfar', hr, Bool.false_eq_true, if_false]

theorem writeBar0_queue {fn q r n v : Nat} (hq : q < 64) (hr : r < 64) :
    s.writeBar0 fn (0x10000 + 64 * q + r) n v = s.writeQueue fn q ⟨r, n, v⟩ := by
  have h1 : (0x10000 + 64 * q + r - 0x10000) / 64 = q := by omega
  have h2 : (0x10000 + 64 * q + r - 0x10000) % 64 = r := by omega
  simp (disch := omega) only [State.writeBar0, within_false, within_true, Bool.false_eq_true, if_false, if_true, h1, h2]

theorem writeBar0_control {fn p r n v : Nat} (hp : p < 16) (hr : r < 256) :
    s.writeBar0 fn (0x70000 + 256 * p + r) n v = s.writeControl fn p ⟨r, n, v⟩ := by
  have h1 : (0x70000 + 256 * p + r - 0x70000) / 256 = p := by omega
  have h2 : (0x70000 + 256 * p + r - 0x70000) % 256 = r := by omega
  simp (disch := omega) only [State.writeBar0, within_false, within_true, Bool.false_eq_true, if_false, if_true, h1, h2]

theorem writeBar0_power {fn r n v : Nat} (hr : r < 32) : s.writeBar0 fn (0x90000 + r) n v = s.writePower fn ⟨r, n, v⟩ := by
  have h1 : (0x90000 + r - 0x90000) % 256 = r := by omega
  simp (disch := omega) only [State.writeBar0, within_false, within_true, Bool.false_eq_true, if_false, if_true, h1]

theorem writeBar0_link {fn l v : Nat} (hl : l < 13) (hv : v < 2 ^ 32) :
    s.writeBar0 fn (0xC0008 + 256 * l) 4 v = s.linkControl fn l v := by
  have h1 : (0xC0008 + 256 * l - 0xC0000) / 256 = l := by omega
  have h2 : (0xC0008 + 256 * l - 0xC0000) % 256 = 8 := by omega
  simp (disch := omega) only [State.writeBar0, within_false, within_true, Bool.false_eq_true, if_false, if_true, h1, h2]
  rw [Wr.reg_whole hv (by omega)]
  rfl

/-! ## The registers -/

/-- TAIL is written by the physical function, or by that of the queue's partition. -/
theorem writeQueue_tail {fn q v : Nat} (ho : fn = 0 ∨ fn = (s.queue q).part + 1) (hv : v < 2 ^ 32) :
    s.writeQueue fn q ⟨0x10, 4, v⟩ = nextOr s (execTail q v s) := by
  have hmine : (fn != 0 && fn != (s.queue q).part + 1) = false := by simp; omega
  simp only [State.writeQueue, hmine]
  simp (disch := decide) only [Wr.reg_apart]
  rw [Wr.reg_whole hv (by omega)]
  rfl

theorem writeQueue_control {fn q v : Nat} (ho : fn = 0 ∨ fn = (s.queue q).part + 1) (hv : v < 8) :
    s.writeQueue fn q ⟨0x28, 8, v⟩ = s.queueControl q v := by
  have hmine : (fn != 0 && fn != (s.queue q).part + 1) = false := by simp; omega
  simp only [State.writeQueue, hmine]
  simp (disch := decide) only [Wr.reg_apart]
  rw [Wr.reg_whole (by omega) (by omega)]
  simp [hv]

theorem writeQueue_foreign {fn q : Nat} (w : Wr) (h0 : fn ≠ 0) (h1 : fn ≠ (s.queue q).part + 1) :
    s.writeQueue fn q w = s := by
  simp [State.writeQueue, h0, h1]

theorem writeControl_command {p v : Nat} (hv : v < 2 ^ 32) : s.writeControl 0 p ⟨0, 4, v⟩ = s.partCommand 0 p v := by
  simp only [State.writeControl]
  simp (disch := decide) only [Wr.reg_apart]
  rw [Wr.reg_whole hv (by omega)]
  rfl

theorem writePower_plimit {v : Nat} (hv : v < 2 ^ 32) : s.writePower 0 ⟨4, 4, v⟩ =
    if within 500 3000 v then { s with power := { s.power with plimit := v } } else s := by
  simp only [State.writePower]
  simp (disch := decide) only [Wr.reg_apart]
  rw [Wr.reg_whole hv (by omega)]
  rfl

/-! ## The operations behind them go on -/

theorem next_nextOr {o : Host.Outcome State Fault Refusal} (h : ∃ t, o = .next t) : .next (nextOr s o) = o := by
  obtain ⟨t, rfl⟩ := h; rfl

theorem execTail_goes (q v : Nat) : ∃ t, execTail q v s = .next t := by
  simp only [execTail]; split_ifs <;> exact ⟨_, rfl⟩
theorem execQueueEnable_goes (q : Nat) : ∃ t, execQueueEnable q s = .next t := by
  unfold execQueueEnable; split <;> exact ⟨_, rfl⟩
theorem execQueueDisable_goes (q : Nat) : ∃ t, execQueueDisable q s = .next t := by
  simp only [execQueueDisable]; split <;> exact ⟨_, rfl⟩
theorem execQueueResume_goes (q : Nat) : ∃ t, execQueueResume q s = .next t := by
  unfold execQueueResume; split <;> exact ⟨_, rfl⟩
theorem execQueueResumeSkip_goes (q : Nat) : ∃ t, execQueueResumeSkip q s = .next t := by
  simp only [execQueueResumeSkip]; split <;> exact ⟨_, rfl⟩
theorem execSwitchOut_goes (fn p : Nat) (nextv : Bool) (next : Nat) : ∃ t, execSwitchOut fn p nextv next s = .next t := by
  unfold execSwitchOut; split <;> exact ⟨_, rfl⟩
theorem execSwitchIn_goes (fn p : Nat) : ∃ t, execSwitchIn fn p s = .next t := by
  unfold execSwitchIn; split <;> exact ⟨_, rfl⟩
theorem execStop_goes (fn p : Nat) : ∃ t, execStop fn p s = .next t := by
  unfold execStop; split <;> exact ⟨_, rfl⟩
theorem execPartitionResume_goes (fn p : Nat) : ∃ t, execPartitionResume fn p s = .next t := by
  unfold execPartitionResume; split <;> exact ⟨_, rfl⟩
theorem execPartitionKill_goes (fn p : Nat) : ∃ t, execPartitionKill fn p s = .next t := by
  simp only [execPartitionKill]; split <;> exact ⟨_, rfl⟩
theorem execLinkEnable_goes (fn l : Nat) : ∃ t, execLinkEnable fn l s = .next t := by
  unfold execLinkEnable; split <;> exact ⟨_, rfl⟩
theorem execLinkDisable_goes (fn l : Nat) : ∃ t, execLinkDisable fn l s = .next t := by
  unfold execLinkDisable; split <;> exact ⟨_, rfl⟩
theorem execRetrain_goes (fn l : Nat) : ∃ t, execRetrain fn l s = .next t := by
  simp only [execRetrain]; split_ifs <;> exact ⟨_, rfl⟩

/-! ## BAR2 -/

theorem bringRange_one (part va : Nat) (k : Acc) : s.bringRange part va 1 k = s.bringGlobal part va k := by
  have h : (va % 4096 + 1 + 4095) / 4096 = 1 := by omega
  simp [State.bringRange, h]

theorem hostPlaces_one_of_ok {p va key : Nat} {k : Acc} (h : s.globalPlace p va k = .ok key) :
    s.hostPlaces p va k 1 = some [key] := by
  simp [State.hostPlaces, h]
theorem hostPlaces_one_of_error {p va e : Nat} {k : Acc} (h : s.globalPlace p va k = .error e) :
    s.hostPlaces p va k 1 = none := by
  simp [State.hostPlaces, h]

/-- Global memory keeps its canonical form when the block of an address is brought in. -/
theorem bringIn_mem_wf (part : Nat) (cmp : Bool) (blk : Nat) (w : s.MemWf) : (s.bringIn part cmp blk).MemWf := by
  unfold State.bringIn
  split
  · exact w
  · split
    · exact Memory.putBytes_wf _ _ (Memory.putBytes_wf _ _ w)
    · split
      · exact Memory.putBytes_wf _ _ w
      · unfold State.poisonBlock; split <;> exact w
      · exact w

theorem bringGlobal_mem_wf (part va : Nat) (k : Acc) (w : s.MemWf) : (s.bringGlobal part va k).MemWf := by
  unfold State.bringGlobal
  split
  · split
    · unfold State.bringAt
      split
      · split
        · exact w
        · exact bringIn_mem_wf _ _ _ w
      · exact w
    · exact w
  · exact w

/-! ## A byte at the home of its line -/

/-- A base-256 digit replaced: the number above it, the new digit, the number below it. -/
theorem put_digit_eq (x k b : Nat) : x - x / 256 ^ k % 256 * 256 ^ k + b * 256 ^ k =
    x / (256 ^ k * 256) * (256 ^ k * 256) + (b * 256 ^ k + x % 256 ^ k) := by
  have hlow : x / 256 ^ k * 256 ^ k + x % 256 ^ k = x := Nat.div_add_mod' x _
  have hhigh : x / 256 ^ k / 256 * 256 + x / 256 ^ k % 256 = x / 256 ^ k := Nat.div_add_mod' _ _
  rw [Nat.div_div_eq_div_mul] at hhigh
  have hx : x = x / (256 ^ k * 256) * (256 ^ k * 256) + x / 256 ^ k % 256 * 256 ^ k + x % 256 ^ k := by
    conv_lhs => rw [← hlow, ← hhigh]
    ring
  omega

/-- A base-256 digit replaced: that digit is the new one, every other is as before. -/
theorem digit_put (x k j : Nat) {b : Nat} (hb : b < 256) :
    (x - x / 256 ^ k % 256 * 256 ^ k + b * 256 ^ k) / 256 ^ j % 256 = if j = k then b else x / 256 ^ j % 256 := by
  have hP : 0 < 256 ^ k := by positivity
  have hlow : x % 256 ^ k < 256 ^ k := Nat.mod_lt _ hP
  rw [put_digit_eq]
  rcases Nat.lt_trichotomy j k with hj | hj | hj
  · obtain ⟨r, rfl⟩ : ∃ r, k = j + 1 + r := ⟨k - (j + 1), by omega⟩
    have hd : 256 ^ j * 256 ∣ 256 ^ (j + 1 + r) := ⟨256 ^ r, by ring⟩
    rw [if_neg (by omega), ← Nat.mod_mul_right_div_self, ← Nat.mod_mul_right_div_self, ← Nat.mod_mod_of_dvd _ hd]
    rw [Nat.mul_comm (256 ^ (j + 1 + r)) 256, ← Nat.mul_assoc, ← Nat.add_assoc, ← Nat.add_mul, Nat.mul_add_mod_self_right,
      Nat.mod_mod, Nat.mod_mod_of_dvd _ hd]
  · subst hj
    have hdiv : (x / (256 ^ j * 256) * (256 ^ j * 256) + (b * 256 ^ j + x % 256 ^ j)) / 256 ^ j =
        x / (256 ^ j * 256) * 256 + b := by
      rw [show x / (256 ^ j * 256) * (256 ^ j * 256) + (b * 256 ^ j + x % 256 ^ j) =
        256 ^ j * (x / (256 ^ j * 256) * 256 + b) + x % 256 ^ j by ring, Nat.mul_add_div hP, Nat.div_eq_of_lt hlow, Nat.add_zero]
    rw [if_pos rfl, hdiv]
    omega
  · obtain ⟨r, rfl⟩ : ∃ r, j = k + 1 + r := ⟨j - (k + 1), by omega⟩
    have hlt : b * 256 ^ k + x % 256 ^ k < 256 ^ k * 256 := by nlinarith
    have hdiv : (x / (256 ^ k * 256) * (256 ^ k * 256) + (b * 256 ^ k + x % 256 ^ k)) / (256 ^ k * 256) =
        x / (256 ^ k * 256) := by
      rw [Nat.mul_comm, Nat.mul_add_div (by positivity), Nat.div_eq_of_lt hlt, Nat.add_zero]
    rw [if_neg (by omega), show 256 ^ (k + 1 + r) = 256 ^ k * 256 * 256 ^ r by ring, ← Nat.div_div_eq_div_mul, hdiv,
      Nat.div_div_eq_div_mul]

/-- A word holds the eight low digits of a number. -/
theorem digit_word (x : Nat) {j : Nat} (hj : j < 8) : (BitVec.ofNat 64 x).toNat / 256 ^ j % 256 = x / 256 ^ j % 256 := by
  obtain ⟨r, hr⟩ : ∃ r, 7 = j + r := ⟨7 - j, by omega⟩
  have h64 : 2 ^ 64 = 256 ^ j * (256 * 256 ^ r) := by
    calc 2 ^ 64 = 256 ^ (7 + 1) := by norm_num
      _ = _ := by rw [hr]; ring
  rw [BitVec.toNat_ofNat, h64, Nat.mod_mul_right_div_self, Nat.mod_mul_right_mod]

/-- Where no cache holds the line's word, or the byte is not one of DRAM, the byte goes to memory. -/
theorem hostByte_to_mem {key : Nat} (x : Byte) (h : isDram key = false ∨ s.home.get? (key / 8) = none) :
    (s.hostByte key x).home = s.home ∧ (s.hostByte key x).mem = s.mem.write key x := by
  unfold State.hostByte
  split
  · exact ⟨rfl, rfl⟩
  · next hd =>
    obtain h | h := h
    · simp [h] at hd
    · rw [h]; exact ⟨rfl, rfl⟩

/-- A host write changes at the homes the byte written and no other. -/
theorem homeByte_hostByte (w : s.MemWf) (key e : Nat) (x : Byte) :
    (s.hostByte key x).homeByte e = if e = key then x else s.homeByte e := by
  by_cases hm : isDram key = false ∨ s.home.get? (key / 8) = none
  · obtain ⟨hhome, hmem⟩ := hostByte_to_mem x hm
    simp only [State.homeByte, hhome, hmem, Memory.read_write w]
    by_cases he : e = key
    · subst he
      obtain hd | hn := hm
      · simp only [hd, Bool.false_eq_true, if_false, if_true]; split <;> rfl
      · simp only [hn, if_true]
    · simp only [if_neg he]
  · obtain ⟨hd, hn⟩ := not_or.mp hm
    rw [Bool.not_eq_false] at hd
    obtain ⟨y, hy⟩ := Option.ne_none_iff_exists'.mp hn
    by_cases hw : e / 8 = key / 8
    · have hde : isDram e = true := by
        simp only [isDram, decide_eq_true_eq] at hd ⊢; omega
      simp only [State.homeByte, State.hostByte, hd, hy, hw, hde, Tab.get?_set_self, Bool.not_true, Bool.false_eq_true,
        if_false, if_true]
      refine BitVec.eq_of_toNat_eq ((BitVec.toNat_ofNat _ _).trans ?_)
      rw [show 2 ^ 8 = 256 from rfl, digit_word _ (Nat.mod_lt _ (by decide)), digit_put _ _ _ x.isLt]
      by_cases he : e = key
      · simp [he]
      · rw [if_neg he, if_neg (by omega), BitVec.toNat_ofNat]
    · have he : e ≠ key := fun h => hw (by rw [h])
      simp only [State.homeByte, State.hostByte, hd, hy, Tab.get?_set_ne _ _ hw, Bool.not_true, Bool.false_eq_true,
        if_false, if_neg he]

/-! ## Accesses of one byte -/

section
variable {fn a b key code : Nat} (hup : s.hostUp = true) (hfn : fn < 17) (ha : a < 2 ^ 36)
include hup hfn ha

/-- The access is one that BAR2 takes. -/
theorem hostAccess_taken : (!s.hostUp || decide (17 ≤ fn) || decide (2 ^ 36 < a + 1)) = false := by
  simp [hup]; omega

theorem exec_hostRead_of_ok (hr : s.ras.recovery = false) {t : State}
    (h : s.reach (fn - 1) (s.winbase.getD fn (2 ^ 40) + a) .load = (t, .ok key)) :
    exec (.hostBar2Access fn a false [] 1) s = .next { t with hostReads := t.hostReads ++ [some [t.homeByte key]] } := by
  obtain ⟨rfl, hk⟩ := Prod.mk.inj h
  show execHostBar2Access fn a false [] 1 s = _
  simp only [execHostBar2Access, hostAccess_taken hup hfn ha, hr, Bool.false_eq_true, if_false, bringRange_one, partOfFn,
    hostPlaces_one_of_ok hk, List.map_cons, List.map_nil]

theorem exec_hostRead_of_error (hr : s.ras.recovery = false) {t : State}
    (h : s.reach (fn - 1) (s.winbase.getD fn (2 ^ 40) + a) .load = (t, .error code)) :
    exec (.hostBar2Access fn a false [] 1) s = .next { t with hostReads := t.hostReads ++ [none] } := by
  obtain ⟨rfl, hk⟩ := Prod.mk.inj h
  show execHostBar2Access fn a false [] 1 s = _
  simp only [execHostBar2Access, hostAccess_taken hup hfn ha, hr, Bool.false_eq_true, if_false, bringRange_one, partOfFn,
    hostPlaces_one_of_error hk]

theorem exec_hostWrite_of_ok (hr : s.ras.recovery = false) {t : State}
    (h : s.reach (fn - 1) (s.winbase.getD fn (2 ^ 40) + a) .store = (t, .ok key)) :
    exec (.hostBar2Access fn a true [b] 0) s =
      .next ((t.hostByte key (BitVec.ofNat 8 b)).hostWrote (s.winbase.getD fn (2 ^ 40) + a) 1) := by
  obtain ⟨rfl, hk⟩ := Prod.mk.inj h
  show execHostBar2Access fn a true [b] 0 s = _
  simp only [execHostBar2Access, List.map_cons, List.map_nil, List.length_singleton, if_true, hostAccess_taken hup hfn ha, hr,
    Bool.false_eq_true, if_false, bringRange_one, partOfFn, hostPlaces_one_of_ok hk, List.zip_cons_cons, List.zip_nil_left,
    List.foldl_cons, List.foldl_nil]

theorem exec_hostWrite_of_error (hr : s.ras.recovery = false) {t : State}
    (h : s.reach (fn - 1) (s.winbase.getD fn (2 ^ 40) + a) .store = (t, .error code)) :
    exec (.hostBar2Access fn a true [b] 0) s = .next { t with aer := t.aer ++ [fn] } := by
  obtain ⟨rfl, hk⟩ := Prod.mk.inj h
  show execHostBar2Access fn a true [b] 0 s = _
  simp only [execHostBar2Access, List.map_cons, List.map_nil, List.length_singleton, if_true, hostAccess_taken hup hfn ha, hr,
    Bool.false_eq_true, if_false, bringRange_one, partOfFn, hostPlaces_one_of_error hk]

/-- In recovery mode a write goes to the staged image (R417). -/
theorem exec_hostWrite_recovery (hr : s.ras.recovery = true) (hs : a < 2 ^ 26) :
    exec (.hostBar2Access fn a true [b] 0) s =
      .next { s with ras := { s.ras with staged := s.ras.staged.write a (BitVec.ofNat 8 b) } } := by
  show execHostBar2Access fn a true [b] 0 s = _
  simp only [execHostBar2Access, List.map_cons, List.map_nil, List.length_singleton, if_true, hostAccess_taken hup hfn ha, hr,
    Bool.false_eq_true, if_false, State.stage, hs]

end

/-- What a write of one byte leaves at the homes: `hostWrote` notes the range and touches no line. -/
theorem homeByte_hostWrote (va n e : Nat) : (s.hostWrote va n).homeByte e = s.homeByte e := rfl

/-! ## The cluster map -/

section
variable {β ι : Type}

/-- A fold of steps that keep a part of the state keeps it. -/
theorem foldl_keeps {g : State → β} {f : State → ι → State} (hf : ∀ s a, g (f s a) = g s) :
    ∀ (l : List ι) (s : State), g (l.foldl f s) = g s
  | [], _ => rfl
  | a :: l, s => (foldl_keeps hf l (f s a)).trans (hf s a)

end

theorem core_modCore_ne {n k : Nat} {f : Core → Core} (h : k ≠ n) : (s.modCore n f).core k = s.core k := by
  simp [State.modCore, State.setCore, State.core, Tab.getD_set_ne _ _ _ h]

/-- A property that a change gives a core, the cores of a list have after it. -/
theorem core_foldl_modCore_of_mem {P : Core → Prop} {f : Core → Core} (hf : ∀ c, P (f c)) {k : Nat} :
    ∀ (l : List Nat) (s : State), k ∈ l ∨ P (s.core k) → P ((l.foldl (fun s c => s.modCore c f) s).core k)
  | [], s, h => h.resolve_left List.not_mem_nil
  | n :: l, s, h => by
    refine core_foldl_modCore_of_mem hf l (s.modCore n f) ?_
    by_cases hk : k = n
    · subst hk; exact .inr (by rw [State.core_modCore]; exact hf _)
    · rw [core_modCore_ne hk]
      exact h.imp_left fun hm => (List.mem_cons.mp hm).resolve_left hk

/-- A property that a change of a core keeps, every core keeps. -/
theorem core_foldl_modCore_of_keeps {P : Core → Prop} {f : Core → Core} (hf : ∀ c, P c → P (f c)) {k : Nat} :
    ∀ (l : List Nat) (s : State), P (s.core k) → P ((l.foldl (fun s c => s.modCore c f) s).core k)
  | [], _, h => h
  | n :: l, s, h => by
    refine core_foldl_modCore_of_keeps hf l (s.modCore n f) ?_
    by_cases hk : k = n
    · subst hk; rw [State.core_modCore]; exact hf _ h
    · rwa [core_modCore_ne hk]

theorem clusterCores_lt {cl k : Nat} (h : cl < 384) (hk : k ∈ clusterCores cl) : k < 4096 := by
  simp only [clusterCores, List.mem_cons, List.not_mem_nil, or_false, computeCore, memoryCore] at hk
  omega

/-- A byte of a core's banks lies on the core. -/
theorem onBank_of_range {cores : List Nat} {k e : Nat} (hk : k ∈ cores) (h4 : k < 4096) (h1 : 2 ^ 56 + k * 2 ^ 19 ≤ e)
    (h2 : e < 2 ^ 56 + (k + 1) * 2 ^ 19) : State.loseCluster.onBank cores e = true := by
  have hcore : (e - 2 ^ 56) / 2 ^ 19 = k := by omega
  simp only [State.loseCluster.onBank, hcore, Bool.and_eq_true, decide_eq_true_eq, List.contains_iff_mem]
  exact ⟨⟨by omega, by omega⟩, hk⟩

theorem loseCluster_mem (cl : Nat) (cores : List Nat) :
    (s.loseCluster cl cores).mem = s.mem.filter fun e => !State.loseCluster.onBank cores e.1 :=
  foldl_keeps (g := State.mem) (f := fun s c => s.modCore c Core.emptied) (fun _ _ => rfl) _ _

theorem loseCluster_core {cl k : Nat} {cores : List Nat} (hk : k ∈ cores) :
    ((s.loseCluster cl cores).core k).rings = [] ∧ ((s.loseCluster cl cores).core k).store = [] :=
  core_foldl_modCore_of_mem (P := fun c => c.rings = [] ∧ c.store = []) (f := Core.emptied) (fun _ => ⟨rfl, rfl⟩) _ _ (.inl hk)

theorem loseCluster_cmap (cl : Nat) (cores : List Nat) : (s.loseCluster cl cores).cmap = s.cmap :=
  foldl_keeps (g := State.cmap) (f := fun s c => s.modCore c Core.emptied) (fun _ _ => rfl) _ _

theorem loseCluster_cluster (cl : Nat) (cores : List Nat) : ((s.loseCluster cl cores).cluster cl).lines = 0 ∧
    ((s.loseCluster cl cores).cluster cl).bars = [] ∧ ((s.loseCluster cl cores).cluster cl).tlb = [] := by
  simp [State.loseCluster]

/-- The cores of the lost banks: no byte there is listed. -/
theorem loseCluster_read {cl k e : Nat} {cores : List Nat} (hk : k ∈ cores) (h4 : k < 4096) (h1 : 2 ^ 56 + k * 2 ^ 19 ≤ e)
    (h2 : e < 2 ^ 56 + (k + 1) * 2 ^ 19) : (s.loseCluster cl cores).mem.read e = 0 := by
  rw [loseCluster_mem]
  refine Memory.read_of_not_listed fun x hx he => ?_
  have hoff : State.loseCluster.onBank cores x.1 = false := by simpa using (List.mem_filter.mp hx).2
  rw [he, onBank_of_range hk h4 h1 h2] at hoff
  exact Bool.noConfusion hoff

/-- The chutes of the cores of a list are set up afresh. -/
def State.freshChutes (s : State) (cores : List Nat) : State := cores.foldl (fun s c => s.modChute c fun _ => Chute.fresh) s

theorem freshChutes_keeps {β : Type} {g : State → β} (hg : ∀ s n f, g (State.modCore s n f) = g s) (cores : List Nat) :
    g (s.freshChutes cores) = g s :=
  foldl_keeps (fun s c => hg s c fun k => { k with chute := Chute.fresh }) _ _

theorem freshChutes_core {k : Nat} {cores : List Nat} (h : (s.core k).rings = [] ∧ (s.core k).store = []) :
    ((s.freshChutes cores).core k).rings = [] ∧ ((s.freshChutes cores).core k).store = [] :=
  core_foldl_modCore_of_keeps (P := fun c => c.rings = [] ∧ c.store = []) (f := fun k => { k with chute := Chute.fresh })
    (fun _ h => h) _ _ h

/-- What an accepted write of the cluster map leaves. -/
def State.remapped (s : State) (cl v : Nat) : State :=
  ({ s with cmap := s.cmap.set cl v }.loseCluster cl (clusterCores cl)).freshChutes (deckCores cl)

theorem remapped_cmap (cl v : Nat) : (s.remapped cl v).cmap.getD cl 0 = v := by
  rw [State.remapped, freshChutes_keeps (g := State.cmap) fun _ _ _ => rfl, loseCluster_cmap, Tab.getD_set_self]

theorem remapped_cluster (cl v : Nat) : ((s.remapped cl v).cluster cl).lines = 0 ∧
    ((s.remapped cl v).cluster cl).bars = [] ∧ ((s.remapped cl v).cluster cl).tlb = [] := by
  rw [State.remapped, freshChutes_keeps (g := fun t => t.cluster cl) fun _ _ _ => rfl]
  exact loseCluster_cluster cl _

theorem remapped_core {cl k : Nat} (v : Nat) (hk : k ∈ clusterCores cl) :
    ((s.remapped cl v).core k).rings = [] ∧ ((s.remapped cl v).core k).store = [] :=
  freshChutes_core (loseCluster_core hk)

theorem remapped_read {cl k e : Nat} (v : Nat) (hk : k ∈ clusterCores cl) (h4 : k < 4096) (h1 : 2 ^ 56 + k * 2 ^ 19 ≤ e)
    (h2 : e < 2 ^ 56 + (k + 1) * 2 ^ 19) : (s.remapped cl v).mem.read e = 0 := by
  rw [State.remapped, freshChutes_keeps (g := State.mem) fun _ _ _ => rfl]
  exact loseCluster_read hk h4 h1 h2

theorem exec_clusterMapWrite_foreign {fn : Nat} (cl v : Nat) (h : fn ≠ 0) : exec (.clusterMapWrite fn cl v) s = .next s := by
  show execClusterMapWrite fn cl v s = _
  simp [execClusterMapWrite, h]

theorem partOfCluster_of_unassigned {cl : Nat} (h : s.cmap.getD cl 0 < 128) : s.partOfCluster cl = none := by
  have : s.cmap.getD cl 0 / 128 = 0 := by omega
  simp [State.partOfCluster, this]

/-- A service block that nothing depends on may move. -/
theorem serviceOk_of_free {t : State} (h : ∀ q, q < 16 → s.serviceFree q = true) (cl : Nat) :
    s.serviceOk t (t.partOfCluster cl) = true := by
  simp only [State.partOfCluster]
  split
  · simp [State.serviceOk, h _ (Nat.mod_lt _ (by decide))]
  · rfl

/-- An accepted write: an unassigned, empty cluster takes the new byte, and loses what it held. -/
theorem exec_clusterMapWrite_accepted {cl v : Nat} (hcl : cl < clusterCount s.variant) (hv : v < 256) (hbits : v / 16 % 8 = 0)
    (hnew : v ≠ s.cmap.getD cl 0) (hold : s.cmap.getD cl 0 < 128) (hempty : s.clusterEmpty cl = true)
    (hfree : ∀ q, q < 16 → s.serviceFree q = true) :
    exec (.clusterMapWrite 0 cl v) s = .next (s.remapped cl v) := by
  have hnone : ∀ t, s.serviceOk t none = true := fun _ => rfl
  show execClusterMapWrite 0 cl v s = _
  simp only [execClusterMapWrite, partOfCluster_of_unassigned hold, hempty, serviceOk_of_free hfree, hnone, hbits,
    decide_eq_false (Nat.not_le.mpr hcl), decide_eq_false (Nat.not_le.mpr hv), if_neg hnew, Option.any_none, bne_self_eq_false,
    Bool.not_true, Bool.or_self, Bool.false_eq_true, if_false]
  rfl

/-- There are at most 384 clusters. -/
theorem clusterCount_le (variant : Nat) : clusterCount variant ≤ 384 := by
  unfold clusterCount; split <;> omega

/-! ## Writes of the registers -/

/-- RECOVER takes writes in recovery mode too (R415). -/
theorem exec_recoverWrite {v : Nat} (hup : s.hostUp = true) (hv : v < 2 ^ 32) :
    exec (.bar0RegisterWrite 0 0xA0028 4 v) s = exec (.recover v) s := by
  show execBar0RegisterWrite 0 0xA0028 4 v s = execRecover v s
  have hbound : ¬ 4294967296 ≤ v := by omega
  simp [execBar0RegisterWrite, touches, hup, hbound, mergeReg_whole 0 (rs := 4) hv]

section
variable {fn q p l v addr : Nat} (hup : s.hostUp = true) (hr : s.ras.recovery = false)
include hup hr

theorem exec_plimitWrite (hv : v < 2 ^ 32) : exec (.bar0RegisterWrite 0 0x90004 4 v) s =
    .next (if within 500 3000 v then { s with power := { s.power with plimit := v } } else s) := by
  rw [exec_bar0RegisterWrite hup hr (.inl rfl) rfl (by decide) hv (by decide)]
  exact congrArg _ ((writeBar0_power (r := 4) (by decide)).trans (writePower_plimit hv))

theorem exec_queueWrite {r n : Nat} (hfn : fn < 17) (hq : q < 64) (ha : addr = 0x10000 + 64 * q + r) (hr4 : r % n = 0)
    (hn : n = 4 ∨ n = 8) (hr64 : r < 64) (hv : v < 2 ^ (8 * n)) :
    exec (.bar0RegisterWrite fn addr n v) s = .next (s.writeQueue fn q ⟨r, n, v⟩) := by
  subst ha
  have hal : (0x10000 + 64 * q + r) % n = 0 := by obtain rfl | rfl := hn <;> omega
  rw [exec_bar0RegisterWrite hup hr hn hal hfn hv (by omega), writeBar0_queue hq hr64]

theorem exec_tailWrite (hfn : fn < 17) (hq : q < 64) (ho : fn = 0 ∨ fn = (s.queue q).part + 1) (hv : v < 2 ^ 32) :
    exec (.bar0RegisterWrite fn (0x10010 + 64 * q) 4 v) s = exec (.tail q v) s := by
  rw [exec_queueWrite hup hr (r := 0x10) hfn hq (by omega) rfl (.inl rfl) (by decide) hv, writeQueue_tail ho hv]
  exact next_nextOr (execTail_goes q v)

theorem exec_queueControlWrite (hfn : fn < 17) (hq : q < 64) (ho : fn = 0 ∨ fn = (s.queue q).part + 1) (hv : v < 8) :
    exec (.bar0RegisterWrite fn (0x10028 + 64 * q) 8 v) s = .next (s.queueControl q v) := by
  rw [exec_queueWrite hup hr (r := 0x28) hfn hq (by omega) rfl (.inr rfl) (by decide) (by omega), writeQueue_control ho hv]

theorem exec_partCommandWrite (hp : p < 16) (hv : v < 2 ^ 32) :
    exec (.bar0RegisterWrite 0 (0x70000 + 256 * p) 4 v) s = .next (s.partCommand 0 p v) := by
  rw [exec_bar0RegisterWrite hup hr (.inl rfl) (by omega) (by decide) hv (by omega)]
  exact congrArg _ ((writeBar0_control (r := 0) hp (by decide)).trans (writeControl_command hv))

theorem exec_linkControlWrite (hl : l < 13) (hv : v < 2 ^ 32) :
    exec (.bar0RegisterWrite 0 (0xC0008 + 256 * l) 4 v) s = .next (s.linkControl 0 l v) := by
  rw [exec_bar0RegisterWrite hup hr (.inl rfl) (by omega) (by decide) hv (by omega), writeBar0_link hl hv]

end

/-- Nothing the host does reaches the part while the PCIe link has failed. -/
theorem exec_host_down (hdown : s.hostUp = false) (fn a l v b : Nat) : exec (.bar0RegisterWrite fn a l v) s = .next s ∧
    exec (.hostBar2Access fn a false [] 1) s = .next s ∧ exec (.hostBar2Access fn a true [b] 0) s = .next s := by
  refine ⟨?_, ?_, ?_⟩
  · show execBar0RegisterWrite fn a l v s = _
    simp [execBar0RegisterWrite, hdown]
  · show execHostBar2Access fn a false [] 1 s = _
    simp [execHostBar2Access, hdown]
  · show execHostBar2Access fn a true [b] 0 s = _
    simp [execHostBar2Access, hdown]

/-- Settles O55: each register write reaches its block and there its register; a byte over BAR2 goes to its place's home; an
accepted byte of the cluster map empties the cluster. -/
theorem hostAccess : Obligations.HostAccess := by
  unfold Obligations.HostAccess
  intro s fn q p l v a cl b key code bar va read write from_ onto
  refine ⟨fun hdown => exec_host_down hdown fn a l v b, exec_recoverWrite, fun hup hr hv => ⟨?_, ?_, ?_, ?_, ?_, ?_⟩,
    fun hup hfn ha => ⟨fun hr hs => ?_, fun hr => ⟨?_, ?_, ?_, ?_⟩⟩, exec_clusterMapWrite_foreign cl v, ?_⟩
  · intro hlo hhi
    exact (exec_plimitWrite hup hr hv).trans (by rw [within_true hlo hhi]; rfl)
  · intro hout
    exact (exec_plimitWrite hup hr hv).trans (by rw [within_false hout]; rfl)
  · intro hq hfn ho
    have control {n : Nat} := exec_queueControlWrite hup hr (v := n) hfn hq ho
    exact ⟨exec_tailWrite hup hr hfn hq ho hv,
      (control (by decide)).trans (next_nextOr (execQueueEnable_goes q)),
      (control (by decide)).trans (next_nextOr (execQueueDisable_goes q)),
      (control (by decide)).trans (next_nextOr (execQueueResume_goes q)),
      (control (by decide)).trans (next_nextOr (execQueueResumeSkip_goes q))⟩
  · intro hq hfn h0 hpart
    exact (exec_queueWrite hup hr (r := 0x10) hfn hq (by omega) rfl (.inl rfl) (by decide) hv).trans
      (congrArg _ (writeQueue_foreign _ h0 hpart))
  · intro hp
    have command {n : Nat} := exec_partCommandWrite hup hr (v := n) hp
    exact ⟨(command (by decide)).trans (next_nextOr (execSwitchOut_goes 0 p false 0)),
      (command (by decide)).trans (next_nextOr (execSwitchIn_goes 0 p)),
      (command (by decide)).trans (next_nextOr (execStop_goes 0 p)),
      (command (by decide)).trans (next_nextOr (execPartitionResume_goes 0 p)),
      (command (by decide)).trans (next_nextOr (execPartitionKill_goes 0 p))⟩
  · intro hl
    have control {n : Nat} := exec_linkControlWrite hup hr (v := n) hl
    exact ⟨(control (by decide)).trans (next_nextOr (execLinkEnable_goes 0 l)),
      (control (by decide)).trans (next_nextOr (execLinkDisable_goes 0 l)),
      (control (by decide)).trans (next_nextOr (execRetrain_goes 0 l))⟩
  · exact ⟨_, exec_hostWrite_recovery hup hfn ha hr hs, rfl, rfl⟩
  · exact fun hk => exec_hostRead_of_ok hup hfn ha hr (Prod.ext rfl hk)
  · exact fun hk => exec_hostRead_of_error hup hfn ha hr (Prod.ext rfl hk)
  · intro hw hk
    have hwf : onto.1.MemWf := bringGlobal_mem_wf (fn - 1) va .store hw
    refine ⟨_, exec_hostWrite_of_ok hup hfn ha hr (Prod.ext rfl hk), ?_, fun e he => ?_⟩
    · rw [homeByte_hostWrote, homeByte_hostByte hwf, if_pos rfl]
    · rw [homeByte_hostWrote, homeByte_hostByte hwf, if_neg he]
  · exact fun hk => exec_hostWrite_of_error hup hfn ha hr (Prod.ext rfl hk)
  · intro hcl hv hbits hnew hold hempty hfree
    obtain ⟨hlines, hbars, htlb⟩ := remapped_cluster (s := s) cl v
    refine ⟨_, exec_clusterMapWrite_accepted hcl hv hbits hnew hold hempty hfree, remapped_cmap cl v, hlines, hbars, htlb,
      fun k hk => ?_⟩
    obtain ⟨hrings, hstore⟩ := remapped_core (s := s) v hk
    have hk4 := clusterCores_lt (Nat.lt_of_lt_of_le hcl (clusterCount_le _)) hk
    exact ⟨hrings, hstore, fun e h1 h2 => remapped_read v hk hk4 h1 h2⟩

end Machine
end Sys2Proof
end

section
/-! PROOF (O57). Decoding gives back what the encoder writes. The chain of an encoding is read back one halfword
after another, its fields by the form of its row, and the row of its cell of the opcode map takes them and builds the
instruction. -/
namespace Sys2Proof

/-! ## The chain of an encoding -/

/-- The payload of a page or register halfword, left out where it is zero (R105). -/
def payload (p : Nat) : Option Nat := if p = 0 then none else some p

theorem payload_getD (p : Nat) : (payload p).getD 0 = p := by
  unfold payload; split <;> simp [*]

/-- The payload of an encoding's XP halfword, and of its XR halfword. -/
def Enc.xp (e : Enc) : Nat := e.page * 32 + e.var
def Enc.xr (e : Enc) : Nat := e.d.n / 8 * 64 + e.a.n / 8 * 8 + if e.form == .R then e.b.n / 8 else 0

/-- The chain that the halfwords of an encoding are read as. -/
def Enc.chain (e : Enc) : Chain :=
  { half := e.base, xp := payload e.xp, xr := payload e.xr, xi := xiList e.n e.imm, c := e.c, m := e.m, len := e.halves.length }

/-- The fields of an encoding fit the bits that hold them (R103, R105, R106, R109). -/
structure Enc.Fits (e : Enc) : Prop where
  page : e.page < 16
  var : e.var < 32
  op : e.op < 31
  d : e.d.n < 64
  a : e.a.n < 64
  b : e.b.n < 64
  n : e.n ≤ 4
  imm : match e.form with | .R => e.n ≤ 1 | .I => e.imm < 2 ^ (4 + 9 * e.n) | .S => e.imm < 2 ^ (4 + 9 * e.n) ∧ e.imm % 2 = 0
  c : ∀ c ∈ e.c, c.n < 64
  m : ∀ m ∈ e.m, m.k < 8 ∧ m.nib < 16

@[simp] theorem bit_le (b : Bool) : bit b ≤ 1 := by cases b <;> decide

/-- The halfword below the register bits takes five bits. -/
theorem Enc.base_lt {e : Enc} (h : e.Fits) : e.base < 63488 := by
  have := h.op
  have := bit_le e.a.last; have := bit_le e.b.last; have := bit_le e.d.last
  unfold Enc.base
  cases e.form <;> simp only <;> omega

/-! ## Reading a chain (R110) -/

/-- A halfword of `kind` that breaks no rule joins the chain. -/
theorem parseChain_prefix {c : Chain} {pos kind pay : Nat} (t : List Nat) (hk : kind < 4) (hp : pay < 512) (h4 : pos ≠ 4)
    (hb : c.breaks kind pay = none) :
    parseChain c pos ((63488 + kind * 512 + pay) :: t) = parseChain (c.push kind pay) (pos + 1) t := by
  have h1 : isPrefix (63488 + kind * 512 + pay) = true := by simp [isPrefix]; omega
  have h2 : (63488 + kind * 512 + pay) / 512 % 4 = kind := by omega
  have h3 : (63488 + kind * 512 + pay) % 512 = pay := by omega
  simp [parseChain, h1, h2, h3, h4, hb]

theorem parseChain_base {c : Chain} {pos h : Nat} (t : List Nat) (hh : h < 63488) :
    parseChain c pos (h :: t) = .ok { c with half := h, len := pos + 1 } := by
  have h1 : isPrefix h = false := by simp [isPrefix]; omega
  simp [parseChain, h1]

/-- The XI prefixes of a chain and its base halfword. -/
theorem parseChain_xi {h : Nat} (hh : h < 63488) : ∀ (xs : List Nat) {c : Chain} {pos : Nat}, (∀ x ∈ xs, x < 512) →
    pos + xs.length ≤ 4 → parseChain c pos (xs.map (63488 + ·) ++ [h]) =
      .ok { c with half := h, xi := c.xi ++ xs, len := pos + xs.length + 1 }
  | [], c, pos, _, _ => by simp [parseChain_base _ hh]
  | x :: xs, c, pos, hx, hl => by
    simp only [List.length_cons] at hl
    have := parseChain_prefix (c := c) (pos := pos) (kind := 0) (xs.map (63488 + ·) ++ [h]) (by decide)
      (hx x List.mem_cons_self) (by omega) rfl
    simp only [List.map_cons, List.cons_append, Nat.zero_mul, Nat.add_zero] at this ⊢
    rw [this, parseChain_xi hh xs (fun y hy => hx y (List.mem_cons_of_mem _ hy)) (by omega)]
    simp [Chain.push]; omega

/-- A halfword that is there or not: where it is and breaks no rule, it joins the chain. -/
theorem parseChain_option {c : Chain} {pos kind : Nat} (o : Option Nat) (t : List Nat) (hk : kind < 4)
    (ho : ∀ p ∈ o, p < 512 ∧ c.breaks kind p = none) (hl : pos + o.toList.length ≤ 4) :
    parseChain c pos (o.toList.map (63488 + kind * 512 + ·) ++ t) =
      parseChain (o.elim c (c.push kind)) (pos + o.toList.length) t := by
  cases o with
  | none => rfl
  | some p =>
    obtain ⟨hp, hb⟩ := ho p rfl
    exact parseChain_prefix t hk hp (by simp at hl; omega) hb

/-- The payloads of the two XQ prefixes (R109). -/
def Src.payload (s : Src) : Nat := s.n * 4 + bit s.last * 2
def MaskForm.payload (m : MaskForm) : Nat := 256 + (m.k * 32 + bit m.zero * 16 + m.nib)

theorem push_src (c : Chain) {s : Src} (h : s.n < 64) : c.push 3 s.payload = { c with c := some s } := by
  have hb := bit_le s.last
  have h1 : s.payload < 256 := by unfold Src.payload; omega
  have h2 : s.payload / 4 % 64 = s.n := by unfold Src.payload; omega
  have h3 : (s.payload / 2 % 2 == 1) = s.last := by unfold Src.payload; cases s.last <;> simp [bit] <;> omega
  simp [Chain.push, h1, h2, h3]

theorem push_mask (c : Chain) {m : MaskForm} (h : m.k < 8 ∧ m.nib < 16) : c.push 3 m.payload = { c with m := some m } := by
  have hb := bit_le m.zero
  have h1 : ¬ m.payload < 256 := by unfold MaskForm.payload; omega
  have h2 : m.payload / 32 % 8 = m.k := by unfold MaskForm.payload; omega
  have h3 : (m.payload / 16 % 2 == 1) = m.zero := by unfold MaskForm.payload; cases m.zero <;> simp [bit] <;> omega
  have h4 : m.payload % 16 = m.nib := by unfold MaskForm.payload; omega
  simp [Chain.push, h1, h2, h3, h4]

theorem Enc.xp_lt {e : Enc} (h : e.Fits) : e.xp < 512 := by
  have := h.page; have := h.var; unfold Enc.xp; omega
theorem Enc.xr_lt {e : Enc} (h : e.Fits) : e.xr < 512 := by
  have := h.d; have := h.a; have := h.b; unfold Enc.xr; split <;> omega
theorem xiList_lt (n imm : Nat) : ∀ x ∈ xiList n imm, x < 512 := by
  unfold xiList; split_ifs <;> simp <;> omega
theorem xiList_length {n : Nat} (imm : Nat) (h : n ≤ 4) : (xiList n imm).length = n := by
  unfold xiList; simp only [beq_iff_eq]; split_ifs <;> simp <;> omega

/-- The halfwords of an encoding, each that is there or not written one way. -/
theorem Enc.halves_eq (e : Enc) : e.halves =
    (payload e.xp).toList.map (63488 + 2 * 512 + ·) ++ ((payload e.xr).toList.map (63488 + 1 * 512 + ·) ++
      ((e.c.map Src.payload).toList.map (63488 + 3 * 512 + ·) ++ ((e.m.map MaskForm.payload).toList.map (63488 + 3 * 512 + ·) ++
        ((xiList e.n e.imm).map (63488 + ·) ++ [e.base])))) := by
  have hp (p k : Nat) : (if p == 0 then [] else [k + p]) = (payload p).toList.map (k + ·) := by
    unfold payload; by_cases h : p = 0 <;> simp [h]
  have hc : (match e.c with | none => [] | some c => [65024 + c.n * 4 + bit c.last * 2]) =
      (e.c.map Src.payload).toList.map (63488 + 3 * 512 + ·) := by
    cases e.c <;> simp [Src.payload, Nat.add_assoc]
  have hm : (match e.m with | none => [] | some m => [65280 + m.k * 32 + bit m.zero * 16 + m.nib]) =
      (e.m.map MaskForm.payload).toList.map (63488 + 3 * 512 + ·) := by
    cases e.m <;> simp [MaskForm.payload]; omega
  simp only [← hp, ← hc, ← hm, List.append_assoc, Enc.halves, Enc.xp, Enc.xr] <;> rfl

theorem elim_push_xp {c : Chain} (o : Option Nat) (h : c.xp = none) : o.elim c (c.push 2) = { c with xp := o } := by
  cases c; cases h; cases o <;> rfl
theorem elim_push_xr {c : Chain} (o : Option Nat) (h : c.xr = none) : o.elim c (c.push 1) = { c with xr := o } := by
  cases c; cases h; cases o <;> rfl
theorem elim_push_src {c : Chain} {o : Option Src} (ho : ∀ s ∈ o, s.n < 64) (h : c.c = none) :
    (o.map Src.payload).elim c (c.push 3) = { c with c := o } := by
  cases o with
  | none => cases c; cases h; rfl
  | some s => exact push_src c (ho s rfl)
theorem elim_push_mask {c : Chain} {o : Option MaskForm} (ho : ∀ m ∈ o, m.k < 8 ∧ m.nib < 16) (h : c.m = none) :
    (o.map MaskForm.payload).elim c (c.push 3) = { c with m := o } := by
  cases o with
  | none => cases c; cases h; rfl
  | some m => exact push_mask c (ho m rfl)

/-- The halfwords of an encoding are read as its chain. -/
theorem parseChain_halves {e : Enc} (h : e.Fits) (hl : e.halves.length ≤ 5) :
    parseChain .empty 0 e.halves = .ok e.chain := by
  have hlen := congrArg List.length e.halves_eq
  simp only [List.length_append, List.length_map, List.length_singleton] at hlen
  have hpay {p q : Nat} (hq : q ∈ payload p) : q = p := by
    unfold payload at hq; split at hq <;> simp_all
  have hsrc (p : Nat) (hp : p ∈ e.c.map Src.payload) : p < 256 ∧ p % 2 = 0 := by
    obtain ⟨s, hs, rfl⟩ := Option.mem_map.mp hp
    have := h.c s hs; have := bit_le s.last
    unfold Src.payload; omega
  have hmask (p : Nat) (hp : p ∈ e.m.map MaskForm.payload) : 256 ≤ p ∧ p < 512 := by
    obtain ⟨m, hm, rfl⟩ := Option.mem_map.mp hp
    have := h.m m hm; have := bit_le m.zero
    unfold MaskForm.payload; omega
  rw [e.halves_eq, parseChain_option _ _ (by decide) _ (by omega), elim_push_xp _ rfl,
    parseChain_option _ _ (by decide) _ (by omega), elim_push_xr _ rfl,
    parseChain_option _ _ (by decide) _ (by omega), elim_push_src h.c rfl,
    parseChain_option _ _ (by decide) _ (by omega), elim_push_mask h.m rfl,
    parseChain_xi (e.base_lt h) _ (xiList_lt _ _) (by omega)]
  · simp [Enc.chain, Chain.empty]; omega
  · intro p hp
    obtain ⟨h1, h2⟩ := hmask p hp
    exact ⟨h2, by simp [Chain.breaks, Chain.empty, Nat.not_lt.mpr h1]⟩
  · intro p hp
    obtain ⟨h1, h2⟩ := hsrc p hp
    exact ⟨by omega, by simp [Chain.breaks, Chain.empty, Nat.not_le.mpr h1, h2]⟩
  · intro p hp
    rw [hpay hp]
    exact ⟨e.xr_lt h, by simp [Chain.breaks, Chain.empty]⟩
  · intro p hp
    rw [hpay hp]
    exact ⟨e.xp_lt h, by simp [Chain.breaks, Chain.empty]⟩

/-! ## The fields of a chain (R103, R106, R107, R109) -/

/-- The mask form that a chain without one stands for. -/
def Enc.mask (e : Enc) (dflt : Nat) : MaskForm := e.m.getD ⟨0, false, dflt⟩

/-- The fields that an encoding's chain is read as, by a row whose nibble has the default `dflt`. -/
def Enc.fields (e : Enc) (dflt : Nat) : Fd :=
  { d := ⟨e.d.n, e.form == .S && e.d.last⟩
    a := e.a
    b := if e.form == .R then e.b else ⟨e.base / 4 % 8, false⟩
    c := e.c
    imm := match e.form with | .R => if e.n = 0 then 63 else e.imm / 16 % 512 | _ => e.imm
    width := 4 + 9 * e.n
    var := e.var
    nib := (e.mask dflt).nib, k := (e.mask dflt).k, zero := (e.mask dflt).zero }

/-- The XI payloads above the low bits of an immediate are the immediate. -/
theorem immOf_xiList {n imm : Nat} (h : n ≤ 4) (hi : imm < 2 ^ (4 + 9 * n)) : immOf (xiList n imm) (imm % 16) = imm := by
  obtain rfl | rfl | rfl | rfl | rfl : n = 0 ∨ n = 1 ∨ n = 2 ∨ n = 3 ∨ n = 4 := by omega
  all_goals simp [xiList, immOf] at hi ⊢; omega

theorem Src.eq_of {s : Src} {n : Nat} {b : Bool} (hn : n = s.n) (hb : b = s.last) : (⟨n, b⟩ : Src) = s := by
  subst hn hb; rfl

/-- A bit read from the base halfword. -/
theorem beq_of_eq_bit {x : Nat} {b : Bool} (h : x = bit b) : (x == 1) = b := by
  subst h; cases b <;> rfl

/-- The register bits of the base halfword, and those of the XR payload. -/
theorem Enc.reg_bits {e : Enc} (h : e.Fits) :
    e.xr / 64 % 8 * 8 + e.base / 256 % 8 = e.d.n ∧ e.xr / 8 % 8 * 8 + e.base / 32 % 8 = e.a.n := by
  obtain ⟨-, -, -, hd, ha, hb, -, -, -, -⟩ := h
  have := bit_le e.a.last; have := bit_le e.b.last; have := bit_le e.d.last
  unfold Enc.base Enc.xr
  cases e.form <;> simp <;> omega

theorem Enc.low_bits_R {e : Enc} (h : e.Fits) (hf : e.form = .R) :
    e.xr % 8 * 8 + e.base / 4 % 8 = e.b.n ∧ e.base / 2 % 2 = bit e.a.last ∧ e.base % 2 = bit e.b.last := by
  have := h.b; have := bit_le e.a.last; have := bit_le e.b.last
  simp only [Enc.base, Enc.xr, hf, beq_self_eq_true, if_true]
  omega

theorem Enc.low_bits_I {e : Enc} (hf : e.form = .I) :
    e.xr % 8 = 0 ∧ e.base / 2 % 16 = e.imm % 16 ∧ e.base % 2 = bit e.a.last := by
  have := bit_le e.a.last
  simp only [Enc.base, Enc.xr, hf, beq_iff_eq, reduceCtorEq, if_false]
  omega

theorem Enc.low_bits_S {e : Enc} (hf : e.form = .S) (hi : e.imm % 2 = 0) :
    e.xr % 8 = 0 ∧ e.base / 4 % 8 * 2 = e.imm % 16 ∧ e.base / 2 % 2 = bit e.a.last ∧ e.base % 2 = bit e.d.last := by
  have := bit_le e.a.last; have := bit_le e.d.last
  simp only [Enc.base, Enc.xr, hf, beq_iff_eq, reduceCtorEq, if_false]
  omega

/-- The immediate of an R-form: of no XI halfword, or of one (R127). -/
theorem xiList_immR {n : Nat} (imm : Nat) (h : n ≤ 1) :
    (if xiList n imm = [] then 63 else (xiList n imm).foldl (fun acc p => acc * 512 + p) 0) =
      if n = 0 then 63 else imm / 16 % 512 := by
  obtain rfl | rfl : n = 0 ∨ n = 1 := by omega
  all_goals simp [xiList]

/-- A row reads from an encoding's chain the fields of the encoding. -/
theorem fieldsOf_chain {e : Enc} {r : Row} (h : e.Fits) (hf : r.form = e.form) :
    fieldsOf r e.chain .none = e.fields r.nibDef := by
  have hxp : e.xp % 32 = e.var := by have := h.var; rw [Enc.xp]; omega
  have hlen := xiList_length e.imm h.n
  have hsub : Subst.none.at = fun _ => none := by funext b; simp [Subst.at, Subst.none]
  have himm := h.imm
  obtain ⟨hd, ha⟩ := Enc.reg_bits h
  cases hform : e.form <;> rw [hform] at himm hf
  all_goals
    simp only [fieldsOf, Enc.fields, Enc.mask, hf, hform, hsub]
    simp [Enc.chain, payload_getD, hlen, Subst.none, hd, hxp]
  case R =>
    obtain ⟨hb, hal, hbl⟩ := Enc.low_bits_R h hform
    exact ⟨rfl, Src.eq_of ha (beq_of_eq_bit hal), Src.eq_of hb (beq_of_eq_bit hbl), xiList_immR _ himm⟩
  case I =>
    obtain ⟨hb, hi, hal⟩ := Enc.low_bits_I hform
    exact ⟨rfl, Src.eq_of ha (beq_of_eq_bit hal), hb, hi ▸ immOf_xiList h.n himm⟩
  case S =>
    obtain ⟨himm, heven⟩ := himm
    obtain ⟨hb, hi, hal, hdl⟩ := Enc.low_bits_S hform heven
    exact ⟨beq_of_eq_bit hdl, Src.eq_of ha (beq_of_eq_bit hal), hb, hi ▸ immOf_xiList h.n himm⟩

/-! ## Decoding by the row of the cell -/

/-- A register field holds a register of its file, with a last-use mark over a pool only (R104, R107). -/
def File.fits (fl : File) (x : Src) : Bool := decide (x.n < fl.size) && (fl.isPool || !x.last)

/-- A row takes an encoding: no check of R113 to R115 refuses it, and its fields fit their bits. -/
structure Row.Takes (r : Row) (e : Enc) : Prop where
  form : r.form = e.form
  var : r.varOk = true ∧ e.var < 32
  d : r.d.fits ⟨e.d.n, e.form == .S && e.d.last⟩ = true
  a : r.a.fits e.a = true
  b : if e.form = .R then r.b.fits e.b = true else e.b.n = 0
  k : r.d = .k → e.d.n ≠ 0
  xr : r.xr = false ∨ r.d = .cnt → e.xr = 0
  xi : e.n ≤ r.xi ∧ r.xi ≤ 4
  c : (e.c = none ∧ r.c ≠ 2) ∨ (r.c ≠ 0 ∧ ∃ c, e.c = some c ∧ c.n < 64)
  m : e.m = none ∨ r.nib ≠ .none
  nib : match r.nib with | .zero => (e.mask r.nibDef).nib = 0 | .rs => (e.mask r.nibDef).nib < 12 | _ => (e.mask r.nibDef).nib < 16
  mask : (e.mask r.nibDef).k < 8 ∧ (r.mask = true ∨ (e.mask r.nibDef).k = 0 ∧ (e.mask r.nibDef).zero = false) ∧
    (r.zslot = true ∨ (e.mask r.nibDef).zero = false)
  imm : match e.form with
    | .R => e.n ≤ 1
    | .I => e.imm < 2 ^ (4 + 9 * e.n) ∧ (r.imm = false → e.imm = 0)
    | .S => e.imm < 2 ^ (4 + 9 * e.n) ∧ e.imm % 2 = 0 ∧ (r.imm = false → e.imm = 0)
  bad2 : r.bad2 (e.fields r.nibDef) = false
  bad3 : r.bad3 (e.fields r.nibDef) = false

theorem File.size_le (fl : File) : fl.size ≤ 64 := by cases fl <;> decide

theorem File.fits_iff {fl : File} {x : Src} : fl.fits x = true ↔ x.n < fl.size ∧ (fl.isPool = false → x.last = false) := by
  simp only [File.fits, Bool.and_eq_true, decide_eq_true_eq, Bool.or_eq_true, Bool.not_eq_true']
  cases fl.isPool <;> simp

theorem badField_of_fits {fl : File} {x : Src} (h : fl.fits x = true) : badField fl x = false := by
  obtain ⟨hn, hl⟩ := File.fits_iff.mp h
  cases fl <;> simp_all [badField, File.size, File.isPool]

theorem not_beyond_of_fits {fl : File} {x : Src} (h : fl.fits x = true) : (fl != .no && decide (fl.size ≤ x.n)) = false := by
  have := (File.fits_iff.mp h).1
  simp [Nat.not_le.mpr this]

theorem op_lt_of_unreserved {page op : Nat} (h : reservedCell page op = false) : page < 16 ∧ op < 31 := by
  have hp : lastOp page ≤ 30 ∧ (10 ≤ page → lastOp page = 0) := by
    unfold lastOp; split <;> simp
  simp [reservedCell] at h
  omega

section
variable {e : Enc} {r : Row} {i : Instr}

/-- An encoding that keeps the length rule decodes to `i`. -/
def Enc.Decodes (e : Enc) (i : Instr) : Prop :=
  e.halves.length ≤ 5 → decodeAt e.halves .none = .ok (i, e.halves.length)

theorem Row.Takes.mask_fits (h : r.Takes e) : ∀ m ∈ e.m, m.k < 8 ∧ m.nib < 16 := by
  intro m hm
  have hmask : e.mask r.nibDef = m := by rw [Enc.mask, Option.mem_def.mp hm]; rfl
  have hk := h.mask.1
  have hn := h.nib
  rw [hmask] at hk hn
  refine ⟨hk, ?_⟩
  split at hn <;> omega

theorem Row.Takes.fits (h : r.Takes e) (hres : reservedCell e.page e.op = false) : e.Fits := by
  obtain ⟨hpage, hop⟩ := op_lt_of_unreserved hres
  have hfile {fl : File} {n : Nat} {l : Bool} (hx : fl.fits ⟨n, l⟩ = true) : n < 64 :=
    (File.fits_iff.mp hx).1.trans_le fl.size_le
  refine ⟨hpage, h.var.2, hop, hfile h.d, hfile h.a, ?_, h.xi.1.trans h.xi.2, ?_, ?_, h.mask_fits⟩
  · have hb := h.b
    split at hb
    · exact hfile hb
    · omega
  · have := h.imm
    cases hf : e.form <;> rw [hf] at this <;> simp only at this ⊢ <;> omega
  · intro c hc
    obtain ⟨h0, -⟩ | ⟨-, c', h1, h2⟩ := h.c
    · simp [h0] at hc
    · simp [h1] at hc; exact hc ▸ h2

/-- The opcode fields of a chain. -/
theorem chain_opcode (h : e.Fits) : (e.chain.xp.getD 0) / 32 % 16 = e.page ∧ e.chain.half / 2048 % 32 = e.op ∧
    (e.chain.xp.getD 0) % 32 = e.var := by
  obtain ⟨hpage, hvar, hop, -⟩ := h
  have := bit_le e.a.last; have := bit_le e.b.last; have := bit_le e.d.last
  simp only [Enc.chain, payload_getD, Enc.xp]
  refine ⟨by omega, ?_, by omega⟩
  unfold Enc.base
  cases e.form <;> simp only <;> omega

theorem Row.Takes.slots (h : r.Takes e) : Sys2Proof.bad2 r (e.fields r.nibDef) = false := by
  obtain ⟨-, -, hz⟩ := h.mask
  have hn := h.nib
  simp only [Sys2Proof.bad2, Bool.or_eq_false_iff]
  refine ⟨⟨⟨by simp [h.var.1], ?_⟩, ?_⟩, h.bad2⟩
  · rcases hz with hz | hz <;> simp [Enc.fields, hz]
  · cases hk : r.nib <;> rw [hk] at hn
    case zero => simp [Enc.fields, hn]
    case rs => exact decide_eq_false (Nat.not_le.mpr hn)

theorem Row.Takes.unused (h : r.Takes e) : Sys2Proof.bad3 r e.chain (e.fields r.nibDef) = false := by
  obtain ⟨-, hm, -⟩ := h.mask
  have hb := h.b
  have hi := h.imm
  simp only [Sys2Proof.bad3, Bool.or_eq_false_iff]
  refine ⟨⟨⟨⟨⟨⟨?_, badField_of_fits h.d⟩, badField_of_fits h.a⟩, ?_⟩, ?_⟩, ?_⟩, h.bad3⟩
  · rcases hm with hm | ⟨hk, hz⟩ <;> simp [Enc.fields, *]
  · simp only [h.form, Enc.fields, beq_iff_eq]
    split at hb
    · simp [*, badField_of_fits hb]
    · simp [*]
  · rw [h.form]
    cases hf : e.form <;> rw [hf] at hi <;> simp_all [Enc.fields]
  · by_cases hd : r.d = .cnt
    · simp [Enc.chain, h.xr (.inr hd), payload]
    · simp [hd]

theorem Row.Takes.ranges (h : r.Takes e) : bad4 r (e.fields r.nibDef) = false := by
  have hb := h.b
  simp only [bad4, Bool.or_eq_false_iff]
  refine ⟨⟨not_beyond_of_fits h.d, not_beyond_of_fits h.a⟩, ?_⟩
  simp only [h.form, Enc.fields, beq_iff_eq, Bool.and_assoc]
  split at hb
  · simp [*, not_beyond_of_fits hb]
  · simp [*]

theorem Row.Takes.prefixes (h : r.Takes e) : (decide (r.xi < e.chain.xi.length) || !r.xr && e.chain.xr.isSome ||
    e.chain.c.isSome && r.c == 0 || e.chain.m.isSome && r.nib == .none) = false := by
  obtain ⟨hn, hn4⟩ := h.xi
  have hxi : ¬ r.xi < (xiList e.n e.imm).length := by rw [xiList_length _ (hn.trans hn4)]; omega
  simp only [Bool.or_eq_false_iff]
  refine ⟨⟨⟨decide_eq_false hxi, ?_⟩, ?_⟩, ?_⟩
  · cases hx : r.xr
    · simp [Enc.chain, h.xr (.inl hx), payload]
    · rfl
  · obtain ⟨hc, -⟩ | ⟨hc, -⟩ := h.c <;> simp [Enc.chain, hc]
  · obtain hm | hm := h.m <;> simp [Enc.chain, hm]

/-- An encoding that the row of its cell takes decodes to what the row builds of its fields. -/
theorem Row.Takes.decodes (h : r.Takes e) (hres : reservedCell e.page e.op = false) (hrow : rowOf e.page e.op e.var = some r) :
    e.Decodes (r.build (e.fields r.nibDef)) := by
  intro hl
  have hfit := h.fits hres
  obtain ⟨hpage, hop, hvar⟩ := chain_opcode hfit
  have hf := fieldsOf_chain hfit h.form
  have hk : (r.d == .k && (e.fields r.nibDef).d.n == 0) = false := by
    have := h.k
    simp [Enc.fields]; exact this
  have hc : (r.c == 2 && (e.fields r.nibDef).c == none) = false := by
    obtain ⟨-, hc⟩ | ⟨-, c, hc, -⟩ := h.c <;> simp [Enc.fields, hc]
  simp only [decodeAt, parseChain_halves hfit hl, decodeChain, hpage, hop, hvar, hres, hrow, hf, h.prefixes, h.slots, h.unused, h.ranges, hk, hc]
  rfl

end

/-! ## Codes read back (R87, R115, R116) -/

@[simp] theorem ty!_code (t : ETy) : ty! t.code = t := by cases t <;> rfl
@[simp] theorem tyIn_code (c : ETy → Bool) (t : ETy) : tyIn c t.code = c t := by cases t <;> rfl
theorem ETy.code_lt (t : ETy) : t.code < 15 := by cases t <;> decide
@[simp] theorem Rnd.ofCode_code (r : Rnd) : Rnd.ofCode r.code = r := by cases r <;> rfl
@[simp] theorem Cond.ofCode_code (c : Cond) : Cond.ofCode c.code = c := by cases c <;> rfl
@[simp] theorem Scope.ofCode_code (c : Scope) : Scope.ofCode c.code = c := by cases c <;> rfl
@[simp] theorem Order.ofCode_code (c : Order) : Order.ofCode c.code = c := by cases c <;> rfl
@[simp] theorem VoteOp.ofCode_code (c : VoteOp) : VoteOp.ofCode c.code = c := by cases c <;> rfl
@[simp] theorem AmoOp.ofCode_code (c : AmoOp) : AmoOp.ofCode c.code = c := by cases c <;> rfl
@[simp] theorem KOp.ofCode_code (c : KOp) : KOp.ofCode c.code = c := by cases c <;> rfl
@[simp] theorem MFmt.ofCode_code (c : MFmt) : MFmt.ofCode c.code = c := by cases c <;> rfl
theorem Rnd.code_lt (r : Rnd) : r.code < 6 := by cases r <;> decide
theorem Scope.code_lt (c : Scope) : c.code < 4 := by cases c <;> decide
theorem Order.code_lt (c : Order) : c.code < 4 := by cases c <;> decide
theorem MFmt.code_lt (c : MFmt) : c.code < 10 := by cases c <;> decide

/-- The RS nibble read back. -/
theorem rsNib_lt (r : Rnd) (sat : Bool) : rsNib r sat < 12 := by
  have := r.code_lt; have := bit_le sat; unfold rsNib; omega
@[simp] theorem rsNib_div (r : Rnd) (sat : Bool) : rsNib r sat / 2 = r.code := by
  have := bit_le sat; unfold rsNib; omega
@[simp] theorem rsNib_mod (r : Rnd) (sat : Bool) : (rsNib r sat % 2 == 1) = sat := by
  apply beq_of_eq_bit; have := bit_le sat; unfold rsNib; omega

@[simp] theorem Rnd.code_eq_zero (r : Rnd) : r.code = 0 ↔ r = .rne := by cases r <;> simp [Rnd.code]
@[simp] theorem Order.code_eq_zero (o : Order) : o.code = 0 ↔ o = .rlx := by cases o <;> simp [Order.code]

@[simp] theorem AmoOp.code_lt_16 (op : AmoOp) : op.code < 16 := by cases op <;> decide
@[simp] theorem AmoOp.code_lt_nine (op : AmoOp) : op.code < 9 ↔ op ≠ .fadd := by cases op <;> simp [AmoOp.code]
@[simp] theorem AmoOp.word_code_lt (op : AmoOp) : 16 + op.code < 32 := by cases op <;> decide
@[simp] theorem AmoOp.code_eq_fadd (op : AmoOp) : 16 + op.code = 25 ↔ op = .fadd := by cases op <;> simp [AmoOp.code]

/-- The nibble of scope and order read back. -/
theorem Scope.nib_lt (sc : Scope) {n : Nat} (h : n < 4) : sc.code * 4 + n < 16 := by have := sc.code_lt; omega
theorem Scope.nib_div (sc : Scope) {n : Nat} (h : n < 4) : (sc.code * 4 + n) / 4 = sc.code := by omega
theorem Scope.nib_mod (sc : Scope) {n : Nat} (h : n < 4) : (sc.code * 4 + n) % 4 = n := by omega

/-- A mask form left out where it says the defaults says them. -/
@[simp] theorem maskOf_getD (k : Nat) (zero : Bool) (nib dflt : Nat) :
    (maskOf k zero nib dflt).getD ⟨0, false, dflt⟩ = ⟨k, zero, nib⟩ := by
  unfold maskOf; split <;> simp_all

/-! ## What fits each file -/

section
variable {x : Src}
theorem File.fits_pool {fl : File} (h : fl.isPool = true) : fl.fits x = true ↔ x.n < fl.size := by simp [fits_iff, h]
theorem File.fits_plain {fl : File} (h : fl.isPool = false) : fl.fits x = true ↔ x.n < fl.size ∧ x.last = false := by
  simp [fits_iff, h]
@[simp] theorem File.fits_s : File.s.fits x = true ↔ x.n < 64 := fits_pool rfl
@[simp] theorem File.fits_v : File.v.fits x = true ↔ x.n < 64 := fits_pool rfl
@[simp] theorem File.fits_k : File.k.fits x = true ↔ x.n < 8 := fits_pool rfl
@[simp] theorem File.fits_a : File.a.fits x = true ↔ x.n < 8 ∧ x.last = false := fits_plain rfl
@[simp] theorem File.fits_b : File.b.fits x = true ↔ x.n < 4 ∧ x.last = false := fits_plain rfl
@[simp] theorem File.fits_f : File.f.fits x = true ↔ x.n < 4 ∧ x.last = false := fits_plain rfl
@[simp] theorem File.fits_q : File.q.fits x = true ↔ x.n < 16 ∧ x.last = false := fits_plain rfl
@[simp] theorem File.fits_h : File.h.fits x = true ↔ x.n < 16 ∧ x.last = false := fits_plain rfl
@[simp] theorem File.fits_n : File.n.fits x = true ↔ x.n < 16 ∧ x.last = false := fits_plain rfl
@[simp] theorem File.fits_e : File.e.fits x = true ↔ x.n < 32 ∧ x.last = false := fits_plain rfl
@[simp] theorem File.fits_cnt : File.cnt.fits x = true ↔ x.n < 8 ∧ x.last = false := fits_plain rfl
@[simp] theorem File.fits_no : File.no.fits x = true ↔ x.n < 1 ∧ x.last = false := fits_plain rfl
end

/-! ## Immediates read back (R37, R106) -/

theorem immS_nxiS {i : Int} (h : immS 4 i = true) : immS (nxiS i) i = true := by
  unfold nxiS; split_ifs <;> assumption
theorem immU_nxiU {i : Nat} (h : immU 4 i = true) : immU (nxiU i) i = true := by
  unfold nxiU; split_ifs <;> assumption
theorem nxiU_le {n i : Nat} (hn : n ≤ 4) (h : immU n i = true) : nxiU i ≤ n := by
  unfold nxiU
  obtain rfl | rfl | rfl | rfl | rfl : n = 0 ∨ n = 1 ∨ n = 2 ∨ n = 3 ∨ n = 4 := by omega
  all_goals split_ifs <;> simp_all

theorem rawS_lt (i : Int) : rawS i < 2 ^ (4 + 9 * nxiS i) := by
  unfold rawS
  have h := Int.emod_lt_of_pos i (b := 2 ^ (4 + 9 * nxiS i)) (by positivity)
  have h0 := Int.emod_nonneg i (b := 2 ^ (4 + 9 * nxiS i)) (by positivity)
  zify
  rw [Int.toNat_of_nonneg h0]
  exact h

theorem nxiS_cases (i : Int) : nxiS i = 0 ∨ nxiS i = 1 ∨ nxiS i = 2 ∨ nxiS i = 3 ∨ nxiS i = 4 := by
  unfold nxiS; split_ifs <;> simp

theorem nxiS_le (i : Int) : nxiS i ≤ 4 := by have := nxiS_cases i; omega

theorem rawS_even {i : Int} (h : i % 2 = 0) : rawS i % 2 = 0 := by
  unfold rawS
  obtain hn | hn | hn | hn | hn := nxiS_cases i <;> rw [hn] <;> norm_num <;> omega

/-- The two's complement of a signed immediate reads as the immediate. -/
theorem simm_rawS {f : Fd} {i : Int} (h : immS 4 i = true) (hi : f.imm = rawS i) (hw : f.width = 4 + 9 * nxiS i) :
    f.simm = i := by
  have h := immS_nxiS h
  simp only [immS, Bool.and_eq_true, decide_eq_true_eq] at h
  simp only [Fd.simm, hi, hw, rawS]
  obtain hn | hn | hn | hn | hn := nxiS_cases i <;> rw [hn] at h ⊢ <;> norm_num at h ⊢ <;> split <;> omega

/-! ## One lemma for each shape of row

What a shape asks of its row and its instruction is found by evaluation; `w`, that the instruction is well formed, gives the ranges. -/

@[simp] theorem ETy.code_lt_32 (t : ETy) : t.code < 32 := t.code_lt.trans (by decide)
@[simp] theorem ETy.code_lt_16 (t : ETy) : t.code < 16 := t.code_lt.trans (by decide)
@[simp] theorem MFmt.code_lt_32 (c : MFmt) : c.code < 32 := c.code_lt.trans (by decide)
@[simp] theorem bit_true : bit true = 1 := rfl
@[simp] theorem bit_lt_32 (b : Bool) : bit b < 32 := by cases b <;> decide
@[simp] theorem bit_mul_add_lt (b : Bool) {n : Nat} (h : n < 16) : bit b * 16 + n < 32 := by have := bit_le b; omega
@[simp] theorem bit_mul_add_div (b : Bool) {n : Nat} (h : n < 16) : (bit b * 16 + n) / 16 = bit b := by omega
@[simp] theorem bit_beq_one (b : Bool) : (bit b == 1) = b := by cases b <;> rfl
/-- A rounding instruction's slots: an integer type has no rounding mode (R150). -/
theorem VQ.ok_iff {q : VQ} {c : ETy → Bool} : q.ok c = true ↔ q.k < 8 ∧ c q.ty = true ∧ (q.ty.isI = true → q.rnd = .rne) := by
  cases hI : q.ty.isI <;> simp [VQ.ok, hI, and_assoc]
@[simp] theorem c0Of_getD (c : Src) : (c0Of c).getD ⟨0, false⟩ = c := by unfold c0Of; split <;> simp_all
@[simp] theorem c0Of_all (c : Src) : (c0Of c).all (fun x => decide (x.n < 64)) = decide (c.n < 64) := by
  unfold c0Of; split <;> simp_all

/-- The slots and the third source of an encoding suit a row (R109). -/
def Row.suits (r : Row) (e : Enc) : Bool :=
  let f := e.mask r.nibDef
  (e.c.isNone || r.c != 0) && (e.c.isSome || r.c != 2) && e.c.all (·.lt 64) && (e.m.isNone || r.nib != .none) &&
  (match r.nib with | .zero => f.nib == 0 | .rs => decide (f.nib < 12) | _ => decide (f.nib < 16)) && decide (f.k < 8) &&
  (r.mask || f.k == 0 && !f.zero) && (r.zslot || !f.zero)

section
variable {e : Enc} {r : Row} {i : Instr}

theorem Row.suits_c (h : r.suits e = true) : (e.c = none ∧ r.c ≠ 2) ∨ (r.c ≠ 0 ∧ ∃ x, e.c = some x ∧ x.n < 64) := by
  cases hc : e.c <;> simp_all [Row.suits, Src.lt]

theorem Row.suits_m (h : r.suits e = true) : e.m = none ∨ r.nib ≠ .none := by
  cases hm : e.m <;> simp_all [Row.suits]

theorem Row.suits_mask (h : r.suits e = true) : (e.mask r.nibDef).k < 8 ∧
    (r.mask = true ∨ (e.mask r.nibDef).k = 0 ∧ (e.mask r.nibDef).zero = false) ∧
    (r.zslot = true ∨ (e.mask r.nibDef).zero = false) := by
  simp only [Row.suits, Bool.and_eq_true] at h
  obtain ⟨⟨⟨-, hk⟩, hm⟩, hz⟩ := h
  exact ⟨by simpa using hk, by simpa using hm, by simpa using hz⟩

theorem Row.suits_nib (h : r.suits e = true) :
    match r.nib with | .zero => (e.mask r.nibDef).nib = 0 | .rs => (e.mask r.nibDef).nib < 12 | _ => (e.mask r.nibDef).nib < 16 := by
  simp only [Row.suits, Bool.and_eq_true] at h
  obtain ⟨⟨⟨⟨-, hn⟩, -⟩, -⟩, -⟩ := h
  cases hr : r.nib <;> rw [hr] at hn <;> simpa using hn

theorem lt_pow_nxiU {n : Nat} (h : n < 2 ^ 40) : n < 2 ^ (4 + 9 * nxiU n) := by
  have := immU_nxiU (i := n) (by simpa [immU] using h)
  simpa [immU] using this
theorem lt_pow_nxiU_of_one {n : Nat} (h : n < 2 ^ 13) : n < 2 ^ (4 + 9 * nxiU n) := lt_pow_nxiU (by omega)
theorem nxiU_le_four (n : Nat) : nxiU n ≤ 4 := by unfold nxiU; split_ifs <;> decide
theorem nxiU_le_one {n : Nat} (h : n < 2 ^ 13) : nxiU n ≤ 1 := nxiU_le (n := 1) (by decide) (by simpa [immU] using h)
theorem simm_fields {d a b : Src} {c : Option Src} {var nib k : Nat} {zero : Bool} {x : Int} (h : immS 4 x = true) :
    Fd.simm ⟨d, a, b, c, rawS x, 4 + 9 * nxiS x, var, nib, k, zero⟩ = x := simm_rawS h rfl rfl

theorem lt_pow_nxiU_of_reg {n : Nat} (h : n < 64) : n < 2 ^ (4 + 9 * nxiU n) := lt_pow_nxiU (by omega)
theorem nxiU_le_one_of_reg {n : Nat} (h : n < 64) : nxiU n ≤ 1 := nxiU_le_one (by omega)

/-- An instruction whose row takes its encoding and builds it. -/
theorem decodes_of_row (w : i.wf = true)
    (hrow : rowOf e.page e.op e.var = some r := by rfl)
    (hres : reservedCell e.page e.op = false := by rfl)
    (hform : r.form = e.form ∧ r.xi ≤ 4 := by exact ⟨rfl, Nat.le_of_ble_eq_true rfl⟩)
    (hb : i.wf = true → r.build (e.fields r.nibDef) = i := by
      delta Instr.wf
      simp +contextual [Enc.fields, Enc.mask, Fd.ty, Fd.mq, Fd.vq, Fd.c0, simm_fields, Nat.mod_eq_of_lt, immE, dst, encR, encM, encV,
        encI, encU, encS, RgOp.code, RgOp.ofCode, MxStat.code, DqKind.code, SeekDir.code, Scope.nib_div, Scope.nib_mod, Order.code_lt,
        rowReg, rowSss, rowSs, rowCb, rowNone, rowV3rs, rowV2rs, rowV3, rowV2, rowSo, rowSsi, rowSsu, rowVld, rowVst, rowCode] <;> omega)
    (h : i.wf = true → (r.varOk = true ∧ e.var < 32) ∧ r.d.fits ⟨e.d.n, e.form == .S && e.d.last⟩ = true ∧ r.a.fits e.a = true ∧
        (if e.form = .R then r.b.fits e.b = true else e.b.n = 0) ∧ (r.d = .k → e.d.n ≠ 0) ∧
        (r.xr = true ∧ r.d ≠ .cnt ∨ e.d.n < 8 ∧ e.a.n < 8 ∧ e.b.n < 8) ∧ r.suits e = true ∧ e.n ≤ r.xi ∧
        (if e.form = .R then e.n ≤ 1 else e.imm < 2 ^ (4 + 9 * e.n) ∧ (r.imm = true ∨ e.imm = 0) ∧ (e.form = .S → e.imm % 2 = 0)) ∧
        r.bad2 (e.fields r.nibDef) = false ∧ r.bad3 (e.fields r.nibDef) = false := by
      delta Instr.wf
      simp +contextual [Row.suits, Fd.ty, Enc.mask, Enc.fields, MQ.ok, VQ.ok_iff, okSss, Src.lt, dst, noSrc, encR, encM, encV, encI, encU,
        encS, immE, immU, VoteOp.code, KOp.code, KMov.code, RgOp.code, MxStat.code, SeekDir.code, DqKind.code, em', soBar,
        Scope.nib_lt, Scope.nib_mod, Order.code_lt, Cond.code, MFmt.code_lt, ETy.code_lt, rsNib_lt, Nat.mod_eq_of_lt,
        Nat.pos_iff_ne_zero, Nat.one_le_iff_ne_zero, rawS_lt, rawS_even, nxiS_le, lt_pow_nxiU, lt_pow_nxiU_of_one,
        lt_pow_nxiU_of_reg, nxiU_le_one, nxiU_le_one_of_reg, nxiU_le_four,
        rowReg, rowSss, rowSs, rowCb, rowNone, rowV3rs, rowV2rs, rowV3, rowV2, rowSo, rowSsi, rowSsu, rowVld, rowVst, rowCode] <;> omega) :
    e.Decodes i := by
  obtain ⟨hvar, hd, ha, hb', hk, hx, hs, hxi, hi, h2, h3⟩ := h w
  obtain ⟨hrf, hxi4⟩ := hform
  rw [← hb w]
  refine Row.Takes.decodes ?_ hres hrow
  exact { form := hrf, var := hvar, d := hd, a := ha, b := hb', k := hk
          xr := fun hr => by
            obtain ⟨hd, ha, hb⟩ := hx.resolve_left (by rintro ⟨h1, h2⟩; simp [h1, h2] at hr)
            simp only [Enc.xr]; split <;> omega
          xi := ⟨hxi, hxi4⟩, c := r.suits_c hs, m := r.suits_m hs, nib := r.suits_nib hs, mask := r.suits_mask hs, bad2 := h2, bad3 := h3
          imm := by
            cases hf : e.form <;> simp only [hf, reduceIte, reduceCtorEq] at hi
            case R => exact hi
            case I => exact ⟨hi.1, fun h => hi.2.1.resolve_left (by simp [h])⟩
            case S => exact ⟨hi.1, hi.2.2 trivial, fun h => hi.2.1.resolve_left (by simp [h])⟩ }
end

/-! ## Every page of the opcode map (R117) -/

section
variable {i : Instr} {e : Enc}

/-- The encoding of a reserved cell, whose fields are the bits of its base halfword. -/
def reservedEnc (page half : Nat) : Enc :=
  { page := page, op := half / 2048, d := dst (half / 256 % 8), a := ⟨half / 32 % 8, half / 2 % 2 == 1⟩
    b := ⟨half / 4 % 8, half % 2 == 1⟩ }

theorem reservedEnc_base (page half : Nat) : (reservedEnc page half).base = half := by
  have hbit (n : Nat) : bit (n % 2 == 1) = n % 2 := by
    obtain h | h := Nat.mod_two_eq_zero_or_one n <;> simp [h, bit]
  simp only [Enc.base, reservedEnc, dst, hbit]; omega

theorem decodes_reserved {page half : Nat} (w : (Instr.reservedOpcode page half).wf = true)
    (he : enc (.reservedOpcode page half) = some e) : e.Decodes (.reservedOpcode page half) := by
  intro hl
  obtain ⟨hh, hp, hres⟩ : half < 63488 ∧ page < 16 ∧ reservedCell page (half / 2048) = true := by
    delta Instr.wf at w; simpa [and_assoc] using w
  obtain rfl : reservedEnc page half = e := Option.some.inj he
  have hfit : (reservedEnc page half).Fits := by
    constructor <;> simp [reservedEnc, dst, hp] <;> omega
  obtain ⟨hpage, hop, -⟩ := chain_opcode hfit
  have hcell : reservedCell (reservedEnc page half).page (reservedEnc page half).op = true := hres
  simp only [decodeAt, parseChain_halves hfit hl, decodeChain, hpage, hop, hcell]
  simp only [if_true, Enc.chain, reservedEnc_base]
  rfl

theorem decodes_wait {l s c m h : Nat} (w : (Instr.wait l s c m h).wf = true) (he : enc (.wait l s c m h) = some e) :
    e.Decodes (.wait l s c m h) := by
  obtain ⟨hl, hs, hc, hm, hh⟩ : l < 8 ∧ s < 8 ∧ c < 8 ∧ m < 8 ∧ h < 8 := by
    delta Instr.wf at w; simpa [and_assoc] using w
  simp only [enc, Option.some.injEq] at he
  subst he
  have hxi : (if m == 7 && h == 7 then 0 else 1) ≤ 1 := by split_ifs <;> decide
  have himm : (if (if m == 7 && h == 7 then 0 else 1) = 0 then 63 else (m + 8 * h) * 16 / 16 % 512) = m + 8 * h := by
    split_ifs <;> simp_all
    omega
  generalize (if m == 7 && h == 7 then 0 else 1) = n at hxi himm ⊢
  refine decodes_of_row w (hb := fun _ => ?_) (h := fun _ => ?_)
  · simp only [Enc.fields, beq_self_eq_true, if_true, himm, dst]
    congr 1
    · omega
    · omega
  · have himm' : (if n = 0 then 63 else (m + 8 * h) % 512) = m + 8 * h := by simpa using himm
    simp [Row.suits, Enc.mask, Enc.fields, dst, himm', hxi]
    omega

/-- Bit fields packed below a bound (R140, R143). -/
theorem decodes_mcall {slot p0 p1 p2 p3 : Nat} (w : (Instr.mcall slot p0 p1 p2 p3).wf = true) (he : enc (.mcall slot p0 p1 p2 p3) = some e) :
    e.Decodes (.mcall slot p0 p1 p2 p3) := by
  obtain ⟨h, h0, h1, h2, h3⟩ : slot < 64 ∧ p0 < 64 ∧ p1 < 64 ∧ p2 < 64 ∧ p3 < 64 := by
    delta Instr.wf at w; simpa [and_assoc] using w
  cases he
  set n := slot + 64 * p0 + 4096 * p1 + 262144 * p2 + 16777216 * p3 with hn
  have hlt : n < 2 ^ 30 := by omega
  have hxi : nxiU n ≤ 3 := nxiU_le (n := 3) (by decide) (by simp [immU]; omega)
  have himm := lt_pow_nxiU (n := n) (by omega)
  refine decodes_of_row w (hb := fun _ => ?_) (h := fun _ => ?_)
  · simp only [Enc.fields, encU]
    congr 1 <;> omega
  · simp [Row.suits, Enc.mask, Enc.fields, encU, noSrc, hxi, himm]
    omega

/-- The position and length of a bit field are packed below 4096 (R121). -/
theorem pos_len_packed {pos len : Nat} (h : pos < 64) (h1 : 1 ≤ len) (hl : len ≤ 64) : pos + 64 * (len - 1) < 4096 ∧
    (pos + 64 * (len - 1)) % 64 = pos ∧ (pos + 64 * (len - 1)) / 64 % 64 + 1 = len := by omega

theorem decodes_page0 (w : i.wf = true) (he : enc i = some e) (hp : e.page = 0) : e.Decodes i := by
  cases i with
  | add | addi | sub | and | or | xor | slli | srli | srai | li | mov | slt | sltu | seq | ld | st | pbr | br | brnz | brz | vld | vst | vmov
  | vfma | vadd | vmul | haltKill => cases he; exact decodes_of_row w
  | halt => cases he; exact decodes_of_row w
  | sync op => cases op <;> cases he <;> exact decodes_of_row w
  | wait => exact decodes_wait w he
  | mcall => exact decodes_mcall w he
  | reservedOpcode => exact decodes_reserved w he
  | _ => cases he <;> cases hp

theorem decodes_page1 (w : i.wf = true) (he : enc i = some e) (hp : e.page = 1) : e.Decodes i := by
  cases i with
  | mul | mulh | mulhu | div | divu | rem | remu | sll | srl | sra | clz | ctz | popc | min | max | minu | maxu | lea
  | fshr | sel | andi | ori | xori =>
    cases he; exact decodes_of_row w
  | sext x | zext x =>
    have hx : x = 8 ∨ x = 16 ∨ x = 32 := by delta Instr.wf at w; simp at w; omega
    obtain rfl | rfl | rfl := hx <;> cases he <;> exact decodes_of_row w
  | bext d a pos len | bins d a pos len =>
    obtain ⟨hd, ha, hp, h1, h2⟩ : d < 64 ∧ a.n < 64 ∧ pos < 64 ∧ 1 ≤ len ∧ len ≤ 64 := by
      delta Instr.wf at w; simpa [Src.lt, and_assoc] using w
    obtain ⟨hlt, hpos, hlen⟩ := pos_len_packed hp h1 h2
    cases he
    refine decodes_of_row w (hb := fun _ => ?_) (h := fun _ => ?_)
    · simp [Enc.fields, encU, dst, hpos, hlen]
    · have hpow := lt_pow_nxiU (hlt.trans (by decide))
      have hxi := nxiU_le_one (hlt.trans (by decide))
      simp [Enc.fields, Row.suits, Enc.mask, rowSsu, encU, dst, hd, ha, hlt, hpow, hxi]
  | reservedOpcode => exact decodes_reserved w he
  | _ => cases he <;> cases hp

theorem decodes_page2 (w : i.wf = true) (he : enc i = some e) (hp : e.page = 2) : e.Decodes i := by
  cases i with
  | call | callB | ret | breq | brne | brlt | brge | brltu | brgeu | pbrr | mfb | yield | trap | tret | mfc | mtc | rdtime | rdcyc | mcw | mcinv
  | rpwS | rpwV | rpwDone | rpwKill | spawn | tsig | ebrk | retire | pgateReq | pgateQ | pwake | tmwait => cases he; exact decodes_of_row w
  | reservedOpcode => exact decodes_reserved w he
  | _ => cases he <;> cases hp

theorem decodes_page3 (w : i.wf = true) (he : enc i = some e) (hp : e.page = 3) : e.Decodes i := by
  cases i with
  | ldx | stx | vldu | vstm | vgath | vscat | aggadd | ldc | vldc | pref | clinv | clwb => cases he; exact decodes_of_row w
  | amo op word => cases word <;> cases he <;> exact decodes_of_row w
  | cas => cases he; exact decodes_of_row w
  | fence => cases he; exact decodes_of_row w
  | reservedOpcode => exact decodes_reserved w he
  | _ => cases he <;> cases hp

theorem decodes_page4 (w : i.wf = true) (he : enc i = some e) (hp : e.page = 4) : e.Decodes i := by
  cases i with
  | vsub | vand | vor | vxor | vsll | vsrl | vsra | vfsh | vmin | vmax | vabs | vneg | vsel | vbcast | vext | vins | vperm | vrot
  | vgmax | vgsum | vscan | vclz | vpopc | kpop | vcompr | vspread | viota => cases he; exact decodes_of_row w
  | vcmp c => cases c <;> cases he <;> exact decodes_of_row w
  | kop op => cases op <;> cases he <;> exact decodes_of_row w
  | kmov op => cases op <;> cases he <;> exact decodes_of_row w
  | reservedOpcode => exact decodes_reserved w he
  | _ => cases he <;> cases hp

theorem decodes_page5 (w : i.wf = true) (he : enc i = some e) (hp : e.page = 5) : e.Decodes i := by
  cases i with
  | vrcp | vrsqrt | vexp2 | vlog2 | vtanh | vcvt | vround | vclass | vscale | vdot | vpack | vunpk | vqst | vqenc | vseed =>
    cases he; exact decodes_of_row w
  | vdq kind => cases kind <;> cases he <;> exact decodes_of_row w
  | reservedOpcode => exact decodes_reserved w he
  | _ => cases he <;> cases hp

theorem decodes_page6 (w : i.wf = true) (he : enc i = some e) (hp : e.page = 6) : e.Decodes i := by
  cases i with
  | mxbind | mxunbind | mx | mxg | mxzero | mxld | mxst | mxdrain | drrow | drput | drdone | plane | unplane => cases he; exact decodes_of_row w
  | mxstat op => cases op <;> cases he <;> exact decodes_of_row w
  | reservedOpcode => exact decodes_reserved w he
  | _ => cases he <;> cases hp

theorem decodes_page7 (w : i.wf = true) (he : enc i = some e) (hp : e.page = 7) : e.Decodes i := by
  cases i with
  | rgdef | rgrsv | rgpub | rgcon | cpy | cpys | cpst | fpush | fpop | ffree | xput | xred | xget | xfin | msend | mrecv | mpoll =>
    cases he; exact decodes_of_row w
  | rgst op => cases op <;> cases he <;> exact decodes_of_row w
  | reservedOpcode => exact decodes_reserved w he
  | _ => cases he <;> cases hp

theorem decodes_page8 (w : i.wf = true) (he : enc i = some e) (hp : e.page = 8) : e.Decodes i := by
  cases i with
  | bardef | barv | barw | barwT | bartx | barst | evwait | evsig | evsigRmt | keyqOwn | keyqId | keyrel | shadow | publishSwap
  | publishDrop | snapTake | snapDrop | tlbinvPage | tlbinvAll => cases he; exact decodes_of_row w
  | bar rel | bararr rel => cases rel <;> cases he <;> exact decodes_of_row w
  | reservedOpcode => exact decodes_reserved w he
  | _ => cases he <;> cases hp

theorem decodes_page9 (w : i.wf = true) (he : enc i = some e) (hp : e.page = 9) : e.Decodes i := by
  cases i with
  | hrd | hwr | hrew | hpos | hstride | htake | hgive | hrealign | hmark | hburst | hfill => cases he; exact decodes_of_row w
  | hseek dir => cases dir <;> cases he <;> exact decodes_of_row w
  | reservedOpcode => exact decodes_reserved w he
  | _ => cases he <;> cases hp

/-- Only a reserved cell has a page above 9. -/
theorem page_le_nine (he : enc i = some e) : e.page ≤ 9 ∨ ∃ page half, i = .reservedOpcode page half := by
  cases i with
  | reservedOpcode page half => exact .inr ⟨page, half, rfl⟩
  | _ => cases he <;> exact .inl (Nat.le_of_ble_eq_true rfl)

theorem decodes_of_wf (w : i.wf = true) (he : enc i = some e) : e.Decodes i := by
  obtain hp | ⟨page, half, rfl⟩ := page_le_nine he
  · interval_cases hn : e.page
    · exact decodes_page0 w he hn
    · exact decodes_page1 w he hn
    · exact decodes_page2 w he hn
    · exact decodes_page3 w he hn
    · exact decodes_page4 w he hn
    · exact decodes_page5 w he hn
    · exact decodes_page6 w he hn
    · exact decodes_page7 w he hn
    · exact decodes_page8 w he hn
    · exact decodes_page9 w he hn
  · exact decodes_reserved w he

/-- Only the steps of the other agents have no encoding. -/
theorem enc_isSome (h : Machine.isEvent i = false) : ∃ e, enc i = some e := by
  cases hi : enc i with
  | some e => exact ⟨e, rfl⟩
  | none =>
    revert h
    cases i <;> cases hi <;> exact nofun
end

/-- Settles O57: the chain of an encoding is read back one halfword after another, and the row of its cell takes it and builds the instruction. -/
theorem decodeOfEncode : Obligations.DecodeOfEncode := by
  unfold Obligations.DecodeOfEncode
  intro i hw hi
  obtain ⟨e, he⟩ := enc_isSome hi
  have hen : encode i = e.halves := by simp [encode, he]
  simp only [Instr.wellFormed, hen, Bool.and_eq_true, decide_eq_true_eq] at hw ⊢
  exact decodes_of_wf hw.1 he hw.2

end Sys2Proof
end

section
/-! PROOF (O58). What the operations on the state do to the form of the memory: those that leave the memory alone, and those
that write it through `Memory.write`, `Memory.putBytes` and filters, which keep it in form. -/
namespace Sys2Proof.Machine

/-- A fold of steps that keep the memory's form keeps it. -/
theorem foldl_wf {α : Type} {f : State → α → State} (hf : ∀ s a, s.mem.wf = true → (f s a).mem.wf = true) :
    ∀ {l : List α} {s : State}, s.mem.wf = true → (l.foldl f s).mem.wf = true
  | [], _, w => w
  | a :: l, s, w => foldl_wf (l := l) hf (hf s a w)

@[simp] theorem State.setCore_mem (s : State) (n : Nat) (c : Core) : (s.setCore n c).mem = s.mem := rfl

@[simp] theorem State.setCtx_mem (s : State) (cid : Nat) (c : Ctx) :
    (s.setCtx cid c).mem = s.mem := by
  unfold State.setCtx; split <;> rfl

@[simp] theorem State.modCtx_mem (s : State) (cid : Nat) (f : Ctx → Ctx) :
    (s.modCtx cid f).mem = s.mem := by
  unfold State.modCtx; split <;> simp

@[simp] theorem State.mapCtxs_mem (s : State) (f : Ctx → Ctx) : (s.mapCtxs f).mem = s.mem := rfl

@[simp] theorem State.checkout_mem (s : State) (cid : Nat) : (s.checkout cid).mem = s.mem := by
  unfold State.checkout; (repeat' split) <;> simp

@[simp] theorem State.takeTrapAt_mem (s : State) (code : Nat) (info at_ : Word) : (takeTrapAt s code info at_).mem = s.mem := by
  unfold takeTrapAt; (repeat' split) <;> simp

@[simp] theorem State.takeTrap_mem (s : State) (code : Nat) (info : Word) :
    (takeTrap s code info).mem = s.mem := by
  simp [takeTrap]

@[simp] theorem State.uncount_mem (s : State) (cid cls : Nat) : (s.uncount cid cls).mem = s.mem := by simp [State.uncount]

@[simp] theorem State.keepEntries_mem (s : State) (stack : Nat) (es : List WalkEntry) :
    (s.keepEntries stack es).mem = s.mem := rfl

@[simp] theorem State.storeBlock_wf {s : State} {blk : Nat} (w : s.mem.wf = true) : (s.storeBlock blk).mem.wf = true := by
  simp [State.storeBlock, Memory.putBytes_wf, w]

@[simp] theorem State.poisonBlock_mem (s : State) (part blk : Nat) : (s.poisonBlock part blk).mem = s.mem := by
  unfold State.poisonBlock; split <;> rfl

@[simp] theorem State.bringIn_wf {s : State} {part : Nat} {cmp : Bool} {blk : Nat} (w : s.mem.wf = true) :
    (s.bringIn part cmp blk).mem.wf = true := bringIn_mem_wf part cmp blk w

@[simp] theorem State.ownBlocks_mem (s : State) (cmp : Bool) (frame n : Nat) : (s.ownBlocks cmp frame n).mem = s.mem := rfl

@[simp] theorem State.tearBlock_wf {s : State} {cmp : Bool} {blk : Nat} (w : s.mem.wf = true) :
    (s.tearBlock cmp blk).mem.wf = true := by
  simp only [State.tearBlock]; exact Memory.putBytes_wf _ _ w

@[simp] theorem State.renewBlock_wf {s : State} {cmp : Bool} {blk : Nat} (w : s.mem.wf = true) :
    (s.renewBlock cmp blk).mem.wf = true := by
  unfold State.renewBlock; split <;> simp [w]

@[simp] theorem State.enterBlock_wf {s : State} {part : Nat} {cmp whole : Bool} {blk : Nat} (w : s.mem.wf = true) :
    (s.enterBlock part cmp whole blk).2.mem.wf = true := by
  unfold State.enterBlock; dsimp only; split
  · exact State.bringIn_wf w
  · split
    · exact State.renewBlock_wf (State.bringIn_wf w)
    · exact State.bringIn_wf w

@[simp] theorem State.storeBlocks_wf : ∀ {n blk : Nat} {s : State}, s.mem.wf = true → (s.storeBlocks blk n).mem.wf = true
  | 0, _, _, w => w
  | _ + 1, _, _, w => by
    unfold State.storeBlocks
    refine State.storeBlocks_wf ?_
    split <;> simp [w]

@[simp] theorem State.tearBlocks_wf :
    ∀ {n : Nat} {cmp : Bool} {blk : Nat} {s : State}, s.mem.wf = true → (s.tearBlocks cmp blk n).mem.wf = true
  | 0, _, _, _, w => w
  | _ + 1, _, _, _, w => by
    unfold State.tearBlocks
    exact State.tearBlocks_wf (State.tearBlock_wf w)

@[simp] theorem State.seen_wf {s : State} {part vp : Nat} {p : Pte} (w : s.mem.wf = true) :
    (s.seen part vp p).mem.wf = true := by
  unfold State.seen; dsimp only; (repeat' split) <;> simp [w]

@[simp] theorem State.missed_wf {s : State} {cl part va : Nat} (w : s.mem.wf = true) : (s.missed cl part va).mem.wf = true := by
  unfold State.missed; dsimp only; (repeat' split) <;> simp [w]

@[simp] theorem State.bringAt_wf {s : State} {part va : Nat} {k : Acc} {p : Pte} (w : s.mem.wf = true) :
    (s.bringAt part va k p).mem.wf = true := by
  unfold State.bringAt; (repeat' split) <;> simp [w]

@[simp] theorem State.bringAll_wf {s : State} {c : Ctx} {k : Acc} {ts : List (Nat × Except Nat Pte)} {vas : List Nat}
    (w : s.mem.wf = true) : (s.bringAll c k ts vas).mem.wf = true := by
  unfold State.bringAll; split
  · exact w
  · refine foldl_wf (fun s va w => ?_) w
    split <;> simp [w]

@[simp] theorem State.settle_mem (s : State) (ws : List Nat) : (s.settle ws).mem = s.mem := rfl
@[simp] theorem State.setLines_mem (s : State) (ls : List Line) : (s.setLines ls).mem = s.mem := rfl
@[simp] theorem State.useLine_mem (s : State) (l : Line) : (s.useLine l).mem = s.mem := Machine.useLine_mem s l

@[simp] theorem State.putShared_wf {s : State} {key : Nat} {bs : List Byte} (w : s.mem.wf = true) :
    (s.putShared key bs).mem.wf = true := by
  rw [putShared_mem]; exact Memory.putBytes_wf _ _ w

@[simp] theorem State.putStore_wf {s : State} {key : Nat} {bs : List Byte} (w : s.mem.wf = true) :
    (s.putStore key bs).mem.wf = true := by
  unfold State.putStore; dsimp only; (repeat' split) <;> simp [w]

@[simp] theorem State.cleanLine_mem (s : State) (line : Nat) (drop : Bool) : (s.cleanLine line drop).mem = s.mem := by
  unfold State.cleanLine; split <;> rfl

@[simp] theorem State.cleanAll_mem (s : State) (drop : Bool) : (s.cleanAll drop).mem = s.mem :=
  foldl_mem (f := fun s (l : Line) => s.settle (lineWords l.line l.written)) (fun _ _ => rfl) _ _

@[simp] theorem State.fireLine_mem (s : State) (cl e : Nat) :
    (s.fireLine cl e).mem = s.mem := by
  unfold State.fireLine; split <;> rfl

@[simp] theorem State.bringGlobal_wf {s : State} {part va : Nat} {k : Acc} (w : s.mem.wf = true) :
    (s.bringGlobal part va k).mem.wf = true :=
  bringGlobal_mem_wf part va k w

@[simp] theorem State.bringRange_wf {s : State} {part va n : Nat} {k : Acc} (w : s.mem.wf = true) :
    (s.bringRange part va n k).mem.wf = true := by
  unfold State.bringRange; exact foldl_wf (fun _ _ w => by simp [w]) w

@[simp] theorem State.reach_wf {s : State} {part va : Nat} {k : Acc} (w : s.mem.wf = true) :
    (s.reach part va k).1.mem.wf = true :=
  State.bringGlobal_wf w

@[simp] theorem State.storeGlobal_wf : ∀ {n : Nat} {s : State} {part va : Nat} {bs : List Byte}, s.mem.wf = true →
    (s.storeGlobal part va bs n).1.mem.wf = true
  | 0, _, _, _, _, w => w
  | n + 1, _, _, _, bs, w => by
    unfold State.storeGlobal; split
    · exact w
    · dsimp only; split
      · exact State.storeGlobal_wf (State.putShared_wf (State.reach_wf w))
      · exact State.reach_wf w

@[simp] theorem State.postCut_wf {s : State} {part va n : Nat} (w : s.mem.wf = true) : (s.postCut part va n).mem.wf = true := by
  simp only [State.postCut]; exact State.storeGlobal_wf w

/-- The state that an attempt leaves, done or not, has its memory in form. -/
def LeavesWf {α : Type} : Except (α × State) State → Prop
  | .ok t => t.mem.wf = true
  | .error e => e.2.mem.wf = true

theorem State.post_wf {s : State} {id : Nat} {b : Bad} (w : s.mem.wf = true) : LeavesWf (s.post id b) := by
  unfold State.post; dsimp only
  split
  · exact w
  · split
    · exact w
    · split <;> rename_i hd
      · exact State.postCut_wf w
      · have wd := hd ▸ State.storeGlobal_wf (n := 16) w
        split <;> rename_i he
        · exact State.postCut_wf w
        · have we := he ▸ State.storeGlobal_wf (n := 8) wd
          split <;> simpa [LeavesWf] using we

@[simp] theorem State.defer_mem (s : State) (cid code : Nat) (info : Word) (at_ : Option Word) :
    (s.defer cid code info at_).mem = s.mem := by
  simp [State.defer]

@[simp] theorem State.modKeySlot_mem (s : State) (idx : Nat) (f : KeySlot → KeySlot) : (s.modKeySlot idx f).mem = s.mem := rfl

@[simp] theorem State.acquireKeys_mem (s : State) (n : Nat) (i : Inst) : (s.acquireKeys n i).mem = s.mem :=
  foldl_mem (f := fun s (e : Nat × Bool) => s.modKeySlot e.1 fun k => k.take n e.2) (fun _ _ => rfl) _ _

@[simp] theorem State.releaseKey_mem (s : State) (n idx : Nat) : (s.releaseKey n idx).mem = s.mem := by
  unfold State.releaseKey; dsimp only; (repeat' split) <;> simp

@[simp] theorem State.releaseKeys_mem (s : State) (n : Nat) : (s.releaseKeys n).mem = s.mem := by simp [State.releaseKeys]

@[simp] theorem State.unreserve_mem (s : State) (n : Nat) : (s.unreserve n).mem = s.mem := by
  unfold State.unreserve; split
  · rfl
  · exact foldl_mem (f := fun s (e : Nat × Bool) => s.modKeySlot e.1 fun k => k.unreserve n) (fun _ _ => rfl) _ _

theorem State.flitsOn_mem {vl ty : Nat} : ∀ {l : List Nat} {s t : State}, s.flitsOn vl ty l = some t → t.mem = s.mem
  | [], _, _, h => by cases h; rfl
  | l :: ls, s, t, h => by
    unfold State.flitsOn at h
    split at h
    · cases h
    · exact (State.flitsOn_mem h).trans rfl

theorem State.request_mem {s t : State} {a b : Nat} (h : s.request a b = some t) : t.mem = s.mem := State.flitsOn_mem h

@[simp] theorem State.askFlit_mem (s : State) (l vl ty : Nat) (pay : List Nat) : (s.askFlit l vl ty pay).mem = s.mem := by
  unfold State.askFlit; split <;> rfl

@[simp] theorem State.sendFlit_mem (s : State) (l : Nat) : (s.sendFlit l).mem = s.mem := by
  unfold State.sendFlit; dsimp only; (repeat' split) <;> simp

@[simp] theorem State.sendIdle_mem (s : State) (l : Nat) : (s.sendIdle l).mem = s.mem := by unfold State.sendIdle; split <;> rfl
@[simp] theorem State.modBarrier_mem (s : State) (cl n : Nat) (f : Barrier → Barrier) : (s.modBarrier cl n f).mem = s.mem := rfl

@[simp] theorem State.landBytes_mem (s : State) (cl n k cid : Nat) : (s.landBytes cl n k cid).mem = s.mem := by
  unfold State.landBytes; dsimp only; (repeat' split) <;> simp

@[simp] theorem State.addBad_mem (s : State) (b : Bad) : (s.addBad b).mem = s.mem := rfl
@[simp] theorem State.cycles_mem (s : State) (core n : Nat) : (s.cycles core n).mem = s.mem := rfl
@[simp] theorem State.charged_mem (s : State) (core : Nat) : (s.charged core).mem = s.mem := rfl

@[simp] theorem State.notReady_mem (s : State) (cid : Nat) : (s.notReady cid).mem = s.mem := by
  unfold State.notReady; (repeat' split) <;> simp

theorem State.boundary_mem {s t : State} (h : s.boundary = some t) : t.mem = s.mem := by
  unfold State.boundary at h
  (repeat' split at h) <;> cases h <;> simp

@[simp] theorem State.latched_mem (s : State) (len : Nat) : (s.latched len).mem = s.mem := rfl

@[simp] theorem State.scramble_wf {s : State} {core bank n : Nat} (w : s.mem.wf = true) :
    (s.scramble core bank n).mem.wf = true := by
  simp only [State.scramble]
  exact Memory.foldl_write_wf (fun o => (bankKey core bank o, Config.freeByte (n * 16384 + o))) _ w

@[simp] theorem State.giveRing_mem (s : State) (p : Nat) (v : Word) :
    (s.giveRing p v).mem = s.mem := by
  unfold State.giveRing; split <;> rfl

@[simp] theorem storeLocated_wf : ∀ {fuel : Nat} {l : List (Nat × Byte × Except Nat Nat)} {s : State}, s.mem.wf = true →
    (storeLocated fuel l s).mem.wf = true
  | 0, _, _, w => w
  | _ + 1, [], _, w => w
  | _ + 1, (_, _, .ok _) :: _, _, w => by
    unfold storeLocated; dsimp only
    split
    · exact storeLocated_wf (State.putStore_wf w)
    · exact storeLocated_wf (State.putStore_wf w)
  | _ + 1, (_, _, .error _) :: _, _, w => by unfold storeLocated; exact storeLocated_wf w

@[simp] theorem State.putOwn_wf {c : Ctx} :
    ∀ {bs : List Byte} {va : Nat} {s : State}, s.mem.wf = true → (s.putOwn c va bs).mem.wf = true
  | [], _, _, w => w
  | _ :: _, _, _, w => by
    unfold State.putOwn
    refine State.putOwn_wf ?_
    split
    · exact Memory.write_wf w _ _
    · exact w

@[simp] theorem State.modRing_mem (s : State) (core q : Nat) (f : Ring → Ring) : (s.modRing core q f).mem = s.mem := rfl

@[simp] theorem State.putSlot_wf {s : State} {core : Nat} {r : Ring} {p : Nat} {bs : List Byte} (w : s.mem.wf = true) :
    (s.putSlot core r p bs).mem.wf = true := by
  simp only [State.putSlot]
  exact Memory.foldl_write_wf (fun e : Nat × Byte => (r.key core p e.1, e.2)) _ w

@[simp] theorem State.setEngines_mem (s : State) (core e : Nat) (l : List (Nat × Nat × Bool)) :
    (s.setEngines core e l).mem = s.mem := by
  unfold State.setEngines; exact foldl_mem (fun _ _ => by simp) _ _

@[simp] theorem State.zeroAtBind_mem (s : State) (t : Nat) :
    (s.zeroAtBind t).mem = s.mem := by
  unfold State.zeroAtBind; split <;> rfl

@[simp] theorem State.ungang_mem (s : State) (t : Nat) (ms : List (Nat × Nat)) : (s.ungang t ms).mem = s.mem := by
  unfold State.ungang
  refine foldl_mem (fun s m => ?_) _ _
  split <;> simp

@[simp] theorem State.unbind_mem (s : State) (cid t : Nat) : (s.unbind cid t).mem = s.mem := by
  unfold State.unbind; (repeat' split) <;> simp

@[simp] theorem State.unbindAll_mem (s : State) (cid : Nat) : (s.unbindAll cid).mem = s.mem :=
  foldl_mem (f := fun s t => s.unbind cid t) (fun _ _ => by simp) _ _

@[simp] theorem State.consume_mem (s : State) (core q : Nat) : (s.consume core q).mem = s.mem := rfl

@[simp] theorem State.firingRead_mem (s : State) (core : Nat) : (s.firingRead core).mem = s.mem := by
  unfold State.firingRead; exact foldl_mem (fun _ _ => by simp) _ _

@[simp] theorem State.noteReady_mem (s : State) : s.noteReady.mem = s.mem := by unfold State.noteReady; split <;> rfl

@[simp] theorem State.fire_mem (s : State) (c : Ctx) (t : Nat) (a b : List Byte) (leader : Option Nat) :
    (s.fire c t a b leader).mem = s.mem := by
  simp [State.fire]

@[simp] theorem State.fireMembers_mem {t leader : Nat} {b : List Byte} {first : Bool} :
    ∀ (l : List Ctx) (s : State), (s.fireMembers t leader b first l).mem = s.mem
  | [], _ => rfl
  | m :: l, s => by
    unfold State.fireMembers
    split
    · exact State.fireMembers_mem l s
    · simp [State.fireMembers_mem l]

@[simp] theorem State.goesOn_mem (s : State) (cid t : Nat) : (s.goesOn cid t).mem = s.mem := by
  unfold State.goesOn; (repeat' split) <;> simp

@[simp] theorem State.giveUpGang_mem (s : State) (l : Ctx) (t pos : Nat) : (s.giveUpGang l t pos).mem = s.mem := by
  unfold State.giveUpGang
  rw [foldl_mem (f := fun s (c : Ctx) => s.goesOn c.cid t) (fun _ _ => by simp)]
  simp

@[simp] theorem State.faultBinding_mem (s : State) (cid t : Nat) : (s.faultBinding cid t).mem = s.mem := by
  unfold State.faultBinding; dsimp only; (repeat' split) <;> simp

@[simp] theorem State.reports_mem (s : State) (leader t member core stat : Nat) :
    (s.reports leader t member core stat).mem = s.mem := by
  unfold State.reports; dsimp only; (repeat' split) <;> simp

@[simp] theorem State.endFiring_mem (s : State) (core : Nat) (f : Firing) (badRows : Nat) (corrected : Bool) :
    (s.endFiring core f badRows corrected).mem = s.mem := by
  unfold State.endFiring; dsimp only
  split
  · simp
  · split
    · simp
    · simp only [apply_ite State.mem, State.faultBinding_mem, State.goesOn_mem, State.defer_mem, ite_self]
      split <;> simp [apply_ite State.mem]

@[simp] theorem State.owing_mem (s : State) (core : Nat) : (s.owing core).mem = s.mem := by
  unfold State.owing; split
  · rfl
  · split
    · simp only [State.modCtx_mem]
      rw [foldl_mem (fun _ _ => by simp)]
      simp
    · rfl

@[simp] theorem State.putRest_wf {s : State} {c : Ctx} {m : MatOp} {bs : List Byte} (w : s.mem.wf = true) :
    (s.putRest c m bs).mem.wf = true := by
  unfold State.putRest; split
  · simp [w]
  · refine foldl_wf (fun s e w => ?_) w
    split <;> simp [w]

@[simp] theorem State.doMop_wf {s : State} {c : Ctx} {m : MatOp} (w : s.mem.wf = true) : (s.doMop c m).mem.wf = true := by
  unfold State.doMop; dsimp only; (repeat' split) <;> simp [w]

@[simp] theorem State.mopBeat_wf {s : State} {core off n : Nat} (w : s.mem.wf = true) :
    (s.mopBeat core off n).mem.wf = true := by
  unfold State.mopBeat; dsimp only; (repeat' split) <;> simp [w]

@[simp] theorem State.modDrain_mem (s : State) (core : Nat) (d : MDrain) (f : MDrain → MDrain) :
    (s.modDrain core d f).mem = s.mem := rfl

@[simp] theorem State.endDrain_mem (s : State) (core : Nat) (d : MDrain) (fl : Nat) :
    (s.endDrain core d fl).mem = s.mem := by
  simp [State.endDrain]

@[simp] theorem State.nextRow_mem (s : State) (core : Nat) (d : MDrain) (b : Binding) (fl : Nat) :
    (s.nextRow core d b fl).mem = s.mem := by
  unfold State.nextRow; split <;> simp

theorem State.leaveRow_wf {s t : State} {core : Nat} {b : Binding} {bs : List Byte} (w : s.mem.wf = true)
    (h : s.leaveRow core b bs = some t) : t.mem.wf = true := by
  unfold State.leaveRow at h; dsimp only at h
  (repeat' split at h) <;> cases h <;> simp [w]

theorem State.rowLeaves_wf {s t : State} {core : Nat} {d : MDrain} (w : s.mem.wf = true) (h : s.rowLeaves core d = some t) :
    t.mem.wf = true := by
  simp only [State.rowLeaves, Option.bind_eq_some_iff, Option.map_eq_some_iff] at h
  obtain ⟨e, -, r, -, u, hu, rfl⟩ := h
  simpa using State.leaveRow_wf w hu

@[simp] theorem State.dropDrainRun_mem (s : State) (core : Nat) :
    (s.dropDrainRun core).mem = s.mem := by
  simp [State.dropDrainRun]

@[simp] theorem State.moveUp_mem (s : State) (cid : Nat) : (s.moveUp cid).mem = s.mem := by
  unfold State.moveUp; dsimp only; (repeat' split) <;> simp

@[simp] theorem State.stow_mem (s : State) (cid : Nat) : (s.stow cid).mem = s.mem := by unfold State.stow; split <;> simp
@[simp] theorem State.modTrack_mem (s : State) (core t : Nat) (f : Track → Track) : (s.modTrack core t f).mem = s.mem := rfl
@[simp] theorem State.askFor_mem (s : State) (c : Ctx) (t : Nat) : (s.askFor c t).mem = s.mem := rfl
@[simp] theorem State.askPort_mem (s : State) (t : Nat) : (s.askPort t).mem = s.mem := rfl

@[simp] theorem State.askAgain_mem (s : State) (core : Nat) : (s.askAgain core).mem = s.mem := by
  unfold State.askAgain
  refine foldl_mem (fun s k => foldl_mem (fun s c => foldl_mem (fun s x => ?_) _ _) _ _) _ _
  split <;> simp

@[simp] theorem State.takePort_mem (s : State) (cid h t : Nat) : (s.takePort cid h t).mem = s.mem := by
  unfold State.takePort; dsimp only; (repeat' split) <;> simp

@[simp] theorem State.endSeek_mem (s : State) (cid h t : Nat) : (s.endSeek cid h t).mem = s.mem := by
  unfold State.endSeek; dsimp only; (repeat' split) <;> simp

@[simp] theorem State.runStream_mem (s : State) (core cid h : Nat) : (s.runStream core cid h).mem = s.mem := rfl

@[simp] theorem State.stepHead_mem (s : State) (cid h t p : Nat) :
    (s.stepHead cid h t p).mem = s.mem := by
  unfold State.stepHead; split <;> simp

@[simp] theorem State.putTrackWord_wf {s : State} {core t q p : Nat} {bs : List Byte} (w : s.mem.wf = true) :
    (s.putTrackWord core t q p bs).mem.wf = true := by
  simp only [State.putTrackWord, State.modTrack_mem]; exact Memory.putBytes_wf _ _ w

@[simp] theorem State.endStream_mem (s : State) (core : Nat) (x : Stream) : (s.endStream core x).mem = s.mem := by
  unfold State.endStream; split <;> simp

@[simp] theorem State.failStream_mem (s : State) (core : Nat) (x : Stream) (code p : Nat) (slip : ℤ) :
    (s.failStream core x code p slip).mem = s.mem := by
  simp [State.failStream]

@[simp] theorem State.streamed_mem (s : State) (core t p : Nat) (x : Stream) : (s.streamed core t p x).mem = s.mem := by
  unfold State.streamed; split <;> simp

@[simp] theorem State.leavePorts_mem (s : State) (core cid : Nat) : (s.leavePorts core cid).mem = s.mem := rfl
@[simp] theorem State.slipTrack_mem (s : State) (core t : Nat) (n : ℤ) : (s.slipTrack core t n).mem = s.mem := rfl
@[simp] theorem State.stickTrack_mem (s : State) (core t : Nat) (n : ℤ) : (s.stickTrack core t n).mem = s.mem := rfl

@[simp] theorem State.arriveGroup_mem (s : State) (c : Ctx) (a : Arrival) (how : Nat) :
    (s.arriveGroup c a how).mem = s.mem := by
  simp [State.arriveGroup]

@[simp] theorem State.keepAge_mem (s : State) (c : Ctx) : (s.keepAge c).mem = s.mem := rfl

@[simp] theorem State.leaveSlot_mem (s : State) (cid : Nat) :
    (s.leaveSlot cid).mem = s.mem := by
  unfold State.leaveSlot; split <;> simp

@[simp] theorem State.endSlice_mem (s : State) (cid : Nat) : (s.endSlice cid).mem = s.mem := by
  unfold State.endSlice; split <;> simp

@[simp] theorem State.metered_mem (s : State) : s.metered.mem = s.mem := rfl

@[simp] theorem State.beginRelease_mem (s : State) (n : Nat) (i : Inst) (held : Nat) :
    (s.beginRelease n i held).mem = s.mem := rfl

@[simp] theorem State.drained_mem (s : State) (n : Nat) (i : Inst) (others : List (Option (VoteOp × Nat))) :
    (s.drained n i others).mem = s.mem := by
  unfold State.drained; dsimp only; (repeat' split) <;> simp

@[simp] theorem State.releaseMember_mem (s : State) (i : Inst) (cid : Nat) : (s.releaseMember i cid).mem = s.mem := by
  unfold State.releaseMember; dsimp only; (repeat' split) <;> simp

@[simp] theorem State.interrupt_mem (s : State) (p vec : Nat) :
    (s.interrupt p vec).mem = s.mem := by
  unfold State.interrupt; split <;> rfl

@[simp] theorem State.hostByte_wf {s : State} {key : Nat} {b : Byte} (w : s.mem.wf = true) :
    (s.hostByte key b).mem.wf = true := by
  unfold State.hostByte; (repeat' split)
  · exact Memory.write_wf w _ _
  · exact w
  · exact Memory.write_wf w _ _

@[simp] theorem State.cmdPlace_wf {s : State} {p va : Nat} {k : Acc} (w : s.mem.wf = true) :
    (s.cmdPlace p va k).1.mem.wf = true := by
  unfold State.cmdPlace; split <;> simp [w]

@[simp] theorem State.putHost_wf {p : Nat} :
    ∀ {bs : List Byte} {va : Nat} {s : State}, s.mem.wf = true → (s.putHost p va bs).mem.wf = true
  | [], _, _, w => w
  | _ :: _, _, _, w => by
    unfold State.putHost; dsimp only
    refine State.putHost_wf ?_
    split <;> simp [w]

@[simp] theorem State.queueError_mem (s : State) (q idx code : Nat) : (s.queueError q idx code).mem = s.mem := by
  unfold State.queueError; dsimp only; (repeat' split) <;> simp

@[simp] theorem State.tailWrite_mem (s : State) (q v : Nat) : (s.tailWrite q v).mem = s.mem := by
  simp only [State.tailWrite]; split <;> simp

@[simp] theorem State.countDone_mem (s : State) (q : Nat) : (s.countDone q).mem = s.mem := by
  unfold State.countDone; dsimp only; split
  · rfl
  · rw [foldl_mem (fun _ _ => by simp)]; rfl

@[simp] theorem State.dropUsers_mem (s : State) (q : Nat) : (s.dropUsers q).mem = s.mem := rfl

@[simp] theorem State.goOn_mem (s : State) (q : Nat) : (s.goOn q).mem = s.mem := by
  simp only [State.goOn]; (repeat' split) <;> simp

@[simp] theorem State.swapQueues_mem (s : State) (p : Nat) : (s.swapQueues p).mem = s.mem := rfl

@[simp] theorem State.unswap_mem (s : State) (q : Nat) : (s.unswap q).mem = s.mem := by
  unfold State.unswap; dsimp only; (repeat' split) <;> simp

@[simp] theorem State.unswapQueues_mem (s : State) (p : Nat) : (s.unswapQueues p).mem = s.mem :=
  foldl_mem (f := fun s (e : Nat × Queue) => s.unswap e.1) (fun _ _ => by simp) _ _

@[simp] theorem State.makeInsts_mem (s : State) (k j : Nat) (n : Node) : (s.makeInsts k j n).mem = s.mem := by
  unfold State.makeInsts; exact foldl_mem (fun _ _ => by simp) _ _

@[simp] theorem State.runKernel_mem (s : State) (k : Nat) : (s.runKernel k).mem = s.mem := by
  unfold State.runKernel; split
  · rfl
  · rw [foldl_mem (fun _ _ => by simp)]; rfl

@[simp] theorem State.writeRecord_wf {s : State} {k : Nat} {u : Kernel} {status : Nat} (w : s.mem.wf = true) :
    (s.writeRecord k u status).mem.wf = true := by
  unfold State.writeRecord; dsimp only; split <;> simp [w]

@[simp] theorem State.launchDone_mem (s : State) (u : Kernel) (status : Nat) : (s.launchDone u status).mem = s.mem := by
  unfold State.launchDone; split <;> simp

@[simp] theorem State.refuse_wf {s : State} {k reason : Nat} (w : s.mem.wf = true) : (s.refuse k reason).mem.wf = true := by
  unfold State.refuse; split <;> simp [w]

@[simp] theorem State.loadSlots_mem (s : State) (k : Nat) (u : Kernel) (ns : List Nat) : (s.loadSlots k u ns).mem = s.mem := by
  unfold State.loadSlots; exact foldl_mem (fun _ _ => by simp) _ _

@[simp] theorem State.putLoader_wf {p : Nat} :
    ∀ {bs : List Byte} {va : Nat} {s : State}, s.mem.wf = true → (s.putLoader p va bs).mem.wf = true
  | [], _, _, w => w
  | _ :: _, _, _, w => by
    unfold State.putLoader; dsimp only
    refine State.putLoader_wf ?_
    split <;> simp [w]

@[simp] theorem State.relocate_wf {s : State} {p : Nat} {ns : List Nat} {l : List (Nat × Nat)} (w : s.mem.wf = true) :
    (s.relocate p ns l).mem.wf = true := by
  unfold State.relocate
  refine foldl_wf (fun s e w => ?_) w
  split <;> simp [w]

@[simp] theorem State.trySlots_wf {s : State} {k : Nat} (w : s.mem.wf = true) : (s.trySlots k).mem.wf = true := by
  unfold State.trySlots; dsimp only; (repeat' split) <;> simp [w]

@[simp] theorem State.lookAgain_wf {s : State} {p : Nat} (w : s.mem.wf = true) : (s.lookAgain p).mem.wf = true := by
  unfold State.lookAgain; exact foldl_wf (fun _ _ w => by simp [w]) w

@[simp] theorem State.dropKept_mem (s : State) (kseq : Nat) : (s.dropKept kseq).mem = s.mem := rfl
@[simp] theorem State.freeSlots_mem (s : State) (k : Nat) : (s.freeSlots k).mem = s.mem := rfl

@[simp] theorem State.finishKernel_wf {s : State} {k : Nat} {u : Kernel} {status : Nat} (w : s.mem.wf = true) :
    (s.finishKernel k u status).mem.wf = true := by
  simp [State.finishKernel, w]

@[simp] theorem State.settleKernel_wf {s : State} {k : Nat} (w : s.mem.wf = true) : (s.settleKernel k).mem.wf = true := by
  unfold State.settleKernel; (repeat' split) <;> simp [w]

@[simp] theorem State.dropCtx_mem (s : State) (cid : Nat) : (s.dropCtx cid).mem = s.mem := by
  unfold State.dropCtx; dsimp only; split
  · rfl
  · simp only [State.modPart_mem, State.cleanAll_mem, State.checkout_mem, State.modCore_mem, apply_ite State.mem,
      State.dropDrainRun_mem, ite_self]
    rw [foldl_mem (fun _ _ => by simp)]
    simp

@[simp] theorem State.freeTracks_mem (s : State) (n : Nat) : (s.freeTracks n).mem = s.mem := rfl

@[simp] theorem State.dropInst_mem (s : State) (n : Nat) (i : Inst) : (s.dropInst n i).mem = s.mem := by
  simp only [State.dropInst, State.modInst_mem, State.freeTracks_mem, State.unreserve_mem, State.releaseKeys_mem]
  exact foldl_mem (fun _ _ => by simp) _ _

@[simp] theorem State.readyAgain_wf {s : State} {n : Nat} {due : Word} (w : s.mem.wf = true) :
    (s.readyAgain n due).mem.wf = true := by
  unfold State.readyAgain; (repeat' split) <;> simp [w]

@[simp] theorem State.endRelease_wf {s : State} {n : Nat} (w : s.mem.wf = true) : (s.endRelease n).mem.wf = true := by
  unfold State.endRelease; dsimp only; (repeat' split) <;> simp [w]

@[simp] theorem State.finishInst_wf {s : State} {n : Nat} {i : Inst} (w : s.mem.wf = true) :
    (s.finishInst n i).mem.wf = true := by
  simp [State.finishInst, w]

@[simp] theorem State.afterEnd_wf {s : State} {n : Nat} (w : s.mem.wf = true) : (s.afterEnd n).mem.wf = true := by
  unfold State.afterEnd; (repeat' split) <;> simp [w]

@[simp] theorem State.endMember_wf {s : State} {cid : Nat} (w : s.mem.wf = true) : (s.endMember cid).mem.wf = true := by
  unfold State.endMember; dsimp only; (repeat' split) <;> simp [w]

@[simp] theorem State.faultKernel_mem (s : State) (k : Nat) : (s.faultKernel k).mem = s.mem := by
  unfold State.faultKernel; dsimp only; split
  · rfl
  · split
    · rfl
    · rw [State.modKernel_mem, foldl_mem (fun _ _ => by simp)]; rfl

@[simp] theorem State.killInst_wf {s : State} {n : Nat} (w : s.mem.wf = true) : (s.killInst n).mem.wf = true := by
  unfold State.killInst; dsimp only; (repeat' split) <;> simp [w]

theorem foldl_putBytes_wf {α : Type} {f : α → Nat × List Byte} : ∀ {l : List α} {m : Memory}, m.wf = true →
    (l.foldl (fun m e => m.putBytes (f e).1 (f e).2) m).wf = true
  | [], _, w => w
  | _ :: l, _, w => foldl_putBytes_wf (l := l) (Memory.putBytes_wf _ _ w)

@[simp] theorem State.moveBanks_wf {s : State} {cid core : Nat} {banks : List Nat} (w : s.mem.wf = true) :
    (s.moveBanks cid core banks).mem.wf = true := by
  unfold State.moveBanks; split
  · exact w
  · simp only [State.modCtx_mem, State.modCore_mem]
    exact foldl_putBytes_wf (f := fun e : Nat × Nat => (bankKey core e.2 0, s.mem.bytes (bankKey _ e.1 0) 16384)) w

@[simp] theorem State.reserveRank_wf {s : State} {m p : Nat} {n : Node} {r core : Nat} (w : s.mem.wf = true) :
    (s.reserveRank m p n r core).mem.wf = true := by
  unfold State.reserveRank; dsimp only; (repeat' split) <;> simp [w]

@[simp] theorem State.enqueue_wf {s : State} {m : Nat} {i : Inst} {p : Nat} {cores : List Nat} (w : s.mem.wf = true) :
    (s.enqueue m i p cores).mem.wf = true := by
  unfold State.enqueue; dsimp only; split
  · exact w
  · simp only [State.modInst_mem]
    refine foldl_wf (fun _ _ w => by simp [w]) ?_
    split <;> simp [w]

@[simp] theorem State.picked_wf {s : State} {m : Nat} {i : Inst} {p : Nat} {cores : List Nat} (w : s.mem.wf = true) :
    (s.picked m i p cores).mem.wf = true := by
  unfold State.picked; dsimp only
  rw [State.modPart_mem]
  refine State.enqueue_wf ?_
  split <;> simp [w]

@[simp] theorem State.pick_wf {s : State} {p : Nat} (w : s.mem.wf = true) : (s.pick p).mem.wf = true := by
  unfold State.pick; (repeat' split) <;> simp [w]

@[simp] theorem State.aged_mem (s : State) (p n : Nat) : (s.aged p n).mem = s.mem := by unfold State.aged; split <;> rfl
@[simp] theorem State.resume_mem (s : State) (cid slot : Nat) : (s.resume cid slot).mem = s.mem := by simp [State.resume]

@[simp] theorem State.startRank_mem (s : State) (m : Nat) (i : Inst) (n : Node) (u : Kernel) (r core : Nat) :
    (s.startRank m i n u r core).mem = s.mem := by
  unfold State.startRank; (repeat' split) <;> simp

@[simp] theorem State.loadTrack_wf {s : State} {p core t : Nat} {l : TrackLoad} (w : s.mem.wf = true) :
    (s.loadTrack p core t l).mem.wf = true := by
  unfold State.loadTrack; dsimp only
  rw [State.modTrack_mem]
  refine foldl_wf (fun s e w => ?_) w
  split <;> simp [w]

@[simp] theorem State.unqueue_mem (s : State) (m : Nat) : (s.unqueue m).mem = s.mem := rfl

@[simp] theorem State.migrate_wf {s : State} {p m dst : Nat} (w : s.mem.wf = true) : (s.migrate p m dst).mem.wf = true := by
  unfold State.migrate; (repeat' split) <;> simp [w]

@[simp] theorem State.migration_wf {s : State} {p count src dst : Nat} (w : s.mem.wf = true) :
    (s.migration p count src dst).mem.wf = true := by
  unfold State.migration; dsimp only; split
  · exact w
  · exact foldl_wf (fun _ _ w => by simp [w]) w

/-- What LAUNCH does after the first bytes of the kernel object came, of the state `s` they came to. -/
def State.launchFrom (s : State) (q cmd p kobj param start compl : Nat) : State :=
  let k := s.nextKernel
  let late := start != 0 && start ≤ s.time
  let t0 := if start != 0 && !late then start else s.time
  let pt := s.part p
  let u : Kernel :=
    { part := p, queue := q, cmd := cmd, st := 0, reason := 0, t0 := t0, compl := compl, start := if late then 0 else start,
      late := late, spawnfull := false, nnodes := 0, nodes := [], micro := [], relocs := [], spawned := 0, retired := 0,
      killed := 0, never := 0, spann := pt.spann, spanrank := pt.spanrank, spannodes := pt.spannodes, tnodes := pt.tnodes }
  let s1 := { s with nextKernel := k + 1 }
  match s.checkObject p kobj param t0 with
  | .error reason => ({ s1 with kernels := s1.kernels.set k u }.refuse k reason).lookAgain p
  | .ok (nodes, micro) =>
    let u := { u with nnodes := nodes.length, nodes := nodes.zipIdx.map (fun e => (e.2, e.1)), micro := micro,
                       relocs := s.relocsOf p kobj }
    { s1 with kernels := s1.kernels.set k u }.trySlots k

theorem State.launch_eq (s : State) (q cmd p kobj param start compl : Nat) :
    s.launch q cmd p kobj param start compl = (s.bringRange p kobj 64 .load).launchFrom q cmd p kobj param start compl := rfl

theorem State.launchFrom_wf {s : State} {q cmd p kobj param start compl : Nat} (w : s.mem.wf = true) :
    (s.launchFrom q cmd p kobj param start compl).mem.wf = true := by
  unfold State.launchFrom; dsimp only; split
  · exact State.lookAgain_wf (State.refuse_wf w)
  · exact State.trySlots_wf w

@[simp] theorem State.launch_wf {s : State} {q cmd p kobj param start compl : Nat} (w : s.mem.wf = true) :
    (s.launch q cmd p kobj param start compl).mem.wf = true := by
  rw [State.launch_eq]; exact State.launchFrom_wf (State.bringRange_wf w)

@[simp] theorem State.useHandle_mem (s : State) (q c : Nat) (hostSide : Bool) (e : Nat × Nat × Nat) :
    (s.useHandle q c hostSide e).mem = s.mem := rfl

@[simp] theorem State.useHandles_mem (s : State) (q c : Nat) (hostSide : Bool) (es : List (Nat × Nat × Nat)) :
    (s.useHandles q c hostSide es).mem = s.mem := by
  unfold State.useHandles; split
  · rfl
  · exact foldl_mem (f := fun s e => s.useHandle q c hostSide e) (fun _ _ => rfl) _ _

@[simp] theorem State.flushLines_mem (s : State) (drop : Bool) (f : Nat → Bool) : (s.flushLines drop f).mem = s.mem := rfl

@[simp] theorem State.maintain_mem (s : State) (p : Nat) (toHost : Bool) (es : List (Nat × Nat × Nat)) :
    (s.maintain p toHost es).mem = s.mem := by
  unfold State.maintain; dsimp only; split
  · rfl
  · refine foldl_mem (fun s e => ?_) _ _
    rw [foldl_mem fun s h => ?_, foldl_mem fun _ _ => by simp]
    (repeat' split) <;> simp

@[simp] theorem State.copyByte_wf {s : State} {p sub src dst : Nat} (w : s.mem.wf = true) :
    (s.copyByte p sub src dst).1.mem.wf = true := by
  have wr {k l : Acc} : ((s.reach p src k).1.reach p dst l).1.mem.wf = true := State.reach_wf (State.reach_wf w)
  unfold State.copyByte; dsimp only; (repeat' split) <;> simp [w, wr, Memory.write_wf]

@[simp] theorem State.copyRun_wf {p sub : Nat} :
    ∀ {n src dst : Nat} {s : State}, s.mem.wf = true → (s.copyRun p sub src dst n).1.mem.wf = true
  | 0, _, _, _, w => w
  | n + 1, src, dst, s, w => by
    have hb := State.copyByte_wf (p := p) (sub := sub) (src := src) (dst := dst) w
    unfold State.copyRun; split <;> rename_i h <;> rw [h] at hb
    · exact State.copyRun_wf hb
    · exact hb

@[simp] theorem State.runCommand_wf {s : State} {q idx : Nat} {l : Line128} (w : s.mem.wf = true) :
    (s.runCommand q idx l).mem.wf = true := by
  have hf : (l.handles.foldl (fun s' e => s'.flushLines (l.sub = 1) fun x => s'.lineIn (s.queue q).part e.1 e.2.1 x) s).mem = s.mem :=
    foldl_mem (f := fun s' (e : Nat × Nat × Nat) => s'.flushLines (l.sub = 1) fun x => s'.lineIn (s.queue q).part e.1 e.2.1 x)
      (fun _ _ => rfl) _ _
  unfold State.runCommand; dsimp only; (repeat' split) <;> simp [w, hf]

@[simp] theorem State.boundaryConst_mem (s : State) (q : Nat) : (s.boundaryConst q).mem = s.mem := rfl

@[simp] theorem State.fetchAhead_mem (s : State) (q : Nat) : (s.fetchAhead q).mem = s.mem := by
  unfold State.fetchAhead; dsimp only; (repeat' split) <;> simp

@[simp] theorem State.nextCommand_wf {s : State} {q op : Nat} (w : s.mem.wf = true) : (s.nextCommand q op).mem.wf = true := by
  unfold State.nextCommand; dsimp only; (repeat' split) <;> simp [w]

@[simp] theorem State.modChute_mem (s : State) (core : Nat) (f : Chute → Chute) : (s.modChute core f).mem = s.mem := rfl
@[simp] theorem State.keepFor_mem (s : State) (c : Ctx) (node : Nat) : (s.keepFor c node).mem = s.mem := rfl
@[simp] theorem State.signal_mem (s : State) (c : Ctx) : (s.signal c).mem = s.mem := by simp [State.signal]
@[simp] theorem State.unwait_mem (s : State) (cid : Nat) : (s.unwait cid).mem = s.mem := by simp [State.unwait]

end Sys2Proof.Machine
end

section
/-! PROOF (O58). The operations an instruction is made of keep the form of the memory: what they leave when they end, and what a
trap or a wait carries away. -/
namespace Sys2Proof.Machine

/- Each use of a script given as a default argument waits for all proofs before it: one after another they go. -/
set_option Elab.async false

/-! ## What the operations of an instruction leave -/

/-- The state that a stop carries, where it carries one, has its memory in form. -/
def Stop.Wf : Stop → Prop
  | .trapWrote _ _ t | .trapIn _ _ t | .stallIn _ t => t.mem.wf = true
  | _ => True

/-- From every state with its memory in form the operation leaves one, whether it ends or stops. -/
def KeepsMem {α : Type} (m : M α) : Prop := ∀ ⦃s : State⦄, s.mem.wf = true →
  match m s with
  | .ok r => r.2.mem.wf = true
  | .error e => e.Wf

/-- The operation never ends: it traps or waits. -/
def Stops {α : Type} (m : M α) : Prop := ∀ ⦃s : State⦄, s.mem.wf = true → ∃ e, m s = .error e ∧ e.Wf

namespace KeepsMem
variable {α β : Type} {m : M α} {f : α → M β}

theorem bind (hm : KeepsMem m) (hf : ∀ a, KeepsMem (f a)) : KeepsMem (m >>= f) := by
  intro s w
  have h := hm w
  cases hr : m s with
  | error e => rw [hr] at h; rw [M.bind_of_error hr]; exact h
  | ok r => rw [hr] at h; rw [M.bind_of_ok hr]; exact hf r.1 h

theorem get_bind {f : State → M β} (hf : ∀ s : State, s.mem.wf = true → KeepsMem (f s)) :
    KeepsMem (get >>= f) := fun s w => hf s w w

theorem stop_bind (hm : Stops m) : KeepsMem (m >>= f) := by
  intro s w
  obtain ⟨e, h, we⟩ := hm w
  rw [M.bind_of_error h]; exact we

theorem ite {c : Prop} [Decidable c] {m n : M α} (hm : KeepsMem m) (hn : KeepsMem n) : KeepsMem (if c then m else n) := by
  split
  · exact hm
  · exact hn

theorem check {b : Bool} {m : M Unit} (hm : KeepsMem m) : KeepsMem (check b m) := ite hm fun _ w => w

theorem modify {g : State → State} (hg : ∀ s : State, s.mem.wf = true → (g s).mem.wf = true) :
    KeepsMem (modify g) := fun s w => hg s w

theorem set {t : State} (w : t.mem.wf = true) : KeepsMem (set t : M PUnit) := fun _ _ => w
@[simp] theorem pure (a : α) : KeepsMem (Pure.pure a : M α) := fun _ w => w
end KeepsMem

theorem Stops.keepsMem {α : Type} {m : M α} (h : Stops m) : KeepsMem m := by
  intro s w
  obtain ⟨e, h, we⟩ := h w
  rw [h]; exact we

@[simp] theorem trap_stops {α : Type} (code : Nat) (info : Word) : Stops (trap code info : M α) := fun _ _ => ⟨_, rfl, trivial⟩
@[simp] theorem trap_keeps {α : Type} (code : Nat) (info : Word) : KeepsMem (trap code info : M α) := (trap_stops _ _).keepsMem
@[simp] theorem stall_stops {α : Type} (w : Wait) : Stops (stall w : M α) := fun _ _ => ⟨_, rfl, trivial⟩
@[simp] theorem stall_keeps {α : Type} (w : Wait) : KeepsMem (stall w : M α) := (stall_stops _).keepsMem
@[simp] theorem trapIn_stops {α : Type} (code : Nat) (info : Word) : Stops (trapIn code info : M α) := fun _ w => ⟨_, rfl, w⟩

@[simp] theorem trapIn_keeps {α : Type} (code : Nat) (info : Word) :
    KeepsMem (trapIn code info : M α) := (trapIn_stops _ _).keepsMem

@[simp] theorem stallIn_stops {α : Type} (w : Wait) : Stops (stallIn w : M α) := fun _ w => ⟨_, rfl, w⟩
@[simp] theorem stallIn_keeps {α : Type} (w : Wait) : KeepsMem (stallIn w : M α) := (stallIn_stops _).keepsMem
@[simp] theorem illop_stops {α : Type} (sub low : Nat) : Stops (illop sub low : M α) := fun _ _ => ⟨_, rfl, trivial⟩
@[simp] theorem illop_keeps {α : Type} (sub low : Nat) : KeepsMem (illop sub low : M α) := (illop_stops _ _).keepsMem
@[simp] theorem keyWait_stops {α : Type} (page : Nat) (i : Instr) : Stops (keyWait page i : M α) := fun _ w => ⟨_, rfl, w⟩

@[simp] theorem keyWait_keeps {α : Type} (page : Nat) (i : Instr) :
    KeepsMem (keyWait page i : M α) := (keyWait_stops page i).keepsMem

@[simp] theorem barIllop_stops {α : Type} (n reason : Nat) : Stops (barIllop n reason : M α) := fun _ _ => ⟨_, rfl, trivial⟩
@[simp] theorem barIllop_keeps {α : Type} (n reason : Nat) : KeepsMem (barIllop n reason : M α) := (barIllop_stops _ _).keepsMem
@[simp] theorem ctlIllop_stops {α : Type} (i reason : Nat) : Stops (ctlIllop i reason : M α) := fun _ _ => ⟨_, rfl, trivial⟩
@[simp] theorem ctlIllop_keeps {α : Type} (i reason : Nat) : KeepsMem (ctlIllop i reason : M α) := (ctlIllop_stops _ _).keepsMem
@[simp] theorem ringov_stops {α : Type} (reason q : Nat) : Stops (ringov reason q : M α) := fun _ _ => ⟨_, rfl, trivial⟩
@[simp] theorem ringov_keeps {α : Type} (reason q : Nat) : KeepsMem (ringov reason q : M α) := (ringov_stops _ _).keepsMem
@[simp] theorem mxFault_stops {α : Type} (reason tile : Nat) : Stops (mxFault reason tile : M α) := fun _ _ => ⟨_, rfl, trivial⟩

@[simp] theorem mxFault_keeps {α : Type} (reason tile : Nat) :
    KeepsMem (mxFault reason tile : M α) := (mxFault_stops _ _).keepsMem

@[simp] theorem mxIllop_stops {α : Type} (i : Instr) : Stops (mxIllop i : M α) := fun _ _ => ⟨_, rfl, trivial⟩
@[simp] theorem mxIllop_keeps {α : Type} (i : Instr) : KeepsMem (mxIllop i : M α) := (mxIllop_stops _).keepsMem
@[simp] theorem headIllop_stops {α : Type} (h reason : Nat) : Stops (headIllop h reason : M α) := fun _ _ => ⟨_, rfl, trivial⟩

@[simp] theorem headIllop_keeps {α : Type} (h reason : Nat) :
    KeepsMem (headIllop h reason : M α) := (headIllop_stops _ _).keepsMem

@[simp] theorem chuteTrap_stops {α : Type} (reason f : Nat) : Stops (chuteTrap reason f : M α) := fun _ _ => ⟨_, rfl, trivial⟩

@[simp] theorem chuteTrap_keeps {α : Type} (reason f : Nat) :
    KeepsMem (chuteTrap reason f : M α) := (chuteTrap_stops _ _).keepsMem

@[simp] theorem copyIllop_stops {α : Type} (operand : Nat) : Stops (copyIllop operand : M α) := fun _ _ => ⟨_, rfl, trivial⟩
@[simp] theorem copyIllop_keeps {α : Type} (operand : Nat) : KeepsMem (copyIllop operand : M α) := (copyIllop_stops _).keepsMem
@[simp] theorem pageIllop_stops {α : Type} (reason : Nat) : Stops (pageIllop reason : M α) := fun _ _ => ⟨_, rfl, trivial⟩
@[simp] theorem pageIllop_keeps {α : Type} (reason : Nat) : KeepsMem (pageIllop reason : M α) := (pageIllop_stops _).keepsMem

/-- The descent through a `do` block: its binds and branches, down to the operations it is made of. -/
theorem KeepsMem.intro {α : Type} {m : M α} (h : KeepsMem m := by
    repeat' first
      | with_reducible refine KeepsMem.get_bind fun _ _ => ?_
      | (with_reducible refine KeepsMem.stop_bind ?_); simp only [trap_stops, stall_stops, trapIn_stops, stallIn_stops, illop_stops,
          keyWait_stops, barIllop_stops, ctlIllop_stops, ringov_stops, mxFault_stops, mxIllop_stops, headIllop_stops,
          chuteTrap_stops, copyIllop_stops, pageIllop_stops]; done
      | with_reducible refine KeepsMem.bind ?_ fun _ => ?_
      | with_reducible refine KeepsMem.ite ?_ ?_
      | with_reducible refine KeepsMem.check ?_
      | with_reducible refine KeepsMem.modify fun _ _ => ?_
      | with_reducible refine KeepsMem.set ?_
      | split
      | simp [*]; done
      | dsimp only) : KeepsMem m := h

@[simp] theorem modCx_keeps (f : Ctx → Ctx) : KeepsMem (modCx f) := fun _ w => w
@[simp] theorem modRegs_keeps (f : Regs → Regs) : KeepsMem (modRegs f) := by unfold modRegs; exact .intro
@[simp] theorem modCtl_keeps (f : Ctl → Ctl) : KeepsMem (modCtl f) := by unfold modCtl; exact .intro
@[simp] theorem fresh_keeps : KeepsMem fresh := fun _ w => w
@[simp] theorem advance_keeps  : KeepsMem advance := by unfold advance; exact .intro
@[simp] theorem jump_keeps (t : Word) : KeepsMem (jump t) := by unfold jump; exact .intro
@[simp] theorem poisonRead_keeps {α : Type} (idx : Nat) : KeepsMem (poisonRead idx : M α) := by unfold poisonRead; exact .intro

@[simp] theorem undefOf_keeps {α : Type} (zero : α) (held : List α) :
    KeepsMem (undefOf zero held : M α) := by
  unfold undefOf; exact .intro

@[simp] theorem readSNum_keeps (n : Nat) : KeepsMem (readSNum n) := by unfold readSNum; exact .intro
@[simp] theorem readS_keeps (a : Src) : KeepsMem (readS a) := by unfold readS; exact .intro
@[simp] theorem freeS_keeps (a : Src) : KeepsMem (freeS a) := by unfold freeS; exact .intro
@[simp] theorem writeS_keeps (d : Nat) (x : Word) : KeepsMem (writeS d x) := by unfold writeS; exact .intro
@[simp] theorem readV_keeps (a : Src) : KeepsMem (readV a) := by unfold readV; exact .intro
@[simp] theorem freeV_keeps (a : Src) : KeepsMem (freeV a) := by unfold freeV; exact .intro
@[simp] theorem writeV_keeps (d : Nat) (x : VReg) : KeepsMem (writeV d x) := by unfold writeV; exact .intro
@[simp] theorem readK_keeps (n : Nat) : KeepsMem (readK n) := by unfold readK; exact .intro
@[simp] theorem freeK_keeps (a : Src) : KeepsMem (freeK a) := by unfold freeK; exact .intro
@[simp] theorem writeK_keeps (d : Nat) (x : KReg) : KeepsMem (writeK d x) := by unfold writeK; exact .intro
@[simp] theorem setFlags_keeps (f : Nat) : KeepsMem (setFlags f) := by unfold setFlags; exact .intro
@[simp] theorem needSup_keeps (page : Nat) (i : Instr) : KeepsMem (needSup page i) := by unfold needSup; exact .intro
@[simp] theorem needDeck_keeps (page : Nat) (i : Instr) : KeepsMem (needDeck page i) := by unfold needDeck; exact .intro
@[simp] theorem notInMicro_keeps  : KeepsMem notInMicro := by unfold notInMicro; exact .intro
@[simp] theorem notInDrain_keeps  : KeepsMem notInDrain := by unfold notInDrain; exact .intro
@[simp] theorem needRoom_keeps (cls : Nat) : KeepsMem (needRoom cls) := by unfold needRoom; exact .intro
@[simp] theorem count_keeps (cls : Nat) : KeepsMem (count cls) := by unfold count; exact .intro

@[simp] theorem needClasses_keeps (l st cp m h : Nat) :
    KeepsMem (needClasses l st cp m h) := by
  unfold needClasses; exact .intro

@[simp] theorem translate_keeps (cl part va : Nat) : KeepsMem (translate cl part va) := by unfold translate; exact .intro

@[simp] theorem translateAll_keeps (c : Ctx) :
    ∀ (l : List Nat) (ts : List (Nat × Except Nat Pte)), KeepsMem (translateAll c l ts)
  | [], _ => .pure _
  | va :: l, ts => by
    have ih := translateAll_keeps c l
    unfold translateAll; exact .intro

@[simp] theorem needWay_keeps (cls : Option Nat) (st : Nat) : KeepsMem (needWay cls st) := by unfold needWay; exact .intro

@[simp] theorem needPath_keeps (cls : Option Nat) : ∀ l : List (Except Nat Nat), KeepsMem (needPath cls l)
  | [] => .pure _
  | .error _ :: l => needPath_keeps cls l
  | .ok _ :: l => .bind (needWay_keeps ..) fun _ => needPath_keeps cls l

@[simp] theorem locateMany_keeps (c : Ctx) (k : Acc) (vas : List Nat) :
    KeepsMem (locateMany c k vas) := by
  unfold locateMany; exact .intro

@[simp] theorem locateIn_keeps (cls : Option Nat) (k : Acc) (va : Nat) :
    KeepsMem (locateIn cls k va) := by
  unfold locateIn; exact .intro

@[simp] theorem locate_keeps (k : Acc) (va : Nat) : KeepsMem (locate k va) := by unfold locate; exact .intro
@[simp] theorem readPlace_keeps (key n : Nat) : KeepsMem (readPlace key n) := by unfold readPlace; exact .intro
@[simp] theorem readConst_keeps (key n : Nat) : KeepsMem (readConst key n) := by unfold readConst; exact .intro
@[simp] theorem readAs_keeps (k : Acc) (key n : Nat) : KeepsMem (readAs k key n) := by unfold readAs; exact .intro

@[simp] theorem countIn_keeps : ∀ o : Option Nat, KeepsMem (countIn o)
  | some c => count_keeps c
  | none => .pure _

@[simp] theorem record_keeps (known : Bool) (b : Bad) : KeepsMem (record known b) := by
  unfold record
  refine .get_bind fun s w => ?_
  have hp := State.post_wf (s := { s with nextBad := s.nextBad + 1, bads := s.bads.set s.nextBad (s.withOffset b) })
    (id := s.nextBad) (b := s.withOffset b) w
  dsimp only
  split
  · split <;> rename_i h <;> rw [h] at hp
    · exact .bind (.set hp) fun _ => .pure _
    · exact fun _ _ => hp
  · exact .bind (.set w) fun _ => .pure _

@[simp] theorem faulted_keeps (known : Bool) (b : Bad) : KeepsMem (faulted known b) := by unfold faulted; exact .intro
@[simp] theorem needResolved_keeps  : KeepsMem needResolved := by unfold needResolved; exact .intro
@[simp] theorem needAtomsDone_keeps  : KeepsMem needAtomsDone := by unfold needAtomsDone; exact .intro
@[simp] theorem needNoFaults_keeps  : KeepsMem needNoFaults := by unfold needNoFaults; exact .intro
@[simp] theorem needPlaced_keeps  : KeepsMem needPlaced := by unfold needPlaced; exact .intro
@[simp] theorem needReleased_keeps (stores : Bool) : KeepsMem (needReleased stores) := by unfold needReleased; exact .intro

@[simp] theorem recordAll_keeps {f : Nat → M Unit} {a : Nat} (h : ∀ n, KeepsMem (f n)) :
    ∀ l : List (Bool × Bad), KeepsMem (recordAll f a l)
  | [] => .pure _
  | (_, _) :: l => .bind (record_keeps ..) fun id => .bind (h id) fun _ => recordAll_keeps h l

@[simp] theorem faultedAll_keeps {f : Nat → M Unit} {l : List (Bool × Bad)} (h : ∀ n, KeepsMem (f n)) :
    KeepsMem (faultedAll f l) := by
  unfold faultedAll; exact .intro

@[simp] theorem loadS_keeps (k : Acc) (d : Nat) (ea : Word) (n width : Nat) (conv : Nat → Word) (frees : M Unit)
    (h : KeepsMem frees) :
    KeepsMem (loadS k d ea n width conv frees) := by
  unfold loadS; exact .intro

@[simp] theorem storeS_keeps (ea : Word) (n width : Nat) (v : Nat) (frees : M Unit) (h : KeepsMem frees) :
    KeepsMem (storeS ea n width v frees) := by
  unfold storeS; exact .intro

@[simp] theorem sOp1_keeps (d : Nat) (a : Src) (f : Word → Word) : KeepsMem (sOp1 d a f) := by unfold sOp1; exact .intro

@[simp] theorem sOp2_keeps (d : Nat) (a b : Src) (f : Word → Word → Word) :
    KeepsMem (sOp2 d a b f) := by
  unfold sOp2; exact .intro

@[simp] theorem sOp3_keeps (d : Nat) (a b c : Src) (f : Word → Word → Word → Word) :
    KeepsMem (sOp3 d a b c f) := by
  unfold sOp3; exact .intro

@[simp] theorem needNoKeys_keeps (page : Nat) (i : Instr) : KeepsMem (needNoKeys page i) := by unfold needNoKeys; exact .intro
@[simp] theorem needKeyIdx_keeps (idx : Nat) : KeepsMem (needKeyIdx idx) := by unfold needKeyIdx; exact .intro
@[simp] theorem needBarrier_keeps (n : Nat) : KeepsMem (needBarrier n) := by unfold needBarrier; exact .intro

@[simp] theorem needOwnBarrier_keeps (b : Barrier) (i : Instr) :
    KeepsMem (needOwnBarrier b i) := by
  unfold needOwnBarrier; exact .intro

@[simp] theorem arriveAt_keeps (n v : Nat) : KeepsMem (arriveAt n v) := by unfold arriveAt; exact .intro
@[simp] theorem needPhase_keeps (n p : Nat) : KeepsMem (needPhase n p) := by unfold needPhase; exact .intro

@[simp] theorem fetchFrom_keeps (c : Ctx) :
    ∀ (n va : Nat) (hs : List Nat) (ts : List (Nat × Except Nat Pte)), KeepsMem (fetchFrom c n va hs ts)
  | 0, _, _, _ => .pure _
  | n + 1, va, hs, ts => by
    have ih := fetchFrom_keeps c n
    unfold fetchFrom; exact .intro

@[simp] theorem fetchFault_keeps (cause va : Nat) : KeepsMem (fetchFault cause va) := by unfold fetchFault; exact .intro
@[simp] theorem writeB_keeps (d : Nat) (t : Word) : KeepsMem (writeB d t) := by unfold writeB; exact .intro
@[simp] theorem readB_keeps (n : Nat) : KeepsMem (readB n) := by unfold readB; exact .intro
@[simp] theorem branch_keeps (taken : Bool) (t : Word) : KeepsMem (branch taken t) := by unfold branch; exact .intro
@[simp] theorem callTo_keeps (t : Word) : KeepsMem (callTo t) := by unfold callTo; exact .intro

@[simp] theorem cmpBranch_keeps (d : Nat) (a b : Src) (f : Word → Word → Bool) :
    KeepsMem (cmpBranch d a b f) := by
  unfold cmpBranch; exact .intro

@[simp] theorem needSeed_keeps  : KeepsMem needSeed := by unfold needSeed; exact .intro

@[simp] theorem State.settleEach_mem (l : List Line) (s : State) :
    (l.foldl (fun s l => s.settle (lineWords l.line l.written)) s).mem = s.mem :=
  foldl_mem (f := fun s (l : Line) => s.settle (lineWords l.line l.written)) (fun _ _ => rfl) _ _

@[simp] theorem State.scrambleEach_wf {p : Nat → Bool} {core : Nat} {bank num : Nat → Nat} {l : List Nat} {s : State}
    (w : s.mem.wf = true) :
    (l.foldl (fun s i => if p i = true then s.scramble core (bank i) (num i) else s) s).mem.wf = true :=
  foldl_wf (fun s i w => by split <;> simp [w]) w

@[simp] theorem setRoles_keeps (v : Word) : KeepsMem (setRoles v) := by unfold setRoles; exact .intro
@[simp] theorem ctlWrite_keeps (i : Nat) (v : Word) : KeepsMem (ctlWrite i v) := by unfold ctlWrite; exact .intro
@[simp] theorem modSlot_keeps (n : Nat) (f : Slot → Slot) : KeepsMem (modSlot n f) := by unfold modSlot; exact .intro
@[simp] theorem needSlot_keeps (n : Nat) : KeepsMem (needSlot n) := by unfold needSlot; exact .intro
@[simp] theorem loadImage_keeps (va n : Nat) : KeepsMem (loadImage va n) := by unfold loadImage; exact .intro

@[simp] theorem loadHalves_keeps : ∀ va n : Nat, KeepsMem (loadHalves va n)
  | _, 0 => .pure _
  | va, n + 1 => .bind (loadImage_keeps va 2) fun _ => .bind (loadHalves_keeps (va + 2) n) fun _ => .pure _

@[simp] theorem loadRecs_keeps : ∀ va n : Nat, KeepsMem (loadRecs va n)
  | _, 0 => .pure _
  | va, n + 1 => .bind (loadHalves_keeps va 7) fun _ => .bind (loadRecs_keeps (va + 14) n) fun _ => .pure _

@[simp] theorem readOld_keeps (always : Bool) (k : Nat) (zero : Bool) (d : Nat) :
    KeepsMem (readOld always k zero d) := by
  unfold readOld; exact .intro

@[simp] theorem freeVs_keeps : ∀ l : List Src, KeepsMem (freeVs l)
  | [] => .pure _
  | a :: l => .bind (freeV_keeps a) fun _ => freeVs_keeps l

@[simp] theorem readVs_keeps : ∀ l : List Src, KeepsMem (readVs l)
  | [] => .pure _
  | a :: l => .bind (readV_keeps a) fun _ => .bind (readVs_keeps l) fun _ => .pure _

@[simp] theorem seeds_keeps (rsr : Bool) (n : Nat) : KeepsMem (seeds rsr n) := by unfold seeds; exact .intro
@[simp] theorem keepSeed_keeps (rsr : Bool) (x : Word) : KeepsMem (keepSeed rsr x) := by unfold keepSeed; exact .intro

@[simp] theorem vMap_keeps (w k : Nat) (zero : Bool) (d : Nat) (srcs : List Src) (always rsr : Bool)
    (f : List Nat → Nat → Nat → Nat × Nat) :
    KeepsMem (vMap w k zero d srcs always rsr f) := by
  unfold vMap; exact .intro

@[simp] theorem vWhole_keeps (w k : Nat) (zero : Bool) (d : Nat) (srcs : List Src) (rsr : Bool)
    (f : List VReg → KReg → List Nat → List (Nat × Nat)) :
    KeepsMem (vWhole w k zero d srcs rsr f) := by
  unfold vWhole; exact .intro

@[simp] theorem readLocated_keeps (acc : Acc) (n : Nat) : ∀ (fuel : Nat) (l : List (Nat × Nat × Nat × Except Nat Nat)),
    KeepsMem (readLocated acc n fuel l)
  | 0, _ => .pure _
  | _ + 1, [] => .pure _
  | fuel + 1, (j, va, _, .error _) :: l => by
    have ih := readLocated_keeps acc n fuel
    unfold readLocated; exact .intro
  | fuel + 1, (j, va, _, .ok key) :: l => by
    have ih := readLocated_keeps acc n fuel
    unfold readLocated; exact .intro

@[simp] theorem loadV_keeps (acc : Acc) (w k : Nat) (zero : Bool) (d : Nat) (ea : Word) (frees : M Unit) (h : KeepsMem frees) :
    KeepsMem (loadV acc w k zero d ea frees) := by
  unfold loadV; exact .intro

@[simp] theorem storeBytes_keeps (ea : Word) (js : List Nat) (data : List Byte) (frees : M Unit) (h : KeepsMem frees) :
    KeepsMem (storeBytes ea js data frees) := by
  unfold storeBytes; exact .intro

@[simp] theorem needRing_keeps (q : Nat) : KeepsMem (needRing q) := by unfold needRing; exact .intro
@[simp] theorem setRing_keeps (q : Nat) (r : Ring) : KeepsMem (setRing q r) := by unfold setRing; exact .intro

@[simp] theorem vArith2_keeps (q : VQ) (d : Nat) (a b : Src) (fi : Int → Int → Int)
    (ff : ETy → Rnd → Bool → Nat → FV → FV → Nat × Nat) :
    KeepsMem (vArith2 q d a b fi ff) := by
  unfold vArith2; exact .intro

@[simp] theorem vSign_keeps (q : VQ) (d : Nat) (a : Src) (fi : Int → Int) (f : Bool → Bool) :
    KeepsMem (vSign q d a fi f) := by
  unfold vSign; exact .intro

@[simp] theorem vBits2_keeps (q : MQ) (d : Nat) (a b : Src) (f : Nat → Nat → Nat) :
    KeepsMem (vBits2 q d a b f) := by
  unfold vBits2; exact .intro

@[simp] theorem vBits1_keeps (q : MQ) (d : Nat) (a : Src) (f : Nat → Nat) :
    KeepsMem (vBits1 q d a f) := by
  unfold vBits1; exact .intro

@[simp] theorem vFn_keeps (k : FnKind) (q : VQ) (d : Nat) (a : Src) : KeepsMem (vFn k q d a) := by unfold vFn; exact .intro
@[simp] theorem needMx_keeps (i : Instr) : KeepsMem (needMx i) := by unfold needMx; exact .intro
@[simp] theorem needTile_keeps (t : Nat) : KeepsMem (needTile t) := by unfold needTile; exact .intro
@[simp] theorem needBound_keeps (t : Nat) : KeepsMem (needBound t) := by unfold needBound; exact .intro

@[simp] theorem needMxRing_keeps (t q bytes : Nat) (drain : Bool) :
    KeepsMem (needMxRing t q bytes drain) := by
  unfold needMxRing; exact .intro

@[simp] theorem needMxRings_keeps (t : Nat) : ∀ l : List (Nat × Nat × Bool), KeepsMem (needMxRings t l)
  | [] => .pure _
  | (q, n, dr) :: l => .bind (needMxRing_keeps t q n dr) fun _ => needMxRings_keeps t l

@[simp] theorem needMembers_keeps (t cl lead mask : Nat) : ∀ l : List Nat, KeepsMem (needMembers t cl lead mask l)
  | [] => .pure _
  | p :: l => by
    have ih := needMembers_keeps t cl lead mask l
    unfold needMembers; exact .intro

@[simp] theorem issueMop_keeps (kind t : Nat) (fmt : MFmt) (dst src : Word) (frees : M Unit) (h : KeepsMem frees) :
    KeepsMem (issueMop kind t fmt dst src frees) := by
  unfold issueMop; exact .intro

@[simp] theorem needTileRange_keeps (t : Nat) (ea : Word) :
    KeepsMem (needTileRange t ea) := by
  unfold needTileRange; exact .intro

@[simp] theorem needRun_keeps (i : Instr) : KeepsMem (needRun i) := by unfold needRun; exact .intro
@[simp] theorem modRun_keeps (f : Drain → Drain) : KeepsMem (modRun f) := by unfold modRun; exact .intro
@[simp] theorem modHead_keeps (h : Nat) (f : Head → Head) : KeepsMem (modHead h f) := by unfold modHead; exact .intro
@[simp] theorem needHead_keeps (i : Instr) (h : Nat) : KeepsMem (needHead i h) := by unfold needHead; exact .intro
@[simp] theorem needTrack_keeps (h t : Nat) : KeepsMem (needTrack h t) := by unfold needTrack; exact .intro
@[simp] theorem needNoStream_keeps (h : Nat) : KeepsMem (needNoStream h) := by unfold needNoStream; exact .intro
@[simp] theorem needPort_keeps (h t : Nat) : KeepsMem (needPort h t) := by unfold needPort; exact .intro

@[simp] theorem startSeek_keeps (h t goal : Nat) (dir : SeekDir) :
    KeepsMem (startSeek h t goal dir) := by
  unfold startSeek; exact .intro

@[simp] theorem needWord_keeps (h t : Nat) : KeepsMem (needWord h t) := by unfold needWord; exact .intro

@[simp] theorem startStream_keeps (fill : Bool) (h q n t : Nat) :
    KeepsMem (startStream fill h q n t) := by
  unfold startStream; exact .intro

@[simp] theorem mixedTrap_keeps (reason : Nat) : KeepsMem (mixedTrap reason) := by unfold mixedTrap; exact .intro
@[simp] theorem setSync_keeps (n : Nat) : KeepsMem (setSync n) := by unfold setSync; exact .intro
@[simp] theorem needChute_keeps (f : Nat) (i : Instr) : KeepsMem (needChute f i) := by unfold needChute; exact .intro
@[simp] theorem endChecks_keeps  : KeepsMem endChecks := by unfold endChecks; exact .intro
@[simp] theorem yieldOn_keeps  : KeepsMem yieldOn := by unfold yieldOn; exact .intro

@[simp] theorem needRanges_keeps (i : Instr) : ∀ l : List (Nat × Nat), KeepsMem (needRanges i l)
  | [] => .pure _
  | (va, n) :: l => by
    have ih := needRanges_keeps i l
    unfold needRanges; exact .intro

@[simp] theorem needOwnness_keeps (own : Bool) : ∀ l : List (Nat × Nat), KeepsMem (needOwnness own l)
  | [] => .pure _
  | (va, n) :: l => by
    have ih := needOwnness_keeps own l
    unfold needOwnness; exact .intro

@[simp] theorem needLinks_keeps (i : Instr) : ∀ l : List (Nat × Nat), KeepsMem (needLinks i l)
  | [] => .pure _
  | (va, n) :: l => by
    have ih := needLinks_keeps i l
    unfold needLinks; exact .intro

@[simp] theorem needFollow_keeps (op : CopyOp) : KeepsMem (needFollow op) := by unfold needFollow; exact .intro

@[simp] theorem issueCopy_keeps (i : Instr) (op : CopyOp) (frees : M Unit) (h : KeepsMem frees) :
    KeepsMem (issueCopy i op frees) := by
  unfold issueCopy; exact .intro

@[simp] theorem needLen_keeps (n : Nat) : KeepsMem (needLen n) := by unfold needLen; exact .intro
@[simp] theorem needConv_keeps (c n : Nat) (rnd : Rnd) : KeepsMem (needConv c n rnd) := by unfold needConv; exact .intro

@[simp] theorem freeOpt_keeps : ∀ o : Option Src, KeepsMem (freeOpt o)
  | some c => freeS_keeps c
  | none => .pure _

@[simp] theorem needCount_keeps (n : Nat) : KeepsMem (needCount n) := by unfold needCount; exact .intro

@[simp] theorem needLanesAligned_keeps (ty : ETy) (lanes : List (Nat × Word × Nat)) :
    KeepsMem (needLanesAligned ty lanes) := by
  unfold needLanesAligned; exact .intro

@[simp] theorem gatherOne_keeps (ty : ETy) (nib : Nat) (key : Nat) :
    KeepsMem (gatherOne ty nib key) := by
  unfold gatherOne; exact .intro

@[simp] theorem gatherAll_keeps (ty : ETy) : ∀ l : List ((Nat × Word × Nat) × Except Nat Nat), KeepsMem (gatherAll ty l)
  | [] => .pure _
  | (_, .ok _) :: t => .bind (gatherOne_keeps ..) fun _ => .bind (gatherAll_keeps ty t) fun _ => .pure _
  | (_, .error _) :: t => gatherAll_keeps ty t

@[simp] theorem writeAtom_keeps (a : Atom) (old : Nat) : KeepsMem (writeAtom a old) := by unfold writeAtom; exact .intro

@[simp] theorem atomic_keeps (a : Atom) (frees : M Unit) (h : KeepsMem frees) :
    KeepsMem (atomic a frees) := by
  unfold atomic; exact .intro

@[simp] theorem lineAt_keeps (cls : Option Nat) (k : Acc) (ea : Word) :
    KeepsMem (lineAt cls k ea) := by
  unfold lineAt; exact .intro

@[simp] theorem clean_keeps (a : Src) (drop : Bool) : KeepsMem (clean a drop) := by unfold clean; exact .intro
@[simp] theorem gateTarget_keeps (a : Src) (i : Instr) : KeepsMem (gateTarget a i) := by unfold gateTarget; exact .intro

end Sys2Proof.Machine
end

section
/-! PROOF (O58). The same of the copy engine, atomics, power, links, windows and the dead-letter ring. -/
namespace Sys2Proof.Machine

/-! ## The copy engine, atomics, windows and the other moves -/

/-- A translation that ended, with its state, after one that needed a walk. -/
theorem translate_wf {cl p va : Nat} {s t : State} {r : Except Nat Pte} (w : s.mem.wf = true)
    (h : translate cl p va s = .ok (r, t)) : t.mem.wf = true := by
  have := translate_keeps cl p va w
  rwa [h] at this

@[simp] theorem State.engKey_wf {s : State} {c : Ctx} {k : Acc} {va : Nat} (w : s.mem.wf = true) :
    (s.engKey c k va).2.mem.wf = true := by
  unfold State.engKey; split
  · split <;> rename_i h
    · exact State.bringAt_wf (translate_wf w h)
    · exact translate_wf w h
    · exact w
  · exact w

@[simp] theorem State.engBytes_mem (s : State) (key n : Nat) : (s.engBytes key n).2.mem = s.mem := by
  unfold State.engBytes; split <;> rfl

@[simp] theorem State.gather_wf {c : Ctx} :
    ∀ {l : List (Nat × Nat)} {s : State}, s.mem.wf = true → (s.gather c l).2.mem.wf = true
  | [], _, w => w
  | (va, n) :: l, s, w => by
    have hk := State.engKey_wf (c := c) (k := .engRead) (va := va) w
    unfold State.gather; split
    · exact State.gather_wf (by split <;> exact w)
    · rename_i h; rwa [h] at hk
    · rename_i h; rw [h] at hk; split
      · exact hk
      · exact State.gather_wf (by rwa [State.engBytes_mem])

@[simp] theorem State.putUnlanded_wf {s : State} {key off : Nat} {landed : List (Nat × Nat)} {bs : List Byte}
    (w : s.mem.wf = true) : (s.putUnlanded key off landed bs).mem.wf = true := by
  unfold State.putUnlanded; split
  · exact State.putShared_wf w
  · exact foldl_wf (fun s e w => by split <;> simp [w]) w

@[simp] theorem State.engDest_wf {s : State} {c : Ctx} {op : CopyOp} {va : Nat} (w : s.mem.wf = true) :
    (s.engDest c op va).2.mem.wf = true := by
  unfold State.engDest; split
  · split <;> rename_i h
    · have wt := translate_wf w h
      split
      · exact wt
      · split
        · exact wt
        · have entered {part : Nat} {cmp whole : Bool} {blk : Nat} {r : Option Nat × State}
              (h : State.enterBlock _ part cmp whole blk = r) : r.2.mem.wf = true := h ▸ State.enterBlock_wf wt
          dsimp only; split <;> rename_i he
          · exact entered he
          · exact entered he
    · exact translate_wf w h
    · exact w
  · exact w

theorem State.engPut_wf {s : State} {c : Ctx} {op : CopyOp} {va off : Nat} {keys : List (Nat × Nat)} {bs : List Byte}
    (w : s.mem.wf = true) :
    (s.engPut c op va off keys bs).2.mem.wf = true ∧ ∀ u, (s.engPut c op va off keys bs).1 = .ok u → u.mem.wf = true := by
  have hd := State.engDest_wf (c := c) (op := op) (va := va) w
  unfold State.engPut; split
  · exact ⟨w, fun _ h => by cases h; exact w⟩
  · split <;> rename_i h <;> rw [h] at hd
    · exact ⟨hd, fun _ h => by cases h⟩
    · split
      · exact ⟨hd, fun _ h => by cases h; exact hd⟩
      · split
        · exact ⟨hd, fun _ h => by cases h; exact State.putUnlanded_wf hd⟩
        · exact ⟨hd, fun _ h => by cases h; exact State.putUnlanded_wf hd⟩

@[simp] theorem State.clearPoison_mem (s : State) (c : Ctx) (op : CopyOp) (n : Nat) : (s.clearPoison c op n).mem = s.mem := by
  unfold State.clearPoison; split
  · rfl
  · refine foldl_mem (fun s e => ?_) _ _
    (repeat' split) <;> rfl

@[simp] theorem State.engWrite_wf {c : Ctx} {op : CopyOp} {off : Nat} {keys : List (Nat × Nat)} :
    ∀ {l : List (Nat × Nat)} {bs : List Byte}
    {n : Nat} {s : State}, s.mem.wf = true → (s.engWrite c op off keys l bs n).1.mem.wf = true
  | [], _, _, _, w => w
  | (va, k) :: l, bs, n, s, w => by
    obtain ⟨hd, hp⟩ := State.engPut_wf (c := c) (op := op) (va := va) (off := off + n) (keys := keys) (bs := bs.take k) w
    unfold State.engWrite; split <;> rename_i h <;> rw [h] at hd hp
    · exact hd
    · exact State.engWrite_wf (hp _ rfl)

@[simp] theorem CopyOp.landRow_wf {op : CopyOp} {c : Ctx} {r : Nat} {g : Gathered} {keys : List (Nat × Nat)} {l : Landing}
    (w : l.s.mem.wf = true) : (op.landRow c r g keys l).s.mem.wf = true := by
  simp only [CopyOp.landRow]; exact State.engWrite_wf w

@[simp] theorem State.gatherRows_wf {c : Ctx} {op : CopyOp} : ∀ {l : List Nat} {s : State}, s.mem.wf = true →
    (s.gatherRows c op l).2.mem.wf = true
  | [], _, w => w
  | _ :: _, _, w => by
    unfold State.gatherRows; dsimp only
    generalize (if op.kind = 2 then [] else _) = ps
    split
    · exact State.gather_wf w
    · exact State.gatherRows_wf (State.gather_wf w)

@[simp] theorem landRows_wf {op : CopyOp} {c : Ctx} {keys : List (Nat × Nat)} : ∀ {rs : List (Nat × Gathered)} {l : Landing},
    l.s.mem.wf = true → (landRows op c keys rs l).s.mem.wf = true
  | [], _, w => w
  | _ :: _, _, w => by
    unfold landRows; dsimp only; split
    · exact CopyOp.landRow_wf w
    · exact landRows_wf (CopyOp.landRow_wf w)

@[simp] theorem State.exBytes_wf {c : Ctx} {op : CopyOp} : ∀ {l : List (Nat × Nat)} {s : State}, s.mem.wf = true →
    (s.exBytes c op l).2.mem.wf = true
  | [], _, w => w
  | (va, n) :: l, s, w => by
    have hk := State.engKey_wf (c := c) (k := .engWrite) (va := va) w
    unfold State.exBytes; split <;> rename_i h <;> rw [h] at hk
    · exact hk
    · have hr := State.exBytes_wf (c := c) (op := op) (l := l) (State.engDest_wf (c := c) (op := op) (va := va) hk)
      dsimp only; split <;> rename_i hx <;> rw [hx] at hr <;> exact hr

@[simp] theorem landReds_wf {op : CopyOp} {c : Ctx} {keys : List (Nat × Nat)} : ∀ {xs : List Nat} {i : Nat} {l : Landing},
    l.s.mem.wf = true → (landReds op c keys xs i l).s.mem.wf = true
  | [], _, _, w => w
  | _ :: _, i, l, w => by
    have hk := State.engKey_wf (c := c) (k := .engWrite) (va := addr64 op.dst (48 * i)) w
    unfold landReds; dsimp only; split <;> rename_i h <;> rw [h] at hk
    · exact hk
    · split
      · exact landReds_wf w
      · split
        · exact landReds_wf hk
        · have hx := State.exBytes_wf (c := c) (op := op) (l := piecesOf (addr64 op.dst (48 * i)) 48) hk
          split <;> rename_i hb <;> rw [hb] at hx
          · exact hx
          · split
            · exact State.engWrite_wf hx
            · exact landReds_wf (State.engWrite_wf hx)

@[simp] theorem State.landOp_wf {s : State} {c : Ctx} {op : CopyOp} (w : s.mem.wf = true) :
    (s.landOp c op).s.mem.wf = true := by
  have hg := State.gatherRows_wf (c := c) (op := op) (l := List.range op.rows) w
  unfold State.landOp; dsimp only; split
  · exact landReds_wf hg
  · exact State.engWrite_wf hg
  · exact landRows_wf hg

@[simp] theorem State.follow_mem (s : State) (c : Ctx) (op : CopyOp) (n : Nat) : (s.follow c op n).mem = s.mem := by
  unfold State.follow; dsimp only; (repeat' split) <;> simp

@[simp] theorem State.landBar_mem (s : State) (c : Ctx) (op : CopyOp) (n : Nat) : (s.landBar c op n).mem = s.mem := by
  unfold State.landBar; dsimp only; (repeat' split) <;> simp

@[simp] theorem State.copyDone_mem (s : State) (op : CopyOp) (flags : Nat) :
    (s.copyDone op flags).mem = s.mem := by
  simp [State.copyDone]

@[simp] theorem State.copyEnds_mem (s : State) (c : Ctx) (op : CopyOp) (flags n : Nat) :
    (s.copyEnds c op flags n).mem = s.mem := by
  simp [State.copyEnds]

@[simp] theorem State.popCopy_mem (s : State) (core : Nat) : (s.popCopy core).mem = s.mem := rfl

@[simp] theorem Landing.finish_mem (l : Landing) (core : Nat) (c : Ctx) (op : CopyOp) (ports : List Nat) :
    (l.finish core c op ports).mem = l.s.mem := by
  unfold Landing.finish; dsimp only; (repeat' split) <;> simp

@[simp] theorem State.abandonOp_mem (s : State) (core : Nat) (c : Ctx) (op : CopyOp) (l : Nat) :
    (s.abandonOp core c op l).mem = s.mem := by
  unfold State.abandonOp; dsimp only; split <;> simp

@[simp] theorem State.startDraws_mem (s : State) (core : Nat) (op : CopyOp) : (s.startDraws core op).mem = s.mem := by
  unfold State.startDraws; split <;> simp

@[simp] theorem State.outByte_wf {s : State} {c : Ctx} {op : CopyOp} {off : Nat} (w : s.mem.wf = true) :
    (s.outByte c op off).2.mem.wf = true := by
  unfold State.outByte; dsimp only; (repeat' split) <;> simp [w]

@[simp] theorem State.markLanded_mem (s : State) (core off n : Nat) : (s.markLanded core off n).mem = s.mem := rfl

@[simp] theorem State.beatByte_wf {s : State} {core : Nat} {c : Ctx} {op : CopyOp} {off : Nat} (w : s.mem.wf = true) :
    (s.beatByte core c op off).mem.wf = true := by
  have ho := State.outByte_wf (c := c) (op := op) (off := off) w
  have hg {l : List (Nat × Nat)} := State.gather_wf (c := c) (l := l) w
  unfold State.beatByte; dsimp only; split
  · split
    · exact w
    · split
      · split
        · exact w
        · split
          · exact w
          · rw [State.markLanded_mem]; exact landReds_wf hg
      · exact w
  · split
    · exact w
    · split <;> rename_i h <;> rw [h] at ho
      · exact w
      · split
        · exact w
        · split <;> rename_i hp
          · exact w
          · rw [State.markLanded_mem]; exact (State.engPut_wf ho).2 _ (by rw [hp])

@[simp] theorem State.beat_wf {core : Nat} : ∀ {n off : Nat} {s : State}, s.mem.wf = true → (s.beat core off n).mem.wf = true
  | 0, _, _, w => w
  | _ + 1, _, _, w => by
    unfold State.beat; split
    · exact w
    · split
      · exact w
      · split
        · exact w
        · split
          · exact State.beat_wf (by simp [w])
          · exact State.beat_wf (State.beatByte_wf w)

@[simp] theorem State.putNibbleAt_wf {s : State} {key nib v : Nat} (w : s.mem.wf = true) :
    (s.putNibbleAt key nib v).mem.wf = true := by
  unfold State.putNibbleAt; split <;> simp [w]

@[simp] theorem scatterAll_wf {ty : ETy} {v : VReg} :
    ∀ {l : List ((Nat × Word × Nat) × Except Nat Nat)} {s : State}, s.mem.wf = true →
    (scatterAll ty v l s).mem.wf = true
  | [], _, w => w
  | (_, .ok _) :: _, _, w => by
    unfold scatterAll; dsimp only
    refine scatterAll_wf ?_
    split <;> simp [w]
  | (_, .error _) :: _, _, w => by unfold scatterAll; exact scatterAll_wf w

@[simp] theorem State.doAtom_wf {s : State} {a : Atom} (w : s.mem.wf = true) : (s.doAtom a).2.mem.wf = true := by
  simp [State.doAtom, w]

@[simp] theorem State.atomHome_wf {s : State} {id : Nat} {a : Atom} (w : s.mem.wf = true) :
    (s.atomHome id a).mem.wf = true := by
  simp [State.atomHome, w]

@[simp] theorem State.sendGate_mem (s : State) (cl kind d : Nat) : (s.sendGate cl kind d).mem = s.mem := rfl

@[simp] theorem State.sendBack_mem (s : State) (m : Nat) : (s.sendBack m).mem = s.mem := by
  unfold State.sendBack; dsimp only; (repeat' split) <;> simp

@[simp] theorem State.gating_mem (s : State) (cl : Nat) : (s.gating cl).mem = s.mem := by
  unfold State.gating; exact foldl_mem (fun _ _ => by simp) _ _

@[simp] theorem State.answer_mem (s : State) (id : Nat) (g : GateReq) (x : Word) :
    (s.answer id g x).mem = s.mem := by
  simp [State.answer]

@[simp] theorem State.loseCluster_wf {s : State} {cl : Nat} {cores : List Nat} (w : s.mem.wf = true) :
    (s.loseCluster cl cores).mem.wf = true := by
  rw [loseCluster_mem]; exact Memory.filter_wf _ w

@[simp] theorem State.loseWords_wf {s : State} {ws : List Nat} (w : s.mem.wf = true) : (s.loseWords ws).mem.wf = true := by
  unfold State.loseWords
  refine foldl_wf (fun s x w => ?_) w
  split
  · exact Memory.putBytes_wf _ _ w
  · exact w

@[simp] theorem State.loseCaches_wf {s : State} {cores : List Nat} (w : s.mem.wf = true) :
    (s.loseCaches cores).mem.wf = true := by
  simp only [State.loseCaches, State.mapCtxs_mem]
  exact foldl_wf (fun s c w => foldl_wf (fun s l w => State.loseWords_wf w) w) w

@[simp] theorem State.reindexAll_mem (s : State) (core : Nat) : (s.reindexAll core).mem = s.mem := rfl

@[simp] theorem State.stopIssue_mem (s : State) (p : Nat) : (s.stopIssue p).mem = s.mem := by
  unfold State.stopIssue; exact foldl_mem (fun _ _ => by simp) _ _

@[simp] theorem State.saveCores_wf {s : State} {p : Nat} (w : s.mem.wf = true) : (s.saveCores p).mem.wf = true := by
  simp only [State.saveCores]
  rw [foldl_mem (fun _ _ => by simp), foldl_mem (fun _ _ => by simp)]
  exact Memory.filter_wf _ w

@[simp] theorem State.restoreCores_wf {s : State} {p : Nat} (w : s.mem.wf = true) : (s.restoreCores p).mem.wf = true := by
  simp only [State.restoreCores, State.modPart_mem]
  refine Memory.foldl_write_wf (fun e : Nat × Byte => e) _ ?_
  rw [foldl_mem (fun _ _ => by simp), foldl_mem (fun _ _ => by simp)]
  exact w

@[simp] theorem State.startIssue_mem (s : State) (p : Nat) : (s.startIssue p).mem = s.mem := by
  simp only [State.startIssue]
  rw [foldl_mem (fun _ _ => by simp)]
  simp

@[simp] theorem State.handOver_mem (s : State) (p q : Nat) : (s.handOver p q).mem = s.mem := rfl
@[simp] theorem State.dropSaved_mem (s : State) (p : Nat) : (s.dropSaved p).mem = s.mem := rfl

@[simp] theorem State.abandon_mem (s : State) (core : Nat) :
    (s.abandon core).mem = s.mem := by
  unfold State.abandon; split <;> simp

@[simp] theorem State.stopDrain_mem (s : State) (core : Nat) :
    (s.stopDrain core).mem = s.mem := by
  unfold State.stopDrain; split <;> simp

@[simp] theorem State.stopped_wf {s : State} {p reason dcause core : Nat} (w : s.mem.wf = true) :
    (s.stopped p reason dcause core).mem.wf = true := by
  simp only [State.stopped, State.modPart_mem]
  refine State.saveCores_wf (foldl_wf (fun s c w => by split <;> simp [w]) ?_)
  simp only [State.swapQueues_mem, State.stopIssue_mem]
  rw [foldl_mem (fun _ _ => by simp)]
  exact w

@[simp] theorem State.giveUp_mem (s : State) (core : Nat) (c : Ctx) (op : CopyOp) (l flags n : Nat) :
    (s.giveUp core c op l flags n).mem = s.mem := by
  unfold State.giveUp; split <;> simp

@[simp] theorem State.abandonOps_mem (s : State) (l : Nat) : (s.abandonOps l).mem = s.mem := by
  unfold State.abandonOps
  refine foldl_mem (fun t e => ?_) _ _
  (repeat' split) <;> simp

@[simp] theorem State.killSpans_wf {s : State} (w : s.mem.wf = true) : s.killSpans.mem.wf = true := by
  simp only [State.killSpans]; exact foldl_wf (fun _ _ w => State.killInst_wf w) w

@[simp] theorem State.losePackets_mem (s : State) (l : Nat) : (s.losePackets l).mem = s.mem := rfl

@[simp] theorem State.failLink_wf {s : State} {l code : Nat} (w : s.mem.wf = true) : (s.failLink l code).mem.wf = true := by
  have w1 {f : Link → Link} : ((if isBridge l then s.losePackets l else s).modLink l f).mem.wf = true := by
    rw [State.modLink_mem]; split <;> simp [w]
  simp only [State.failLink]
  split
  · rw [State.modLink_mem]; exact State.killSpans_wf (by rw [State.abandonOps_mem]; exact w1)
  · split
    · rw [State.modLink_mem]; exact foldl_wf (fun _ _ w => State.killInst_wf w) (by simp [w])
    · simp [w]

@[simp] theorem State.corrected_mem (s : State) (l n : Nat) :
    (s.corrected l n).mem = s.mem := by
  unfold State.corrected; split <;> rfl

@[simp] theorem State.pcieRate_mem (s : State) (r : Nat) : (s.pcieRate r).mem = s.mem := by unfold State.pcieRate; split <;> rfl

@[simp] theorem State.reachBeyond_mem (s : State) (l id : Nat) :
    (s.reachBeyond l id).mem = s.mem := by
  unfold State.reachBeyond; split <;> rfl

@[simp] theorem State.settleTime_wf {s : State} {l : Nat} (w : s.mem.wf = true) : (s.settleTime l).mem.wf = true := by
  unfold State.settleTime; dsimp only; (repeat' split) <;> simp [w]

@[simp] theorem State.dropLane_wf {s : State} {l : Nat} (w : s.mem.wf = true) : (s.dropLane l).mem.wf = true := by
  unfold State.dropLane; dsimp only; (repeat' split) <;> simp [w]

@[simp] theorem State.sendReduces_mem (s : State) (l : Nat) : (s.sendReduces l).mem = s.mem := by
  unfold State.sendReduces; dsimp only; (repeat' split) <;> simp

@[simp] theorem State.sendNext_mem (s : State) (l : Nat) : (s.sendNext l).mem = s.mem := by
  unfold State.sendNext; dsimp only; (repeat' split) <;> simp

@[simp] theorem State.peerWrite_wf {s : State} {l addr : Nat} {bytes : List Nat} (w : s.mem.wf = true) :
    (s.peerWrite l addr bytes).mem.wf = true := by
  unfold State.peerWrite; (repeat' split) <;> simp [w]

@[simp] theorem State.peerRead_mem (s : State) (l addr n : Nat) : (s.peerRead l addr n).mem = s.mem := by
  unfold State.peerRead; (repeat' split) <;> simp

@[simp] theorem State.acknowledged_mem (s : State) (core : Nat) : (s.acknowledged core).mem = s.mem := by
  unfold State.acknowledged; (repeat' split) <;> simp

@[simp] theorem State.ackedOver_mem (s : State) (core l : Nat) : (s.ackedOver core l).mem = s.mem := by
  unfold State.ackedOver; (repeat' split) <;> simp

@[simp] theorem State.restart_wf {s : State} (w : s.mem.wf = true) : s.restart.mem.wf = true := Memory.filter_wf _ w
@[simp] theorem State.reply_mem (s : State) (code : Nat) (data : List Nat) : (s.reply code data).mem = s.mem := rfl

@[simp] theorem State.replyFree_mem (s : State) (code : Nat) (data : List Nat) (n : Nat) :
    (s.replyFree code data n).mem = s.mem := rfl

@[simp] theorem State.unsupported_mem (s : State) (code : Nat) : (s.unsupported code).mem = s.mem := rfl

@[simp] theorem State.writeRole_mem (s : State) (fn p core v : Nat) : (s.writeRole fn p core v).mem = s.mem := by
  unfold State.writeRole; split <;> rfl

@[simp] theorem State.writeRoute_mem (s : State) (fn r v : Nat) :
    (s.writeRoute fn r v).mem = s.mem := by
  unfold State.writeRoute; split <;> rfl

@[simp] theorem State.bar0Read_mem (s : State) (fn addr size : Nat) : (s.bar0Read fn addr size).mem = s.mem := by
  unfold State.bar0Read; (repeat' split) <;> simp

@[simp] theorem State.hostWrote_mem (s : State) (va n : Nat) : (s.hostWrote va n).mem = s.mem := rfl

@[simp] theorem State.stage_mem : ∀ (l : List Byte) (s : State) (a : Nat), (s.stage a l).mem = s.mem
  | [], _, _ => rfl
  | _ :: l, s, a => by
    unfold State.stage
    rw [State.stage_mem l]
    split <;> rfl

@[simp] theorem State.bringFrame_wf {s : State} {part : Nat} {p : Pte} (w : s.mem.wf = true) :
    (s.bringFrame part p).mem.wf = true := by
  unfold State.bringFrame; exact foldl_wf (fun _ _ w => by simp [w]) w

@[simp] theorem State.bringFrames_wf {s : State} {part : Nat} {ps : List Pte} (w : s.mem.wf = true) :
    (s.bringFrames part ps).mem.wf = true := by
  unfold State.bringFrames; exact foldl_wf (fun _ _ w => by simp [w]) w

@[simp] theorem State.ownFrames_mem (s : State) (ps : List Pte) : (s.ownFrames ps).mem = s.mem := by
  unfold State.ownFrames; exact foldl_mem (fun _ _ => by simp) _ _

@[simp] theorem State.copyMark_mem (s : State) (src dst : Nat) :
    (s.copyMark src dst).mem = s.mem := by
  unfold State.copyMark; split <;> rfl

@[simp] theorem State.copyWords_wf : ∀ {n src dst : Nat} {s : State}, s.mem.wf = true → (s.copyWords src dst n).mem.wf = true
  | 0, _, _, _, w => w
  | _ + 1, _, _, _, w => by unfold State.copyWords; exact State.copyWords_wf (by simp [w])

theorem State.withExpanded_mem (s : State) (l : List Nat) : ({ s with expanded := l } : State).mem = s.mem := rfl

@[simp] theorem State.copyBlock_wf {s : State} {cmp : Bool} {src dst : Nat} (w : s.mem.wf = true) :
    (s.copyBlock cmp src dst).mem.wf = true := by
  unfold State.copyBlock; dsimp only; split
  · exact State.copyWords_wf w
  · rw [State.withExpanded_mem]; exact State.copyWords_wf (State.copyWords_wf w)

@[simp] theorem State.copyBlocks_wf {cmp : Bool} :
    ∀ {n src dst : Nat} {s : State}, s.mem.wf = true → (s.copyBlocks cmp src dst n).mem.wf = true
  | 0, _, _, _, w => w
  | _ + 1, _, _, _, w => by unfold State.copyBlocks; exact State.copyBlocks_wf (State.copyBlock_wf w)

@[simp] theorem State.copyFrames_wf : ∀ {l : List (Pte × Pte)} {s : State}, s.mem.wf = true → (s.copyFrames l).mem.wf = true
  | [], _, w => w
  | _ :: _, _, w => by unfold State.copyFrames; exact State.copyFrames_wf (State.copyBlocks_wf w)

@[simp] theorem State.mergePoison_mem (marked : List Nat) :
    ∀ (n : Nat) (s : State) (src dst off : Nat), (s.mergePoison marked src dst off n).mem = s.mem
  | 0, _, _, _, _ => rfl
  | n + 1, _, _, _, _ => by
    unfold State.mergePoison; dsimp only
    rw [State.mergePoison_mem marked n]
    split <;> rfl

@[simp] theorem State.takeSnapshot_wf {s : State} {x : Window} (w : s.mem.wf = true) : (s.takeSnapshot x).mem.wf = true := by
  simp only [State.takeSnapshot]
  exact foldl_wf (fun _ _ w => by simp [w]) (by simp [w])

@[simp] theorem State.renewFrames_wf {s : State} {ps : List Pte} (w : s.mem.wf = true) : (s.renewFrames ps).mem.wf = true := by
  unfold State.renewFrames
  exact foldl_wf (fun _ _ w => foldl_wf (fun _ _ w => State.renewBlock_wf w) w) w

@[simp] theorem State.setLeaf_wf {s : State} {part va frame : Nat} (w : s.mem.wf = true) :
    (s.setLeaf part va frame).mem.wf = true := by
  unfold State.setLeaf; (repeat' split) <;> simp [w]

@[simp] theorem State.swapLeaves_wf {part : Nat} : ∀ {l : List (Pte × Pte)} {base spare : Nat} {s : State}, s.mem.wf = true →
    (s.swapLeaves part base spare l).mem.wf = true
  | [], _, _, _, w => w
  | _ :: _, _, _, _, w => by unfold State.swapLeaves; exact State.swapLeaves_wf (by simp [w])

@[simp] theorem State.mergeBytes_wf {marked : List Nat} : ∀ {n src dst off : Nat} {s : State}, s.mem.wf = true →
    (s.mergeBytes marked src dst off n).mem.wf = true
  | 0, _, _, _, _, w => w
  | _ + 1, _, _, _, _, w => by unfold State.mergeBytes; exact State.mergeBytes_wf (by split <;> simp [w])

@[simp] theorem State.mergeBlocks_wf {cmp : Bool} {marked : List Nat} : ∀ {n src dst off : Nat} {s : State}, s.mem.wf = true →
    (s.mergeBlocks cmp marked src dst off n).mem.wf = true
  | 0, _, _, _, _, w => w
  | _ + 1, _, _, _, _, w => by
    unfold State.mergeBlocks; dsimp only
    refine State.mergeBlocks_wf ?_
    split
    · exact State.copyBlock_wf w
    · split
      · exact State.mergeBytes_wf w
      · exact w

@[simp] theorem State.mergeFrames_wf {marked : List Nat} : ∀ {l : List (Pte × Pte)} {off : Nat} {s : State},
    s.mem.wf = true → (s.mergeFrames marked off l).mem.wf = true
  | [], _, _, w => w
  | _ :: _, _, _, w => by unfold State.mergeFrames; exact State.mergeFrames_wf (by simp [w])

@[simp] theorem State.dropTlb_mem (s : State) (part : Nat) (f : Nat → Pte → Bool) : (s.dropTlb part f).mem = s.mem := rfl
@[simp] theorem State.invalidate_mem (s : State) (part base n : Nat) : (s.invalidate part base n).mem = s.mem := rfl
@[simp] theorem State.closeWindow_mem (s : State) (part n : Nat) (w : Window) : (s.closeWindow part n w).mem = s.mem := rfl
@[simp] theorem State.forget_mem (s : State) (part : Nat) (w : Window) : (s.forget part w).mem = s.mem := rfl
@[simp] theorem State.mapCopies_mem (s : State) (part : Nat) (f : CopyOp → CopyOp) : (s.mapCopies part f).mem = s.mem := rfl

@[simp] theorem State.scrambleAt_wf : ∀ {n key : Nat} {s : State}, s.mem.wf = true → (s.scrambleAt key n).mem.wf = true
  | 0, _, _, w => w
  | _ + 1, _, _, w => by unfold State.scrambleAt; exact State.scrambleAt_wf (State.putShared_wf w)

@[simp] theorem State.scrambleFrames_wf : ∀ {l : List Pte} {s : State}, s.mem.wf = true → (s.scrambleFrames l).mem.wf = true
  | [], _, w => w
  | _ :: _, _, w => by unfold State.scrambleFrames; exact State.scrambleFrames_wf (State.scrambleAt_wf w)

@[simp] theorem State.recheck_wf {part : Nat} :
    ∀ {l : List (Nat × Pte)} {s : State}, s.mem.wf = true → (s.recheck part l).mem.wf = true
  | [], _, w => w
  | _ :: _, _, w => by
    unfold State.recheck
    refine State.recheck_wf ?_
    split
    · split <;> simp [w]
    · simp [w]

@[simp] theorem State.cacheTlb_mem (s : State) (cl part vp : Nat) (p : Pte) : (s.cacheTlb cl part vp p).mem = s.mem := rfl

@[simp] theorem State.putEntry_wf {s : State} {p va : Nat} {bs : List Byte} (w : s.mem.wf = true) :
    (s.putEntry p va bs).mem.wf = true := by
  unfold State.putEntry; dsimp only; (repeat' split) <;> simp [w]

@[simp] theorem State.resolved_wf {s : State} {id : Nat} {b : Bad} {i state : Nat} (w : s.mem.wf = true) :
    (s.resolved id b i state).mem.wf = true := by
  simp [State.resolved, w]

@[simp] theorem State.recause_wf {s : State} {id : Nat} {b : Bad} {i cause : Nat} (w : s.mem.wf = true) :
    (s.recause id b i cause).mem.wf = true := by
  simp [State.recause, w]

@[simp] theorem State.bringFor_wf {s : State} {c : Ctx} {k : Acc} {va : Nat} (w : s.mem.wf = true) :
    (s.bringFor c k va).mem.wf = true := by
  unfold State.bringFor; split <;> simp [w]

@[simp] theorem State.storeHeld_wf {s : State} {c : Ctx} {b : Bad} (w : s.mem.wf = true) : LeavesWf (s.storeHeld c b) := by
  have wb := foldl_wf (f := fun s (e : Nat × Byte) => s.bringFor c .store e.1) (l := b.held) (fun s e w => State.bringFor_wf w) w
  unfold State.storeHeld; dsimp only; split
  · exact wb
  · exact foldl_wf (fun s e w => by (repeat' split) <;> simp [w]) wb

@[simp] theorem State.atomHeld_wf {s : State} {c : Ctx} {id : Nat} {b : Bad} {a : Atom} (w : s.mem.wf = true) :
    LeavesWf (s.atomHeld c id b a) := by
  have wb : (s.bringFor c .atomic b.addr.toNat).mem.wf = true := State.bringFor_wf w
  unfold State.atomHeld; dsimp only; split
  · exact wb
  · simp [LeavesWf, wb]

@[simp] theorem State.pass_mem (s : State) (ns : Nat) : (s.pass ns).mem = s.mem := by
  simp only [State.pass, State.metered_mem]
  rw [foldl_mem (fun _ _ => by simp), foldl_mem (fun _ _ => by simp)]

@[simp] theorem State.heldBack_mem (v : State) (last : Nat) : (v.heldBack last).mem = v.mem := rfl

@[simp] theorem State.evictLine_mem (s : State) (cid line : Nat) (drop : Bool) : (s.evictLine cid line drop).mem = s.mem := by
  unfold State.evictLine; split <;> simp

@[simp] theorem State.evictBlock_wf {s : State} {blk : Nat} (w : s.mem.wf = true) : (s.evictBlock blk).mem.wf = true := by
  unfold State.evictBlock; dsimp only; (repeat' split) <;> simp [w]

end Sys2Proof.Machine
end

section
/-! PROOF (O58). Operations of instructions that use those of the copy engine, power, windows and the dead-letter ring. -/
namespace Sys2Proof.Machine

/- Each use of a script given as a default argument waits for all proofs before it: one after another they go. -/
set_option Elab.async false

@[simp] theorem gateSend_keeps (kind d : Nat) (a : Src) (cl : Nat) :
    KeepsMem (gateSend kind d a cl) := by
  unfold gateSend; exact .intro

@[simp] theorem readDesc_keeps (a : Word) : KeepsMem (readDesc a) := by unfold readDesc; exact .intro

@[simp] theorem rangePtes_keeps : ∀ base n : Nat, KeepsMem (rangePtes base n)
  | _, 0 => .pure _
  | base, n + 1 => by
    have ih := rangePtes_keeps (base + 65536) n
    unfold rangePtes; exact .intro

@[simp] theorem newWindow_keeps (snap : Bool) (d : WinDesc) : KeepsMem (newWindow snap d) := by unfold newWindow; exact .intro

@[simp] theorem openWindow_keeps (snap : Bool) (d : Nat) (a : Src) :
    KeepsMem (openWindow snap d a) := by
  unfold openWindow; exact .intro

@[simp] theorem needWindow_keeps (snap : Bool) (x : Word) : KeepsMem (needWindow snap x) := by unfold needWindow; exact .intro
@[simp] theorem needEntry_keeps (a : Src) : KeepsMem (needEntry a) := by unfold needEntry; exact .intro
@[simp] theorem rpwChecks_keeps (i : Instr) : KeepsMem (rpwChecks i) := by unfold rpwChecks; exact .intro

@[simp] theorem carryOut_keeps {d i id : Nat} {e : Bad} {r : Except (Nat × State) State} (h : LeavesWf r) :
    KeepsMem (carryOut d i id e r) := by
  unfold carryOut
  cases r with
  | ok t => exact .bind (.set h) fun _ => .intro
  | error t => exact .bind (.set h) fun _ => .intro

end Sys2Proof.Machine
end

section
/-! PROOF (O58). Every instruction keeps the form of the memory. -/
namespace Sys2Proof.Machine

/- Each use of a script given as a default argument waits for all proofs before it: one after another they go. -/
set_option Elab.async false

/-- Where the outcome is a next state, its memory is in form. -/
def NextWf : Host.Outcome State Fault Refusal → Prop
  | .next t => t.mem.wf = true
  | _ => True

/-- A run of operations that keep the memory's form; the descent goes on into those given the operations that free sources. -/
theorem NextWf.run {m : M Unit} {s : State} (w : s.mem.wf = true) (h : KeepsMem m := by
    repeat' first
      | with_reducible refine KeepsMem.get_bind fun _ _ => ?_
      | (with_reducible refine KeepsMem.stop_bind ?_); simp only [trap_stops, stall_stops, trapIn_stops, stallIn_stops, illop_stops,
          keyWait_stops, barIllop_stops, ctlIllop_stops, ringov_stops, mxFault_stops, mxIllop_stops, headIllop_stops,
          chuteTrap_stops, copyIllop_stops, pageIllop_stops]; done
      | with_reducible refine KeepsMem.bind ?_ fun _ => ?_
      | with_reducible refine KeepsMem.ite ?_ ?_
      | with_reducible refine KeepsMem.check ?_
      | with_reducible refine KeepsMem.modify fun _ _ => ?_
      | with_reducible refine KeepsMem.set ?_
      | with_reducible first
        | refine loadS_keeps _ _ _ _ _ _ _ ?_ | refine storeS_keeps _ _ _ _ _ ?_ | refine loadV_keeps _ _ _ _ _ _ _ ?_
        | refine storeBytes_keeps _ _ _ _ ?_ | refine issueMop_keeps _ _ _ _ _ _ ?_ | refine issueCopy_keeps _ _ _ ?_
        | refine atomic_keeps _ _ ?_ | refine faultedAll_keeps fun _ => ?_
      | split
      | simp [*]; done
      | dsimp only) : NextWf (Machine.run m s) := by
  have hm := h w
  unfold Machine.run
  split <;> rename_i hr <;> rw [hr] at hm
  · exact hm
  · simpa [NextWf] using w
  · simpa [NextWf] using w
  · simpa [NextWf, Stop.Wf] using hm
  · simpa [NextWf, Stop.Wf] using hm
  · exact w
  · exact hm

section
variable {s : State} (hs : s.mem.wf = true)
include hs
@[simp] theorem execAdd_wf {d : Nat} {a b : Src} : NextWf (execAdd d a b s) := by unfold execAdd; exact .run hs
@[simp] theorem execAddi_wf {d : Nat} {a : Src} {imm : Int} : NextWf (execAddi d a imm s) := by unfold execAddi; exact .run hs
@[simp] theorem execSub_wf {d : Nat} {a b : Src} : NextWf (execSub d a b s) := by unfold execSub; exact .run hs
@[simp] theorem execAnd_wf {d : Nat} {a b : Src} : NextWf (execAnd d a b s) := by unfold execAnd; exact .run hs
@[simp] theorem execOr_wf {d : Nat} {a b : Src} : NextWf (execOr d a b s) := by unfold execOr; exact .run hs
@[simp] theorem execXor_wf {d : Nat} {a b : Src} : NextWf (execXor d a b s) := by unfold execXor; exact .run hs
@[simp] theorem execSlli_wf {d : Nat} {a : Src} {imm : Nat} : NextWf (execSlli d a imm s) := by unfold execSlli; exact .run hs
@[simp] theorem execSrli_wf {d : Nat} {a : Src} {imm : Nat} : NextWf (execSrli d a imm s) := by unfold execSrli; exact .run hs
@[simp] theorem execSrai_wf {d : Nat} {a : Src} {imm : Nat} : NextWf (execSrai d a imm s) := by unfold execSrai; exact .run hs
@[simp] theorem execLi_wf {d : Nat} {imm : Int} : NextWf (execLi d imm s) := by unfold execLi; exact .run hs
@[simp] theorem execMov_wf {d : Nat} {a : Src} : NextWf (execMov d a s) := by unfold execMov; exact .run hs
@[simp] theorem execSlt_wf {d : Nat} {a b : Src} : NextWf (execSlt d a b s) := by unfold execSlt; exact .run hs
@[simp] theorem execSltu_wf {d : Nat} {a b : Src} : NextWf (execSltu d a b s) := by unfold execSltu; exact .run hs
@[simp] theorem execSeq_wf {d : Nat} {a b : Src} : NextWf (execSeq d a b s) := by unfold execSeq; exact .run hs
@[simp] theorem execMul_wf {d : Nat} {a b : Src} : NextWf (execMul d a b s) := by unfold execMul; exact .run hs
@[simp] theorem execMulh_wf {d : Nat} {a b : Src} : NextWf (execMulh d a b s) := by unfold execMulh; exact .run hs
@[simp] theorem execMulhu_wf {d : Nat} {a b : Src} : NextWf (execMulhu d a b s) := by unfold execMulhu; exact .run hs
@[simp] theorem execDiv_wf {d : Nat} {a b : Src} : NextWf (execDiv d a b s) := by unfold execDiv; exact .run hs
@[simp] theorem execDivu_wf {d : Nat} {a b : Src} : NextWf (execDivu d a b s) := by unfold execDivu; exact .run hs
@[simp] theorem execRem_wf {d : Nat} {a b : Src} : NextWf (execRem d a b s) := by unfold execRem; exact .run hs
@[simp] theorem execRemu_wf {d : Nat} {a b : Src} : NextWf (execRemu d a b s) := by unfold execRemu; exact .run hs
@[simp] theorem execSll_wf {d : Nat} {a b : Src} : NextWf (execSll d a b s) := by unfold execSll; exact .run hs
@[simp] theorem execSrl_wf {d : Nat} {a b : Src} : NextWf (execSrl d a b s) := by unfold execSrl; exact .run hs
@[simp] theorem execSra_wf {d : Nat} {a b : Src} : NextWf (execSra d a b s) := by unfold execSra; exact .run hs
@[simp] theorem execFshr_wf {d : Nat} {a b c : Src} : NextWf (execFshr d a b c s) := by unfold execFshr; exact .run hs
@[simp] theorem execClz_wf {d : Nat} {a : Src} : NextWf (execClz d a s) := by unfold execClz; exact .run hs
@[simp] theorem execCtz_wf {d : Nat} {a : Src} : NextWf (execCtz d a s) := by unfold execCtz; exact .run hs
@[simp] theorem execPopc_wf {d : Nat} {a : Src} : NextWf (execPopc d a s) := by unfold execPopc; exact .run hs

@[simp] theorem execBext_wf {d : Nat} {a : Src} {pos len : Nat} :
    NextWf (execBext d a pos len s) := by
  unfold execBext; exact .run hs

@[simp] theorem execBins_wf {d : Nat} {a : Src} {pos len : Nat} :
    NextWf (execBins d a pos len s) := by
  unfold execBins; exact .run hs

@[simp] theorem execMin_wf {d : Nat} {a b : Src} : NextWf (execMin d a b s) := by unfold execMin; exact .run hs
@[simp] theorem execMax_wf {d : Nat} {a b : Src} : NextWf (execMax d a b s) := by unfold execMax; exact .run hs
@[simp] theorem execMinu_wf {d : Nat} {a b : Src} : NextWf (execMinu d a b s) := by unfold execMinu; exact .run hs
@[simp] theorem execMaxu_wf {d : Nat} {a b : Src} : NextWf (execMaxu d a b s) := by unfold execMaxu; exact .run hs
@[simp] theorem execSel_wf {d : Nat} {a b c : Src} : NextWf (execSel d a b c s) := by unfold execSel; exact .run hs
@[simp] theorem execSext_wf {w d : Nat} {a : Src} : NextWf (execSext w d a s) := by unfold execSext; exact .run hs
@[simp] theorem execZext_wf {w d : Nat} {a : Src} : NextWf (execZext w d a s) := by unfold execZext; exact .run hs
@[simp] theorem execLea_wf {sh d : Nat} {a b : Src} : NextWf (execLea sh d a b s) := by unfold execLea; exact .run hs
@[simp] theorem execAndi_wf {d : Nat} {a : Src} {imm : Int} : NextWf (execAndi d a imm s) := by unfold execAndi; exact .run hs
@[simp] theorem execOri_wf {d : Nat} {a : Src} {imm : Nat} : NextWf (execOri d a imm s) := by unfold execOri; exact .run hs
@[simp] theorem execXori_wf {d : Nat} {a : Src} {imm : Nat} : NextWf (execXori d a imm s) := by unfold execXori; exact .run hs
@[simp] theorem execKeyqOwn_wf {d idx : Nat} : NextWf (execKeyqOwn d idx s) := by unfold execKeyqOwn; exact .run hs
@[simp] theorem execKeyqId_wf {d : Nat} {a : Src} : NextWf (execKeyqId d a s) := by unfold execKeyqId; exact .run hs
@[simp] theorem execKeyrel_wf {idx : Nat} : NextWf (execKeyrel idx s) := by unfold execKeyrel; exact .run hs
@[simp] theorem execBardef_wf {n : Nat} {a : Src} : NextWf (execBardef n a s) := by unfold execBardef; exact .run hs
@[simp] theorem execBar_wf {rel : Bool} {n : Nat} {a : Src} : NextWf (execBar rel n a s) := by unfold execBar; exact .run hs
@[simp] theorem execBarv_wf {d n : Nat} : NextWf (execBarv d n s) := by unfold execBarv; exact .run hs

@[simp] theorem execBararr_wf {rel : Bool} {d n : Nat} {b : Src} :
    NextWf (execBararr rel d n b s) := by
  unfold execBararr; exact .run hs

@[simp] theorem execBarw_wf {d n : Nat} {b : Src} : NextWf (execBarw d n b s) := by unfold execBarw; exact .run hs
@[simp] theorem execBarwT_wf {d n : Nat} {b c : Src} : NextWf (execBarwT d n b c s) := by unfold execBarwT; exact .run hs
@[simp] theorem execBartx_wf {n : Nat} {a : Src} : NextWf (execBartx n a s) := by unfold execBartx; exact .run hs
@[simp] theorem execBarst_wf {pend : Bool} {d n : Nat} : NextWf (execBarst pend d n s) := by unfold execBarst; exact .run hs
@[simp] theorem execEvwait_wf {e : Nat} : NextWf (execEvwait e s) := by unfold execEvwait; exact .run hs
@[simp] theorem execEvsig_wf {e : Nat} : NextWf (execEvsig e s) := by unfold execEvsig; exact .run hs
@[simp] theorem execEvsigRmt_wf {a b : Src} : NextWf (execEvsigRmt a b s) := by unfold execEvsigRmt; exact .run hs
@[simp] theorem execTmwait_wf {d : Nat} {a : Src} : NextWf (execTmwait d a s) := by unfold execTmwait; exact .run hs

@[simp] theorem execReservedOpcode_wf {page half : Nat} :
    NextWf (execReservedOpcode page half s) := by
  unfold execReservedOpcode; exact .run hs

@[simp] theorem execLd_wf {d : Nat} {a : Src} {imm : Int} : NextWf (execLd d a imm s) := by unfold execLd; exact .run hs
@[simp] theorem execSt_wf {d a : Src} {imm : Int} : NextWf (execSt d a imm s) := by unfold execSt; exact .run hs
@[simp] theorem execPbr_wf {d : Nat} {imm : Int} : NextWf (execPbr d imm s) := by unfold execPbr; exact .run hs
@[simp] theorem execBr_wf {imm : Int} : NextWf (execBr imm s) := by unfold execBr; exact .run hs
@[simp] theorem execBrnz_wf {a : Src} {imm : Int} : NextWf (execBrnz a imm s) := by unfold execBrnz; exact .run hs
@[simp] theorem execBrz_wf {a : Src} {imm : Int} : NextWf (execBrz a imm s) := by unfold execBrz; exact .run hs
@[simp] theorem execCall_wf {imm : Int} : NextWf (execCall imm s) := by unfold execCall; exact .run hs
@[simp] theorem execCallB_wf {d : Nat} : NextWf (execCallB d s) := by unfold execCallB; exact .run hs
@[simp] theorem execRet_wf : NextWf (execRet s) := by unfold execRet; exact .run hs
@[simp] theorem execBreq_wf {d : Nat} {a b : Src} : NextWf (execBreq d a b s) := by unfold execBreq; exact .run hs
@[simp] theorem execBrne_wf {d : Nat} {a b : Src} : NextWf (execBrne d a b s) := by unfold execBrne; exact .run hs
@[simp] theorem execBrlt_wf {d : Nat} {a b : Src} : NextWf (execBrlt d a b s) := by unfold execBrlt; exact .run hs
@[simp] theorem execBrge_wf {d : Nat} {a b : Src} : NextWf (execBrge d a b s) := by unfold execBrge; exact .run hs
@[simp] theorem execBrltu_wf {d : Nat} {a b : Src} : NextWf (execBrltu d a b s) := by unfold execBrltu; exact .run hs
@[simp] theorem execBrgeu_wf {d : Nat} {a b : Src} : NextWf (execBrgeu d a b s) := by unfold execBrgeu; exact .run hs
@[simp] theorem execPbrr_wf {d : Nat} {a : Src} : NextWf (execPbrr d a s) := by unfold execPbrr; exact .run hs
@[simp] theorem execMfb_wf {d a : Nat} : NextWf (execMfb d a s) := by unfold execMfb; exact .run hs
@[simp] theorem execWait_wf {l st c m h : Nat} : NextWf (execWait l st c m h s) := by unfold execWait; exact .run hs
@[simp] theorem execMfc_wf {d ctl : Nat} : NextWf (execMfc d ctl s) := by unfold execMfc; exact .run hs
@[simp] theorem execMtc_wf {ctl : Nat} {a : Src} : NextWf (execMtc ctl a s) := by unfold execMtc; exact .run hs
@[simp] theorem execRdtime_wf {d : Nat} : NextWf (execRdtime d s) := by unfold execRdtime; exact .run hs
@[simp] theorem execRdcyc_wf {d : Nat} : NextWf (execRdcyc d s) := by unfold execRdcyc; exact .run hs

@[simp] theorem execMcall_wf {slot p0 p1 p2 p3 : Nat} :
    NextWf (execMcall slot p0 p1 p2 p3 s) := by
  unfold execMcall; exact .run hs

@[simp] theorem execMcw_wf {slot : Nat} {a : Src} : NextWf (execMcw slot a s) := by unfold execMcw; exact .run hs
@[simp] theorem execMcinv_wf {slot : Nat} : NextWf (execMcinv slot s) := by unfold execMcinv; exact .run hs
@[simp] theorem execEbrk_wf {code : Nat} : NextWf (execEbrk code s) := by unfold execEbrk; exact .run hs

@[simp] theorem execTrap_wf {code : Nat} : NextWf (execTrap code s) := by
  have stop (p : Word) : KeepsMem (throw (Stop.trapAt cSWTRAP (BitVec.ofNat 64 code) p) : M Unit) := fun _ _ => trivial
  unfold execTrap; exact .run hs

@[simp] theorem execTret_wf : NextWf (execTret s) := by unfold execTret; exact .run hs
@[simp] theorem execRgdef_wf {q : Nat} {a b : Src} : NextWf (execRgdef q a b s) := by unfold execRgdef; exact .run hs
@[simp] theorem execRgrsv_wf {d q : Nat} {b : Src} : NextWf (execRgrsv d q b s) := by unfold execRgrsv; exact .run hs
@[simp] theorem execRgpub_wf {q : Nat} {a b : Src} : NextWf (execRgpub q a b s) := by unfold execRgpub; exact .run hs
@[simp] theorem execRgcon_wf {d q : Nat} {b : Src} : NextWf (execRgcon d q b s) := by unfold execRgcon; exact .run hs

@[simp] theorem execRgst_wf {op : RgOp} {d q : Nat} {b : Src} :
    NextWf (execRgst op d q b s) := by
  unfold execRgst; exact .run hs

@[simp] theorem execVld_wf {q : MQ} {d : Nat} {a : Src} {imm : Int} :
    NextWf (execVld q d a imm s) := by
  unfold execVld; exact .run hs

@[simp] theorem execVst_wf {_ty : ETy} {k : Nat} {d a : Src} {imm : Int} :
    NextWf (execVst _ty k d a imm s) := by
  unfold execVst; exact .run hs

@[simp] theorem execVadd_wf {q : VQ} {d : Nat} {a b : Src} : NextWf (execVadd q d a b s) := by unfold execVadd; exact .run hs
@[simp] theorem execVsub_wf {q : VQ} {d : Nat} {a b : Src} : NextWf (execVsub q d a b s) := by unfold execVsub; exact .run hs
@[simp] theorem execVmul_wf {q : VQ} {d : Nat} {a b : Src} : NextWf (execVmul q d a b s) := by unfold execVmul; exact .run hs

@[simp] theorem execVfma_wf {q : VQ} {d : Nat} {a b : Src} {c : Option Src} :
    NextWf (execVfma q d a b c s) := by
  unfold execVfma; exact .run hs

@[simp] theorem execVmin_wf {q : MQ} {d : Nat} {a b : Src} : NextWf (execVmin q d a b s) := by unfold execVmin; exact .run hs
@[simp] theorem execVmax_wf {q : MQ} {d : Nat} {a b : Src} : NextWf (execVmax q d a b s) := by unfold execVmax; exact .run hs
@[simp] theorem execVabs_wf {q : VQ} {d : Nat} {a : Src} : NextWf (execVabs q d a s) := by unfold execVabs; exact .run hs
@[simp] theorem execVneg_wf {q : VQ} {d : Nat} {a : Src} : NextWf (execVneg q d a s) := by unfold execVneg; exact .run hs
@[simp] theorem execVmov_wf {q : MQ} {d : Nat} {a : Src} : NextWf (execVmov q d a s) := by unfold execVmov; exact .run hs
@[simp] theorem execVand_wf {q : MQ} {d : Nat} {a b : Src} : NextWf (execVand q d a b s) := by unfold execVand; exact .run hs
@[simp] theorem execVor_wf {q : MQ} {d : Nat} {a b : Src} : NextWf (execVor q d a b s) := by unfold execVor; exact .run hs
@[simp] theorem execVxor_wf {q : MQ} {d : Nat} {a b : Src} : NextWf (execVxor q d a b s) := by unfold execVxor; exact .run hs
@[simp] theorem execVsll_wf {q : MQ} {d : Nat} {a b : Src} : NextWf (execVsll q d a b s) := by unfold execVsll; exact .run hs
@[simp] theorem execVsrl_wf {q : MQ} {d : Nat} {a b : Src} : NextWf (execVsrl q d a b s) := by unfold execVsrl; exact .run hs
@[simp] theorem execVsra_wf {q : MQ} {d : Nat} {a b : Src} : NextWf (execVsra q d a b s) := by unfold execVsra; exact .run hs

@[simp] theorem execVfsh_wf {q : MQ} {d : Nat} {a b c : Src} :
    NextWf (execVfsh q d a b c s) := by
  unfold execVfsh; exact .run hs

@[simp] theorem execVclz_wf {q : MQ} {d : Nat} {a : Src} : NextWf (execVclz q d a s) := by unfold execVclz; exact .run hs
@[simp] theorem execVpopc_wf {q : MQ} {d : Nat} {a : Src} : NextWf (execVpopc q d a s) := by unfold execVpopc; exact .run hs

@[simp] theorem execVcmp_wf {c : Cond} {q : MQ} {d : Nat} {a b : Src} :
    NextWf (execVcmp c q d a b s) := by
  unfold execVcmp; exact .run hs

@[simp] theorem execVsel_wf {ty : ETy} {k d : Nat} {a b : Src} :
    NextWf (execVsel ty k d a b s) := by
  unfold execVsel; exact .run hs

@[simp] theorem execKop_wf {op : KOp} {d : Nat} {a b : Src} : NextWf (execKop op d a b s) := by unfold execKop; exact .run hs
@[simp] theorem execKmov_wf {op : KMov} {d : Nat} {a : Src} : NextWf (execKmov op d a s) := by unfold execKmov; exact .run hs
@[simp] theorem execKpop_wf {ty : ETy} {d : Nat} {a : Src} : NextWf (execKpop ty d a s) := by unfold execKpop; exact .run hs
@[simp] theorem execVbcast_wf {q : MQ} {d : Nat} {a : Src} : NextWf (execVbcast q d a s) := by unfold execVbcast; exact .run hs
@[simp] theorem execVext_wf {ty : ETy} {d : Nat} {a b : Src} : NextWf (execVext ty d a b s) := by unfold execVext; exact .run hs
@[simp] theorem execVins_wf {ty : ETy} {d : Nat} {a b : Src} : NextWf (execVins ty d a b s) := by unfold execVins; exact .run hs
@[simp] theorem execVperm_wf {q : MQ} {d : Nat} {a b : Src} : NextWf (execVperm q d a b s) := by unfold execVperm; exact .run hs
@[simp] theorem execVrot_wf {q : MQ} {d : Nat} {a b : Src} : NextWf (execVrot q d a b s) := by unfold execVrot; exact .run hs
@[simp] theorem execVgmax_wf {q : MQ} {d : Nat} {a : Src} : NextWf (execVgmax q d a s) := by unfold execVgmax; exact .run hs
@[simp] theorem execVgsum_wf {q : VQ} {d : Nat} {a : Src} : NextWf (execVgsum q d a s) := by unfold execVgsum; exact .run hs
@[simp] theorem execVscan_wf {q : VQ} {d : Nat} {a : Src} : NextWf (execVscan q d a s) := by unfold execVscan; exact .run hs
@[simp] theorem execVcompr_wf {q : MQ} {d : Nat} {a : Src} : NextWf (execVcompr q d a s) := by unfold execVcompr; exact .run hs

@[simp] theorem execVspread_wf {q : MQ} {d : Nat} {a : Src} :
    NextWf (execVspread q d a s) := by
  unfold execVspread; exact .run hs

@[simp] theorem execViota_wf {q : MQ} {d : Nat} : NextWf (execViota q d s) := by unfold execViota; exact .run hs
@[simp] theorem execVrcp_wf {q : VQ} {d : Nat} {a : Src} : NextWf (execVrcp q d a s) := by unfold execVrcp; exact .run hs
@[simp] theorem execVrsqrt_wf {q : VQ} {d : Nat} {a : Src} : NextWf (execVrsqrt q d a s) := by unfold execVrsqrt; exact .run hs
@[simp] theorem execVexp2_wf {q : VQ} {d : Nat} {a : Src} : NextWf (execVexp2 q d a s) := by unfold execVexp2; exact .run hs
@[simp] theorem execVlog2_wf {q : VQ} {d : Nat} {a : Src} : NextWf (execVlog2 q d a s) := by unfold execVlog2; exact .run hs
@[simp] theorem execVtanh_wf {q : VQ} {d : Nat} {a : Src} : NextWf (execVtanh q d a s) := by unfold execVtanh; exact .run hs

@[simp] theorem execVcvt_wf {q : VQ} {d : Nat} {a : Src} {sty : ETy} :
    NextWf (execVcvt q d a sty s) := by
  unfold execVcvt; exact .run hs

@[simp] theorem execVpack_wf {q : VQ} {d : Nat} {a b : Src} : NextWf (execVpack q d a b s) := by unfold execVpack; exact .run hs

@[simp] theorem execVunpk_wf {q : MQ} {d : Nat} {a : Src} {half : Nat} :
    NextWf (execVunpk q d a half s) := by
  unfold execVunpk; exact .run hs

@[simp] theorem execVround_wf {q : VQ} {d : Nat} {a : Src} : NextWf (execVround q d a s) := by unfold execVround; exact .run hs
@[simp] theorem execVclass_wf {q : MQ} {d : Nat} {a : Src} : NextWf (execVclass q d a s) := by unfold execVclass; exact .run hs

@[simp] theorem execVscale_wf {q : VQ} {d : Nat} {a b : Src} :
    NextWf (execVscale q d a b s) := by
  unfold execVscale; exact .run hs

@[simp] theorem execVdot_wf {q : VQ} {d : Nat} {a b : Src} : NextWf (execVdot q d a b s) := by unfold execVdot; exact .run hs

@[simp] theorem execVqst_wf {sb8 : Bool} {allow : Nat} {d a : Src} {imm : Int} :
    NextWf (execVqst sb8 allow d a imm s) := by
  unfold execVqst; exact .run hs

@[simp] theorem execVqenc_wf {sb8 : Bool} {allow : Nat} {d : Nat} {a : Src} :
    NextWf (execVqenc sb8 allow d a s) := by
  unfold execVqenc; exact .run hs

@[simp] theorem execVdq_wf {kind : DqKind} {rnd : Rnd} {sat : Bool} {k : Nat} {zero : Bool} {d : Nat} {a : Src} :
    NextWf (execVdq kind rnd sat k zero d a s) := by
  unfold execVdq; exact .run hs

@[simp] theorem execVseed_wf {k : Nat} {zero : Bool} {d : Nat} :
    NextWf (execVseed k zero d s) := by
  unfold execVseed; exact .run hs

@[simp] theorem execMxbind_wf {d : Nat} {a b : Src} {c : Option Src} :
    NextWf (execMxbind d a b c s) := by
  unfold execMxbind; exact .run hs

@[simp] theorem execMxunbind_wf {d : Nat} : NextWf (execMxunbind d s) := by unfold execMxunbind; exact .run hs
@[simp] theorem execMx_wf {d n : Nat} : NextWf (execMx d n s) := by unfold execMx; exact .run hs
@[simp] theorem execMxg_wf {d : Nat} {a : Src} : NextWf (execMxg d a s) := by unfold execMxg; exact .run hs
@[simp] theorem execMxzero_wf {d : Nat} : NextWf (execMxzero d s) := by unfold execMxzero; exact .run hs
@[simp] theorem execMxld_wf {d : Nat} {a : Src} : NextWf (execMxld d a s) := by unfold execMxld; exact .run hs
@[simp] theorem execMxst_wf {d : Nat} {a : Src} : NextWf (execMxst d a s) := by unfold execMxst; exact .run hs
@[simp] theorem execMxdrain_wf {keep : Bool} {d : Nat} : NextWf (execMxdrain keep d s) := by unfold execMxdrain; exact .run hs
@[simp] theorem execPlane_wf {fmt : MFmt} {d a : Src} : NextWf (execPlane fmt d a s) := by unfold execPlane; exact .run hs
@[simp] theorem execUnplane_wf {fmt : MFmt} {d a : Src} : NextWf (execUnplane fmt d a s) := by unfold execUnplane; exact .run hs
@[simp] theorem execDrrow_wf {d : Nat} : NextWf (execDrrow d s) := by unfold execDrrow; exact .run hs
@[simp] theorem execDrput_wf {a : Src} : NextWf (execDrput a s) := by unfold execDrput; exact .run hs
@[simp] theorem execDrdone_wf {drop : Bool} : NextWf (execDrdone drop s) := by unfold execDrdone; exact .run hs
@[simp] theorem execMxstat_wf {op : MxStat} {d a : Nat} : NextWf (execMxstat op d a s) := by unfold execMxstat; exact .run hs
@[simp] theorem execMsend_wf {a b : Src} : NextWf (execMsend a b s) := by unfold execMsend; exact .run hs
@[simp] theorem execMrecv_wf {d : Nat} : NextWf (execMrecv d s) := by unfold execMrecv; exact .run hs
@[simp] theorem execMpoll_wf {d : Nat} : NextWf (execMpoll d s) := by unfold execMpoll; exact .run hs
@[simp] theorem execHtake_wf {h : Nat} : NextWf (execHtake h s) := by unfold execHtake; exact .run hs
@[simp] theorem execHgive_wf {h : Nat} : NextWf (execHgive h s) := by unfold execHgive; exact .run hs

@[simp] theorem execHseek_wf {dir : SeekDir} {h : Nat} {a : Src} :
    NextWf (execHseek dir h a s) := by
  unfold execHseek; exact .run hs

@[simp] theorem execHrew_wf {h : Nat} : NextWf (execHrew h s) := by unfold execHrew; exact .run hs
@[simp] theorem execHpos_wf {d h : Nat} : NextWf (execHpos d h s) := by unfold execHpos; exact .run hs
@[simp] theorem execHstride_wf {h : Nat} {a : Src} : NextWf (execHstride h a s) := by unfold execHstride; exact .run hs
@[simp] theorem execHmark_wf {h : Nat} : NextWf (execHmark h s) := by unfold execHmark; exact .run hs
@[simp] theorem execHrd_wf {d h : Nat} : NextWf (execHrd d h s) := by unfold execHrd; exact .run hs
@[simp] theorem execHwr_wf {h : Nat} {a : Src} : NextWf (execHwr h a s) := by unfold execHwr; exact .run hs
@[simp] theorem execHrealign_wf {h : Nat} : NextWf (execHrealign h s) := by unfold execHrealign; exact .run hs
@[simp] theorem execHburst_wf {h q : Nat} {b : Src} : NextWf (execHburst h q b s) := by unfold execHburst; exact .run hs
@[simp] theorem execHfill_wf {h q : Nat} {b : Src} : NextWf (execHfill h q b s) := by unfold execHfill; exact .run hs
@[simp] theorem execSync_wf {op : VoteOp} {d : Nat} {a : Src} : NextWf (execSync op d a s) := by unfold execSync; exact .run hs
@[simp] theorem execFpush_wf {f : Nat} {a : Src} : NextWf (execFpush f a s) := by unfold execFpush; exact .run hs
@[simp] theorem execFpop_wf {d f : Nat} : NextWf (execFpop d f s) := by unfold execFpop; exact .run hs
@[simp] theorem execFfree_wf {avail : Bool} {d f : Nat} : NextWf (execFfree avail d f s) := by unfold execFfree; exact .run hs
@[simp] theorem execHalt_wf : NextWf (execHalt s) := by unfold execHalt; exact .run hs
@[simp] theorem execHaltKill_wf : NextWf (execHaltKill s) := by unfold execHaltKill; exact .run hs
@[simp] theorem execRetire_wf {node : Nat} : NextWf (execRetire node s) := by unfold execRetire; exact .run hs
@[simp] theorem execYield_wf : NextWf (execYield s) := by unfold execYield; exact .run hs
@[simp] theorem execSpawn_wf {d : Nat} {a : Src} : NextWf (execSpawn d a s) := by unfold execSpawn; exact .run hs
@[simp] theorem execTsig_wf : NextWf (execTsig s) := by unfold execTsig; exact .run hs

@[simp] theorem execCpy_wf {rnd : Rnd} {sat : Bool} {d : Nat} {a b : Src} {c : Option Src} :
    NextWf (execCpy rnd sat d a b c s) := by
  unfold execCpy; exact .run hs

@[simp] theorem execCpys_wf {rnd : Rnd} {sat : Bool} {d : Nat} {a b : Src} :
    NextWf (execCpys rnd sat d a b s) := by
  unfold execCpys; exact .run hs

@[simp] theorem execCpst_wf {d : Nat} {a b : Src} : NextWf (execCpst d a b s) := by unfold execCpst; exact .run hs
@[simp] theorem execXput_wf {d : Nat} {a b : Src} : NextWf (execXput d a b s) := by unfold execXput; exact .run hs
@[simp] theorem execXget_wf {d : Nat} {a b : Src} : NextWf (execXget d a b s) := by unfold execXget; exact .run hs
@[simp] theorem execXred_wf {ty : ETy} {d : Nat} {a b : Src} : NextWf (execXred ty d a b s) := by unfold execXred; exact .run hs
@[simp] theorem execXfin_wf {ty : ETy} {d : Nat} {a b : Src} : NextWf (execXfin ty d a b s) := by unfold execXfin; exact .run hs

@[simp] theorem execLdx_wf {ty : ETy} {d : Nat} {a : Src} {imm : Int} :
    NextWf (execLdx ty d a imm s) := by
  unfold execLdx; exact .run hs

@[simp] theorem execStx_wf {ty : ETy} {d a : Src} {imm : Int} :
    NextWf (execStx ty d a imm s) := by
  unfold execStx; exact .run hs

@[simp] theorem execVldu_wf {q : MQ} {d : Nat} {a : Src} {imm : Int} :
    NextWf (execVldu q d a imm s) := by
  unfold execVldu; exact .run hs

@[simp] theorem execVstm_wf {_ty : ETy} {k : Nat} {d a : Src} {imm : Int} :
    NextWf (execVstm _ty k d a imm s) := by
  unfold execVstm; exact .run hs

@[simp] theorem execLdc_wf {ty : ETy} {d : Nat} {a : Src} {imm : Int} :
    NextWf (execLdc ty d a imm s) := by
  unfold execLdc; exact .run hs

@[simp] theorem execVldc_wf {q : MQ} {d : Nat} {a : Src} {imm : Int} :
    NextWf (execVldc q d a imm s) := by
  unfold execVldc; exact .run hs

@[simp] theorem execVgath_wf {q : MQ} {d : Nat} {a b : Src} : NextWf (execVgath q d a b s) := by unfold execVgath; exact .run hs

@[simp] theorem execVscat_wf {ty : ETy} {k : Nat} {a b c : Src} :
    NextWf (execVscat ty k a b c s) := by
  unfold execVscat; exact .run hs

@[simp] theorem execAmo_wf {op : AmoOp} {w : Bool} {sc : Scope} {d : Nat} {a b : Src} :
    NextWf (execAmo op w sc d a b s) := by
  unfold execAmo; exact .run hs

@[simp] theorem execCas_wf {w : Bool} {sc : Scope} {d : Nat} {a b c : Src} :
    NextWf (execCas w sc d a b c s) := by
  unfold execCas; exact .run hs

@[simp] theorem execAggadd_wf {k : Nat} {zero : Bool} {sc : Scope} {d : Nat} {a b : Src} :
    NextWf (execAggadd k zero sc d a b s) := by
  unfold execAggadd; exact .run hs

@[simp] theorem execFence_wf {sc : Scope} {o : Order} : NextWf (execFence sc o s) := by unfold execFence; exact .run hs
@[simp] theorem execPref_wf {w : Bool} {a : Src} {imm : Int} : NextWf (execPref w a imm s) := by unfold execPref; exact .run hs
@[simp] theorem execClinv_wf {a : Src} : NextWf (execClinv a s) := by unfold execClinv; exact .run hs
@[simp] theorem execClwb_wf {a : Src} : NextWf (execClwb a s) := by unfold execClwb; exact .run hs
@[simp] theorem execPgateReq_wf {d : Nat} {a : Src} : NextWf (execPgateReq d a s) := by unfold execPgateReq; exact .run hs
@[simp] theorem execPgateQ_wf {d : Nat} {a : Src} : NextWf (execPgateQ d a s) := by unfold execPgateQ; exact .run hs
@[simp] theorem execPwake_wf {d : Nat} {a : Src} : NextWf (execPwake d a s) := by unfold execPwake; exact .run hs
@[simp] theorem execShadow_wf {d : Nat} {a : Src} : NextWf (execShadow d a s) := by unfold execShadow; exact .run hs
@[simp] theorem execSnapTake_wf {d : Nat} {a : Src} : NextWf (execSnapTake d a s) := by unfold execSnapTake; exact .run hs

@[simp] theorem execPublishSwap_wf {a : Src} : NextWf (execPublishSwap a s) := by
  have swapped (s : State) (p b c : Nat) (marked : List Nat) (l m : List Pte) (z : List (Pte × Pte)) (w : s.mem.wf = true) :
      ((((s.bringFrames p l).bringFrames p m).mergeFrames marked 0 z).swapLeaves p b c z).mem.wf = true :=
    State.swapLeaves_wf (State.mergeFrames_wf (State.bringFrames_wf (State.bringFrames_wf w)))
  unfold execPublishSwap; exact .run hs

@[simp] theorem execPublishDrop_wf {a : Src} : NextWf (execPublishDrop a s) := by unfold execPublishDrop; exact .run hs
@[simp] theorem execSnapDrop_wf {a : Src} : NextWf (execSnapDrop a s) := by unfold execSnapDrop; exact .run hs
@[simp] theorem execTlbinvPage_wf {a : Src} : NextWf (execTlbinvPage a s) := by unfold execTlbinvPage; exact .run hs
@[simp] theorem execTlbinvAll_wf : NextWf (execTlbinvAll s) := by unfold execTlbinvAll; exact .run hs
@[simp] theorem execRpwS_wf {d : Nat} {a b : Src} : NextWf (execRpwS d a b s) := by unfold execRpwS; exact .run hs
@[simp] theorem execRpwV_wf {d : Nat} {a b : Src} : NextWf (execRpwV d a b s) := by unfold execRpwV; exact .run hs
@[simp] theorem execRpwDone_wf {d : Nat} {a : Src} : NextWf (execRpwDone d a s) := by unfold execRpwDone; exact .run hs
@[simp] theorem execRpwKill_wf {d : Nat} {a : Src} : NextWf (execRpwKill d a s) := by unfold execRpwKill; exact .run hs
end

end Sys2Proof.Machine
end

section
/-! PROOF (O58). Every event keeps the form of the memory. -/
namespace Sys2Proof.Machine

@[simp] theorem NextWf.next {t : State} : NextWf (.next t) ↔ t.mem.wf = true := .rfl
@[simp] theorem NextWf.fault {e : Fault} : NextWf (.fault e) := trivial
@[simp] theorem NextWf.refused {e : Refusal} : NextWf (.refused e) := trivial

@[simp] theorem execBarrierPhaseComplete_wf {cl n : Nat} {s : State} (hs : s.mem.wf = true) :
    NextWf (execBarrierPhaseComplete cl n s) := by
  simp [execBarrierPhaseComplete, hs]

@[simp] theorem execRemoteEventArrival_wf {n : Nat} {s : State} (hs : s.mem.wf = true) :
    NextWf (execRemoteEventArrival n s) := by
  have ht {a b : Nat} {t : State} (h : s.request a b = some t) : t.mem.wf = true := State.request_mem h ▸ hs
  simp only [execRemoteEventArrival]
  (repeat' split) <;> simp [hs]
  all_goals exact ht ‹_›

@[simp] theorem execFiringStart_wf {core cid t : Nat} {s : State} (hs : s.mem.wf = true) :
    NextWf (execFiringStart core cid t s) := by
  simp only [execFiringStart]; (repeat' split) <;> simp [hs]

@[simp] theorem execGangedFiringStart_wf {core cid t : Nat} {s : State} (hs : s.mem.wf = true) :
    NextWf (execGangedFiringStart core cid t s) := by
  simp only [execGangedFiringStart]; (repeat' split) <;> simp [hs]

@[simp] theorem execFiringComplete_wf {core badRows : Nat} {s : State} (hs : s.mem.wf = true) :
    NextWf (execFiringComplete core badRows s) := by
  simp only [execFiringComplete]; (repeat' split) <;> simp [hs]

@[simp] theorem execAssayRecompute_wf {core badRows : Nat} {s : State} (hs : s.mem.wf = true) :
    NextWf (execAssayRecompute core badRows s) := by
  simp only [execAssayRecompute]; (repeat' split) <;> simp [hs]

@[simp] theorem execGangArrival_wf {core : Nat} {s : State} (hs : s.mem.wf = true) : NextWf (execGangArrival core s) := by
  simp only [execGangArrival]; (repeat' split) <;> simp [hs]

@[simp] theorem execMatrixOpComplete_wf {core : Nat} {s : State} (hs : s.mem.wf = true) :
    NextWf (execMatrixOpComplete core s) := by
  simp only [execMatrixOpComplete]; (repeat' split) <;> simp [hs]

@[simp] theorem execDrainStart_wf {core cid t : Nat} {s : State} (hs : s.mem.wf = true) :
    NextWf (execDrainStart core cid t s) := by
  simp only [execDrainStart]; (repeat' split) <;> simp [hs]

@[simp] theorem execDrainRow_wf {core : Nat} {s : State} (hs : s.mem.wf = true) : NextWf (execDrainRow core s) := by
  simp only [execDrainRow]
  generalize hl : List.filterMap _ _ = l
  have wl : ∀ t ∈ l, t.mem.wf = true := by
    intro t ht
    rw [← hl, List.mem_filterMap] at ht
    obtain ⟨d, -, hd⟩ := ht
    exact State.rowLeaves_wf (s := s.modCore core _) hs hd
  split
  · exact hs
  · exact wl _ (by simp)
  · rename_i u l _
    rw [NextWf.next, List.getD_eq_getElem?_getD]
    cases h : (u :: l)[Config.freePick s.free % (u :: l).length]? with
    | none => exact wl u (by simp)
    | some t => exact wl t (List.mem_of_getElem? h)

@[simp] theorem execDrainHandlerRun_wf {core : Nat} {s : State} (hs : s.mem.wf = true) :
    NextWf (execDrainHandlerRun core s) := by
  simp only [execDrainHandlerRun]; (repeat' split) <;> simp [hs]

@[simp] theorem execDrainRunLimit_wf {core : Nat} {s : State} (hs : s.mem.wf = true) : NextWf (execDrainRunLimit core s) := by
  simp only [execDrainRunLimit]; (repeat' split) <;> simp [hs]

@[simp] theorem execMsgwaitExpiry_wf {cid : Nat} {s : State} (hs : s.mem.wf = true) : NextWf (execMsgwaitExpiry cid s) := by
  simp only [execMsgwaitExpiry]; (repeat' split) <;> simp [hs]

@[simp] theorem execMessageDelivery_wf {n : Nat} {s : State} (hs : s.mem.wf = true) : NextWf (execMessageDelivery n s) := by
  have ht {a b : Nat} {t : State} (h : s.request a b = some t) : t.mem.wf = true := State.request_mem h ▸ hs
  simp only [execMessageDelivery]
  (repeat' split) <;> simp [hs]
  all_goals exact ht ‹_›

@[simp] theorem execSeekComplete_wf {cid h : Nat} {s : State} (hs : s.mem.wf = true) : NextWf (execSeekComplete cid h s) := by
  simp only [execSeekComplete]; (repeat' split) <;> simp [hs]

@[simp] theorem execHoldLapse_wf {core t : Nat} {s : State} (hs : s.mem.wf = true) : NextWf (execHoldLapse core t s) := by
  simp only [execHoldLapse]; (repeat' split) <;> simp [hs]

@[simp] theorem execHeadStreamWord_wf {core t : Nat} {s : State} (hs : s.mem.wf = true) :
    NextWf (execHeadStreamWord core t s) := by
  simp only [execHeadStreamWord]; (repeat' split) <;> simp [hs]

@[simp] theorem execPortTake_wf {cid h : Nat} {s : State} (hs : s.mem.wf = true) : NextWf (execPortTake cid h s) := by
  simp only [execPortTake]; (repeat' split) <;> simp [hs]

@[simp] theorem execTrackMapWrite_wf {fn core t v : Nat} {s : State} (hs : s.mem.wf = true) :
    NextWf (execTrackMapWrite fn core t v s) := by
  simp only [execTrackMapWrite]; (repeat' split) <;> simp [hs]

@[simp] theorem execReindexDone_wf {core t : Nat} {s : State} (hs : s.mem.wf = true) : NextWf (execReindexDone core t s) := by
  simp only [execReindexDone]; (repeat' split) <;> simp [hs]

@[simp] theorem execSyncExchangeComplete_wf {n : Nat} {s : State} (hs : s.mem.wf = true) :
    NextWf (execSyncExchangeComplete n s) := by
  simp only [execSyncExchangeComplete]; (repeat' split) <;> simp [hs]

@[simp] theorem execSpanReleaseTick_wf {n tick : Nat} {votes : List (Option (VoteOp × Nat))} {s : State}
    (hs : s.mem.wf = true) :
    NextWf (execSpanReleaseTick n tick votes s) := by
  simp only [execSpanReleaseTick]; (repeat' split) <;> simp [hs]

@[simp] theorem execPowerHoldEnd_wf {n : Nat} {s : State} (hs : s.mem.wf = true) : NextWf (execPowerHoldEnd n s) := by
  simp only [execPowerHoldEnd]; (repeat' split) <;> simp [hs]

@[simp] theorem execTail_wf {q v : Nat} {s : State} (hs : s.mem.wf = true) : NextWf (execTail q v s) := by
  simp only [execTail]; (repeat' split) <;> simp [hs]

@[simp] theorem execQueueEnable_wf {q : Nat} {s : State} (hs : s.mem.wf = true) : NextWf (execQueueEnable q s) := by
  simp only [execQueueEnable]; (repeat' split) <;> simp [hs]

@[simp] theorem execQueueDisable_wf {q : Nat} {s : State} (hs : s.mem.wf = true) : NextWf (execQueueDisable q s) := by
  simp only [execQueueDisable]; (repeat' split) <;> simp [hs]

@[simp] theorem execQueueDrained_wf {q : Nat} {s : State} (hs : s.mem.wf = true) : NextWf (execQueueDrained q s) := by
  simp only [execQueueDrained]; (repeat' split) <;> simp [hs]

@[simp] theorem execQueueResume_wf {q : Nat} {s : State} (hs : s.mem.wf = true) : NextWf (execQueueResume q s) := by
  simp only [execQueueResume]; (repeat' split) <;> simp [hs]

@[simp] theorem execQueueResumeSkip_wf {q : Nat} {s : State} (hs : s.mem.wf = true) : NextWf (execQueueResumeSkip q s) := by
  simp only [execQueueResumeSkip]; (repeat' split) <;> simp [hs]

@[simp] theorem execEdgeRelease_wf {n : Nat} {s : State} (hs : s.mem.wf = true) : NextWf (execEdgeRelease n s) := by
  simp only [execEdgeRelease]; (repeat' split) <;> simp [hs]

@[simp] theorem execSpawnEnqueue_wf {k j : Nat} {s : State} (hs : s.mem.wf = true) : NextWf (execSpawnEnqueue k j s) := by
  simp only [execSpawnEnqueue]; (repeat' split) <;> simp [hs]

@[simp] theorem execColumnRelease_wf {n col : Nat} {s : State} (hs : s.mem.wf = true) : NextWf (execColumnRelease n col s) := by
  have hr (i : Inst) (l : List (Nat × Nat)) : (l.foldl (fun s e => s.releaseMember i e.1) s).mem = s.mem :=
    foldl_mem (fun _ _ => by simp) _ _
  simp only [execColumnRelease]; (repeat' split) <;> simp [hs, hr]

@[simp] theorem execDispatchPick_wf {p : Nat} {s : State} (hs : s.mem.wf = true) : NextWf (execDispatchPick p s) := by
  simp [execDispatchPick, hs]

@[simp] theorem execKeyReleaseArrival_wf {n : Nat} {s : State} (hs : s.mem.wf = true) : NextWf (execKeyReleaseArrival n s) := by
  simp only [execKeyReleaseArrival]; split
  · exact hs
  · exact foldl_wf (fun _ _ w => State.pick_wf w) hs

@[simp] theorem execAgeplaceExpiry_wf {p : Nat} {s : State} (hs : s.mem.wf = true) : NextWf (execAgeplaceExpiry p s) := by
  simp only [execAgeplaceExpiry]; (repeat' split) <;> simp [hs]

@[simp] theorem execAgekeyExpiry_wf {p : Nat} {s : State} (hs : s.mem.wf = true) : NextWf (execAgekeyExpiry p s) := by
  have ho (m : Nat) (l : List (Nat × Bool)) (s : State) :
      (l.foldl (fun s e => s.modKeySlot e.1 fun k => { k with owner := some m }) s).mem = s.mem :=
    foldl_mem (fun _ _ => by simp) _ _
  simp only [execAgekeyExpiry]; (repeat' split) <;> simp [hs, ho]

@[simp] theorem execInstanceStart_wf {m : Nat} {s : State} (hs : s.mem.wf = true) : NextWf (execInstanceStart m s) := by
  have hr (i : Inst) (n : Node) (u : Kernel) (f : Nat → Nat) (l : List Nat) :
      (l.foldl (fun s r => s.startRank m i n u r (f r)) s).mem = s.mem := foldl_mem (fun _ _ => by simp) _ _
  simp only [execInstanceStart]; (repeat' split) <;> simp [hs, hr]

@[simp] theorem execTrackdataLoad_wf {m : Nat} {s : State} (hs : s.mem.wf = true) : NextWf (execTrackdataLoad m s) := by
  simp only [execTrackdataLoad]
  (repeat' split) <;> simp only [NextWf.next, State.modInst_mem] <;> try exact hs
  exact foldl_wf (fun s e w => foldl_wf (fun s l w => by split <;> simp [w]) w) hs

@[simp] theorem execBalcmd_wf {fn p v : Nat} {s : State} (hs : s.mem.wf = true) : NextWf (execBalcmd fn p v s) := by
  simp only [execBalcmd]; (repeat' split) <;> simp [hs]

@[simp] theorem execBalancerPeriod_wf {p : Nat} {s : State} (hs : s.mem.wf = true) : NextWf (execBalancerPeriod p s) := by
  simp only [execBalancerPeriod]; split
  · exact hs
  · exact foldl_wf (fun _ _ w => State.migration_wf w) hs

@[simp] theorem execStartTick_wf {k : Nat} {s : State} (hs : s.mem.wf = true) : NextWf (execStartTick k s) := by
  simp only [execStartTick]; (repeat' split) <;> simp [hs]

@[simp] theorem execLaunch_wf {q : Nat} {s : State} (hs : s.mem.wf = true) : NextWf (execLaunch q s) := by
  simp [execLaunch, hs]

@[simp] theorem execCopy_wf {q : Nat} {s : State} (hs : s.mem.wf = true) : NextWf (execCopy q s) := by
  simp [execCopy, hs]

@[simp] theorem execSignal_wf {q : Nat} {s : State} (hs : s.mem.wf = true) : NextWf (execSignal q s) := by
  simp [execSignal, hs]

@[simp] theorem execWaitCommand_wf {q : Nat} {s : State} (hs : s.mem.wf = true) : NextWf (execWaitCommand q s) := by
  simp [execWaitCommand, hs]

@[simp] theorem execFlush_wf {q : Nat} {s : State} (hs : s.mem.wf = true) : NextWf (execFlush q s) := by
  simp [execFlush, hs]

@[simp] theorem execCommandComplete_wf {q c : Nat} {s : State} (hs : s.mem.wf = true) : NextWf (execCommandComplete q c s) := by
  simp only [execCommandComplete]; (repeat' split) <;> simp [hs]

@[simp] theorem execWaitTimeout_wf {q c : Nat} {s : State} (hs : s.mem.wf = true) : NextWf (execWaitTimeout q c s) := by
  simp only [execWaitTimeout]; (repeat' split) <;> simp [hs]

@[simp] theorem execChuteCredit_wf {core : Nat} {up : Bool} {s : State} (hs : s.mem.wf = true) :
    NextWf (execChuteCredit core up s) := by
  simp only [execChuteCredit]; (repeat' split) <;> simp [hs]

@[simp] theorem execBudgetExpiry_wf {cid : Nat} {s : State} (hs : s.mem.wf = true) : NextWf (execBudgetExpiry cid s) := by
  simp only [execBudgetExpiry]; (repeat' split) <;> simp [hs]

@[simp] theorem execDeferredTrap_wf {cid : Nat} {s : State} (hs : s.mem.wf = true) : NextWf (execDeferredTrap cid s) := by
  unfold execDeferredTrap; (repeat' split) <;> simp [hs]
  rename_i h
  simp [State.boundary_mem h, hs]

@[simp] theorem execContextWaitEnd_wf {cid : Nat} {s : State} (hs : s.mem.wf = true) : NextWf (execContextWaitEnd cid s) := by
  simp only [execContextWaitEnd]; (repeat' split) <;> simp [hs]

@[simp] theorem execBarrierWaitTimeout_wf {cid : Nat} {s : State} (hs : s.mem.wf = true) :
    NextWf (execBarrierWaitTimeout cid s) := by
  simp only [execBarrierWaitTimeout]; (repeat' split) <;> simp [hs]

@[simp] theorem execTimedWaitWake_wf {cid : Nat} {s : State} (hs : s.mem.wf = true) : NextWf (execTimedWaitWake cid s) := by
  simp only [execTimedWaitWake]; (repeat' split) <;> simp [hs]

@[simp] theorem execContextPreempt_wf {cid : Nat} {s : State} (hs : s.mem.wf = true) : NextWf (execContextPreempt cid s) := by
  simp only [execContextPreempt]; (repeat' split) <;> simp [hs]

@[simp] theorem execContextResume_wf {cid core slot : Nat} {s : State} (hs : s.mem.wf = true) :
    NextWf (execContextResume cid core slot s) := by
  simp only [execContextResume]; (repeat' split) <;> simp [hs]

@[simp] theorem execCopyLand_wf {core : Nat} {s : State} (hs : s.mem.wf = true) : NextWf (execCopyLand core s) := by
  simp only [execCopyLand]; (repeat' split) <;> simp [hs]
  rename_i h
  exact State.landOp_wf (State.flitsOn_mem h ▸ hs)

@[simp] theorem execGateRequestArrival_wf {n : Nat} {s : State} (hs : s.mem.wf = true) :
    NextWf (execGateRequestArrival n s) := by
  simp only [execGateRequestArrival]; (repeat' split) <;> simp [hs]

@[simp] theorem execClusterOff_wf {cl : Nat} {s : State} (hs : s.mem.wf = true) : NextWf (execClusterOff cl s) := by
  simp only [execClusterOff]; split
  · exact hs
  · rw [NextWf.next, State.modCluster_mem, foldl_mem (fun _ _ => by simp)]
    simp [hs]

@[simp] theorem execClusterWakeReady_wf {cl : Nat} {s : State} (hs : s.mem.wf = true) : NextWf (execClusterWakeReady cl s) := by
  simp only [execClusterWakeReady]; split
  · exact hs
  · rw [NextWf.next, foldl_mem (fun _ _ => by simp), foldl_mem (fun _ _ => by simp)]
    exact hs

@[simp] theorem execSwitchOut_wf {fn p : Nat} {nextv : Bool} {next : Nat} {s : State} (hs : s.mem.wf = true) :
    NextWf (execSwitchOut fn p nextv next s) := by
  simp only [execSwitchOut]; (repeat' split) <;> simp [hs]

@[simp] theorem execPtickReached_wf {p : Nat} {s : State} (hs : s.mem.wf = true) : NextWf (execPtickReached p s) := by
  simp only [execPtickReached]; (repeat' split) <;> simp [hs]

@[simp] theorem execSwitchOutDone_wf {p : Nat} {s : State} (hs : s.mem.wf = true) : NextWf (execSwitchOutDone p s) := by
  simp only [execSwitchOutDone]; (repeat' split) <;> simp [hs]

@[simp] theorem execSwitchIn_wf {fn p : Nat} {s : State} (hs : s.mem.wf = true) : NextWf (execSwitchIn fn p s) := by
  simp only [execSwitchIn]; (repeat' split) <;> simp [hs]

@[simp] theorem execSwitchInDone_wf {p : Nat} {s : State} (hs : s.mem.wf = true) : NextWf (execSwitchInDone p s) := by
  simp only [execSwitchInDone]; (repeat' split) <;> simp [hs]

@[simp] theorem execStop_wf {fn p : Nat} {s : State} (hs : s.mem.wf = true) : NextWf (execStop fn p s) := by
  simp only [execStop]; (repeat' split) <;> simp [hs]

@[simp] theorem execHaltTreeStop_wf {p reason _dcause _core : Nat} {s : State} (hs : s.mem.wf = true) :
    NextWf (execHaltTreeStop p reason _dcause _core s) := by
  simp only [execHaltTreeStop]; (repeat' split) <;> simp [hs]

@[simp] theorem execPartitionResume_wf {fn p : Nat} {s : State} (hs : s.mem.wf = true) :
    NextWf (execPartitionResume fn p s) := by
  simp only [execPartitionResume]; (repeat' split) <;> simp [hs]

@[simp] theorem execPartitionKill_wf {fn p : Nat} {s : State} (hs : s.mem.wf = true) : NextWf (execPartitionKill fn p s) := by
  simp only [execPartitionKill]; split
  · refine foldl_wf (fun _ _ w => State.killInst_wf w) (foldl_wf (fun _ _ w => by simp [w]) ?_)
    rw [State.unswapQueues_mem, State.modPart_mem]
    split <;> simp [hs]
  · exact hs

@[simp] theorem execLinkEnable_wf {fn l : Nat} {s : State} (hs : s.mem.wf = true) : NextWf (execLinkEnable fn l s) := by
  simp only [execLinkEnable]; (repeat' split) <;> simp [hs]

@[simp] theorem execLinkDisable_wf {fn l : Nat} {s : State} (hs : s.mem.wf = true) : NextWf (execLinkDisable fn l s) := by
  simp only [execLinkDisable]; (repeat' split) <;> simp [hs]

@[simp] theorem execRetrain_wf {fn l : Nat} {s : State} (hs : s.mem.wf = true) : NextWf (execRetrain fn l s) := by
  simp only [execRetrain]; (repeat' split) <;> simp [hs]

@[simp] theorem execSignalSeen_wf {l lanes : Nat} {s : State} (hs : s.mem.wf = true) : NextWf (execSignalSeen l lanes s) := by
  simp only [execSignalSeen]; (repeat' split) <;> simp [hs]

@[simp] theorem execEqualisationDone_wf {l lanes : Nat} {s : State} (hs : s.mem.wf = true) :
    NextWf (execEqualisationDone l lanes s) := by
  simp only [execEqualisationDone]; (repeat' split) <;> simp [hs]

@[simp] theorem execNegotiate_wf {l devid isamaj lanes port fec credits : Nat} {s : State} (hs : s.mem.wf = true) :
    NextWf (execNegotiate l devid isamaj lanes port fec credits s) := by
  simp only [execNegotiate]; (repeat' split) <;> simp [hs]

@[simp] theorem execTimeFlitExchange_wf {l t1 t2 t3 t4 : Nat} {s : State} (hs : s.mem.wf = true) :
    NextWf (execTimeFlitExchange l t1 t2 t3 t4 s) := by
  simp only [execTimeFlitExchange]; (repeat' split) <;> simp [hs]

@[simp] theorem execLanesLost_wf {l lanes : Nat} {s : State} (hs : s.mem.wf = true) : NextWf (execLanesLost l lanes s) := by
  simp only [execLanesLost]; (repeat' split) <;> simp [hs]

@[simp] theorem execLinkLost_wf {l code : Nat} {s : State} (hs : s.mem.wf = true) : NextWf (execLinkLost l code s) := by
  simp only [execLinkLost]; (repeat' split) <;> simp [hs]

@[simp] theorem execNak_wf {l ackseq : Nat} {s : State} (hs : s.mem.wf = true) : NextWf (execNak l ackseq s) := by
  simp only [execNak]; (repeat' split) <;> simp [hs]

@[simp] theorem execFlitReceive_wf {l : Nat} {flit : List Nat} {good : Bool} {s : State} (hs : s.mem.wf = true) :
    NextWf (execFlitReceive l flit good s) := by
  simp only [execFlitReceive]; split
  · exact hs
  · split
    · exact hs
    · split
      · exact hs
      · split
        · exact execNak_wf hs
        · split
          · rw [NextWf.next]; split <;> exact hs
          · exact hs

@[simp] theorem execReduceMessage_wf {l addr : Nat} {value : List Nat} {s : State} (hs : s.mem.wf = true) :
    NextWf (execReduceMessage l addr value s) := by
  simp only [execReduceMessage]; (repeat' split) <;> simp [hs]

@[simp] theorem execAck_wf {l n : Nat} {s : State} (hs : s.mem.wf = true) : NextWf (execAck l n s) := by
  simp only [execAck]; (repeat' split) <;> simp [hs]
  rw [foldl_mem fun s e => ?_]
  · exact hs
  · (repeat' split) <;> simp

@[simp] theorem execPowerOn_wf {fails : List Nat} {fwver : Nat} {s : State} (hs : s.mem.wf = true) :
    NextWf (execPowerOn fails fwver s) := by
  simp only [execPowerOn]; (repeat' split) <;> simp [hs]

@[simp] theorem execPcieTrainRetry_wf {ok : Bool} {lanes : Nat} {s : State} (hs : s.mem.wf = true) :
    NextWf (execPcieTrainRetry ok lanes s) := by
  simp only [execPcieTrainRetry]; (repeat' split) <;> simp [hs]

@[simp] theorem execRecover_wf {v : Nat} {s : State} (hs : s.mem.wf = true) : NextWf (execRecover v s) := by
  simp only [execRecover]; split
  · exact hs
  · split
    · exact hs
    · exact execPowerOn_wf hs

@[simp] theorem execUncorrectableError_wf {storage core cid addr : Nat} {s : State} (hs : s.mem.wf = true) :
    NextWf (execUncorrectableError storage core cid addr s) := by
  simp only [execUncorrectableError]; (repeat' split) <;> simp [hs]

@[simp] theorem execGetVersion_wf  {s : State} (hs : s.mem.wf = true) : NextWf (execGetVersion s) := by
  simp only [execGetVersion]; (repeat' split) <;> simp [hs]

@[simp] theorem execGetCapabilities_wf  {s : State} (hs : s.mem.wf = true) : NextWf (execGetCapabilities s) := by
  simp only [execGetCapabilities]; (repeat' split) <;> simp [hs]

@[simp] theorem execNegotiateAlgorithms_wf  {s : State} (hs : s.mem.wf = true) : NextWf (execNegotiateAlgorithms s) := by
  simp only [execNegotiateAlgorithms]; (repeat' split) <;> simp [hs]

@[simp] theorem execGetDigests_wf  {s : State} (hs : s.mem.wf = true) : NextWf (execGetDigests s) := by
  simp only [execGetDigests]; (repeat' split) <;> simp [hs]

@[simp] theorem execGetCertificate_wf {slot offset len : Nat} {s : State} (hs : s.mem.wf = true) :
    NextWf (execGetCertificate slot offset len s) := by
  simp only [execGetCertificate]; (repeat' split) <;> simp [hs]

@[simp] theorem execChallenge_wf {slot : Nat} {nonce : List Nat} {s : State} (hs : s.mem.wf = true) :
    NextWf (execChallenge slot nonce s) := by
  simp only [execChallenge]; (repeat' split) <;> simp [hs]

@[simp] theorem execGetMeasurements_wf {index : Nat} {nonce : List Nat} {s : State} (hs : s.mem.wf = true) :
    NextWf (execGetMeasurements index nonce s) := by
  simp only [execGetMeasurements]; (repeat' split) <;> simp [hs]

@[simp] theorem execSpdmUnsupportedRequest_wf {code : Nat} {s : State} (hs : s.mem.wf = true) :
    NextWf (execSpdmUnsupportedRequest code s) := by
  simp only [execSpdmUnsupportedRequest]; (repeat' split) <;> simp [hs]

@[simp] theorem execClusterMapWrite_wf {fn cl v : Nat} {s : State} (hs : s.mem.wf = true) :
    NextWf (execClusterMapWrite fn cl v s) := by
  simp only [execClusterMapWrite]; split
  · exact hs
  · split
    · exact hs
    · rw [NextWf.next, foldl_mem (fun _ _ => by simp)]
      exact State.loseCluster_wf hs

theorem nextOr_wf {s : State} {o : Host.Outcome State Fault Refusal} (w : s.mem.wf = true) (h : NextWf o) :
    (nextOr s o).mem.wf = true := by
  cases o with
  | next t => exact h
  | fault => exact w
  | refused => exact w

theorem Wr.reg_wf {x : Wr} {off rs cur : Nat} {ok : Nat → Bool} {f : Nat → State → State} {s : State} (w : s.mem.wf = true)
    (hf : ∀ x (s : State), s.mem.wf = true → (f x s).mem.wf = true) : (x.reg off rs cur ok f s).mem.wf = true := by
  simp only [Wr.reg]; (repeat' split)
  · exact hf _ _ w
  · exact w
  · exact w

@[simp] theorem State.queueControl_wf {s : State} {q op : Nat} (w : s.mem.wf = true) : (s.queueControl q op).mem.wf = true := by
  unfold State.queueControl; split
  · exact nextOr_wf w (execQueueEnable_wf w)
  · exact nextOr_wf w (execQueueDisable_wf w)
  · exact nextOr_wf w (execQueueResume_wf w)
  · exact nextOr_wf w (execQueueResumeSkip_wf w)
  · exact w

@[simp] theorem State.writeQueue_wf {s : State} {fn q : Nat} {x : Wr} (w : s.mem.wf = true) :
    (s.writeQueue fn q x).mem.wf = true := by
  simp only [State.writeQueue]; split
  · exact w
  · refine Wr.reg_wf (Wr.reg_wf (Wr.reg_wf (Wr.reg_wf w ?_) ?_) ?_) ?_ <;> intro _ s w
    · exact w
    · exact w
    · exact nextOr_wf w (execTail_wf w)
    · exact State.queueControl_wf w

@[simp] theorem State.writeBalancer_wf {s : State} {fn p : Nat} {x : Wr} (w : s.mem.wf = true) :
    (s.writeBalancer fn p x).mem.wf = true := by
  simp only [State.writeBalancer]; split
  · exact w
  · exact Wr.reg_wf (Wr.reg_wf (Wr.reg_wf w fun _ _ w => nextOr_wf w (execBalcmd_wf w)) fun _ _ w => w) fun _ _ w => w

@[simp] theorem State.writeKeys_wf {s : State} {fn p : Nat} {x : Wr} (w : s.mem.wf = true) :
    (s.writeKeys fn p x).mem.wf = true := by
  unfold State.writeKeys; split
  · exact w
  · exact Wr.reg_wf w fun _ _ w => w

@[simp] theorem State.writeSync_wf {s : State} {fn p : Nat} {x : Wr} (w : s.mem.wf = true) :
    (s.writeSync fn p x).mem.wf = true := by
  simp only [State.writeSync]; split
  · exact w
  · exact Wr.reg_wf (Wr.reg_wf (Wr.reg_wf (Wr.reg_wf (Wr.reg_wf (Wr.reg_wf w fun _ _ w => w) fun _ _ w => w) fun _ _ w => w)
      fun _ _ w => w) fun _ _ w => w) fun _ _ w => w

@[simp] theorem State.writePage_wf {s : State} {fn p : Nat} {x : Wr} (w : s.mem.wf = true) :
    (s.writePage fn p x).mem.wf = true := by
  unfold State.writePage; split
  · exact w
  · exact Wr.reg_wf w fun _ _ w => w

@[simp] theorem State.partCommand_wf {s : State} {fn p v : Nat} (w : s.mem.wf = true) :
    (s.partCommand fn p v).mem.wf = true := by
  unfold State.partCommand; split
  · exact nextOr_wf w (execSwitchOut_wf w)
  · exact nextOr_wf w (execSwitchIn_wf w)
  · exact nextOr_wf w (execStop_wf w)
  · exact nextOr_wf w (execPartitionResume_wf w)
  · exact nextOr_wf w (execPartitionKill_wf w)
  · exact w

@[simp] theorem State.writeControl_wf {s : State} {fn p : Nat} {x : Wr} (w : s.mem.wf = true) :
    (s.writeControl fn p x).mem.wf = true := by
  simp only [State.writeControl]; split
  · exact w
  · exact Wr.reg_wf (Wr.reg_wf (Wr.reg_wf (Wr.reg_wf (Wr.reg_wf (Wr.reg_wf (Wr.reg_wf w fun _ _ w => State.partCommand_wf w)
      fun _ _ w => w) fun _ _ w => w) fun _ _ w => w) fun _ _ w => w) fun _ _ w => w) fun _ _ w => w

@[simp] theorem State.writeTracks_wf {s : State} {fn : Nat} {x : Wr} (w : s.mem.wf = true) :
    (s.writeTracks fn x).mem.wf = true := by
  unfold State.writeTracks
  exact foldl_wf (fun _ _ w => Wr.reg_wf w fun _ _ w => nextOr_wf w (execTrackMapWrite_wf w)) w

@[simp] theorem State.writePower_wf {s : State} {fn : Nat} {x : Wr} (w : s.mem.wf = true) :
    (s.writePower fn x).mem.wf = true := by
  simp only [State.writePower]; split
  · exact w
  · exact Wr.reg_wf (Wr.reg_wf w fun _ _ w => w) fun _ _ w => w

@[simp] theorem State.linkControl_wf {s : State} {fn l v : Nat} (w : s.mem.wf = true) :
    (s.linkControl fn l v).mem.wf = true := by
  unfold State.linkControl; split
  · exact nextOr_wf w (execLinkEnable_wf w)
  · exact nextOr_wf w (execLinkDisable_wf w)
  · exact nextOr_wf w (execRetrain_wf w)
  · exact w

theorem ite_wf {c : Prop} [Decidable c] {s t : State} (hs : s.mem.wf = true) (ht : t.mem.wf = true) :
    (if c then s else t).mem.wf = true := by
  split
  · exact hs
  · exact ht

@[simp] theorem State.writeBar0_wf {s : State} {fn a n v : Nat} (w : s.mem.wf = true) :
    (s.writeBar0 fn a n v).mem.wf = true := by
  unfold State.writeBar0
  refine ite_wf (Wr.reg_wf w fun _ _ w => w) <| ite_wf (State.writeQueue_wf w) <| ite_wf (State.writeBalancer_wf w) <|
    ite_wf (State.writeKeys_wf w) <| ite_wf (State.writeSync_wf w) <| ite_wf (foldl_wf (fun _ _ w => by simp [w]) w) <|
    ite_wf (State.writePage_wf w) <| ite_wf (State.writeControl_wf w) <| ite_wf (State.writePower_wf w) <|
    ite_wf (State.writeTracks_wf w) <| ite_wf (foldl_wf (fun _ _ w => by simp [w]) w) <|
    ite_wf (Wr.reg_wf w fun _ _ w => State.linkControl_wf w) <| ite_wf ?_ w
  exact foldl_wf (fun _ _ w => nextOr_wf w (execClusterMapWrite_wf w)) w

@[simp] theorem execBar0RegisterWrite_wf {fn addr size v : Nat} {s : State} (hs : s.mem.wf = true) :
    NextWf (execBar0RegisterWrite fn addr size v s) := by
  unfold execBar0RegisterWrite; split
  · exact hs
  · split
    · split
      · exact execRecover_wf hs
      · exact hs
    · split
      · exact hs
      · exact State.writeBar0_wf hs

@[simp] theorem execHostBar2Access_wf {fn addr : Nat} {write : Bool} {bytes : List Nat} {len : Nat} {s : State}
    (hs : s.mem.wf = true) :
    NextWf (execHostBar2Access fn addr write bytes len s) := by
  have wb {p va n : Nat} {k : Acc} : (s.bringRange p va n k).mem.wf = true := State.bringRange_wf hs
  simp only [execHostBar2Access]; (repeat' split) <;> try simp only [NextWf.next, State.stage_mem, State.hostWrote_mem, hs, wb]
  exact foldl_wf (fun _ _ w => State.hostByte_wf w) wb

@[simp] theorem execTlbWalkComplete_wf {part vp : Nat} {s : State} (hs : s.mem.wf = true) :
    NextWf (execTlbWalkComplete part vp s) := by
  simp only [execTlbWalkComplete]; (repeat' split) <;> try exact hs
  rw [NextWf.next, foldl_mem (fun _ _ => by simp)]
  exact hs

@[simp] theorem execDeadLetterPost_wf {n : Nat} {s : State} (hs : s.mem.wf = true) : NextWf (execDeadLetterPost n s) := by
  simp only [execDeadLetterPost]; split
  · exact hs
  · rename_i b _
    split
    · exact hs
    · have post {u : State} {r : Except (Bool × State) State} (w : u.mem.wf = true) (h : u.post n b = r) : LeavesWf r :=
        h ▸ State.post_wf w
      split <;> rename_i h
      · simpa [LeavesWf] using post (by (repeat' split) <;> simp [hs]) h
      · simpa [LeavesWf] using post (by (repeat' split) <;> simp [hs]) h

@[simp] theorem execAccessComplete_wf {cid : Nat} {store : Bool} {s : State} (hs : s.mem.wf = true) :
    NextWf (execAccessComplete cid store s) := by
  simp only [execAccessComplete]; (repeat' split) <;> simp [hs]

@[simp] theorem execAtomicAtHome_wf {cid : Nat} {s : State} (hs : s.mem.wf = true) : NextWf (execAtomicAtHome cid s) := by
  unfold execAtomicAtHome; (repeat' split) <;> simp [hs]
  rename_i h
  exact State.atomHome_wf (State.request_mem h ▸ hs)

end Sys2Proof.Machine
end

section
/-! PROOF (O58). Every step keeps the form of the memory: stores that land late, what the scheduler may choose, and the acts of
the agenda. -/
namespace Sys2Proof.Machine

theorem exec_wf (i : Instr) {s : State} (hs : s.mem.wf = true) : NextWf (exec i s) := by
  cases i <;> simp [exec, hs]

/-! ## Stores that land late, and the acts of one step -/

@[simp] theorem State.sameCycle_wf {s : State} {cids : List Nat} (w : s.mem.wf = true) : (s.sameCycle cids).mem.wf = true := by
  simp only [State.sameCycle]
  refine foldl_wf (fun s c w => ?_) w
  have h := execAtomicAtHome_wf (cid := c.cid) w
  split <;> rename_i he
  · rwa [he] at h
  · exact w

theorem State.relive_wf {w u : State} {i : Instr} {c : Ctx} (hw : w.mem.wf = true) (h : w.relive i c = .ok u) :
    u.mem.wf = true := by
  have he := exec_wf i (s := { w with cx := { c with l1 := w.cx.l1 } }) hw
  unfold State.relive at h
  split at h <;> rename_i hx
  · rw [hx] at he
    (repeat' split at h) <;> cases h
    exact he
  · cases h

theorem State.reliveLeft_wf {w u : State} {e : Late} (hw : w.mem.wf = true) (h : w.reliveLeft e = .ok u) : u.mem.wf = true := by
  unfold State.reliveLeft at h
  split at h <;> exact State.relive_wf hw h

@[simp] theorem State.landOldest_wf {w : State} (hw : w.mem.wf = true) : w.landOldest.mem.wf = true := by
  unfold State.landOldest; split
  · exact hw
  · dsimp only; split <;> rename_i h
    · exact hw
    · exact hw
    · have hu := State.reliveLeft_wf hw h; exact hu

@[simp] theorem State.landAll_wf : ∀ {n : Nat} {w : State}, w.mem.wf = true → (w.landAll n).mem.wf = true
  | 0, _, hw => hw
  | _ + 1, _, hw => by
    unfold State.landAll; split
    · exact hw
    · exact State.landAll_wf (State.landOldest_wf hw)

@[simp] theorem State.allLanded_wf {w : State} (hw : w.mem.wf = true) : w.allLanded.mem.wf = true := State.landAll_wf hw

@[simp] theorem State.landPiece_wf {w : State} {n : Nat} (hw : w.mem.wf = true) : (w.landPiece n).mem.wf = true := by
  simp only [State.landPiece]; split
  · exact hw
  · split
    · exact hw
    · refine ite_wf hw ?_
      split <;> rename_i h
      · exact hw
      · have hu := State.relive_wf hw h
        exact ite_wf hw hu

@[simp] theorem State.landing_wf {s : State} {cid : Nat} {f : State → State} (w : s.mem.wf = true)
    (hf : ∀ s : State, s.mem.wf = true → (f s).mem.wf = true) : (s.landing cid f).mem.wf = true := by
  unfold State.landing; split
  · exact hf _ (by simpa using w)
  · exact w

@[simp] theorem State.sourced_wf {s : State} {core : Nat} (w : s.mem.wf = true) : (s.sourced core).mem.wf = true := by
  unfold State.sourced; dsimp only; (repeat' split) <;> try exact w
  exact State.allLanded_wf (by simpa using w)

@[simp] theorem State.reload_wf {s : State} {cid m : Nat} (w : s.mem.wf = true) : (s.reload cid m).mem.wf = true := by
  unfold State.reload; dsimp only; (repeat' split) <;> try exact w
  rename_i h _
  have hu := State.relive_wf (by simpa using w) h
  exact hu

@[simp] theorem State.deferStore_mem (v u : State) (i : Instr) : (v.deferStore u i).mem = v.mem := rfl

theorem ageKept_wf {v : State} {last : Nat} {o : Host.Outcome State Fault Refusal} (h : NextWf o) :
    NextWf (ageKept v last o) := by
  unfold ageKept; split
  · split <;> exact h
  · exact h

/-- The state found at an instruction boundary. -/
def Ready.Wf : Ready → Prop
  | .done t | .instr _ _ t => t.mem.wf = true

theorem State.readyMicro_wf {s : State} {m : Micro} (w : s.mem.wf = true) : (s.readyMicro m).Wf := by
  unfold State.readyMicro; split <;> simp [Ready.Wf, w]

theorem State.readyFetch_wf {s : State} (w : s.mem.wf = true) : s.readyFetch.Wf := by
  have hf := fetchFrom_keeps s.cx 5 s.cx.pc.toNat [] [] w
  have hr {m : M Unit} {t u : State} (wt : t.mem.wf = true) (hm : KeepsMem m) (h : run m t = .next u) : u.mem.wf = true := by
    have := NextWf.run wt hm
    rwa [h] at this
  unfold State.readyFetch; split
  · exact w
  · split
    · exact w
    · split <;> rename_i h <;> rw [h] at hf
      · exact hf
      · simpa [Ready.Wf] using hf
      · split <;> rename_i h
        · exact hr hf (fetchFault_keeps ..) h
        · exact hf
      · split <;> rename_i h
        · exact hr w (fun _ _ => hf) h
        · exact w

theorem State.ready_wf {s : State} {cid : Nat} (w : s.mem.wf = true) : (s.ready cid).Wf := by
  have hc {c : Ctx} : ((s.checkout cid).charged c.id.core).mem.wf = true := by simp [w]
  unfold State.ready; split
  · exact w
  · dsimp only; split
    · exact hc
    · split <;> rename_i h
      · have wt := (congrArg Memory.wf (State.boundary_mem h)).trans hc; exact wt
      · split
        · exact State.readyMicro_wf hc
        · exact State.readyFetch_wf hc

theorem issueStep_wf {cid : Nat} {s : State} (w : s.mem.wf = true) : NextWf (issueStep cid s) := by
  have hr := State.ready_wf (cid := cid) w
  unfold issueStep; split <;> rename_i h <;> rw [h] at hr
  · exact hr
  · rename_i i len t
    have wv : (if unordered i then t.latched len else (t.latched len).allLanded).mem.wf = true :=
      ite_wf hr (State.allLanded_wf hr)
    dsimp only
    generalize (if unordered i then t.latched len else (t.latched len).allLanded) = v at wv ⊢
    split
    · exact wv
    · exact ageKept_wf (exec_wf i wv)

theorem issueLate_wf {cid : Nat} {s : State} (w : s.mem.wf = true) : NextWf (issueLate cid s) := by
  have hr := State.ready_wf (cid := cid) w
  unfold issueLate; split <;> rename_i h <;> rw [h] at hr
  · exact hr
  · rename_i i len t
    have wv : (if unordered i || isStore i then t.latched len else (t.latched len).allLanded).mem.wf = true :=
      ite_wf hr (State.allLanded_wf hr)
    dsimp only
    generalize (if unordered i || isStore i then t.latched len else (t.latched len).allLanded) = v at wv ⊢
    split
    · exact wv
    · have he := ageKept_wf (v := v) (last := t.cx.st.last) (exec_wf i wv)
      split <;> rename_i hx
      · rw [hx] at he
        split
        · exact ite_wf wv he
        · split <;> exact he
      · exact he

theorem act_wf (a : Agent) {s : State} (w : s.mem.wf = true) : NextWf (act a s) := by
  cases a with
  | issue cid => exact issueStep_wf w
  | issueLate cid => exact issueLate_wf w
  | event i =>
    simp only [act]; split
    · exact w
    · split
      · exact exec_wf _ (State.sourced_wf w)
      · exact exec_wf _ w
  | land cid => exact State.landing_wf w fun _ w => State.landOldest_wf w
  | landPiece cid n => exact State.landing_wf w fun _ w => State.landPiece_wf w
  | _ => simp [act, w]

/-- A move of the part that keeps the memory's form. -/
def MoveWf (m : Move) : Prop := ∀ s : State, s.mem.wf = true → NextWf (m s)

theorem partMoves_wf (p : Nat) : ∀ m ∈ partMoves p, MoveWf m := by
  simp only [partMoves, List.forall_mem_cons]
  simp +contextual [MoveWf]

theorem instMoves_wf (n : Nat) : ∀ m ∈ instMoves n, MoveWf m := by
  simp only [instMoves, List.forall_mem_cons, List.forall_mem_append, List.forall_mem_map]
  simp +contextual [MoveWf]

theorem kernelMoves_wf (k : Nat) (u : Kernel) : ∀ m ∈ kernelMoves k u, MoveWf m := by
  simp only [kernelMoves, List.forall_mem_cons, List.forall_mem_map]
  simp +contextual [MoveWf]

theorem ctxMoves_wf (c : Ctx) : ∀ m ∈ ctxMoves c, MoveWf m := by
  simp only [ctxMoves, List.forall_mem_cons, List.forall_mem_append, List.forall_mem_flatMap]
  simp +contextual [MoveWf]

theorem coreMoves_wf (n : Nat) (k : Core) : ∀ m ∈ coreMoves n k, MoveWf m := by
  simp only [coreMoves, List.forall_mem_cons, List.forall_mem_append, List.forall_mem_flatMap]
  simp +contextual [MoveWf]

theorem clusterMoves_wf (n : Nat) (c : Cluster) : ∀ m ∈ clusterMoves n c, MoveWf m := by
  simp only [clusterMoves, List.forall_mem_cons, List.forall_mem_append, List.forall_mem_map]
  simp +contextual [MoveWf]

theorem queueMoves_wf (n : Nat) (q : Queue) : ∀ m ∈ queueMoves n q, MoveWf m := by
  simp only [queueMoves, List.forall_mem_cons, List.forall_mem_append, List.forall_mem_flatMap]
  simp +contextual [MoveWf]

theorem passMove_wf : MoveWf passMove := by
  simp +contextual [passMove, MoveWf]

theorem State.moves_wf (s : State) : ∀ m ∈ s.moves, MoveWf m := by
  have bridge (n : Nat) (t : State) : (if isBridge n then t.modLink n Link.passedOn else t).mem = t.mem := by split <;> simp
  simp only [State.moves, List.forall_mem_cons, List.forall_mem_append, List.forall_mem_map, List.forall_mem_flatMap]
  simp only [and_assoc]
  refine ⟨passMove_wf, fun _ _ => partMoves_wf _, fun _ _ => instMoves_wf _, fun _ _ => kernelMoves_wf _ _, fun _ _ => ctxMoves_wf _,
    fun _ _ => coreMoves_wf _ _, fun _ _ => clusterMoves_wf _ _, fun _ _ => queueMoves_wf _ _, ?_, ?_, ?_, ?_, ?_, ?_, ?_, ?_⟩ <;>
    simp +contextual [MoveWf, bridge]

theorem State.lateMoves_wf (s : State) : ∀ m ∈ s.lateMoves, MoveWf m := by
  simp only [State.lateMoves, List.forall_mem_cons, List.forall_mem_append, List.forall_mem_map, List.forall_mem_flatMap]
  simp +contextual [MoveWf]

theorem getD_mem_or {α : Type} (l : List α) (n : Nat) (d : α) : l.getD n d ∈ l ∨ l.getD n d = d := by
  rw [List.getD_eq_getElem?_getD]
  cases h : l[n]? with
  | none => exact .inr rfl
  | some a => exact .inl (List.mem_of_getElem? h)

theorem freeStep_wf {s : State} (w : s.mem.wf = true) : NextWf (freeStep s) := by
  unfold freeStep; dsimp only
  split
  · exact issueStep_wf w
  · split
    · exact issueLate_wf w
    · generalize hl : List.map _ _ ++ _ = l
      have wl : ∀ m ∈ l, MoveWf m := by
        rw [← hl, List.forall_mem_append, List.forall_mem_map]
        exact ⟨fun m hm u wu => s.moves_wf m hm _ (foldl_wf (fun _ _ w => State.sourced_wf w) wu), s.lateMoves_wf⟩
      obtain h | h := getD_mem_or l (Config.freePick s.free / 4 % l.length) passMove
      · exact wl _ h _ w
      · rw [h]; exact passMove_wf _ w

theorem settled_wf {o : Host.Outcome State Fault Refusal} (h : NextWf o) : NextWf (settled o) := by
  cases o with
  | next t => simpa [settled] using h
  | _ => trivial

theorem step_wf {s : State} (w : s.mem.wf = true) : NextWf (step s) := by
  unfold step; split
  · trivial
  · split
    · exact settled_wf (freeStep_wf w)
    · exact settled_wf (act_wf _ w)

/-- Settles O58: every operation of an instruction and every act keeps the form, so every step does. -/
theorem stepKeepsMemory : Obligations.StepKeepsMemory := by
  intro s t w h
  have hs := step_wf w
  rwa [h] at hs

end Sys2Proof.Machine
end

section
/-! PROOF (O48). The events of contexts: what stands at a context's number after the context changes, the traps that a boundary
brings, and a context that leaves its slot or takes one again. -/
namespace Sys2Proof.Machine
variable {s t : State} {cid : Nat} {c : Ctx}

/-! ## The context with a number -/

theorem State.ctx?_congr (hx : t.cx = s.cx) (ho : t.others = s.others) : t.ctx? cid = s.ctx? cid := by
  simp only [State.ctx?, hx, ho]

/-- A change that keeps a context live under its number is what its number leads to afterwards. -/
theorem State.ctx?_modCtx_self {f : Ctx → Ctx} (h : s.ctx? cid = some c) (hl : (f c).st.live = c.st.live)
    (hc : (f c).cid = cid) : (s.modCtx cid f).ctx? cid = some (f c) := by
  simp only [State.modCtx, h, State.setCtx]
  by_cases hin : (s.cx.st.live && s.cx.cid = cid) = true
  · have hcx : s.cx = c := by simpa [State.ctx?, hin] using h
    have hlive : s.cx.st.live = true := by simpa using (Bool.and_eq_true_iff.mp hin).1
    rw [if_pos hin]
    subst hcx
    have hlive' : (f s.cx).st.live = true := hl.trans hlive
    simp [State.ctx?, hc, hlive']
  · rw [if_neg hin]
    simp [State.ctx?, hin, Tab.get?_set_self]

/-- The context that was asked for is the one in hand. -/
theorem State.checkout_cx (h : s.ctx? cid = some c) : (s.checkout cid).cx = c := by
  simp only [State.ctx?] at h
  simp only [State.checkout]
  split at h
  · next hin => rw [if_pos hin]; exact Option.some.inj h
  · next hin => rw [if_neg hin, h]

@[simp] theorem State.setCtx_insts : (s.setCtx cid c).insts = s.insts := by
  simp only [State.setCtx]; split <;> rfl
@[simp] theorem State.setCtx_kernels : (s.setCtx cid c).kernels = s.kernels := by
  simp only [State.setCtx]; split <;> rfl
@[simp] theorem State.modCtx_insts {f : Ctx → Ctx} : (s.modCtx cid f).insts = s.insts := by
  simp only [State.modCtx]; split
  · exact State.setCtx_insts
  · rfl
@[simp] theorem State.modCtx_kernels {f : Ctx → Ctx} : (s.modCtx cid f).kernels = s.kernels := by
  simp only [State.modCtx]; split
  · exact State.setCtx_kernels
  · rfl

theorem State.insts_modInst_self {m : Nat} {i : Inst} {f : Inst → Inst} (h : s.insts.get? m = some i) :
    (s.modInst m f).insts.get? m = some (f i) := by simp [State.modInst, Tab.get?_modify, h]

/-! ## Partitions that issue -/

theorem State.issues_of_running {p : Nat} (h : (s.part p).pstate = 0) : s.issues p = true := by
  simp [State.issues, h]

theorem State.running?_of_slot (h : s.ctx? cid = some c) (hout : c.st.out = false) (hp : (s.part c.id.part).pstate = 0) :
    s.running? cid = some c := by
  simp [State.running?, h, Option.filter, hout, State.issues_of_running hp]

/-! ## Traps at a boundary (R63, R195, R321) -/

/-- A trap at user level, outside the drain slot, enters the handler. -/
theorem takeTrapAt_user {code : Nat} {info at_ : Word} (hd : s.cx.drain = none) (hu : s.cx.sup = false) :
    takeTrapAt s code info at_ = s.inHandler code info at_ := by
  simp only [takeTrapAt, hd, hu]
  rfl

theorem execBudgetExpiry_user (h : s.ctx? cid = some c) (hp : (s.part c.id.part).pstate = 0) (hout : c.st.out = false)
    (hd : c.drain = none) (hu : c.sup = false) (hdef : c.st.defer = []) (hb : c.c.budget = 0) :
    execBudgetExpiry cid s = .next ((s.checkout cid).inHandler cBUDGET 0 c.pc) := by
  have hcx := State.checkout_cx h
  simp only [execBudgetExpiry, State.running?_of_slot h hout hp]
  rw [if_pos (by simp [hd, hu, hdef, hb]), takeTrap,
    takeTrapAt_user (by rw [hcx, hd]) (by rw [hcx, hu]), hcx]

/-- At user level the boundary takes the oldest deferred trap. -/
theorem State.boundary_deferred {f : Defer} {l : List Defer} (hd : s.cx.drain = none) (hu : s.cx.sup = false)
    (hdef : s.cx.st.defer = f :: l) :
    s.boundary = some ((s.onCx fun c => { c with st := { c.st with defer := l } }).inHandler f.code f.info
      (f.at_.getD s.cx.pc)) := by
  rw [← takeTrapAt_user (s := s.onCx fun c => { c with st := { c.st with defer := l } }) hd hu]
  simp [State.boundary, hd, hu, hdef, State.onCx]

theorem execDeferredTrap_user {f : Defer} {l : List Defer} (h : s.ctx? cid = some c)
    (hp : (s.part c.id.part).pstate = 0) (hout : c.st.out = false) (hd : c.drain = none) (hu : c.sup = false)
    (hdef : c.st.defer = f :: l) :
    execDeferredTrap cid s =
      .next (((s.checkout cid).onCx fun c => { c with st := { c.st with defer := l } }).inHandler f.code f.info
        (f.at_.getD c.pc)) := by
  have hcx := State.checkout_cx h
  have hb := State.boundary_deferred (s := s.checkout cid) (f := f) (l := l) (by rw [hcx, hd]) (by rw [hcx, hu])
    (by rw [hcx, hdef])
  simp only [execDeferredTrap, State.running?_of_slot h hout hp, hdef, List.isEmpty_cons, Bool.false_eq_true, if_false, hb, hcx]

/-! ## Leaving a slot and taking one again (R328, R329) -/

theorem State.ctx?_stow (h : s.ctx? cid = some c) (hc : c.cid = cid) :
    ∃ inbox queue, (s.stow cid).ctx? cid = some { c with st := { c.st with inbox := inbox, queue := queue } } := by
  simp only [State.stow, h]
  exact ⟨_, _, State.ctx?_modCtx_self ((State.ctx?_congr rfl rfl).trans h) rfl hc⟩

@[simp] theorem State.stow_insts : (s.stow cid).insts = s.insts := by
  simp only [State.stow]; split
  · rfl
  · simp only [State.modCtx_insts, State.modPart_insts]
@[simp] theorem State.stow_kernels : (s.stow cid).kernels = s.kernels := by
  simp only [State.stow]; split
  · rfl
  · simp only [State.modCtx_kernels, State.modPart_kernels]

/-- A context that leaves its slot is saved as it stood, but for its wait, its prepared targets and its messages. -/
theorem State.ctx?_leaveSlot (h : s.ctx? cid = some c) (hc : c.cid = cid) :
    ∃ inbox queue, (s.leaveSlot cid).ctx? cid =
      some (Ctx.left { c with st := { c.st with inbox := inbox, queue := queue } }) := by
  have hl : (s.leavePorts c.id.core cid).ctx? cid = some c := (State.ctx?_congr rfl rfl).trans h
  obtain ⟨inbox, queue, hst⟩ := State.ctx?_stow hl hc
  simp only [State.leaveSlot, h]
  exact ⟨inbox, queue, State.ctx?_modCtx_self ((State.ctx?_congr rfl rfl).trans hst) rfl hc⟩

@[simp] theorem State.leaveSlot_insts : (s.leaveSlot cid).insts = s.insts := by
  simp only [State.leaveSlot]; split
  · rfl
  · simp only [State.modCtx_insts, State.keepAge, State.modCore_insts, State.stow_insts, State.leavePorts]
@[simp] theorem State.leaveSlot_kernels : (s.leaveSlot cid).kernels = s.kernels := by
  simp only [State.leaveSlot]; split
  · rfl
  · simp only [State.modCtx_kernels, State.keepAge, State.modCore_kernels, State.stow_kernels, State.leavePorts]

/-- Unless its kernel is in FAULTING, `readyAgain` makes it READY with the deadline given. -/
theorem State.readyAgain_goesOn {m : Nat} {i : Inst} {due : Word} (h : s.insts.get? m = some i) (hg : s.goesOnOf i = true) :
    s.readyAgain m due = s.modInst m fun i => { i with st := 1, deadline := due } := by
  have hk : ((s.kernels.get? i.kernel).any fun u => u.st = 3) = false := by
    revert hg
    cases hu : s.kernels.get? i.kernel <;> simp [State.goesOnOf, hu]
  simp [State.readyAgain, h, hk]

theorem execContextPreempt_victim {m : Nat} {i q : Inst} {z : Ctx} {rest : List (Nat × Inst)} (h : s.ctx? cid = some c)
    (hc : c.cid = cid) (hp : (s.part c.id.part).pstate = 0) (hi : s.insts.get? c.id.inst = some i)
    (hout : c.st.out = false) (hg : s.goesOnOf i = true) (hpool : s.pool c.id.part = (m, q) :: rest)
    (hkeys : s.keysOk m q = true) (hplace : s.placement q c.id.part none (s.coresOf c.id.part) = none)
    (hv : latest (s.victims c.id.part q) = some z) (hz : z.cid = cid) (hdr : s.drainedCtx c = true) :
    ∃ t c', execContextPreempt cid s = .next t ∧ t.ctx? cid = some c' ∧ c'.st.out = true ∧
      c'.r = { c.r with prep := [] } ∧ c'.pc = c.pc ∧ c'.c = c.c ∧
      (t.insts.get? c.id.inst).map (fun e => (e.st, e.deadline)) = some (1, c.c.deadline) := by
  have hexec : execContextPreempt cid s = .next ((s.leaveSlot cid).readyAgain c.id.inst c.c.deadline) := by
    simp only [execContextPreempt, State.running?_of_slot h hout hp, hpool]
    rw [if_pos]
    simp [State.issues_of_running hp, hkeys, hplace, hv, hz, hdr]
  have hi' : (s.leaveSlot cid).insts.get? c.id.inst = some i := by rw [State.leaveSlot_insts, hi]
  have hg' : (s.leaveSlot cid).goesOnOf i = true := by rw [State.goesOnOf, State.leaveSlot_kernels]; exact hg
  obtain ⟨inbox, queue, hleft⟩ := State.ctx?_leaveSlot h hc
  rw [State.readyAgain_goesOn hi' hg'] at hexec
  refine ⟨_, _, hexec, (State.ctx?_congr rfl rfl).trans hleft, rfl, rfl, rfl, rfl, ?_⟩
  rw [State.insts_modInst_self hi']
  rfl

theorem State.slotsFree_lt {core slot : Nat} (h : slot ∈ s.slotsFree core) : slot < 4 :=
  List.mem_range.mp (List.mem_filter.mp h).1

/-- The number of a context outside the drain slot does not depend on its slot. -/
theorem Ctx.cid_of_slot (h : c.id.slot ≠ 4) : c.cid = c.id.cid := if_neg h

/-- A context that has taken a slot again, with the deadline that its next slice has. -/
def State.resumedBy (s : State) (cid slot : Nat) (due : Word) : State :=
  (s.resume cid slot).modCtx cid fun c => { c with c := { c.c with deadline := due } }

@[simp] theorem State.resumedBy_insts {slot : Nat} {due : Word} : (s.resumedBy cid slot due).insts = s.insts := by
  simp only [State.resumedBy, State.modCtx_insts, State.resume]

theorem State.ctx?_resumedBy {slot : Nat} {due : Word} (h : s.ctx? cid = some c) (hc : c.cid = cid) (hs : c.id.slot ≠ 4)
    (hslot : slot ≠ 4) :
    ∃ c', (s.resumedBy cid slot due).ctx? cid = some c' ∧ c'.st.out = false ∧ c'.id.slot = slot ∧ c'.wait = none ∧
      c'.r = c.r ∧ c'.pc = c.pc := by
  have hnum (x : Ctx) (hx : x.id = { c.id with slot := slot }) : x.cid = cid := by
    rw [Ctx.cid_of_slot (by rw [hx]; exact hslot), hx, ← hc, Ctx.cid_of_slot hs]
    rfl
  have hres := State.ctx?_modCtx_self (f := fun c => { c.back with
    id := { c.id with slot := slot }
    st := { c.back.st with last := (s.core c.id.core).ages.getD slot 0 } }) h rfl (hnum _ rfl)
  have hdue := State.ctx?_modCtx_self (f := fun c => { c with c := { c.c with deadline := due } }) hres rfl (hnum _ rfl)
  exact ⟨_, hdue, rfl, rfl, rfl, rfl, rfl⟩

theorem execContextResume_placed {core slot : Nat} {i : Inst} (h : s.ctx? cid = some c) (hc : c.cid = cid)
    (hp : (s.part c.id.part).pstate = 0) (hi : s.insts.get? c.id.inst = some i) (hout : c.st.out = true)
    (hs : c.id.slot ≠ 4) (hb : i.begun = true) (hg : s.goesOnOf i = true) (hgang : s.gangOf i = 1) (hcore : c.id.core = core)
    (hstart : s.canStart c.id.inst i = true) (hslot : slot ∈ s.slotsFree core) :
    ∃ t c', execContextResume cid core slot s = .next t ∧ t.ctx? cid = some c' ∧ c'.st.out = false ∧ c'.id.slot = slot ∧
      c'.wait = none ∧ c'.r = c.r ∧ c'.pc = c.pc ∧ (t.insts.get? c.id.inst).map (·.st) = some 3 := by
  obtain ⟨c', hget, hfields⟩ :=
    State.ctx?_resumedBy (due := i.deadline) h hc hs (Nat.ne_of_lt (State.slotsFree_lt hslot))
  have hinst := State.insts_modInst_self (s := s.resumedBy cid slot i.deadline) (f := fun i => { i with st := 3 })
    (by rw [State.resumedBy_insts, hi])
  have hexec : execContextResume cid core slot s =
      .next { (s.resumedBy cid slot i.deadline).modInst c.id.inst (fun i => { i with st := 3 }) with
        cdq := (s.resumedBy cid slot i.deadline).cdq.map fun e => (e.1, e.2.erase c.id.inst) } := by
    simp only [execContextResume, h, hi]
    rw [if_pos]
    · rfl
    · simp [hout, hb, hg, hgang, hcore, State.issues_of_running hp, hstart, hslot]
  obtain ⟨hout', hslot', hwait, hr, hpc⟩ := hfields
  refine ⟨_, c', hexec, (State.ctx?_congr rfl rfl).trans hget, hout', hslot', hwait, hr, hpc, ?_⟩
  exact congrArg (Option.map (·.st)) hinst

end Sys2Proof.Machine
end

section
/-! PROOF (O48). The dispatcher: the keys that instances hold once they have taken them, their cores and their place in the
queues of the clusters, and the aging timers. -/
namespace Sys2Proof.Machine
variable {s t : State} {m p : Nat} {i : Inst} {n : Node}

/-! ## Keys (R299, R300, R301) -/

/-- Instance `m` holds a slot as it asked for it. -/
def KeySlot.HeldBy (k : KeySlot) (m : Nat) (excl : Bool) : Prop := if excl then k.excl = some m else m ∈ k.shared

theorem KeySlot.heldBy_take (k : KeySlot) (m : Nat) (excl : Bool) : (k.take m excl).HeldBy m excl := by
  cases excl <;> simp [KeySlot.HeldBy, KeySlot.take]

/-- What `m` holds of a slot it keeps when it takes the slot again. -/
theorem KeySlot.HeldBy.take {k : KeySlot} {e : Bool} (h : k.HeldBy m e) (excl : Bool) : (k.take m excl).HeldBy m e := by
  cases e <;> cases excl <;> simp_all [KeySlot.HeldBy, KeySlot.take]

@[simp] theorem State.keySlot_modKeySlot_self (idx : Nat) (f : KeySlot → KeySlot) :
    (s.modKeySlot idx f).keySlot idx = f (s.keySlot idx) := by simp [State.keySlot, State.modKeySlot]

theorem State.keySlot_modKeySlot_ne {idx k : Nat} (f : KeySlot → KeySlot) (h : k ≠ idx) :
    (s.modKeySlot idx f).keySlot k = s.keySlot k := by simp [State.keySlot, State.modKeySlot, Tab.getD_set_ne _ _ _ h]

/-- Once the slots of a list are taken, each of them is held, and so is what was held before. -/
theorem State.heldBy_foldl_take {idx : Nat} {excl : Bool} : ∀ (l : List (Nat × Bool)) (s : State),
    (idx, excl) ∈ l ∨ (s.keySlot idx).HeldBy m excl →
    ((l.foldl (fun s e => s.modKeySlot e.1 fun k => k.take m e.2) s).keySlot idx).HeldBy m excl
  | [], _, h => h.resolve_left List.not_mem_nil
  | e :: l, s, h => by
    refine State.heldBy_foldl_take l (s.modKeySlot e.1 fun k => k.take m e.2) ?_
    by_cases hk : idx = e.1
    · subst hk
      rw [State.keySlot_modKeySlot_self]
      rcases h with h | h
      · rcases List.mem_cons.mp h with h | h
        · rw [← h]
          exact .inr (KeySlot.heldBy_take _ _ _)
        · exact .inl h
      · exact .inr (h.take _)
    · rw [State.keySlot_modKeySlot_ne _ hk]
      refine h.imp_left fun h => (List.mem_cons.mp h).resolve_left ?_
      exact fun he => hk (congrArg Prod.fst he)

/-- Changing key slots changes the key table alone. -/
theorem State.foldl_modKeySlot_eq {f : Nat × Bool → KeySlot → KeySlot} (l : List (Nat × Bool)) (s : State) :
    ∃ k, l.foldl (fun s e => s.modKeySlot e.1 (f e)) s = { s with keytab := k } :=
  List.foldlRecOn (motive := fun t : State => ∃ k, t = { s with keytab := k }) l _ ⟨s.keytab, rfl⟩ fun t ht e _ => by
    obtain ⟨k, rfl⟩ := ht
    exact ⟨_, rfl⟩

/-- Acquiring the keys of `m` leaves it holding them all; but for the key table only `m` itself changes. -/
theorem State.acquireKeys_spec (h : s.insts.get? m = some i) :
    ∃ e, (s.acquireKeys m i).insts.get? m = some e ∧ e.begun = i.begun ∧
      (s.acquireKeys m i).kernels = s.kernels ∧ (s.acquireKeys m i).parts = s.parts ∧
      ∀ z ∈ s.slotsOf i, ((s.acquireKeys m i).keySlot z.1).HeldBy m z.2 := by
  obtain ⟨k, hk⟩ := State.foldl_modKeySlot_eq (f := fun e k => k.take m e.2) (s.slotsOf i) s
  have hheld (z) (hz : z ∈ s.slotsOf i) := State.heldBy_foldl_take (m := m) (idx := z.1) (excl := z.2) _ s (.inl hz)
  simp only [hk] at hheld
  simp only [State.acquireKeys, hk]
  exact ⟨_, State.insts_modInst_self h, rfl, rfl, rfl, hheld⟩

/-! ## Reserving on the cores, and the queues (R287, R330) -/

/-- Before the first slice a member takes its core after those of the members before it. -/
theorem State.reserveRank_fresh {r core : Nat} {e : Inst} (h : s.insts.get? m = some e) (hb : e.begun = false) :
    ∃ e', (s.reserveRank m p n r core).insts.get? m = some e' ∧ e'.begun = false ∧ e'.cores = e.cores ++ [core] ∧
      (s.reserveRank m p n r core).keytab = s.keytab ∧ (s.reserveRank m p n r core).parts = s.parts := by
  simp only [State.reserveRank, h, hb, Bool.false_eq_true, if_false]
  exact ⟨_, State.insts_modInst_self h, hb, rfl, rfl, rfl⟩

theorem State.foldl_reserveRank_fresh : ∀ (l : List (Nat × Nat)) (s : State) (e : Inst), s.insts.get? m = some e →
    e.begun = false →
    ∃ e' t, l.foldl (fun s x => s.reserveRank m p n x.1 x.2) s = t ∧ t.insts.get? m = some e' ∧
      e'.cores = e.cores ++ l.map (·.2) ∧ t.keytab = s.keytab ∧ t.parts = s.parts
  | [], s, e, h, _ => ⟨e, s, rfl, h, by simp, rfl, rfl⟩
  | x :: l, s, e, h, hb => by
    obtain ⟨e1, h1, hb1, hc1, hk1, hp1⟩ := State.reserveRank_fresh (p := p) (n := n) (r := x.1) (core := x.2) h hb
    obtain ⟨e2, t, ht, h2, hc2, hk2, hp2⟩ := State.foldl_reserveRank_fresh l _ e1 h1 hb1
    exact ⟨e2, t, ht, h2, by simp [hc2, hc1], hk2.trans hk1, hp2.trans hp1⟩

theorem mem_insertQueue_self (s : State) (m : Nat) (i : Inst) : ∀ l, m ∈ insertQueue s m i l
  | [] => by simp [insertQueue]
  | k :: l => by
    have ih := mem_insertQueue_self s m i l
    simp only [insertQueue]
    split
    · split
      · simp
      · exact List.mem_cons_of_mem _ ih
    · exact List.mem_cons_of_mem _ ih

/-- `m` stands in every queue it is put into. -/
theorem mem_foldl_insertQueue {cl : Nat} : ∀ (cls : List Nat) (q : Tab (List Nat)), cl ∈ cls ∨ m ∈ q.getD cl [] →
    m ∈ (cls.foldl (fun q cl => q.set cl (insertQueue s m i (q.getD cl []))) q).getD cl []
  | [], _, h => h.resolve_left List.not_mem_nil
  | c :: cls, q, h => by
    refine mem_foldl_insertQueue cls _ ?_
    by_cases hc : cl = c
    · subst hc
      rw [Tab.getD_set_self]
      exact .inr (mem_insertQueue_self _ _ _ _)
    · rw [Tab.getD_set_ne _ _ _ hc]
      exact h.imp_left fun h => (List.mem_cons.mp h).resolve_left hc

/-- Before its first slice `m` takes its place: it is queued, on its cores, in the queues of their clusters. -/
theorem State.enqueue_fresh {e : Inst} {cores : List Nat} (h : s.insts.get? m = some e) (he : e.begun = false)
    (hb : i.begun = false) (hn : s.nodeOf i = some n) :
    ∃ e' t, s.enqueue m i p cores = t ∧ t.insts.get? m = some e' ∧ e'.st = 2 ∧
      e'.cores = ((s.ranksOf i).zip cores).map (·.2) ∧ (∀ c ∈ cores, m ∈ t.cdq.getD (clusterOf c) []) ∧
      t.keytab = s.keytab ∧ t.parts = s.parts := by
  have h0 : (s.modInst m fun i => { i with cores := [], banks := [], tracks := [] }).insts.get? m =
      some { e with cores := [], banks := [], tracks := [] } := State.insts_modInst_self h
  obtain ⟨e1, t1, ht1, h1, hc1, hk1, hp1⟩ :=
    State.foldl_reserveRank_fresh (p := p) (n := n) ((s.ranksOf i).zip cores) _ _ h0 he
  simp only [State.enqueue, hn, hb, Bool.false_eq_true, if_false]
  rw [ht1]
  refine ⟨_, _, rfl, State.insts_modInst_self (f := fun i => { i with st := 2 }) h1, rfl, hc1, fun c hc => ?_, hk1, hp1⟩
  exact mem_foldl_insertQueue _ _ (.inl (List.mem_eraseDups.mpr (List.mem_map_of_mem hc)))

/-! ## Placements (R284, R286) -/

theorem ascendFree_length {ok : Nat → Nat → Bool} {f : Nat} : ∀ {rs cs l : List Nat},
    ascendFree ok f rs cs = some l → l.length = rs.length
  | [], _, l, h => by simp_all [ascendFree]
  | _ :: _, [], l, h => by simp [ascendFree] at h
  | r :: rs, c :: cs, l, h => by
    simp only [ascendFree] at h
    split at h
    · obtain ⟨l', hl, rfl⟩ := Option.map_eq_some_iff.mp h
      simp [ascendFree_length hl]
    · exact ascendFree_length h

/-- Where no member has ended, a placement has a core for each member. -/
theorem State.placement_length {but : Option Nat} {cores l : List Nat} (h : s.placement i p but cores = some l)
    (he : i.ended = []) : l.length = (s.ranksOf i).length := by
  unfold State.placement at h
  split at h
  · cases h
  · next n hn =>
    simp only at h
    split at h
    · cases h
    split at h
    · next hg =>
      obtain ⟨c, -, rfl⟩ := Option.map_eq_some_iff.mp h
      simp [State.ranksOf, State.gangOf, hn, hg, he]
    · split at h
      · exact ascendFree_length h
      · exact ascendFree_length h

theorem State.nodeOf_of_placement {but : Option Nat} {cores l : List Nat} (h : s.placement i p but cores = some l) :
    ∃ n, s.nodeOf i = some n := by
  unfold State.placement at h
  split at h
  · cases h
  · next n hn => exact ⟨n, hn⟩

/-! ## A pick (R283, R301) -/

/-- With none to serve first, the whole pool may be served. -/
theorem State.served_of_not_placing (h : (s.part p).placing = []) : s.served p = s.pool p := by
  have hnone : ((s.pool p).findIdx? fun e => [].contains e.1) = none := List.findIdx?_eq_none_iff.mpr fun _ _ => rfl
  simp only [State.served, h, upTo, hnone]

/-- The head of the pool, where it has its keys and a placement, is the one picked. -/
theorem State.pick_head {rest : List (Nat × Inst)} {cores : List Nat} (hpool : s.pool p = (m, i) :: rest)
    (hp : (s.part p).pstate = 0) (hpl : (s.part p).placing = []) (hkeys : s.keysOk m i = true)
    (hplace : s.placement i p none (s.coresOf p) = some cores) (hroom : s.queueRoom cores = true) :
    s.pick p = (s.picked m i p cores).modPart p fun p => { p with kskip := p.kskip % 2 ^ 64 } := by
  simp [State.pick, State.issues_of_running hp, State.served_of_not_placing hpl, hpool, State.scan, hkeys, hplace, hroom]

theorem execDispatchPick_head {rest : List (Nat × Inst)} {cores : List Nat} (hpool : s.pool p = (m, i) :: rest)
    (hp : (s.part p).pstate = 0) (hi : s.insts.get? m = some i) (hpl : (s.part p).placing = [])
    (hkeys : s.keysOk m i = true) (hplace : s.placement i p none (s.coresOf p) = some cores)
    (hroom : s.queueRoom cores = true) (hb : i.begun = false) (he : i.ended = []) :
    ∃ t e, execDispatchPick p s = .next t ∧ t.insts.get? m = some e ∧ e.st = 2 ∧ e.cores = cores ∧
      (∀ c ∈ cores, m ∈ t.cdq.getD (clusterOf c) []) ∧ (∀ z ∈ s.slotsOf i, (t.keySlot z.1).HeldBy m z.2) ∧
      (t.part p).kskip = (s.part p).kskip % 2 ^ 64 ∧ (t.part p).keyTimer = none ∧ (t.part p).idle = 0 := by
  obtain ⟨n, hn⟩ := State.nodeOf_of_placement hplace
  obtain ⟨e1, h1, hb1, hker, hp1, hheld⟩ := State.acquireKeys_spec hi
  have hnode : (s.acquireKeys m i).nodeOf i = some n := by rw [State.nodeOf, hker]; exact hn
  have hranks : (s.acquireKeys m i).ranksOf i = s.ranksOf i := by
    simp only [State.ranksOf, State.gangOf, State.nodeOf, hker]
  obtain ⟨e2, t2, ht2, h2, hst, hcores, hcdq, hkt, hp2⟩ :=
    State.enqueue_fresh (p := p) (cores := cores) h1 (hb1.trans hb) hb hnode
  have hlen := State.placement_length hplace he
  have hpart : t2.part p = s.part p := by rw [State.part, hp2, hp1]; rfl
  refine ⟨_, e2, by rw [execDispatchPick, State.pick_head hpool hp hpl hkeys hplace hroom], ?_⟩
  simp only [State.picked, hb, Bool.false_eq_true, if_false, ht2, State.modPart_modPart, State.part_modPart, hpart, hpool,
    List.head?_cons, Option.any_some, decide_true, if_true]
  refine ⟨h2, hst, ?_, hcdq, fun z hz => ?_, trivial, trivial, trivial⟩
  · rw [hcores, hranks, List.map_snd_zip hlen.le]
  · have : t2.keySlot z.1 = (s.acquireKeys m i).keySlot z.1 := by rw [State.keySlot, hkt]; rfl
    exact this ▸ hheld z hz

/-! ## Aging (R285, R301) -/

theorem execAgeplaceExpiry_waiting {rest : List (Nat × Inst)} (hpool : s.pool p = (m, i) :: rest)
    (hp : (s.part p).pstate = 0) (hkeys : s.keysOk m i = true) (hplace : s.placement i p none (s.coresOf p) = none)
    (ht : ∃ y, (s.part p).placeTimer = some (m, y) ∧ (s.part p).ageplace ≤ y) :
    execAgeplaceExpiry p s = .next (s.modPart p fun q => { q with placing := insertHeld m q.placing }) := by
  obtain ⟨y, hy, hle⟩ := ht
  simp [execAgeplaceExpiry, hpool, State.issues_of_running hp, hkeys, hplace, timedOut, hy, hle]

/-- Every slot of a list is reserved and otherwise as it was, also one that comes twice. -/
theorem State.keySlot_foldl_own {idx : Nat} : ∀ (l : List (Nat × Bool)) (s : State) (k : KeySlot),
    (∃ z ∈ l, z.1 = idx) ∨ s.keySlot idx = { k with owner := some m } →
    { s.keySlot idx with owner := some m } = { k with owner := some m } →
    (l.foldl (fun s e => s.modKeySlot e.1 fun k => { k with owner := some m }) s).keySlot idx = { k with owner := some m }
  | [], _, _, h, _ => h.resolve_left (by simp)
  | e :: l, s, k, h, hk => by
    refine State.keySlot_foldl_own l (s.modKeySlot e.1 fun k => { k with owner := some m }) k ?_ ?_
    · by_cases he : idx = e.1
      · subst he
        rw [State.keySlot_modKeySlot_self]
        exact .inr hk
      · rw [State.keySlot_modKeySlot_ne _ he]
        refine h.imp_left fun ⟨z, hz, hzi⟩ => ⟨z, (List.mem_cons.mp hz).resolve_left ?_, hzi⟩
        rintro rfl
        exact he hzi.symm
    · by_cases he : idx = e.1
      · subst he
        rw [State.keySlot_modKeySlot_self]
        exact hk
      · rw [State.keySlot_modKeySlot_ne _ he]
        exact hk

/-- Reserving the slots that `m` waits for, all of them at once. -/
theorem State.reserveKeys_spec {l : List (Nat × Bool)} (hi : s.insts.get? m = some i) :
    ∃ t, ((l.foldl (fun s e => s.modKeySlot e.1 fun k => { k with owner := some m }) s).modInst m fun i =>
        { i with reserved := true }).modPart p (fun p => { p with rsvcnt := (p.rsvcnt + 1) % 2 ^ 64 }) = t ∧
      (t.insts.get? m).map (·.reserved) = some true ∧
      (∀ z ∈ l, t.keySlot z.1 = { s.keySlot z.1 with owner := some m }) ∧
      (t.part p).rsvcnt = ((s.part p).rsvcnt + 1) % 2 ^ 64 := by
  obtain ⟨k, hk⟩ := State.foldl_modKeySlot_eq (f := fun _ k => { k with owner := some m }) l s
  have hslot (z) (hz : z ∈ l) := State.keySlot_foldl_own (m := m) l s (s.keySlot z.1) (.inl ⟨z, hz, rfl⟩) rfl
  simp only [hk] at hslot ⊢
  refine ⟨_, rfl, ?_, hslot, ?_⟩
  · exact congrArg (Option.map (·.reserved)) (State.insts_modInst_self (s := s) (f := fun i => { i with reserved := true }) hi)
  · rw [State.part_modPart]; rfl

theorem execAgekeyExpiry_waiting {rest : List (Nat × Inst)} (hpool : s.pool p = (m, i) :: rest)
    (hp : (s.part p).pstate = 0) (hi : s.insts.get? m = some i) (hkeys : s.keysOk m i = false) (hr : i.reserved = false)
    (ht : ∃ y, (s.part p).keyTimer = some (m, y) ∧ (s.part p).agekey ≤ y)
    (hown : ∀ z ∈ s.slotsOf i, (s.keySlot z.1).owner = none ∨ (s.keySlot z.1).owner = some m) :
    ∃ t, execAgekeyExpiry p s = .next t ∧ (t.insts.get? m).map (·.reserved) = some true ∧
      (∀ z ∈ s.slotsOf i, t.keySlot z.1 = { s.keySlot z.1 with owner := some m }) ∧
      (t.part p).rsvcnt = ((s.part p).rsvcnt + 1) % 2 ^ 64 := by
  obtain ⟨y, hy, hle⟩ := ht
  have hto : timedOut (s.part p).keyTimer m (s.part p).agekey = true := by simp [timedOut, hy, hle]
  obtain ⟨t, ht, hres, hslots, hcnt⟩ := State.reserveKeys_spec
    (s := s.modPart p fun u => { u with keyTimer := some (m, 0) }) (p := p) (l := s.slotsOf i) hi
  refine ⟨t, ?_, hres, hslots, by rw [hcnt, State.part_modPart]⟩
  simp only [execAgekeyExpiry, hpool, State.issues_of_running hp, hkeys, hr, hto, Bool.not_true, Bool.or_self,
    Bool.false_eq_true, if_false]
  rw [if_neg, ht]
  rw [Bool.not_eq_true, List.any_eq_false]
  intro z hz
  rcases hown z hz with h | h <;> simp [h]

end Sys2Proof.Machine
end

section
/-! PROOF (O48). The start of instances: the instances of a copy and their coordinates, the first slice of a member, the words
of a track loaded before it, and the release of a successor. -/
namespace Sys2Proof.Machine
variable {s t : State} {m p k j core : Nat} {i : Inst} {n : Node} {u : Kernel}

/-! ## The instances of a copy (R290) -/

/-- A grid walked row by row, by the number of the step. -/
theorem flatMap_range_map {α : Type} (f : Nat → Nat → α) (a : Nat) : ∀ b,
    ((List.range b).flatMap fun y => (List.range a).map fun x => f x y) =
      (List.range (a * b)).map fun z => f (z % a) (z / a)
  | 0 => by simp
  | b + 1 => by
    rw [List.range_succ, List.flatMap_append, flatMap_range_map f a b, Nat.mul_succ, List.range_add, List.map_append,
      List.flatMap_singleton, List.map_map]
    congr 1
    refine List.map_congr_left fun x hx => ?_
    have hlt : x < a := List.mem_range.mp hx
    have hmod : (a * b + x) % a = x := by rw [Nat.mul_add_mod, Nat.mod_eq_of_lt hlt]
    have hdiv : (a * b + x) / a = b := by rw [Nat.mul_add_div (by omega), Nat.div_eq_of_lt hlt, Nat.add_zero]
    rw [Function.comp, hmod, hdiv]

theorem coords_eq (nx ny nz : Nat) :
    coords nx ny nz = (List.range (nx * ny * nz)).map fun z => (z % nx, z / nx % ny, z / nx / ny) := by
  simp only [coords, flatMap_range_map fun x y => (x, y, _)]
  rw [flatMap_range_map fun w z => (w % nx, w / nx, z)]
  simp only [Nat.mod_mul_right_mod, Nat.mod_mul_right_div_self, Nat.div_div_eq_div_mul]

/-- Instances added one after another take the numbers from the next free one on. -/
theorem State.foldl_addInst {ι : Type} (g : ι → Inst) : ∀ (l : List ι) (s : State),
    ∃ t, l.foldl (fun s c => { s with insts := s.insts.set s.nextInst (g c), nextInst := s.nextInst + 1 }) s = t ∧
      t.nextInst = s.nextInst + l.length ∧ t.kernels = s.kernels ∧
      (∀ m, m < s.nextInst → t.insts.get? m = s.insts.get? m) ∧
      ∀ z x, l[z]? = some x → t.insts.get? (s.nextInst + z) = some (g x)
  | [], s => ⟨s, rfl, rfl, rfl, fun _ _ => rfl, fun z x h => by simp at h⟩
  | c :: l, s => by
    obtain ⟨t, ht, hnext, hker, hold, hnew⟩ :=
      State.foldl_addInst g l { s with insts := s.insts.set s.nextInst (g c), nextInst := s.nextInst + 1 }
    refine ⟨t, ht, by rw [hnext, List.length_cons]; exact Nat.add_right_comm .., hker, fun m hm => ?_, fun z x hz => ?_⟩
    · rw [hold m (Nat.lt_succ_of_lt hm), Tab.get?_set_ne _ _ (Nat.ne_of_lt hm)]
    · cases z with
      | zero =>
        obtain rfl : c = x := by simpa using hz
        exact (hold s.nextInst (Nat.lt_succ_self _)).trans (Tab.get?_set_self ..)
      | succ z => rw [← hnew z x (by simpa using hz)]; congr 1; change s.nextInst + (z + 1) = s.nextInst + 1 + z; omega

theorem State.makeInsts_spec (s : State) (k j : Nat) (n : Node) :
    ∃ t, s.makeInsts k j n = t ∧ t.nextInst = s.nextInst + n.nx * n.ny * n.nz ∧ t.kernels = s.kernels ∧
      ∀ z, z < n.nx * n.ny * n.nz →
        t.insts.get? (s.nextInst + z) = some (n.instAt k j (z % n.nx, z / n.nx % n.ny, z / n.nx / n.ny)) := by
  obtain ⟨t, ht, hnext, hker, -, hnew⟩ := State.foldl_addInst (n.instAt k j) (coords n.nx n.ny n.nz) s
  refine ⟨t, ht, by rw [hnext, coords_eq, List.length_map, List.length_range], hker, fun z hz => hnew z _ ?_⟩
  rw [coords_eq, List.getElem?_map, List.getElem?_range hz, Option.map_some]

theorem execSpawnEnqueue_copy (hk : s.kernels.get? k = some u) (hj : u.nodes.get? j = some n) (hc : n.copy = true)
    (he : n.enqueued = false) :
    ∃ t, execSpawnEnqueue k j s = .next t ∧ t.nextInst = s.nextInst + n.nx * n.ny * n.nz ∧
      ((t.kernels.get? k).bind fun v => v.nodes.get? j) = some { n with enqueued := true } ∧
      ∀ z, z < n.nx * n.ny * n.nz → ∃ e, t.insts.get? (s.nextInst + z) = some e ∧ e.kernel = k ∧ e.node = j ∧
        e.x = z % n.nx ∧ e.y = z / n.nx % n.ny ∧ e.z = z / n.nx / n.ny ∧
        e.st = if n.preds = [] ∧ n.after = none then 1 else 0 := by
  obtain ⟨t, ht, hnext, hker, hinst⟩ := State.makeInsts_spec
    (s.modKernel k fun u => { u with nodes := u.nodes.modify j fun n => { n with enqueued := true } }) k j n
  refine ⟨t, ?_, hnext, ?_, fun z hz => ⟨_, hinst z hz, rfl, rfl, rfl, rfl, rfl, ?_⟩⟩
  · simp [execSpawnEnqueue, hk, hj, hc, he, ht]
  · rw [hker]
    simp [State.modKernel, Tab.get?_modify, hk, hj]
  · simp [Node.instAt, List.isEmpty_iff, Option.isNone_iff_eq_none]

/-! ## The release of a successor (R283, R295) -/

theorem execEdgeRelease_eq (h : s.insts.get? m = some i) :
    execEdgeRelease m s = .next (if i.st = 0 && s.edgesDone i then s.modInst m fun i => { i with st := 1 } else s) := by
  simp only [execEdgeRelease, h]

/-! ## The first slice of a member (R51, R57, R58, R287) -/

/-- A choice from a list with something in it is one of the list. -/
theorem pickSome_one_mem {f : Nat} : ∀ {l : List Nat}, l ≠ [] → (pickSome 1 f l).headD 0 ∈ l
  | [], h => absurd rfl h
  | x :: l, _ => by
    have hlt : Config.freePick f % (x :: l).length < (x :: l).length := Nat.mod_lt _ (by simp)
    simp only [pickSome, List.headD_cons]
    rw [List.getD_eq_getElem _ _ hlt]
    exact List.getElem_mem hlt

/-- A serial that no live context has is taken. -/
theorem State.freeSerial_of_free {k a : Nat} (h : s.ctx? (p * 2 ^ 24 + a % 2 ^ 24) = none) : s.freeSerial p k a = a := by
  cases k with
  | zero => rfl
  | succ k => rw [State.freeSerial, h]; rfl

theorem State.get?_modInst_self {f : Inst → Inst} : (s.modInst m f).insts.get? m = (s.insts.get? m).map f := by
  simp [State.modInst, Tab.get?_modify]

/-- What a member that begins its first slice is. -/
def Inst.firstIdent (i : Inst) (m part serial core slot r gsize : Nat) : Ident :=
  { serial := serial, core := core, slot := slot, part := part, inst := m, rank := r, gsize := gsize, kseq := i.kernel,
    x := i.x, y := i.y, z := i.z }

/-- The first slice of a member on one device: its context stands at the entry of its node, in a slot that was free. -/
theorem State.startRank_first {r : Nat} (hb : i.begun = false) (hsp : s.spans i = false) (hslots : s.slotsFree core ≠ [])
    (hfree : s.ctx? (u.part * 2 ^ 24 + (s.part u.part).serial % 2 ^ 24) = none) :
    ∃ (t v : State) (slot lin roles : Nat),
      s.startRank m i n u r core = t ∧ v.endSeq = s.endSeq ∧ slot ∈ s.slotsFree core ∧
      t.others.get? (u.part * 2 ^ 24 + (s.part u.part).serial % 2 ^ 24) =
        some (v.entered n (i.firstIdent m u.part (s.part u.part).serial core slot r n.gang) lin i.deadline roles
          (i.banks.getD r []) (i.tracks.getD r [])) ∧
      t.insts.get? m = (s.insts.get? m).map (fun i => { i with
        cids := i.cids ++ [u.part * 2 ^ 24 + (s.part u.part).serial % 2 ^ 24] }) ∧
      (t.part u.part).serial = (s.part u.part).serial + 1 := by
  have hser (k : Nat) : ({ s with free := s.free + 1 } : State).freeSerial u.part k (s.part u.part).serial =
      (s.part u.part).serial := State.freeSerial_of_free hfree
  have hsp' : ({ s with free := s.free + 1 } : State).spans i = false := hsp
  have hpart : ({ s with free := s.free + 1 } : State).part u.part = s.part u.part := rfl
  simp only [State.startRank, hb, Bool.false_eq_true, if_false, hpart, hser, hsp']
  refine ⟨_, _, _, _, _, rfl, ?_, pickSome_one_mem hslots, Tab.get?_set_self .., ?_, ?_⟩
  · rfl
  · rw [State.get?_modInst_self]; rfl
  · simp only [State.part, State.modInst_parts, State.modPart, Tab.getD_set_self]

/-- Where `m` can start, the core of every member has a free slot. -/
theorem State.slotsFree_ne_nil_of_canStart {r : Nat} (h : s.canStart m i = true) (hr : r ∈ s.ranksOf i) :
    s.slotsFree (i.cores.getD r 0) ≠ [] := by
  simp only [State.canStart, Bool.and_eq_true, List.all_eq_true] at h
  obtain ⟨⟨-, hfree⟩, -⟩ := h
  simpa using hfree _ (List.mem_map_of_mem hr)

/-- With one member, whose slot and queue are free, `m` starts on its core. -/
theorem execInstanceStart_first (hi : s.insts.get? m = some i) (hn : s.nodeOf i = some n)
    (hu : s.kernels.get? i.kernel = some u) (hp : (s.part u.part).pstate = 0) (hstart : s.canStart m i = true) (hst : u.st ≠ 3)
    (hb : i.begun = false) (hl : n.loads = []) (hc : i.cores = [core]) (hg : n.gang = 1) (hsp : s.spans i = false)
    (he : i.ended = []) (hfree : s.ctx? (u.part * 2 ^ 24 + (s.part u.part).serial % 2 ^ 24) = none) :
    ∃ (t v : State) (slot lin roles : Nat), execInstanceStart m s = .next t ∧ v.endSeq = s.endSeq ∧ slot < 4 ∧
      t.others.get? (u.part * 2 ^ 24 + (s.part u.part).serial % 2 ^ 24) =
        some (v.entered n (i.firstIdent m u.part (s.part u.part).serial core slot 0 1) lin i.deadline roles
          (i.banks.getD 0 []) (i.tracks.getD 0 [])) ∧
      (t.insts.get? m).map (fun e => (e.st, e.begun)) = some (3, true) ∧
      (t.part u.part).serial = (s.part u.part).serial + 1 := by
  have hranks : s.ranksOf i = [0] := by simp [State.ranksOf, State.gangOf, hn, hg, he]
  have hslots : s.slotsFree core ≠ [] := by
    have := State.slotsFree_ne_nil_of_canStart (r := 0) hstart (by simp [hranks])
    rwa [hc, List.getD_cons_zero] at this
  obtain ⟨t, v, slot, lin, roles, ht, hend, hslot, hctx, hinst, hser⟩ :=
    State.startRank_first (m := m) (n := n) (r := 0) hb hsp hslots hfree
  have hexec : execInstanceStart m s = .next { t.modInst m (fun i => { i with st := 3, begun := true }) with
      cdq := t.cdq.map fun e => (e.1, e.2.erase m) } := by
    simp only [execInstanceStart, hi, hn, hu, hranks, hc, List.foldl_cons, List.foldl_nil, List.getD_cons_zero, ht]
    rw [if_pos (by simp [State.issues_of_running hp, hst, hstart, hl])]
  refine ⟨_, v, slot, lin, roles, hexec, hend, State.slotsFree_lt hslot, hg ▸ hctx, ?_, hser⟩
  refine (congrArg (Option.map fun e => (e.st, e.begun))
    (State.get?_modInst_self (s := t) (f := fun i => { i with st := 3, begun := true }))).trans ?_
  rw [hinst, hi]
  rfl

theorem execInstanceStart_faulting (hi : s.insts.get? m = some i) (hn : s.nodeOf i = some n)
    (hu : s.kernels.get? i.kernel = some u) (hst : u.st = 3) : execInstanceStart m s = .next s := by
  simp [execInstanceStart, hi, hn, hu, hst]

/-! ## Track data (R369, R429) -/

theorem trackKey_add (core t q b : Nat) : trackKey core t q 0 + b = trackKey core t q b := rfl

@[simp] theorem State.track_modTrack (tr : Nat) (f : Track → Track) :
    (s.modTrack core tr f).track core tr = f (s.track core tr) := by
  simp [State.track, State.modTrack]

theorem Track.postmark_erase (tr : Track) (q : Nat) :
    Track.postmark { tr with marks := tr.marks.erase q } q = q % 16 := by
  simp [Track.postmark, Tab.getD, Tab.get?_erase_self]

@[simp] theorem State.loadTrack_insts {tr : Nat} {l : TrackLoad} : (s.loadTrack p core tr l).insts = s.insts := by
  refine List.foldlRecOn (motive := fun t : State => t.insts = s.insts) _ _ rfl fun t ht w _ => ?_
  split
  · exact ht
  · exact ht

/-- A load of one word: it stands at its position with its own postmark, and the port's belief follows it. -/
theorem State.loadTrack_one {tr : Nat} {l : TrackLoad} {bs : List Byte} (hcount : l.count = 1) (hpos : l.pos < 4096)
    (hr : s.readGlobal p l.addr 128 = some bs) (hlen : bs.length = 128) (hw : s.MemWf) :
    ((s.loadTrack p core tr l).track core tr).ppos = (l.pos + 1) % 4096 ∧
      ((s.loadTrack p core tr l).track core tr).postmark l.pos = l.pos % 16 ∧
      ∀ b, b < 128 → (s.loadTrack p core tr l).mem.read (trackKey core tr l.pos b) = bs.getD b 0 := by
  have hload : s.loadTrack p core tr l = (s.putTrackWord core tr l.pos l.pos bs).modTrack core tr fun tr =>
      { tr with ppos := (l.pos + 1) % 4096, off := 0, slip := 0, owner := none, holder := none, hleft := 0 } := by
    simp [State.loadTrack, hcount, hr, Nat.mod_eq_of_lt hpos]
  rw [hload]
  refine ⟨by rw [State.track_modTrack], ?_, fun b hb => ?_⟩
  · rw [State.track_modTrack, State.putTrackWord, State.track_modTrack, if_pos rfl]
    exact Track.postmark_erase _ _
  · change (s.mem.putBytes (trackKey core tr l.pos 0) bs).read _ = _
    rw [Memory.read_putBytes _ _ _ hw, ← trackKey_add core tr l.pos b, if_pos ⟨Nat.le_add_right .., by omega⟩,
      Nat.add_sub_cancel_left]

/-- The tracks of the node have been loaded, by one of its instances. -/
def State.loadedOnce (s : State) (i : Inst) : Prop :=
  ∃ e ∈ s.insts, e.2.kernel = i.kernel ∧ e.2.node = i.node ∧ e.2.loaded = true

/-- The loads of every member of `i`. -/
def State.loadTracks (s : State) (i : Inst) (n : Node) : State :=
  (i.cores.zip i.tracks).foldl (fun s e => n.loads.foldl (fun s l =>
    match s.headTrack e.1 (s.instPart i) e.2 l.track with
    | some t => s.loadTrack (s.instPart i) e.1 t l
    | none => s) s) s

@[simp] theorem State.loadTracks_insts : (s.loadTracks i n).insts = s.insts := by
  refine List.foldlRecOn (motive := fun t : State => t.insts = s.insts) _ _ rfl fun t ht e _ => ?_
  refine List.foldlRecOn (motive := fun t : State => t.insts = s.insts) _ _ ht fun t ht l _ => ?_
  split
  · rw [State.loadTrack_insts, ht]
  · exact ht

theorem State.loadTracks_one {own : Nat} {l : TrackLoad} (hc : i.cores = [core]) (ht : i.tracks = [[own]])
    (hl : n.loads = [l]) (h0 : l.track = 0) :
    s.loadTracks i n = s.loadTrack (s.instPart i) core ((s.commonTrack core (s.instPart i) 0).getD own) l := by
  simp [State.loadTracks, hc, ht, hl, h0, State.headTrack]

theorem execTrackdataLoad_eq (hi : s.insts.get? m = some i) (hn : s.nodeOf i = some n) (hst : i.st = 2)
    (hb : i.begun = false) (hl : i.loaded = false) (hp : (s.part (s.instPart i)).pstate = 0) :
    (s.loadedOnce i → execTrackdataLoad m s = .next (s.modInst m fun e => { e with loaded := true })) ∧
    (¬ s.loadedOnce i →
      execTrackdataLoad m s = .next ((s.loadTracks i n).modInst m fun e => { e with loaded := true })) := by
  have hiff : (s.insts.any fun e => e.2.kernel = i.kernel && e.2.node = i.node && e.2.loaded) = true ↔ s.loadedOnce i := by
    simp [State.loadedOnce, and_assoc]
  have hgo : (i.st != 2 || i.begun || i.loaded || !s.issues (s.instPart i)) = false := by
    simp [hst, hb, hl, State.issues_of_running hp]
  simp only [execTrackdataLoad, hi, hn, hgo, Bool.false_eq_true, if_false]
  refine ⟨fun h => ?_, fun h => ?_⟩
  · rw [if_pos (hiff.mpr h)]
  · rw [if_neg (mt hiff.mp h)]
    rfl

theorem execTrackdataLoad_loads (hi : s.insts.get? m = some i) (hn : s.nodeOf i = some n) (hst : i.st = 2)
    (hb : i.begun = false) (hl : i.loaded = false) (hp : (s.part (s.instPart i)).pstate = 0) :
    ∃ t, execTrackdataLoad m s = .next t ∧ (t.insts.get? m).map (·.loaded) = some true ∧
      ∀ own tr l bs, ¬ s.loadedOnce i → i.cores = [core] → i.tracks = [[own]] → n.loads = [l] → l.track = 0 →
        l.count = 1 →
        l.pos < 4096 → tr = (s.commonTrack core (s.instPart i) 0).getD own →
        s.readGlobal (s.instPart i) l.addr 128 = some bs → bs.length = 128 → s.MemWf →
        (t.track core tr).ppos = (l.pos + 1) % 4096 ∧ (t.track core tr).postmark l.pos = l.pos % 16 ∧
        ∀ b, b < 128 → t.mem.read (trackKey core tr l.pos b) = bs.getD b 0 := by
  obtain ⟨honce, hload⟩ := execTrackdataLoad_eq hi hn hst hb hl hp
  by_cases h : s.loadedOnce i
  · refine ⟨_, honce h, by rw [State.insts_modInst_self hi]; rfl, fun _ _ _ _ hnot => absurd h hnot⟩
  · refine ⟨_, hload h, by rw [State.insts_modInst_self (by rw [State.loadTracks_insts, hi])]; rfl, ?_⟩
    intro own tr l bs _ hc ht hloads h0 hcount hpos htr hr hlen hw
    subst htr
    rw [State.loadTracks_one hc ht hloads h0]
    exact State.loadTrack_one hcount hpos hr hlen hw

end Sys2Proof.Machine
end

section
/-! PROOF (O48). The statement, from the clauses on the dispatcher, the start of instances, the instances of a copy and the events
of contexts. -/
namespace Sys2Proof.Machine

/-- Settles O48: every event is brought to the state it leaves, whose parts are then read off. -/
theorem dispatch : Obligations.Dispatch := by
  unfold Obligations.Dispatch
  intro s p m j k cid core slot i n u c rest
  refine ⟨fun hpool hp hi => ⟨?_, ?_, ?_⟩, fun hi hn hu hp => ⟨?_, ?_, ?_, ?_, ?_⟩, ?_,
    fun h hc hp => ⟨?_, fun hi => ⟨?_, ?_⟩⟩⟩
  · intro cores hpl hkeys hplace hroom hb he
    exact execDispatchPick_head hpool hp hi hpl hkeys hplace hroom hb he
  · exact fun hkeys hplace ht => execAgeplaceExpiry_waiting hpool hp hkeys hplace ht
  · exact fun hkeys hr ht hown => execAgekeyExpiry_waiting hpool hp hi hkeys hr ht hown
  · intro hstart hst hb hl _ hc hg hsp _ he hfree
    obtain ⟨t, v, slot, lin, roles, hexec, hend, hslot, hctx, hinst, hser⟩ :=
      execInstanceStart_first hi hn hu hp hstart hst hb hl hc hg hsp he hfree
    refine ⟨t, _, hexec, hctx, rfl, hslot, rfl, rfl, rfl, ?_,
      rfl, rfl, rfl, rfl, rfl, rfl, rfl, rfl, rfl, rfl, rfl, hinst, hser⟩
    rw [← hend]
    rfl
  · exact execInstanceStart_faulting hi hn hu
  · intro hst hb hl hpart
    obtain ⟨honce, -⟩ := execTrackdataLoad_eq hi hn hst hb hl (hpart ▸ hp)
    obtain ⟨t, hexec, hloaded, hone⟩ := execTrackdataLoad_loads (core := core) hi hn hst hb hl (hpart ▸ hp)
    rw [hpart] at hone
    exact ⟨honce, t, hexec, hloaded, hone⟩
  · exact fun hst hdone => (execEdgeRelease_eq hi).trans (by simp [hst, hdone])
  · exact fun hst hdone => (execEdgeRelease_eq hi).trans (by simp [hst, hdone])
  · exact execSpawnEnqueue_copy
  · exact fun hout hd hu => ⟨execBudgetExpiry_user h hp hout hd hu, fun f l => execDeferredTrap_user h hp hout hd hu⟩
  · exact fun q z hout hg hpool hkeys hplace hv hz hdr =>
      execContextPreempt_victim h hc hp hi hout hg hpool hkeys hplace hv hz hdr
  · exact fun hout hs hb hg hgang hcore hstart hslot =>
      execContextResume_placed h hc hp hi hout hs hb hg hgang hcore hstart hslot

end Sys2Proof.Machine
end

section
/-! How scalar operands stop an instruction (O6), and the frame of the scalar instructions (O5). -/
namespace Sys2Proof.Machine

variable {s t u : State}

/-! ## Reads that complete nothing (R55, R56) -/

/-- The kill of a register's entry has been delivered (R56). -/
def State.killDelivered (s : State) (idx : Nat) : State :=
  s.onCx fun c => { c with st := { c.st with killed := c.st.killed.erase idx } }

theorem readSNum_of_poison {n idx : Nat} (hn : n ≠ 0) (hp : s.cx.r.sPoison.get? n = some idx) :
    readSNum n s = .error (.trapIn cPOISON (poisonInfo idx) (s.killDelivered idx)) := by
  simp only [readSNum, M.bind_get, hn, if_false, hp]
  rfl

theorem readSNum_of_pending {n : Nat} (hn : n ≠ 0) (hp : s.cx.r.sPoison.get? n = none)
    (hw : s.cx.r.sPend.has n = true ∨ s.cx.r.sFly.has n = true) : readSNum n s = .error (.stall (.reg 0 n)) := by
  have hw' : (s.cx.r.sPend.has n || s.cx.r.sFly.has n) = true := by simpa using hw
  simp only [readSNum, M.bind_get, hn, if_false, hp, hw', if_true, stall_run]

theorem readSNum_of_unmapped {n : Nat} (hn : n ≠ 0) (hp : s.cx.r.sPoison.get? n = none) (hq : s.cx.r.sPend.has n = false)
    (hf : s.cx.r.sFly.has n = false) (hs : s.cx.r.s.get? n = none) (hu : s.cx.c.mode.getLsbD 0 = true) :
    readSNum n s = .error (.trap cFREEDREG (freedInfo 0 n)) := by
  simp [readSNum, hn, hp, hq, hf, hs, Ctl.udread, hu]

/-! ## The stops of a one-source instruction (R54-R56) -/

/-- What ends the read ends the instruction. -/
theorem sOp1_of_error {d : Nat} {a : Src} {f : Word → Word} {e : Stop} (h : readSNum a.n s = .error e) :
    sOp1 d a f s = .error e :=
  M.bind_of_error h

/-- Without room for the destination the read and the free are undone by the trap (R54). -/
theorem sOp1_of_full {d : Nat} {a : Src} {f : Word → Word} {x : Word} (h : s.operands [a] = some ([x], u))
    (hd : u.roomS d = false) : sOp1 d a f s = .error (.trap cILLOP (subInfo 0 1)) := by
  obtain ⟨t, h1, rfl⟩ := operands_one h
  unfold sOp1
  rw [M.bind_of_ok (readS_of_readsS h1), M.bind_of_ok (freeS_run a)]
  exact M.bind_of_error (f := fun _ => advance) (writeS_of_full hd)

/-- Settles O6: `mov` is a one-source instruction, and each stop of its read or write is one of the cases above. -/
theorem scalarOperandStops : Obligations.ScalarOperandStops := by
  unfold Obligations.ScalarOperandStops
  intro s u d a x
  refine ⟨fun h hd => run_of_trap (sOp1_of_full h hd), fun hn hp hw => run_of_stall (sOp1_of_error (readSNum_of_pending hn hp hw)),
    fun hn hp hq hf hs hu => ?_, fun idx hn hp => ?_⟩
  · rw [show BitVec.ofNat 64 a.n = freedInfo 0 a.n by simp [freedInfo]]
    exact run_of_trap (sOp1_of_error (readSNum_of_unmapped hn hp hq hf hs hu))
  · have h : sOp1 d a id s = _ := sOp1_of_error (readSNum_of_poison hn hp)
    show run (sOp1 d a id) s = _
    simp only [run, h]
    rfl

/-! ## What reads, frees and writes leave (R52, R53) -/

theorem readsSs_same : ∀ {l : List Nat} {s t : State} {xs : List Word}, s.readsSs l = some (xs, t) →
    t = { s with free := t.free } ∧ xs.length = l.length
  | [], s, t, xs, h => by cases h; exact ⟨rfl, rfl⟩
  | n :: l, s, t, xs, h => by
    simp only [State.readsSs] at h
    split at h
    · cases h
    · rename_i x u h1
      split at h
      · cases h
      · rename_i ys w h2
        cases h
        obtain ⟨hw, hl⟩ := readsSs_same h2
        refine ⟨?_, by simp [hl]⟩
        rw [hw, readsS_same h1]

/-- A last-use free changes the scalar registers at most. -/
theorem freedS_same : ∀ (l : List Src) (s : State), ∃ x, s.freedS l = s.onRegs fun r => { r with s := x }
  | [], s => ⟨s.cx.r.s, rfl⟩
  | a :: l, s => by
    obtain ⟨x, hx⟩ := freedS_same l (if a.last && a.n != 0 then s.onRegs fun r => { r with s := r.s.erase a.n } else s)
    exact ⟨x, hx.trans (by split <;> rfl)⟩

/-- A register that no freed source names keeps its value. -/
theorem freedS_get?_of_kept {n : Nat} : ∀ {l : List Src} {s : State}, (∀ a ∈ l, a.last = true → a.n ≠ n) →
    (s.freedS l).cx.r.s.get? n = s.cx.r.s.get? n
  | [], _, _ => rfl
  | a :: l, s, h => by
    obtain ⟨ha, hl⟩ := List.forall_mem_cons.mp h
    simp only [State.freedS]
    rw [freedS_get?_of_kept hl]
    split
    · rename_i hc
      simp only [Bool.and_eq_true] at hc
      exact Tab.get?_erase_ne _ (Ne.symm (ha hc.1))
    · rfl

/-- An unmapped register stays unmapped. -/
theorem freedS_get?_of_none {n : Nat} : ∀ {l : List Src} {s : State}, s.cx.r.s.get? n = none →
    (s.freedS l).cx.r.s.get? n = none
  | [], _, h => h
  | a :: l, s, h => by
    refine freedS_get?_of_none (l := l) ?_
    split
    · by_cases hn : n = a.n
      · subst hn; exact Tab.get?_erase_self _ _
      · exact (Tab.get?_erase_ne _ hn).trans h
    · exact h

/-- A source marked last-use is unmapped (R53). -/
theorem freedS_get?_of_last {c : Src} {l : List Src} (hc : c.last = true) (h0 : c.n ≠ 0) (h : c ∈ l) :
    (s.freedS l).cx.r.s.get? c.n = none := by
  induction l generalizing s with
  | nil => cases h
  | cons a l ih =>
    rcases List.mem_cons.mp h with rfl | h
    · refine freedS_get?_of_none (l := l) ?_
      rw [if_pos (by simp [hc, h0])]
      exact Tab.get?_erase_self _ _
    · exact ih h

/-- A write changes the scalar registers and what is noted of them. -/
theorem gotS_get?_ne {d n : Nat} (x : Word) (h : n ≠ d) : (s.gotS d x).cx.r.s.get? n = s.cx.r.s.get? n := by
  unfold State.gotS
  split
  · rfl
  · exact Tab.get?_set_ne _ _ h

theorem gotS_get?_self {d : Nat} (x : Word) (h : d ≠ 0) : (s.gotS d x).cx.r.s.get? d = some x := by
  unfold State.gotS
  rw [if_neg h]
  exact Tab.get?_set_self _ _ _

theorem gotS_zero (x : Word) : s.gotS 0 x = s := rfl

/-- A write changes no vector, mask or branch-target register. -/
theorem gotS_same (s : State) (d : Nat) (x : Word) :
    ∃ r, s.gotS d x = s.onRegs (fun _ => r) ∧ r.v = s.cx.r.v ∧ r.k = s.cx.r.k ∧ r.b = s.cx.r.b := by
  unfold State.gotS
  split
  · exact ⟨s.cx.r, rfl, rfl, rfl, rfl⟩
  · exact ⟨s.cx.r.putS d x, rfl, rfl, rfl, rfl⟩

/-- Going on changes the program counter or the place in a microprogram. -/
theorem gone_same (s : State) : ∃ p m, s.gone = s.onCx fun c => { c with pc := p, micro := m } := by
  unfold State.gone Ctx.advanced
  split
  · exact ⟨s.cx.npc, s.cx.micro, rfl⟩
  · split
    · exact ⟨s.cx.pc, _, rfl⟩
    · exact ⟨_, none, rfl⟩

@[simp] theorem gone_r : s.gone.cx.r = s.cx.r := by
  obtain ⟨p, m, h⟩ := gone_same s
  rw [h]
  rfl

/-! ## Every register-only scalar instruction writes one result -/

theorem operands_split {l : List Src} {xs : List Word} (h : s.operands l = some (xs, u)) :
    ∃ t : State, t = { s with free := t.free } ∧ u = t.freedS l ∧ xs.length = l.length := by
  unfold State.operands at h
  split at h
  · cases h
  · rename_i ys t h1
    cases h
    obtain ⟨ht, hl⟩ := readsSs_same h1
    exact ⟨t, ht, rfl, by simpa using hl⟩

section
variable {d : Nat} {srcs : List Src} {xs : List Word}

/-- The instruction `m` writes one result to its destination, computed from its sources, and goes on. -/
def WritesOne (m : State → Host.Outcome State Fault Refusal) (s u : State) (d : Nat) : Prop :=
  ∃ y, m s = .next (u.gotS d y).gone

theorem sOp1_writes {a : Src} (f : Word → Word) (h : s.operands [a] = some (xs, u)) (hd : u.roomS d = true) :
    WritesOne (run (sOp1 d a f)) s u d := by
  obtain ⟨-, -, -, hl⟩ := operands_split h
  obtain ⟨x, rfl⟩ := List.length_eq_one_iff.mp hl
  exact ⟨f x, sOp1_run h hd⟩

theorem sOp2_writes {a b : Src} (f : Word → Word → Word) (h : s.operands [a, b] = some (xs, u)) (hd : u.roomS d = true) :
    WritesOne (run (sOp2 d a b f)) s u d := by
  obtain ⟨-, -, -, hl⟩ := operands_split h
  obtain ⟨x, y, rfl⟩ := List.length_eq_two.mp hl
  exact ⟨f x y, sOp2_run h hd⟩

theorem sOp3_writes {a b c : Src} (f : Word → Word → Word → Word) (h : s.operands [a, b, c] = some (xs, u))
    (hd : u.roomS d = true) : WritesOne (run (sOp3 d a b c f)) s u d := by
  obtain ⟨-, -, -, hl⟩ := operands_split h
  obtain ⟨x, y, z, rfl⟩ := List.length_eq_three.mp hl
  exact ⟨f x y z, sOp3_run h hd⟩

theorem li_writes {imm : Int} (h : s.operands [] = some (xs, u)) (hd : u.roomS d = true) :
    WritesOne (exec (.li d imm)) s u d := by
  cases h
  exact ⟨immW imm, run_of_ok (M.bind_of_ok (f := fun _ => advance) (writeS_of_roomS hd))⟩

/-- The shapes of Safety.lean are the shapes that the meanings are written with. -/
theorem exec_of_scalarShape {i : Instr} (hi : scalarShape i = some (d, srcs)) (h : s.operands srcs = some (xs, u))
    (hd : u.roomS d = true) : WritesOne (exec i) s u d := by
  cases i with
  | add | sub | and | or | xor | slt | sltu | seq | mul | mulh | mulhu | div | divu | rem | remu | sll | srl | sra
  | min | max | minu | maxu | lea | bins => cases hi; exact sOp2_writes _ h hd
  | addi | slli | srli | srai | mov | clz | ctz | popc | bext | sext | zext | andi | ori | xori =>
    cases hi; exact sOp1_writes _ h hd
  | fshr | sel => cases hi; exact sOp3_writes _ h hd
  | li => cases hi; exact li_writes h hd
  | _ => cases hi

end

/-- What the result of a scalar instruction leaves as it was. -/
theorem scalarResult_frame {d : Nat} {srcs : List Src} {xs : List Word} (y : Word) (h : s.operands srcs = some (xs, u)) :
    let t := (u.gotS d y).gone
    t = { s with cx := t.cx, free := t.free } ∧ t.cx = { s.cx with r := t.cx.r, pc := t.cx.pc, micro := t.cx.micro } ∧
      t.cx.r.v = s.cx.r.v ∧ t.cx.r.k = s.cx.r.k ∧ t.cx.r.b = s.cx.r.b := by
  obtain ⟨w, hw, rfl, -⟩ := operands_split h
  obtain ⟨x, hx⟩ := freedS_same srcs w
  rw [hx]
  obtain ⟨r, hr, hv, hk, hb⟩ := gotS_same (w.onRegs fun r => { r with s := x }) d y
  rw [hr]
  obtain ⟨p, m, hg⟩ := gone_same ((w.onRegs fun r => { r with s := x }).onRegs fun _ => r)
  rw [hg]
  rw [hw] at hv hk hb ⊢
  exact ⟨rfl, rfl, hv, hk, hb⟩

/-- A register that is neither the destination nor freed keeps its value. -/
theorem scalarResult_get?_ne {d n : Nat} {srcs : List Src} {xs : List Word} (y : Word) (h : s.operands srcs = some (xs, u))
    (hn : n ≠ d) (hf : ∀ a ∈ srcs, a.last = true → a.n ≠ n) : (u.gotS d y).gone.cx.r.s.get? n = s.cx.r.s.get? n := by
  obtain ⟨w, hw, rfl, -⟩ := operands_split h
  rw [gone_r, gotS_get?_ne y hn, freedS_get?_of_kept hf, hw]

/-- Settles O5: every register-only scalar instruction writes one result, whose frame is that of reads, frees and a write. -/
theorem scalarFrame : Obligations.ScalarFrame := by
  unfold Obligations.ScalarFrame
  constructor
  · intro s u i d srcs xs hi h hd
    obtain ⟨y, hy⟩ := exec_of_scalarShape hi h hd
    obtain ⟨hs, hcx, hv, hk, hb⟩ := scalarResult_frame (d := d) y h
    exact ⟨_, hy, hs, hcx, hv, hk, hb, fun n hn hf => scalarResult_get?_ne y h hn hf, fun a => by rw [hs]⟩
  · intro s u d a b x y h hd
    obtain ⟨w, hw, hu, -⟩ := operands_split h
    refine ⟨_, sOp2_run h hd, fun c hc hl h0 hcd => ?_, fun h0 => ?_, fun h0 n hf => ?_⟩
    · rw [gone_r, gotS_get?_ne _ hcd, hu, freedS_get?_of_last hl h0 hc]
    · rw [gone_r, gotS_get?_self _ h0]
    · rw [gone_r, h0, gotS_zero, hu, freedS_get?_of_kept hf, hw]

end Sys2Proof.Machine
end

section
/-! Control registers (O8, O9) and the taking of a trap (O12). -/
namespace Sys2Proof.Machine

variable {s t u : State} {d ctl : Nat} {a : Src} {v : Word}

/-! ## Guards of a meaning -/

/-- A guard that passes, or is not asked. -/
theorem M.guard_pass {β : Type} {c : Prop} [Decidable c] {m : M Unit} {f : Unit → M β} (h : c → m s = .ok ((), s)) :
    (if c then m >>= f else f ()) s = f () s := by
  split
  · rename_i hc; exact M.bind_of_ok (h hc)
  · rfl

/-- A guard that ends the instruction. -/
theorem M.guard_stop {α β : Type} {c : Prop} [Decidable c] {m : M α} {n : M β} {e : Stop} {f : α → M β} (hc : c)
    (h : m s = .error e) : (if c then m >>= f else n) s = .error e := by
  rw [if_pos hc]; exact M.bind_of_error h

theorem needSeed_of_free (h : s.seedFree = true) : needSeed s = .ok ((), s) := by
  simp only [State.seedFree, Bool.not_eq_true'] at h
  simp only [needSeed, M.bind_get, h]
  rfl

/-- What a completed read and its frees leave as it was: all but the scalar registers and the count of free values. -/
theorem operands_same {l : List Src} {xs : List Word} (h : s.operands l = some (xs, u)) :
    ∃ n x, u = ({ s with free := n } : State).onRegs fun r => { r with s := x } := by
  obtain ⟨t, ht, rfl, -⟩ := operands_split h
  obtain ⟨x, hx⟩ := freedS_same l t
  exact ⟨t.free, x, by rw [hx, ht]⟩

/-! ## Reading (R57, R58, R66, R137) -/

/-- The list of the contents, index by index. -/
theorem control_getD (h : ctl < 18) : s.control.getD ctl 0 = s.ctlRead ctl := by
  interval_cases ctl <;> rfl

theorem mfc_reads (hd : s.cx.drain = none) (hctl : ctl < 18) (hsup : ctlSupRead ctl = true → s.cx.sup = true)
    (hseed : ctl = 12 → s.seedFree = true) (hroom : s.roomS d = true) :
    exec (.mfc d ctl) s = .next (s.gotS d (s.ctlRead ctl)).gone := by
  refine run_of_ok ((M.bind_of_ok (notInDrain_of hd)).trans ?_)
  refine (M.guard_pass fun h => absurd h (Nat.not_le.mpr hctl)).trans ?_
  refine (M.guard_pass fun h => needSup_of (hsup h)).trans ?_
  refine (M.guard_pass fun h => needSeed_of_free (hseed h)).trans ?_
  exact M.bind_of_ok (f := fun _ => advance) (writeS_of_roomS hroom)

theorem mfc_privileged (hd : s.cx.drain = none) (hctl : ctl < 18) (hc : ctlSupRead ctl = true) (hu : s.cx.sup = false) :
    exec (.mfc d ctl) s = .next (takeTrap s cPRIV (opWord 2 (.mfc d ctl))) := by
  refine run_of_trap ((M.bind_of_ok (notInDrain_of hd)).trans ?_)
  refine (M.guard_pass fun h => absurd h (Nat.not_le.mpr hctl)).trans ?_
  exact M.guard_stop hc (needSup_of_user hu)

/-- The information of an `ILLOP` of `mfc` and `mtc` (R57). -/
theorem ctlIllop_run {α : Type} (reason : Nat) : (ctlIllop ctl reason : M α) s =
    .error (.trap cILLOP (BitVec.ofNat 64 (0x10 * 2 ^ 56 + reason * 256 + ctl % 64))) := by
  rw [Nat.add_assoc]; rfl

theorem mfc_undefined (hd : s.cx.drain = none) (hctl : 18 ≤ ctl) :
    exec (.mfc d ctl) s = .next (takeTrap s cILLOP (BitVec.ofNat 64 (0x10 * 2 ^ 56 + 2 * 256 + ctl % 64))) :=
  run_of_trap ((M.bind_of_ok (notInDrain_of hd)).trans (M.guard_stop hctl (ctlIllop_run 2)))

theorem rdtime_reads (hd : s.cx.drain = none) (hroom : s.roomS d = true) :
    exec (.rdtime d) s = .next ({ s.gotS d (BitVec.ofNat 64 s.time) with timeRead := true } : State).gone := by
  refine run_of_ok ((M.bind_of_ok (notInDrain_of hd)).trans ?_)
  rw [M.bind_get, M.bind_of_ok (writeS_of_roomS hroom)]
  rfl

theorem rdcyc_reads (hd : s.cx.drain = none) (hroom : s.roomS d = true) :
    exec (.rdcyc d) s = .next (s.gotS d (BitVec.ofNat 64 (s.core s.cx.id.core).cyc)).gone := by
  refine run_of_ok ((M.bind_of_ok (notInDrain_of hd)).trans ?_)
  rw [M.bind_get]
  exact M.bind_of_ok (f := fun _ => advance) (writeS_of_roomS hroom)

/-! ## Writing (R57) -/

/-- A faulted access of the partition stands posted in its ring (R67). -/
def State.ringInUse (s : State) : Bool := s.bads.any fun e => e.2.part = s.cx.id.part && e.2.posted.isSome

/-- The level of the context in hand may write a control register. -/
structure State.MayWrite (s : State) (ctl : Nat) : Prop where
  drain : s.cx.drain = none
  index : ctl < 18
  writable : ctlReadOnly ctl = false
  level : ctlSupWrite ctl = true → s.cx.sup = true

/-- A control register takes a value: no check of R57 to R67 refuses it. -/
structure State.Takes (s : State) (ctl : Nat) (v : Word) : Prop extends s.MayWrite ctl where
  bits : v &&& ~~~ctlBits ctl = 0
  value : ctlRefuses ctl v = false
  ring : ctl = 16 → s.ringInUse = false
  seed : ctl = 12 → s.seedFree = true

/-- The checks of the value, which follow the read of the source. -/
def mtcChecked (ctl : Nat) (a : Src) (v : Word) : M Unit := do
  if v &&& ~~~ctlBits ctl != 0 then ctlIllop ctl 3
  if ctlRefuses ctl v then ctlIllop ctl 4
  let st ← get
  if ctl = 16 && (st.bads.any fun e => e.2.part = st.cx.id.part && e.2.posted.isSome) then ctlIllop ctl 5
  if ctl = 12 then needSeed
  freeS a
  ctlWrite ctl v
  advance

/-- `mtc` of a register that may be written reads its source and checks the value. -/
theorem mtc_eq_checked (h : s.MayWrite ctl) (hr : s.readsS a.n = some (v, t)) :
    exec (.mtc ctl a) s = run (fun _ => mtcChecked ctl a v t) s := by
  refine congrArg (fun m => run (fun _ => m) s) ((M.bind_of_ok (notInDrain_of h.drain)).trans ?_)
  refine (M.guard_pass fun hc => absurd hc (Nat.not_le.mpr h.index)).trans ?_
  refine (M.guard_pass fun hc => absurd hc (by simp [h.writable])).trans ?_
  refine (M.guard_pass fun hc => needSup_of (h.level hc)).trans ?_
  exact M.bind_of_ok (readS_of_readsS hr)

/-- A value that the register takes is written after the source's free. -/
theorem mtc_of_takes (h : s.Takes ctl v) (hop : s.operands [a] = some ([v], u)) :
    exec (.mtc ctl a) s = run (fun _ => (do ctlWrite ctl v; advance : M Unit) u) s := by
  obtain ⟨t, hr, rfl⟩ := operands_one hop
  rw [mtc_eq_checked h.toMayWrite hr]
  have ht := readsS_same hr
  have hring : ctl = 16 → t.ringInUse = false := fun hc => by rw [ht]; exact h.ring hc
  have hseed : ctl = 12 → t.seedFree = true := fun hc => by rw [ht]; exact h.seed hc
  refine congrArg (fun m => run (fun _ => m) s) ?_
  unfold mtcChecked
  refine (M.guard_pass fun hc => absurd hc (by simp [h.bits])).trans ?_
  refine (M.guard_pass fun hc => absurd hc (by simp [h.value])).trans ?_
  refine (M.bind_get _).trans ((M.guard_pass fun hc => ?_).trans ?_)
  · obtain ⟨hc, huse⟩ := (Bool.and_eq_true _ _).mp hc
    exact Bool.noConfusion ((hring (of_decide_eq_true hc)).symm.trans huse)
  · refine (M.guard_pass fun hc => needSeed_of_free (hseed hc)).trans ?_
    exact M.bind_of_ok (freeS_run a)

theorem mtc_next {w : State} (h : s.Takes ctl v) (hop : s.operands [a] = some ([v], u))
    (hw : ctlWrite ctl v u = .ok ((), w)) : exec (.mtc ctl a) s = .next w.gone := by
  rw [mtc_of_takes h hop]
  exact run_of_ok (M.bind_of_ok (f := fun _ => advance) hw)

/-! ## The bits of a value (R57) -/

theorem getLsbD_low (k i : Nat) : (BitVec.ofNat 64 (2 ^ k - 1)).getLsbD i = (decide (i < 64) && decide (i < k)) := by
  rw [BitVec.getLsbD_ofNat, Nat.testBit_two_pow_sub_one]

/-- A value has no bit at `k` or above where it is below `2 ^ k`. -/
theorem and_not_low_eq_zero {k : Nat} : v &&& ~~~BitVec.ofNat 64 (2 ^ k - 1) = 0 ↔ v.toNat < 2 ^ k := by
  have hbit (i : Nat) : (v &&& ~~~BitVec.ofNat 64 (2 ^ k - 1)).getLsbD i = (v.toNat.testBit i && !decide (i < k)) := by
    rw [BitVec.getLsbD_and, BitVec.getLsbD_not, getLsbD_low, BitVec.testBit_toNat]
    by_cases h : i < 64
    · simp [h]
    · simp [h, BitVec.getLsbD_of_ge v i (Nat.le_of_not_lt h)]
  constructor
  · intro h
    refine Nat.lt_pow_two_of_testBit _ fun i hi => ?_
    simpa [h, Nat.not_lt.mpr hi] using (hbit i).symm
  · intro h
    refine BitVec.eq_of_getLsbD_eq fun i _ => (hbit i).trans ?_
    by_cases hk : i < k
    · simp [hk]
    · simp [Nat.testBit_lt_two_pow (Nat.lt_of_lt_of_le h (Nat.pow_le_pow_right (by decide) (Nat.le_of_not_lt hk)))]

theorem and_not_allOnes : v &&& ~~~BitVec.allOnes 64 = 0 := by simp

/-! ## The bank roles (R64) -/

@[simp] theorem gone_c : s.gone.cx.c = s.cx.c := by
  obtain ⟨p, m, h⟩ := gone_same s
  rw [h]
  rfl

theorem settleEach_cx (l : List Line) (s : State) :
    (l.foldl (fun s l => s.settle (lineWords l.line l.written)) s).cx = s.cx :=
  foldl_keeps (g := State.cx) (f := fun s (l : Line) => s.settle (lineWords l.line l.written)) (fun _ _ => rfl) l s

theorem State.withMem_cx (m : Memory) : ({ s with mem := m } : State).cx = s.cx := rfl

theorem scramble_cx (core bank n : Nat) : (s.scramble core bank n).cx = s.cx := State.withMem_cx _

theorem scrambleEach_cx (p : Nat → Bool) (core : Nat) (bank num : Nat → Nat) (l : List Nat) (s : State) :
    (l.foldl (fun s i => if p i then s.scramble core (bank i) (num i) else s) s).cx = s.cx :=
  foldl_keeps (g := State.cx) (f := fun s i => if p i then s.scramble core (bank i) (num i) else s)
    (fun s i => by
      split
      · exact scramble_cx ..
      · rfl) l s

/-- A change of the roles changes `brole` among the control registers, and no register. -/
theorem setRoles_run (v : Word) (s : State) : ∃ t, setRoles v s = .ok ((), t) ∧ t.cx.c = { s.cx.c with brole := v } ∧
    t.cx.r = s.cx.r := by
  unfold setRoles
  rw [M.bind_get, M.bind_modCtl, M.bind_modify]
  generalize hX : List.foldl _ _ _ = X
  have hcx := (congrArg State.cx hX).symm.trans (settleEach_cx ..)
  rw [M.bind_modCx, M.bind_get, M.bind_fresh]
  refine ⟨_, rfl, ?_⟩
  rw [scrambleEach_cx]
  simp only [State.onCx, hcx]
  exact ⟨rfl, rfl⟩

/-- `brole` with the fields of undeclared banks at 0. -/
theorem ctlWrite_brole_same {v w : Word} (hw : w = broleMask s.cx.decl.banks.length v) (h : w = s.cx.c.brole) :
    ctlWrite 11 v s = .ok ((), s) := by
  subst hw
  simp only [ctlWrite, M.bind_get, h, if_true, M.pure_run]

theorem ctlWrite_brole_new {v w : Word} (hw : w = broleMask s.cx.decl.banks.length v) (h : w ≠ s.cx.c.brole)
    (hc : s.cx.cnt = ⟨0, 0, 0, 0, 0⟩) : ctlWrite 11 v s = setRoles w s := by
  subst hw
  simp only [ctlWrite, M.bind_get, h, if_false]
  exact M.bind_of_ok (needClasses_of (by rw [hc]; rfl))

theorem needClasses_of_busy {l st c m h : Nat} (hc : s.cx.cnt.within l st c m h = false) :
    needClasses l st c m h s = .error (.stall (.classes l st c m h)) := by
  simp only [needClasses, M.bind_get, hc]
  rfl

/-- No class has an operation outstanding where every count is zero (R68). -/
theorem Counts.within_zero {c : Counts} : c.within 0 0 0 0 0 = true ↔ c = ⟨0, 0, 0, 0, 0⟩ := by
  obtain ⟨l, st, cp, m, h⟩ := c
  simp [Counts.within, and_assoc]

theorem ctlWrite_brole_busy {v w : Word} (hw : w = broleMask s.cx.decl.banks.length v) (h : w ≠ s.cx.c.brole)
    (hc : s.cx.cnt ≠ ⟨0, 0, 0, 0, 0⟩) : ctlWrite 11 v s = .error (.stall (.classes 0 0 0 0 0)) := by
  subst hw
  simp only [ctlWrite, M.bind_get, h, if_false]
  exact M.bind_of_error (needClasses_of_busy (Bool.eq_false_iff.mpr fun hw => hc (Counts.within_zero.mp hw)))

/-! ## The registers, each with its checks -/

/-- The checks of a register without a check of its own; `ctl` is a number, and each premise is found by evaluation. -/
theorem State.takes_of_bits (hd : s.cx.drain = none) (bits : v &&& ~~~ctlBits ctl = 0)
    (level : ctlSupWrite ctl = true → s.cx.sup = true) (hctl : ctl < 18 := by decide)
    (writable : ctlReadOnly ctl = false := by rfl) (value : ctlRefuses ctl v = false := by rfl)
    (ring : ctl ≠ 16 := by decide) (seed : ctl ≠ 12 := by decide) : s.Takes ctl v :=
  ⟨⟨hd, hctl, writable, level⟩, bits, value, fun h => absurd h ring, fun h => absurd h seed⟩

/-- Settles O8: reading is one write of a scalar register, and writing one change of a control register, where the checks of
the register pass. -/
theorem controlRegisters : Obligations.ControlRegisters := by
  unfold Obligations.ControlRegisters
  constructor
  · intro s d ctl hnd
    have hd := State.notDrain_iff.mp hnd
    refine ⟨fun hctl hsup hseed hroom => ?_, fun hc hu => ?_, fun hctl => mfc_undefined hd hctl,
      fun hroom => ⟨rdtime_reads hd hroom, rdcyc_reads hd hroom⟩⟩
    · rw [control_getD hctl]
      exact mfc_reads hd hctl (fun h => hsup (by simpa [ctlSupRead] using h)) hseed hroom
    · exact mfc_privileged hd (by omega) (by simpa [ctlSupRead] using hc) hu
  · intro s u a v hnd hop
    have hd := State.notDrain_iff.mp hnd
    refine ⟨fun hb hv => ?_, fun hb => ?_, fun hs => ⟨fun hb => ?_, fun hb => ⟨?_, ?_⟩, ?_, fun hb => ?_, ?_,
      fun hb hlo hhi hring => ?_⟩, fun hseed => ?_, fun hlo hhi => ?_,
      fun w hw => ⟨fun h => ?_, fun h hc => ?_, fun h hc => ?_⟩⟩
    · have hval : ctlRefuses 3 v = false := by
        have h16 : v.toNat < 16 := hb
        simp only [ctlRefuses, decide_eq_false_iff_not]
        omega
      exact mtc_next (State.takes_of_bits hd (and_not_low_eq_zero (k := 4).mpr hb) (fun h => by cases h) (value := hval)) hop rfl
    · exact mtc_next (State.takes_of_bits hd (and_not_low_eq_zero (k := 9).mpr hb) fun h => by cases h) hop rfl
    · exact mtc_next (State.takes_of_bits hd hb fun _ => hs) hop rfl
    · exact mtc_next (State.takes_of_bits hd hb fun _ => hs) hop rfl
    · exact mtc_next (State.takes_of_bits hd hb fun _ => hs) hop rfl
    · exact mtc_next (State.takes_of_bits hd and_not_allOnes fun _ => hs) hop rfl
    · exact mtc_next (State.takes_of_bits hd (and_not_low_eq_zero (k := 32).mpr hb) fun _ => hs) hop rfl
    · exact mtc_next (State.takes_of_bits hd and_not_allOnes fun _ => hs) hop rfl
    · have hval : ctlRefuses 16 v = false := by
        have hlo' : 6 ≤ ringSize v := hlo
        have hhi' : ringSize v ≤ 16 := hhi
        simp [ctlRefuses, ringValid, hlo', hhi']
      have hfree : s.ringInUse = false := by
        simp only [State.ringInUse, List.any_eq_false, Bool.and_eq_true, decide_eq_true_eq, not_and, Bool.not_eq_true,
          Option.isSome_eq_false_iff, Option.isNone_iff_eq_none]
        exact fun e he hp => hring e he hp
      obtain ⟨n, x, rfl⟩ := operands_same hop
      exact mtc_next ⟨⟨hd, by decide, rfl, fun _ => hs⟩, hb, hval, fun _ => hfree, fun h => by cases h⟩ hop rfl
    · exact mtc_next ⟨⟨hd, by decide, rfl, fun h => by cases h⟩, and_not_allOnes, rfl, (fun h => by cases h), fun _ => hseed⟩
        hop rfl
    · have hval : ctlRefuses 17 v = false := by
        have h0 : v ≠ 0#64 := fun h => by simp [h] at hlo
        simp [ctlRefuses, h0, hhi]
      exact mtc_next (State.takes_of_bits hd (and_not_low_eq_zero (k := 13).mpr (by omega)) (fun h => by cases h)
        (value := hval)) hop rfl
    all_goals
      have htakes : s.Takes 11 v := State.takes_of_bits hd and_not_allOnes fun h => by cases h
      obtain ⟨n, x, rfl⟩ := operands_same hop
    · exact mtc_next htakes hop (ctlWrite_brole_same hw h)
    · obtain ⟨t, ht, hc', hr⟩ := setRoles_run w (({ s with free := n } : State).onRegs fun r => { r with s := x })
      refine ⟨_, mtc_next htakes hop (Eq.trans (ctlWrite_brole_new hw h hc) ht), ?_, ?_⟩
      · rw [gone_c, hc']; rfl
      · rw [gone_r, hr]
    · rw [mtc_of_takes htakes hop]
      exact run_of_stall (M.bind_of_error (ctlWrite_brole_busy hw h hc))

/-! ## What `mtc` refuses (R57, R58, R60, R62, R63, R67) -/

/-- A trap taken at the instruction, at user level and outside the drain slot. -/
theorem takeTrap_user {code : Nat} {info : Word} (hd : s.cx.drain = none) (hu : s.cx.sup = false) :
    takeTrap s code info = s.inHandler code info s.cx.pc := takeTrapAt_user hd hu

/-- `mtc` traps with `ILLOP` and a reason; at user level the reason stands in `tinfo`. -/
def State.Refuses (s : State) (ctl : Nat) (a : Src) (reason : Nat) : Prop :=
  let bad : Word := BitVec.ofNat 64 (0x10 * 2 ^ 56 + reason * 256 + ctl % 64)
  exec (.mtc ctl a) s = .next (takeTrap s cILLOP bad) ∧
    (s.cx.sup = false → exec (.mtc ctl a) s = .next (s.inHandler 0x01 bad s.cx.pc))

theorem State.refuses_of_trap {reason : Nat} {o : Except Stop (Unit × State)} (hd : s.cx.drain = none)
    (he : exec (.mtc ctl a) s = run (fun _ => o) s) (h : o = (ctlIllop ctl reason : M Unit) s) : s.Refuses ctl a reason := by
  have ht := he.trans (run_of_trap (h.trans (ctlIllop_run reason)))
  exact ⟨ht, fun hu => ht.trans (congrArg _ (takeTrap_user hd hu))⟩

theorem mtc_undefined (hd : s.cx.drain = none) (hctl : 18 ≤ ctl) : s.Refuses ctl a 2 :=
  State.refuses_of_trap hd rfl ((M.bind_of_ok (notInDrain_of hd)).trans (M.guard_stop hctl rfl))

theorem mtc_readOnly (hd : s.cx.drain = none) (hctl : ctl < 18) (hro : ctlReadOnly ctl = true) : s.Refuses ctl a 1 := by
  refine State.refuses_of_trap hd rfl ((M.bind_of_ok (notInDrain_of hd)).trans ?_)
  refine (M.guard_pass fun hc => absurd hc (Nat.not_le.mpr hctl)).trans ?_
  exact M.guard_stop hro rfl

theorem mtc_privileged (hd : s.cx.drain = none) (hctl : ctl < 18) (hro : ctlReadOnly ctl = false) (hsup : ctlSupWrite ctl = true)
    (hu : s.cx.sup = false) : exec (.mtc ctl a) s = .next (s.inHandler 0x04 (opWord 2 (.mtc ctl a)) s.cx.pc) := by
  refine (run_of_trap ((M.bind_of_ok (notInDrain_of hd)).trans ?_)).trans (congrArg _ (takeTrap_user hd hu))
  refine (M.guard_pass fun hc => absurd hc (Nat.not_le.mpr hctl)).trans ?_
  refine (M.guard_pass fun hc => absurd hc (by simp [hro])).trans ?_
  exact M.guard_stop hsup (needSup_of_user hu)

section
variable (h : s.MayWrite ctl) (hr : s.readsS a.n = some (v, t))
include h hr

/-- A reserved bit is reported first. -/
theorem mtc_reserved (hb : v &&& ~~~ctlBits ctl ≠ 0) : s.Refuses ctl a 3 := by
  refine State.refuses_of_trap h.drain (mtc_eq_checked h hr) ?_
  unfold mtcChecked
  exact M.guard_stop (by simpa using hb) rfl

theorem mtc_refusedValue (hb : v &&& ~~~ctlBits ctl = 0) (hv : ctlRefuses ctl v = true) : s.Refuses ctl a 4 := by
  refine State.refuses_of_trap h.drain (mtc_eq_checked h hr) ?_
  unfold mtcChecked
  refine (M.guard_pass fun hc => absurd hc (by simp [hb])).trans ?_
  exact M.guard_stop hv rfl

theorem mtc_ringInUse (hb : v &&& ~~~ctlBits ctl = 0) (hv : ctlRefuses ctl v = false) (h16 : ctl = 16)
    (huse : s.ringInUse = true) : s.Refuses ctl a 5 := by
  refine State.refuses_of_trap h.drain (mtc_eq_checked h hr) ?_
  have huse' : t.ringInUse = true := by rw [readsS_same hr]; exact huse
  unfold mtcChecked
  refine (M.guard_pass fun hc => absurd hc (by simp [hb])).trans ?_
  refine (M.guard_pass fun hc => absurd hc (by simp [hv])).trans ?_
  exact (M.bind_get _).trans (M.guard_stop (by rw [Bool.and_eq_true]; exact ⟨decide_eq_true h16, huse'⟩) rfl)

end

/-- The registers read-only at every level, and those that only a supervisor writes (R57). -/
theorem ctlReadOnly_of_mem : ∀ c ∈ [0, 1, 2, 13, 14, 15], c < 18 ∧ ctlReadOnly c = true := by decide
theorem ctlSupWrite_of_mem : ∀ c ∈ [5, 6, 7, 8, 9, 10, 16], c < 18 ∧ ctlReadOnly c = false ∧ ctlSupWrite c = true := by decide

/-- A register that any level writes. -/
theorem State.mayWrite_user (hd : s.cx.drain = none) (h : ctl ∈ [3, 4, 17]) : s.MayWrite ctl := by
  have hc : ∀ c ∈ [3, 4, 17], c < 18 ∧ ctlReadOnly c = false ∧ ctlSupWrite c = false := by decide
  obtain ⟨hlt, hro, hsup⟩ := hc ctl h
  exact ⟨hd, hlt, hro, fun hw => absurd hw (by simp [hsup])⟩

theorem State.mayWrite_supervisor (hd : s.cx.drain = none) (hs : s.cx.sup = true) (h : ctl ∈ [5, 6, 7, 8, 9, 10, 16]) :
    s.MayWrite ctl := by
  obtain ⟨hlt, hro, -⟩ := ctlSupWrite_of_mem ctl h
  exact ⟨hd, hlt, hro, fun _ => hs⟩

/-- Settles O9: the first check of the register that fails ends the instruction with its reason. -/
theorem controlRegisterWriteTraps : Obligations.ControlRegisterWriteTraps := by
  unfold Obligations.ControlRegisterWriteTraps
  intro s t a v ctl hnd bad refused
  have hd := State.notDrain_iff.mp hnd
  have low {k : Nat} (hk : v.toNat < 2 ^ k) := (and_not_low_eq_zero (k := k)).mpr hk
  have high {k : Nat} (hk : 2 ^ k ≤ v.toNat) : v &&& ~~~BitVec.ofNat 64 (2 ^ k - 1) ≠ 0 := fun h0 =>
    absurd (and_not_low_eq_zero.mp h0) (Nat.not_lt.mpr hk)
  refine ⟨mtc_undefined hd, fun hc => ?_, fun hc hu => ?_, fun hr => ⟨?_, ?_, ?_, ?_, ?_,
    fun hs => ⟨?_, ?_, ?_, ?_, ?_, ?_⟩⟩⟩
  · obtain ⟨hlt, hro⟩ := ctlReadOnly_of_mem ctl hc
    exact mtc_readOnly hd hlt hro
  · obtain ⟨hlt, hro, hsup⟩ := ctlSupWrite_of_mem ctl hc
    exact mtc_privileged hd hlt hro hsup hu
  · rintro rfl hv
    exact mtc_reserved (State.mayWrite_user hd (by decide)) hr (high (k := 4) hv)
  · rintro rfl hlo hhi
    refine mtc_refusedValue (State.mayWrite_user hd (by decide)) hr (low (k := 4) hhi) ?_
    simp only [ctlRefuses, decide_eq_true_eq]
    omega
  · rintro rfl hv
    exact mtc_reserved (State.mayWrite_user hd (by decide)) hr (high (k := 9) hv)
  · rintro rfl hv
    exact mtc_reserved (State.mayWrite_user hd (by decide)) hr (high (k := 13) hv)
  · rintro rfl hv
    have hlt : v.toNat < 2 ^ 13 := hv.elim (fun h => by simp [h]) fun h => h.2
    refine mtc_refusedValue (State.mayWrite_user hd (by decide)) hr (low hlt) ?_
    rcases hv with h | h
    · simp [ctlRefuses, h]
    · simp [ctlRefuses, h.1]
  · rintro rfl hb
    exact mtc_reserved (State.mayWrite_supervisor hd hs (by decide)) hr hb
  · rintro (rfl | rfl) hb
    · exact mtc_reserved (State.mayWrite_supervisor hd hs (by decide)) hr hb
    · exact mtc_reserved (State.mayWrite_supervisor hd hs (by decide)) hr hb
  · rintro rfl hv
    exact mtc_reserved (State.mayWrite_supervisor hd hs (by decide)) hr (high (k := 32) hv)
  · rintro rfl hb
    exact mtc_reserved (State.mayWrite_supervisor hd hs (by decide)) hr hb
  · rintro rfl hb hv
    refine mtc_refusedValue (State.mayWrite_supervisor hd hs (by decide)) hr hb ?_
    rcases hv with h | h
    · simp [ctlRefuses, ringValid, ringSize, Nat.not_le.mpr h]
    · simp [ctlRefuses, ringValid, ringSize, Nat.not_le.mpr h]
  · rintro rfl hb hlo hhi ⟨e, he, hp, huse⟩
    refine mtc_ringInUse (State.mayWrite_supervisor hd hs (by decide)) hr hb ?_ rfl ?_
    · simp [ctlRefuses, ringValid, ringSize, hlo, hhi]
    · exact List.any_eq_true.mpr ⟨e, he, by simp [hp, huse]⟩

/-! ## Taking a trap (R62, R138, R321, R322) -/

/-- `ebrk` traps at its own address. -/
theorem exec_ebrk (hd : s.cx.drain = none) (code : Nat) :
    exec (.ebrk code) s = .next (takeTrap s cBREAK (BitVec.ofNat 64 code)) :=
  run_of_trap (M.bind_of_ok (notInDrain_of hd))

/-- `trap` saves the address of the next instruction. -/
theorem exec_trap (hp : s.plain = true) (code : Nat) :
    exec (.trap code) s = .next (takeTrapAt s cSWTRAP (BitVec.ofNat 64 code) s.cx.npc) := by
  obtain ⟨hm, hd⟩ := State.plain_iff.mp hp
  have h : (do notInMicro; notInDrain; throw (Stop.trapAt cSWTRAP (BitVec.ofNat 64 code) (← get).cx.npc) : M Unit) s = _ :=
    (M.bind_of_ok (notInMicro_of_plain hm)).trans (M.bind_of_ok (notInDrain_of hd))
  show run _ s = _
  unfold run
  rw [h]
  rfl

/-- A synchronous trap at supervisor level begins the halt-tree stop (R322). -/
theorem takeTrapAt_supervisor {code : Nat} {info at_ : Word} (hd : s.cx.drain = none) (hs : s.cx.sup = true) :
    takeTrapAt s code info at_ =
      s.modPart s.cx.id.part fun p => { p with pstate := 4, stopReq := some (3, code, s.cx.id.core) } := by
  simp only [takeTrapAt, hd, hs]
  rfl

/-- A reserved cell of the opcode map (R138). -/
theorem exec_reservedOpcode (page half : Nat) : exec (.reservedOpcode page half) s =
    .next (takeTrap s cILLOP (BitVec.ofNat 64 (2 ^ 56 + (if page < 10 then 2 ^ 20 else 0) + page * 2 ^ 16 + half))) := by
  have hsub : subInfo 1 ((if 10 ≤ page then 0 else 2 ^ 20) + page * 2 ^ 16 + half) =
      BitVec.ofNat 64 (2 ^ 56 + (if page < 10 then 2 ^ 20 else 0) + page * 2 ^ 16 + half) := by
    unfold subInfo
    congr 1
    split_ifs <;> omega
  rw [← hsub]
  rfl

/-- Settles O12: a trap at user level enters the handler, and one at supervisor level the stop, whatever takes it. -/
theorem trapEntry : Obligations.TrapEntry := by
  unfold Obligations.TrapEntry
  constructor
  · intro s code page half hu hnd
    have hd := State.notDrain_iff.mp hnd
    refine ⟨?_, fun hp => ?_, ?_⟩
    · rw [exec_ebrk hd, takeTrap_user hd hu]; rfl
    · rw [exec_trap hp, takeTrapAt_user hd hu]; rfl
    · rw [exec_reservedOpcode, takeTrap_user hd hu]; rfl
  · intro s code info at_ hs hnd
    have hd := State.notDrain_iff.mp hnd
    refine ⟨takeTrapAt_supervisor hd hs, fun n => ?_⟩
    rw [exec_ebrk hd]
    exact congrArg _ (takeTrapAt_supervisor hd hs)

end Sys2Proof.Machine
end

section
/-! What an access to memory leaves of the contexts and of the partitions: all but the first-level caches, and the counts of
posted and resolved entries. -/
namespace Sys2Proof.Machine

variable {s t u v : State} {α β : Type}

/-! ## Tables -/

theorem Tab.get?_map {f : α → β} (l : Tab α) (n : Nat) :
    Tab.get? (l.map fun e => (e.1, f e.2)) n = (l.get? n).map f := by
  induction l with
  | nil => rfl
  | cons e l ih =>
    simp only [List.map_cons, Tab.get?]
    split
    · rfl
    · exact ih

/-! ## What is kept -/

/-- A context without its first-level cache. -/
def Ctx.bare (c : Ctx) : Ctx := { c with l1 := ⟨[], []⟩ }

/-- What no access to memory changes: the contexts without their first-level caches, and the counts of entries. -/
structure KeptByAccess where
  cx : Ctx
  others : Tab Ctx
  counts : Nat → Nat × Nat

def State.kept (s : State) : KeptByAccess :=
  ⟨s.cx.bare, s.others.map fun e => (e.1, e.2.bare), fun p => ((s.part p).posts, (s.part p).resolved)⟩

/-- A change of nothing but memory and what stands about it. -/
theorem State.kept_congr (hx : t.cx = s.cx) (ho : t.others = s.others) (hp : t.parts = s.parts) : t.kept = s.kept := by
  simp only [State.kept, State.part, hx, ho, hp]

theorem State.kept_cx (h : t.kept = s.kept) : t.cx.bare = s.cx.bare := congrArg KeptByAccess.cx h
theorem State.kept_r (h : t.kept = s.kept) : t.cx.r = s.cx.r := (congrArg Ctx.r (State.kept_cx h) :)
theorem State.kept_posts (h : t.kept = s.kept) (p : Nat) : (t.part p).posts = (s.part p).posts :=
  congrArg (fun k => (k.counts p).1) h
theorem State.kept_resolved (h : t.kept = s.kept) (p : Nat) : (t.part p).resolved = (s.part p).resolved :=
  congrArg (fun k => (k.counts p).2) h

/-- The context with a number, its cache aside. -/
theorem State.kept_ctx? (h : t.kept = s.kept) (cid : Nat) : (t.ctx? cid).map Ctx.bare = (s.ctx? cid).map Ctx.bare := by
  have hx := State.kept_cx h
  have ho : (t.others.get? cid).map Ctx.bare = (s.others.get? cid).map Ctx.bare := by
    rw [← Tab.get?_map, ← Tab.get?_map]
    exact congrArg (fun k => k.others.get? cid) h
  have hin : (t.cx.st.live && t.cx.cid = cid) = (s.cx.st.live && s.cx.cid = cid) :=
    (congrArg (fun c : Ctx => c.st.live && decide (c.cid = cid)) hx :)
  simp only [State.ctx?, hin]
  split
  · exact congrArg some hx
  · exact ho

/-- A context that stands at a number stands there still, with its registers and its standing. -/
theorem State.kept_some {cid : Nat} {c : Ctx} (h : t.kept = s.kept) (hc : s.ctx? cid = some c) :
    ∃ c', t.ctx? cid = some c' ∧ c'.r = c.r ∧ c'.st = c.st := by
  have hb := State.kept_ctx? h cid
  rw [hc] at hb
  obtain ⟨c', hc', he⟩ := Option.map_eq_some_iff.mp hb
  exact ⟨c', hc', (congrArg Ctx.r he :), (congrArg Ctx.st he :)⟩

/-! ## The parts of an access -/

/-- A change of other counts of one partition. -/
theorem State.kept_of_part {p : Nat} {x : Part} (hx : t.cx = s.cx) (ho : t.others = s.others) (ht : t.parts = s.parts.set p x)
    (hposts : x.posts = (s.part p).posts) (hres : x.resolved = (s.part p).resolved) : t.kept = s.kept := by
  have hcounts : (fun q => ((t.part q).posts, (t.part q).resolved)) = fun q => ((s.part q).posts, (s.part q).resolved) := by
    funext q
    simp only [State.part, ht]
    by_cases h : q = p
    · rw [h, Tab.getD_set_self, hposts, hres]
      rfl
    · rw [Tab.getD_set_ne _ _ _ h]
  simp only [State.kept, hx, ho, hcounts]

theorem storeBlock_kept (s : State) (blk : Nat) : (s.storeBlock blk).kept = s.kept := State.kept_congr rfl rfl rfl

theorem poisonBlock_kept (s : State) (part blk : Nat) : (s.poisonBlock part blk).kept = s.kept := by
  unfold State.poisonBlock
  split
  · rfl
  · exact State.kept_of_part rfl rfl rfl rfl rfl

theorem bringIn_kept (s : State) (part : Nat) (cmp : Bool) (blk : Nat) : (s.bringIn part cmp blk).kept = s.kept := by
  unfold State.bringIn
  split
  · rfl
  · split
    · exact storeBlock_kept s blk
    · split
      · exact State.kept_congr rfl rfl rfl
      · exact poisonBlock_kept s part blk
      · rfl

theorem bringAt_kept (s : State) (part va : Nat) (k : Acc) (p : Pte) : (s.bringAt part va k p).kept = s.kept := by
  unfold State.bringAt
  split
  · split
    · rfl
    · exact bringIn_kept ..
  · rfl

theorem bringGlobal_kept (s : State) (part va : Nat) (k : Acc) : (s.bringGlobal part va k).kept = s.kept := by
  unfold State.bringGlobal
  split
  · split
    · exact bringAt_kept ..
    · rfl
  · rfl

theorem bringFor_kept (c : Ctx) (k : Acc) (va : Nat) (s : State) : (s.bringFor c k va).kept = s.kept := by
  unfold State.bringFor
  split
  · exact bringGlobal_kept ..
  · rfl

theorem settle_kept (s : State) (ws : List Nat) : (s.settle ws).kept = s.kept := State.kept_congr rfl rfl rfl

theorem mapCtxs_kept {f : Ctx → Ctx} (hf : ∀ c, (f c).bare = c.bare) (s : State) : (s.mapCtxs f).kept = s.kept := by
  have hx : (if s.cx.st.live then f s.cx else s.cx).bare = s.cx.bare := by
    split
    · exact hf _
    · rfl
  simp only [State.kept, State.mapCtxs, State.part, hx, List.map_map, Function.comp_def, hf]

/-- A store reaches memory, and the caches that hold its words. -/
theorem putShared_kept (s : State) (key : Nat) (bs : List Byte) : (s.putShared key bs).kept = s.kept := by
  unfold State.putShared
  dsimp only
  split
  · exact (settle_kept _ _).trans ((mapCtxs_kept (f := (Ctx.lostWords · _)) (fun _ => rfl) _).trans (State.kept_congr rfl rfl rfl))
  · exact State.kept_congr rfl rfl rfl

/-! ## Stores of the device -/

theorem putEntry_kept (s : State) (p va : Nat) (bs : List Byte) : (s.putEntry p va bs).kept = s.kept := by
  unfold State.putEntry State.reach
  dsimp only
  split
  · exact (putShared_kept ..).trans (bringGlobal_kept ..)
  · exact bringGlobal_kept ..

theorem storeGlobal_kept (part : Nat) : ∀ (n : Nat) (s : State) (va : Nat) (bs : List Byte),
    (s.storeGlobal part va bs n).1.kept = s.kept
  | 0, _, _, _ => rfl
  | _ + 1, _, _, [] => rfl
  | n + 1, s, va, b :: bs => by
    unfold State.storeGlobal State.reach
    dsimp only
    split
    · exact (storeGlobal_kept part n _ _ _).trans ((putShared_kept ..).trans (bringGlobal_kept ..))
    · exact bringGlobal_kept ..

/-! ## Translation -/

theorem storeBlocks_kept : ∀ (n : Nat) (s : State) (blk : Nat), (s.storeBlocks blk n).kept = s.kept
  | 0, _, _ => rfl
  | n + 1, s, blk => by
    refine (storeBlocks_kept n _ _).trans ?_
    split
    · exact storeBlock_kept s blk
    · rfl

theorem State.withBlocks_kept (s : State) (m : Memory) (l : List Nat) (n : Nat) :
    ({ s with mem := m, expanded := l, free := n } : State).kept = s.kept := State.kept_congr rfl rfl rfl

theorem tearBlock_kept (s : State) (cmp : Bool) (blk : Nat) : (s.tearBlock cmp blk).kept = s.kept :=
  State.withBlocks_kept s _ _ _

theorem tearBlocks_kept (cmp : Bool) : ∀ (n : Nat) (s : State) (blk : Nat), (s.tearBlocks cmp blk n).kept = s.kept
  | 0, _, _ => rfl
  | n + 1, s, blk => by
    unfold State.tearBlocks
    exact (tearBlocks_kept cmp n _ _).trans (tearBlock_kept s cmp blk)

theorem seen_kept (s : State) (part vp : Nat) (p : Pte) : (s.seen part vp p).kept = s.kept := by
  unfold State.seen
  dsimp only
  split
  · exact State.kept_congr rfl rfl rfl
  · split
    · split
      · exact State.kept_congr rfl rfl rfl
      · exact (tearBlocks_kept ..).trans (State.kept_congr rfl rfl rfl)
    · split
      · exact (storeBlocks_kept ..).trans (State.kept_congr rfl rfl rfl)
      · exact State.kept_congr rfl rfl rfl

theorem missed_kept (s : State) (cl part va : Nat) : (s.missed cl part va).kept = s.kept := by
  unfold State.missed
  dsimp only
  split
  · exact State.kept_of_part rfl rfl rfl rfl rfl
  · split
    · refine (State.kept_congr (s := ite _ _ _) rfl rfl rfl).trans ?_
      split
      · exact (State.kept_congr rfl rfl rfl).trans ((seen_kept ..).trans (State.kept_of_part rfl rfl rfl rfl rfl))
      · exact State.kept_of_part rfl rfl rfl rfl rfl
    · exact State.kept_of_part rfl rfl rfl rfl rfl

/-! ## Locating -/

/-- Sequencing, read backwards: both parts answered. -/
theorem M.bind_ok_inv {m : M α} {f : α → M β} {y : β} (h : (m >>= f) s = .ok (y, t)) :
    ∃ x u, m s = .ok (x, u) ∧ f x u = .ok (y, t) := by
  cases hm : m s with
  | error e => rw [M.bind_of_error hm] at h; cases h
  | ok r => exact ⟨r.1, r.2, rfl, by rwa [M.bind_of_ok hm] at h⟩

theorem translate_kept {cl part va : Nat} {r : Except Nat Pte} (h : translate cl part va s = .ok (r, t)) : t.kept = s.kept := by
  unfold translate at h
  rw [M.bind_get] at h
  obtain ⟨_, w, hw, ht⟩ := M.bind_ok_inv h
  cases ht
  rw [check_run] at hw
  split at hw
  · cases hw
    exact missed_kept s cl part va
  · cases hw
    rfl

theorem translateAll_kept (c : Ctx) : ∀ (vas : List Nat) {ts rs : List (Nat × Except Nat Pte)} {s t : State},
    translateAll c vas ts s = .ok (rs, t) → t.kept = s.kept
  | [], _, _, _, _, h => by cases h; rfl
  | va :: vas, ts, rs, s, t, h => by
    unfold translateAll at h
    split at h
    · exact translateAll_kept c vas h
    · obtain ⟨r, w, hw, ht⟩ := M.bind_ok_inv h
      exact (translateAll_kept c vas ht).trans (translate_kept hw)

theorem bringAll_kept (s : State) (c : Ctx) (k : Acc) (ts : List (Nat × Except Nat Pte)) (vas : List Nat) :
    (s.bringAll c k ts vas).kept = s.kept := by
  unfold State.bringAll
  split
  · rfl
  · refine foldl_keeps (g := State.kept) (fun s va => ?_) vas s
    split
    · exact bringAt_kept ..
    · rfl

/-- The way of an access is open or it stops: the state stays. -/
theorem needWay_same {cls : Option Nat} {st : Nat} {r : Unit} (h : needWay cls st s = .ok (r, t)) : t = s := by
  unfold needWay at h
  rw [M.bind_get] at h
  generalize s.blocked _ st = b, s.trainAt _ st = a at h
  match b, a, h with
  | none, none, h => cases h; rfl

theorem needPath_same {cls : Option Nat} : ∀ {l : List (Except Nat Nat)} {r : Unit}, needPath cls l s = .ok (r, t) → t = s
  | [], _, h => by cases h; rfl
  | .error _ :: l, _, h => needPath_same (l := l) h
  | .ok _ :: l, _, h => by
    unfold needPath at h
    obtain ⟨_, w, hw, ht⟩ := M.bind_ok_inv h
    cases needWay_same hw
    exact needPath_same ht

/-- Locating an address. -/
theorem locate_kept {k : Acc} {va : Nat} {r : Except Nat Nat} (h : locate k va s = .ok (r, t)) : t.kept = s.kept := by
  unfold locate locateIn at h
  rw [M.bind_get] at h
  obtain ⟨ts, w, hw, h⟩ := M.bind_ok_inv h
  rw [M.bind_modify, M.bind_get] at h
  obtain ⟨_, x, hx, h⟩ := M.bind_ok_inv h
  cases h
  rw [needPath_same hx]
  exact (bringAll_kept ..).trans (translateAll_kept _ _ hw)

/-- Outside global memory nothing is translated and no block brought in. -/
theorem locate_same {k : Acc} {va : Nat} {r : Except Nat Nat} (hg : isGlobal va = false) (h : locate k va s = .ok (r, t)) :
    t = s := by
  unfold locate locateIn at h
  rw [M.bind_get] at h
  obtain ⟨ts, w, hw, h⟩ := M.bind_ok_inv h
  have hnone : translateAll s.cx [va] [] s = .ok ([], s) := by simp [translateAll, hg]
  cases hnone.symm.trans hw
  rw [M.bind_modify, M.bind_get] at h
  obtain ⟨_, x, hx, h⟩ := M.bind_ok_inv h
  cases h
  exact needPath_same hx

end Sys2Proof.Machine
end

section
/-! Misaligned accesses, and the record of a faulted one (O18). -/
namespace Sys2Proof.Machine

variable {s t u v w : State} {a b c : Src} {d k : Nat} {x y z ea : Word} {i o : VReg} {m : KReg} {ty : ETy} {q : MQ}

/-! ## Misaligned accesses (R113, R122, R156, R202 to R207) -/

theorem loadS_misaligned {acc : Acc} {n width : Nat} {conv : Nat → Word} {frees : M Unit} (h : ea.toNat % n ≠ 0) :
    loadS acc d ea n width conv frees s = .error (.trap cALIGN ea) :=
  M.guard_stop (bne_iff_ne.mpr h) (trap_run _ _)

theorem storeS_misaligned {n width val : Nat} {frees : M Unit} (h : ea.toNat % n ≠ 0) :
    storeS ea n width val frees s = .error (.trap cALIGN ea) :=
  M.guard_stop (bne_iff_ne.mpr h) (trap_run _ _)

/-- The meaning read its operands in turn and then stopped. -/
theorem readS_then_trap {f : Word → M Unit} {e : Nat} {g : Word} (hx : s.readsS a.n = some (x, t))
    (h : f x t = .error (.trap e g)) : (readS a >>= f) s = .error (.trap e g) :=
  (M.bind_of_ok (readS_of_readsS hx)).trans h

/-- Loads of a scalar or a vector register at a misaligned address. -/
theorem loads_misaligned {imm : Int} (hx : s.readsS a.n = some (x, t)) :
    let ea := x + BitVec.ofInt 64 imm
    let va := x + BitVec.ofInt 64 (64 * imm)
    (ea.toNat % 8 ≠ 0 → exec (.ld d a imm) s = .next (takeTrap s cALIGN ea)) ∧
    (ea.toNat % (tyWidth ty / 8) ≠ 0 → exec (.ldx ty d a imm) s = .next (takeTrap s cALIGN ea) ∧
      exec (.ldc ty d a imm) s = .next (takeTrap s cALIGN ea)) ∧
    (va.toNat % 128 ≠ 0 → exec (.vld q d a imm) s = .next (takeTrap s cALIGN va) ∧
      exec (.vldc q d a imm) s = .next (takeTrap s cALIGN va)) :=
  ⟨fun h => run_of_trap (readS_then_trap hx (loadS_misaligned h)),
    fun h => ⟨run_of_trap (readS_then_trap hx (loadS_misaligned h)), run_of_trap (readS_then_trap hx (loadS_misaligned h))⟩,
    fun h => ⟨run_of_trap (readS_then_trap hx (M.guard_stop (bne_iff_ne.mpr h) (trap_run _ _))),
      run_of_trap (readS_then_trap hx (M.guard_stop (bne_iff_ne.mpr h) (trap_run _ _)))⟩⟩

theorem st_misaligned {imm : Int} (hx : s.readsS a.n = some (x, t)) (hy : t.readsS b.n = some (y, u))
    (h : (x + BitVec.ofInt 64 imm).toNat % 8 ≠ 0) :
    exec (.st b a imm) s = .next (takeTrap s cALIGN (x + BitVec.ofInt 64 imm)) :=
  run_of_trap (readS_then_trap hx (readS_then_trap hy (storeS_misaligned h)))

theorem stx_misaligned {imm : Int} (hx : s.readsS a.n = some (x, t)) (hy : t.readsS b.n = some (y, u))
    (h : (x + BitVec.ofInt 64 imm).toNat % (tyWidth ty / 8) ≠ 0) :
    exec (.stx ty b a imm) s = .next (takeTrap s cALIGN (x + BitVec.ofInt 64 imm)) :=
  run_of_trap (readS_then_trap hx (readS_then_trap hy (storeS_misaligned h)))

theorem amoWidth_div (wd : Bool) : (if wd then 32 else 64) / 8 = if wd then 4 else 8 := by cases wd <;> rfl

theorem amo_misaligned {op : AmoOp} {sc : Scope} {wd : Bool} (hx : s.readsS a.n = some (x, t))
    (hy : t.readsS b.n = some (y, u)) (hd : s.notDrain = true) (h : x.toNat % (if wd then 4 else 8) ≠ 0) :
    exec (.amo op wd sc d a b) s = .next (takeTrap s cALIGN x) := by
  refine run_of_trap ((M.bind_of_ok (notInDrain_of (State.notDrain_iff.mp hd))).trans ?_)
  exact readS_then_trap hx (readS_then_trap hy (M.guard_stop (by simpa [amoWidth_div] using h) (trap_run _ _)))

theorem cas_misaligned {sc : Scope} {wd : Bool} (hx : s.readsS a.n = some (x, t)) (hy : t.readsS b.n = some (y, u))
    (hz : u.readsS c.n = some (z, v)) (hd : s.notDrain = true) (h : x.toNat % (if wd then 4 else 8) ≠ 0) :
    exec (.cas wd sc d a b c) s = .next (takeTrap s cALIGN x) := by
  refine run_of_trap ((M.bind_of_ok (notInDrain_of (State.notDrain_iff.mp hd))).trans ?_)
  refine readS_then_trap hx (readS_then_trap hy (readS_then_trap hz ?_))
  exact M.guard_stop (by simpa [amoWidth_div] using h) (trap_run _ _)

theorem vst_misaligned {imm : Int} (hx : s.readsS a.n = some (x, t)) (hi : t.readsV b.n = some (i, u))
    (hm : u.readsK k = some (m, v)) (h : (x + BitVec.ofInt 64 (64 * imm)).toNat % 128 ≠ 0) :
    exec (.vst ty k b a imm) s = .next (takeTrap s cALIGN (x + BitVec.ofInt 64 (64 * imm))) := by
  refine run_of_trap (readS_then_trap hx ((M.bind_of_ok (readV_of_readsV hi)).trans ?_))
  refine (M.bind_of_ok (readK_of_readsK hm)).trans ?_
  exact M.guard_stop (bne_iff_ne.mpr h) (trap_run _ _)

theorem aggadd_misaligned {zero : Bool} {sc : Scope} (hx : s.readsS a.n = some (x, t)) (hi : t.readsV b.n = some (i, u))
    (hm : u.readsK k = some (m, v)) (ho : v.readsOld k zero d = some (o, w)) (hd : s.notDrain = true)
    (h : x.toNat % 4 ≠ 0) : exec (.aggadd k zero sc d a b) s = .next (takeTrap s cALIGN x) := by
  refine run_of_trap ((M.bind_of_ok (notInDrain_of (State.notDrain_iff.mp hd))).trans ?_)
  refine readS_then_trap hx ((M.bind_of_ok (readV_of_readsV hi)).trans ?_)
  refine (M.bind_of_ok (readK_of_readsK hm)).trans ((M.bind_of_ok (readOld_of_readsOld ho)).trans ?_)
  exact M.guard_stop (bne_iff_ne.mpr h) (trap_run _ _)

/-! ## The lanes of a gather or scatter (R204) -/

/-- The byte address of a lane whose index element is `e`. -/
def laneAt (ty : ETy) (x : Word) (e : Nat) : Word := x + BitVec.ofInt 64 ((BitVec.ofNat 32 e).toInt * (tyWidth ty / 8))

/-- A signed 32-bit element is its two's-complement value. -/
theorem intOf_i32 {e : Nat} (h : e < 2 ^ 32) : intOf .i32 e = (BitVec.ofNat 32 e).toInt := by
  have hbit : e.testBit 31 = decide (2 ^ 31 ≤ e) := by
    rw [Nat.testBit_eq_decide_div_mod_eq]
    exact decide_eq_decide.mpr (by omega)
  rw [BitVec.toInt_eq_toNat_cond, BitVec.toNat_ofNat, Nat.mod_eq_of_lt h]
  simp only [intOf, tySigned, tyWidth, Bool.true_and, hbit, decide_eq_true_eq]
  split <;> split <;> omega

theorem laneAddr_fst (h8 : 8 ≤ tyWidth ty) (l : Nat) :
    (laneAddr (tyWidth ty) x (intOf .i32 (elem 32 i l))).1 = laneAt ty x (elem 32 i l) := by
  unfold laneAddr
  rw [if_neg (by omega), intOf_i32 (elem_lt 32 i l)]
  rfl

/-- The lane that `vgath` and `vscat` name when they trap: the lowest active one, of those whose address is misaligned. -/
def LowestMisaligned (ty : ETy) (m : KReg) (x : Word) (i : VReg) (l : Nat) : Prop :=
  l < 32 ∧ m.getLsbD (4 * l) = true ∧ (laneAt ty x (elem 32 i l)).toNat % (tyWidth ty / 8) ≠ 0 ∧
    ∀ j, j < l → m.getLsbD (4 * j) = true → (laneAt ty x (elem 32 i j)).toNat % (tyWidth ty / 8) = 0

theorem active_32 (m : KReg) (l : Nat) : active 32 m l = m.getLsbD (4 * l) := by
  unfold active
  congr 1
  omega

theorem needLanesAligned_traps {l : Nat} (h8 : 8 ≤ tyWidth ty) (h : LowestMisaligned ty m x i l) :
    needLanesAligned ty (lanesOf ty m x i) s = .error (.trap cALIGN (laneAt ty x (elem 32 i l))) := by
  obtain ⟨hl, hact, hmis, hmin⟩ := h
  have hfound : (lanesOf ty m x i).find? (fun l => l.2.1.toNat % (tyWidth ty / 8 + (if tyWidth ty = 4 then 1 else 0)) != 0) =
      some (l, laneAddr (tyWidth ty) x (intOf .i32 (elem 32 i l))) := by
    rw [lanesOf, List.find?_map, List.find?_filter, Option.map_eq_some_iff]
    refine ⟨l, List.find?_range_eq_some.mpr ⟨?_, List.mem_range.mpr hl, fun j hj => ?_⟩, rfl⟩
    · simpa [active_32, hact, laneAddr_fst h8, show tyWidth ty ≠ 4 by omega] using hmis
    · simpa [active_32, laneAddr_fst h8, show tyWidth ty ≠ 4 by omega, or_iff_not_imp_left] using hmin j hj
  unfold needLanesAligned
  rw [hfound]
  exact congrArg (fun g => Except.error (Stop.trap cALIGN g)) (laneAddr_fst h8 l)

theorem vgath_misaligned {l : Nat} (hx : s.readsS a.n = some (x, t)) (hi : t.readsV b.n = some (i, u))
    (hm : u.readsK q.k = some (m, v)) (ho : v.readsOld q.k q.zero d = some (o, w)) (h8 : 8 ≤ tyWidth q.ty)
    (h : LowestMisaligned q.ty m x i l) :
    exec (.vgath q d a b) s = .next (takeTrap s cALIGN (laneAt q.ty x (elem 32 i l))) := by
  refine run_of_trap (readS_then_trap hx ((M.bind_of_ok (readV_of_readsV hi)).trans ?_))
  refine (M.bind_of_ok (readK_of_readsK hm)).trans ((M.bind_of_ok (readOld_of_readsOld ho)).trans ?_)
  exact M.bind_of_error (needLanesAligned_traps h8 h)

theorem vscat_misaligned {l : Nat} (hx : s.readsS a.n = some (x, t)) (hi : t.readsV b.n = some (i, u))
    (ho : u.readsV c.n = some (o, v)) (hm : v.readsK k = some (m, w)) (h8 : 8 ≤ tyWidth ty)
    (h : LowestMisaligned ty m x i l) :
    exec (.vscat ty k a b c) s = .next (takeTrap s cALIGN (laneAt ty x (elem 32 i l))) := by
  refine run_of_trap (readS_then_trap hx ((M.bind_of_ok (readV_of_readsV hi)).trans ?_))
  refine (M.bind_of_ok (readV_of_readsV ho)).trans ((M.bind_of_ok (readK_of_readsK hm)).trans ?_)
  exact M.bind_of_error (needLanesAligned_traps h8 h)

/-! ## The record of a faulted access (R324, R326) -/

/-- The record of a faulted access stands under the next number. -/
def State.recorded (s : State) (b : Bad) : State :=
  { s with nextBad := s.nextBad + 1, bads := s.bads.set s.nextBad (s.withOffset b) }

/-- The bit offset of a record is all that is filled in. -/
theorem withOffset_same (s : State) (b : Bad) : ∃ n, s.withOffset b = { b with aux := n } := by
  unfold State.withOffset
  split
  · exact ⟨_, rfl⟩
  · exact ⟨b.aux, rfl⟩

/-- A fault found late is recorded, and counts in its class. -/
theorem faulted_late {e : Bad} {cls : Nat} (h : e.cls = some cls) :
    faulted false e s = .ok (s.nextBad, (s.recorded e).counted cls) := by
  have hr : record false e s = .ok (s.nextBad, s.recorded e) := rfl
  unfold faulted
  rw [M.bind_of_ok hr]
  simp only [h]
  rfl

/-- A fault that the address alone decides, in a partition without a ring, traps at once; the attempt leaves a number used. -/
theorem faulted_known {α : Type} {e : Bad} {f : Nat → M α} (h : (s.part e.part).rrbase = 0) :
    (faulted true e >>= f) s = .error (.trapWrote cRRFULL (rrInfo false true e.addr)
      { s.recorded e with bads := (s.recorded e).bads.erase s.nextBad }) := by
  obtain ⟨n, hn⟩ := withOffset_same s e
  have hpost : (s.recorded e).post s.nextBad (s.withOffset e) = .error (true, s.recorded e) := by
    have hring : ringValid ((s.recorded e).part (s.withOffset e).part).rrbase = false := by
      rw [hn]
      show ringValid (s.part e.part).rrbase = false
      rw [h]
      rfl
    unfold State.post
    simp only [hring]
    rfl
  have hrec : record true e s = .error (.trapWrote cRRFULL (rrInfo false true e.addr)
      { s.recorded e with bads := (s.recorded e).bads.erase s.nextBad }) := by
    unfold record
    rw [M.bind_get]
    simp only [if_true]
    show (match (s.recorded e).post s.nextBad (s.withOffset e) with
      | .ok s2 => (do set s2; pure s.nextBad : M Nat)
      | .error (absent, s2) => throw (Stop.trapWrote cRRFULL (rrInfo false absent (s.withOffset e).addr)
          { s2 with bads := s2.bads.erase s.nextBad })) s = _
    rw [hpost, hn]
    rfl
  exact M.bind_of_error (M.bind_of_error hrec)

theorem run_of_trapWrote {m : M Unit} {e : Nat} {g : Word} (h : m s = .error (.trapWrote e g t)) :
    run m s = .next (takeTrap { t with cx := { s.cx with l1 := t.cx.l1 } } e g) := by simp [run, h]

/-! ## A load or store whose place faults (R202, R324) -/

/-- The fault is known from the address alone above the global addresses, and not below them outside the own banks. -/
theorem addrOnly_far {acc : Acc} {va cause : Nat} (h : 2 ^ 57 ≤ va) : addrOnly acc va cause = true := by
  simp only [addrOnly, decide_eq_true h, Bool.true_or]

theorem addrOnly_remote {acc : Acc} {va cause : Nat} (hacc : acc ≠ .const) (hlo : 2 ^ 19 ≤ va) (hhi : va < 2 ^ 57) :
    addrOnly acc va cause = false := by
  simp only [addrOnly, decide_eq_false (Nat.not_le.mpr hhi), decide_eq_false (Nat.not_lt.mpr hlo), decide_eq_false hacc]
  rfl

section
variable {acc : Acc} {n width cause val : Nat} {conv : Nat → Word} {frees : M Unit}

/-- The record that a faulted scalar load makes. -/
def loadBad (c : Ctx) (ea : Word) (cause d width n : Nat) : Bad :=
  badOf c ea 0 cause (if d = 0 then 0 else 1) d width (byteMask 0 n) [] 0

/-- What a scalar load does once its place has faulted. -/
theorem loadS_faults (hal : ea.toNat % n = 0) (ho : s.ordered = true) (hr : s.room 0 = true) (hf : frees s = .ok ((), u))
    (hl : locate acc ea.toNat u = .ok (.error cause, v)) (hd : v.roomS d = true) :
    loadS acc d ea n width conv frees s = (do
      let id ← faulted (addrOnly acc ea.toNat cause) (loadBad (v.gotS d 0).cx ea cause d width n)
      check (d != 0) (modRegs fun r => r.pendS d id)
      advance : M Unit) (v.gotS d 0) := by
  unfold loadS
  refine (M.guard_pass fun h => absurd hal (bne_iff_ne.mp h)).trans ?_
  refine (M.bind_of_ok (needNoFaults_of ho)).trans ((M.bind_of_ok (needRoom_of_room hr)).trans ?_)
  refine (M.bind_of_ok hf).trans ((M.bind_of_ok hl).trans ?_)
  exact (M.bind_of_ok (writeS_of_roomS hd)).trans (M.bind_get _)

theorem storeS_faults (hal : ea.toNat % n = 0) (ho : s.ordered = true) (hr : s.room 1 = true) (hf : frees s = .ok ((), u))
    (hl : locate .store ea.toNat u = .ok (.error cause, v)) :
    storeS ea n width val frees s = (do
      let _ ← faulted (addrOnly .store ea.toNat cause) (badOf v.cx ea 1 cause 0 0 width (byteMask 0 n) (bytesOfNat n val) 0)
      advance : M Unit) v := by
  unfold storeS
  refine (M.guard_pass fun h => absurd hal (bne_iff_ne.mp h)).trans ?_
  refine (M.bind_of_ok (needNoFaults_of ho)).trans ((M.bind_of_ok (needRoom_of_room hr)).trans ?_)
  exact (M.bind_of_ok hf).trans ((M.bind_of_ok hl).trans (M.bind_get _))

end

/-! ## `ld` and `st` -/

theorem sPend_putS (r : Regs) (d : Nat) (x : Word) : (r.putS d x).sPend.getD d [] = [] := by
  simp [Regs.putS, Tab.getD, Tab.get?_erase_self]

/-- A register written and then left pending waits for its one entry. -/
theorem pendS_putS (r : Regs) (d id : Nat) (x : Word) : ((r.putS d x).pendS d id).sPend.get? d = some [id] := by
  simp [Regs.pendS, sPend_putS, Tab.get?_set_self]

@[simp] theorem gone_cnt : s.gone.cx.cnt = s.cx.cnt := by
  obtain ⟨p, m, h⟩ := gone_same s
  rw [h]
  rfl

/-- What completed reads and the look-up of a place leave of the context in hand. -/
theorem located_cx {l : List Src} {xs : List Word} {acc : Acc} {va : Nat} {r : Except Nat Nat}
    (h : s.operands l = some (xs, u)) (hl : locate acc va u = .ok (r, v)) :
    v.cx.pc = s.cx.pc ∧ v.cx.cnt = s.cx.cnt ∧ v.cx.c = s.cx.c ∧ v.cx.r = u.cx.r := by
  obtain ⟨n, y, rfl⟩ := operands_same h
  have hv := State.kept_cx (locate_kept hl)
  exact ⟨(congrArg Ctx.pc hv :), (congrArg Ctx.cnt hv :), (congrArg Ctx.c hv :), (congrArg Ctx.r hv :)⟩

/-- A load of a place that is found to fault: its record, its destination left pending, and its class. -/
theorem ld_faults_late {cause : Nat} {imm : Int} (ho : s.ordered = true) (hal : (x + BitVec.ofInt 64 imm).toNat % 8 = 0)
    (hop : s.operands [a] = some ([x], u)) (hr : s.room 0 = true)
    (hl : locate .load (x + BitVec.ofInt 64 imm).toNat u = .ok (.error cause, v)) (hd : v.roomS d = true) (h0 : d ≠ 0)
    (hlo : 2 ^ 19 ≤ (x + BitVec.ofInt 64 imm).toNat) (hhi : (x + BitVec.ofInt 64 imm).toNat < 2 ^ 57) :
    exec (.ld d a imm) s = .next ((((v.gotS d 0).recorded (loadBad (v.gotS d 0).cx (x + BitVec.ofInt 64 imm) cause d 14 8)).counted
      0).onRegs fun r => r.pendS d (v.gotS d 0).nextBad).gone := by
  obtain ⟨t, hx, rfl⟩ := operands_one hop
  have ht := readsS_same hx
  refine run_of_ok ((M.bind_of_ok (readS_of_readsS hx)).trans ?_)
  refine (loadS_faults hal (by rw [ht]; exact ho) (by rw [ht]; exact hr) (freeS_run a) hl hd).trans ?_
  rw [addrOnly_remote (by decide) hlo hhi]
  refine (M.bind_of_ok (faulted_late (cls := 0) rfl)).trans ?_
  rw [bne_iff_ne.mpr h0]
  rfl

/-- A scalar load above every mapped address, in a partition without a ring: the attempt to post leaves a number used. -/
theorem loadS_faults_known {acc : Acc} {n width cause : Nat} {conv : Nat → Word} {frees : M Unit} (hal : ea.toNat % n = 0)
    (ho : s.ordered = true) (hr : s.room 0 = true) (hf : frees s = .ok ((), u))
    (hl : locate acc ea.toNat u = .ok (.error cause, v)) (hd : v.roomS d = true) (hhi : 2 ^ 57 ≤ ea.toNat)
    (hring : (v.part v.cx.id.part).rrbase = 0) : ∃ e, loadS acc d ea n width conv frees s =
      .error (.trapWrote cRRFULL (rrInfo false true ea)
        { (v.gotS d 0).recorded e with bads := ((v.gotS d 0).recorded e).bads.erase (v.gotS d 0).nextBad }) := by
  refine ⟨loadBad (v.gotS d 0).cx ea cause d width n, ?_⟩
  rw [loadS_faults hal ho hr hf hl hd, addrOnly_far hhi]
  refine faulted_known ?_
  show ((v.gotS d 0).part (v.gotS d 0).cx.id.part).rrbase = 0
  unfold State.gotS
  split <;> exact hring

/-- The registers of the context in hand alone change by a write. -/
theorem gotS_onRegs (s : State) (d : Nat) (x : Word) : ∃ f, s.gotS d x = s.onRegs f := by
  unfold State.gotS
  split
  · exact ⟨id, rfl⟩
  · exact ⟨_, rfl⟩

theorem isGlobal_far {va : Nat} (h : 2 ^ 57 ≤ va) : isGlobal va = false := by
  simp only [isGlobal, decide_eq_false (Nat.not_lt.mpr h), Bool.and_false]

/-- The number that a record took is free again, and every other record stands. -/
theorem get?_erase_set {l : Tab Bad} {n m : Nat} {e : Bad} (h : m ≠ n) : ((l.set n e).erase n).get? m = l.get? m := by
  rw [Tab.get?_erase_ne _ h, Tab.get?_set_ne _ _ h]

theorem ld_faults_known {cause : Nat} {imm : Int} (ho : s.ordered = true) (hal : (x + BitVec.ofInt 64 imm).toNat % 8 = 0)
    (hop : s.operands [a] = some ([x], u)) (hr : s.room 0 = true)
    (hl : locate .load (x + BitVec.ofInt 64 imm).toNat u = .ok (.error cause, v)) (hd : v.roomS d = true)
    (hhi : 2 ^ 57 ≤ (x + BitVec.ofInt 64 imm).toNat) (hring : (v.part v.cx.id.part).rrbase = 0) :
    ∃ l, exec (.ld d a imm) s = .next (takeTrap { s with nextBad := s.nextBad + 1, bads := l, free := v.free } cRRFULL
        (BitVec.ofNat 64 (2 ^ 62 + (x + BitVec.ofInt 64 imm).toNat % 2 ^ 57))) ∧
      ∀ id, id ≠ s.nextBad → l.get? id = s.bads.get? id := by
  obtain ⟨n, y, hu⟩ := operands_same hop
  obtain ⟨t, hx, rfl⟩ := operands_one hop
  have ht := readsS_same hx
  obtain rfl := locate_same (isGlobal_far hhi) hl
  obtain ⟨e, he⟩ := loadS_faults_known (conv := BitVec.ofNat 64) (width := 14) hal (by rw [ht]; exact ho)
    (by rw [ht]; exact hr) (freeS_run a) hl hd hhi hring
  obtain ⟨f, hf⟩ := gotS_onRegs (t.freedS [a]) d 0
  refine ⟨(s.bads.set s.nextBad (((t.freedS [a]).gotS d 0).withOffset e)).erase s.nextBad, ?_, fun _ => get?_erase_set⟩
  refine (run_of_trapWrote ((M.bind_of_ok (readS_of_readsS hx)).trans he)).trans ?_
  rw [hf, hu]
  simp only [rrInfo, Bool.false_eq_true, if_false, if_true, Nat.zero_add]
  rfl

/-- A store of a place that is found to fault: its record, with its data, and its class. -/
theorem st_faults_late {cause : Nat} {imm : Int} (ho : s.ordered = true) (hal : (x + BitVec.ofInt 64 imm).toNat % 8 = 0)
    (hop : s.operands [a, b] = some ([x, y], u)) (hr : s.room 1 = true)
    (hl : locate .store (x + BitVec.ofInt 64 imm).toNat u = .ok (.error cause, v))
    (hlo : 2 ^ 19 ≤ (x + BitVec.ofInt 64 imm).toNat) (hhi : (x + BitVec.ofInt 64 imm).toNat < 2 ^ 57) :
    exec (.st b a imm) s = .next ((v.recorded (badOf v.cx (x + BitVec.ofInt 64 imm) 1 cause 0 0 14 (byteMask 0 8)
      (bytesOfNat 8 y.toNat) 0)).counted 1).gone := by
  obtain ⟨t, w, hx, hy, rfl⟩ := operands_two hop
  have hw := readsS_same hy
  rw [readsS_same hx] at hw
  have hf : (do freeS a; freeS b : M Unit) w = .ok ((), w.freedS [a, b]) := (M.bind_of_ok (freeS_run a)).trans (freeS_run b)
  refine run_of_ok ((M.bind_of_ok (readS_of_readsS hx)).trans ((M.bind_of_ok (readS_of_readsS hy)).trans ?_))
  refine (storeS_faults hal (by rw [hw]; exact ho) (by rw [hw]; exact hr) hf hl).trans ?_
  rw [addrOnly_remote (by decide) hlo hhi]
  exact M.bind_of_ok (f := fun _ => advance) (faulted_late (cls := 1) rfl)

/-- Settles O18: each meaning reads its operands and stops at the check of the address; a place that faults gives a record in
place of the access. -/
theorem misalignedAndFaulted : Obligations.MisalignedAndFaulted := by
  unfold Obligations.MisalignedAndFaulted
  constructor
  · intro s t u v w ty q d k zero a b c x y z i o m imm op sc wd
    refine ⟨fun hop => ?_, fun hop => ?_, fun hop hd h => ?_, fun hx hi => ⟨fun hm h => vst_misaligned hx hi hm h,
      fun hm ho => ⟨fun hd h => aggadd_misaligned hx hi hm ho hd h, fun h8 l h => vgath_misaligned hx hi hm ho h8 h⟩,
      fun h8 ho hm l h => vscat_misaligned hx hi ho hm h8 h⟩⟩
    · obtain ⟨_, hx, _⟩ := operands_one hop
      exact loads_misaligned hx
    · obtain ⟨_, _, hx, hy, _⟩ := operands_two hop
      exact ⟨st_misaligned hx hy, stx_misaligned hx hy, amo_misaligned hx hy⟩
    · obtain ⟨_, _, _, hx, hy, hz, _⟩ := operands_three hop
      exact cas_misaligned hx hy hz hd h
  · intro s u v d cause a b x y imm ho ea hal
    refine ⟨fun hop hr hl hd h0 => ⟨fun hlo hhi => ?_, fun hhi hring => ld_faults_known ho hal hop hr hl hd hhi hring⟩,
      fun hop hr hl hlo hhi => ?_⟩
    · have hgot : v.gotS d 0 = v.onRegs fun r => r.putS d 0 := if_neg h0
      obtain ⟨hpc, hcnt, hctl, -⟩ := located_cx hop hl
      obtain ⟨n, hn⟩ := withOffset_same (v.gotS d 0) (loadBad (v.gotS d 0).cx ea cause d 14 8)
      refine ⟨_, { loadBad (v.gotS d 0).cx ea cause d 14 8 with aux := n }, ld_faults_late ho hal hop hr hl hd h0 hlo hhi, ?_,
        rfl, rfl, ?_, rfl, rfl, rfl, ?_, ?_, ?_, ?_⟩
      · rw [← hn, hgot]
        exact Tab.get?_set_self ..
      · rw [hgot]
        exact hpc
      · rw [gone_r, hgot]
        exact pendS_putS ..
      · rw [gone_cnt, hgot, ← hcnt]
        rfl
      · rw [hgot]
        rfl
      · rw [gone_c, hgot, ← hctl]
        rfl
    · obtain ⟨hpc, hcnt, -, hregs⟩ := located_cx hop hl
      obtain ⟨n, hn⟩ := withOffset_same v (badOf v.cx ea 1 cause 0 0 14 (byteMask 0 8) (bytesOfNat 8 y.toNat) 0)
      refine ⟨_, { badOf v.cx ea 1 cause 0 0 14 (byteMask 0 8) (bytesOfNat 8 y.toNat) 0 with aux := n },
        st_faults_late ho hal hop hr hl hlo hhi, ?_, rfl, rfl, hpc, rfl, rfl, rfl, rfl, ?_, rfl, ?_⟩
      · rw [← hn]
        exact Tab.get?_set_self ..
      · rw [gone_cnt, ← hcnt]
        rfl
      · rw [gone_r]
        exact hregs

end Sys2Proof.Machine
end

section
/-! Dead letters: `rpw`, the posting of faulted accesses found late, and the completion of accesses (O32). -/
namespace Sys2Proof.Machine

variable {s t u v w r : State} {a b : Src} {d i id idx p n : Nat} {x : Word} {e : Bad} {c : Ctx}

/-! ## Bytes of a vector register -/

theorem packNat_toNat (l : List Byte) : packNat 8 (l.map (·.toNat)) = natOfBytes l := by
  induction l with
  | nil => rfl
  | cons x l ih =>
    simp only [List.map_cons, packNat, natOfBytes, ih]
    omega

theorem elem_vOfBytes {l : List Byte} (hl : l.length = 128) (j : Nat) : elem 8 (vOfBytes l) j = (l.getD j 0).toNat := by
  have hp : vOfBytes l = packV 8 (l.map (·.toNat)) := by rw [vOfBytes, packV, packNat_toNat]
  rw [hp, elem_packV (by simp [hl])]
  by_cases hj : j < l.length
  · simp [hj, Nat.mod_eq_of_lt (l[j]).isLt]
  · simp [hj]

theorem vBytes_getD (v : VReg) {j : Nat} (hj : j < 128) : ((vBytes v).getD j 0).toNat = elem 8 v j := by
  rw [vBytes, bytesOfNat_getD _ _ _ hj, BitVec.toNat_ofNat, elem, show 256 = 2 ^ 8 by rfl, ← Nat.pow_mul]

/-- The bytes that an entry covers are the new ones (R56). -/
theorem elem_mergeV (old new : VReg) (mask : Nat) {j : Nat} (hj : j < 128) :
    elem 8 (mergeV old new mask) j = if mask.testBit j then elem 8 new j else elem 8 old j := by
  rw [mergeV, elem_vOfBytes (by simp)]
  simp only [List.getD_eq_getElem?_getD, List.getElem?_map, List.getElem?_range hj, Option.map_some, Option.getD_some]
  rw [← List.getD_eq_getElem?_getD, ← List.getD_eq_getElem?_getD]
  split
  · exact vBytes_getD new hj
  · exact vBytes_getD old hj

/-! ## The context with a number -/

theorem Ctx.cid_congr {c c' : Ctx} (h : c'.id = c.id) : c'.cid = c.cid := by simp only [Ctx.cid, h]

/-- What a change of a context that keeps its identity leaves at the number. -/
theorem State.ctx?_modCtx {f : Ctx → Ctx} {cid : Nat} (hid : ∀ c, (f c).id = c.id) (hl : ∀ c, (f c).st.live = c.st.live)
    (s : State) : (s.modCtx cid f).ctx? cid = (s.ctx? cid).map f := by
  cases h : s.ctx? cid with
  | none => simp only [State.modCtx, h, Option.map_none]
  | some c =>
    simp only [State.modCtx, h, State.setCtx, Option.map_some]
    by_cases hin : (s.cx.st.live && s.cx.cid = cid) = true
    · have hc : s.cx = c := by simpa [State.ctx?, hin] using h
      subst hc
      have hin' : ((f s.cx).st.live && (f s.cx).cid = cid) = true := by rw [hl, Ctx.cid_congr (hid _)]; exact hin
      rw [if_pos hin]
      exact if_pos hin'
    · rw [if_neg hin]
      exact (if_neg hin).trans (Tab.get?_set_self ..)

/-- The context in hand after a change of the context with a number. -/
theorem State.modCtx_cx (s : State) (cid : Nat) (f : Ctx → Ctx) : (s.modCtx cid f).cx = s.cx ∨ (s.modCtx cid f).cx = f s.cx := by
  unfold State.modCtx
  split
  · rename_i c h
    unfold State.setCtx
    split
    · next hin =>
      have hc : s.cx = c := by simpa [State.ctx?, hin] using h
      exact .inr (by rw [hc])
    · exact .inl rfl
  · exact .inl rfl

theorem State.modCtx_parts (s : State) (cid : Nat) (f : Ctx → Ctx) : (s.modCtx cid f).parts = s.parts := by
  unfold State.modCtx
  split
  · unfold State.setCtx
    split <;> rfl
  · rfl

theorem State.modCtx_part (s : State) (cid : Nat) (f : Ctx → Ctx) (q : Nat) : (s.modCtx cid f).part q = s.part q := by
  simp only [State.part, State.modCtx_parts]

theorem State.ctx?_gone {cid : Nat} (h : s.ctx? cid = some c) : ∃ c', s.gone.ctx? cid = some c' ∧ c'.r = c.r ∧ c'.st = c.st := by
  obtain ⟨pc, m, hg⟩ := gone_same s
  rw [hg]
  unfold State.ctx? at h ⊢
  split at h
  · next hin =>
    cases h
    exact ⟨_, if_pos hin, rfl, rfl⟩
  · next hin => exact ⟨c, (if_neg hin).trans h, rfl, rfl⟩

/-! ## Entries that leave a register pending (R56) -/

theorem dropPend_ne {l : Tab (List Nat)} (h : d ≠ n) : (dropPend l n id).getD d [] = l.getD d [] := by
  unfold dropPend
  dsimp only
  split
  · simp only [Tab.getD, Tab.get?_erase_ne _ h]
  · exact Tab.getD_set_ne _ _ _ h

theorem dropPend_last {l : Tab (List Nat)} (h : (l.getD n []).erase id = []) : (dropPend l n id).get? n = none := by
  unfold dropPend
  rw [h]
  exact Tab.get?_erase_self ..

/-! ## The destination of an `rpw` -/

/-- Destination `d` holds 0, and no entry has left it pending. -/
def Ctx.Zeroed (d : Nat) (c : Ctx) : Prop := d ≠ 0 → c.r.s.get? d = some 0 ∧ c.r.sPend.getD d [] = []

theorem zeroed_gotS (s : State) (d : Nat) : (s.gotS d 0).cx.Zeroed d := by
  intro h0
  rw [show s.gotS d 0 = s.onRegs fun r => r.putS d 0 from if_neg h0]
  exact ⟨Tab.get?_set_self .., sPend_putS ..⟩

theorem Ctx.Zeroed.of_r {c c' : Ctx} (h : c.Zeroed d) (hs : c'.r.s = c.r.s) (hp : c'.r.sPend = c.r.sPend) : c'.Zeroed d := by
  intro h0
  rw [hs, hp]
  exact h h0

/-- A register that an entry leaves pending is another one. -/
theorem ne_of_pending {l : Tab (List Nat)} (hp : l.getD d [] = []) (hin : (l.getD n []).contains id = true) : d ≠ n := by
  rintro rfl
  rw [hp] at hin
  cases hin

/-- A register that is not left pending is not filled, and the fill of another leaves it. -/
theorem Ctx.Zeroed.fillS (h : c.Zeroed d) (n id : Nat) (x : Word) : (c.fillS n id x).Zeroed d := by
  intro h0
  obtain ⟨hs, hp⟩ := h h0
  unfold Ctx.fillS
  split
  · next hin =>
    have hne := ne_of_pending hp hin
    exact ⟨(Tab.get?_set_ne _ _ hne).trans hs, (dropPend_ne hne).trans hp⟩
  · exact ⟨hs, hp⟩

theorem Ctx.Zeroed.poisoned (h : c.Zeroed d) (e : Bad) (id idx : Nat) : (c.poisoned e id idx).Zeroed d := by
  intro h0
  obtain ⟨hs, hp⟩ := h h0
  unfold Ctx.poisoned
  dsimp only
  split
  · next hin => exact ⟨hs, (dropPend_ne (ne_of_pending hp (Bool.and_eq_true_iff.mp hin).2)).trans hp⟩
  · split <;> exact ⟨hs, hp⟩

theorem Ctx.Zeroed.fillV (h : c.Zeroed d) (n id : Nat) (x : VReg) (mask : Nat) : (c.fillV n id x mask).Zeroed d := by
  unfold Ctx.fillV
  split
  · exact h.of_r rfl rfl
  · exact h

theorem State.zeroed_modCtx {f : Ctx → Ctx} (h : s.cx.Zeroed d) (hf : ∀ c : Ctx, c.Zeroed d → (f c).Zeroed d) (cid : Nat) :
    (s.modCtx cid f).cx.Zeroed d := by
  obtain he | he := s.modCtx_cx cid f
  · rwa [he]
  · rw [he]
    exact hf _ h

/-! ## The end of an entry -/

/-- Entry `id` of partition `p`, which had resolved `n`, is resolved, and destination `d` holds 0. -/
def State.Ended (p id d n : Nat) (t : State) : Prop :=
  t.bads.get? id = none ∧ (t.part p).resolved = n + 1 ∧ (d ≠ 0 → t.cx.r.s.get? d = some 0)

theorem resolved_ended (hz : s.cx.Zeroed d) (i st : Nat) : (s.resolved id e i st).gone.Ended e.part id d (s.part e.part).resolved := by
  unfold State.resolved
  generalize hs1 : s.putEntry _ _ _ = s1
  have hk : s1.kept = s.kept := hs1 ▸ putEntry_kept ..
  refine ⟨Tab.get?_erase_self .., ?_, fun h0 => ?_⟩
  · rw [← State.kept_resolved hk]
    exact congrArg Part.resolved (State.part_modPart (s := s1) e.part fun p => { p with resolved := p.resolved + 1 })
  · rw [gone_r]
    exact (congrArg (fun r => r.s.get? d) (State.kept_r hk)).trans (hz h0).1

theorem resolved_ctx? {cid : Nat} (h : s.ctx? cid = some c) (i st : Nat) :
    ∃ c', (s.resolved id e i st).gone.ctx? cid = some c' ∧ c'.r = c.r ∧ c'.st = c.st := by
  obtain ⟨c1, h1, hr1, hs1⟩ := State.kept_some (putEntry_kept s e.part _ (bytesOfNat 2 st)) h
  obtain ⟨c2, h2, hr2, hs2⟩ := State.ctx?_gone (s := s.resolved id e i st) ((State.ctx?_congr rfl rfl).trans h1)
  exact ⟨c2, h2, hr2.trans hr1, hs2.trans hs1⟩

/-- An entry that faults again is not resolved. -/
theorem recause_kept (s : State) (id : Nat) (e : Bad) (i cause : Nat) : (s.recause id e i cause).kept = s.kept :=
  (State.kept_congr rfl rfl rfl).trans (putEntry_kept ..)

/-! ## The forms of `rpw` (R327) -/

/-- `s[a]` is `i`, and names entry `id` of the ring, at supervisor level; the read leaves state `r`. -/
structure State.NamesEntry (s : State) (a : Src) (i : Word) (r : State) (id : Nat) (e : Bad) : Prop where
  drain : s.cx.drain = none
  sup : s.cx.sup = true
  ring : ringValid (s.part s.cx.id.part).rrbase = true
  reads : s.readsS a.n = some (i, r)
  entry : r.entryNow s.cx.id.part (i.toNat % 2 ^ ringSize (s.part s.cx.id.part).rrbase) = some (id, e)

/-- The index of the entry that a number names. -/
def State.entryIdx (s : State) (i : Word) : Nat := i.toNat % 2 ^ ringSize (s.part s.cx.id.part).rrbase

/-- What `rpw.done` carries out, in the state that the write of its destination leaves. -/
def rpwDoneRest (d idx id : Nat) (e : Bad) (w : State) : M Unit := do
  match e.opk, e.atom with
  | 1, _ => carryOut d idx id e (w.storeHeld ((w.ctx? e.cid).getD w.cx) e)
  | 2, some x => carryOut d idx id e (w.atomHeld ((w.ctx? e.cid).getD w.cx) id e x)
  | _, _ => modify fun s => s.resolved id e idx 3
  advance

theorem rpwDoneRest_plain (h1 : e.opk ≠ 1) (h2 : e.opk ≠ 2) (w : State) : rpwDoneRest d idx id e w = (do
    modify fun s => s.resolved id e idx 3
    advance) := by
  unfold rpwDoneRest
  split
  · next h => exact absurd h h1
  · next h _ => exact absurd h h2
  · rfl

theorem rpwDoneRest_store (h1 : e.opk = 1) (w : State) : rpwDoneRest d idx id e w = (do
    carryOut d idx id e (w.storeHeld ((w.ctx? e.cid).getD w.cx) e)
    advance) := by
  unfold rpwDoneRest
  simp only [h1]

theorem rpwDoneRest_atom {f : Atom} (h2 : e.opk = 2) (hf : e.atom = some f) (w : State) : rpwDoneRest d idx id e w = (do
    carryOut d idx id e (w.atomHeld ((w.ctx? e.cid).getD w.cx) id e f)
    advance) := by
  unfold rpwDoneRest
  simp only [h2, hf]

section
variable {i : Word} (h : s.NamesEntry a i r id e)
include h

/-- Every form checks the level and looks its entry up. -/
theorem rpw_begins {β : Type} {j : Instr} {f : Nat × Nat × Bad → M β} :
    (do rpwChecks j; let n ← needEntry a; f n : M β) s = f (s.entryIdx i, id, e) r := by
  have hr := readsS_same h.reads
  have hchecks : rpwChecks j s = .ok ((), s) := (M.bind_of_ok (notInDrain_of h.drain)).trans (needSup_of h.sup)
  have hentry : needEntry a s = .ok ((s.entryIdx i, id, e), r) := by
    refine (M.bind_of_ok (readS_of_readsS h.reads)).trans ((M.bind_get _).trans ?_)
    have hcx : r.cx = s.cx := by rw [hr]
    have hpart : r.part = s.part := by rw [hr]; rfl
    rw [hcx, hpart]
    refine (M.guard_pass fun hc => ?_).trans ?_
    · simp [h.ring] at hc
    · rw [h.entry]
      rfl
  exact (M.bind_of_ok hchecks).trans (M.bind_of_ok hentry)

theorem rpwS_run (hk : e.dkind = 1) (hop : s.operands [a, b] = some ([i, x], u)) (hd : u.roomS d = true) :
    exec (.rpwS d a b) s =
      .next ((((u.gotS d 0).modCtx e.cid fun c => c.fillS e.dreg id x).resolved id e (s.entryIdx i) 3).gone) := by
  obtain ⟨t, w, hx, hy, rfl⟩ := operands_two hop
  cases h.reads.symm.trans hx
  refine run_of_ok ((rpw_begins h).trans ?_)
  refine (M.guard_pass fun hc => absurd hk (bne_iff_ne.mp hc)).trans ?_
  refine (M.bind_of_ok (readS_of_readsS hy)).trans ?_
  refine (M.bind_of_ok (freeS_run a)).trans ((M.bind_of_ok (freeS_run b)).trans ?_)
  exact (M.bind_of_ok (writeS_of_roomS hd)).trans (M.bind_modify ..)

theorem rpwV_run {y : VReg} (hk : e.dkind = 2) (hy : r.readsV b.n = some (y, u))
    (hd : ((u.freedS [a]).freedV [b]).roomS d = true) :
    exec (.rpwV d a b) s = .next (((((u.freedS [a]).freedV [b]).gotS d 0).modCtx e.cid fun c =>
      c.fillV e.dreg id y e.lmask).resolved id e (s.entryIdx i) 3).gone := by
  refine run_of_ok ((rpw_begins h).trans ?_)
  refine (M.guard_pass fun hc => absurd hk (bne_iff_ne.mp hc)).trans ?_
  refine (M.bind_of_ok (readV_of_readsV hy)).trans ?_
  refine (M.bind_of_ok (freeS_run a)).trans ((M.bind_of_ok (freeV_run b)).trans ?_)
  exact (M.bind_of_ok (writeS_of_roomS hd)).trans (M.bind_modify ..)

/-- What `rpw.kill` does to the context of the entry. -/
def State.killed (s : State) (e : Bad) (id idx : Nat) : State :=
  if e.dkind != 0 && !(e.dkind = 1 && e.dreg = 0) then s.modCtx e.cid fun c => c.poisoned e id idx
  else s.defer e.cid cPOISON (killInfo idx) (if e.opk = 3 then some e.pc else none)

theorem rpwKill_run (hop : s.operands [a] = some ([i], u)) (hd : u.roomS d = true) :
    exec (.rpwKill d a) s = .next (((u.gotS d 0).killed e id (s.entryIdx i)).resolved id e (s.entryIdx i) 7).gone := by
  obtain ⟨t, hx, rfl⟩ := operands_one hop
  cases h.reads.symm.trans hx
  refine run_of_ok ((rpw_begins h).trans ((M.bind_of_ok (freeS_run a)).trans ?_))
  exact (M.bind_of_ok (writeS_of_roomS hd)).trans (M.bind_modify ..)

theorem rpwDone_eq (hk : e.dkind = 0 ∨ e.opk = 2) (hop : s.operands [a] = some ([i], u)) (hd : u.roomS d = true) :
    exec (.rpwDone d a) s = run (fun _ => rpwDoneRest d (s.entryIdx i) id e (u.gotS d 0) (u.gotS d 0)) s := by
  obtain ⟨t, hx, rfl⟩ := operands_one hop
  cases h.reads.symm.trans hx
  refine congrArg (fun m => run (fun _ => m) s) ((rpw_begins h).trans ?_)
  refine (M.guard_pass fun hc => ?_).trans ((M.bind_of_ok (freeS_run a)).trans ?_)
  · simp only [Bool.and_eq_true, bne_iff_ne] at hc
    exact absurd hk (not_or.mpr hc)
  · exact (M.bind_of_ok (writeS_of_roomS hd)).trans ((M.bind_get _).trans rfl)

theorem rpwS_wrong (hk : e.dkind ≠ 1) : exec (.rpwS d a b) s = .next (takeTrap s cILLOP (subInfo 0x0B 0)) :=
  run_of_trap ((rpw_begins h).trans (M.guard_stop (bne_iff_ne.mpr hk) (illop_run ..)))

theorem rpwV_wrong (hk : e.dkind ≠ 2) : exec (.rpwV d a b) s = .next (takeTrap s cILLOP (subInfo 0x0B 0)) :=
  run_of_trap ((rpw_begins h).trans (M.guard_stop (bne_iff_ne.mpr hk) (illop_run ..)))

theorem rpwDone_wrong (hk : e.dkind ≠ 0) (ho : e.opk ≠ 2) :
    exec (.rpwDone d a) s = .next (takeTrap s cILLOP (subInfo 0x0B 0)) :=
  run_of_trap ((rpw_begins h).trans (M.guard_stop (by simp [hk, ho]) (illop_run ..)))

end

/-! ## The held access (R327) -/

theorem Ctx.Zeroed.of_kept (h : s.cx.Zeroed d) (hk : t.kept = s.kept) : t.cx.Zeroed d :=
  h.of_r (congrArg Regs.s (State.kept_r hk)) (congrArg Regs.sPend (State.kept_r hk))

theorem bringHeld_kept (s : State) (c : Ctx) (l : List (Nat × Byte)) :
    (l.foldl (fun s e => s.bringFor c .store e.1) s).kept = s.kept :=
  foldl_keeps (g := State.kept) (fun s e => bringFor_kept c .store e.1 s) l s

theorem storeHeld_ok_kept (h : s.storeHeld c e = .ok v) : v.kept = s.kept := by
  unfold State.storeHeld at h
  dsimp only at h
  split at h
  · cases h
  · cases h
    refine (foldl_keeps (g := State.kept) (fun s x => ?_) _ _).trans (bringHeld_kept ..)
    split
    · split <;> exact putShared_kept ..
    · rfl

theorem storeHeld_error_kept {cause : Nat} (h : s.storeHeld c e = .error (cause, v)) : v.kept = s.kept := by
  unfold State.storeHeld at h
  dsimp only at h
  split at h
  · cases h
    exact bringHeld_kept ..
  · cases h

theorem atomHeld_error_kept {cause : Nat} {f : Atom} (h : s.atomHeld c id e f = .error (cause, v)) : v.kept = s.kept := by
  unfold State.atomHeld at h
  dsimp only at h
  split at h
  · cases h
    exact bringFor_kept ..
  · cases h

/-- A held atomic gives its register a value, and no other. -/
theorem atomHeld_ok {f : Atom} (h : s.atomHeld c id e f = .ok v) (hz : s.cx.Zeroed d) :
    v.cx.Zeroed d ∧ ∀ q, (v.part q).resolved = (s.part q).resolved := by
  unfold State.atomHeld State.doAtom at h
  dsimp only at h
  split at h
  · cases h
  · cases h
    have hk (key bs) := (putShared_kept (s.bringFor c .atomic e.addr.toNat) key bs).trans (bringFor_kept c .atomic e.addr.toNat s)
    refine ⟨State.zeroed_modCtx (State.zeroed_modCtx (hz.of_kept (hk _ _)) ?_ _) (fun c h => ?_) _, fun q => ?_⟩
    · exact fun c h => h.of_r rfl rfl
    · split
      · exact h.fillV _ _ _ _
      · exact h.fillS _ _ _
    · rw [State.modCtx_part, State.modCtx_part]
      exact State.kept_resolved (hk _ _) q

/-- The held access is carried out, and the entry ends. -/
theorem carryOut_ok (w : State) : (do carryOut d idx id e (.ok v); advance : M Unit) w = .ok ((), (v.resolved id e idx 3).gone) := rfl

/-- The held access faults again, and the entry stays. -/
theorem carryOut_error {cause : Nat} (w : State) (hd : v.roomS d = true) :
    (do carryOut d idx id e (.error (cause, v)); advance : M Unit) w =
      .ok ((), ((v.gotS d (BitVec.ofNat 64 cause)).recause id e idx cause).gone) := by
  have hw : carryOut d idx id e (.error (cause, v)) w = .ok ((), (v.gotS d (BitVec.ofNat 64 cause)).recause id e idx cause) := by
    unfold carryOut
    exact (M.bind_of_ok (m := (set v : M Unit)) (t := v) rfl).trans ((M.bind_of_ok (writeS_of_roomS hd)).trans rfl)
  exact M.bind_of_ok (f := fun _ => advance) hw

/-- An entry of partition `p`, which had resolved `n`, has faulted again, and destination `d` holds its cause. -/
def State.Failed (p d n cause : Nat) (t : State) : Prop :=
  (t.part p).resolved = n ∧ (d ≠ 0 → t.cx.r.s.get? d = some (BitVec.ofNat 64 cause))

theorem gotS_part (s : State) (d q : Nat) (x : Word) : (s.gotS d x).part q = s.part q := by
  obtain ⟨f, hf⟩ := gotS_onRegs s d x
  rw [hf]
  rfl

theorem recause_failed (cause : Nat) :
    ((v.gotS d (BitVec.ofNat 64 cause)).recause id e idx cause).gone.Failed p d (v.part p).resolved cause := by
  have hk := recause_kept (v.gotS d (BitVec.ofNat 64 cause)) id e idx cause
  refine ⟨(State.kept_resolved hk p).trans (congrArg Part.resolved (gotS_part ..)), fun h0 => ?_⟩
  rw [gone_r, State.kept_r hk, State.gotS, if_neg h0]
  exact Tab.get?_set_self ..

/-! ## A killed entry (R56, R327) -/

theorem Ctx.poisoned_keeps (c : Ctx) (e : Bad) (id idx : Nat) :
    (c.poisoned e id idx).id = c.id ∧ (c.poisoned e id idx).st.live = c.st.live := by
  unfold Ctx.poisoned
  dsimp only
  split
  · exact ⟨rfl, rfl⟩
  · split <;> exact ⟨rfl, rfl⟩

theorem Ctx.poisoned_scalar (h1 : e.dkind = 1) (hin : (c.r.sPend.getD e.dreg []).contains id = true) :
    (c.poisoned e id idx).r.sPoison.get? e.dreg = some idx := by
  unfold Ctx.poisoned
  dsimp only
  rw [if_pos (Bool.and_eq_true_iff.mpr ⟨decide_eq_true h1, hin⟩)]
  exact Tab.get?_set_self ..

theorem Ctx.poisoned_vector (h2 : e.dkind = 2) (hin : (c.r.vPend.getD e.dreg []).contains id = true) :
    (c.poisoned e id idx).r.vPoison.get? e.dreg = some idx := by
  unfold Ctx.poisoned
  dsimp only
  rw [if_neg (by simp [h2]), if_pos (Bool.and_eq_true_iff.mpr ⟨decide_eq_true h2, hin⟩)]
  exact Tab.get?_set_self ..

/-- The entry leaves a register pending, which its end poisons. -/
def Bad.poisons (e : Bad) : Bool := e.dkind != 0 && !(e.dkind = 1 && e.dreg = 0)

theorem Bad.poisons_eq_false : e.poisons = false ↔ e.dkind = 0 ∨ e.dkind = 1 ∧ e.dreg = 0 := by
  simp only [Bad.poisons, Bool.and_eq_false_iff, Bool.not_eq_false', Bool.and_eq_true, bne_eq_false_iff_eq, decide_eq_true_eq]

theorem killed_poisons (h : e.poisons = true) : s.killed e id idx = s.modCtx e.cid fun c => c.poisoned e id idx := if_pos h
theorem killed_defers (h : e.poisons = false) :
    s.killed e id idx = s.defer e.cid cPOISON (killInfo idx) (if e.opk = 3 then some e.pc else none) :=
  if_neg (Bool.eq_false_iff.mp h)

theorem killed_zeroed (hz : s.cx.Zeroed d) : (s.killed e id idx).cx.Zeroed d := by
  unfold State.killed State.defer
  split
  · exact State.zeroed_modCtx hz (fun c h => h.poisoned e id idx) _
  · refine State.zeroed_modCtx hz ?_ _
    exact fun c h => h.of_r rfl rfl

theorem killed_part (s : State) (e : Bad) (id idx q : Nat) : (s.killed e id idx).part q = s.part q := by
  unfold State.killed State.defer
  split <;> exact State.modCtx_part ..

/-! ## The posting of a fault found late (R324) -/

theorem fireLine_same (s : State) (cl l : Nat) : (s.fireLine cl l).parts = s.parts ∧ (s.fireLine cl l).bads = s.bads := by
  unfold State.fireLine
  split <;> exact ⟨rfl, rfl⟩

theorem storeGlobal_ok_kept {part va k : Nat} {bs : List Byte} {ok : Bool} (h : s.storeGlobal part va bs k = (t, ok)) :
    t.kept = s.kept := by
  have hk := storeGlobal_kept part k s va bs
  rwa [h] at hk

/-- A posted entry takes the next number of its partition. -/
theorem post_ok (h : s.post n e = .ok t) :
    (t.part e.part).posts = (s.part e.part).posts + 1 ∧
      t.bads.get? n = some { e with posted := some (s.part e.part).posts } := by
  unfold State.post at h
  dsimp only at h
  split at h
  · cases h
  split at h
  · cases h
  split at h
  · cases h
  next s1 h1 =>
  split at h
  · cases h
  next s2 h2 =>
  have hposts := State.kept_posts ((storeGlobal_ok_kept h2).trans (storeGlobal_ok_kept h1)) e.part
  generalize hs3 : ({ s2.modPart e.part _ with bads := _, walking := _ } : State) = s3 at h
  have h3 : (s3.part e.part).posts = (s.part e.part).posts + 1 ∧
      s3.bads.get? n = some { e with posted := some (s.part e.part).posts } := by
    subst hs3
    refine ⟨?_, Tab.get?_set_self ..⟩
    rw [← hposts]
    exact congrArg Part.posts (State.part_modPart (s := s2) e.part fun p => { p with posts := p.posts + 1 })
  split at h <;> cases h
  · obtain ⟨hp, hb⟩ := fireLine_same s3 (clusterOf ((s.part e.part).dlnotify % 4096)) ((s.part e.part).dlnotify / 2 ^ 16 % 32)
    rw [State.part, hp, hb]
    exact h3
  · exact h3

/-- Another entry of the same access waits to be posted. -/
theorem morePosts_iff : s.morePosts n e = true ↔
    ∃ x ∈ s.bads, x.1 ≠ n ∧ x.2.access = e.access ∧ e.access ≠ none ∧ x.2.posted = none := by
  simp only [State.morePosts, Bool.and_eq_true, List.any_eq_true, Option.isSome_iff_ne_none, Option.isNone_iff_eq_none,
    bne_iff_ne, decide_eq_true_eq]
  constructor
  · rintro ⟨ha, x, hx, ⟨hn, he⟩, hp⟩
    exact ⟨x, hx, hn, he, ha, hp⟩
  · rintro ⟨x, hx, hn, he, ha, hp⟩
    exact ⟨ha, x, hx, ⟨hn, he⟩, hp⟩

theorem deadLetterPost_posts {cls : Nat} (hb : s.bads.get? n = some e) (hp : e.posted = none) (hrun : (s.part e.part).pstate = 0)
    (hcls : e.cls = some cls) (h : (if s.morePosts n e then s else s.uncount e.cid cls).post n e = .ok t) :
    exec (.deadLetterPost n) s = .next (t.modCtx e.cid fun c => c.setFlags e.flags) ∧
      (t.part e.part).posts = (s.part e.part).posts + 1 ∧
      t.bads.get? n = some { e with posted := some (s.part e.part).posts } := by
  have hpart : ((if s.morePosts n e then s else s.uncount e.cid cls).part e.part) = s.part e.part := by
    split
    · rfl
    · exact State.modCtx_part ..
  have hpost := post_ok h
  rw [hpart] at hpost
  refine ⟨?_, hpost⟩
  show execDeadLetterPost n s = _
  unfold execDeadLetterPost
  simp only [hb, hp, hcls, State.issues_of_running hrun, h]
  rfl

/-! ## Completion (R68) -/

/-- Where no atomic, no late store and no faulted access stands, every operation counted ends by its completion. -/
theorem otherwise_eq_zero {cid cls : Nat} (ha : s.atoms = []) (hb : s.bads = []) (hl : s.late = []) : s.otherwise cid cls = 0 := by
  simp [State.otherwise, ha, hb, hl, Tab.getD, Tab.get?]

theorem accessComplete_counts {cid : Nat} {store : Bool} (hc : s.ctx? cid = some c) (ha : s.atoms = []) (hb : s.bads = [])
    (hl : s.late = []) (hn : 0 < c.cnt.get (if store then 1 else 0)) :
    ∃ t, exec (.accessComplete cid store) s = .next t ∧
      t.ctx? cid = some { c with cnt := c.cnt.sub (if store then 1 else 0) 1 } := by
  refine ⟨s.uncount cid (if store then 1 else 0), ?_, ?_⟩
  · show execAccessComplete cid store s = _
    simp only [execAccessComplete, hc, otherwise_eq_zero ha hb hl, hn, if_true]
  · refine (State.ctx?_modCtx (f := fun c => { c with cnt := c.cnt.sub (if store then 1 else 0) 1 }) (fun _ => rfl)
      (fun _ => rfl) s).trans ?_
    rw [hc]
    rfl

/-! ## The obligation -/

/-- The sizes that a ring may have (R67). -/
theorem ringValid_of_mem {rb : Word} (h : rb.toNat % 32 ∈ List.range' 6 11) : ringValid rb = true := by
  obtain ⟨hlo, hhi⟩ := List.mem_range'_1.mp h
  exact Bool.and_eq_true_iff.mpr ⟨decide_eq_true hlo, decide_eq_true (Nat.le_of_lt_succ hhi)⟩

theorem Ctx.fillS_keeps (c : Ctx) (n id : Nat) (x : Word) : (c.fillS n id x).id = c.id ∧ (c.fillS n id x).st = c.st := by
  unfold Ctx.fillS
  split <;> exact ⟨rfl, rfl⟩

theorem Ctx.fillV_keeps (c : Ctx) (n id : Nat) (x : VReg) (mask : Nat) :
    (c.fillV n id x mask).id = c.id ∧ (c.fillV n id x mask).st = c.st := by
  unfold Ctx.fillV
  split <;> exact ⟨rfl, rfl⟩

theorem Ctx.fillS_pending (h : (c.r.sPend.getD n []).contains id = true) (x : Word) :
    (c.fillS n id x).r.s.get? n = some x ∧ ((c.r.sPend.getD n []).erase id = [] → (c.fillS n id x).r.sPend.get? n = none) := by
  unfold Ctx.fillS
  rw [if_pos h]
  exact ⟨Tab.get?_set_self .., dropPend_last⟩

theorem Ctx.fillV_pending (h : (c.r.vPend.getD n []).contains id = true) (x : VReg) (mask : Nat) :
    (c.fillV n id x mask).r.v.get? n = some (mergeV (c.r.v.getD n 0) x mask) ∧
      ((c.r.vPend.getD n []).erase id = [] → (c.fillV n id x mask).r.vPend.get? n = none) := by
  unfold Ctx.fillV
  rw [if_pos h]
  exact ⟨Tab.get?_set_self .., dropPend_last⟩

/-- What the end of an entry leaves at the context that its last step has changed. -/
theorem changed_then_resolved {f : Ctx → Ctx} {cid : Nat} (hid : ∀ c, (f c).id = c.id) (hl : ∀ c, (f c).st.live = c.st.live)
    (h : s.ctx? cid = some c) (i st : Nat) :
    ∃ c', ((s.modCtx cid f).resolved id e i st).gone.ctx? cid = some c' ∧ c'.r = (f c).r ∧ c'.st = (f c).st :=
  resolved_ctx? (by rw [State.ctx?_modCtx hid hl, h, Option.map_some]) i st

/-- The end of an entry after a change of one context. -/
theorem changed_then_ended {f : Ctx → Ctx} (hf : ∀ c : Ctx, c.Zeroed d → (f c).Zeroed d) (hz : s.cx.Zeroed d) (cid i st : Nat) :
    ((s.modCtx cid f).resolved id e i st).gone.Ended e.part id d (s.part e.part).resolved := by
  rw [← State.modCtx_part s cid f e.part]
  exact resolved_ended (State.zeroed_modCtx hz hf cid) i st

theorem operands_part {l : List Src} {xs : List Word} (h : s.operands l = some (xs, u)) (q : Nat) : u.part q = s.part q := by
  obtain ⟨m, y, rfl⟩ := operands_same h
  rfl

theorem freedV_part (s : State) (l : List Src) (q : Nat) : (s.freedV l).part q = s.part q := by
  induction l generalizing s with
  | nil => rfl
  | cons a l ih =>
    refine (ih _).trans ?_
    split <;> rfl

/-- The reads and frees of `rpw.v`. -/
theorem rpwV_part {i : Word} {y : VReg} (hx : s.readsS a.n = some (i, t)) (hy : t.readsV b.n = some (y, u)) (q : Nat) :
    ((u.freedS [a]).freedV [b]).part q = s.part q := by
  obtain ⟨z, hz⟩ := freedS_same [a] u
  rw [freedV_part, hz, readsV_same hy, readsS_same hx]
  rfl

section
variable {i : Word} (h : s.NamesEntry a i r id e)
include h

theorem rpwS_ends (hk : e.dkind = 1) (hop : s.operands [a, b] = some ([i, x], u)) (hd : u.roomS d = true) :
    ∃ t, exec (.rpwS d a b) s = .next t ∧ t.Ended e.part id d (s.part e.part).resolved ∧
      ∀ c, (u.gotS d 0).ctx? e.cid = some c → (c.r.sPend.getD e.dreg []).contains id = true →
        ∃ c', t.ctx? e.cid = some c' ∧ c'.r.s.get? e.dreg = some x ∧
          ((c.r.sPend.getD e.dreg []).erase id = [] → c'.r.sPend.get? e.dreg = none) := by
  refine ⟨_, rpwS_run h hk hop hd, ?_, fun c hc hin => ?_⟩
  · rw [← operands_part hop, ← gotS_part u d _ 0]
    exact changed_then_ended (fun c h => h.fillS _ _ _) (zeroed_gotS u d) _ _ _
  · obtain ⟨c', hc', hcr, -⟩ := changed_then_resolved (fun c => (c.fillS_keeps e.dreg id x).1)
      (fun c => congrArg Stand.live (c.fillS_keeps e.dreg id x).2) hc (s.entryIdx i) 3
    exact ⟨c', hc', hcr ▸ Ctx.fillS_pending hin x⟩

theorem rpwV_ends {y : VReg} (hk : e.dkind = 2) (hy : r.readsV b.n = some (y, u))
    (hd : ((u.freedS [a]).freedV [b]).roomS d = true) :
    ∃ t, exec (.rpwV d a b) s = .next t ∧ t.Ended e.part id d (s.part e.part).resolved ∧
      ∀ c, (((u.freedS [a]).freedV [b]).gotS d 0).ctx? e.cid = some c → (c.r.vPend.getD e.dreg []).contains id = true →
        ∃ c' z, t.ctx? e.cid = some c' ∧ c'.r.v.get? e.dreg = some z ∧
          (∀ j, j < 128 → elem 8 z j = if e.lmask.testBit j then elem 8 y j else elem 8 (c.r.v.getD e.dreg 0) j) ∧
          ((c.r.vPend.getD e.dreg []).erase id = [] → c'.r.vPend.get? e.dreg = none) := by
  refine ⟨_, rpwV_run h hk hy hd, ?_, fun c hc hin => ?_⟩
  · rw [← rpwV_part h.reads hy, ← gotS_part _ d _ 0]
    exact changed_then_ended (fun c h => h.fillV _ _ _ _) (zeroed_gotS _ d) _ _ _
  · obtain ⟨c', hc', hcr, -⟩ := changed_then_resolved (fun c => (c.fillV_keeps e.dreg id y e.lmask).1)
      (fun c => congrArg Stand.live (c.fillV_keeps e.dreg id y e.lmask).2) hc (s.entryIdx i) 3
    obtain ⟨hv, hp⟩ := Ctx.fillV_pending hin y e.lmask
    exact ⟨c', _, hc', hcr ▸ hv, fun j hj => elem_mergeV _ _ _ hj, hcr ▸ hp⟩

theorem rpwKill_ends (hop : s.operands [a] = some ([i], u)) (hd : u.roomS d = true) :
    ∃ t, exec (.rpwKill d a) s = .next t ∧ t.Ended e.part id d (s.part e.part).resolved ∧
      ∀ c, (u.gotS d 0).ctx? e.cid = some c → ∃ c', t.ctx? e.cid = some c' ∧
        (e.dkind = 1 → e.dreg ≠ 0 → (c.r.sPend.getD e.dreg []).contains id = true →
          c'.r.sPoison.get? e.dreg = some (s.entryIdx i)) ∧
        (e.dkind = 2 → (c.r.vPend.getD e.dreg []).contains id = true → c'.r.vPoison.get? e.dreg = some (s.entryIdx i)) ∧
        (e.dkind = 0 ∨ e.dkind = 1 ∧ e.dreg = 0 →
          c'.st.defer = c.st.defer ++ [⟨cPOISON, killInfo (s.entryIdx i), if e.opk = 3 then some e.pc else none⟩]) := by
  refine ⟨_, rpwKill_run h hop hd, ?_, fun c hc => ?_⟩
  · rw [← operands_part hop, ← gotS_part u d _ 0, ← killed_part _ e id (s.entryIdx i)]
    exact resolved_ended (killed_zeroed (zeroed_gotS u d)) _ _
  · cases hp : e.poisons with
    | true =>
      obtain ⟨c', hc', hcr, -⟩ := changed_then_resolved (fun c => (c.poisoned_keeps e id (s.entryIdx i)).1)
        (fun c => (c.poisoned_keeps e id (s.entryIdx i)).2) hc (s.entryIdx i) 7
      rw [killed_poisons hp]
      refine ⟨c', hc', fun h1 _ hin => ?_, fun h2 hin => ?_, fun hdef => ?_⟩
      · rw [hcr]
        exact Ctx.poisoned_scalar h1 hin
      · rw [hcr]
        exact Ctx.poisoned_vector h2 hin
      · exact Bool.noConfusion (hp.symm.trans (Bad.poisons_eq_false.mpr hdef))
    | false =>
      have hdef := Bad.poisons_eq_false.mp hp
      obtain ⟨c', hc', -, hcs⟩ := changed_then_resolved (f := fun c => { c with st := { c.st with
          defer := c.st.defer ++ [⟨cPOISON, killInfo (s.entryIdx i), if e.opk = 3 then some e.pc else none⟩] } })
        (fun _ => rfl) (fun _ => rfl) hc (s.entryIdx i) 7
      rw [killed_defers hp]
      exact ⟨c', hc', fun h1 h0 => absurd hdef (by simp [h1, h0]), fun h2 => absurd hdef (by simp [h2]),
        fun _ => congrArg Stand.defer hcs⟩

/-- `rpw.done` of an entry that holds no access to be carried out. -/
theorem rpwDone_ends (hk : e.dkind = 0) (h1 : e.opk ≠ 1) (h2 : e.opk ≠ 2) (hop : s.operands [a] = some ([i], u))
    (hd : u.roomS d = true) : ∃ t, exec (.rpwDone d a) s = .next t ∧ t.Ended e.part id d (s.part e.part).resolved := by
  refine ⟨((u.gotS d 0).resolved id e (s.entryIdx i) 3).gone, (rpwDone_eq h (.inl hk) hop hd).trans (run_of_ok ?_), ?_⟩
  · rw [rpwDoneRest_plain h1 h2]
    rfl
  · rw [← operands_part hop, ← gotS_part u d _ 0]
    exact resolved_ended (zeroed_gotS u d) _ _

/-- `rpw.done` whose held access is carried out. -/
theorem rpwDone_carried (hk : e.dkind = 0 ∨ e.opk = 2) (hop : s.operands [a] = some ([i], u)) (hd : u.roomS d = true)
    (hrest : rpwDoneRest d (s.entryIdx i) id e (u.gotS d 0) = (do carryOut d (s.entryIdx i) id e (.ok v); advance))
    (hz : v.cx.Zeroed d) (hp : (v.part e.part).resolved = ((u.gotS d 0).part e.part).resolved) :
    ∃ t, exec (.rpwDone d a) s = .next t ∧ t.Ended e.part id d (s.part e.part).resolved := by
  refine ⟨(v.resolved id e (s.entryIdx i) 3).gone, (rpwDone_eq h hk hop hd).trans (run_of_ok ?_), ?_⟩
  · rw [hrest]
    exact carryOut_ok _
  · rw [← operands_part hop, ← gotS_part u d _ 0, ← hp]
    exact resolved_ended hz _ _

/-- `rpw.done` whose held access faults again. -/
theorem rpwDone_faulted {cause : Nat} (hk : e.dkind = 0 ∨ e.opk = 2) (hop : s.operands [a] = some ([i], u)) (hd : u.roomS d = true)
    (hrest : rpwDoneRest d (s.entryIdx i) id e (u.gotS d 0) = (do carryOut d (s.entryIdx i) id e (.error (cause, v)); advance))
    (hv : v.kept = (u.gotS d 0).kept) (hroom : v.roomS d = true) :
    ∃ t, exec (.rpwDone d a) s = .next t ∧ t.Failed e.part d (s.part e.part).resolved cause := by
  refine ⟨((v.gotS d (BitVec.ofNat 64 cause)).recause id e (s.entryIdx i) cause).gone,
    (rpwDone_eq h hk hop hd).trans (run_of_ok ?_), ?_⟩
  · rw [hrest]
    exact carryOut_error _ hroom
  · rw [← operands_part hop, ← gotS_part u d _ 0, ← State.kept_resolved hv]
    exact recause_failed cause

end

/-- Settles O32: each form ends the entry after one change of the entry's context, or of memory by the held access. -/
theorem deadLetters : Obligations.DeadLetters := by
  unfold Obligations.DeadLetters
  constructor
  · intro s u r v d id cause a b i x y e f hnd hsup hring hr hpart idx hent
    have hn : s.NamesEntry a i r id e := ⟨State.notDrain_iff.mp hnd, hsup, ringValid_of_mem hring, hr, hent⟩
    rw [← hpart]
    refine ⟨fun hop hd => ⟨fun hk => rpwS_ends hn hk hop hd, fun hk => rpwS_wrong hn hk⟩,
      fun t ht hy hd => ⟨fun hk => ?_, fun hk => rpwV_wrong hn hk⟩,
      fun hop hd => ⟨rpwKill_ends hn hop hd, fun hk ho => rpwDone_wrong hn hk ho, fun hk h1 h2 => rpwDone_ends hn hk h1 h2 hop hd,
        fun hk h1 => ⟨fun hv => ?_, fun hv hroom => ?_⟩, fun h2 hf => ⟨fun hv => ?_, fun hv hroom => ?_⟩⟩⟩
    · cases hr.symm.trans ht
      exact rpwV_ends hn hk hy hd
    · have hkept := storeHeld_ok_kept hv
      exact rpwDone_carried hn (.inl hk) hop hd (by rw [rpwDoneRest_store h1, hv]) ((zeroed_gotS u d).of_kept hkept)
        (State.kept_resolved hkept _)
    · exact rpwDone_faulted hn (.inl hk) hop hd (by rw [rpwDoneRest_store h1, hv]) (storeHeld_error_kept hv) hroom
    · obtain ⟨hz, hp⟩ := atomHeld_ok hv (zeroed_gotS u d)
      exact rpwDone_carried hn (.inr h2) hop hd (by rw [rpwDoneRest_atom h2 hf, hv]) hz (hp _)
    · exact rpwDone_faulted hn (.inr h2) hop hd (by rw [rpwDoneRest_atom h2 hf, hv]) (atomHeld_error_kept hv) hroom
  · refine ⟨fun s t n cls e hb hp hrun hcls h => deadLetterPost_posts hb hp hrun hcls ?_,
      fun s cid c hc _ ha hb hl => ⟨fun h => accessComplete_counts hc ha hb hl h, fun h => accessComplete_counts hc ha hb hl h⟩⟩
    simpa only [morePosts_iff] using h

end Sys2Proof.Machine
end

section
/-! The head instructions at issue (O42). -/
namespace Sys2Proof.Machine

variable {s t u v w z : State} {a : Src} {d h q tr n p goal : Nat} {i : Instr} {dir : SeekDir} {x : Word} {f : Regs → Regs}

/-! ## Heads and tracks of a state -/

@[simp] theorem Ctx.head_modHead (c : Ctx) (h : Nat) (f : Head → Head) : (c.modHead h f).head h = f (c.head h) :=
  Tab.getD_set_self ..

@[simp] theorem gone_heads : s.gone.cx.heads = s.cx.heads := by
  obtain ⟨pc, m, hg⟩ := gone_same s
  rw [hg]
  rfl

theorem gone_head (h : Nat) : s.gone.cx.head h = s.cx.head h := by simp only [Ctx.head, gone_heads]

/-- A change of a track leaves the microcode stores, so execution goes on alike. -/
theorem modTrack_gone_cx (s : State) (core tr : Nat) (f : Track → Track) : (s.modTrack core tr f).gone.cx = s.gone.cx := by
  have hslot (k n : Nat) : ((s.modTrack core tr f).core k).slot n = (s.core k).slot n := by
    by_cases hk : k = core
    · rw [hk, State.modTrack, State.core_modCore]
      rfl
    · rw [State.modTrack, core_modCore_ne hk]
  simp only [State.gone, State.nops, State.nopsOf, hslot]
  rfl

/-- Head `h` of the context in hand, a live one on a compute core, names track `tr`, and no stream of it is on the head. -/
structure State.OnHead (s : State) (h tr : Nat) : Prop where
  deck : onDeck s.cx.id.core = true
  drain : s.cx.drain = none
  live : s.cx.st.live = true
  names : s.trackOf s.cx h = some tr
  idle : s.streamOn s.cx.id.core s.cx.cid h = none

theorem State.OnHead.of_reads (hh : s.OnHead h tr) (ht : t = { s with free := t.free }) : t.OnHead h tr := by
  rw [ht]
  exact ⟨hh.deck, hh.drain, hh.live, hh.names, hh.idle⟩

theorem State.OnHead.ctx? (hh : s.OnHead h tr) : s.ctx? s.cx.cid = some s.cx :=
  if_pos (by simp [hh.live])

/-! ## The guards (R371, R372, R374) -/

/-- The track under the context in hand. -/
def State.trackHere (s : State) (tr : Nat) : Track := s.track s.cx.id.core tr

/-- `tinfo` of `HEADLOST`. -/
def lostInfo (h p : Nat) : Word := BitVec.ofNat 64 (p * 2 ^ 16 + h * 2 ^ 8)

theorem headInfo_lost (h p : Nat) : headInfo false cHEADLOST h p 0 = lostInfo h p := by
  simp [headInfo, lostInfo, cHEADLOST, cPOISON, cSHIFTERR]

/-- The head of the context in hand is marked lost. -/
def State.headLost (s : State) (h : Nat) : State := s.onCx fun c => c.modHead h fun y => { y with err := 3 }

theorem headInfo_slip (h p : Nat) (n : Int) :
    headInfo false cSHIFTERR h p n = BitVec.ofNat 64 (p * 2 ^ 16 + h * 2 ^ 8 + (n % 16).toNat) := by
  simp [headInfo, cPOISON, cSHIFTERR]

theorem needHead_run (hh : s.OnHead h tr) : needHead i h s = .ok (tr, s) := by
  refine (M.bind_of_ok (notInDrain_of hh.drain)).trans ((M.bind_of_ok (needDeck_of hh.deck)).trans ((M.bind_get _).trans ?_))
  rw [hh.names]
  rfl

theorem needNoStream_run (hh : s.OnHead h tr) : needNoStream h s = .ok ((), s) := by
  refine (M.bind_get _).trans ?_
  rw [hh.idle]
  rfl

theorem needTrack_run (hl : (s.trackHere tr).lost = false) : needTrack h tr s = .ok ((), s) := by
  refine (M.bind_get _).trans ?_
  rw [show (s.track s.cx.id.core tr).lost = false from hl]
  rfl

theorem needTrack_lost (hl : (s.trackHere tr).lost = true) :
    needTrack h tr s = .error (.trapIn cHEADLOST (lostInfo h (s.cx.head h).pos) (s.headLost h)) := by
  refine (M.bind_get _).trans ?_
  rw [show (s.track s.cx.id.core tr).lost = true from hl, headInfo_lost]
  rfl

theorem needPort_owned (ho : (s.trackHere tr).owner = some s.cx.cid) (hpv : (s.cx.head h).pv = false) :
    needPort h tr s = .ok ((), s) := by
  refine (M.bind_get _).trans ?_
  rw [if_pos (show (s.track s.cx.id.core tr).owner = some s.cx.cid from ho), hpv]
  rfl

/-- The port is another's: the context asks for it, and waits. -/
theorem needPort_asks (ho : (s.trackHere tr).owner ≠ some s.cx.cid) (hf : s.portFree s.cx.id.core tr s.cx.cid = false) :
    needPort h tr s = .error (.stallIn (.head h) (s.askPort tr)) := by
  refine (M.bind_get _).trans ?_
  rw [if_neg (show (s.track s.cx.id.core tr).owner ≠ some s.cx.cid from ho), hf]
  rfl

/-- The context in hand owns the port of a track that is not lost, and its head seeks nothing. -/
structure State.AtPort (s : State) (h tr : Nat) : Prop extends s.OnHead h tr where
  sound : (s.trackHere tr).lost = false
  owner : (s.trackHere tr).owner = some s.cx.cid
  still : (s.cx.head h).pv = false

/-- The guards of an instruction at the port, which pass there. -/
theorem port_guards {f : Nat → M Unit} (hp : s.AtPort h tr) :
    (do let t ← needHead i h; needNoStream h; needTrack h t; needPort h t; f t : M Unit) s = f tr s := by
  refine (M.bind_of_ok (needHead_run hp.toOnHead)).trans ((M.bind_of_ok (needNoStream_run hp.toOnHead)).trans ?_)
  exact (M.bind_of_ok (needTrack_run hp.sound)).trans (M.bind_of_ok (needPort_owned hp.owner hp.still))

theorem run_of_trapIn {m : M Unit} {e : Nat} {g : Word} (h : m s = .error (.trapIn e g t)) : run m s = .next (takeTrap t e g) := by
  simp [run, h]

theorem run_of_stallIn {m : M Unit} {e : Wait} (h : m s = .error (.stallIn e t)) : run m s = .next (t.waits e) := by
  simp only [run, h]
  rfl

/-! ## Records (R71, R385) -/

theorem hpos_run (hh : s.OnHead h tr) (hl : (s.trackHere tr).lost = false) (hd : s.roomS d = true) :
    exec (.hpos d h) s =
      .next (s.gotS d ((s.cx.head h).word (decide ((s.trackHere tr).owner = some s.cx.cid)))).gone := by
  refine run_of_ok ((M.bind_of_ok (needHead_run hh)).trans ((M.bind_of_ok (needTrack_run hl)).trans ((M.bind_get _).trans ?_)))
  exact M.bind_of_ok (f := fun _ => advance) (writeS_of_roomS hd)

/-- The record's bits. -/
theorem Head.word_eq (y : Head) {c : Prop} [Decidable c] : y.word (decide c) = BitVec.ofNat 64
    ((if y.pv then 2 ^ 52 else 0) + y.pend * 2 ^ 40 + (if c then 2 ^ 39 else 0) + y.err * 2 ^ 37 + y.mark * 2 ^ 25 +
      (if y.bwd then 2 ^ 24 else 0) + (y.stride % 4096).toNat * 2 ^ 12 + y.pos) := by
  simp only [Head.word, decide_eq_true_eq]

/-- The reads of an instruction leave the head and its track. -/
theorem trackHere_of_reads (ht : t = { s with free := t.free }) : t.trackHere tr = s.trackHere tr := by
  rw [ht]
  rfl

theorem hstride_run (hh : s.OnHead h tr) (hl : (s.trackHere tr).lost = false) (hop : s.operands [a] = some ([x], u))
    (hlo : -2048 ≤ x.toInt) (hhi : x.toInt ≤ 2047) :
    exec (.hstride h a) s = .next (u.onCx fun c => c.modHead h fun y => { y with stride := x.toInt }).gone := by
  obtain ⟨t, hx, rfl⟩ := operands_one hop
  have ht := readsS_same hx
  refine run_of_ok ((M.bind_of_ok (needHead_run hh)).trans ((M.bind_of_ok (readS_of_readsS hx)).trans ?_))
  refine (M.guard_pass fun hc => ?_).trans ((M.bind_of_ok (needNoStream_run (hh.of_reads ht))).trans ?_)
  · simp only [Bool.or_eq_true, decide_eq_true_eq] at hc
    omega
  · refine (M.bind_of_ok (needTrack_run ((trackHere_of_reads ht).symm ▸ hl))).trans ?_
    exact (M.bind_of_ok (freeS_run a)).trans rfl

theorem hstride_illop (hh : s.OnHead h tr) (hx : s.readsS a.n = some (x, t)) (hr : x.toInt < -2048 ∨ 2047 < x.toInt) :
    exec (.hstride h a) s = .next (takeTrap s cILLOP (subInfo 0x0E (h * 256 + 2))) := by
  refine run_of_trap ((M.bind_of_ok (needHead_run hh)).trans ((M.bind_of_ok (readS_of_readsS hx)).trans ?_))
  exact M.guard_stop (by simpa using hr) (illop_run ..)

theorem hmark_run (hh : s.OnHead h tr) (hl : (s.trackHere tr).lost = false) (hpv : (s.cx.head h).pv = false) :
    exec (.hmark h) s = .next (s.onCx fun c => c.modHead h fun y => { y with mark := y.pos }).gone := by
  refine run_of_ok ((M.bind_of_ok (needHead_run hh)).trans ((M.bind_of_ok (needNoStream_run hh)).trans ?_))
  refine (M.bind_of_ok (needTrack_run hl)).trans ((M.bind_get _).trans ((M.guard_pass fun hc => ?_).trans rfl))
  exact Bool.noConfusion (hpv.symm.trans hc)

/-! ## Holds (R386) -/

theorem htake_run (hp : s.AtPort h tr) : exec (.htake h) s = .next (s.modTrack s.cx.id.core tr fun y => { y with
    holder := some s.cx.cid, hleft := s.cx.c.hold.toNat % 8192, since := (s.core s.cx.id.core).cyc }).gone :=
  run_of_ok ((port_guards hp).trans rfl)

theorem hgive_run (hh : s.OnHead h tr) (hl : (s.trackHere tr).lost = false) (hpv : (s.cx.head h).pv = false) :
    exec (.hgive h) s = .next (s.modTrack s.cx.id.core tr fun y =>
      if y.holder = some s.cx.cid then { y with holder := none, hleft := 0 } else y).gone := by
  refine run_of_ok ((M.bind_of_ok (needHead_run hh)).trans ((M.bind_of_ok (needNoStream_run hh)).trans ?_))
  refine (M.bind_of_ok (needTrack_run hl)).trans ((M.bind_get _).trans ((M.guard_pass fun hc => ?_).trans rfl))
  exact Bool.noConfusion (hpv.symm.trans hc)

theorem hgive_gives (hh : s.OnHead h tr) (hl : (s.trackHere tr).lost = false) (hpv : (s.cx.head h).pv = false)
    (hold : (s.trackHere tr).holder = some s.cx.cid) : ∃ z, exec (.hgive h) s = .next z ∧ z.cx = s.gone.cx ∧
      z.track s.cx.id.core tr = { s.trackHere tr with holder := none, hleft := 0 } := by
  refine ⟨_, hgive_run hh hl hpv, modTrack_gone_cx .., ?_⟩
  exact (State.track_modTrack ..).trans (if_pos hold)

/-! ## Seeks (R383, R376) -/

/-- A context that does not own the port asks for it. -/
def State.asked (z : State) (owns : Bool) (tr : Nat) : State := if owns then z else z.askPort tr

/-- The direction of a seek, where `back` is the shorter way: a forced one applies at the owner's port (R376). -/
def seekBack (dir : SeekDir) (owns back : Bool) : Bool := match dir with
  | .fwd => !owns && back
  | .bwd => owns || back
  | .shortest => back

/-- A head has a seek pending. -/
def Head.seeking (y : Head) (goal : Nat) (bwd : Bool) : Head := { y with pv := true, pend := goal, bwd := bwd }

/-- A seek of the context in hand is on its way. -/
def State.seekBegun (z : State) (h tr goal : Nat) (owns bwd : Bool) : State :=
  ((z.onCx fun c => c.modHead h fun y => y.seeking goal bwd).asked owns tr).counted 4

/-- Who asks for a port does not turn on the registers of the context in hand. -/
theorem asks_onRegs (z : State) (core : Nat) (q : Nat × Word) : (z.onRegs f).asks core tr q = z.asks core tr q := by
  unfold State.asks State.ctx?
  by_cases hin : (z.cx.st.live && z.cx.cid = q.1) = true
  · rw [if_pos hin]
    rw [if_pos (show ((z.onRegs f).cx.st.live && (z.onRegs f).cx.cid = q.1) = true from hin)]
    rfl
  · rw [if_neg hin]
    rw [if_neg (show ¬ ((z.onRegs f).cx.st.live && (z.onRegs f).cx.cid = q.1) = true from hin)]
    rfl

theorem askPort_onRegs (z : State) (tr : Nat) : (z.onRegs f).askPort tr = (z.askPort tr).onRegs f := by
  have hq (core : Nat) : (z.onRegs f).portQueue core tr = z.portQueue core tr :=
    congrArg (fun g => List.filter g _) (funext fun q => asks_onRegs z core q)
  unfold State.askPort State.askFor
  rw [show (z.onRegs f).cx.id.core = z.cx.id.core from rfl, hq]
  rfl

theorem asked_onRegs (z : State) (owns : Bool) (tr : Nat) : (z.onRegs f).asked owns tr = (z.asked owns tr).onRegs f := by
  unfold State.asked
  split
  · rfl
  · exact askPort_onRegs z tr

theorem seekBegun_onRegs (z : State) (owns bwd : Bool) :
    (z.onRegs f).seekBegun h tr goal owns bwd = (z.seekBegun h tr goal owns bwd).onRegs f :=
  congrArg (State.counted · 4) (asked_onRegs (z.onCx fun c => c.modHead h fun y => y.seeking goal bwd) owns tr)

/-- The free of a source, and a change that does not turn on the registers. -/
theorem freedS_comm {g : State → State} (z : State) (hg : ∀ f, g (z.onRegs f) = (g z).onRegs f) :
    (g z).freedS [a] = g (z.freedS [a]) := by
  simp only [State.freedS]
  split
  · exact (hg ..).symm
  · rfl

/-- The way back to a goal is the shorter one. -/
def State.backTo (s : State) (tr goal : Nat) : Bool :=
  decide (((s.trackHere tr).ppos + 4096 - goal) % 4096 < (goal + 4096 - (s.trackHere tr).ppos) % 4096)

/-- The context in hand owns the port of a track. -/
def State.ownsPort (s : State) (tr : Nat) : Bool := decide ((s.trackHere tr).owner = some s.cx.cid)

theorem check_asks (z : State) (owns : Bool) (tr : Nat) :
    check (!owns) (modify fun s => s.askPort tr) z = .ok ((), z.asked owns tr) := by
  cases owns <;> rfl

theorem startSeek_run (hpv : (s.cx.head h).pv = false) (hr : s.room 4 = true) : startSeek h tr goal dir s =
    .ok ((), s.seekBegun h tr goal (s.ownsPort tr) (seekBack dir (s.ownsPort tr) (s.backTo tr goal))) := by
  refine (M.bind_get _).trans ((M.guard_pass fun hc => Bool.noConfusion (hpv.symm.trans hc)).trans ?_)
  refine (M.bind_of_ok (needRoom_of_room hr)).trans ((M.bind_get _).trans ((M.bind_modCx ..).trans ?_))
  refine (M.bind_of_ok (check_asks _ (s.ownsPort tr) tr)).trans ?_
  cases dir <;> rfl

theorem hseek_run (hh : s.OnHead h tr) (hl : (s.trackHere tr).lost = false) (hop : s.operands [a] = some ([x], u))
    (hx : x.toNat < 4096) (hpv : (s.cx.head h).pv = false) (hr : s.room 4 = true) : exec (.hseek dir h a) s =
    .next (u.seekBegun h tr x.toNat (s.ownsPort tr) (seekBack dir (s.ownsPort tr) (s.backTo tr x.toNat))).gone := by
  obtain ⟨t, hread, rfl⟩ := operands_one hop
  have ht := readsS_same hread
  refine run_of_ok ((M.bind_of_ok (needHead_run hh)).trans ((M.bind_of_ok (readS_of_readsS hread)).trans ?_))
  refine (M.guard_pass fun hc => absurd (Nat.div_eq_of_lt hx) (bne_iff_ne.mp hc)).trans ?_
  refine (M.bind_of_ok (needNoStream_run (hh.of_reads ht))).trans ?_
  refine (M.bind_of_ok (needTrack_run ((trackHere_of_reads ht).symm ▸ hl))).trans ?_
  refine (M.bind_of_ok (startSeek_run (by rw [ht]; exact hpv) (by rw [ht]; exact hr))).trans ?_
  refine (M.bind_of_ok (freeS_run a)).trans ?_
  have hfreed := freedS_comm (a := a) (g := fun z => z.seekBegun h tr x.toNat (t.ownsPort tr)
    (seekBack dir (t.ownsPort tr) (t.backTo tr x.toNat))) t fun f => seekBegun_onRegs t ..
  refine (congrArg (fun w => Except.ok ((), w.gone)) hfreed).trans ?_
  rw [ht]
  rfl

theorem hseek_illop (hh : s.OnHead h tr) (hread : s.readsS a.n = some (x, t)) (hx : 4096 ≤ x.toNat) :
    exec (.hseek dir h a) s = .next (takeTrap s cILLOP (subInfo 0x0E (h * 256 + 1))) := by
  refine run_of_trap ((M.bind_of_ok (needHead_run hh)).trans ((M.bind_of_ok (readS_of_readsS hread)).trans ?_))
  exact M.guard_stop (bne_iff_ne.mpr (Nat.div_pos hx (by decide)).ne') (illop_run ..)

theorem hrew_run (hh : s.OnHead h tr) (hl : (s.trackHere tr).lost = false) (hpv : (s.cx.head h).pv = false)
    (hr : s.room 4 = true) : exec (.hrew h) s = .next (s.seekBegun h tr (s.cx.head h).mark (s.ownsPort tr)
      (s.backTo tr (s.cx.head h).mark)).gone := by
  refine run_of_ok ((M.bind_of_ok (needHead_run hh)).trans ((M.bind_of_ok (needNoStream_run hh)).trans ?_))
  refine (M.bind_of_ok (needTrack_run hl)).trans ((M.bind_get _).trans ?_)
  exact M.bind_of_ok (f := fun _ => advance) (startSeek_run (dir := .shortest) hpv hr)

/-! ## Lost tracks (R372, R379) -/

/-- What every head instruction does at a lost track. -/
def State.losesHead (s : State) (h : Nat) : State := takeTrap (s.headLost h) cHEADLOST (lostInfo h (s.cx.head h).pos)

theorem lost_traps_idle {i : Instr} {f : Nat → M Unit} (hh : s.OnHead h tr) (hl : (s.trackHere tr).lost = true) :
    run (do let t ← needHead i h; needNoStream h; needTrack h t; f t) s = .next (s.losesHead h) :=
  run_of_trapIn ((M.bind_of_ok (needHead_run hh)).trans ((M.bind_of_ok (needNoStream_run hh)).trans
    (M.bind_of_error (needTrack_lost hl))))

theorem needWord_lost (hh : s.OnHead h tr) (hl : (s.trackHere tr).lost = true) :
    needWord h tr s = .error (.trapIn cHEADLOST (lostInfo h (s.cx.head h).pos) (s.headLost h)) :=
  (M.bind_of_ok (needNoStream_run hh)).trans (M.bind_of_error (needTrack_lost hl))

theorem heads_lost (hh : s.OnHead h tr) (hl : (s.trackHere tr).lost = true) :
    ∀ i ∈ [Instr.hrd d h, .htake h, .hrew h, .hrealign h, .hpos d h, .hgive h, .hmark h], exec i s = .next (s.losesHead h) := by
  simp only [List.forall_mem_cons]
  exact ⟨run_of_trapIn ((M.bind_of_ok (needHead_run hh)).trans (M.bind_of_error (needWord_lost hh hl))),
    lost_traps_idle hh hl, lost_traps_idle hh hl, lost_traps_idle hh hl,
    run_of_trapIn ((M.bind_of_ok (needHead_run hh)).trans (M.bind_of_error (needTrack_lost hl))),
    lost_traps_idle hh hl, lost_traps_idle hh hl, List.forall_mem_nil _⟩

/-! ## Streams (R374, R388) -/

/-- A change of the context with the number of the one in hand, a live one. -/
theorem State.modCtx_here {g : Ctx → Ctx} (hl : s.cx.st.live = true) : s.modCtx s.cx.cid g = s.onCx g := by
  have hin : (s.cx.st.live && s.cx.cid = s.cx.cid) = true := by simp [hl]
  have hc : s.ctx? s.cx.cid = some s.cx := if_pos hin
  unfold State.modCtx
  rw [hc]
  exact if_pos hin

/-- A head whose pending seek has completed. -/
def Head.sought (y : Head) : Head := { y with pos := y.pend, pend := 0, pv := false }

theorem endSeek_here (hl : s.cx.st.live = true) : s.endSeek s.cx.cid h tr =
    if (s.cx.head h).pv then
      (s.modTrack s.cx.id.core tr fun y => { y with ppos := (s.cx.head h).pend }).onCx fun c =>
        { c.modHead h Head.sought with cnt := c.cnt.sub 4 1 }
    else s := by
  have hc : s.ctx? s.cx.cid = some s.cx := if_pos (by simp [hl])
  unfold State.endSeek
  rw [hc]
  cases hpv : (s.cx.head h).pv with
  | false => simp only [hpv]; rfl
  | true =>
    simp only [hpv, Bool.not_true, Bool.false_eq_true, if_false, if_true]
    have h1 := State.modCtx_here (s := s.modTrack s.cx.id.core tr fun y => { y with ppos := (s.cx.head h).pend })
      (g := fun c => c.modHead h Head.sought) hl
    have h2 := State.modCtx_here (s := (s.modTrack s.cx.id.core tr fun y => { y with ppos := (s.cx.head h).pend }).onCx
      fun c => c.modHead h Head.sought) (g := fun c => { c with cnt := c.cnt.sub 4 1 }) hl
    exact (congrArg (fun w : State => w.uncount s.cx.cid 4) h1).trans h2

theorem seekEnded_same (hl : s.cx.st.live = true) (b : Bool) :
    (if b then s.endSeek s.cx.cid h tr else s).cx.id = s.cx.id ∧ (if b then s.endSeek s.cx.cid h tr else s).cx.c = s.cx.c := by
  rw [endSeek_here hl]
  (repeat' split) <;> exact ⟨rfl, rfl⟩

theorem endSeek_onRegs (hl : s.cx.st.live = true) :
    (s.onRegs f).endSeek s.cx.cid h tr = (s.endSeek s.cx.cid h tr).onRegs f := by
  rw [endSeek_here hl]
  refine (endSeek_here (s := s.onRegs f) hl).trans ?_
  by_cases hpv : (s.cx.head h).pv = true
  · rw [if_pos hpv]
    exact if_pos hpv
  · rw [if_neg hpv]
    exact if_neg hpv

/-- A new stream of the context in hand: a seek of the owner that it finds pending completes first. -/
def State.streamPut (z : State) (core : Nat) (y : Stream) (tr : Nat) (owns pend : Bool) : State :=
  (((if owns && pend then z.endSeek y.cid y.head tr else z).modCore core fun k =>
    { k with streams := k.streams ++ [y] }).asked owns tr).counted 4

/-- What a stream asks of its ring (R388). -/
structure State.StreamRing (s : State) (q : Nat) (fill : Bool) : Prop where
  defd : (s.ring s.cx.id.core q).defd = true
  entryb : (s.ring s.cx.id.core q).entryb = 128
  engine : fill = true → (s.ring s.cx.id.core q).engine = 0
  alone : ∀ y ∈ (s.core s.cx.id.core).streams, y.q ≠ q

theorem streamPut_onRegs {core : Nat} {y : Stream} {owns pend : Bool} (hl : s.cx.st.live = true) (hy : y.cid = s.cx.cid) :
    (s.onRegs f).streamPut core y tr owns pend = (s.streamPut core y tr owns pend).onRegs f := by
  have hend : (if owns && pend then (s.onRegs f).endSeek y.cid y.head tr else s.onRegs f) =
      (if owns && pend then s.endSeek y.cid y.head tr else s).onRegs f := by
    rw [hy]
    split
    · exact endSeek_onRegs hl
    · rfl
  unfold State.streamPut
  rw [hend]
  exact congrArg (State.counted · 4) (asked_onRegs (State.modCore (if owns && pend then s.endSeek y.cid y.head tr else s) core
    fun k => { k with streams := k.streams ++ [y] }) owns tr)

/-- The ring of an `hfill` is its engine's (R388). -/
def State.fillsRing (z : State) (core q : Nat) (fill : Bool) : State :=
  if fill then z.modRing core q fun r => { r with engine := 2 } else z

theorem fillsRing_onRegs (z : State) (core q : Nat) (fill : Bool) :
    (z.onRegs f).fillsRing core q fill = (z.fillsRing core q fill).onRegs f := by
  cases fill <;> rfl

/-- The stream that `hburst` or `hfill` starts. -/
def State.newStream (s : State) (h q n tr : Nat) (fill : Bool) : Stream :=
  ⟨s.cx.cid, h, fill, q, n, if s.cx.c.mode.getLsbD 1 then 1 else 0, s.ownsPort tr⟩

theorem startStream_run {fill : Bool} (hh : s.OnHead h tr) (hl : (s.trackHere tr).lost = false) (hring : s.StreamRing q fill)
    (h0 : 0 < n) (hn : n ≤ 4096) (hr : s.room 4 = true) : startStream fill h q n tr s = .ok ((),
      (s.streamPut s.cx.id.core (s.newStream h q n tr fill) tr (s.ownsPort tr) (s.cx.head h).pv).fillsRing s.cx.id.core q fill) := by
  unfold startStream
  refine (M.guard_pass fun hc => ?_).trans ((M.bind_get _).trans ((M.guard_pass fun hc => ?_).trans ?_))
  · simp only [Bool.or_eq_true, decide_eq_true_eq] at hc
    omega
  · obtain ⟨hdefd, hentry, heng, halone⟩ := hring
    have hany : ((s.core s.cx.id.core).streams.any fun y => y.q = q) = false := by simpa using halone
    simp [hdefd, hentry, hany] at hc
    exact absurd (heng hc.1) hc.2
  refine (M.bind_of_ok (needNoStream_run hh)).trans ((M.bind_of_ok (needTrack_run hl)).trans ?_)
  refine (M.bind_of_ok (needRoom_of_room hr)).trans ?_
  obtain ⟨hid, hc⟩ := seekEnded_same (tr := tr) (h := h) hh.live (s.ownsPort tr && (s.cx.head h).pv)
  have hcid := Ctx.cid_congr hid
  have hcheck : check (s.ownsPort tr && (s.cx.head h).pv) (modify fun s => s.endSeek s.cx.cid h tr) s =
      .ok ((), if s.ownsPort tr && (s.cx.head h).pv then s.endSeek s.cx.cid h tr else s) := by
    rw [check_run]
    split <;> rfl
  refine (M.bind_of_ok hcheck).trans ((M.bind_modify ..).trans ?_)
  rw [hcid, hc]
  refine (M.bind_of_ok (check_asks _ (s.ownsPort tr) tr)).trans ?_
  cases fill <;> rfl


theorem State.StreamRing.of_reads {fill : Bool} (hring : s.StreamRing q fill) (ht : t = { s with free := t.free }) :
    t.StreamRing q fill := by
  rw [ht]
  exact ⟨hring.defd, hring.entryb, hring.engine, hring.alone⟩

/-- What `hburst` and `hfill` leave, once the head is found. -/
def streamStarts (fill : Bool) (h q tr : Nat) (a : Src) : M Unit := do
  let n ← readS a
  startStream fill h q n.toNat tr
  freeS a
  advance

theorem streamStarts_run {fill : Bool} (hh : s.OnHead h tr) (hl : (s.trackHere tr).lost = false) (hring : s.StreamRing q fill)
    (hop : s.operands [a] = some ([x], u)) (h0 : 0 < x.toNat) (hn : x.toNat ≤ 4096) (hr : s.room 4 = true) :
    streamStarts fill h q tr a s = .ok ((), ((u.streamPut s.cx.id.core (s.newStream h q x.toNat tr fill) tr (s.ownsPort tr)
      (s.cx.head h).pv).fillsRing s.cx.id.core q fill).gone) := by
  obtain ⟨t, hread, rfl⟩ := operands_one hop
  have ht := readsS_same hread
  refine (M.bind_of_ok (readS_of_readsS hread)).trans ?_
  refine (M.bind_of_ok (startStream_run (hh.of_reads ht) ((trackHere_of_reads ht).symm ▸ hl) (hring.of_reads ht) h0 hn
    (by rw [ht]; exact hr))).trans ?_
  refine (M.bind_of_ok (freeS_run a)).trans ?_
  have hfreed := freedS_comm (a := a) (g := fun z => (z.streamPut t.cx.id.core (t.newStream h q x.toNat tr fill) tr (t.ownsPort tr)
    (t.cx.head h).pv).fillsRing t.cx.id.core q fill) t fun f => by
      rw [streamPut_onRegs (hh.of_reads ht).live rfl, fillsRing_onRegs]
  refine (congrArg (fun w => Except.ok ((), w.gone)) hfreed).trans ?_
  rw [ht]
  rfl

theorem hburst_run (hh : s.OnHead h tr) (hl : (s.trackHere tr).lost = false) (hring : s.StreamRing q false)
    (hop : s.operands [a] = some ([x], u)) (h0 : 0 < x.toNat) (hn : x.toNat ≤ 4096) (hr : s.room 4 = true) :
    exec (.hburst h q a) s = .next (u.streamPut s.cx.id.core (s.newStream h q x.toNat tr false) tr (s.ownsPort tr)
      (s.cx.head h).pv).gone :=
  run_of_ok ((M.bind_of_ok (needHead_run hh)).trans (streamStarts_run hh hl hring hop h0 hn hr))

theorem hfill_run (hh : s.OnHead h tr) (hl : (s.trackHere tr).lost = false) (hring : s.StreamRing q true)
    (hop : s.operands [a] = some ([x], u)) (h0 : 0 < x.toNat) (hn : x.toNat ≤ 4096) (hr : s.room 4 = true) :
    exec (.hfill h q a) s = .next ((u.streamPut s.cx.id.core (s.newStream h q x.toNat tr true) tr (s.ownsPort tr)
      (s.cx.head h).pv).fillsRing s.cx.id.core q true).gone :=
  run_of_ok ((M.bind_of_ok (needHead_run hh)).trans (streamStarts_run hh hl hring hop h0 hn hr))

/-! ## The postmark check (R378, R379) -/

/-- The track's state as the port's owner finds and leaves it. -/
def State.keepTrack (s : State) (tr : Nat) (y : Track) : State := s.modTrack s.cx.id.core tr fun _ => y

theorem keepTrack_track (s : State) (tr : Nat) (y : Track) : (s.keepTrack tr y).track (s.keepTrack tr y).cx.id.core tr = y :=
  State.track_modTrack ..

theorem gone_track (s : State) (core tr : Nat) : s.gone.track core tr = s.track core tr := rfl

theorem State.AtPort.of_reads (hp : s.AtPort h tr) (ht : t = { s with free := t.free }) : t.AtPort h tr := by
  refine ⟨hp.toOnHead.of_reads ht, (trackHere_of_reads ht).symm ▸ hp.sound, ?_, ?_⟩
  · rw [trackHere_of_reads ht, hp.owner, ht]
  · rw [ht]
    exact hp.still

/-- The word under the port is the one that the head expects. -/
theorem needWord_run (hp : s.AtPort h tr) (hs : (s.trackHere tr).slipAt (s.cx.head h).pos = 0) (ho : s.ordered = true) :
    needWord h tr s = .ok (((s.cx.head h).pos, (s.trackHere tr).under (s.cx.head h).pos), s.keepTrack tr (s.trackHere tr)) := by
  refine (M.bind_of_ok (needNoStream_run hp.toOnHead)).trans ((M.bind_of_ok (needTrack_run hp.sound)).trans ?_)
  refine (M.bind_of_ok (needNoFaults_of ho)).trans ((M.bind_of_ok (needPort_owned hp.owner hp.still)).trans ((M.bind_get _).trans ?_))
  have hchecked (e : Nat) : (s.track s.cx.id.core tr).checked (s.cx.head h).pos e = (s.trackHere tr, none, none) := by
    unfold Track.checked
    exact if_pos hs
  rw [hchecked]
  rfl

/-- A slip traps where the head does not realign of itself. -/
theorem needWord_slips (hp : s.AtPort h tr) (hs : (s.trackHere tr).slipAt (s.cx.head h).pos ≠ 0) (ho : s.ordered = true)
    (hmode : s.cx.c.mode.getLsbD 1 = false) : needWord h tr s = .error (.trapIn cSHIFTERR
      (BitVec.ofNat 64 ((s.cx.head h).pos * 2 ^ 16 + h * 2 ^ 8 + ((s.trackHere tr).slipAt (s.cx.head h).pos % 16).toNat))
      ((s.modTrack s.cx.id.core tr fun y => { y with slip := (s.trackHere tr).slipAt (s.cx.head h).pos }).onCx
        fun c => c.modHead h fun y => { y with err := 2 })) := by
  refine (M.bind_of_ok (needNoStream_run hp.toOnHead)).trans ((M.bind_of_ok (needTrack_run hp.sound)).trans ?_)
  refine (M.bind_of_ok (needNoFaults_of ho)).trans ((M.bind_of_ok (needPort_owned hp.owner hp.still)).trans ((M.bind_get _).trans ?_))
  have hchecked : (s.track s.cx.id.core tr).checked (s.cx.head h).pos 0 =
      ({ s.trackHere tr with slip := (s.trackHere tr).slipAt (s.cx.head h).pos }, some 2, some cSHIFTERR) := by
    unfold Track.checked
    exact (if_neg hs).trans (if_pos rfl)
  rw [hmode]
  simp only [Bool.false_eq_true, if_false, hchecked]
  rw [← headInfo_slip]
  rfl

/-! ## Transfers (R384, R387) -/

/-- The step of a head of the context in hand, a live one. -/
theorem stepHead_here (hl : s.cx.st.live = true) : s.stepHead s.cx.cid h tr p =
    (s.onCx fun c => c.modHead h fun _ => (s.cx.head h).stepped p).modTrack s.cx.id.core tr fun y =>
      { (y.counted s.cx.cid (s.core s.cx.id.core).cyc) with ppos := posAdd p (s.cx.head h).stride } := by
  have hc : s.ctx? s.cx.cid = some s.cx := if_pos (by simp [hl])
  unfold State.stepHead
  rw [hc]
  simp only [State.modCtx_here hl]
  rfl

/-- Head `h` has moved one word: `next` is the position, `y` was the track, `c` the context. -/
structure State.Stepped (z : State) (core tr h next : Nat) (y : Track) (c : Ctx) : Prop where
  regs : z.cx.r = c.r
  pos : (z.cx.head h).pos = next
  port : (z.track core tr).ppos = next
  ctl : z.cx.c = c.c
  hold : y.holder = some c.cid → (z.track core tr).hleft = y.hleft - 1
  marks : (z.track core tr).marks = y.marks
  bad : (z.track core tr).bad = y.bad

theorem Track.counted_hleft {y : Track} {cid : Nat} (h : y.holder = some cid) (cyc : Nat) :
    (y.counted cid cyc).hleft = y.hleft - 1 := by
  rw [Track.counted, if_pos h]

theorem Track.counted_words (y : Track) (cid cyc : Nat) : (y.counted cid cyc).marks = y.marks ∧ (y.counted cid cyc).bad = y.bad := by
  unfold Track.counted
  split <;> exact ⟨rfl, rfl⟩

theorem stepHead_stepped (hl : s.cx.st.live = true) : (s.stepHead s.cx.cid h tr p).gone.Stepped s.cx.id.core tr h
    (posAdd p (s.cx.head h).stride) (s.trackHere tr) s.cx ∧ (s.stepHead s.cx.cid h tr p).gone.mem = s.mem := by
  have htrack : (s.stepHead s.cx.cid h tr p).gone.track s.cx.id.core tr =
      { (s.trackHere tr).counted s.cx.cid (s.core s.cx.id.core).cyc with ppos := posAdd p (s.cx.head h).stride } := by
    rw [gone_track, stepHead_here hl]
    exact State.track_modTrack ..
  obtain ⟨hmarks, hbad⟩ := (s.trackHere tr).counted_words s.cx.cid (s.core s.cx.id.core).cyc
  refine ⟨⟨?_, ?_, ?_, ?_, fun ho => ?_, ?_, ?_⟩, ?_⟩
  · rw [gone_r, stepHead_here hl]
    rfl
  · rw [gone_head, stepHead_here hl]
    exact congrArg Head.pos (Ctx.head_modHead s.cx h _)
  · rw [htrack]
  · rw [gone_c, stepHead_here hl]
    rfl
  · rw [htrack]
    exact Track.counted_hleft ho _
  · rw [htrack]
    exact hmarks
  · rw [htrack]
    exact hbad
  · rw [stepHead_here hl]
    rfl

/-- `hrd` under the head's port: the word there. -/
theorem hrd_run (hp : s.AtPort h tr) (hs : (s.trackHere tr).slipAt (s.cx.head h).pos = 0) (ho : s.ordered = true)
    (hbad : (s.trackHere tr).under (s.cx.head h).pos ∉ (s.trackHere tr).bad) (hd : s.roomV d = true) :
    exec (.hrd d h) s = .next ((((s.keepTrack tr (s.trackHere tr)).gotV d (vOfBytes (s.trackWord s.cx.id.core tr
      ((s.trackHere tr).under (s.cx.head h).pos)))).stepHead s.cx.cid h tr (s.cx.head h).pos).gone) := by
  refine run_of_ok ((M.bind_of_ok (needHead_run hp.toOnHead)).trans ((M.bind_of_ok (needWord_run hp hs ho)).trans ?_))
  refine (M.bind_get _).trans ((M.guard_pass fun hc => ?_).trans ?_)
  · rw [keepTrack_track] at hc
    exact absurd (List.contains_iff_mem.mp hc) hbad
  · exact (M.bind_of_ok (writeV_of_roomV (s := s.keepTrack tr (s.trackHere tr)) hd)).trans (M.bind_modify ..)

/-- The step of a head over a word, whose track is then `y`. -/
theorem stepHead_moves {y : Track} {core cid : Nat} (hl : w.cx.st.live = true) (hid : w.cx.id.core = core) (hcid : w.cx.cid = cid)
    (hy : w.track core tr = y) : (w.stepHead cid h tr p).gone.Stepped core tr h (posAdd p (w.cx.head h).stride) y w.cx ∧
      (w.stepHead cid h tr p).gone.mem = w.mem := by
  subst hid hcid hy
  exact stepHead_stepped hl

/-- The state in which `hwr` writes its word. -/
def State.freedAtPort (t : State) (tr : Nat) (a : Src) : State := (t.keepTrack tr (t.trackHere tr)).freedV [a]

theorem freedV_one (z : State) (a : Src) : ∃ l, z.freedV [a] = z.onRegs fun r => { r with v := l } := by
  simp only [State.freedV]
  split
  · exact ⟨_, rfl⟩
  · exact ⟨z.cx.r.v, rfl⟩

theorem freedAtPort_regs (t : State) (tr : Nat) (a : Src) : (t.freedAtPort tr a).cx.r = (t.freedV [a]).cx.r := by
  simp only [State.freedAtPort, State.freedV]
  split <;> rfl

theorem hwr_run {y : VReg} (hp : s.AtPort h tr) (hs : (s.trackHere tr).slipAt (s.cx.head h).pos = 0) (ho : s.ordered = true)
    (hv : s.readsV a.n = some (y, t)) : exec (.hwr h a) s = .next
      (((t.freedAtPort tr a).putTrackWord (t.freedAtPort tr a).cx.id.core tr ((t.trackHere tr).under (t.cx.head h).pos)
        (t.cx.head h).pos (vBytes y)).stepHead (t.freedAtPort tr a).cx.cid h tr (t.cx.head h).pos).gone := by
  have ht := readsV_same hv
  refine run_of_ok ((M.bind_of_ok (needHead_run hp.toOnHead)).trans ((M.bind_of_ok (readV_of_readsV hv)).trans ?_))
  refine (M.bind_of_ok (needWord_run (hp.of_reads ht) (by rw [ht]; exact hs) (by rw [ht]; exact ho))).trans ?_
  exact (M.bind_of_ok (freeV_run a)).trans (M.bind_modify ..)

/-- A track whose word at `q` has been written with the postmark of `p`. -/
def Track.wrote (y : Track) (q p : Nat) : Track :=
  { y with bad := y.bad.filter (· != q), marks := if p % 16 = q % 16 then y.marks.erase q else y.marks.set q (p % 16) }

theorem putTrackWord_track (s : State) (core t q p : Nat) (bs : List Byte) :
    (s.putTrackWord core t q p bs).track core t = (s.track core t).wrote q p := State.track_modTrack ..

theorem Track.wrote_postmark (y : Track) (q p : Nat) : (y.wrote q p).postmark q = p % 16 := by
  unfold Track.wrote Track.postmark
  dsimp only
  split
  · next hpq => simp [Tab.getD, Tab.get?_erase_self, hpq]
  · exact Tab.getD_set_self ..

theorem Track.wrote_bad (y : Track) (q p : Nat) : q ∉ (y.wrote q p).bad := by
  simp [Track.wrote]

theorem Track.postmark_congr {y y' : Track} (h : y'.marks = y.marks) (q : Nat) : y'.postmark q = y.postmark q := by
  simp only [Track.postmark, h]

theorem Memory.bytes_getD (m : Memory) : ∀ (n k j : Nat), j < n → (Memory.bytes m k n).getD j 0 = m.read (k + j)
  | 0, _, _, h => absurd h (Nat.not_lt_zero _)
  | n + 1, k, 0, _ => rfl
  | n + 1, k, j + 1, h => by
    rw [Memory.bytes, List.getD_cons_succ, Memory.bytes_getD m n _ j (Nat.lt_of_succ_lt_succ h), Nat.add_right_comm, Nat.add_assoc]

theorem Memory.bytes_length (m : Memory) : ∀ n k : Nat, (Memory.bytes m k n).length = n
  | 0, _ => rfl
  | n + 1, k => congrArg (· + 1) (Memory.bytes_length m n (k + 1))

theorem elem_trackWord {core q j : Nat} (hj : j < 128) :
    elem 8 (vOfBytes (s.trackWord core tr q)) j = (s.mem.read (trackKey core tr q j)).toNat := by
  rw [State.trackWord, elem_vOfBytes (Memory.bytes_length ..), Memory.bytes_getD _ _ _ _ hj, trackKey_add]

theorem putTrackWord_mem (s : State) (core t q p : Nat) (bs : List Byte) :
    (s.putTrackWord core t q p bs).mem = s.mem.putBytes (trackKey core t q 0) bs := by
  simp only [State.putTrackWord, State.modTrack_mem]

/-- The bytes of a word after it is written. -/
theorem read_putTrackWord_self {core q j : Nat} {y : VReg} (hw : s.MemWf) (hj : j < 128) :
    (s.putTrackWord core tr q p (vBytes y)).mem.read (trackKey core tr q j) = BitVec.ofNat 8 (elem 8 y j) := by
  have hlen : (vBytes y).length = 128 := bytesOfNat_length ..
  rw [putTrackWord_mem, Memory.read_putBytes _ _ _ hw, hlen, ← trackKey_add core tr q j,
    if_pos ⟨Nat.le_add_right .., Nat.add_lt_add_left hj _⟩, Nat.add_sub_cancel_left, ← vBytes_getD y hj, BitVec.ofNat_toNat,
    BitVec.setWidth_eq]

theorem read_putTrackWord_ne {core q k : Nat} {y : VReg} (hw : s.MemWf)
    (hk : k < trackKey core tr q 0 ∨ trackKey core tr q 128 ≤ k) :
    (s.putTrackWord core tr q p (vBytes y)).mem.read k = s.mem.read k := by
  have hlen : (vBytes y).length = 128 := bytesOfNat_length ..
  rw [putTrackWord_mem, Memory.read_putBytes _ _ _ hw, hlen, trackKey_add]
  exact if_neg fun hin => hk.elim (Nat.not_lt.mpr hin.1) (Nat.not_le.mpr hin.2)

/-- The next position of head `h`. -/
def State.nextPos (s : State) (h : Nat) : Nat := posAdd (s.cx.head h).pos (s.cx.head h).stride

/-- Head `h` of the context in hand has moved one word, and its registers are `r`. -/
def State.Moved (s : State) (h tr : Nat) (z : State) (r : Regs) : Prop :=
  z.cx.r = r ∧ (z.cx.head h).pos = s.nextPos h ∧ (z.track s.cx.id.core tr).ppos = s.nextPos h ∧ z.cx.c = s.cx.c ∧
    ((s.trackHere tr).holder = some s.cx.cid → (z.track s.cx.id.core tr).hleft = (s.trackHere tr).hleft - 1)

theorem hrd_reads (hp : s.AtPort h tr) (hs : (s.trackHere tr).slipAt (s.cx.head h).pos = 0) (ho : s.ordered = true)
    (hbad : (s.trackHere tr).under (s.cx.head h).pos ∉ (s.trackHere tr).bad) (hd : s.roomV d = true) :
    ∃ z y, exec (.hrd d h) s = .next z ∧ s.Moved h tr z (s.gotV d y).cx.r ∧ z.mem = s.mem ∧
      ∀ j, j < 128 → elem 8 y j =
        (s.mem.read (trackKey s.cx.id.core tr ((s.trackHere tr).under (s.cx.head h).pos) j)).toNat := by
  obtain ⟨hst, hmem⟩ := stepHead_moves (w := (s.keepTrack tr (s.trackHere tr)).gotV d (vOfBytes (s.trackWord s.cx.id.core tr
    ((s.trackHere tr).under (s.cx.head h).pos)))) (h := h) (tr := tr) (p := (s.cx.head h).pos) (y := s.trackHere tr)
    hp.live rfl rfl (keepTrack_track s tr (s.trackHere tr))
  exact ⟨_, _, hrd_run hp hs ho hbad hd, ⟨hst.regs, hst.pos, hst.port, hst.ctl, hst.hold⟩, hmem, fun j hj => elem_trackWord hj⟩

/-- `hwr`'s write of a word at the head's port, and the step over it. -/
theorem wroteWord_step (hp : s.AtPort h tr) (bs : List Byte) :
    let q := (s.trackHere tr).under (s.cx.head h).pos
    let w := ((s.keepTrack tr (s.trackHere tr)).onRegs f).putTrackWord s.cx.id.core tr q (s.cx.head h).pos bs
    (w.stepHead s.cx.cid h tr (s.cx.head h).pos).gone.Stepped s.cx.id.core tr h (s.nextPos h)
      ((s.trackHere tr).wrote q (s.cx.head h).pos) w.cx ∧ (w.stepHead s.cx.cid h tr (s.cx.head h).pos).gone.mem = w.mem := by
  intro q w
  refine stepHead_moves (w := w) hp.live rfl rfl ?_
  refine (putTrackWord_track ..).trans ?_
  exact congrArg (Track.wrote · q (s.cx.head h).pos) (keepTrack_track s tr (s.trackHere tr))

theorem hwr_writes {y : VReg} (hp : s.AtPort h tr) (hs : (s.trackHere tr).slipAt (s.cx.head h).pos = 0) (ho : s.ordered = true)
    (hw : s.MemWf) (hv : s.readsV a.n = some (y, t)) :
    let key := trackKey s.cx.id.core tr ((s.trackHere tr).under (s.cx.head h).pos)
    ∃ z, exec (.hwr h a) s = .next z ∧ s.Moved h tr z (t.freedV [a]).cx.r ∧
      (∀ j, j < 128 → z.mem.read (key j) = BitVec.ofNat 8 (elem 8 y j)) ∧
      (∀ k, k < key 0 ∨ key 128 ≤ k → z.mem.read k = s.mem.read k) ∧
      (z.track s.cx.id.core tr).postmark ((s.trackHere tr).under (s.cx.head h).pos) = (s.cx.head h).pos % 16 ∧
      (s.trackHere tr).under (s.cx.head h).pos ∉ (z.track s.cx.id.core tr).bad := by
  obtain ⟨l, hl⟩ := freedV_one (t.keepTrack tr (t.trackHere tr)) a
  have hrun := hwr_run hp hs ho hv
  have hregs := freedAtPort_regs t tr a
  have ht := readsV_same hv
  obtain ⟨hst, hmem⟩ := wroteWord_step (hp.of_reads ht) (f := fun r => { r with v := l }) (vBytes y)
  rw [State.freedAtPort, hl] at hrun hregs
  obtain ⟨n, rfl⟩ : ∃ n, t = { s with free := n } := ⟨t.free, ht⟩
  intro key
  refine ⟨_, hrun, ⟨hst.regs.trans hregs, hst.pos, hst.port, hst.ctl, hst.hold⟩, fun j hj => ?_, fun k hk => ?_, ?_, ?_⟩
  · exact (congrArg (Memory.read · (key j)) hmem).trans (read_putTrackWord_self hw hj)
  · exact (congrArg (Memory.read · k) hmem).trans (read_putTrackWord_ne hw hk)
  · exact (Track.postmark_congr hst.marks _).trans (Track.wrote_postmark ..)
  · exact hst.bad ▸ Track.wrote_bad _ _ _

/-! ## Realignment (R379) -/

/-- A head that measured no slip, and measures none. -/
theorem hrealign_still (hp : s.AtPort h tr) (h0 : (s.trackHere tr).slip = 0) (hs : (s.trackHere tr).slipAt (s.cx.head h).pos = 0) :
    ∃ z, exec (.hrealign h) s = .next z ∧ z.track s.cx.id.core tr = s.trackHere tr ∧ z.cx = s.gone.cx := by
  have hT : { s.trackHere tr with slip := 0 } = s.trackHere tr :=
    (congrArg (fun n => { s.trackHere tr with slip := n }) h0.symm :)
  refine ⟨(s.keepTrack tr { s.trackHere tr with slip := 0 }).gone, run_of_ok ((port_guards hp).trans ?_),
    (keepTrack_track s tr _).trans hT, modTrack_gone_cx ..⟩
  have hmade : ((s.track s.cx.id.core tr).slip != 0) = false := by simpa [State.trackHere] using h0
  refine (M.bind_get _).trans ?_
  simp only [hmade, Bool.false_eq_true, if_false]
  exact (congrFun (if_pos hs) s).trans rfl

/-- The track after a realignment that went right. -/
def Track.realigned (y : Track) (p : Nat) : Track :=
  { y with off := (y.off - y.slip + y.stick) % 4096, slip := 0, stick := 0, ppos := p }

/-- A head that measured a slip, and shifts it away. -/
theorem hrealign_shifts (hp : s.AtPort h tr) (h0 : (s.trackHere tr).slip ≠ 0)
    (hs : ((s.trackHere tr).shifted (s.trackHere tr).slip).slipAt (s.cx.head h).pos = 0) :
    ∃ z, exec (.hrealign h) s = .next z ∧ z.track s.cx.id.core tr = (s.trackHere tr).realigned (s.cx.head h).pos ∧
      (z.cx.head h).err = 1 ∧ (z.cx.head h).bwd = decide (0 < (s.trackHere tr).slip) := by
  have hmade : ((s.track s.cx.id.core tr).slip != 0) = true := bne_iff_ne.mpr h0
  refine ⟨((s.keepTrack tr ((s.trackHere tr).realigned (s.cx.head h).pos)).onCx fun c =>
    c.modHead h fun y => y.seen 1 (s.trackHere tr).slip).gone, run_of_ok ((port_guards hp).trans ?_), keepTrack_track s tr _, ?_, ?_⟩
  · refine (M.bind_get _).trans ?_
    simp only [hmade, if_true]
    exact (congrFun (if_pos hs) s).trans rfl
  · rw [gone_head]
    exact congrArg Head.err (Ctx.head_modHead s.cx h _)
  · rw [gone_head]
    exact congrArg Head.bwd (Ctx.head_modHead s.cx h _)

/-! ## A port that another holds (R374) -/

section
variable (hh : s.OnHead h tr) (hl : (s.trackHere tr).lost = false) (hown : (s.trackHere tr).owner ≠ some s.cx.cid)
  (hfree : s.portFree s.cx.id.core tr s.cx.cid = false)
include hh hl hown hfree

theorem port_asked {f : Nat → M Unit} : run (do
    let t ← needHead i h; needNoStream h; needTrack h t; needPort h t; f t) s = .next ((s.askPort tr).waits (.head h)) := by
  refine run_of_stallIn ((M.bind_of_ok (needHead_run hh)).trans ((M.bind_of_ok (needNoStream_run hh)).trans ?_))
  exact (M.bind_of_ok (needTrack_run hl)).trans (M.bind_of_error (needPort_asks hown hfree))

theorem hrd_asks (ho : s.ordered = true) : exec (.hrd d h) s = .next ((s.askPort tr).waits (.head h)) := by
  refine run_of_stallIn ((M.bind_of_ok (needHead_run hh)).trans (M.bind_of_error ?_))
  refine (M.bind_of_ok (needNoStream_run hh)).trans ((M.bind_of_ok (needTrack_run hl)).trans ?_)
  exact (M.bind_of_ok (needNoFaults_of ho)).trans (M.bind_of_error (needPort_asks hown hfree))

end

/-- Settles O42: each meaning passes its guards, or stops at the first that refuses, and then makes one change of the head's
record, of the engine's lists, or of the track and its word. -/
theorem headInstructions : Obligations.HeadInstructions := by
  unfold Obligations.HeadInstructions
  intro s t u d h q tr dir a x v hdeck hnd hlive htrack hidle
  have hh : s.OnHead h tr := ⟨hdeck, State.notDrain_iff.mp hnd, hlive, htrack, hidle⟩
  intro core T H head bad under next owns asked seeks moved
  refine ⟨fun hd hl => ?_, fun hop => ⟨fun hlo hhi hl => hstride_run hh hl hop hlo hhi, fun hr => ?_, fun hx => ?_,
    fun hx hl hpv hr => hseek_run hh hl hop hx hpv hr, ?_⟩, fun hl hpv => hmark_run hh hl hpv,
    fun hl hpv hr => hrew_run hh hl hpv hr, fun ho hl hpv => ?_, fun hown hl hfree => ?_,
    fun hold hl hpv => hgive_gives hh hl hpv hold, fun hl => ?_⟩
  · rw [hpos_run hh hl hd, Head.word_eq]
    rfl
  · obtain ⟨_, hx, _⟩ := operands_one hop
    exact hstride_illop hh hx hr
  · obtain ⟨_, hread, _⟩ := operands_one hop
    exact hseek_illop hh hread hx
  · intro r put h0 hn hdefd hentry halone hl hr
    exact ⟨hburst_run hh hl ⟨hdefd, hentry, fun h => Bool.noConfusion h, halone⟩ hop h0 hn hr,
      fun heng => hfill_run hh hl ⟨hdefd, hentry, fun _ => heng, halone⟩ hop h0 hn hr⟩
  · have hp : s.AtPort h tr := ⟨hh, hl, ho, hpv⟩
    refine ⟨htake_run hp, fun h0 hs => hrealign_still hp h0 hs, fun h0 hs => hrealign_shifts hp h0 hs,
      fun hs hord => ⟨fun hbad hd => ?_, fun hw hv => hwr_writes hp hs hord hw hv⟩, fun hs hord hmode => ?_⟩
    · obtain ⟨z, y, hz, hmoved, hmem, hy⟩ := hrd_reads hp hs hord hbad hd
      exact ⟨z, y, hz, hmoved, hmem, hy⟩
    · exact run_of_trapIn ((M.bind_of_ok (needHead_run hh)).trans (M.bind_of_error (needWord_slips hp hs hord hmode)))
  · exact ⟨port_asked hh hl hown hfree, port_asked hh hl hown hfree, fun ho => hrd_asks hh hl hown hfree ho⟩
  · exact heads_lost hh hl

end Sys2Proof.Machine
end

section
/-! Rounding to nearest (O22), and the words written out from the encodings (O56). -/
namespace Sys2Proof.Machine

/-! ## Rounding to nearest (R87) -/

/-- On a coarser scale, nearest rounding takes the floor or its successor: the successor where the remainder exceeds half, or
is half and the floor is odd. -/
theorem roundAt_rne_coarser {m k u : Nat} {e q : Int} {neg : Bool} (hq : q = e + k) (hk : 0 < k) :
    roundAt .rne neg u ⟨m, e, false⟩ q =
      (if 2 ^ k < 2 * (m % 2 ^ k) ∨ 2 * (m % 2 ^ k) = 2 ^ k ∧ m / 2 ^ k % 2 = 1 then m / 2 ^ k + 1 else m / 2 ^ k,
        m % 2 ^ k != 0) := by
  have hlt : ¬ q ≤ e := by omega
  have hd : (q - e).toNat = k := by omega
  unfold roundAt
  rw [if_neg hlt, hd]
  simp [roundsUp]

/-- On its own scale a magnitude is kept. -/
theorem roundAt_same {rnd : Rnd} {m u : Nat} {q : Int} {neg : Bool} : roundAt rnd neg u ⟨m, q, false⟩ q = (m, false) := by
  simp [roundAt]

/-- The floor `l` with remainder `r`, or its successor, whichever nearest rounding takes, lies within half of the step `d`;
a tie goes to the even one, and the exact value is met only without a remainder. -/
theorem nearest_within_half {l r d n m : Nat} (hm : d * l + r = m) (hr : r < d)
    (hn : n = if d < 2 * r ∨ 2 * r = d ∧ l % 2 = 1 then l + 1 else l) :
    (2 * (m : Int) - 2 * (n * d : Int)).natAbs ≤ d ∧
      ((2 * (m : Int) - 2 * (n * d : Int)).natAbs = d → n % 2 = 0) ∧ (r ≠ 0 ↔ m ≠ n * d) := by
  have hm' : (m : Int) = d * l + r := by rw [← hm]; push_cast; rfl
  rw [hn]
  split
  · have hd : 2 * (m : Int) - 2 * (((l + 1 : Nat) : Int) * d) = 2 * r - 2 * d := by rw [hm']; push_cast; ring
    have hn' : (l + 1) * d = d * l + d := by ring
    rw [hd, hn']
    omega
  · have hd : 2 * (m : Int) - 2 * ((l : Int) * d) = 2 * r := by rw [hm']; ring
    rw [hd, Nat.mul_comm l d]
    omega

/-- Settles O22: on the exact value's own scale nothing is lost; on a coarser one nearest rounding takes the floor or its
successor by the remainder. -/
theorem roundToNearestEven : Obligations.RoundToNearestEven := by
  unfold Obligations.RoundToNearestEven
  intro m k e q neg u hq r
  rcases Nat.eq_zero_or_pos k with rfl | hk
  · obtain rfl : q = e := by omega
    have hr : r = (m, false) := roundAt_same
    simp [hr]
  · have hr : r = _ := roundAt_rne_coarser hq hk
    obtain ⟨hhalf, heven, hexact⟩ := nearest_within_half (Nat.div_add_mod m (2 ^ k)) (Nat.mod_lt m (Nat.two_pow_pos k))
      (congrArg Prod.fst hr)
    push_cast at hhalf heven
    refine ⟨hhalf, fun htie _ => heven htie, ?_⟩
    rw [← hexact, congrArg Prod.snd hr, bne_iff_ne]

/-- Settles O56: the decoder is evaluated on the four words. -/
theorem decodeSpecWords : Obligations.DecodeSpecWords := by
  unfold Obligations.DecodeSpecWords
  exact ⟨rfl, rfl, rfl, _, _, rfl⟩
end Sys2Proof.Machine
end

section
/-! Conversions, packing, the dot product, selector blocks and the generator (O25). -/
namespace Sys2Proof.Machine
variable {s t u v : State}

/-! ## Lanes of a result (R149) -/

/-- Results of all elements of a register: of those that `act` names by `g`, the others old or zero, without flags. -/
def maskedResults (W : Nat) (act : Nat → Bool) (zero : Bool) (o : VReg) (g : Nat → Nat × Nat) : List (Nat × Nat) :=
  (List.range (1024 / W)).map fun i => if act i then g i else (if zero then 0 else elem W o i, 0)

theorem elem_maskedResults {W : Nat} {act : Nat → Bool} {zero : Bool} {o : VReg} {g : Nat → Nat × Nat} {i : Nat}
    (hi : i < 1024 / W) : elem W (packV W ((maskedResults W act zero o g).map (·.1))) i =
      if act i then (g i).1 % 2 ^ W else if zero then 0 else elem W o i := by
  rw [maskedResults, List.map_map, elem_packV (by simpa using Nat.mul_div_le 1024 W)]
  simp only [List.getD_eq_getElem?_getD, List.getElem?_map, List.getElem?_range hi, Option.map_some, Option.getD_some,
    Function.comp_apply]
  cases act i
  · cases zero <;> simp [Nat.mod_eq_of_lt (elem_lt W o i)]
  · rfl

theorem lanes_maskedResults {W : Nat} {m : KReg} {zero : Bool} {o : VReg} {g : Nat → Nat × Nat} {f : Nat → Nat}
    (hg : ∀ j, j < 1024 / W → (g j).1 = f j) :
    State.lanes W m zero o (packV W ((maskedResults W (active W m) zero o g).map (·.1))) f :=
  fun j hj => (elem_maskedResults hj).trans (by rw [hg j hj]; rfl)

/-- An instruction that ends with the results of all elements. -/
theorem ends_with_results {i : Instr} {rsr : Bool} {n d W : Nat} {zero : Bool} {o : VReg} (act : Nat → Bool)
    (g : Nat → Nat × Nat) (he : exec i s = .next (u.vectorDone rsr n (orFlags (maskedResults W act zero o g)) d
      (packV W ((maskedResults W act zero o g).map (·.1))))) :
    ∃ r fl, exec i s = .next (u.vectorDone rsr n fl d r) ∧ ∀ j, j < 1024 / W → elem W r j =
      if act j then (g j).1 % 2 ^ W else if zero then 0 else elem W o j :=
  ⟨_, _, he, fun _ hj => elem_maskedResults hj⟩

/-- The same, where the active elements are those of a mask and `f` gives their results. -/
theorem ends_with_lanes {i : Instr} {rsr : Bool} {n d W : Nat} {m : KReg} {zero : Bool} {o : VReg} {f : Nat → Nat}
    (g : Nat → Nat × Nat) (he : exec i s = .next (u.vectorDone rsr n (orFlags (maskedResults W (active W m) zero o g)) d
      (packV W ((maskedResults W (active W m) zero o g).map (·.1))))) (hg : ∀ j, j < 1024 / W → (g j).1 = f j) :
    ∃ r fl, exec i s = .next (u.vectorDone rsr n fl d r) ∧ State.lanes W m zero o r f :=
  ⟨_, _, he, lanes_maskedResults hg⟩

/-! ## What operand reads keep (R53, R89) -/

/-- The state is another one but for the number of free values. -/
def State.SameButFree (t s : State) : Prop := t = { s with free := t.free }

theorem State.SameButFree.trans (h₁ : t.SameButFree s) (h₂ : u.SameButFree t) : u.SameButFree s := by
  unfold State.SameButFree at *
  rw [h₂, h₁]

theorem State.SameButFree.cx (h : t.SameButFree s) : t.cx = s.cx := by rw [h]

theorem seedFree_of_same (h : t.SameButFree s) : t.seedFree = s.seedFree := by rw [h]; rfl

/-- The generator's values are those of the state before the reads. -/
theorem seeds_after {rsr : Bool} {n : Nat} (hv : v.SameButFree s) (hs : rsr = true → s.seedFree = true) :
    seeds rsr n v = .ok ((if rsr then genRun n s.cx.c.srseed else ([], s.cx.c.srseed)), v) := by
  have h := seeds_run (s := v) (n := n) (rsr := rsr) fun hr => (seedFree_of_same hv).trans (hs hr)
  rwa [hv.cx] at h

theorem seeds_getD {rsr : Bool} {n i : Nat} :
    (if rsr then genRun n s.cx.c.srseed else ([], s.cx.c.srseed)).1.getD i 0 = s.rnds rsr n i := by
  cases rsr <;> rfl

theorem seedList_getD {rsr : Bool} {n i : Nat} :
    (if rsr then (genRun n s.cx.c.srseed).1 else []).getD i 0 = s.rnds rsr n i := by
  cases rsr <;> rfl

/-- The end of a vector instruction once its sources are freed, with the generator as the reads found it. -/
theorem vectorDone_after {rsr : Bool} {n fl d : Nat} {x : VReg} {l : List Src} (hv : v.SameButFree s)
    (hd : (v.freedV l).roomV d = true) :
    (do setFlags fl
        keepSeed rsr (if rsr then genRun n s.cx.c.srseed else ([], s.cx.c.srseed)).2
        writeV d x
        advance : M Unit) (v.freedV l) = .ok ((), (v.freedV l).vectorDone rsr n fl d x) := by
  refine vectorDone_run hd fun hr => ?_
  rw [hr, freedV_ctl, hv.cx]
  rfl

theorem readsVs_one {n : Nat} {x : VReg} (h : s.readsVs [n] = some ([x], t)) : s.readsV n = some (x, t) := by
  simp only [State.readsVs] at h
  split at h
  · cases h
  next h1 => cases h; exact h1

theorem readsVs_two {n k : Nat} {x y : VReg} (h : s.readsVs [n, k] = some ([x, y], u)) :
    ∃ t, s.readsV n = some (x, t) ∧ t.readsV k = some (y, u) := by
  unfold State.readsVs at h
  split at h
  · cases h
  next x' t h1 =>
    split at h
    · cases h
    next ys u' h2 => cases h; exact ⟨t, h1, readsVs_one h2⟩

theorem operandsVD_split {srcs : List Src} {k d : Nat} {xs : List VReg} {m : KReg} {o : VReg}
    (h : s.operandsVD srcs k d = some ((xs, m, o), u)) :
    ∃ t w v, s.readsVs (srcs.map (·.n)) = some (xs, t) ∧ t.readsK k = some (m, w) ∧
      w.readsV d = some (o, v) ∧ u = v.freedV srcs := by
  unfold State.operandsVD at h
  split at h
  · cases h
  next xs' t h1 =>
    split at h
    · cases h
    next m' w h2 =>
      split at h
      · cases h
      next o' v h3 =>
        cases h
        exact ⟨t, w, v, h1, h2, h3, rfl⟩

section
variable {q : VQ} {d : Nat} {a b : Src} {x y o : VReg} {m : KReg}

/-! ## Packing and unpacking (R167) -/

theorem getD_map_range {n i : Nat} (g : Nat → Nat × Nat) (hi : i < n) : ((List.range n).map g).getD i (0, 0) = g i := by
  simp [List.getD_eq_getElem?_getD, hi]

theorem two_mul_wideCount {ty : ETy} (h : tyWidth (wideOf ty) = 2 * tyWidth ty) :
    2 * (1024 / tyWidth (wideOf ty)) = 1024 / tyWidth ty := by
  rw [h, ← Nat.div_div_eq_div_mul]
  cases ty <;> rfl

theorem vpack_run (hs : q.rnd = .rsr → s.seedFree = true)
    (h : s.operandsV [a, b] q.k q.zero d = some (([x, y], m, o), u)) (hd : u.roomV d = true)
    (hw : tyWidth (wideOf q.ty) = 2 * tyWidth q.ty) :
    let rsr := decide (q.rnd = .rsr)
    let w := tyWidth q.ty
    let ww := tyWidth (wideOf q.ty)
    let n := 1024 / ww
    ∃ r fl, exec (.vpack q d a b) s = .next (u.vectorDone rsr (1024 / w) fl d r) ∧
      State.lanes w m q.zero o r fun i => (convElem q.ty (wideOf q.ty) q.rnd q.sat (s.rnds rsr (1024 / w) i)
        (if i < n then elem ww x i else elem ww y (i - n))).1 := by
  intro rsr w ww n
  refine ends_with_lanes _ (vWhole_run h (fun hr => hs (of_decide_eq_true hr)) hd) fun i hi => ?_
  refine (congrArg Prod.fst (getD_map_range _ (hi.trans_eq (two_mul_wideCount hw).symm))).trans ?_
  simp only [seedList_getD]
  rfl

theorem vunpk_run {half : Nat} (h : s.operandsV [a] q.k q.zero d = some (([x], m, o), u)) (hd : u.roomV d = true) :
    let w := tyWidth q.ty
    let ww := tyWidth (wideOf q.ty)
    let n := 1024 / ww
    ∃ r fl, exec (.vunpk ⟨q.ty, q.k, q.zero⟩ d a half) s = .next (u.vectorDone false n fl d r) ∧
      State.lanes ww m q.zero o r fun i => (convElem (wideOf q.ty) q.ty .rne false 0 (elem w x (half * n + i))).1 := by
  intro w ww n
  refine ends_with_lanes _ (vWhole_run h (fun hr => Bool.noConfusion hr) hd) fun i hi => ?_
  exact congrArg Prod.fst (getD_map_range _ hi)

/-! ## Dot product (R168) -/

theorem vdot_run (hs : q.rnd = .rsr → s.seedFree = true)
    (h : s.operandsVD [a, b] q.k d = some (([x, y], m, o), u)) (hd : u.roomV d = true) :
    let rsr := decide (q.rnd = .rsr)
    let w := tyWidth q.ty
    ∃ r fl, exec (.vdot q d a b) s = .next (u.vectorDone rsr 32 fl d r) ∧
      State.lanes 32 m q.zero o r fun l =>
        (dotLane q (laneElems w x l) (laneElems w y l) (elem 32 o l) (s.rnds rsr 32 l)).1 := by
  intro rsr w
  obtain ⟨t, u', v, hxy, hm, ho, rfl⟩ := operandsVD_split h
  obtain ⟨t', hx, hy⟩ := readsVs_two hxy
  have hv : v.SameButFree s := ((State.SameButFree.trans (readsV_same hx) (readsV_same hy)).trans (readsK_same hm)).trans
    (readsV_same ho)
  refine ends_with_lanes (fun l => dotLane q (laneElems w x l) (laneElems w y l) (elem 32 o l) (s.rnds rsr 32 l))
    (run_of_ok ?_) fun i _ => rfl
  rw [M.bind_of_ok (readV_of_readsV hx), M.bind_of_ok (readV_of_readsV hy), M.bind_of_ok (readK_of_readsK hm),
    M.bind_of_ok (readV_of_readsV (a := ⟨d, false⟩) ho),
    M.bind_of_ok (seeds_after (rsr := isRsr q.rnd) hv fun hr => hs (of_decide_eq_true hr))]
  simp only [seeds_getD]
  refine (M.bind_of_ok (freeV_run a)).trans ((M.bind_of_ok (freeV_run b)).trans ?_)
  exact vectorDone_after (l := [a, b]) hv hd

/-! ## Conversion (R166) -/

/-- The destination's previous bits, read where the instruction needs them anyway or merges. -/
theorem readOld_of_readsOldIf {p : Prop} [Decidable p] {k d : Nat} {zero : Bool} {o : VReg}
    (h : (if (p ∧ zero = false) ∨ (k ≠ 0 ∧ zero = false) then u.readsV d else some (0, u)) = some (o, v)) :
    readOld (p && !zero) k zero d u = .ok (o, v) := by
  unfold readOld
  split at h
  next hc =>
    rw [if_pos (by simpa using hc)]
    exact readV_of_readsV h
  next hc =>
    rw [if_neg (by simpa using hc)]
    cases h
    rfl

theorem readsOldIf_same {p : Prop} [Decidable p] {d : Nat} {o : VReg}
    (h : (if p then u.readsV d else some (0, u)) = some (o, v)) : v.SameButFree u := by
  split at h
  · exact readsV_same h
  · cases h
    rfl

theorem vcvt_run {sty : ETy} (hs : q.rnd = .rsr → s.seedFree = true) (hx : s.readsV a.n = some (x, t))
    (hm : t.readsK q.k = some (m, u))
    (ho : (if (tyWidth q.ty < tyWidth sty ∧ q.zero = false) ∨ (q.k ≠ 0 ∧ q.zero = false) then u.readsV d else some (0, u)) =
      some (o, v)) (hd : (v.freedV [a]).roomV d = true) :
    let rsr := decide (q.rnd = .rsr)
    let w := tyWidth q.ty
    let c := 1024 / Max.max (tyWidth sty) w
    ∃ r fl, exec (.vcvt q d a sty) s = .next ((v.freedV [a]).vectorDone rsr c fl d r) ∧
      ∀ i, i < 1024 / w → elem w r i = if i < c ∧ m.getLsbD (w * i / 8) = true
        then (convElem q.ty sty q.rnd q.sat (s.rnds rsr c i) (elem (tyWidth sty) x i)).1 % 2 ^ w
        else if q.zero then 0 else elem w o i := by
  intro rsr w c
  have hv : v.SameButFree s := (State.SameButFree.trans (readsV_same hx) (readsK_same hm)).trans (readsOldIf_same ho)
  obtain ⟨r, fl, he, hr⟩ := ends_with_results (i := .vcvt q d a sty) (s := s) (u := v.freedV [a]) (rsr := rsr) (n := c) (d := d)
    (W := w) (zero := q.zero) (o := o) (fun i => i < c && active w m i)
    (fun i => convElem q.ty sty q.rnd q.sat (s.rnds rsr c i) (elem (tyWidth sty) x i)) (run_of_ok (by
      rw [M.bind_of_ok (readV_of_readsV hx), M.bind_of_ok (readK_of_readsK hm), M.bind_of_ok (readOld_of_readsOldIf ho),
        M.bind_of_ok (seeds_after (rsr := isRsr q.rnd) hv fun hr => hs (of_decide_eq_true hr))]
      simp only [seeds_getD]
      exact (M.bind_of_ok (freeV_run a)).trans (vectorDone_after (l := [a]) hv hd)))
  exact ⟨r, fl, he, fun i hi => (hr i hi).trans (by simp only [Bool.and_eq_true, decide_eq_true_eq]; rfl)⟩

/-! ## The quantising store's block (R96, R97, R169) -/

theorem quantise_codes_length (sb8 : Bool) (q : Int) (xs : List Int) (enc : Nat) :
    (quantise sb8 q xs enc).codes.length = xs.length := by simp [quantise]

theorem packBlock_length_le {sb8 : Bool} {b sel : Nat} {codes : List Nat} (h : codes.length = 32) :
    (packBlock sb8 b sel codes).length ≤ 128 := by
  cases sb8 <;> simp [packBlock, h]

/-- A block fits into a register. -/
theorem quantBlock_length_le (sb8 : Bool) (allow : Nat) {vs : List FV} (h : vs.length = 32) :
    (quantBlock sb8 allow vs).1.length ≤ 128 := by
  unfold quantBlock
  split
  · exact packBlock_length_le List.length_replicate
  · dsimp only
    split
    · exact Nat.zero_le _
    next c l hc =>
      have hlen : ∀ e ∈ c :: l, e.codes.length = 32 := by
        rw [← hc]
        intro e he
        obtain ⟨n, -, rfl⟩ := List.mem_map.mp he
        rw [quantise_codes_length, List.length_map, h]
      refine packBlock_length_le (List.foldlRecOn (motive := fun e : Cand => e.codes.length = 32) l _ (hlen c List.mem_cons_self)
        fun x hx e he => ?_)
      split
      · exact hlen e (List.mem_cons_of_mem _ he)
      · exact hx

theorem vqenc_run {sb8 : Bool} {allow : Nat} (hx : s.readsV a.n = some (x, t)) (hd : (t.freedV [a]).roomV d = true) :
    let bl := quantBlock sb8 allow ((List.range 32).map fun l => decF32 (elem 32 x l))
    ∃ r, exec (.vqenc sb8 allow d a) s = .next ((t.freedV [a]).vectorDone false 0 bl.2 d r) ∧
      ∀ j, j < 128 → elem 8 r j = bl.1.getD j 0 % 256 := by
  intro bl
  have hlen : bl.1.length ≤ 128 := quantBlock_length_le sb8 allow (by rw [List.length_map, List.length_range])
  refine ⟨packV 8 bl.1, run_of_ok ?_, fun j _ => elem_packV (by omega) j⟩
  refine (M.bind_of_ok (readV_of_readsV hx)).trans ((M.bind_of_ok (freeV_run a)).trans ?_)
  exact vectorDone_run (rsr := false) (n := 0) (y := 0) hd fun hr => Bool.noConfusion hr

/-! ## The generator (R171) -/

theorem laneResults_seeds {W : Nat} {zero : Bool} {us : List Nat} :
    laneResults W (1024 / W) m zero [] o us (fun _ _ z => (z, 0)) =
      maskedResults W (active W m) zero o fun l => (us.getD l 0, 0) := rfl

theorem vseed_run {k : Nat} {zero : Bool} (hm : s.readsK k = some (m, t)) (ho : t.readsOld k zero d = some (o, u))
    (hd : u.roomV d = true) (hs : s.seedFree = true) :
    ∃ r, exec (.vseed k zero d) s =
        .next ((u.onCtl fun c => { c with srseed := (genRun 32 s.cx.c.srseed).2 }).gotV d r).gone ∧
      State.lanes 32 m zero o r fun l => (genRun 32 s.cx.c.srseed).1.getD l 0 := by
  have hu : u.SameButFree s := State.SameButFree.trans (readsK_same hm) (readsOld_same ho)
  have hus := seeds_after (rsr := true) (n := 32) hu fun _ => hs
  generalize genRun 32 s.cx.c.srseed = us at hus ⊢
  refine ⟨_, run_of_ok ?_, lanes_maskedResults (g := fun l => (us.1.getD l 0, 0)) fun _ _ => rfl⟩
  rw [M.bind_of_ok (readK_of_readsK hm), M.bind_of_ok (readOld_of_readsOld ho), M.bind_of_ok hus, M.bind_of_ok keepSeed_run,
    if_pos rfl, if_pos rfl, laneResults_seeds (W := 32)]
  exact M.bind_of_ok (f := fun _ => advance) (writeV_of_roomV (s := u.onCtl _) hd)

/-! ## Blocks in registers (R95, R170) -/

/-- Each lane's value and flags (R170): those of a corrupt block by `mode`.SELMODE. -/
def dqLaneOf (rnd : Rnd) (sat : Bool) (mode : Nat) (bl : Block) (z : Nat → Nat) (l : Nat) : Nat × Nat :=
  match bl with
  | .corrupt => (if mode = 1 then 0x7FC00000 else 0, 0)
  | .nanBlock => (0x7FC00000, 0)
  | .vals vs => dqLane rnd sat (vs.getD l (.nan false)) (z l)

/-- What `vdq` does once its operands are read: a corrupt block is reported where a lane is active; then the lanes, and the
last state of the generator. -/
def dqEnds (bl : Block) (any : Bool) (mode head : Nat) (res : List (Nat × Nat)) (rsr : Bool) (last : Word) (d : Nat) (a : Src) :
    M Unit := do
  if bl = .corrupt && any then
    setFlags fSELBAD
    if mode = 0 then trapIn cSELBAD (BitVec.ofNat 64 head)
  freeV a
  setFlags (orFlags res)
  keepSeed rsr last
  writeV d (packV 32 (res.map (·.1)))
  advance

theorem execVdq_reads {kind : DqKind} {k : Nat} {zero : Bool} {rnd : Rnd} {sat : Bool} (hs : rnd = .rsr → s.seedFree = true)
    (hx : s.readsV a.n = some (x, t)) (hm : t.readsK k = some (m, u)) (ho : u.readsOld k zero d = some (o, v)) :
    ∃ p : M Unit, exec (.vdq kind rnd sat k zero d a) s = run p s ∧
      p s = dqEnds (dqBlock kind ((List.range 34).map (elem 8 x))) ((List.range 32).any fun l => active 32 m l) s.cx.c.selmode
        (elem 8 x 0 + elem 8 x 1 * 256) (maskedResults 32 (active 32 m) zero o (dqLaneOf rnd sat s.cx.c.selmode
          (dqBlock kind ((List.range 34).map (elem 8 x))) (s.rnds (isRsr rnd) 32))) (isRsr rnd)
        (if isRsr rnd then genRun 32 s.cx.c.srseed else ([], s.cx.c.srseed)).2 d a v := by
  have hv : v.SameButFree s := (State.SameButFree.trans (readsV_same hx) (readsK_same hm)).trans (readsOld_same ho)
  refine ⟨_, rfl, ?_⟩
  rw [M.bind_of_ok (readV_of_readsV hx), M.bind_of_ok (readK_of_readsK hm), M.bind_of_ok (readOld_of_readsOld ho),
    M.bind_of_ok (seeds_after (rsr := isRsr rnd) hv fun hr => hs (of_decide_eq_true hr)), M.bind_get, hv.cx]
  simp only [seeds_getD]
  rfl

theorem vdq_run {kind : DqKind} (hs : q.rnd = .rsr → s.seedFree = true)
    (h : s.operandsV [a] q.k q.zero d = some (([x], m, o), u)) (hd : u.roomV d = true) :
    let rsr := decide (q.rnd = .rsr)
    ∀ bl, bl = dqBlock kind ((List.range 34).map (elem 8 x)) → bl ≠ .corrupt →
      ∃ r fl, exec (.vdq kind q.rnd q.sat q.k q.zero d a) s = .next (u.vectorDone rsr 32 fl d r) ∧
      State.lanes 32 m q.zero o r fun l =>
        match bl with
        | .vals vs => (dqLane q.rnd q.sat (vs.getD l (.nan false)) (s.rnds rsr 32 l)).1
        | _ => 0x7FC00000 := by
  intro rsr bl hbl hgood
  obtain ⟨t, w, v, hx, hm, ho, rfl⟩ := operandsV_split h
  have hx := readsVs_one hx
  have hv : v.SameButFree s := (State.SameButFree.trans (readsV_same hx) (readsK_same hm)).trans (readsOld_same ho)
  obtain ⟨p, he, hp⟩ := execVdq_reads (kind := kind) (sat := q.sat) hs hx hm ho
  rw [← hbl] at hp
  refine ends_with_lanes (dqLaneOf q.rnd q.sat s.cx.c.selmode bl (s.rnds rsr 32)) (he.trans (run_of_ok (hp.trans ?_))) fun l _ => ?_
  · unfold dqEnds
    simp only [hgood, decide_false, Bool.false_and, Bool.false_eq_true, if_false]
    exact (M.bind_of_ok (freeV_run a)).trans (vectorDone_after (l := [a]) hv hd)
  · cases bl with
    | corrupt => exact absurd rfl hgood
    | nanBlock => rfl
    | vals vs => rfl

/-! ## A corrupt block (R170) -/

theorem flagged_of_notDrain {f : Nat} (h : s.cx.drain = none) : s.flagged f = s.onCx fun c => c.setFlags f := by
  unfold State.flagged
  rw [h]

theorem freedV_setFlags (f : Nat) : ∀ (l : List Src) (s : State),
    (s.onCx fun c => c.setFlags f).freedV l = (s.freedV l).onCx fun c => c.setFlags f
  | [], _ => rfl
  | a :: l, s => by
    simp only [State.freedV]
    rw [← freedV_setFlags f l]
    split <;> rfl

theorem freedV_drain : ∀ (l : List Src) (s : State), (s.freedV l).cx.drain = s.cx.drain
  | [], _ => rfl
  | a :: l, s => by
    simp only [State.freedV]
    rw [freedV_drain l]
    split <;> rfl

/-- What a vector instruction leaves of the flags and of its destination, outside the drain slot. -/
theorem vectorDone_leaves {rsr : Bool} {n f : Nat} (h : s.cx.drain = none) :
    (s.vectorDone rsr n f d x).cx.r.v.get? d = some x ∧
      (s.vectorDone rsr n f d x).cx.c.fflags = s.cx.c.fflags ||| BitVec.ofNat 64 f := by
  unfold State.vectorDone
  rw [flagged_of_notDrain h, gone_r, gone_c]
  cases rsr <;> exact ⟨Tab.get?_set_self _ _ _, rfl⟩

theorem orFlags_eq_zero {l : List (Nat × Nat)} (h : ∀ r ∈ l, r.2 = 0) : orFlags l = 0 :=
  List.foldlRecOn (motive := fun f : Nat => f = 0) l _ rfl fun f hf r hr => by rw [hf, h r hr]; rfl

/-- A corrupt block sets no flag in its lanes. -/
theorem dqFlags_corrupt {act : Nat → Bool} {zero : Bool} {rnd : Rnd} {sat : Bool} {mode : Nat} {z : Nat → Nat} :
    orFlags (maskedResults 32 act zero o (dqLaneOf rnd sat mode .corrupt z)) = 0 := by
  refine orFlags_eq_zero fun r hr => ?_
  obtain ⟨l, -, rfl⟩ := List.mem_map.mp hr
  split <;> rfl

/-- A corrupt block that does not trap: its flag is set, and the instruction ends as any other. -/
theorem dqEnds_goes {mode head : Nat} {res : List (Nat × Nat)} {rsr : Bool} (hmode : mode ≠ 0) (hdr : v.cx.drain = none)
    (hv : v.SameButFree s) (hd : (v.freedV [a]).roomV d = true) :
    dqEnds .corrupt true mode head res rsr (if rsr then genRun 32 s.cx.c.srseed else ([], s.cx.c.srseed)).2 d a v =
      .ok ((), ((v.freedV [a]).onCx fun c => c.setFlags fSELBAD).vectorDone rsr 32 (orFlags res) d
        (packV 32 (res.map (·.1)))) := by
  rw [dqEnds, if_pos (by decide), M.bind_of_ok (setFlags_run _), if_neg hmode, flagged_of_notDrain hdr]
  refine (M.bind_of_ok (freeV_run a)).trans ((congrArg _ (freedV_setFlags _ [a] v)).trans (vectorDone_run hd fun hr => ?_))
  have hseed : (v.freedV [a]).cx.c.srseed = s.cx.c.srseed := by rw [freedV_ctl, hv.cx]
  rw [hr, if_pos rfl, ← hseed]
  rfl

section
variable {kind : DqKind} {rnd : Rnd} {sat zero : Bool} (hs : rnd = .rsr → s.seedFree = true)
  (h : s.operandsV [a] 0 zero d = some (([x], m, o), u))
  (hbl : dqBlock kind ((List.range 34).map (elem 8 x)) = .corrupt)
include hs h hbl

/-- Under `k0` every lane is active, so a corrupt block is reported. -/
theorem execVdq_corrupt : ∃ (p : M Unit) (v : State), exec (.vdq kind rnd sat 0 zero d a) s = run p s ∧ v.SameButFree s ∧
    m = BitVec.allOnes 128 ∧ u = v.freedV [a] ∧
    p s = dqEnds .corrupt true s.cx.c.selmode (elem 8 x 0 + elem 8 x 1 * 256)
      (maskedResults 32 (active 32 m) zero o (dqLaneOf rnd sat s.cx.c.selmode .corrupt (s.rnds (isRsr rnd) 32))) (isRsr rnd)
      (if isRsr rnd then genRun 32 s.cx.c.srseed else ([], s.cx.c.srseed)).2 d a v := by
  obtain ⟨t, w, v, hx, hm, ho, rfl⟩ := operandsV_split h
  have hx := readsVs_one hx
  have hall : m = BitVec.allOnes 128 := by cases hm; rfl
  obtain ⟨p, he, hp⟩ := execVdq_reads (kind := kind) (sat := sat) hs hx hm ho
  rw [hbl, hall] at hp
  exact ⟨p, v, he, (State.SameButFree.trans (readsV_same hx) (readsK_same hm)).trans (readsOld_same ho), hall, rfl, hall ▸ hp⟩

theorem vdq_corrupt_traps (hmode : s.cx.c.mode.toNat / 4 % 4 = 0) :
    ∃ f, exec (.vdq kind rnd sat 0 zero d a) s = .next (takeTrap
      ({ s with free := f }.flagged fSELBAD) cSELBAD (BitVec.ofNat 64 (elem 8 x 0 + elem 8 x 1 * 256))) := by
  obtain ⟨p, v, he, hv, -, -, hp⟩ := execVdq_corrupt hs h hbl
  refine ⟨v.free, he.trans (run_of_trapIn (hp.trans ?_))⟩
  have hmode : s.cx.c.selmode = 0 := hmode
  have hvs : { s with free := v.free } = v := hv.symm
  rw [hvs, dqEnds, if_pos (by decide), M.bind_of_ok (setFlags_run _), if_pos hmode]
  exact M.bind_of_error rfl

theorem vdq_corrupt_goes (hd : u.roomV d = true) (hmode : s.cx.c.mode.toNat / 4 % 4 ≠ 0) (hdr : s.notDrain = true) :
    ∃ t r, exec (.vdq kind rnd sat 0 zero d a) s = .next t ∧ t.cx.r.v.get? d = some r ∧
      t.cx.c.fflags = s.cx.c.fflags ||| BitVec.ofNat 64 fSELBAD ∧
      ∀ l, l < 32 → elem 32 r l = if s.cx.c.mode.toNat / 4 % 4 = 1 then 0x7FC00000 else 0 := by
  obtain ⟨p, v, he, hv, hm, hu, hp⟩ := execVdq_corrupt (sat := sat) hs h hbl
  subst hu
  have hdr : v.cx.drain = none := hv.cx ▸ State.notDrain_iff.mp hdr
  have hmode : s.cx.c.selmode ≠ 0 := hmode
  have hff : (v.freedV [a]).cx.c.fflags = s.cx.c.fflags := by rw [freedV_ctl, hv.cx]
  obtain ⟨hgot, hflags⟩ := vectorDone_leaves (s := (v.freedV [a]).onCx fun c => c.setFlags fSELBAD)
    ((freedV_drain [a] v).trans hdr)
  refine ⟨_, _, he.trans (run_of_ok (hp.trans (dqEnds_goes hmode hdr hv hd))), hgot, ?_, fun l hl => ?_⟩
  · rw [hflags, dqFlags_corrupt, ← hff]
    exact BitVec.or_zero
  · have hact : active 32 m l = true := by
      rw [active, hm, BitVec.getLsbD_allOnes, decide_eq_true_eq]
      omega
    rw [elem_maskedResults hl, hact]
    show (if s.cx.c.selmode = 1 then 0x7FC00000 else 0) % 2 ^ 32 = if s.cx.c.selmode = 1 then 0x7FC00000 else 0
    split <;> rfl
end

end

/-- Settles O25: each instruction reads its operands and ends with the results of all elements; a corrupt block is reported
first. -/
theorem conversionsAndBlocks : Obligations.ConversionsAndBlocks := by
  unfold Obligations.ConversionsAndBlocks
  intro s t u v q sty kind sb8 allow half d a b x y o m hs rsr w ww n
  exact ⟨fun h hd hw => vpack_run hs h hd hw, fun h hd => vunpk_run h hd, fun h hd => vdot_run hs h hd,
    fun hx hm ho hd => vcvt_run hs hx hm ho hd, fun hx hd => vqenc_run hx hd, fun hm ho hd hfree => vseed_run hm ho hd hfree,
    fun h hd => vdq_run hs h hd, fun h hd hbl =>
      ⟨fun hmode => vdq_corrupt_traps hs h hbl hmode, fun hmode hdr => vdq_corrupt_goes hs h hbl hd hmode hdr⟩⟩
end Sys2Proof.Machine
end

section
/-! A step runs the instruction decoded at the pc (O60). -/
namespace Sys2Proof

/-! ## The beginning of a chain (R110) -/

/-- A chain that takes all of a list of halfwords: fewer of them hold no base halfword, and at most four stand before it. -/
theorem parseChain_whole : ∀ {hs : List Nat} {c d : Chain} {pos : Nat}, parseChain c pos hs = .ok d → d.len = pos + hs.length →
    pos ≤ 4 → pos + hs.length ≤ 5 ∧ ∀ k, k < hs.length → parseChain c pos (hs.take k) = .error .short
  | [], c, d, pos, h, _, _ => by simp [parseChain] at h
  | x :: t, c, d, pos, h, hlen, hpos => by
    rw [parseChain] at h
    split at h
    next hp =>
      split at h
      · cases h
      next h4 =>
        split at h
        · cases h
        next hb =>
          have h4 : pos ≠ 4 := by simpa using h4
          obtain ⟨hle, hshort⟩ := parseChain_whole h (by rw [hlen, List.length_cons]; omega) (by omega)
          refine ⟨by rw [List.length_cons]; omega, fun k hk => ?_⟩
          cases k with
          | zero => rfl
          | succ k =>
            rw [List.take_succ_cons, parseChain, if_pos hp, if_neg (by simpa using h4), hb]
            exact hshort k (by simpa using hk)
    next hp =>
      cases h
      have ht : t.length = 0 := by simp only [List.length_cons] at hlen; omega
      refine ⟨by rw [List.length_cons]; omega, fun k hk => ?_⟩
      obtain rfl : k = 0 := by rw [List.length_cons] at hk; omega
      rfl

/-- Halfwords that decode as a whole: one to five, and fewer of them decode to nothing. -/
theorem decodeAt_whole {hs : List Nat} {i : Instr} (h : decodeAt hs .none = .ok (i, hs.length)) :
    0 < hs.length ∧ hs.length ≤ 5 ∧ ∀ k, k < hs.length → decodeAt (hs.take k) .none = .error .short := by
  unfold decodeAt at h
  split at h
  · cases h
  next d hd =>
    split at h
    · cases h
    next hi =>
      injection h with h
      injection h with _ hlen
      obtain ⟨hle, hshort⟩ := parseChain_whole hd (by rw [hlen, Nat.zero_add]) (Nat.zero_le 4)
      refine ⟨List.length_pos_iff.mpr fun hnil => ?_, by omega, fun k hk => ?_⟩
      · rw [hnil] at hd
        cases hd
      · rw [decodeAt, hshort k hk]

theorem Tab.mem_of_get? {α : Type} {n : Nat} {x : α} : ∀ {t : Tab α}, t.get? n = some x → (n, x) ∈ t
  | [], h => by cases h
  | (m, y) :: t, h => by
    rw [Tab.get?] at h
    split at h
    next hm => cases h; exact hm ▸ List.mem_cons_self
    next => exact List.mem_cons_of_mem _ (Tab.mem_of_get? h)

theorem Tab.getD_set {α : Type} (t : Tab α) (n m : Nat) (x d : α) : (t.set n x).getD m d = if m = n then x else t.getD m d := by
  split
  next h => rw [h, Tab.getD_set_self]
  next h => exact Tab.getD_set_ne t x d h

namespace Machine
variable {s t u : State} {cid core cl part va vb : Nat} {c : Ctx}

/-! ## What a fetch leaves (R353 to R356) -/

/-- The place of a translated address depends on the tables of blocks, the memory, the routes and the windows only. -/
theorem State.place_congr {k : Acc} {p : Pte} (hv : t.variant = s.variant) (hp : t.poison = s.poison) (he : t.ecc = s.ecc)
    (hx : t.expanded = s.expanded) (hm : t.mem = s.mem) (hr : t.routes = s.routes)
    (hw : (t.part part).windows = (s.part part).windows) : t.place part va k p = s.place part va k p := by
  have hraw : t.placeRaw part va k p = s.placeRaw part va k p := by
    unfold State.placeRaw Part.spareOf State.route
    rw [hv, hw, hr]
  have hform (cmp : Bool) (blk : Nat) : t.formFault cmp blk = s.formFault cmp blk := by
    have hb : t.fetchBlock blk = s.fetchBlock blk := by
      unfold State.fetchBlock
      rw [he, hm]
    unfold State.formFault State.inForm
    rw [hx, hb]
  unfold State.place
  simp only [hraw, hp, he, hform]

/-- The states have the same page tables, with all that a walk and a held translation depend on. -/
structure State.SameTables (t s : State) : Prop where
  variant : t.variant = s.variant
  poison : t.poison = s.poison
  ecc : t.ecc = s.ecc
  mem : t.mem = s.mem
  root : ∀ p, (t.part p).root = (s.part p).root
  windows : ∀ p, (t.part p).windows = (s.part p).windows
  clusters : t.clusters = s.clusters

section
variable (h : t.SameTables s)
include h

theorem State.SameTables.entryAt {pa : Nat} : t.entryAt pa = s.entryAt pa := by rw [State.entryAt, h.mem]; rfl

theorem State.SameTables.level {table idx align : Nat} {leaf : Nat → Bool} :
    t.level table idx align leaf = s.level table idx align leaf := by
  unfold State.level State.readEntry
  rw [h.variant, h.poison, h.ecc, h.entryAt]

theorem State.SameTables.walkL2 : t.walkL2 part va = s.walkL2 part va := by
  unfold State.walkL2
  simp only [h.level, h.root]

theorem State.SameTables.walkL1 {e : Nat} : t.walkL1 e va = s.walkL1 e va := by
  unfold State.walkL1
  simp only [h.level, h.entryAt]

theorem State.SameTables.walkL0 {e : Nat} : t.walkL0 e va = s.walkL0 e va := by
  unfold State.walkL0
  rw [h.level]

theorem State.SameTables.walk : t.walk part va = s.walk part va := by
  unfold State.walk
  simp only [h.root, h.walkL2, h.walkL1, h.walkL0]

theorem State.SameTables.heldPte {vp : Nat} : t.heldPte cl part vp = s.heldPte cl part vp := by
  unfold State.heldPte Part.pinned State.cluster
  rw [h.clusters, h.windows]

theorem State.SameTables.translation (hw : t.walking = s.walking) (hc : t.walkCache = s.walkCache) :
    t.translation cl part va = s.translation cl part va := by
  have hvia {stack : Nat} : t.walkVia stack part va = s.walkVia stack part va := by
    unfold State.walkVia State.cachedEntry
    simp only [hc, h.root, h.walkL2, h.walkL1, h.walkL0]
  unfold State.translation State.walkOf
  simp only [h.root, h.heldPte, hw, hvia]

end

/-- The states differ at most in the counts of walks, the walks in progress, the walk caches and the pages seen. -/
structure State.LooksLike (t s : State) : Prop where
  rest : t = { s with parts := t.parts, walking := t.walking, walkCache := t.walkCache, forms := t.forms }
  root : ∀ p, (t.part p).root = (s.part p).root
  windows : ∀ p, (t.part p).windows = (s.part p).windows

theorem State.LooksLike.refl (s : State) : s.LooksLike s := ⟨rfl, fun _ => rfl, fun _ => rfl⟩

theorem State.LooksLike.trans (h₁ : t.LooksLike s) (h₂ : u.LooksLike t) : u.LooksLike s :=
  ⟨by rw [h₂.rest, h₁.rest], fun p => (h₂.root p).trans (h₁.root p), fun p => (h₂.windows p).trans (h₁.windows p)⟩

section
variable (h : t.LooksLike s)
include h

theorem State.LooksLike.cx : t.cx = s.cx := by rw [h.rest]
theorem State.LooksLike.mem : t.mem = s.mem := by rw [h.rest]
theorem State.LooksLike.late : t.late = s.late := by rw [h.rest]

theorem State.LooksLike.sameTables : t.SameTables s :=
  ⟨by rw [h.rest], by rw [h.rest], by rw [h.rest], h.mem, h.root, h.windows, by rw [h.rest]⟩

theorem State.LooksLike.place {k : Acc} {p : Pte} : t.place part va k p = s.place part va k p :=
  State.place_congr (by rw [h.rest]) (by rw [h.rest]) (by rw [h.rest]) (by rw [h.rest]) h.mem (by rw [h.rest]) (h.windows part)

theorem State.LooksLike.openWay {a b : Nat} : t.openWay a b = s.openWay a b := by rw [h.rest]; rfl

end

/-! ## A walk depends on the page only (R353, R354) -/

theorem State.walkL2_congr (h : va / 2 ^ 38 = vb / 2 ^ 38) : s.walkL2 part va = s.walkL2 part vb := by
  have h51 : va / 2 ^ 51 = vb / 2 ^ 51 := by omega
  unfold State.walkL2
  rw [h, h51]

theorem State.walkL1_congr {e : Nat} (h : va / 2 ^ 25 = vb / 2 ^ 25) : s.walkL1 e va = s.walkL1 e vb := by
  unfold State.walkL1
  rw [h]

theorem State.walkL0_congr {e : Nat} (h : va / 65536 = vb / 65536) : s.walkL0 e va = s.walkL0 e vb := by
  unfold State.walkL0
  rw [show va / 2 ^ 16 = vb / 2 ^ 16 from h]

theorem State.walkVia_congr {stack : Nat} (h : va / 65536 = vb / 65536) : s.walkVia stack part va = s.walkVia stack part vb := by
  have h25 : va / 2 ^ 25 = vb / 2 ^ 25 := by omega
  have h38 : va / 2 ^ 38 = vb / 2 ^ 38 := by omega
  unfold State.walkVia
  simp only [h25, h38, State.walkL2_congr h38, State.walkL1_congr h25, State.walkL0_congr h]

theorem State.translation_congr (h : va / 65536 = vb / 65536) : s.translation cl part va = s.translation cl part vb := by
  unfold State.translation
  rw [h, State.walkVia_congr h]

/-- The units of a leaf: 512 of level 1, one of level 0. -/
theorem State.walkL0_units {e : Nat} {p : Pte} (h : s.walkL0 e va = .ok p) :
    if pteLeaf e then p = pteOf e 512 else p.units = 1 := by
  unfold State.walkL0 at h
  split at h
  next hl => cases h; rw [if_pos hl]
  next hl =>
    rw [if_neg hl]
    split at h <;> cases h
    rfl

theorem bind_eq_ok_iff {ε α β : Type} {x : Except ε α} {f : α → Except ε β} {b : β} :
    x >>= f = .ok b ↔ ∃ a, x = .ok a ∧ f a = .ok b := by
  cases x with
  | error e => simp [bind, Except.bind]
  | ok a => simp [bind, Except.bind]

/-- A walk that ends: its entries, level by level. -/
theorem State.walk_eq_ok {p : Pte} : s.walk part va = .ok p ↔
    (s.part part).root ≠ 0 ∧ ∃ e2 e1, s.walkL2 part va = .ok e2 ∧ s.walkL1 e2 va = .ok e1 ∧ s.walkL0 e1 va = .ok p := by
  unfold State.walk
  by_cases hr : (s.part part).root = 0
  · simp [hr, bind, Except.bind]
  · simp only [hr, if_false, not_false_eq_true, true_and, ne_eq]
    simp only [bind_eq_ok_iff]
    exact ⟨fun ⟨e2, h2, e1, h1, h0⟩ => ⟨e2, e1, h2, h1, h0⟩, fun ⟨e2, e1, h2, h1, h0⟩ => ⟨e2, h2, e1, h1, h0⟩⟩

/-- Two pages of one partition whose translations start at one unit have one translation. -/
theorem State.walk_of_same_first {p q : Pte} (hp : s.walk part va = .ok p) (hq : s.walk part vb = .ok q)
    (h : va / 65536 - va / 65536 % p.units = vb / 65536 - vb / 65536 % q.units) : p = q := by
  obtain ⟨-, e2, e1, hp2, hp1, hp0⟩ := State.walk_eq_ok.mp hp
  obtain ⟨-, e2', e1', hq2, hq1, hq0⟩ := State.walk_eq_ok.mp hq
  have hpu := State.walkL0_units hp0
  have hqu := State.walkL0_units hq0
  have hpn : p.units = 512 ∨ p.units = 1 := by
    split at hpu
    · exact .inl (hpu ▸ rfl)
    · exact .inr hpu
  have hqn : q.units = 512 ∨ q.units = 1 := by
    split at hqu
    · exact .inl (hqu ▸ rfl)
    · exact .inr hqu
  have h25 : va / 2 ^ 25 = vb / 2 ^ 25 := by
    rcases hpn with hpn | hpn <;> rcases hqn with hqn | hqn <;> rw [hpn, hqn] at h <;> omega
  have h38 : va / 2 ^ 38 = vb / 2 ^ 38 := by omega
  obtain rfl : e2 = e2' := by
    rw [State.walkL2_congr h38, hq2] at hp2
    cases hp2
    rfl
  obtain rfl : e1 = e1' := by
    rw [State.walkL1_congr h25, hq1] at hp1
    cases hp1
    rfl
  by_cases hl : pteLeaf e1
  · rw [if_pos hl] at hpu hqu
    rw [hpu, hqu]
  · rw [if_neg hl] at hpu hqu
    have hpage : va / 65536 = vb / 65536 := by rw [hpu, hqu] at h; omega
    rw [State.walkL0_congr hpage, hq0] at hp0
    cases hp0
    rfl

/-! ## Walk caches (R356) -/

/-- No walk cache holds an entry of a partition's. -/
def State.NoneCached (s : State) (part : Nat) : Prop := ∀ e ∈ s.walkCache, ∀ x ∈ e.2, x.part ≠ part

theorem State.NoneCached.getD (h : s.NoneCached part) {stack : Nat} : ∀ x ∈ s.walkCache.getD stack [], x.part ≠ part := by
  intro x hx
  unfold Tab.getD at hx
  split at hx
  next l hl => exact h _ (Tab.mem_of_get? hl) x hx
  next => cases hx

theorem State.mem_of_cachedEntry {stack level idx e : Nat} (h : s.cachedEntry stack part level idx = some e) :
    (⟨part, level, idx, e⟩ : WalkEntry) ∈ s.walkCache.getD stack [] := by
  obtain ⟨x, hx, rfl⟩ := Option.map_eq_some_iff.mp h
  have hkey := List.find?_some hx
  simp only [Bool.and_eq_true, decide_eq_true_eq] at hkey
  obtain ⟨⟨rfl, rfl⟩, rfl⟩ := hkey
  exact List.mem_of_find?_eq_some hx

theorem State.NoneCached.cachedEntry (h : s.NoneCached part) {stack level idx : Nat} :
    s.cachedEntry stack part level idx = none := by
  cases hc : s.cachedEntry stack part level idx with
  | none => rfl
  | some e => exact absurd rfl (h.getD _ (State.mem_of_cachedEntry hc))

/-- A walk whose cached entries are those of the tables answers what a walk of the tables does. -/
theorem State.walkVia_of_walk {stack : Nat} {p : Pte} (h : s.walk part va = .ok p)
    (h1 : ∀ e1, s.cachedEntry stack part 1 (va / 2 ^ 25) = some e1 →
      ∃ e2, s.walkL2 part va = .ok e2 ∧ s.walkL1 e2 va = .ok e1)
    (h2 : ∀ e2, s.cachedEntry stack part 2 (va / 2 ^ 38) = some e2 → s.walkL2 part va = .ok e2) :
    ∃ es, s.walkVia stack part va = .ok (p, es) := by
  obtain ⟨hr, e2, e1, hl2, hl1, hl0⟩ := State.walk_eq_ok.mp h
  unfold State.walkVia
  simp only [hr, if_false]
  cases hc1 : s.cachedEntry stack part 1 (va / 2 ^ 25) with
  | some e1' =>
    obtain ⟨e2', hl2', hl1'⟩ := h1 e1' hc1
    obtain rfl : e2 = e2' := by rw [hl2] at hl2'; cases hl2'; rfl
    obtain rfl : e1 = e1' := by rw [hl1] at hl1'; cases hl1'; rfl
    exact ⟨_, bind_eq_ok_iff.mpr ⟨p, hl0, rfl⟩⟩
  | none =>
    cases hc2 : s.cachedEntry stack part 2 (va / 2 ^ 38) with
    | some e2' =>
      obtain rfl : e2 = e2' := by have := h2 e2' hc2; rw [hl2] at this; cases this; rfl
      exact ⟨_, bind_eq_ok_iff.mpr ⟨e2, rfl, bind_eq_ok_iff.mpr ⟨e1, hl1, bind_eq_ok_iff.mpr ⟨p, hl0, rfl⟩⟩⟩⟩
    | none => exact ⟨_, bind_eq_ok_iff.mpr ⟨e2, hl2, bind_eq_ok_iff.mpr ⟨e1, hl1, bind_eq_ok_iff.mpr ⟨p, hl0, rfl⟩⟩⟩⟩

/-- Without cached entries a walk is one of the tables, and the entries it used are those of the tables. -/
theorem State.walkVia_fresh {stack : Nat} {p : Pte} {es : List WalkEntry} (h : s.walkVia stack part va = .ok (p, es))
    (hno : s.NoneCached part) :
    s.walk part va = .ok p ∧ ∃ e2 e1, s.walkL2 part va = .ok e2 ∧ s.walkL1 e2 va = .ok e1 ∧
      es = [⟨part, 2, va / 2 ^ 38, e2⟩, ⟨part, 1, va / 2 ^ 25, e1⟩] := by
  unfold State.walkVia at h
  by_cases hr : (s.part part).root = 0
  · simp [hr, bind, Except.bind] at h
  · simp only [hr, if_false, hno.cachedEntry] at h
    obtain ⟨e2, hl2, h⟩ := bind_eq_ok_iff.mp h
    obtain ⟨e1, hl1, h⟩ := bind_eq_ok_iff.mp h
    obtain ⟨q, hl0, h⟩ := bind_eq_ok_iff.mp h
    cases h
    exact ⟨State.walk_eq_ok.mpr ⟨hr, e2, e1, hl2, hl1, hl0⟩, e2, e1, hl2, hl1, rfl⟩

/-! ## A miss (R355, R356) -/

/-- Where no walk of a page is in progress its translation is held or walked. -/
theorem State.translation_of_walked {p : Pte} (hl : t.LooksLike s) (hs : s.translation cl part va = .ok p)
    (ht : t.walkOf cl part (va / 65536) = none)
    (hv : s.heldPte cl part (va / 65536) = none → ∃ es, t.walkVia (cl / 96) part va = .ok (p, es)) :
    t.translation cl part va = .ok p := by
  unfold State.translation at hs ⊢
  rw [hl.root, hl.sameTables.heldPte]
  split at hs
  · cases hs
  next hr =>
    rw [if_neg hr]
    cases hh : s.heldPte cl part (va / 65536) with
    | some r => rw [hh] at hs; exact hs
    | none =>
      obtain ⟨es, hv⟩ := hv hh
      simp only [ht, hv]
      rfl

/-- What the memory shows of a page agrees with the translation (R355). -/
def State.showsPage (s : State) (part va : Nat) (p : Pte) : Prop :=
  ∀ e ∈ s.forms, e.1 = part → e.2.1 = va / 65536 - va / 65536 % p.units → e.2.2 = p

/-- The page of an entry of those seen. -/
def seenAt (part first : Nat) (e : Nat × Nat × Pte) : Bool := e.1 = part && e.2.1 = first

/-- A page seen as it was seen before, or for the first time, is noted, and nothing else changes. -/
theorem State.seen_of_shows {p : Pte} (h : s.showsPage part va p) :
    let first := va / 65536 - va / 65536 % p.units
    s.seen part (va / 65536) p =
      { s with forms := (part, first, p) :: s.forms.filter fun e => (seenAt part first e).not } := by
  intro first
  unfold State.seen
  change (match s.forms.find? (seenAt part first) with | none => _ | some (_, _, q) => _) = _
  split
  next => rfl
  next a b q hq =>
    have hhere := List.find?_some hq
    simp only [seenAt, Bool.and_eq_true, decide_eq_true_eq] at hhere
    obtain rfl : q = p := h _ (List.mem_of_find?_eq_some hq) hhere.1 hhere.2
    rw [if_pos rfl, if_pos rfl]
    rfl

theorem State.looksLike_modPart {f : Part → Part} (hroot : ∀ p, (f p).root = p.root) (hw : ∀ p, (f p).windows = p.windows) :
    (s.modPart part f).LooksLike s := by
  have hget (p : Nat) : (s.modPart part f).part p = if p = part then f (s.part part) else s.part p := Tab.getD_set _ _ _ _ _
  refine ⟨rfl, fun p => ?_, fun p => ?_⟩ <;> rw [hget] <;> split
  next hp => rw [hroot, hp]
  next => rfl
  next hp => rw [hw, hp]
  next => rfl

theorem State.LooksLike.tables (h : t.LooksLike s) (a : List Walk) (b : Tab (List WalkEntry)) (d : List (Nat × Nat × Pte)) :
    State.LooksLike { t with walking := a, walkCache := b, forms := d } s :=
  ⟨by rw [h.rest], h.root, h.windows⟩

/-- A translation that is neither held nor answered by a walk in progress is walked. -/
theorem State.translation_walked {p : Pte} (ht : s.translation cl part va = .ok p) (hh : s.heldPte cl part (va / 65536) = none)
    (hw : s.walkOf cl part (va / 65536) = none) : ∃ es, s.walkVia (cl / 96) part va = .ok (p, es) := by
  unfold State.translation at ht
  split at ht
  · cases ht
  · simp only [hh, hw] at ht
    cases hv : s.walkVia (cl / 96) part va with
    | error e => rw [hv] at ht; cases ht
    | ok r =>
      rw [hv] at ht
      cases ht
      exact ⟨r.2, rfl⟩

theorem State.looksLike_walks (s : State) (part : Nat) :
    (s.modPart part fun p => { p with walks := (p.walks + 1) % 2 ^ 64 }).LooksLike s :=
  State.looksLike_modPart (f := fun p => { p with walks := (p.walks + 1) % 2 ^ 64 }) (fun _ => rfl) fun _ => rfl

theorem State.looksLike_merged (s : State) (part : Nat) :
    (s.modPart part fun p => { p with merged := (p.merged + 1) % 2 ^ 64 }).LooksLike s :=
  State.looksLike_modPart (f := fun p => { p with merged := (p.merged + 1) % 2 ^ 64 }) (fun _ => rfl) fun _ => rfl

/-- What a state after a miss of a page shows of it: its walk is in progress; it is noted among the pages seen, and the entries
of its walk in a walk cache. -/
structure State.MissedAt (t s : State) (cl part va : Nat) (p : Pte) (es : List WalkEntry) : Prop where
  looks : t.LooksLike s
  walking : t.walking = s.walking ++ [⟨cl, part, va / 65536, some p, 0⟩]
  forms : ∀ e ∈ t.forms, e ∈ s.forms ∨ e = (part, va / 65536 - va / 65536 % p.units, p)
  caches : ∀ stack, ∀ x ∈ t.walkCache.getD stack [], x ∈ es ∨ x ∈ s.walkCache.getD stack []

theorem State.missed_walks {p : Pte} {es : List WalkEntry} (hw : s.walkOf cl part (va / 65536) = none)
    (hv : s.walkVia (cl / 96) part va = .ok (p, es)) (h : s.showsPage part va p) :
    (s.missed cl part va).MissedAt s cl part va p es := by
  unfold State.missed
  simp only [hw, hv]
  split
  · rw [State.seen_of_shows (s := s.modPart part _) h]
    refine ⟨(s.looksLike_walks part).tables _ _ _, rfl, fun e he => ?_, fun stack x hx => ?_⟩
    · rcases List.mem_cons.mp he with rfl | he
      · exact .inr rfl
      · exact .inl (List.mem_filter.mp he).1
    · replace hx : x ∈ Tab.getD (Tab.set _ _ _) _ _ := hx
      rw [Tab.getD_set] at hx
      split at hx
      next hs =>
        rcases List.mem_append.mp (List.mem_of_mem_take hx) with hx | hx
        · exact .inl hx
        · exact .inr (hs ▸ (List.mem_filter.mp hx).1)
      next => exact .inr hx
  · exact ⟨(s.looksLike_walks part).tables _ _ _, rfl, fun e he => .inl he, fun stack x hx => .inr hx⟩

/-- A miss at a page that the memory shows as its translation has it changes nothing that a fetch sees. -/
theorem State.missed_looksLike {p : Pte} (ht : s.translation cl part va = .ok p) (hh : s.heldPte cl part (va / 65536) = none)
    (h : s.showsPage part va p) : (s.missed cl part va).LooksLike s := by
  cases hw : s.walkOf cl part (va / 65536) with
  | some w =>
    unfold State.missed
    simp only [hw]
    exact (s.looksLike_merged part).tables _ _ _
  | none =>
    obtain ⟨es, hv⟩ := State.translation_walked ht hh hw
    exact (State.missed_walks hw hv h).looks

/-- A partition whose translations all come from its tables: none is cached, and no walk of its pages is in progress. -/
structure State.FromTables (s : State) (cl part : Nat) : Prop where
  tlb : ∀ e ∈ (s.cluster cl).tlb, e.1 ≠ part
  walks : ∀ w ∈ s.walking, w.part ≠ part
  caches : s.NoneCached part

theorem State.FromTables.walkOf (h : s.FromTables cl part) (vp : Nat) : s.walkOf cl part vp = none := by
  rw [State.walkOf, List.find?_eq_none]
  intro w hw
  simp [h.walks w hw]

/-- Before an access the memory shows the page of an address as its translation has it, unless that needs no walk. -/
def State.Ready (s : State) (cl part va : Nat) (p : Pte) : Prop :=
  s.translation cl part va = .ok p ∧ (s.heldPte cl part (va / 65536) = none → s.showsPage part va p)

/-- After a miss of a page another page's translation is what it was. -/
theorem State.ready_after_missed {p q : Pte} (hf : s.FromTables cl part) (hp : s.Ready cl part va p)
    (hh : s.heldPte cl part (va / 65536) = none) (hq : s.Ready cl part vb q) (hne : va / 65536 ≠ vb / 65536) :
    (s.missed cl part va).Ready cl part vb q := by
  obtain ⟨es, hv⟩ := State.translation_walked hp.1 hh (hf.walkOf _)
  have hm := State.missed_walks (hf.walkOf _) hv (hp.2 hh)
  obtain ⟨hpw, e2, e1, hl2, hl1, rfl⟩ := State.walkVia_fresh hv hf.caches
  have htrue {x : WalkEntry} (hx : x ∈ (s.missed cl part va).walkCache.getD (cl / 96) []) (hpart : x.part = part) :
      x = ⟨part, 2, va / 2 ^ 38, e2⟩ ∨ x = ⟨part, 1, va / 2 ^ 25, e1⟩ := by
    rcases hm.caches _ x hx with h | h
    · simpa using h
    · exact absurd hpart (hf.caches.getD x h)
  have hwalks : (s.missed cl part va).walkOf cl part (vb / 65536) = none := by
    have hs := hf.walkOf (vb / 65536)
    rw [State.walkOf] at hs
    simp [State.walkOf, hm.walking, List.find?_append, hs, hne]
  refine ⟨State.translation_of_walked hm.looks hq.1 hwalks fun hheld => ?_, fun hheld e he hpart hfirst => ?_⟩
  · obtain ⟨fs, hvq⟩ := State.translation_walked hq.1 hheld (hf.walkOf _)
    refine State.walkVia_of_walk (hm.looks.sameTables.walk.trans (State.walkVia_fresh hvq hf.caches).1) (fun e hc => ?_) fun e hc => ?_
    · rcases htrue (State.mem_of_cachedEntry hc) rfl with h | h
      · cases h
      · injection h with _ _ h25 h
        have h38 : vb / 2 ^ 38 = va / 2 ^ 38 := by omega
        rw [hm.looks.sameTables.walkL2, State.walkL2_congr h38, h]
        exact ⟨e2, hl2, by rw [hm.looks.sameTables.walkL1, State.walkL1_congr h25, hl1]⟩
    · rcases htrue (State.mem_of_cachedEntry hc) rfl with h | h
      · injection h with _ _ h38 h
        rw [hm.looks.sameTables.walkL2, State.walkL2_congr h38, h, hl2]
      · cases h
  · have hheld : s.heldPte cl part (vb / 65536) = none := hm.looks.sameTables.heldPte.symm.trans hheld
    rcases hm.forms e he with h | rfl
    · exact hq.2 hheld e h hpart hfirst
    · obtain ⟨fs, hvq⟩ := State.translation_walked hq.1 hheld (hf.walkOf _)
      exact State.walk_of_same_first hpw (State.walkVia_fresh hvq hf.caches).1 hfirst

/-! ## The translations of a fetch -/

/-- A fetch of `n` halfwords from `a` on, begun in `s`, has come to `w` with translations `ts`: they are those of `s`, and what
it has not translated yet is as it was. -/
structure State.Fetching (w s : State) (cl part a n : Nat) (ts : List (Nat × Except Nat Pte)) : Prop where
  looks : w.LooksLike s
  made : ∀ e ∈ ts, e.2 = s.translation cl part (e.1 * 65536) ∧ ∃ j, j < n ∧ e.1 = (a + 2 * j) / 65536
  later : ∀ j, j < n → (∀ e ∈ ts, e.1 ≠ (a + 2 * j) / 65536) → ∀ p, s.Ready cl part (a + 2 * j) p → w.Ready cl part (a + 2 * j) p
  start : ts = [] → w = s

theorem State.Fetching.init (s : State) (cl part a n : Nat) : s.Fetching s cl part a n [] :=
  ⟨.refl s, by simp, fun _ _ _ _ h => h, fun _ => rfl⟩

theorem translate_run : translate cl part va s = .ok (s.translation cl part va,
    if (s.part part).root != 0 && (s.heldPte cl part (va / 65536)).isNone then s.missed cl part va else s) := by
  unfold translate
  rw [M.bind_get, M.bind_of_ok (a := ()) (t := if (s.part part).root != 0 && (s.heldPte cl part (va / 65536)).isNone then
    s.missed cl part va else s) ((check_run _ _).trans ?_)]
  · rfl
  · split <;> rfl

section
variable {w : State} {a n j : Nat} {ts : List (Nat × Except Nat Pte)} {p : Pte}

/-- A new translation, without a miss or with one. -/
theorem State.Fetching.next (h : w.Fetching s cl part a n ts) (hn : n ≤ 5) (hj : j < n) (hp : s.Ready cl part (a + 2 * j) p)
    (hnew : ∀ e ∈ ts, e.1 ≠ (a + 2 * j) / 65536)
    (hone : (∀ k, k < n → (a + 2 * k) / 65536 = (a + 2 * j) / 65536) ∨ s.FromTables cl part) (ht : t = w ∨
      t = w.missed cl part (a + 2 * j) ∧ w.heldPte cl part ((a + 2 * j) / 65536) = none) :
    t.Fetching s cl part a n (ts ++ [((a + 2 * j) / 65536, .ok p)]) := by
  have hw := h.later j hj hnew p hp
  have hmade : ∀ e ∈ ts ++ [((a + 2 * j) / 65536, (.ok p : Except Nat Pte))],
      e.2 = s.translation cl part (e.1 * 65536) ∧ ∃ j, j < n ∧ e.1 = (a + 2 * j) / 65536 := by
    intro e he
    rcases List.mem_append.mp he with he | he
    · exact h.made e he
    · obtain rfl := List.mem_singleton.mp he
      exact ⟨hp.1.symm.trans (State.translation_congr (by omega)), j, hj, rfl⟩
  have hstart : ts ++ [((a + 2 * j) / 65536, (.ok p : Except Nat Pte))] = [] → t = s := by simp
  have hlater {k : Nat} (hk : ∀ e ∈ ts ++ [((a + 2 * j) / 65536, (.ok p : Except Nat Pte))], e.1 ≠ (a + 2 * k) / 65536) :
      (∀ e ∈ ts, e.1 ≠ (a + 2 * k) / 65536) ∧ (a + 2 * j) / 65536 ≠ (a + 2 * k) / 65536 :=
    ⟨fun e he => hk e (List.mem_append_left _ he), hk _ (List.mem_append_right _ List.mem_cons_self)⟩
  rcases ht with rfl | ⟨rfl, hheld⟩
  · exact ⟨h.looks, hmade, fun k hk hkt => h.later k hk (hlater hkt).1, hstart⟩
  · refine ⟨h.looks.trans (State.missed_looksLike hw.1 hheld (hw.2 hheld)), hmade, fun k hk hkt q hq => ?_, hstart⟩
    obtain ⟨hkts, hne⟩ := hlater hkt
    rcases hone with hone | hf
    · exact absurd (hone k hk).symm hne
    · cases ts with
      | nil =>
        obtain rfl := h.start rfl
        exact State.ready_after_missed hf hp hheld hq hne
      | cons e l =>
        -- three pages do not lie within ten bytes
        obtain ⟨-, i, hi, he⟩ := h.made e List.mem_cons_self
        have h1 := hkts e List.mem_cons_self
        have h2 := hnew e List.mem_cons_self
        rw [he] at h1 h2
        omega

/-- A halfword's page is translated: as it was in the state in which the fetch began. -/
theorem State.Fetching.translates (h : w.Fetching s (clusterOf c.id.core) c.id.part a n ts) (hn : n ≤ 5) (hj : j < n)
    (hp : s.Ready (clusterOf c.id.core) c.id.part (a + 2 * j) p) (hg : isGlobal (a + 2 * j) = true)
    (hone : (∀ k, k < n → (a + 2 * k) / 65536 = (a + 2 * j) / 65536) ∨ s.FromTables (clusterOf c.id.core) c.id.part) :
    ∃ t rs, translateAll c [a + 2 * j] ts w = .ok (rs, t) ∧ t.Fetching s (clusterOf c.id.core) c.id.part a n rs ∧
      rs.find? (fun e => e.1 = (a + 2 * j) / 65536) = some ((a + 2 * j) / 65536, .ok p) := by
  unfold translateAll
  by_cases hany : (ts.any fun e => e.1 = (a + 2 * j) / 65536) = true
  · rw [if_pos (by rw [hany, Bool.or_true])]
    refine ⟨w, ts, rfl, h, ?_⟩
    obtain ⟨e, he, heq⟩ := List.any_eq_true.mp hany
    have hsome : (ts.find? fun e => e.1 = (a + 2 * j) / 65536).isSome = true := List.find?_isSome.mpr ⟨e, he, heq⟩
    obtain ⟨r, hr⟩ := Option.isSome_iff_exists.mp hsome
    have hpage : r.1 = (a + 2 * j) / 65536 := by simpa using List.find?_some hr
    have hpte : r.2 = .ok p := by
      rw [(h.made r (List.mem_of_find?_eq_some hr)).1, ← hp.1]
      exact State.translation_congr (by omega)
    rw [hr, ← hpage, ← hpte]
  · have hnew : ∀ e ∈ ts, e.1 ≠ (a + 2 * j) / 65536 := fun e he heq =>
      hany (List.any_eq_true.mpr ⟨e, he, decide_eq_true heq⟩)
    rw [if_neg (by simp only [hg, hany]; decide), M.bind_of_ok translate_run, (h.later j hj hnew p hp).1]
    refine ⟨_, _, rfl, h.next hn hj hp hnew hone ?_, ?_⟩
    · split
      next hc =>
        simp only [Bool.and_eq_true, Option.isNone_iff_eq_none] at hc
        exact .inr ⟨rfl, hc.2⟩
      next => exact .inl rfl
    · rw [List.find?_append, List.find?_eq_none.mpr (by simpa using hnew)]
      simp

/-! ## The halfwords of a fetch -/

/-- A place that answers needs nothing brought in. -/
theorem State.bringAt_of_place {k : Acc} {key : Nat} (h : s.place part va k p = .ok key) : s.bringAt part va k p = s := by
  unfold State.place at h
  unfold State.bringAt
  split at h
  next pa hraw =>
    split at h
    · cases h
    · split at h
      next hfab => rw [if_pos hfab]
      next hfab =>
        rw [if_neg hfab]
        split at h
        · cases h
        next hform =>
          have hin : s.inForm p.cmp (pa / 4096) = true := by
            unfold State.formFault at hform
            split at hform
            next hin => exact hin
            next =>
              split at hform
              · cases hform
              · split at hform <;> cases hform
          rw [State.bringIn, hin, Bool.true_or, if_pos rfl]
  next => cases h

theorem needWay_of_open {cls : Option Nat} {st : Nat} (h : s.openWay (coreStack s.cx.id.core) st = true) :
    needWay cls st s = .ok ((), s) := by
  unfold State.openWay at h
  simp only [Bool.and_eq_true, Option.isNone_iff_eq_none] at h
  unfold needWay
  rw [M.bind_get]
  simp only [h.1, h.2]
  rfl

/-- A halfword that a fetch of a context reads at an address: its page is translated, its place answers, the way to it is
open, and memory holds it there. -/
def State.holdsHalf (s : State) (c : Ctx) (va x : Nat) : Prop :=
  isGlobal va = true ∧ ∃ p key, s.Ready (clusterOf c.id.core) c.id.part va p ∧ s.place c.id.part va .fetch p = .ok key ∧
    s.openWay (coreStack c.id.core) (stackOf key) = true ∧ natOfBytes (s.mem.bytes key 2) = x

/-- One more halfword is fetched, and the fetch ends or goes on. -/
theorem fetchFrom_step {f : Nat} {hs : List Nat} {x : Nat} (h : w.Fetching s (clusterOf c.id.core) c.id.part a n ts) (hn : n ≤ 5)
    (hj : j < n) (hx : s.holdsHalf c (a + 2 * j) x) (hcx : s.cx = c)
    (hone : (∀ k, k < n → (a + 2 * k) / 65536 = (a + 2 * j) / 65536) ∨ s.FromTables (clusterOf c.id.core) c.id.part) :
    ∃ t rs, t.Fetching s (clusterOf c.id.core) c.id.part a n rs ∧
      fetchFrom c (f + 1) (a + 2 * j) hs ts w = (match decodeAt (hs ++ [x]) .none with
        | .error .short => fetchFrom c f (a + 2 * j + 2) (hs ++ [x]) rs
        | r => pure (.got r)) t := by
  obtain ⟨hg, p, key, hready, hplace, hway, hmem⟩ := hx
  obtain ⟨t, rs, htr, ht, hfind⟩ := h.translates hn hj hready hg hone
  have hplace : t.place c.id.part (a + 2 * j) .fetch p = .ok key := ht.looks.place.trans hplace
  have hbring : t.bringAll c .fetch rs [a + 2 * j] = t := by
    unfold State.bringAll
    split
    · rfl
    · simp only [List.foldl_cons, List.foldl_nil, hfind]
      exact State.bringAt_of_place hplace
  have hwith : t.placeWith c .fetch rs (a + 2 * j) = .ok key := by
    unfold State.placeWith
    rw [if_pos hg, hfind]
    exact hplace
  have hopen : t.openWay (coreStack t.cx.id.core) (stackOf key) = true := by
    rw [ht.looks.openWay, ht.looks.cx, hcx]
    exact hway
  refine ⟨t, rs, ht, ?_⟩
  rw [fetchFrom, M.bind_of_ok htr, M.bind_modify, hbring, M.bind_get]
  simp only [hwith]
  rw [M.bind_of_ok (needWay_of_open hopen), ht.looks.mem, hmem] <;> rfl

theorem take_append_getD {hs : List Nat} (h : j < hs.length) : hs.take j ++ [hs.getD j 0] = hs.take (j + 1) := by
  rw [List.take_succ_eq_append_getElem h, List.getD_eq_getElem _ _ h]

/-- The halfwords of an instruction are fetched, from the first to the base halfword. -/
theorem fetchFrom_whole {hs : List Nat} {i : Instr} (hd : decodeAt hs .none = .ok (i, hs.length)) (hcx : s.cx = c)
    (hx : ∀ j, j < hs.length → s.holdsHalf c (a + 2 * j) (hs.getD j 0))
    (hone : (∀ j k, j < hs.length → k < hs.length → (a + 2 * k) / 65536 = (a + 2 * j) / 65536) ∨
      s.FromTables (clusterOf c.id.core) c.id.part) :
    ∃ t, fetchFrom c 5 a [] [] s = .ok (.got (.ok (i, hs.length)), t) ∧ t.LooksLike s := by
  obtain ⟨hpos, hle, hshort⟩ := decodeAt_whole hd
  have go : ∀ m f j {w ts}, j + (m + 1) = hs.length → m < f →
      w.Fetching s (clusterOf c.id.core) c.id.part a hs.length ts →
      ∃ t, fetchFrom c f (a + 2 * j) (hs.take j) ts w = .ok (.got (.ok (i, hs.length)), t) ∧ t.LooksLike s := by
    intro m
    induction m with
    | zero =>
      intro f j w ts hj hf hw
      obtain ⟨f, rfl⟩ : ∃ g, f = g + 1 := ⟨f - 1, by omega⟩
      have hlt : j < hs.length := by omega
      obtain ⟨t, rs, ht, hstep⟩ := fetchFrom_step (f := f) (hs := hs.take j) hw hle hlt (hx j hlt) hcx
        (hone.imp_left fun h k hk => h j k hlt hk)
      have hall : hs.take j ++ [hs.getD j 0] = hs := by
        rw [take_append_getD hlt, List.take_of_length_le (by omega)]
      rw [hall, hd] at hstep
      exact ⟨t, hstep, ht.looks⟩
    | succ m ih =>
      intro f j w ts hj hf hw
      obtain ⟨f, rfl⟩ : ∃ g, f = g + 1 := ⟨f - 1, by omega⟩
      have hlt : j < hs.length := by omega
      obtain ⟨t, rs, ht, hstep⟩ := fetchFrom_step (f := f) (hs := hs.take j) hw hle hlt (hx j hlt) hcx
        (hone.imp_left fun h k hk => h j k hlt hk)
      rw [take_append_getD hlt, hshort (j + 1) (by omega)] at hstep
      obtain ⟨u, hu, hlook⟩ := ih f (j + 1) (by omega) (by omega) ht
      exact ⟨u, hstep.trans hu, hlook⟩
  exact go (hs.length - 1) 5 0 (by omega) (by omega) (.init s _ _ a _)

end

/-! ## The boundary (R319 to R321) -/

/-- The context in hand, the other contexts, the cores and the number of free values are nothing to a fetch. -/
def State.besides (s : State) (c : Ctx) (o : Tab Ctx) (k : Tab Core) (f : Nat) : State :=
  { s with cx := c, others := o, cores := k, free := f }

/-- A context taken in hand and charged for its cycles, at supervisor level or without a limit, is what it was. -/
theorem State.charged_checkout (h : s.ctx? cid = some c) (hlive : c.st.live = true) (hout : c.st.out = false)
    (hdrain : c.drain = none) (hb : c.sup = true ∨ (c.st.defer = [] ∧ c.c.budget = 0xFFFFFFFF)) :
    ∃ o k f, (s.checkout cid).charged c.id.core = s.besides c o k f := by
  have hpassed (n : Nat) : c.passed c.id.core n = c := by
    unfold Ctx.passed
    simp only [hout, bne_self_eq_false, Bool.or_self, Bool.false_eq_true, if_false]
    split
    next d hd => exact absurd (hdrain.symm.trans hd) (by simp)
    next =>
      split
      next => rfl
      next hs =>
        rcases hb with hb | ⟨-, hb⟩
        · exact absurd hb hs
        · rw [countDown, if_pos (by rw [hb]; rfl)]
  have hcheck : s.checkout cid = { s with cx := c, others := (s.checkout cid).others } := by
    have hcx := State.checkout_cx h
    unfold State.checkout at hcx ⊢
    split
    next hin => rw [if_pos hin] at hcx; rw [← hcx]
    next hin =>
      rw [if_neg hin] at hcx
      split at hcx
      · rw [← hcx]
      · rw [← hcx]
  rw [hcheck]
  simp only [State.charged, State.cycles, State.mapCtxs, State.modCore, State.setCore, hlive, if_true, hpassed]
  exact ⟨_, _, _, rfl⟩

theorem State.holdsHalf_congr {x : Nat} (hs : t.SameTables s) (hw : t.walking = s.walking) (hc : t.walkCache = s.walkCache)
    (hf : t.forms = s.forms) (hx : t.expanded = s.expanded) (hr : t.routes = s.routes) (hl : t.links = s.links)
    (h : s.holdsHalf c va x) : t.holdsHalf c va x := by
  obtain ⟨hg, p, key, ⟨htrans, hshows⟩, hplace, hway, hmem⟩ := h
  refine ⟨hg, p, key, ⟨(hs.translation hw hc).trans htrans, fun hh => ?_⟩, ?_, ?_, by rw [hs.mem]; exact hmem⟩
  · unfold State.showsPage
    rw [hf]
    exact hshows (hs.heldPte.symm.trans hh)
  · exact (State.place_congr hs.variant hs.poison hs.ecc hx hs.mem hr (hs.windows _)).trans hplace
  · have hcarry : t.carries = s.carries := by unfold State.carries; rw [hl]
    have hcross : t.crosses = s.crosses := by unfold State.crosses; rw [hl]
    unfold State.openWay State.blocked State.trainAt State.wayTo at hway ⊢
    rw [hcarry, hcross, hs.variant]
    exact hway

theorem State.besides_holdsHalf {o : Tab Ctx} {k : Tab Core} {f x : Nat} (h : s.holdsHalf c va x) :
    (s.besides c o k f).holdsHalf c va x :=
  State.holdsHalf_congr (t := s.besides c o k f) (s := s) ⟨rfl, rfl, rfl, rfl, fun _ => rfl, fun _ => rfl, rfl⟩
    rfl rfl rfl rfl rfl rfl h

/-- What is ready at a context's boundary: the instruction that the halfwords at its pc decode to. -/
theorem State.ready_whole {hs : List Nat} {i : Instr} (h : s.ctx? cid = some c) (hcid : c.cid = cid) (hlive : c.st.live = true)
    (hout : c.st.out = false) (hdrain : c.drain = none) (hmicro : c.micro = none) (hwait : c.wait = none)
    (hrun : (s.part c.id.part).pstate = 0) (hb : c.sup = true ∨ (c.st.defer = [] ∧ c.c.budget = 0xFFFFFFFF))
    (hend : c.pc ≠ s.endSeq) (hbads : ∀ e ∈ s.bads, e.2.cid = cid → e.2.opk ≠ 3) (hfirst : s.passedOver c = false)
    (hd : decodeAt hs .none = .ok (i, hs.length)) (hx : ∀ j, j < hs.length → s.holdsHalf c (c.pc.toNat + 2 * j) (hs.getD j 0))
    (hone : (∀ j k, j < hs.length → k < hs.length → (c.pc.toNat + 2 * k) / 65536 = (c.pc.toNat + 2 * j) / 65536) ∨
      s.FromTables (clusterOf c.id.core) c.id.part) :
    ∃ v o k f, s.ready cid = .instr i hs.length v ∧ v.LooksLike (s.besides c o k f) := by
  obtain ⟨o, k, f, ht⟩ := State.charged_checkout h hlive hout hdrain hb
  obtain ⟨v, hv, hlook⟩ := fetchFrom_whole (s := s.besides c o k f) hd rfl
    (fun j hj => State.besides_holdsHalf (hx j hj))
    (hone.imp_right fun hf => ⟨hf.tlb, hf.walks, hf.caches⟩)
  refine ⟨v, o, k, f, ?_, hlook⟩
  have hgo : (s.besides c o k f).mayIssue = true := by
    have hi : (s.besides c o k f).issues c.id.part = true := State.issues_of_running hrun
    unfold State.mayIssue State.mayGo
    rw [show (s.besides c o k f).cx = c from rfl, hlive, hout, hi, hdrain, hwait]
    rfl
  have hbound : (s.besides c o k f).boundary = none := by
    unfold State.boundary
    rw [show (s.besides c o k f).cx = c from rfl, hdrain]
    rcases hb with hb | ⟨hdefer, hbudget⟩
    · simp only [hb, if_true]
    · simp only [hdefer, hbudget]
      split <;> rfl
  have hpend : (s.besides c o k f).fetchPending = false := by
    refine List.any_eq_false.mpr fun e he hc => ?_
    simp only [Bool.and_eq_true, decide_eq_true_eq] at hc
    exact hbads e he (hc.1.trans hcid) hc.2
  have hfetch : (s.besides c o k f).readyFetch = .instr i hs.length v := by
    unfold State.readyFetch
    refine (if_neg hend).trans ((if_neg (by rw [hpend]; decide)).trans ?_)
    have hv : fetchFrom (s.besides c o k f).cx 5 (s.besides c o k f).cx.pc.toNat [] [] (s.besides c o k f) =
      .ok (.got (.ok (i, hs.length)), v) := hv
    rw [hv]
  unfold State.ready
  simp only [h, hfirst, ht, hgo, hbound]
  rw [show (s.besides c o k f).cx.micro = none from hmicro]
  exact hfetch

/-! ## One step -/

theorem step_of_agenda {a : Agent} {rest : List Agent} (hheld : s.ras.held = false) (h : s.agenda = a :: rest) :
    step s = settled (act a { s with agenda := rest }) := by
  unfold step
  rw [hheld, h]
  rfl

/-- A ready instruction issues in the state in which it is latched, where its context's earlier stores have landed or it has no
place in the order (R244, R320). -/
theorem issueStep_of_ready {i : Instr} {n : Nat} {v : State} (h : s.ready cid = .instr i n v)
    (hlate : v.late.getD v.cx.cid [] = [] ∨ unordered i = true) :
    issueStep cid s = ageKept (v.latched n) v.cx.st.last (exec i (v.latched n)) := by
  unfold issueStep
  rw [h]
  dsimp only
  have hcid : (v.latched n).cx.cid = v.cx.cid := rfl
  rcases hlate with hlate | hun
  · have hl : (v.latched n).late.getD (v.latched n).cx.cid [] = [] := hlate
    have hall : (v.latched n).allLanded = v.latched n := by rw [State.allLanded, hl]; rfl
    rw [hall, ite_self, hl]
    simp
  · simp [hun]

theorem ageKept_of_goes {last : Nat} {v u : State} (h : u.cx.wait = none) : ageKept v last (.next u) = .next u := by
  simp [ageKept, h]

theorem act_event {i : Instr} (h : isEvent i = true) (hc : ∀ k, i ≠ .copyLand k) : act (.event i) s = exec i s := by
  refine (if_neg (by rw [h]; decide)).trans ?_
  split
  next k => exact absurd rfl (hc k)
  next => rfl

theorem sourced_of_noLate (h : s.late = []) : s.sourced core = s := by
  have hm (x : Nat) : s.mayLand x = false := by rw [State.mayLand, h]; rfl
  unfold State.sourced
  split
  · rfl
  · rw [hm, Bool.not_false, if_pos rfl]

/-- Settles O60: what is ready at the boundary is the instruction at the pc, which issues in the state in which it is latched;
an event runs as it stands. -/
theorem stepRunsDecoded : Obligations.StepRunsDecoded := by
  unfold Obligations.StepRunsDecoded
  intro s cid core c hs i rest hheld at_ n fromTables
  refine ⟨fun hagenda h hcid hlive hout hdrain hmicro hwait hrun hb hend hbads hfirst hlate hone hx hd => ?_,
    fun hagenda hi hc => ?_, fun hagenda hl => ?_⟩
  · have hhalf : ∀ j, j < n → s.holdsHalf c (c.pc.toNat + 2 * j) (hs.getD j 0) := by
      intro j hj
      obtain ⟨hg, p, key, htrans, hplace, hway, hshows, hmem⟩ := hx j hj
      exact ⟨hg, p, key, ⟨htrans, fun _ => hshows⟩, hplace, hway, hmem⟩
    have hpages : (∀ j k, j < n → k < n → (c.pc.toNat + 2 * k) / 65536 = (c.pc.toNat + 2 * j) / 65536) ∨
        s.FromTables (clusterOf c.id.core) c.id.part := by
      refine hone.imp (fun hsame j k hj hk => ?_) fun ⟨htlb, hwalks, hcaches⟩ => ⟨htlb, hwalks, hcaches⟩
      have hsame : (c.pc.toNat + 2 * 0) / 65536 = (c.pc.toNat + 2 * (n - 1)) / 65536 := hsame
      omega
    obtain ⟨v, o, k, f, hready, hlook⟩ := State.ready_whole (s := { s with agenda := rest }) h hcid hlive hout hdrain hmicro hwait
      hrun hb hend hbads hfirst hd (fun j hj => State.holdsHalf_congr (s := s)
        ⟨rfl, rfl, rfl, rfl, fun _ => rfl, fun _ => rfl, rfl⟩ rfl rfl rfl rfl rfl rfl (hhalf j hj))
      (hpages.imp_right fun hf => ⟨hf.tlb, hf.walks, hf.caches⟩)
    have hcx : v.cx = c := hlook.cx
    have hmem : v.mem = s.mem := hlook.mem
    have hstep : step s = settled (ageKept (v.latched n) c.st.last (exec i (v.latched n))) := by
      rw [step_of_agenda hheld hagenda, ← hcx]
      refine congrArg settled (issueStep_of_ready hready ?_)
      rw [hlook.late, hcx, hcid]
      exact hlate
    refine ⟨v, hcx, hmem, ?_, ?_, ?_, rfl, hmem, hstep, fun u hu hgoes => ?_⟩
    · rw [← hcx]; rfl
    · rw [← hcx]; rfl
    · rw [← hcx]; rfl
    · rw [hstep, hu, ageKept_of_goes hgoes]
      rfl
  · rw [step_of_agenda hheld hagenda, act_event hi hc]
  · rw [step_of_agenda hheld hagenda]
    have hsource : State.sourced { s with agenda := rest } core = { s with agenda := rest } := sourced_of_noLate hl
    exact congrArg (fun t => settled (exec (.copyLand core) t)) hsource

end Machine
end Sys2Proof
end

section
/-! A firing that fails its second verdict, with its context number given twice (O45). -/
namespace Sys2Proof.Machine

/-! ## Two contexts under one number

The binding of a failed firing enters FAULTED, and then every context with a ganged binding that stands FIRING for a
firing that does not come leaves that state, by its number (`State.giveUpGang`). The statement does not exclude a state
that gives one number to two contexts: there the one in the table still stands FIRING, and by its number the binding of
the one in hand is put out of FAULTED. -/

/-- A ganged binding on tile 0, led from position 0, that stands FIRING. -/
def firingGangBinding : Binding := ⟨BitVec.ofNat 64 (2 ^ 57), 0, 0, 0, 1, [], 0, none, none⟩

/-- A live context of core 0x200 with that binding; its number is 0. -/
def firingGangCtx : Ctx :=
  { Ctx.blank with st := { Ctx.blank.st with live := true }, binds := [(0, firingGangBinding)] }

/-- Its firing, at the recomputation. -/
def recomputedFiring : Firing := ⟨0, 0, [], [], none, true, false⟩

/-- The context is in hand and in the table under the same number; its firing is on the array of core 0x200. -/
def sameNumberState : State :=
  { State.reset with
    cx := firingGangCtx
    others := [(0, firingGangCtx)]
    cores := [(0x200, { Core.fresh with firing := some recomputedFiring })] }

theorem sameNumberState_firing : (sameNumberState.core 0x200).firing = some recomputedFiring := by decide +kernel

theorem sameNumberState_ctx : sameNumberState.ctx? 0 = some firingGangCtx := by decide +kernel

theorem firingGangCtx_binding : firingGangCtx.binds.get? 0 = some firingGangBinding := by decide +kernel

theorem exec_assayRecompute (core bad : Nat) (s : State) :
    exec (.assayRecompute core bad) s = execAssayRecompute core bad s := rfl

/-- A second verdict that finds computed rows bad is counted, and ends the firing with these rows. -/
theorem exec_assayRecompute_of_bad {s : State} {core bad : Nat} {f : Firing} (hf : (s.core core).firing = some f)
    (ha : f.again = true) (hbad : bad &&& s.firingRows f ≠ 0) :
    exec (.assayRecompute core bad) s =
      .next ({ s with ras := { s.ras with assayu := (s.ras.assayu + 1) % 2 ^ 64 } }.endFiring core f
        (bad &&& s.firingRows f) false) := by
  rw [exec_assayRecompute, execAssayRecompute, hf]
  simp [ha, hbad]

theorem sameNumberState_firingRows : sameNumberState.firingRows recomputedFiring = 1 := by decide +kernel

/-- What the second verdict leaves where it finds row 0 bad. -/
def afterSecondVerdict : State :=
  { sameNumberState with ras := { sameNumberState.ras with assayu := 1 } }.endFiring 0x200 recomputedFiring 1 false

theorem exec_assayRecompute_sameNumberState :
    exec (.assayRecompute 0x200 1) sameNumberState = .next afterSecondVerdict := by
  have hbad : 1 &&& sameNumberState.firingRows recomputedFiring ≠ 0 := by simp [sameNumberState_firingRows]
  rw [exec_assayRecompute_of_bad sameNumberState_firing rfl hbad, sameNumberState_firingRows]
  rfl

/-- The binding is IDLE, not FAULTED. -/
theorem afterSecondVerdict_binding_idle :
    ((afterSecondVerdict.ctx? 0).bind fun c => c.binds.get? 0).map (·.st) = some 0 := by decide +kernel

/-- The clause of O45 on a firing whose second verdict finds rows bad, for its binding's state alone. -/
theorem assayRecompute_faulted_of_matrixEvents (h : Obligations.MatrixEvents) {s : State} {core bad : Nat} {c : Ctx}
    {b : Binding} {f : Firing} (hf : (s.core core).firing = some f) (hc : s.ctx? f.cid = some c) (hn : c.cid = f.cid)
    (hb : c.binds.get? f.tile = some b) (ha : f.again = true) (hbad : bad &&& (2 ^ bwM b.w - 1) ≠ 0) :
    ∃ z, exec (.assayRecompute core bad) s = .next z ∧
      ((z.ctx? f.cid).bind fun c => c.binds.get? f.tile).map (·.st) = some 3 := by
  obtain ⟨-, hfiring, -⟩ := h s core 0 0 bad 0 0 c c b f ⟨0, 0, false, 0, none, 0⟩ [] ⟨0, 0, 0, 0, 0, 0, none, none, none⟩
    ⟨0, 0, 0, .bf16, 0, 0, 0, false, none, []⟩ [] ⟨0, none, [], false, []⟩ [] 0 0 ⟨0, 0, 0, [], []⟩ [] []
  obtain ⟨-, -, -, hfail⟩ := hfiring hf hc hn hb
  obtain ⟨z, hz, -, -, -, hst, -⟩ := hfail ha hbad
  exact ⟨z, hz, hst⟩

/-- Refutes O45: where two contexts have one number, a failed second verdict leaves the binding IDLE, not FAULTED. The state
is `sameNumberState`, in which core 0x200 recomputes a firing of context 0 and finds row 0 bad. -/
theorem not_matrixEvents : ¬ Obligations.MatrixEvents := by
  intro h
  obtain ⟨z, hz, hst⟩ := assayRecompute_faulted_of_matrixEvents h (bad := 1) sameNumberState_firing
    sameNumberState_ctx rfl firingGangCtx_binding rfl (by decide)
  obtain rfl : afterSecondVerdict = z := by
    rw [exec_assayRecompute_sameNumberState] at hz
    exact Host.Outcome.next.inj hz
  have hidle := afterSecondVerdict_binding_idle
  exact absurd (hidle.symm.trans hst) (by decide)

end Sys2Proof.Machine
end

section
/-! The results of the register-only scalar instructions (O1 to O4). -/
namespace Sys2Proof.Machine

variable {s u : State} {d : Nat} {a b c : Src} {x y z r : Word}

/-! ## One result, however it is computed -/

theorem sOp1_gives {f : Word → Word} (h : s.operands [a] = some ([x], u)) (hd : u.roomS d = true) (hf : f x = r) :
    run (sOp1 d a f) s = .next (u.gotS d r).gone :=
  hf ▸ sOp1_run h hd

theorem sOp2_gives {f : Word → Word → Word} (h : s.operands [a, b] = some ([x, y], u)) (hd : u.roomS d = true)
    (hf : f x y = r) : run (sOp2 d a b f) s = .next (u.gotS d r).gone :=
  hf ▸ sOp2_run h hd

theorem sOp3_gives {f : Word → Word → Word → Word} (h : s.operands [a, b, c] = some ([x, y, z], u)) (hd : u.roomS d = true)
    (hf : f x y z = r) : run (sOp3 d a b c f) s = .next (u.gotS d r).gone :=
  hf ▸ sOp3_run h hd

/-! ## Comparisons (R120) -/

theorem bit_decide (p : Prop) [Decidable p] : bit (decide p) = if p then 1 else 0 := by
  unfold bit
  simp only [decide_eq_true_eq]

theorem bit_beq (x y : Word) : bit (x == y) = if x = y then 1 else 0 := bit_decide (x = y)

theorem getLsbD_sshiftRight_word {n j : Nat} (hj : j < 64) :
    (x.sshiftRight n).getLsbD j = x.getLsbD (min 63 (j + n)) := by
  rw [BitVec.getLsbD_sshiftRight]
  by_cases h : n + j < 64
  · simp [h, show ¬64 ≤ j by omega, show min 63 (j + n) = n + j by omega]
  · simp [h, show ¬64 ≤ j by omega, show min 63 (j + n) = 63 by omega, BitVec.msb_eq_getLsbD_last]

theorem li_runs {imm : Int} (hd : s.roomS d = true) : exec (.li d imm) s = .next (s.gotS d (BitVec.ofInt 64 imm)).gone :=
  run_of_ok (M.bind_of_ok (f := fun _ => advance) (writeS_of_roomS hd))

/-- Settles O1: each instruction is one of the scalar shapes with its operation; the comparisons and the arithmetic shift are
brought to the words of the statement. -/
theorem pageZeroResults : Obligations.PageZeroResults := by
  unfold Obligations.PageZeroResults
  constructor
  · intro s u d a b x y
    exact ⟨fun h hd => ⟨sOp2_run h hd, sOp2_run h hd, sOp2_run h hd, sOp2_run h hd, sOp2_run h hd,
      sOp2_gives h hd (bit_decide _), sOp2_gives h hd (bit_decide _), sOp2_gives h hd (bit_beq x y)⟩,
      fun h hd => sOp1_run h hd⟩
  · intro s u d n a x imm
    exact ⟨fun h hd => ⟨sOp1_run h hd, sOp1_run h hd, sOp1_run h hd, _, sOp1_run h hd,
      fun j hj => getLsbD_sshiftRight_word hj⟩, fun hd => li_runs hd⟩

/-! ## Products, quotients and shift counts (R129) -/

/-- The high word of a double word. -/
theorem extractHigh_ofInt (p : Int) : (BitVec.ofInt 128 p).extractLsb' 64 64 = BitVec.ofInt 64 (p / 2 ^ 64) := by
  apply BitVec.eq_of_toNat_eq
  simp only [BitVec.extractLsb'_toNat, BitVec.toNat_ofInt, Nat.shiftRight_eq_div_pow]
  omega

theorem mulhS_eq (x y : Word) : mulhS x y = (x.signExtend 128 * y.signExtend 128).extractLsb' 64 64 := by
  have hp : x.signExtend 128 * y.signExtend 128 = BitVec.ofInt 128 (x.toInt * y.toInt) := by
    rw [BitVec.signExtend, BitVec.signExtend, ← BitVec.ofInt_mul]
  rw [hp, extractHigh_ofInt]
  rfl

theorem mulhU_eq (x y : Word) : mulhU x y = (x.zeroExtend 128 * y.zeroExtend 128).extractLsb' 64 64 := by
  have hlt : x.toNat * y.toNat < 2 ^ 128 := by
    calc x.toNat * y.toNat < 2 ^ 64 * 2 ^ 64 := Nat.mul_lt_mul'' x.isLt y.isLt
      _ = 2 ^ 128 := by norm_num
  apply BitVec.eq_of_toNat_eq
  simp only [mulhU, BitVec.zeroExtend, BitVec.extractLsb'_toNat, BitVec.toNat_mul, BitVec.toNat_setWidth,
    BitVec.toNat_ofNat, Nat.shiftRight_eq_div_pow]
  rw [Nat.mod_eq_of_lt (show x.toNat < 2 ^ 128 by omega), Nat.mod_eq_of_lt (show y.toNat < 2 ^ 128 by omega),
    Nat.mod_eq_of_lt hlt]

theorem divS_eq (x y : Word) : divS x y = if y = 0 then BitVec.allOnes 64 else x.sdiv y := by
  unfold divS
  split
  · rfl
  · split
    · rename_i ho
      obtain ⟨rfl, rfl⟩ := ho
      decide
    · exact BitVec.eq_of_toInt_eq (by rw [BitVec.toInt_ofInt, BitVec.toInt_sdiv])

theorem remS_eq (x y : Word) : remS x y = if y = 0 then x else x.srem y := by
  unfold remS
  split
  · rfl
  · split
    · rename_i ho
      obtain ⟨rfl, rfl⟩ := ho
      decide
    · rw [← BitVec.toInt_srem, BitVec.ofInt_toInt]

theorem divU_eq (x y : Word) : divU x y = if y = 0 then BitVec.allOnes 64 else x / y := by
  unfold divU
  rw [← BitVec.toNat_udiv, BitVec.ofNat_toNat, BitVec.setWidth_eq]

theorem remU_eq (x y : Word) : remU x y = if y = 0 then x else x % y := by
  unfold remU
  rw [← BitVec.toNat_umod, BitVec.ofNat_toNat, BitVec.setWidth_eq]

/-- A shift count is the low six bits. -/
theorem sh6_eq (y : Word) : sh6 y = (y &&& 63#64).toNat := by
  rw [BitVec.toNat_and]
  exact (Nat.and_two_pow_sub_one_eq_mod y.toNat 6).symm

/-- Settles O2: each instruction is the two-source shape with its operation, and each operation of the model is the operation
on words that the statement names. -/
theorem multiplyDivideShiftResults : Obligations.MultiplyDivideShiftResults := by
  unfold Obligations.MultiplyDivideShiftResults
  intro s u d a b x y h hd
  exact ⟨sOp2_run h hd, sOp2_gives h hd (mulhS_eq x y), sOp2_gives h hd (mulhU_eq x y), sOp2_gives h hd (divS_eq x y),
    sOp2_gives h hd (remS_eq x y), sOp2_gives h hd (divU_eq x y), sOp2_gives h hd (remU_eq x y),
    sOp2_gives h hd (congrArg (x <<< ·) (sh6_eq y)), sOp2_gives h hd (congrArg (x >>> ·) (sh6_eq y)),
    sOp2_gives h hd (congrArg x.sshiftRight (sh6_eq y))⟩

/-! ## Counts of bits, and fields (R130) -/

/-- Leading zeros: the bits above the highest one, of `w`. -/
theorem clzBits_spec (x : Nat) : ∀ w, clzBits x w ≤ w ∧ (∀ j, j < clzBits x w → x.testBit (w - 1 - j) = false) ∧
    (clzBits x w < w → x.testBit (w - 1 - clzBits x w) = true)
  | 0 => ⟨le_rfl, fun j hj => absurd hj (Nat.not_lt_zero j), fun h => absurd h (Nat.not_lt_zero _)⟩
  | w + 1 => by
    obtain ⟨hle, hzero, hone⟩ := clzBits_spec x w
    unfold clzBits
    split
    next hb => exact ⟨Nat.zero_le _, fun j hj => absurd hj (Nat.not_lt_zero j), fun _ => hb⟩
    next hb =>
      refine ⟨by omega, fun j hj => ?_, fun h => ?_⟩
      · cases j with
        | zero => simpa using hb
        | succ j => rw [show w + 1 - 1 - (j + 1) = w - 1 - j by omega]; exact hzero j (by omega)
      · rw [show w + 1 - 1 - (clzBits x w + 1) = w - 1 - clzBits x w by omega]
        exact hone (by omega)

/-- Trailing zeros: the bits below the lowest one, of `w` from bit `i`. -/
theorem ctzBits_spec (x : Nat) : ∀ w i, ctzBits x i w ≤ w ∧ (∀ j, j < ctzBits x i w → x.testBit (i + j) = false) ∧
    (ctzBits x i w < w → x.testBit (i + ctzBits x i w) = true)
  | 0, _ => ⟨le_rfl, fun j hj => absurd hj (Nat.not_lt_zero j), fun h => absurd h (Nat.not_lt_zero _)⟩
  | w + 1, i => by
    obtain ⟨hle, hzero, hone⟩ := ctzBits_spec x w (i + 1)
    unfold ctzBits
    split
    next hb => exact ⟨Nat.zero_le _, fun j hj => absurd hj (Nat.not_lt_zero j), fun _ => hb⟩
    next hb =>
      refine ⟨by omega, fun j hj => ?_, fun h => ?_⟩
      · cases j with
        | zero => simpa using hb
        | succ j => rw [show i + (j + 1) = i + 1 + j by omega]; exact hzero j (by omega)
      · rw [show i + (ctzBits x (i + 1) w + 1) = i + 1 + ctzBits x (i + 1) w by omega]
        exact hone (by omega)

theorem popBits_eq (x : Nat) : ∀ w, popBits x w = ((List.range w).filter fun j => x.testBit j).length
  | 0 => rfl
  | w + 1 => by
    unfold popBits
    rw [popBits_eq x w, List.range_succ, List.filter_append, List.length_append]
    congr 1
    cases h : x.testBit w <;> simp [h]

theorem getLsbD_bextW {pos len j : Nat} (hj : j < 64) :
    (bextW x pos len).getLsbD j = (decide (j < len) && x.getLsbD (pos + j)) := by
  unfold bextW BitVec.getLsbD
  rw [BitVec.toNat_ofNat, Nat.testBit_mod_two_pow, Nat.testBit_mod_two_pow, Nat.testBit_div_two_pow, decide_eq_true hj,
    Bool.true_and, Nat.add_comm]

theorem getLsbD_binsW {o : Word} {pos len j : Nat} (hj : j < 64) :
    (binsW o x pos len).getLsbD j = if pos ≤ j ∧ j < pos + len then x.getLsbD (j - pos) else o.getLsbD j := by
  have hmask : (BitVec.ofNat 64 ((2 ^ len - 1) * 2 ^ pos)).getLsbD j = decide (pos ≤ j ∧ j < pos + len) := by
    rw [BitVec.getLsbD_ofNat, Nat.testBit_mul_two_pow, Nat.testBit_two_pow_sub_one, decide_eq_true hj]
    grind
  have hbits : (BitVec.ofNat 64 (x.toNat % 2 ^ len * 2 ^ pos)).getLsbD j =
      (decide (pos ≤ j ∧ j < pos + len) && x.getLsbD (j - pos)) := by
    rw [BitVec.getLsbD_ofNat, Nat.testBit_mul_two_pow, Nat.testBit_mod_two_pow, decide_eq_true hj]
    unfold BitVec.getLsbD
    grind
  unfold binsW
  simp only [BitVec.getLsbD_or, BitVec.getLsbD_and, BitVec.getLsbD_not, hmask, hbits, decide_eq_true hj]
  split
  next hin => simp [hin]
  next hout => simp [hout]

/-- Settles O3: each result is read off bit by bit from the lemma on the function that computes it. -/
theorem bitInstructionResults : Obligations.BitInstructionResults := by
  unfold Obligations.BitInstructionResults
  intro s u d pos len a x o hd
  refine ⟨fun h => ⟨⟨_, sOp1_run h hd, clzBits_spec x.toNat 64⟩, ⟨_, sOp1_run h hd, ?_⟩,
    sOp1_gives h hd (congrArg _ (popBits_eq x.toNat 64)), _, sOp1_run h hd, fun j hj => getLsbD_bextW hj⟩,
    fun h => ⟨_, sOp2_run h hd, fun j hj => getLsbD_binsW hj⟩⟩
  have hc := ctzBits_spec x.toNat 64 0
  simp only [Nat.zero_add] at hc
  exact hc

/-! ## Selecting, extending and combining (R131) -/

theorem ite_slt (x y p q : Word) : (if x.slt y then p else q) = if x.toInt < y.toInt then p else q := by
  simp only [BitVec.slt, decide_eq_true_eq]

theorem ite_ult (x y p q : Word) : (if x.ult y then p else q) = if x.toNat < y.toNat then p else q := by
  simp only [BitVec.ult, decide_eq_true_eq]

theorem shiftLeft_eq_mul (y : Word) (n : Nat) : y <<< n = y * BitVec.ofNat 64 (2 ^ n) := by
  apply BitVec.eq_of_toNat_eq
  rw [BitVec.toNat_shiftLeft, BitVec.toNat_mul, BitVec.toNat_ofNat, Nat.shiftLeft_eq, Nat.mul_mod_mod]

theorem fshrW_eq (x y z : Word) : fshrW x y (sh6 z) = ((x ++ y) >>> (z &&& 63#64)).setWidth 64 := by
  apply BitVec.eq_of_toNat_eq
  rw [fshrW, BitVec.toNat_ofNat, BitVec.toNat_setWidth, BitVec.ushiftRight_eq', BitVec.toNat_ushiftRight, BitVec.toNat_append,
    ← Nat.shiftLeft_add_eq_or_of_lt y.isLt, Nat.shiftLeft_eq, Nat.shiftRight_eq_div_pow, sh6_eq]

theorem fshrW_zero (x y : Word) : fshrW x y (sh6 0) = y := by
  apply BitVec.eq_of_toNat_eq
  have hy := y.isLt
  rw [fshrW, BitVec.toNat_ofNat, show sh6 0 = 0 from rfl]
  omega

theorem sextW_eq {w : Nat} (h0 : 0 < w) (hw : w ≤ 64) (x : Word) : sextW w x = (x <<< (64 - w)).sshiftRight (64 - w) := by
  apply BitVec.eq_of_getLsbD_eq
  intro i hi
  have h64 : 64 ≤ 63 + w := by omega
  have hm : min 63 (i + (64 - w)) - (64 - w) = if i < w then i else w - 1 := by split <;> omega
  rw [getLsbD_sshiftRight_word hi, BitVec.getLsbD_shiftLeft, hm, sextW, BitVec.getLsbD_signExtend, BitVec.msb_eq_getLsbD_last]
  split
  next h => simp [BitVec.truncate, h, hi, h64]
  next => simp [BitVec.truncate, hi, h0, h64]

theorem zextW_eq {w : Nat} (hw : w ≤ 64) (x : Word) : zextW w x = (x <<< (64 - w)) >>> (64 - w) := by
  apply BitVec.eq_of_getLsbD_eq
  intro i hi
  simp only [zextW, BitVec.zeroExtend, BitVec.truncate, BitVec.getLsbD_setWidth, BitVec.getLsbD_ushiftRight,
    BitVec.getLsbD_shiftLeft, decide_eq_true hi, Bool.true_and, Nat.add_sub_cancel_left]
  rw [show decide (64 - w + i < 64) = decide (i < w) from decide_eq_decide.mpr (by omega)]
  simp

/-- `s0` reads as zero. -/
theorem operands_third_zero (hc : c.n = 0) (h : s.operands [a, b, c] = some ([x, y, z], u)) : z = 0 := by
  obtain ⟨_, w, _, -, -, hz, -⟩ := operands_three h
  rw [hc] at hz
  cases hz
  rfl

/-- Settles O4: as for the other instructions, with the operations on words that the statement names; a missing C reads as
zero. -/
theorem selectExtendResults : Obligations.SelectExtendResults := by
  unfold Obligations.SelectExtendResults
  intro s u d w sh n a b c x y z imm hd
  refine ⟨fun h => ⟨sOp2_gives h hd (ite_slt ..), sOp2_gives h hd (ite_slt ..), sOp2_gives h hd (ite_ult ..),
    sOp2_gives h hd (ite_ult ..), sOp2_gives h hd (congrArg (x + ·) (shiftLeft_eq_mul y sh))⟩, fun h => ?_,
    fun h => ⟨fun h0 hw => ⟨sOp1_gives h hd (sextW_eq h0 hw x), sOp1_gives h hd (zextW_eq hw x)⟩, sOp1_run h hd, sOp1_run h hd,
      sOp1_run h hd⟩⟩
  refine ⟨sOp3_gives h hd (ite_not ..), sOp3_gives h hd (fshrW_eq x y z), fun hc => ?_⟩
  obtain rfl := operands_third_zero hc h
  exact ⟨sOp3_gives h hd (if_neg fun h => h rfl), sOp3_gives h hd (fshrW_zero x y)⟩

end Sys2Proof.Machine
end

section
/-! Branches, calls and the return (O7), microprograms (O10), and what may not stand inside one (O11). -/
namespace Sys2Proof.Machine

variable {α : Type} {s t u v w : State} {d n : Nat} {a b : Src} {x y : Word} {imm : Int}

/-! ## Operands read and freed (R53) -/

/-- One source read and freed; the rest goes on from there. -/
theorem readFree_one {f : Word → M α} (h : s.operands [a] = some ([x], u)) :
    (do let x ← readS a; freeS a; f x : M α) s = f x u := by
  obtain ⟨t, hx, rfl⟩ := operands_one h
  exact (M.bind_of_ok (readS_of_readsS hx)).trans (M.bind_of_ok (freeS_run a))

/-- Two sources, both read before either is freed. -/
theorem readFree_two {f : Word → Word → M α} (h : s.operands [a, b] = some ([x, y], u)) :
    (do let x ← readS a; let y ← readS b; freeS a; freeS b; f x y : M α) s = f x y u := by
  obtain ⟨t, w, hx, hy, rfl⟩ := operands_two h
  refine (M.bind_of_ok (readS_of_readsS hx)).trans ((M.bind_of_ok (readS_of_readsS hy)).trans ?_)
  exact (M.bind_of_ok (freeS_run a)).trans (M.bind_of_ok (freeS_run b))

/-- Operands leave the pc and the branch-target registers. -/
theorem operands_near {l : List Src} {xs : List Word} (h : s.operands l = some (xs, u)) : u.near imm = s.near imm := by
  obtain ⟨_, _, rfl⟩ := operands_same h
  rfl

theorem operands_b {l : List Src} {xs : List Word} (h : s.operands l = some (xs, u)) : u.cx.r.b = s.cx.r.b := by
  obtain ⟨_, _, rfl⟩ := operands_same h
  rfl

/-! ## Branches (R125, R132 to R135) -/

/-- The guards of an instruction that stands neither inside a microprogram nor in the drain slot. -/
theorem plainGuards_pass {f : Unit → M α} (hp : s.plain = true) :
    (do notInMicro; let r ← notInDrain; f r : M α) s = f () s := by
  obtain ⟨hm, hd⟩ := State.plain_iff.mp hp
  exact (M.bind_of_ok (notInMicro_of_plain hm)).trans (M.bind_of_ok (notInDrain_of hd))

theorem branch_run (c : Bool) (target : Word) : branch c target s = .ok ((), if c then s.wentTo target else s.gone) := by
  cases c <;> rfl

theorem brnz_run (hm : s.cx.micro = none) (h : s.operands [a] = some ([x], u)) :
    exec (.brnz a imm) s = .next (if x = 0 then u.gone else u.wentTo (s.near imm)) := by
  refine run_of_ok ((M.bind_of_ok (notInMicro_of_plain hm)).trans ((readFree_one h).trans ((branch_run ..).trans ?_)))
  rw [← operands_near h]
  by_cases hx : x = 0
  · simp [hx]
  · simp only [bne_iff_ne.mpr hx, if_true, if_neg hx]
    rfl

theorem brz_run (hm : s.cx.micro = none) (h : s.operands [a] = some ([x], u)) :
    exec (.brz a imm) s = .next (if x = 0 then u.wentTo (s.near imm) else u.gone) := by
  refine run_of_ok ((M.bind_of_ok (notInMicro_of_plain hm)).trans ((readFree_one h).trans ((branch_run ..).trans ?_)))
  rw [← operands_near h]
  simp only [beq_iff_eq]
  rfl

theorem cmpBranch_run {f : Word → Word → Bool} {c : Bool} (hp : s.plain = true) (h : s.operands [a, b] = some ([x, y], u))
    (hf : f x y = c) :
    run (cmpBranch d a b f) s = .next (if c then u.wentTo (s.cx.r.b.getD d 0) else u.gone) := by
  refine run_of_ok ((plainGuards_pass hp).trans ((readFree_two h).trans ((branch_run ..).trans ?_)))
  rw [hf, operands_b h]

theorem bne_eq_decide (x y : Word) : (x != y) = decide (x ≠ y) := (decide_not (p := x = y)).symm

theorem not_slt_eq_decide (x y : Word) : (!x.slt y) = decide (y.toInt ≤ x.toInt) := by
  rw [BitVec.slt, ← decide_not]
  exact decide_eq_decide.mpr not_lt

theorem not_ult_eq_decide (x y : Word) : (!x.ult y) = decide (y.toNat ≤ x.toNat) := by
  rw [BitVec.ult, ← decide_not]
  exact decide_eq_decide.mpr not_lt

theorem pbrr_run (hp : s.plain = true) (h : s.operands [a] = some ([x], u)) :
    exec (.pbrr d a) s = .next (u.gotB d (x &&& ~~~1#64)).gone :=
  run_of_ok ((plainGuards_pass hp).trans (readFree_one h))

/-! ## Calls (R133) -/

theorem callTo_run {target : Word} (h : s.roomS 63 = true) :
    callTo target s = .ok ((), (s.gotS 63 s.cx.npc).wentTo target) :=
  M.bind_of_ok (f := fun _ => jump target) (writeS_of_roomS h)

theorem ret_run (hp : s.plain = true) (h : s.readsS 63 = some (x, u)) : exec .ret s = .next (u.wentTo x) :=
  run_of_ok ((plainGuards_pass hp).trans (M.bind_of_ok (f := fun y => jump y) (readSNum_of_readsS h)))

theorem mfb_run (hd : s.cx.drain = none) (h : s.roomS d = true) :
    exec (.mfb d n) s = .next (s.gotS d (s.cx.r.b.getD n 0)).gone :=
  run_of_ok ((M.bind_of_ok (notInDrain_of hd)).trans (M.bind_of_ok (f := fun _ => advance) (writeS_of_roomS h)))

/-- Settles O7: each meaning passes its guards, reads and frees its operands, and goes on or to its target. -/
theorem branchesAndCalls : Obligations.BranchesAndCalls := by
  unfold Obligations.BranchesAndCalls
  intro s u d n a b x y imm
  refine ⟨fun hm => ⟨run_of_ok (M.bind_of_ok (notInMicro_of_plain hm)), run_of_ok (M.bind_of_ok (notInMicro_of_plain hm)),
      fun h => ⟨brnz_run hm h, brz_run hm h⟩⟩,
    fun hp => ⟨fun hr => ⟨run_of_ok ((plainGuards_pass hp).trans (callTo_run hr)),
      run_of_ok ((plainGuards_pass hp).trans (callTo_run hr))⟩, ret_run hp, pbrr_run hp, fun h => ?_⟩,
    fun hd hr => mfb_run (State.notDrain_iff.mp hd) hr⟩
  exact ⟨cmpBranch_run hp h rfl, cmpBranch_run hp h (bne_eq_decide x y), cmpBranch_run hp h rfl,
    cmpBranch_run hp h (not_slt_eq_decide x y), cmpBranch_run hp h rfl, cmpBranch_run hp h (not_ult_eq_decide x y)⟩

/-! ## What may not stand inside a microprogram (R144) -/

theorem notInMicro_traps {m : Micro} (h : s.cx.micro = some m) :
    notInMicro s = .error (.trap cILLOP (BitVec.ofNat 64 (3 * 2 ^ 56))) := by
  simp only [notInMicro, M.bind_get, h, Option.isSome_some, if_true]
  rfl

/-- Settles O11: each of these meanings begins with the guard against microprograms. -/
theorem controlFlowInsideMicroprogram : Obligations.ControlFlowInsideMicroprogram := by
  unfold Obligations.ControlFlowInsideMicroprogram
  intro s m d n p0 p1 p2 p3 op a b imm h
  have stops {f : Unit → M Unit} : run (notInMicro >>= f) s = .next (takeTrap s cILLOP (BitVec.ofNat 64 (3 * 2 ^ 56))) :=
    run_bind_of_trap (notInMicro_traps h)
  simp only [List.forall_mem_cons]
  exact ⟨stops, stops, stops, stops, stops, stops, stops, stops, stops, stops, stops, stops, stops, stops, stops, stops, stops,
    stops, stops, stops, stops, stops, stops, stops, by simp⟩

end Sys2Proof.Machine
end

section
/-! What looking an address up changes: the tables of walks and of blocks, and memory only where a block changes its form or
becomes undefined (R355, R356, R357). -/
namespace Sys2Proof.Machine

variable {s t u : State} {α : Type}

/-- Nothing changed but the counts and tables of walks, the tables of blocks and the memory of blocks; a block that became
undefined used free values, and any other change of memory made the list of expanded blocks longer. -/
structure State.LookedUp (t s : State) : Prop where
  rest : t = { s with parts := t.parts, walking := t.walking, walkCache := t.walkCache, forms := t.forms, poison := t.poison,
                      mem := t.mem, expanded := t.expanded, free := t.free }
  free : s.free ≤ t.free
  blocks : t.free = s.free → s.expanded.length ≤ t.expanded.length ∧ (t.expanded.length = s.expanded.length → t.mem = s.mem)

namespace State.LookedUp

theorem refl (s : State) : s.LookedUp s := ⟨rfl, le_rfl, fun _ => ⟨le_rfl, fun _ => rfl⟩⟩

theorem trans (h₂ : u.LookedUp t) (h₁ : t.LookedUp s) : u.LookedUp s := by
  have h₁f := h₁.free
  have h₂f := h₂.free
  refine ⟨by rw [h₂.rest, h₁.rest], h₁f.trans h₂f, fun hf => ?_⟩
  obtain ⟨hl₁, hm₁⟩ := h₁.blocks (by omega)
  obtain ⟨hl₂, hm₂⟩ := h₂.blocks (by omega)
  exact ⟨hl₁.trans hl₂, fun hl => (hm₂ (by omega)).trans (hm₁ (by omega))⟩

/-- No block changed. -/
theorem of_walks (h : t = { s with parts := t.parts, walking := t.walking, walkCache := t.walkCache, forms := t.forms,
                                   poison := t.poison } := by rfl) : t.LookedUp s :=
  ⟨by rw [h], by rw [h], fun _ => ⟨by rw [h], fun _ => by rw [h]⟩⟩

/-- A block became undefined, or went home with undefined bytes behind its stream. -/
theorem of_free (s : State) (m : Memory) (l : List Nat) :
    ({ s with mem := m, expanded := l, free := s.free + 4096 } : State).LookedUp s :=
  ⟨rfl, Nat.le_add_right .., fun hf => absurd hf (by simp)⟩

section
variable (h : t.LookedUp s)
include h

theorem cx : t.cx = s.cx := by rw [h.rest]
theorem cores : t.cores = s.cores := by rw [h.rest]
theorem bads : t.bads = s.bads := by rw [h.rest]

theorem mem (he : t.expanded = s.expanded) (hf : t.free = s.free) : t.mem = s.mem := (h.blocks hf).2 (by rw [he])

end
end State.LookedUp

theorem foldl_lookedUp {f : State → α → State} (hf : ∀ s a, (f s a).LookedUp s) :
    ∀ (l : List α) (s : State), (l.foldl f s).LookedUp s
  | [], s => .refl s
  | a :: l, s => (foldl_lookedUp hf l (f s a)).trans (hf s a)

/-! ## Blocks (R238, R242, R355) -/

theorem storeBlock_lookedUp (s : State) (blk : Nat) : (s.storeBlock blk).LookedUp s := .of_free s _ _

theorem tearBlock_lookedUp (s : State) (cmp : Bool) (blk : Nat) : (s.tearBlock cmp blk).LookedUp s :=
  .of_free s _ _

theorem poisonBlock_lookedUp (s : State) (part blk : Nat) : (s.poisonBlock part blk).LookedUp s := by
  unfold State.poisonBlock
  split
  · exact .refl s
  · exact .of_walks

/-- A block that is expanded joins the expanded ones. -/
theorem expanded_lookedUp (s : State) (m : Memory) (blk : Nat) :
    ({ s with mem := m, expanded := blk :: s.expanded } : State).LookedUp s :=
  ⟨rfl, le_rfl, fun _ => ⟨by simp, fun h => absurd h (by simp)⟩⟩

theorem bringIn_lookedUp (s : State) (part : Nat) (cmp : Bool) (blk : Nat) : (s.bringIn part cmp blk).LookedUp s := by
  unfold State.bringIn
  split
  · exact .refl s
  · split
    · exact storeBlock_lookedUp s blk
    · split
      · exact expanded_lookedUp s _ blk
      · exact poisonBlock_lookedUp s part blk
      · exact .refl s

theorem storeBlocks_lookedUp : ∀ (n : Nat) (s : State) (blk : Nat), (s.storeBlocks blk n).LookedUp s
  | 0, s, _ => .refl s
  | n + 1, s, blk => by
    refine (storeBlocks_lookedUp n _ _).trans ?_
    split
    · exact storeBlock_lookedUp s blk
    · exact .refl s

theorem tearBlocks_lookedUp (cmp : Bool) : ∀ (n : Nat) (s : State) (blk : Nat), (s.tearBlocks cmp blk n).LookedUp s
  | 0, s, _ => .refl s
  | n + 1, s, blk => by
    unfold State.tearBlocks
    exact (tearBlocks_lookedUp cmp n _ _).trans (tearBlock_lookedUp s cmp blk)

theorem bringAt_lookedUp (s : State) (part va : Nat) (k : Acc) (p : Pte) : (s.bringAt part va k p).LookedUp s := by
  unfold State.bringAt
  split
  · split
    · exact .refl s
    · exact bringIn_lookedUp ..
  · exact .refl s

theorem bringAll_lookedUp (s : State) (c : Ctx) (k : Acc) (ts : List (Nat × Except Nat Pte)) (vas : List Nat) :
    (s.bringAll c k ts vas).LookedUp s := by
  unfold State.bringAll
  split
  · exact .refl s
  · refine foldl_lookedUp (fun s va => ?_) vas s
    split
    · exact bringAt_lookedUp ..
    · exact .refl s

/-! ## Walks (R355, R356) -/

theorem seen_lookedUp (s : State) (part vp : Nat) (p : Pte) : (s.seen part vp p).LookedUp s := by
  unfold State.seen
  dsimp only
  split
  · exact .of_walks
  · split
    · split
      · exact .of_walks
      · exact (tearBlocks_lookedUp ..).trans .of_walks
    · split
      · exact (storeBlocks_lookedUp ..).trans .of_walks
      · exact .of_walks

theorem missed_lookedUp (s : State) (cl part va : Nat) : (s.missed cl part va).LookedUp s := by
  unfold State.missed
  dsimp only
  split
  · exact .of_walks
  · split
    · refine (State.LookedUp.of_walks (s := ite _ _ _)).trans ?_
      split
      · exact State.LookedUp.trans .of_walks ((seen_lookedUp ..).trans .of_walks)
      · exact .of_walks
    · exact .of_walks

theorem translate_lookedUp {cl part va : Nat} {r : Except Nat Pte} (h : translate cl part va s = .ok (r, t)) :
    t.LookedUp s := by
  unfold translate at h
  rw [M.bind_get] at h
  obtain ⟨_, w, hw, ht⟩ := M.bind_ok_inv h
  cases ht
  rw [check_run] at hw
  split at hw
  · cases hw
    exact missed_lookedUp s cl part va
  · cases hw
    exact .refl s

theorem translateAll_lookedUp (c : Ctx) : ∀ (vas : List Nat) {ts rs : List (Nat × Except Nat Pte)} {s t : State},
    translateAll c vas ts s = .ok (rs, t) → t.LookedUp s
  | [], _, _, s, _, h => by cases h; exact .refl s
  | va :: vas, ts, rs, s, t, h => by
    unfold translateAll at h
    split at h
    · exact translateAll_lookedUp c vas h
    · obtain ⟨r, w, hw, ht⟩ := M.bind_ok_inv h
      exact (translateAll_lookedUp c vas ht).trans (translate_lookedUp hw)

/-- Looking an address up, in whatever class its access counts. -/
theorem locateIn_lookedUp {cls : Option Nat} {k : Acc} {va : Nat} {r : Except Nat Nat} (h : locateIn cls k va s = .ok (r, t)) :
    t.LookedUp s := by
  unfold locateIn at h
  rw [M.bind_get] at h
  obtain ⟨ts, w, hw, h⟩ := M.bind_ok_inv h
  rw [M.bind_modify, M.bind_get] at h
  obtain ⟨_, x, hx, h⟩ := M.bind_ok_inv h
  cases h
  rw [needPath_same hx]
  exact (bringAll_lookedUp ..).trans (translateAll_lookedUp _ _ hw)

theorem locate_lookedUp {k : Acc} {va : Nat} {r : Except Nat Nat} (h : locate k va s = .ok (r, t)) : t.LookedUp s :=
  locateIn_lookedUp h

/-! ## Cached words (R232 to R234) -/

/-- Using a line changes the lines of the cache, and what the home owes of a line that makes room. -/
theorem useLine_same {g : State → α} (hl : ∀ s ls, g (State.setLines s ls) = g s) (hw : ∀ s ws, g (State.settle s ws) = g s)
    (s : State) (l : Line) : g (s.useLine l) = g s := by
  unfold State.useLine
  dsimp only
  split
  · exact hl ..
  · exact (foldl_keeps (fun s (e : Line) => hw s (lineWords e.line e.written)) _ _).trans (hl ..)

theorem useLine_kept (s : State) (l : Line) : (s.useLine l).kept = s.kept :=
  useLine_same (fun _ _ => rfl) settle_kept s l

theorem useLine_cores (s : State) (l : Line) : (s.useLine l).cores = s.cores :=
  useLine_same (fun _ _ => rfl) (fun _ _ => rfl) s l

theorem useLine_bads (s : State) (l : Line) : (s.useLine l).bads = s.bads :=
  useLine_same (fun _ _ => rfl) (fun _ _ => rfl) s l

theorem putStore_kept (s : State) (key : Nat) (bs : List Byte) : (s.putStore key bs).kept = s.kept := by
  unfold State.putStore
  dsimp only
  split
  · refine (State.kept_congr rfl rfl rfl).trans ((useLine_kept ..).trans ?_)
    split
    · exact putShared_kept ..
    · exact putShared_kept ..
  · exact putShared_kept ..

end Sys2Proof.Machine
end

section
/-! Microprograms and the control store (O10). -/
namespace Sys2Proof.Machine

variable {s t u v w : State} {n : Nat} {a : Src} {x : Word}

/-! ## Slots (R140, R143, R146) -/

/-- A slot of the context's core as an instruction leaves it. -/
def State.slotBecomes (s : State) (n : Nat) (y : Slot) : State :=
  s.modCore s.cx.id.core fun c => { c with store := c.store.set n y }

theorem modSlot_run (f : Slot → Slot) :
    modSlot n f s = .ok ((), s.slotBecomes n (f ((s.core s.cx.id.core).slot n))) := rfl

/-- No context of the core is inside the slot, running or saved. -/
theorem needSlot_of_left (h : ∀ c ∈ s.ctxs, c.id.core = s.cx.id.core → ∀ m, c.micro = some m ∨ c.kept = some m → m.slot ≠ n) :
    needSlot n s = .ok ((), s) := by
  have hbusy : s.slotBusy s.cx.id.core n = false := by
    refine List.any_eq_false.mpr fun c hc => ?_
    simp only [Bool.and_eq_true, Bool.or_eq_true, decide_eq_true_eq, Option.any_eq_true]
    rintro ⟨hcore, ⟨m, hm, hn⟩ | ⟨m, hm, hn⟩⟩
    · exact h c hc hcore m (.inl hm) hn
    · exact h c hc hcore m (.inr hm) hn
  simp only [needSlot, M.bind_get, hbusy]
  rfl

theorem mcall_enters {p0 p1 p2 p3 : Nat} (hp : s.plain = true) (hw : ((s.core s.cx.id.core).slot n).waiters = [])
    (hv : ((s.core s.cx.id.core).slot n).valid = true) :
    exec (.mcall n p0 p1 p2 p3) s =
      .next ((s.onCx fun c => { c with micro := some ⟨n, 0, p0, p1, p2, p3, c.pc, c.npc⟩ }).modCore s.cx.id.core
        fun k => { k with owed := k.owed + 1 }) := by
  refine run_of_ok ((plainGuards_pass hp).trans ((M.bind_get _).trans ?_))
  refine (M.guard_pass fun h => absurd h (by simp [hw])).trans ?_
  exact (M.guard_pass fun h => absurd h (by simp [hv])).trans rfl

theorem mcall_invalid {p0 p1 p2 p3 : Nat} (hp : s.plain = true) (hw : ((s.core s.cx.id.core).slot n).waiters = [])
    (hv : ((s.core s.cx.id.core).slot n).valid = false) :
    exec (.mcall n p0 p1 p2 p3) s = .next (takeTrap s cILLOP (BitVec.ofNat 64 (2 * 2 ^ 56 + n))) := by
  refine run_of_trap ((plainGuards_pass hp).trans ((M.bind_get _).trans ?_))
  refine (M.guard_pass fun h => absurd h (by simp [hw])).trans ?_
  exact M.guard_stop (by simp [hv]) (illop_run _ _)

theorem mcinv_clears (hp : s.plain = true) (hs : s.cx.sup = true) (hb : needSlot n s = .ok ((), s)) :
    exec (.mcinv n) s = .next (s.slotBecomes n ⟨false, [], ((s.core s.cx.id.core).slot n).holder,
      ((s.core s.cx.id.core).slot n).waiters.erase s.cx.cid⟩).gone :=
  run_of_ok ((plainGuards_pass hp).trans ((M.bind_of_ok (needSup_of hs)).trans
    ((M.bind_of_ok hb).trans (M.bind_of_ok (f := fun _ => advance) (modSlot_run _)))))

/-! ## The image of a microprogram (R141, R146) -/

/-- The slots of every core, and the context in hand by its number. -/
structure State.SameSlots (t s : State) : Prop where
  cores : t.cores = s.cores
  id : t.cx.id = s.cx.id

namespace State.SameSlots

theorem trans (h₂ : u.SameSlots t) (h₁ : t.SameSlots s) : u.SameSlots s := ⟨h₂.cores.trans h₁.cores, h₂.id.trans h₁.id⟩

theorem slot (h : t.SameSlots s) : (t.core t.cx.id.core).slot n = (s.core s.cx.id.core).slot n := by
  rw [State.core, State.core, h.cores, h.id]

theorem cid (h : t.SameSlots s) : t.cx.cid = s.cx.cid := by
  rw [Ctx.cid, Ctx.cid, h.id]

end State.SameSlots

theorem readsS_sameSlots (h : s.readsS n = some (x, t)) : t.SameSlots s := by
  rw [readsS_same h]
  exact ⟨rfl, rfl⟩

theorem freedS_sameSlots (s : State) (l : List Src) : (s.freedS l).SameSlots s := by
  obtain ⟨y, hy⟩ := freedS_same l s
  rw [hy]
  exact ⟨rfl, rfl⟩

theorem readPlace_sameSlots {key k val : Nat} (h : readPlace key k s = .ok (val, t)) : t.SameSlots s := by
  unfold readPlace at h
  rw [M.bind_get] at h
  split at h
  · cases h
    exact ⟨useLine_cores .., (congrArg Ctx.id (State.kept_cx (useLine_kept s _)) :)⟩
  · cases h
    exact ⟨rfl, rfl⟩

theorem loadImage_sameSlots {va k val : Nat} (h : loadImage va k s = .ok (val, t)) : t.SameSlots s := by
  unfold loadImage at h
  obtain ⟨r, w, hl, h⟩ := M.bind_ok_inv h
  have hw : w.SameSlots s := ⟨(locate_lookedUp hl).cores, by rw [(locate_lookedUp hl).cx]⟩
  cases r with
  | error e => cases h
  | ok key => exact (readPlace_sameSlots h).trans hw

theorem loadHalves_sameSlots : ∀ {k va : Nat} {l : List Nat} {s : State}, loadHalves va k s = .ok (l, t) → t.SameSlots s
  | 0, _, _, _, h => by cases h; exact ⟨rfl, rfl⟩
  | k + 1, _, _, _, h => by
    unfold loadHalves at h
    obtain ⟨_, _, h1, h⟩ := M.bind_ok_inv h
    obtain ⟨_, _, h2, h⟩ := M.bind_ok_inv h
    cases h
    exact (loadHalves_sameSlots h2).trans (loadImage_sameSlots h1)

theorem loadRecs_sameSlots : ∀ {k va : Nat} {l : List (List Nat)} {s : State}, loadRecs va k s = .ok (l, t) → t.SameSlots s
  | 0, _, _, _, h => by cases h; exact ⟨rfl, rfl⟩
  | k + 1, _, _, _, h => by
    unfold loadRecs at h
    obtain ⟨_, _, h1, h⟩ := M.bind_ok_inv h
    obtain ⟨_, _, h2, h⟩ := M.bind_ok_inv h
    cases h
    exact (loadRecs_sameSlots h2).trans (loadHalves_sameSlots h1)

/-- Every record has a length of 1 to 5 and no reserved bit. -/
theorem findIdx?_recOk {recs : List (List Nat)}
    (h : ∀ r ∈ recs, 1 ≤ r.getD 0 0 ∧ r.getD 0 0 ≤ 5 ∧ r.getD 1 0 < 2 ^ 15) :
    (recs.findIdx? fun r => !recOk r) = none := by
  refine List.findIdx?_eq_none_iff.mpr fun r hr => ?_
  obtain ⟨h1, h5, h15⟩ := h r hr
  simp only [recOk, decide_eq_true h1, decide_eq_true h5, decide_eq_true h15]
  rfl

theorem mcw_fills {h : Nat} {recs : List (List Nat)} (hp : s.plain = true) (hs : s.cx.sup = true)
    (hb : needSlot n u = .ok ((), u)) (hx : s.readsS a.n = some (x, u)) (ho : u.ordered = true) (hal : x.toNat % 8 = 0)
    (hlen : loadImage x.toNat 8 u = .ok (h, v)) (h0 : 0 < h) (h32 : h ≤ 32)
    (hrecs : loadRecs (x.toNat + 8) h v = .ok (recs, w))
    (hok : ∀ r ∈ recs, 1 ≤ r.getD 0 0 ∧ r.getD 0 0 ≤ 5 ∧ r.getD 1 0 < 2 ^ 15) :
    exec (.mcw n a) s = .next ((w.freedS [a]).slotBecomes n ⟨true, recs, none,
      ((s.core s.cx.id.core).slot n).waiters.erase s.cx.cid⟩).gone := by
  have hsame : (w.freedS [a]).SameSlots s := (freedS_sameSlots w [a]).trans ((loadRecs_sameSlots hrecs).trans
    ((loadImage_sameSlots hlen).trans (readsS_sameSlots hx)))
  refine run_of_ok ((plainGuards_pass hp).trans ((M.bind_of_ok (needSup_of hs)).trans ?_))
  refine (M.bind_of_ok (readS_of_readsS hx)).trans ((M.guard_pass fun h => absurd hal (bne_iff_ne.mp h)).trans ?_)
  refine (M.bind_of_ok (needNoFaults_of ho)).trans ((M.bind_of_ok hb).trans ((M.bind_of_ok hlen).trans ?_))
  refine (M.guard_pass fun h => absurd h (by simp; omega)).trans ((M.bind_of_ok hrecs).trans ?_)
  rw [findIdx?_recOk hok]
  refine (M.bind_of_ok (freeS_run a)).trans ((M.bind_get _).trans ?_)
  rw [← hsame.slot, ← hsame.cid]
  exact M.bind_of_ok (f := fun _ => advance) (modSlot_run _)

/-- Settles O10: each instruction passes its guards, and changes the context's place or the slot; what the image is read
through leaves the slots. -/
theorem microprograms : Obligations.Microprograms := by
  unfold Obligations.Microprograms
  intro s u v w n p0 p1 p2 p3 h a x recs hp
  refine ⟨mcall_enters hp, mcall_invalid hp, fun hs hleft => ⟨mcinv_clears hp hs (needSlot_of_left hleft),
    fun hx ho hal hlen h0 h32 hrecs hok => ?_⟩⟩
  have hb : needSlot n u = .ok ((), u) := by
    rw [readsS_same hx]
    exact needSlot_of_left hleft
  exact mcw_fills hp hs hb hx ho hal hlen h0 h32 hrecs hok

end Sys2Proof.Machine
end

section
/-! Scalar loads (O16) and scalar stores (O17). -/
namespace Sys2Proof.Machine

variable {s t u v w : State} {ty : ETy} {d key val n : Nat} {a b : Src} {x y z : Word} {imm : Int}

/-! ## Extension by type (R202) -/

/-- A pattern of `w` bits as a signed number. -/
theorem toInt_ofNat_of_lt {w val : Nat} (hw : 0 < w) (h : val < 2 ^ w) :
    (BitVec.ofNat w val).toInt = if val.testBit (w - 1) then (val : Int) - 2 ^ w else val := by
  rw [BitVec.toInt_eq_msb_cond, BitVec.msb_eq_getLsbD_last, BitVec.getLsbD_ofNat, BitVec.toNat_ofNat, Nat.mod_eq_of_lt h,
    decide_eq_true (show w - 1 < w by omega), Bool.true_and]
  rfl

theorem extendTy_signed (hs : tySigned ty = true) (hw : 0 < tyWidth ty) (h : val < 2 ^ tyWidth ty) :
    extendTy ty val = BitVec.signExtend 64 (BitVec.ofNat (tyWidth ty) val) := by
  rw [BitVec.signExtend, toInt_ofNat_of_lt hw h, extendTy, intOf, hs, Bool.true_and]

theorem extendTy_unsigned (hs : tySigned ty = false) : extendTy ty val = BitVec.ofNat 64 val := by
  rw [extendTy, intOf, hs]
  exact BitVec.ofInt_natCast 64 val

theorem mem_signed_iff : ty ∈ [ETy.i64, .i32, .i16, .i8] ↔ tySigned ty = true := by
  cases ty <;> decide

theorem extendTy_eq (hw : 0 < tyWidth ty) (h : val < 2 ^ tyWidth ty) :
    extendTy ty val = if ty ∈ [ETy.i64, .i32, .i16, .i8] then BitVec.signExtend 64 (BitVec.ofNat (tyWidth ty) val)
      else BitVec.ofNat 64 val := by
  simp only [mem_signed_iff]
  split
  next hs => exact extendTy_signed hs hw h
  next hs => exact extendTy_unsigned (Bool.eq_false_iff.mpr hs)

/-! ## Loads (R122, R202) -/

theorem readsS_ordered (h : s.readsS n = some (x, t)) : t.ordered = s.ordered := by
  rw [readsS_same h]
  rfl

theorem readsS_room (h : s.readsS n = some (x, t)) (cls : Nat) : t.room cls = s.room cls := by
  rw [readsS_same h]
  rfl

/-- A scalar load reads its base, and then the element at the place that the address leads to. -/
theorem load_run {k : Acc} {width : Nat} {conv : Nat → Word} (h : s.operands [a] = some ([x], u)) (ho : s.ordered = true)
    (hr : s.room 0 = true) (hal : (x + BitVec.ofInt 64 imm).toNat % n = 0)
    (hl : locate k (x + BitVec.ofInt 64 imm).toNat u = .ok (.ok key, v)) (hv : readAs k key n v = .ok (val, w))
    (hd : w.roomS d = true) :
    run (do let x ← readS a; loadS k d (x + immW imm) n width conv (freeS a)) s =
      .next ((w.gotS d (conv val)).counted 0).gone := by
  obtain ⟨t, hx, rfl⟩ := operands_one h
  refine run_of_ok ((M.bind_of_ok (readS_of_readsS hx)).trans ?_)
  exact loadS_run hal ((readsS_ordered hx).trans ho) ((readsS_room hx 0).trans hr) (freeS_run a) hl hv hd

/-- Settles O16: each form is the scalar load with its kind of access, its width and its extension. -/
theorem scalarLoads : Obligations.ScalarLoads := by
  unfold Obligations.ScalarLoads
  intro s u v w ty d key val a x imm h ho hr ea ext hd
  refine ⟨fun hal hl hv => load_run h ho hr hal hl hv hd, fun h8 hal hval => ?_⟩
  have hext : extendTy ty val = ext := extendTy_eq (by omega) hval
  rw [← hext]
  exact ⟨fun hl hv => load_run h ho hr hal hl hv hd, fun hl hv => load_run h ho hr hal hl hv hd⟩

/-! ## The bytes of a word (R39) -/

theorem bytesOfNat_mod : ∀ (n val : Nat), bytesOfNat n (val % 2 ^ (8 * n)) = bytesOfNat n val
  | 0, _ => rfl
  | n + 1, val => by
    have hlow : BitVec.ofNat 8 (val % 2 ^ (8 * (n + 1))) = BitVec.ofNat 8 val := by
      apply BitVec.eq_of_toNat_eq
      simp only [BitVec.toNat_ofNat]
      exact Nat.mod_mod_of_dvd _ (Nat.pow_dvd_pow 2 (by omega))
    have hhigh : val % 2 ^ (8 * (n + 1)) / 256 = val / 256 % 2 ^ (8 * n) := by
      rw [show 2 ^ (8 * (n + 1)) = 256 * 2 ^ (8 * n) by rw [Nat.mul_add, Nat.pow_add, Nat.mul_comm],
        Nat.mod_mul_right_div_self]
    simp only [bytesOfNat, hlow, hhigh, bytesOfNat_mod n]

/-- The bytes of a word, the lowest first. -/
theorem bytesOfNat_word {j : Nat} (y : Word) (h : j < n) : (bytesOfNat n y.toNat).getD j 0 = (y >>> (8 * j)).setWidth 8 := by
  rw [bytesOfNat_getD n _ j h]
  apply BitVec.eq_of_toNat_eq
  rw [BitVec.toNat_ofNat, BitVec.toNat_setWidth, BitVec.toNat_ushiftRight, Nat.shiftRight_eq_div_pow, Nat.pow_mul]

/-! ## Bytes put into a word (R233) -/

theorem intoWord_length (z : Word) {k : Nat} (hk : k ≤ 8) (bs : List Byte) : (intoWord z k bs).length = max 8 (k + bs.length) := by
  simp only [intoWord, List.length_append, List.length_take, List.length_drop, bytesOfNat_length]
  omega

/-- The bytes put in stand in their place. -/
theorem intoWord_getD_of_in (z : Word) {k j : Nat} {bs : List Byte} (hk : k ≤ 8) (hj : j < bs.length) :
    (intoWord z k bs).getD (k + j) 0 = bs.getD j 0 := by
  have htake : ((bytesOfNat 8 z.toNat).take k).length = k := by
    rw [List.length_take, bytesOfNat_length, Nat.min_eq_left hk]
  rw [intoWord, List.append_assoc, List.getD_append_right _ _ _ _ (by omega), htake, Nat.add_sub_cancel_left,
    List.getD_append _ _ _ _ hj]

/-- The word's other bytes stay. -/
theorem intoWord_getD_of_out (z : Word) {k j : Nat} {bs : List Byte} (hj : j < 8) (h : j < k ∨ k + bs.length ≤ j) (hk : k ≤ 8) :
    (intoWord z k bs).getD j 0 = (z >>> (8 * j)).setWidth 8 := by
  rw [← bytesOfNat_word z hj]
  have htake : ((bytesOfNat 8 z.toNat).take k).length = k := by
    rw [List.length_take, bytesOfNat_length, Nat.min_eq_left hk]
  rcases h with h | h
  · rw [intoWord, List.append_assoc, List.getD_append _ _ _ _ (by omega)]
    simp [List.getD_eq_getElem?_getD, h]
  · rw [intoWord, List.getD_append_right _ _ _ _ (by rw [List.length_append, htake]; exact h), List.length_append, htake]
    simp [List.getD_eq_getElem?_getD, List.getElem?_drop, Nat.add_sub_cancel' h]

/-! ## What a store writes (R202, R233) -/

section
variable {bs : List Byte}

/-- The bytes of a store stand at its place. -/
theorem putStore_read_in {j : Nat} (hm : v.MemWf) (hj : j < bs.length) :
    (v.putStore key bs).mem.read (key + j) = bs.getD j 0 := by
  cases ho : v.cx.oldWord key bs.length with
  | none =>
    rw [putStore_mem v key bs ho, Memory.read_putBytes _ _ _ hm, if_pos ⟨by omega, by omega⟩, Nat.add_sub_cancel_left]
  | some z =>
    have hk : key % 8 ≤ 8 := by omega
    have hat : key + j - key / 8 * 8 = key % 8 + j := by omega
    rw [putStore_old v key bs ho, Memory.read_putBytes _ _ _ hm, intoWord_length z hk, if_pos ⟨by omega, by omega⟩, hat,
      intoWord_getD_of_in z hk hj]

/-- No other byte changes, but in a word that a host write has left old. -/
theorem putStore_read_beyond {p : Nat} (hm : v.MemWf) (hp : beyond p (v.storeSpan key bs.length)) :
    (v.putStore key bs).mem.read p = v.mem.read p := by
  unfold State.storeSpan beyond at hp
  cases ho : v.cx.oldWord key bs.length with
  | none =>
    simp only [ho, Option.isSome_none, Bool.false_eq_true, if_false] at hp
    rw [putStore_mem v key bs ho, Memory.read_putBytes _ _ _ hm, if_neg (by omega)]
  | some z =>
    simp only [ho, Option.isSome_some, if_true] at hp
    rw [putStore_old v key bs ho, Memory.read_putBytes _ _ _ hm, intoWord_length z (by omega), if_neg (by omega)]

/-- Such a word goes home whole. -/
theorem putStore_read_old {j : Nat} (hm : v.MemWf) (ho : v.cx.oldWord key bs.length = some z) (hj : j < 8)
    (hb : beyond (key / 8 * 8 + j) (key, bs.length)) :
    (v.putStore key bs).mem.read (key / 8 * 8 + j) = (z >>> (8 * j)).setWidth 8 := by
  unfold beyond at hb
  have hout : j < key % 8 ∨ key % 8 + bs.length ≤ j := by omega
  rw [putStore_old v key bs ho, Memory.read_putBytes _ _ _ hm, intoWord_length z (by omega), if_pos ⟨by omega, by omega⟩,
    Nat.add_sub_cancel_left, intoWord_getD_of_out z hj hout (by omega)]

end

/-! ## Stores (R122, R202) -/

/-- A scalar store reads its base and its value, and writes the value's bytes at the place that the address leads to. -/
theorem store_run {width k : Nat} {f : Word → Nat} (h : s.operands [a, b] = some ([x, y], u)) (ho : s.ordered = true)
    (hr : s.room 1 = true) (hal : (x + BitVec.ofInt 64 imm).toNat % k = 0) (hf : bytesOfNat k (f y) = bytesOfNat k y.toNat)
    (hl : locate .store (x + BitVec.ofInt 64 imm).toNat u = .ok (.ok key, v)) :
    run (do let x ← readS a; let y ← readS b; storeS (x + immW imm) k width (f y) (do freeS a; freeS b)) s =
      .next ((v.putStore key (bytesOfNat k y.toNat)).counted 1).gone := by
  obtain ⟨t, w, hx, hy, rfl⟩ := operands_two h
  have ho' : w.ordered = true := (readsS_ordered hy).trans ((readsS_ordered hx).trans ho)
  have hr' : w.room 1 = true := (readsS_room hy 1).trans ((readsS_room hx 1).trans hr)
  have hfree : (do freeS a; freeS b : M Unit) w = .ok ((), w.freedS [a, b]) := (M.bind_of_ok (freeS_run a)).trans (freeS_run b)
  refine run_of_ok ((M.bind_of_ok (readS_of_readsS hx)).trans ((M.bind_of_ok (readS_of_readsS hy)).trans ?_))
  rw [← hf]
  exact storeS_run hal ho' hr' hfree hl

theorem tyWidth_bytes (h : 8 ≤ tyWidth ty) : 8 * (tyWidth ty / 8) = tyWidth ty := by
  revert h
  cases ty <;> decide

/-- Both forms of a scalar store write the low `n` bytes of the value. -/
theorem stores_run {i : Instr} (hi : n = 8 ∧ i = .st b a imm ∨ 8 ≤ tyWidth ty ∧ n = tyWidth ty / 8 ∧ i = .stx ty b a imm)
    (h : s.operands [a, b] = some ([x, y], u)) (ho : s.ordered = true) (hr : s.room 1 = true)
    (hal : (x + BitVec.ofInt 64 imm).toNat % n = 0)
    (hl : locate .store (x + BitVec.ofInt 64 imm).toNat u = .ok (.ok key, v)) :
    exec i s = .next ((v.putStore key (bytesOfNat n y.toNat)).counted 1).gone := by
  rcases hi with ⟨rfl, rfl⟩ | ⟨h8, rfl, rfl⟩
  · exact store_run h ho hr hal rfl hl
  · refine store_run (f := fun y => y.toNat % 2 ^ tyWidth ty) h ho hr hal ?_ hl
    have hmod := bytesOfNat_mod (tyWidth ty / 8) y.toNat
    rwa [tyWidth_bytes h8] at hmod

/-- Operands and the look-up of a place leave the memory, where no block changed its form and none became undefined. -/
theorem located_mem {k : Acc} {va : Nat} {r : Except Nat Nat} {l : List Src} {xs : List Word} (h : s.operands l = some (xs, u))
    (hl : locate k va u = .ok (r, v)) (he : v.expanded = s.expanded) (hf : v.free = u.free) : v.mem = s.mem := by
  have hlook := locate_lookedUp hl
  obtain ⟨m, z, rfl⟩ := operands_same h
  exact hlook.mem he hf

/-- Settles O17: both forms are one store at the place found; its frame is that of `putStore`, and of the look-up before it. -/
theorem scalarStores : Obligations.ScalarStores := by
  unfold Obligations.ScalarStores
  intro s u v ty key d a x y imm h ho hr hm n i hi hal hl
  have hlen : (bytesOfNat n y.toNat).length = n := bytesOfNat_length n _
  have hkept := putStore_kept v key (bytesOfNat n y.toNat)
  obtain ⟨-, hcnt, hctl, hregs⟩ := located_cx h hl
  have hbeyond {p : Nat} (hp : beyond p (v.storeSpan key n)) :
      (v.putStore key (bytesOfNat n y.toNat)).mem.read p = v.mem.read p :=
    putStore_read_beyond hm (by rwa [hlen])
  refine ⟨_, stores_run hi h ho hr hal hl, fun j hj => ?_, fun p hp => hbeyond hp, fun he hf p hp => ?_, fun z hz j hj hb => ?_,
    ?_, ?_, ?_⟩
  · exact (putStore_read_in hm (by rwa [hlen])).trans (bytesOfNat_word y hj)
  · rw [← located_mem h hl he hf]
    exact hbeyond hp
  · exact putStore_read_old hm (by rwa [hlen]) hj (by rwa [hlen])
  · rw [gone_r, ← hregs]
    exact (State.kept_r hkept :)
  · rw [gone_c, ← hctl]
    exact (congrArg Ctx.c (State.kept_cx hkept) :)
  · rw [gone_cnt, ← hcnt]
    exact congrArg (Counts.add · 1 1) (congrArg Ctx.cnt (State.kept_cx hkept) :)

end Sys2Proof.Machine
end

section
/-! `wait`, `fence`, and the maintenance of cache lines (O31). -/
namespace Sys2Proof.Machine

variable {α : Type} {s t u v : State} {sc : Scope} {ord : Order} {a : Src} {x ea : Word}

/-! ## What going on leaves -/

theorem gone_l1 : s.gone.cx.l1 = s.cx.l1 := by
  obtain ⟨p, m, h⟩ := gone_same s
  rw [h]
  rfl

theorem gone_st : s.gone.cx.st = s.cx.st := by
  obtain ⟨p, m, h⟩ := gone_same s
  rw [h]
  rfl

/-! ## Waiting on the counters (R127) -/

theorem within_iff {c : Counts} {l st cp m h : Nat} : c.within l st cp m h = true ↔
    (l = 7 ∨ c.load ≤ l) ∧ (st = 7 ∨ c.store ≤ st) ∧ (cp = 7 ∨ c.copy ≤ cp) ∧ (m = 7 ∨ c.matrix ≤ m) ∧
      (h = 7 ∨ c.head ≤ h) := by
  simp only [Counts.within, Bool.and_eq_true, Bool.or_eq_true, decide_eq_true_eq, and_assoc]

theorem needClasses_waits {l st cp m h : Nat} (hw : ¬ s.cx.cnt.within l st cp m h = true) :
    needClasses l st cp m h s = .error (.stall (.classes l st cp m h)) := by
  simp only [needClasses, M.bind_get, if_neg hw]
  rfl

theorem wait_goes {l st c m h : Nat} (hd : s.cx.drain = none) (hw : s.cx.cnt.within l st c m h = true) :
    exec (.wait l st c m h) s = .next s.gone :=
  run_of_ok ((M.bind_of_ok (notInDrain_of hd)).trans (M.bind_of_ok (f := fun _ => advance) (needClasses_of hw)))

theorem wait_waits {l st c m h : Nat} (hd : s.cx.drain = none) (hw : ¬ s.cx.cnt.within l st c m h = true) :
    exec (.wait l st c m h) s = .next (s.waits (.classes l st c m h)) :=
  run_of_stall ((M.bind_of_ok (notInDrain_of hd)).trans (M.bind_of_error (f := fun _ => advance) (needClasses_waits hw)))

/-! ## The guard of a release (R209, R248) -/

theorem needReleased_run : needReleased false s = if s.placed then .ok ((), s) else .error (.stall .faults) := by
  have hatoms : needAtomsDone s = if s.atoms.any fun e => e.2.cid = s.cx.cid then .error (.stall .faults) else .ok ((), s) := by
    rw [needAtomsDone, M.bind_get]
    split <;> rfl
  show needPlaced s = _
  rw [needPlaced, M.bind_get]
  split
  next hb => simp [State.placed, hb]
  next hb =>
    rw [hatoms]
    simp only [State.placed, hb]
    split
    next ha => simp [ha]
    next ha => simp [ha]

theorem needReleased_of_placed (h : s.placed = true) : needReleased false s = .ok ((), s) := by rw [needReleased_run, h]; rfl

theorem needReleased_waits (h : s.placed = false) : needReleased false s = .error (.stall .faults) := by
  rw [needReleased_run, h]
  rfl

/-! ## `fence` (R209) -/

theorem orderAcq_iff : orderAcq ord = true ↔ ord = .acq ∨ ord = .sc := by
  simp only [orderAcq, Bool.or_eq_true, decide_eq_true_eq]

theorem orderRel_iff : orderRel ord = true ↔ ord = .rel ∨ ord = .sc := by
  simp only [orderRel, Bool.or_eq_true, decide_eq_true_eq]

/-- A part of a meaning that is done under a condition, before the rest. -/
theorem M.when_run {c : Prop} [Decidable c] {m rest : M α} (h : c → m s = rest t) :
    (if c then m else rest) s = rest (if c then t else s) := by
  split
  next hc => exact h hc
  next => rfl

/-- The classes that a fence waits for. -/
theorem fence_within : s.cx.cnt.within (if orderAcq ord then 0 else 7) (if orderRel ord then 0 else 7) 7 7 7 = true ↔
    (orderAcq ord = true → s.cx.cnt.load = 0) ∧ (orderRel ord = true → s.cx.cnt.store = 0) := by
  rw [within_iff]
  cases orderAcq ord <;> cases orderRel ord <;> simp

theorem fence_waits_classes (hd : s.cx.drain = none)
    (h : ¬ ((orderAcq ord = true → s.cx.cnt.load = 0) ∧ (orderRel ord = true → s.cx.cnt.store = 0))) :
    exec (.fence sc ord) s =
      .next (s.waits (.classes (if orderAcq ord then 0 else 7) (if orderRel ord then 0 else 7) 7 7 7)) :=
  run_of_stall ((M.bind_of_ok (notInDrain_of hd)).trans (M.bind_of_error (needClasses_waits fun hw => h (fence_within.mp hw))))

theorem fence_waits_placed (hd : s.cx.drain = none)
    (h : (orderAcq ord = true → s.cx.cnt.load = 0) ∧ (orderRel ord = true → s.cx.cnt.store = 0))
    (hrel : orderRel ord = true) (hp : s.placed = false) : exec (.fence sc ord) s = .next (s.waits .faults) := by
  refine run_of_stall ((M.bind_of_ok (notInDrain_of hd)).trans ((M.bind_of_ok (needClasses_of (fence_within.mpr h))).trans ?_))
  exact M.guard_stop hrel (needReleased_waits hp)

/-- What a fence does once it waits no more. -/
def State.fencedBy (s : State) (sc : Scope) (ord : Order) : State :=
  let s1 := if orderRel ord then s.releases else s
  let s2 := if sc = .sys && orderRel ord then s1.cleanAll false else s1
  if sc = .sys && orderAcq ord then s2.onCx Ctx.acquiredSys else s2

theorem fence_runs (hd : s.cx.drain = none)
    (h : (orderAcq ord = true → s.cx.cnt.load = 0) ∧ (orderRel ord = true → s.cx.cnt.store = 0))
    (hp : orderRel ord = true → s.placed = true) : exec (.fence sc ord) s = .next (s.fencedBy sc ord).gone := by
  refine run_of_ok ((M.bind_of_ok (notInDrain_of hd)).trans ((M.bind_of_ok (needClasses_of (fence_within.mpr h))).trans ?_))
  refine (M.when_run (t := s.releases) fun hr => ?_).trans ?_
  · exact M.bind_of_ok (needReleased_of_placed (hp hr))
  · refine (M.when_run fun _ => M.bind_modify _ _).trans ?_
    exact (M.when_run fun _ => M.bind_modCx _ _).trans rfl

/-- Writing the cache back leaves the context but for its first-level cache. -/
theorem cleanAll_kept (s : State) (drop : Bool) : (s.cleanAll drop).kept = s.kept :=
  foldl_keeps (g := State.kept) (fun s (l : Line) => settle_kept s (lineWords l.line l.written)) s.cx.l1.data s

/-- No line of the cache has a written word. -/
theorem cleanAll_written (s : State) : ∀ l ∈ (s.cleanAll false).cx.l1.data, l.written = 0 := by
  intro l hl
  obtain ⟨m, -, rfl⟩ := List.mem_map.mp hl
  rfl

theorem acquiredSys_old (c : Ctx) : ∀ l ∈ c.acquiredSys.l1.data, l.old = [] := by
  intro l hl
  obtain ⟨m, -, rfl⟩ := List.mem_map.mp hl
  rfl

/-- Dropping what a host write has left old leaves the written words. -/
theorem acquiredSys_written {c : Ctx} (h : ∀ l ∈ c.l1.data, l.written = 0) : ∀ l ∈ c.acquiredSys.l1.data, l.written = 0 := by
  intro l hl
  obtain ⟨m, hm, rfl⟩ := List.mem_map.mp hl
  exact h m hm

theorem fencedBy_local (h : sc ≠ .sys) : s.fencedBy sc ord = if orderRel ord then s.releases else s := by
  simp only [State.fencedBy, decide_eq_false h, Bool.false_and, Bool.false_eq_true, if_false]

/-- A release at system scope, before what the acquire of the same fence does. -/
def State.releasedSys (s : State) (ord : Order) : State := if orderRel ord then s.releases.cleanAll false else s

theorem fencedBy_sys : s.fencedBy .sys ord =
    if orderAcq ord then (s.releasedSys ord).onCx Ctx.acquiredSys else s.releasedSys ord := by
  simp only [State.fencedBy, State.releasedSys, decide_true, Bool.true_and]
  cases orderRel ord <;> rfl

/-- A fence at system scope leaves memory and the registers. -/
theorem fencedBy_sys_frame : (s.fencedBy .sys ord).mem = s.mem ∧ (s.fencedBy .sys ord).cx.r = s.cx.r ∧
    (s.fencedBy .sys ord).cx.c = s.cx.c := by
  have hrel : (s.releasedSys ord).mem = s.mem ∧ (s.releasedSys ord).cx.r = s.cx.r ∧ (s.releasedSys ord).cx.c = s.cx.c := by
    unfold State.releasedSys
    split
    · have hkept := State.kept_cx (cleanAll_kept s.releases false)
      exact ⟨State.cleanAll_mem .., (congrArg Ctx.r hkept :), (congrArg Ctx.c hkept :)⟩
    · exact ⟨rfl, rfl, rfl⟩
  rw [fencedBy_sys]
  split
  · exact hrel
  · exact hrel

theorem fencedBy_sys_releases (h : orderRel ord = true) :
    (s.fencedBy .sys ord).cx.st.fenced = true ∧ ∀ l ∈ (s.fencedBy .sys ord).cx.l1.data, l.written = 0 := by
  have hr : s.releasedSys ord = s.releases.cleanAll false := if_pos h
  have hst : (s.releases.cleanAll false).cx.st.fenced = true :=
    (congrArg (fun c : Ctx => c.st.fenced) (State.kept_cx (cleanAll_kept s.releases false)) :)
  rw [fencedBy_sys, hr]
  split
  · exact ⟨hst, acquiredSys_written (cleanAll_written _)⟩
  · exact ⟨hst, cleanAll_written _⟩

theorem fencedBy_sys_acquires (h : orderAcq ord = true) :
    (s.fencedBy .sys ord).cx.l1.const = [] ∧ ∀ l ∈ (s.fencedBy .sys ord).cx.l1.data, l.old = [] := by
  rw [fencedBy_sys, if_pos h]
  exact ⟨rfl, acquiredSys_old _⟩

/-! ## Looking up the line of an address (R210) -/

section
variable {cls : Option Nat} {k : Acc} {key cause : Nat}

theorem lineAt_of_local (h : isGlobal ea.toNat = false) : lineAt cls k ea s = .ok (none, s) := by
  simp only [lineAt, h]
  rfl

theorem lineAt_of_fault (h : isGlobal ea.toNat = true) (hl : locateIn cls k ea.toNat s = .ok (.error cause, v)) :
    lineAt cls k ea s = .ok (none, v) := by
  simp only [lineAt, h, if_true]
  exact M.bind_of_ok hl

theorem lineAt_of_place (h : isGlobal ea.toNat = true) (hl : locateIn cls k ea.toNat s = .ok (.ok key, v)) :
    lineAt cls k ea s = .ok (some (key / 128), v) := by
  simp only [lineAt, h, if_true]
  exact M.bind_of_ok hl

end

/-! ## `pref` (R210) -/

theorem operands_ways (h : s.operands [a] = some ([x], u)) : u.cx.ways = s.cx.ways := by
  obtain ⟨_, _, rfl⟩ := operands_same h
  rfl

/-- The line that `pref` brings into the cache. -/
def State.prefetched (s : State) (wr : Bool) (line : Nat) : State :=
  s.useLine { (s.cx.lineOf line).filled with perm := (s.cx.lineOf line).filled.perm || wr }

section
variable {wr : Bool} {imm : Int}

theorem pref_uncached (hd : s.cx.drain = none) (h : s.operands [a] = some ([x], u)) (hw : s.cx.ways = 0) :
    exec (.pref wr a imm) s = .next u.gone := by
  refine run_of_ok ((M.bind_of_ok (notInDrain_of hd)).trans ((readFree_one h).trans ((M.bind_get _).trans ?_)))
  rw [operands_ways h, hw]
  rfl

/-- `pref` of a context with a cache, where the look-up answers no line. -/
theorem pref_nothing (hd : s.cx.drain = none) (h : s.operands [a] = some ([x], u)) (hw : s.cx.ways ≠ 0)
    (hl : lineAt none (if wr then .store else .load) (x + BitVec.ofInt 64 imm) u = .ok (none, v)) :
    exec (.pref wr a imm) s = .next v.gone := by
  refine run_of_ok ((M.bind_of_ok (notInDrain_of hd)).trans ((readFree_one h).trans ((M.bind_get _).trans ?_)))
  rw [operands_ways h, bne_iff_ne.mpr hw]
  exact M.bind_of_ok hl

theorem pref_line {line : Nat} (hd : s.cx.drain = none) (h : s.operands [a] = some ([x], u)) (hw : s.cx.ways ≠ 0)
    (hl : lineAt none (if wr then .store else .load) (x + BitVec.ofInt 64 imm) u = .ok (some line, v)) :
    exec (.pref wr a imm) s = .next (v.prefetched wr line).gone := by
  refine run_of_ok ((M.bind_of_ok (notInDrain_of hd)).trans ((readFree_one h).trans ((M.bind_get _).trans ?_)))
  rw [operands_ways h, bne_iff_ne.mpr hw]
  exact M.bind_of_ok hl

end

/-- The line used comes first. -/
theorem useLine_head (s : State) (l : Line) : ∃ w, (s.useLine l).cx.l1.data.head? = some { l with way := w } := by
  unfold State.useLine
  dsimp only
  split
  · exact ⟨l.way, rfl⟩
  · exact ⟨_, congrArg (fun c : Ctx => c.l1.data.head?)
      (foldl_keeps (g := State.cx) (f := fun s (e : Line) => s.settle (lineWords e.line e.written)) (fun _ _ => rfl) _ _)⟩

theorem lineOf_line (c : Ctx) (line : Nat) : (c.lineOf line).line = line := by
  unfold Ctx.lineOf
  cases h : c.l1.data.find? fun m => m.line = line with
  | none => rfl
  | some l => simpa using List.find?_some h

theorem prefetched_kept (s : State) (wr : Bool) (line : Nat) : (s.prefetched wr line).kept = s.kept := useLine_kept ..

theorem prefetched_head (s : State) (wr : Bool) (line : Nat) : ∃ l, (s.prefetched wr line).cx.l1.data.head? = some l ∧
    l.line = line ∧ l.valid = BitVec.allOnes 16 ∧ (wr = true → l.perm = true) := by
  obtain ⟨w, hw⟩ := useLine_head s { (s.cx.lineOf line).filled with perm := (s.cx.lineOf line).filled.perm || wr }
  exact ⟨_, hw, lineOf_line s.cx line, rfl, fun h => by simp [h]⟩

/-! ## `clwb` and `clinv` (R210) -/

/-- The words of a line that the cache holds go home, counted in the store class. -/
def State.cleaned (s : State) (line : Nat) (drop : Bool) : State :=
  if s.cx.l1.data.any fun m => m.line = line then (s.cleanLine line drop).counted 1 else s.cleanLine line drop

theorem cleanLine_absent {line : Nat} {drop : Bool} (h : (s.cx.l1.data.any fun m => m.line = line) = false) :
    s.cleanLine line drop = s := by
  have hfind : (s.cx.l1.data.find? fun m => m.line = line) = none := by
    simpa using List.any_eq_false.mp h
  simp only [State.cleanLine, hfind]

section
variable {drop : Bool} {line : Nat}

theorem clean_nothing (hd : s.cx.drain = none) (h : s.operands [a] = some ([x], u)) (hr : s.room 1 = true)
    (hl : lineAt (some 1) .load x u = .ok (none, v)) : run (clean a drop) s = .next v.gone := by
  obtain ⟨t, hx, rfl⟩ := operands_one h
  have hr' : t.room 1 = true := (readsS_room hx 1).trans hr
  refine run_of_ok ((M.bind_of_ok (notInDrain_of hd)).trans ((M.bind_of_ok (readS_of_readsS hx)).trans ?_))
  exact (M.bind_of_ok (needRoom_of_room hr')).trans ((M.bind_of_ok (freeS_run a)).trans (M.bind_of_ok hl))

theorem clean_line (hd : s.cx.drain = none) (h : s.operands [a] = some ([x], u)) (hr : s.room 1 = true)
    (hl : lineAt (some 1) .load x u = .ok (some line, v)) : run (clean a drop) s = .next (v.cleaned line drop).gone := by
  obtain ⟨t, hx, rfl⟩ := operands_one h
  have hr' : t.room 1 = true := (readsS_room hx 1).trans hr
  refine run_of_ok ((M.bind_of_ok (notInDrain_of hd)).trans ((M.bind_of_ok (readS_of_readsS hx)).trans ?_))
  refine (M.bind_of_ok (needRoom_of_room hr')).trans ((M.bind_of_ok (freeS_run a)).trans ((M.bind_of_ok hl).trans ?_))
  refine (M.bind_get _).trans ?_
  have hcheck : check (v.cx.l1.data.any fun m => m.line = line) (do modify fun s => s.cleanLine line drop; count 1) v =
      .ok ((), v.cleaned line drop) := by
    rw [check_run, State.cleaned]
    split
    next => rfl
    next hno => rw [cleanLine_absent (Bool.eq_false_iff.mpr hno)]
  exact M.bind_of_ok (f := fun _ => advance) hcheck

/-- What is counted is no part of the memory, the caches, or what the home owes. -/
theorem cleaned_same (s : State) (line : Nat) (drop : Bool) : (s.cleaned line drop).mem = s.mem ∧
    (s.cleaned line drop).cx.l1 = (s.cleanLine line drop).cx.l1 ∧
    (s.cleaned line drop).home = (s.cleanLine line drop).home := by
  unfold State.cleaned
  split
  · exact ⟨State.cleanLine_mem .., rfl, rfl⟩
  · exact ⟨State.cleanLine_mem .., rfl, rfl⟩

theorem cleanLine_cnt (s : State) (line : Nat) (drop : Bool) : (s.cleanLine line drop).cx.cnt = s.cx.cnt := by
  unfold State.cleanLine
  split <;> rfl

theorem cleaned_cnt (s : State) (line : Nat) (drop : Bool) : (s.cleaned line drop).cx.cnt =
    if s.cx.l1.data.any fun m => m.line = line then s.cx.cnt.add 1 1 else s.cx.cnt := by
  unfold State.cleaned
  split
  · exact congrArg (Counts.add · 1 1) (cleanLine_cnt s line drop)
  · exact cleanLine_cnt s line drop

/-- Where the cache holds no such line, none of its lines is it. -/
theorem not_line_of_find?_none {l : Line} {ls : List Line} (h : (ls.find? fun m => m.line = line) = none) (hl : l ∈ ls) :
    l.line ≠ line := by
  simpa using List.find?_eq_none.mp h l hl

theorem cleanLine_drops (s : State) (line : Nat) : ∀ l ∈ (s.cleanLine line true).cx.l1.data, l.line ≠ line := by
  intro l hl
  unfold State.cleanLine at hl
  split at hl
  next hnone => exact not_line_of_find?_none hnone hl
  next m hm => exact bne_iff_ne.mp (List.mem_filter.mp hl).2

theorem cleanLine_keeps (s : State) (line : Nat) :
    (s.cleanLine line false).cx.l1.data.map (·.line) = s.cx.l1.data.map (·.line) := by
  unfold State.cleanLine
  split
  next => rfl
  next m hm =>
    show (s.cx.l1.data.map fun m => if m.line = line then { m with written := 0 } else m).map (·.line) = _
    rw [List.map_map]
    refine List.map_congr_left fun l _ => ?_
    simp only [Function.comp_apply]
    split <;> rfl

theorem cleanLine_written (s : State) (line : Nat) :
    ∀ l ∈ (s.cleanLine line false).cx.l1.data, l.line = line → l.written = 0 := by
  intro l hl hline
  unfold State.cleanLine at hl
  split at hl
  next hnone => exact absurd hline (not_line_of_find?_none hnone hl)
  next m hm =>
    obtain ⟨q, -, rfl⟩ := List.mem_map.mp hl
    split
    next => rfl
    next hq => rw [if_neg hq] at hline; exact absurd hline hq

/-- Words that have reached the home differ there no more. -/
theorem settled_get?_none {w : Nat} : ∀ {ws : List Nat} {h : Tab Word}, (w ∈ ws ∨ h.get? w = none) →
    (ws.foldl (fun h w => h.erase w) h).get? w = none
  | [], _, hw => hw.resolve_left (by simp)
  | v :: ws, h, hw => by
    refine settled_get?_none (ws := ws) ?_
    by_cases hv : w = v
    · exact .inr (hv ▸ Tab.get?_erase_self h v)
    · rw [Tab.get?_erase_ne h hv]
      exact hw.imp_left fun hm => (List.mem_cons.mp hm).resolve_left hv

theorem cleanLine_home {l : Line} {i : Nat} (hf : (s.cx.l1.data.find? fun m => m.line = line) = some l) (hi : i < 16)
    (hb : l.written.getLsbD i = true) : (s.cleanLine line drop).home.get? (line * 16 + i) = none := by
  have hmem : line * 16 + i ∈ lineWords line l.written :=
    List.mem_map.mpr ⟨i, List.mem_filter.mpr ⟨List.mem_range.mpr hi, hb⟩, rfl⟩
  simp only [State.cleanLine, hf]
  exact settled_get?_none (.inl hmem)

end

/-! ## The obligation -/

/-- `fence`, once its classes are empty. -/
theorem fence_clauses (hd : s.cx.drain = none) (hl : ord = .acq ∨ ord = .sc → s.cx.cnt.load = 0)
    (hs : ord = .rel ∨ ord = .sc → s.cx.cnt.store = 0) :
    ((ord = .rel ∨ ord = .sc) → s.placed = false → exec (.fence sc ord) s = .next (s.waits .faults)) ∧
    ((ord = .rel ∨ ord = .sc → s.placed = true) →
      (sc ≠ .sys → exec (.fence sc ord) s = .next (if ord = .rel ∨ ord = .sc then s.releases else s).gone) ∧
      (sc = .sys → ∃ t, exec (.fence sc ord) s = .next t ∧ t.mem = s.mem ∧ t.cx.r = s.cx.r ∧ t.cx.c = s.cx.c ∧
        (ord = .rel ∨ ord = .sc → t.cx.st.fenced = true ∧ ∀ l ∈ t.cx.l1.data, l.written = 0) ∧
        (ord = .acq ∨ ord = .sc → t.cx.l1.const = [] ∧ ∀ l ∈ t.cx.l1.data, l.old = []))) := by
  simp only [← orderAcq_iff, ← orderRel_iff] at hl hs ⊢
  refine ⟨fence_waits_placed hd ⟨hl, hs⟩, fun hp => ⟨fun hsc => ?_, fun hsc => ?_⟩⟩
  · rw [fence_runs hd ⟨hl, hs⟩ hp, fencedBy_local hsc]
  · subst hsc
    obtain ⟨hmem, hr, hc⟩ := fencedBy_sys_frame (s := s) (ord := ord)
    refine ⟨_, fence_runs hd ⟨hl, hs⟩ hp, hmem, gone_r.trans hr, gone_c.trans hc, fun h => ?_, fun h => ?_⟩
    · rw [gone_st, gone_l1]
      exact fencedBy_sys_releases h
    · rw [gone_l1]
      exact fencedBy_sys_acquires h

/-- `pref` of a global address whose place is found. -/
theorem pref_clauses {wr : Bool} {imm : Int} {key : Nat} (hd : s.cx.drain = none) (h : s.operands [a] = some ([x], u))
    (hw : s.cx.ways ≠ 0) (hg : isGlobal (x + BitVec.ofInt 64 imm).toNat = true)
    (hl : locateIn none (if wr then .store else .load) (x + BitVec.ofInt 64 imm).toNat u = .ok (.ok key, v)) :
    ∃ t l, exec (.pref wr a imm) s = .next t ∧ t.cx.l1.data.head? = some l ∧ l.line = key / 128 ∧
      l.valid = BitVec.allOnes 16 ∧ (wr = true → l.perm = true) ∧ t.mem = v.mem ∧ t.bads = s.bads ∧
      t.cx.r = u.cx.r ∧ t.cx.c = s.cx.c ∧ t.cx.cnt = s.cx.cnt := by
  obtain ⟨l, hhead, hline, hvalid, hperm⟩ := prefetched_head v wr (key / 128)
  have hlook := locateIn_lookedUp hl
  have hkept := State.kept_cx (prefetched_kept v wr (key / 128))
  have hu : u.cx.c = s.cx.c ∧ u.cx.cnt = s.cx.cnt ∧ u.bads = s.bads := by
    obtain ⟨_, _, rfl⟩ := operands_same h
    exact ⟨rfl, rfl, rfl⟩
  obtain ⟨huc, hucnt, hubads⟩ := hu
  refine ⟨_, l, pref_line hd h hw (lineAt_of_place hg hl), by rw [gone_l1]; exact hhead, hline, hvalid, hperm,
    useLine_mem .., (useLine_bads ..).trans (hlook.bads.trans hubads), ?_, ?_, ?_⟩
  · rw [gone_r, ← hlook.cx]
    exact (congrArg Ctx.r hkept :)
  · rw [gone_c, ← huc, ← hlook.cx]
    exact (congrArg Ctx.c hkept :)
  · rw [gone_cnt, ← hucnt, ← hlook.cx]
    exact (congrArg Ctx.cnt hkept :)

/-- `clinv` and `clwb` of a global address whose place is found. -/
theorem clean_clauses {key : Nat} (hd : s.cx.drain = none) (h : s.operands [a] = some ([x], u)) (hr : s.room 1 = true)
    (hg : isGlobal x.toNat = true) (hl : locateIn (some 1) .load x.toNat u = .ok (.ok key, v)) :
    let cnt := if s.cx.l1.data.any (fun l => l.line = key / 128) then s.cx.cnt.add 1 1 else s.cx.cnt
    ∃ t p, exec (.clinv a) s = .next t ∧ exec (.clwb a) s = .next p ∧ t.mem = v.mem ∧ p.mem = v.mem ∧
      t.cx.cnt = cnt ∧ p.cx.cnt = cnt ∧ (∀ l ∈ t.cx.l1.data, l.line ≠ key / 128) ∧
      p.cx.l1.data.map (·.line) = s.cx.l1.data.map (·.line) ∧ (∀ l ∈ p.cx.l1.data, l.line = key / 128 → l.written = 0) ∧
      ∀ l, s.cx.l1.data.find? (fun l => l.line = key / 128) = some l → ∀ i, i < 16 → l.written.getLsbD i = true →
        t.home.get? (key / 128 * 16 + i) = none ∧ p.home.get? (key / 128 * 16 + i) = none := by
  have hlook := locateIn_lookedUp hl
  have hu : u.cx.l1 = s.cx.l1 ∧ u.cx.cnt = s.cx.cnt := by
    obtain ⟨_, _, rfl⟩ := operands_same h
    exact ⟨rfl, rfl⟩
  have hl1 : v.cx.l1 = s.cx.l1 := by rw [hlook.cx, hu.1]
  have hcnt : v.cx.cnt = s.cx.cnt := by rw [hlook.cx, hu.2]
  obtain ⟨hmt, hlt, hht⟩ := cleaned_same v (key / 128) true
  obtain ⟨hmp, hlp, hhp⟩ := cleaned_same v (key / 128) false
  intro cnt
  refine ⟨_, _, clean_line hd h hr (lineAt_of_place hg hl), clean_line hd h hr (lineAt_of_place hg hl), hmt, hmp, ?_, ?_, ?_,
    ?_, ?_, fun l hf i hi hb => ?_⟩
  · rw [gone_cnt, cleaned_cnt, hl1, hcnt]
  · rw [gone_cnt, cleaned_cnt, hl1, hcnt]
  · rw [gone_l1, hlt]
    exact cleanLine_drops v _
  · rw [gone_l1, hlp, ← hl1]
    exact cleanLine_keeps v _
  · rw [gone_l1, hlp]
    exact cleanLine_written v _
  · rw [← hl1] at hf
    exact ⟨(congrArg (Tab.get? · _) hht).trans (cleanLine_home hf hi hb),
      (congrArg (Tab.get? · _) hhp).trans (cleanLine_home hf hi hb)⟩

/-- Settles O31: each instruction passes its guards or waits at one; what it then does to the cache and to the words that are
owed leaves memory. -/
theorem waitsAndFences : Obligations.WaitsAndFences := by
  unfold Obligations.WaitsAndFences
  constructor
  · intro s u v sc ord wr a x imm key cause hnd acq rel
    have hd := State.notDrain_iff.mp hnd
    refine ⟨fun hl hs => fence_clauses hd hl hs, fun hcls => ?_,
      fun h => ⟨fun hw => ?_, fun hw hg => ⟨fun hl => ?_, fun hl => ?_⟩,
      fun hg hr => ⟨clean_nothing hd h hr (lineAt_of_local hg), clean_nothing hd h hr (lineAt_of_local hg)⟩,
      fun hg hr hl => clean_clauses hd h hr hg hl⟩⟩
    · have hwait := fence_waits_classes (sc := sc) (ord := ord) hd
      simp only [orderAcq_iff, orderRel_iff] at hwait
      refine hwait fun ⟨hl, hs⟩ => hcls.elim (fun ⟨ha, hne⟩ => hne (hl ha)) fun ⟨hr, hne⟩ => hne (hs hr)
    · by_cases hw0 : s.cx.ways = 0
      · exact pref_uncached hd h hw0
      · exact pref_nothing hd h hw0 (lineAt_of_local (hw.resolve_left hw0))
    · exact pref_nothing hd h hw (lineAt_of_fault hg hl)
    · exact pref_clauses hd h hw hg hl
  · intro s l st c m h hnd within
    have hd := State.notDrain_iff.mp hnd
    exact ⟨fun hw => wait_goes hd (within_iff.mpr hw), fun hw => wait_waits hd (mt within_iff.mp hw)⟩

end Sys2Proof.Machine
end
